-- ==== Sys2Proof/Word.lean ====
section
/-! DEFINITION. The words the manual numbers: bytes and 16-, 32- and 64-bit words, and the GC count. -/
namespace Sys2Proof

/-- One byte of a store or of a record. -/
abbrev Byte := BitVec 8
/-- A halfword, for example a TAG or an EPOCH (Table 12.1, R311). -/
abbrev W16 := BitVec 16
/-- A 32-bit word, for example an `F32` pattern or a length register (R70). -/
abbrev W32 := BitVec 32
/-- A 64-bit word, for example an amax register (R64). -/
abbrev W64 := BitVec 64
/-- The global count in nanoseconds (R365). -/
abbrev Gc := BitVec 64

end Sys2Proof
end

