-- ==== Sys2Proof/Syntax.lean ====
section
/-! DEFINITION. The commands of the block: one constructor per row of the table of operations and events. -/
namespace Sys2Proof

/-- A slot of the command port below its OPCODE field, with the three stamps (R309, R311).
`head` is bits [25:0] of the opcode word: COUNT [25:23], CW [22], reserved [21:16], TAG [15:0].
`rest` is the words after the opcode word, in the order of R309. -/
structure SlotOps where
  head   : BitVec 26
  rest   : List W32
  epoch  : W16
  tenant : BitVec 3
  priv   : Bool
  deriving DecidableEq, Repr

/-- One box of a declaration (R424): bit [42] write, [41:21] last line, [20:0] first line. -/
structure BoxOp where
  write : Bool
  hi    : BitVec 21
  lo    : BitVec 21
  deriving DecidableEq, Repr

/-- One roll claim of a declaration (R424): [20:5] n, [4] produce, [3:0] roll. -/
structure ClaimOp where
  n       : W16
  produce : Bool
  roll    : BitVec 4
  deriving DecidableEq, Repr

/-- The paths to the object dictionary (R340). -/
inductive Path
  | operator | driver | tenant
  deriving DecidableEq, Repr

/-- The two settlement rings (R211): `cluster` is SCOPE 0, `die` is SCOPE 1. -/
inductive Scope
  | cluster | die
  deriving DecidableEq, Repr

/-- The straps of Table 17.2, sampled at a reset release (R421). -/
structure Straps where
  pos      : BitVec 2
  cluster  : BitVec 2
  die      : BitVec 8
  otpLock  : Bool
  testMode : Bool
  deriving DecidableEq, Repr

/-- The arrays whose MBIST failure leaves the unit offline (R439). -/
inductive CoreArray
  | rowTable | preImage | settlement | curve
  deriving DecidableEq, Repr

/-- What MBIST found (R439): failing scratchpad words, lanes whose Till slice failed, a failing array. -/
structure MbistReport where
  words : List Nat
  lanes : List (Nat × Nat)
  array : Option CoreArray
  deriving DecidableEq, Repr

/-- Where a residue check failed (Table 15.1, R401). -/
inductive ResidueSite
  | lane (group lane : Nat) | tally | precise | merge (tag : W16)
  deriving DecidableEq, Repr

/-- What an access over the IEEE 1687 network asks for (R443, R446). -/
inductive Instrument
  | sensors | powerState | laneMap | scrubCounters
  | scanChain | mbistControl | dataArray (addr : Nat) | romRead | keyArea (addr : Nat)
  | otpProgram (addr : Nat) (bits : Byte)
  deriving DecidableEq, Repr

/-- The commands of the block, one per row of the table. -/
inductive Instr
  -- slots of the command port (Table 12.2)
  | fn (o : SlotOps)
  | cvt (o : SlotOps)
  | red (o : SlotOps)
  | scan (o : SlotOps)
  | sel (o : SlotOps)
  | smxa (o : SlotOps)
  | smxn (o : SlotOps)
  | aresScore (o : SlotOps)
  | aresRescale (o : SlotOps)
  | aresFinal (o : SlotOps)
  | normWhole (o : SlotOps)
  | normSum1 (o : SlotOps)
  | normSum2 (o : SlotOps)
  | normApply (o : SlotOps)
  | xentStats (o : SlotOps)
  | xentGrad (o : SlotOps)
  | rope (o : SlotOps)
  | optAdamw (o : SlotOps)
  | optMomentumSgd (o : SlotOps)
  | merge (o : SlotOps)
  | settle (o : SlotOps)
  | mint (o : SlotOps)
  | fnsync (o : SlotOps)
  | rollset (o : SlotOps)
  | setlen (o : SlotOps)
  | assayOpen (o : SlotOps)
  | assayClose (o : SlotOps)
  | assayRead (o : SlotOps)
  | assayFold (o : SlotOps)
  | assayAmread (o : SlotOps)
  | assayAmclr (o : SlotOps)
  | sealing (o : SlotOps)
  | cfgRead (o : SlotOps)
  | cfgWrite (o : SlotOps)
  | waitgc (o : SlotOps)
  | stmt (o : SlotOps)
  | tenant (o : SlotOps)
  /-- A slot whose six OPCODE bits are `code`, a value outside Table 12.2. -/
  | reservedOpcode (code : BitVec 6) (o : SlotOps)
  | slotDropped
  -- steps of commands in the unit
  | issueAfterWait
  | escrowWatchdog (tag : W16)
  | beatReadStart
  | beatWriteComplete
  | hardCaseResolution
  | rowResult
  | commandRetirement
  | curveInstall
  | curveSlotInvalidate
  | rollSetEffect
  /-- Positions of the beat, `none` where the valid bit is clear; positions beyond the list are invalid. -/
  | accPresentation (beat : List (Option W32))
  -- the escrow port (R293, R424)
  | escrowDeclaration (tag : W16) (engine : BitVec 3) (boxes : List BoxOp) (claims : List ClaimOp)
  | grant (tag : W16)
  | retirementReport (tag : W16)
  | rollAcquire (tag : W16) (roll : BitVec 4) (seq : W32)
  | rollPublish (tag : W16) (roll : BitVec 4) (seq : W32)
  | rollRelease (tag : W16) (roll : BitVec 4) (seq : W32)
  | rollWatchdog (tag : W16)
  -- the scratchpad's common side (R265)
  | wAccess (write : Bool) (line : BitVec 21) (tag : W16) (data : List Byte)
  | nAccess (write : Bool) (word : BitVec 24) (be : Byte) (data : W64)
  | guardedNRequest
  | forcedScrubSteal
  | idleScrub (bank : BitVec 6)
  | correctionWriteback
  /-- `failed`: the lines that failed the check twice (R281). -/
  | scratchpadClearDone (failed : List Nat)
  -- settlement rings (R214, R225 to R228)
  | partSend (tag : W16) (row : W16)
  | flitReceive (scope : Scope) (flit : List Byte)
  | ackReceive (scope : Scope) (word : W16)
  | ackTimeout (scope : Scope)
  | settlementBufferTimeout
  -- time (R365 to R374)
  | syncPulse (count : Gc)
  | syncPulseMissing
  | fclkChange (mhz : BitVec 12)
  | epochSwitch
  | waitgcRelease
  | checkerRotationStep
  /-- The two sensor readings in 1/16 degC (PW_TEMP0, PW_TEMP1) and PW_LEVEL. -/
  | telemetrySample (temp0 temp1 : W16) (level : BitVec 3)
  | receiptWindowTest
  | idleTimeout
  | pwGrant
  | laneGroupPowerStep
  -- faults (chapter 15)
  | residueMismatch (site : ResidueSite)
  | checkerMismatch (group : BitVec 3)
  | laneTestComplete (lanePasses checkerPasses : Bool)
  | tableRomParity (rom : Nat)
  | romScanPass (mismatch : Option Nat)
  | lockstepMismatch (signals : W32)
  -- receipts and notices
  | signatureComplete
  | noticeSigned
  -- management (chapter 13)
  | frameRead (eid : Byte) (frame : List Byte)
  | frameWrite (eid : Byte) (frame : List Byte)
  | frameCancel (eid : Byte) (frame : List Byte)
  | transactionTimeout
  | rateWindow
  | doorbell (value : W32)
  | release (value : W32)
  | driverWindowWrite (offset : BitVec 10) (value : W32)
  | odWrite (path : Path) (index : W16) (sub : Byte) (value : List Byte)
  | switchGcWrite (path : Path) (value : List Byte)
  | disarm (path : Path) (value : List Byte)
  | rotate (path : Path) (value : List Byte)
  | keyGenerated
  | keyrt
  | receiptRelease (path : Path) (value : List Byte)
  | rollRecordWrite (path : Path) (roll : BitVec 4) (sub : Byte) (value : List Byte)
  | counterClear (path : Path) (value : List Byte)
  | eventRingEnable (path : Path) (value : List Byte)
  | statementRead (path : Path)
  | eventPost
  | eventWriteDone (failed : Bool)
  -- resets and start-up (chapter 17)
  | coldReset
  | otpLoad (straps : Straps)
  | mbist (report : MbistReport)
  | romCheck (failed : List Nat)
  /-- (group, lane) of each lane that fails; lane 32 is the checker, lane 33 the spare (R397, R439). -/
  | laneSelfTest (failed : List (Nat × Nat))
  | keyGeneration
  | keyGenerationTimeout
  | warmReset
  | warmStart (straps : Straps)
  | testLogicReset
  | idcode
  | bypass (ir : Byte)
  | ijtagAccess (instrument : Instrument)
  | frozenStateExit
  | powerDownStep
  deriving DecidableEq, Repr

end Sys2Proof
end

