-- ==== Sys2Proof/WellFormed.lean ====
section
/-! DEFINITION. Well-formed commands: the operands that a row of the table and the ports of Table 17.2 allow. -/
namespace Sys2Proof

/-- Word `i` after the opcode word; a missing word is 0. -/
def SlotOps.word (o : SlotOps) (i : Nat) : W32 := o.rest.getD i 0

/-- COUNT, bits [25:23] of the opcode word. -/
def SlotOps.count (o : SlotOps) : Nat := o.head.toNat / 2 ^ 23 % 8

/-- Word `i` of the chain word, which follows the descriptors (R309). -/
def SlotOps.chainWord (o : SlotOps) (i : Nat) : W32 := o.word (4 * o.count + i)

/-- A slot has at most 25 words (R309). -/
def SlotOps.short (o : SlotOps) : Bool := decide (o.rest.length ≤ 24)

/-- Bits [hi:lo] of chain word word `i` hold `v`. -/
def SlotOps.field (o : SlotOps) (i hi lo v : Nat) : Bool := (o.chainWord i).toNat / 2 ^ lo % 2 ^ (hi + 1 - lo) == v

/-- APH of `ARES` (Table 12.9). -/
def SlotOps.aph (o : SlotOps) (v : Nat) : Bool := o.short && o.field 3 8 7 v
/-- NPH of `NORM` (Table 12.9). -/
def SlotOps.nph (o : SlotOps) (v : Nat) : Bool := o.short && o.field 3 11 10 v
/-- XPH of `XENT` (Table 12.10). -/
def SlotOps.xph (o : SlotOps) (v : Nat) : Bool := o.short && o.field 1 7 7 v
/-- ALG of `OPT` (Table 12.12). -/
def SlotOps.alg (o : SlotOps) (v : Nat) : Bool := o.short && o.field 1 31 30 v
/-- The operation of `ASSAY` (Table 12.12). -/
def SlotOps.assayOp (o : SlotOps) (v : Nat) : Bool := o.short && o.field 0 18 16 v
/-- The direction of `CFG`: 0 read, 1 write (Table 12.12). -/
def SlotOps.cfgDir (o : SlotOps) (v : Nat) : Bool := o.short && o.field 0 24 24 v

/-- OPCODE values outside Table 12.2. -/
def reservedCode (c : BitVec 6) : Bool :=
  c == 0 || c == 0x0F || (decide (0x19 ≤ c.toNat) && decide (c.toNat ≤ 0x3E))

/-- A lane of the array: group and lane. -/
def laneOk (top : Nat) (p : Nat × Nat) : Bool := decide (p.1 < 8) && decide (p.2 ≤ top)

/-- A declaration carries at most 15 boxes and 3 claims (R424). -/
def declOk (boxes : List BoxOp) (claims : List ClaimOp) : Bool := decide (boxes.length ≤ 15) && decide (claims.length ≤ 3)

/-- The operator and the driver path reach the dictionary by accesses of their own; the tenant path by `CFG` (R340). -/
def pathOk : Path → Bool
  | .tenant => false
  | _ => true

/-- OP of a frame: byte 1 (Table 13.6). -/
def frameOp (f : List Byte) : Byte := f.getD 1 0

/-- Whether a command is well formed. -/
def wellFormed : Instr → Bool
  | .fn o | .cvt o | .red o | .scan o | .sel o | .smxa o | .smxn o | .rope o | .merge o | .settle o | .mint o | .fnsync o
  | .rollset o | .setlen o | .sealing o | .waitgc o | .stmt o | .tenant o => o.short
  | .aresScore o => o.aph 0
  | .aresRescale o => o.aph 1
  | .aresFinal o => o.aph 2
  | .normWhole o => o.nph 0
  | .normSum1 o => o.nph 1
  | .normSum2 o => o.nph 2
  | .normApply o => o.nph 3
  | .xentStats o => o.xph 0
  | .xentGrad o => o.xph 1
  | .optAdamw o => o.alg 0
  | .optMomentumSgd o => o.alg 1
  | .assayOpen o => o.assayOp 0
  | .assayClose o => o.assayOp 1
  | .assayRead o => o.assayOp 2
  | .assayFold o => o.assayOp 3
  | .assayAmread o => o.assayOp 4
  | .assayAmclr o => o.assayOp 5
  | .cfgRead o => o.cfgDir 0
  | .cfgWrite o => o.cfgDir 1
  | .reservedOpcode c o => reservedCode c && o.short
  | .accPresentation beat => decide (beat.length ≤ 256)
  | .escrowDeclaration _ _ boxes claims => declOk boxes claims
  | .wAccess write _ _ data => if write then data.length == 512 else data.isEmpty
  | .flitReceive _ flit => flit.length == 80
  | .syncPulse count => count.toNat % 1000000 == 0
  | .fclkChange mhz => decide (600 ≤ mhz.toNat) && decide (mhz.toNat ≤ 2000)
  | .residueMismatch (.lane g l) => laneOk 31 (g, l)
  | .tableRomParity rom => decide (rom ≤ 8)
  | .romScanPass (some rom) => decide (rom ≤ 8)
  | .mbist r => r.lanes.all (laneOk 31)
  | .romCheck failed => failed.all fun r => decide (r ≤ 8)
  | .laneSelfTest failed => failed.all (laneOk 33)
  | .frameRead _ f => frameOp f != 2 && frameOp f != 3
  | .frameWrite _ f => frameOp f == 2
  | .frameCancel _ f => frameOp f == 3
  | .odWrite p _ _ _ | .switchGcWrite p _ | .disarm p _ | .rotate p _ | .receiptRelease p _ | .rollRecordWrite p _ _ _
  | .counterClear p _ | .eventRingEnable p _ | .statementRead p => pathOk p
  | .bypass ir => ir != 0x01 && ir != 0x10
  | .slotDropped | .issueAfterWait | .escrowWatchdog _ | .beatReadStart | .beatWriteComplete | .hardCaseResolution | .rowResult
  | .commandRetirement | .curveInstall | .curveSlotInvalidate | .rollSetEffect | .grant _ | .retirementReport _
  | .rollAcquire .. | .rollPublish .. | .rollRelease .. | .rollWatchdog _ | .nAccess .. | .guardedNRequest | .forcedScrubSteal
  | .idleScrub _ | .correctionWriteback | .scratchpadClearDone _ | .partSend .. | .ackReceive .. | .ackTimeout _
  | .settlementBufferTimeout | .syncPulseMissing | .epochSwitch | .waitgcRelease | .checkerRotationStep | .telemetrySample ..
  | .receiptWindowTest | .idleTimeout | .pwGrant | .laneGroupPowerStep | .residueMismatch .tally | .residueMismatch .precise
  | .residueMismatch (.merge _) | .checkerMismatch _ | .laneTestComplete .. | .romScanPass none | .lockstepMismatch _
  | .signatureComplete | .noticeSigned | .transactionTimeout | .rateWindow | .doorbell _ | .release _ | .driverWindowWrite ..
  | .keyGenerated | .keyrt | .eventPost | .eventWriteDone _ | .coldReset | .otpLoad _ | .keyGeneration | .keyGenerationTimeout
  | .warmReset | .warmStart _ | .testLogicReset | .idcode | .ijtagAccess _ | .frozenStateExit | .powerDownStep => true

end Sys2Proof
end

