-- ==== Sys2Proof/Config.lean ====
section
/-! DEFINITION. What an implementation fixes and the manual leaves open: free values (no body) and the reference
configuration. -/
namespace Sys2Proof.Config

/-- Free value (R101, log 4): for a fast-form function `code` and argument `u`, whether the fast value lies at the upper
end of what its bound allows where the bound allows two `F32` results. -/
opaque fastHigh : (code : Nat) → (u : W32) → Bool

/-- Free value (R107, log 5): Wotra's list of hard arguments for a function, output format (its code of Table 1.1), rounding
code and scale byte. R108 bounds it: `hardArgument` looks at no more than 2^17 of its entries. -/
opaque hardArguments : (code fmt rnd scale : Nat) → List W32

/-- Whether an argument is in the fixed set of hard arguments (R107), of which there are at most 2^17 (R108). -/
def hardArgument (code fmt rnd scale : Nat) (u : W32) : Bool := ((hardArguments code fmt rnd scale).take (2 ^ 17)).contains u

/-- Free value (R192, log 5): whether the lanes' rounding test, with 1/S held to 64 bits, leaves a strict quotient to the
precise pipe; the arguments are the output format, the rounding code, the scale byte, the quotient and S. -/
opaque quotientOpen : (fmt rnd scale : Nat) → (q s : Rat) → Bool

/-- Free value (R181, log 88): whether the lanes' rounding test leaves the significand of a delivered value's term to the precise pipe,
where the error of the lanes' value allows both. -/
opaque termOpen : (u : W32) → Bool

/-- Free value (R207, log 6): whether the fast cross-entropy loss takes the upper of the two `F32` neighbours of the
exact loss. The arguments are what the loss is computed from, so that equal states give equal results (R220, R237): pivot,
A, the sum of the values, target value, COUNT and λ. -/
opaque lossHigh : (pivot : W32) → (a sum : Rat) → (target count lam : W32) → Bool

/-- Free value (R201, R220, log 21): the ε with which a `SETTLE` or `MERGE` closes a normalisation state; no field of either
command carries one. -/
opaque closeEps : W32

/-- Free value (R207, R220, log 21): the λ with which a `SETTLE` or `MERGE` closes a cross-entropy state. -/
opaque closeLambda : W32

/-- Free value (R384, log 7): the unit's estimate in mW of its mean power over the last 1 ms at an issue level, at the
sample with the given count of draws, formed with the nine energy values of the OTP. -/
opaque powerAt : (energy : List W32) → (draw level : Nat) → BitVec 12

/-- Free value (R444, log 92): the nine energy values that stand in for those of an OTP whose trims cannot be read. -/
opaque energyDefault : Nat → W32

/-- Free value (R442, log 92): the reading that a sensor's offset and gain make of a raw one, where they are not 0 and 1.0. -/
opaque trimmed : (offset gain raw : W16) → W16

/-- Free value (R266, log 48): the slips of a beat of a command, which follow the cycles of common-side accesses; those of a command without
beats stand at beat 0. -/
opaque slips : (tag beat cycle : Nat) → Nat

/-- Free value (R177, R271, R419, log 48): what holds a command in an FCLK cycle in which it starts no beat: 1 the read stream, 2 the
write stream, 3 the tally or the merge datapath, 4 the precise pipe, else none of them. -/
opaque streamLimit : (tag cycle : Nat) → BitVec 3

/-- Free value (R258, log 10): the draw c that rejection sampling accepts, any number from 0 to n − 2 for the order n of P-384; the
private scalar is c + 1. -/
opaque keyDraw : Nat → Fin 39402006196394479212279040100143613805079739270465446667946905279627659399113263569398956308152294913554433653942642

/-- Free value (R365, log 3): the level of TB_INC in a TCLK cycle, counted from the cold reset. -/
opaque tbInc : Nat → BitVec 2

/-- Free value (R445, log 8): Boerazia's JEP106 code in IDCODE [11:1], which the manual does not give. -/
opaque jep106 : BitVec 11

/-- Free value (R438, R444, log 13): the cause in a `UNITX` detail while the unit is offline for a reason Table 15.6 does not
list. The argument counts the free values drawn. -/
opaque offlineCause : Nat → BitVec 8

/-- Free value (R446, log 8): what the IEEE 1687 network shifts out of an instrument whose contents the manual does not give. -/
opaque testData : Nat → BitVec 32

/-- The scratchpad of the reference configuration YE256/24 (R5), in MiB. -/
def referenceMiB : Nat := 24

end Sys2Proof.Config
end

