-- ==== Sys2Proof/Machine/State.lean ====
section
/-! DEFINITION. The state of the block as plain data, its value right after a cold reset, and the reasons a step can
stop. -/
namespace Sys2Proof.Machine
open Sys2Proof

/-! ### Names -/

/-- The eleven formats of Table 1.1. -/
inductive Fmt
  | f32 | f16 | y16 | y8a | y8b | y4 | y8s | s8 | u8 | s4 | s32
  deriving DecidableEq, Repr

/-- The rounding codes of Table 2.2. -/
inductive Rnd
  | rne | rtz | rup | rdn | rto | sr
  deriving DecidableEq, Repr

/-- The five exception flags (R42). -/
structure Flags where
  iv : Bool := false
  dz : Bool := false
  ov : Bool := false
  uf : Bool := false
  nx : Bool := false
  deriving DecidableEq, Repr

/-- A value between stages: a NaN, a signed infinity, a signed zero or an exact nonzero number. -/
inductive Val
  | nan
  | inf (neg : Bool)
  | zero (neg : Bool)
  | fin (q : Rat)
  deriving DecidableEq, Repr

/-- How S6 treats what a stage hands it (R40, R78, R104). -/
inductive Hand
  /-- an exact result of S2, S4, `ROPE`, a scan or a division: an `F32` output is one rounding, a narrower one goes
  through the round-to-odd intermediate of R40, `S32` is one rounding of the exact value -/
  | exact
  /-- an exact value rounded once into every format, with no intermediate (R172, R192, R198, R208; an element passed) -/
  | once
  /-- a built-in function: narrow outputs round f(u), `S32` rounds z, an `F32` output is z when `fast` (R104, R105) -/
  | func (fast : Bool)
  /-- a strict softmax quotient with divisor `s`: rounded once, by the test of R106 with 1/s held to 64 bits, which leaves the value
  uncertain by `err` either way (R192, R198, R208) -/
  | quot (s err : Rat)
  deriving DecidableEq, Repr

/-- What S6 receives for one element: the value it rounds, the `F32` value v of the amax rule (R65; also z of a
function), the flags raised before S6, and whether the rounding test leaves the element to the precise pipe (R106). -/
structure S6In where
  val  : Val
  v    : W32
  hand : Hand
  fl   : Flags
  /-- FUNC, or 0 -/
  code : Nat
  /-- the function's argument u, for the hard-case test -/
  u    : W32
  deriving DecidableEq, Repr

/-! ### Mode sets, time, registers -/

/-- A mode set (Tables 2.1 and 9.1). -/
structure ModeSet where
  strict : Bool
  rnd    : Rnd
  nonsat : Bool
  inflim : Bool
  seed   : W64
  key    : W64
  deriving DecidableEq, Repr

/-- The defaults of Tables 2.1 and 9.1. -/
def ModeSet.default : ModeSet :=
  { strict := false, rnd := .rne, nonsat := false, inflim := true, seed := 0, key := 0x5D2B97C43E81A6F3 }

/-- 0x7200:02. -/
inductive TimeState
  | notAligned | aligned | frozen | holdover
  deriving DecidableEq, Repr

structure TimeBase where
  q            : Gc
  v            : Gc
  state        : TimeState
  lastSync     : Gc
  backEpisodes : W32
  largestBack  : W64
  fwdJumps     : W32
  fwdSteps     : W32
  missed       : W32
  /-- pulses missed since the last pulse -/
  gap          : Nat
  realign      : Bool
  fmhz         : BitVec 12
  /-- level of TB_INC in the cycle to come -/
  inc          : BitVec 2
  /-- FCLK cycles since the cold reset (the model's count for watchdogs) -/
  cycle        : Nat
  /-- thousandths of an FCLK cycle already passed -/
  phase        : Nat
  /-- ns of running FCLK -/
  runNs        : Nat
  /-- TCLK cycles since the cold reset -/
  tclk         : Nat
  /-- cycle of the last sync pulse, from which throttling counts (R382) -/
  syncAt       : Nat
  /-- FCLK cycles in which the issue level lets a beat start, which the escrow watchdog counts (R296) -/
  live         : Nat
  deriving DecidableEq, Repr

/-- The epoch schedule (Table 14.4) and the three mode sets (R372). -/
structure Epochs where
  cur        : ModeSet
  prev       : ModeSet
  pend       : ModeSet
  pendEpoch  : W16
  switchGc   : Gc
  curEpoch   : W16
  prevEpoch  : W16
  armed      : Bool
  lastSwitch : Gc
  deriving DecidableEq, Repr

/-- The length and geometry registers (R70, R134). -/
structure Regs where
  len : Vector W32 4
  gt  : W32
  gh  : W32
  gw  : W32
  deriving DecidableEq, Repr

inductive CurveState
  | empty | valid | invalidated
  deriving DecidableEq, Repr

/-- A curve slot and its record (Table 5.2). -/
structure Curve where
  st       : CurveState
  src      : W32
  bytes    : W16
  nseg     : W16
  tableId  : W32
  crc      : W32
  installs : W32
  gcLast   : Gc
  image    : List Byte
  deriving DecidableEq, Repr

def Curve.default : Curve :=
  { st := .empty, src := 0, bytes := 0, nseg := 0, tableId := 0, crc := 0, installs := 0, gcLast := 0, image := [] }

inductive AssayState
  | idle | opened | closed
  deriving DecidableEq, Repr

/-- An assay accumulator (R240). -/
structure Assay where
  st    : AssayState
  value : W64
  count : BitVec 48
  deriving DecidableEq, Repr

/-! ### Stores -/

/-- A narrow request that waits (R265). -/
structure NWait where
  word    : BitVec 24
  since   : Nat
  guarded : Bool
  deriving DecidableEq, Repr

inductive ClearFor
  | tenant | warm
  deriving DecidableEq, Repr

/-- 0x6010 (Table 10.5). -/
structure SpadHealth where
  corrected : W32
  uncorr    : W32
  poisoned  : W32
  lastAddr  : W32
  lastSynd  : Byte
  lastGc    : Gc
  passes    : W32
  steals    : W64
  passGc    : Gc
  longest   : W32
  slips     : W64
  conflicts : W32
  deriving DecidableEq, Repr

/-- The scratchpad (chapter 10). `mem` is in the canonical form of `Memory.wf`; `synd` lists the words whose stored
check bits differ from those of their data and address, with the difference (the syndrome of R275), rising. -/
structure Spad where
  mem       : List Host.Cell
  synd      : List (Nat × Byte)
  ptr       : Vector Nat 64
  wrapped   : BitVec 64
  /-- words queued for a correction write-back, with the syndrome seen -/
  wb        : List (Nat × Byte)
  /-- running-clock ns of the last visit, by line -/
  visits    : List (Nat × Nat)
  nextSteal : Gc
  clearing  : Option ClearFor
  nWait     : Option NWait
  /-- the cycle and the first line of the last W access served (R265) -/
  wAt       : Option (Nat × Nat)
  health    : SpadHealth
  deriving DecidableEq, Repr

/-! ### Escrow and rolls -/

/-- A range entry (R286, Table 13.9): engine 0 is the unit. -/
structure Entry where
  tag    : W16
  engine : BitVec 3
  write  : Bool
  lo     : Nat
  hi     : Nat
  deriving DecidableEq, Repr

/-- A roll claim in flight (R300, R304). `acquired` slots have been taken to fill or read, `done` published or
released. -/
structure Claim where
  tag      : W16
  roll     : Nat
  produce  : Bool
  first    : W32
  n        : Nat
  acquired : Nat
  done     : Nat
  /-- cycle since which the claim waits for its next slot -/
  since    : Option Nat
  deriving DecidableEq, Repr

inductive RollState
  | disabled | active | faultedU | faultedO
  deriving DecidableEq, Repr

/-- A roll record (Table 11.4). -/
structure Roll where
  enable    : Bool
  base      : W32
  slotb     : W32
  nslot     : W16
  overwrite : Bool
  hseq      : W32
  tseq      : W32
  st        : RollState
  rhead     : W32
  rtail     : W32
  dropped   : W32
  lastTag   : W16
  /-- overwrite mode: sequence numbers whose slot is not their value modulo NSLOT, with the slot (R305) -/
  moved     : List (W32 × Nat)
  deriving DecidableEq, Repr

def Roll.default : Roll :=
  { enable := false, base := 0, slotb := 0, nslot := 0, overwrite := false, hseq := 0, tseq := 0, st := .disabled,
    rhead := 0, rtail := 0, dropped := 0, lastTag := 0xFFFF, moved := [] }

/-- A command of another engine that has been granted (R293). -/
structure EngineCmd where
  tag    : W16
  engine : BitVec 3
  deriving DecidableEq, Repr

structure Escrow where
  entries      : List Entry
  engines      : List EngineCmd
  /-- the tags of the commands in flight of every engine, in the order of their issue (R289, R296) -/
  order        : List W16
  /-- writes of roll records whose box waits: the roll, its new record, the tags with entries older than the write (R307) -/
  sets         : List (Nat × Roll × List W16)
  watchdog     : W32
  rollWatchdog : W32
  highest      : Byte
  waited       : W64
  refusals     : W32
  deriving DecidableEq, Repr

/-! ### Commands in the unit -/

/-- A slot with its whole opcode word. -/
structure Slot where
  words  : List W32
  epoch  : W16
  tenant : BitVec 3
  priv   : Bool
  deriving DecidableEq, Repr

/-- One position of a beat after S1: `row` and `k` as in R22, `pos` the lane. -/
structure Elem where
  row   : Nat
  k     : Nat
  pos   : Nat
  /-- the accumulator's valid bit; set for every other source (R91) -/
  valid : Bool
  keep  : Bool
  /-- the MASK bit under SSEG (R171) -/
  mark  : Bool
  x     : W32
  y     : W32
  rv    : W32
  cv    : W32
  fl    : Flags
  deriving DecidableEq, Repr

/-- One write of a command: masked bits of a scratchpad byte, a Till lane, or an accumulator position. -/
inductive Wr
  | mem (addr : Nat) (mask bits : Byte)
  | till (entry lane : Nat) (w : W32)
  | acc (pos : Nat) (w : W32)
  deriving DecidableEq, Repr

/-- What a beat's read stage fetches for one row beside its elements: the loaded record (R148), the target of `XENT` (R206) and the
keep bits of the MASK bytes that fall in the beat under EXPAND (R267). -/
structure RowIn where
  row    : Nat
  record : List Byte
  target : W32
  keeps  : List Bool
  deriving DecidableEq, Repr

/-- A beat between its read and its write. -/
structure Beat where
  idx   : Nat
  elems : List Elem
  ins   : List RowIn
  deriving DecidableEq, Repr

/-- A beat that waits for the precise pipe (R109): its writes, and the lane groups whose queues hold it (R110). -/
structure HardBeat where
  idx    : Nat
  writes : List Wr
  groups : Byte
  deriving DecidableEq, Repr

/-- A bank conflict that a command's descriptors imply (R270). -/
structure Conflict where
  beat  : Nat
  descA : Nat
  descB : Nat
  bank  : Nat
  read  : Bool
  /-- the lines of a conflicting write group, none of which is written -/
  lines : List Nat
  deriving DecidableEq, Repr

/-- An input element kept for an output row that compress or expand packs (R85); none for an accumulator position whose
valid bit is clear, which expand takes and does not write (R84). -/
structure Packed where
  s6  : Option S6In
  deriving DecidableEq, Repr

/-- Broadcast values in the latch (R73): the operand's place among the roles ROW, COL, GAM and BET (0 to 3), the index of the
first value held, and the stored codes. -/
structure Bcast where
  role  : Nat
  first : Nat
  codes : List Nat
  deriving DecidableEq, Repr

/-- Progress of one row of a `SETTLE` (R214): the partial record held, the positions merged, whether this unit sent its
part, the settled record with MA once it stands, whether the row is settled: its record is in place. -/
structure SettleRow where
  sent    : Bool
  record  : List Byte
  merged  : List Nat
  final   : Option (List Byte × W32)
  settled : Bool
  deriving DecidableEq, Repr

/-- A unit command between issue and retirement (R360). -/
structure Inflight where
  slot    : Slot
  /-- mode set of the epoch the command executes under (R312) -/
  modes   : ModeSet
  /-- length and geometry registers captured at issue (R70, R134) -/
  regs    : Regs
  /-- cycle of issue, and the escrow watchdog's count then in force (R217, R296) -/
  issued  : Nat
  limit   : Nat
  /-- cycle of issue or of the last beat moved (R358) -/
  since   : Nat
  started : Nat
  left    : Nat
  beats   : List Beat
  hard    : List HardBeat
  /-- rows whose state is opened, loaded or continued -/
  opened  : Nat
  /-- rows whose result is available -/
  rowsDone : Nat
  flags   : Flags
  vanish  : W32
  satcnt  : W32
  xund    : Bool
  xovr    : Bool
  pivx    : Bool
  asValue : W64
  asCount : BitVec 48
  /-- amax updates not yet combined, in the layout of Table 2.6 -/
  amax    : W64
  pre     : List (Nat × List Byte)
  /-- words of the pre-images with an error: 16 times the place in `pre` plus the word, and the syndrome (R404) -/
  preSynd : List (Nat × Byte)
  pack    : List Packed
  /-- the records loaded for the rows of the last beat read (R148) -/
  recs    : List (Nat × List Byte)
  /-- the keep bits of the row that expand packs, as far as its beats have brought them (R85) -/
  keeps   : List Bool
  /-- the writes of the beats that still run are withheld (R448) -/
  muted   : Bool
  /-- VANISH and SATCNT of the outputs written for a row whose result is not yet out: row, counts -/
  counts  : List (Nat × Nat × Nat)
  conflict : Option Conflict
  /-- the read and write pieces of its lane streams, each with its beat key: 0 ahead of beat 0, b + 1 at beat b (R268) -/
  pieces   : List Nat × List Nat
  /-- lines that several of its steps write, with the beats and the row results that must be through before the line is written,
  and the bytes gathered for them (R267) -/
  due      : List (Nat × Nat × Nat)
  gather   : List Wr
  /-- words latched before the first beat: FREQ of `ROPE`, the constants of `OPT` -/
  latch   : List W32
  /-- the broadcast latch (R73) -/
  bcast   : List Bcast
  /-- bytes the command writes at retirement, or the staged image of `MINT` -/
  data    : List Byte
  /-- the stores of a command with LD = ST = 1, made after its last beat (R449) -/
  writes  : List Wr
  /-- the first row of a `MERGE` whose inputs do not match (R222) -/
  badRow  : Option Nat
  d0      : W32
  d1      : W32
  fault   : Option W16
  detail  : List Byte
  replays : BitVec 2
  /-- residue mismatches in its merges (R401) -/
  merges  : BitVec 2
  /-- beats with a valid position that no row covers (R92) -/
  accpv   : W32
  accSeen : Nat
  settle  : List SettleRow
  /-- the command's own event has come (install, effect, release, clear done), or it faulted at issue -/
  ready   : Bool
  deriving DecidableEq, Repr

/-- What waits at issue, in stream order (R289): a unit slot, or a declaration of another engine. `arrived` is the cycle in
which it was taken, `since` the count of live cycles at which the escrow watchdog began its wait with the value then in force, none while it
does not count (R296, R371) or while it stands behind an older one (DESIGN CHOICE, log 95). -/
inductive Waiting
  | unit (slot : Slot) (arrived : Nat) (since : Option (Nat × Nat))
  | decl (tag : W16) (engine : BitVec 3) (boxes : List BoxOp) (claims : List ClaimOp) (arrived : Nat)
    (since : Option (Nat × Nat))
  deriving DecidableEq, Repr

/-! ### Digests, receipts, keys -/

/-- A running SHA-384 (FIPS 180-4). -/
structure Sha where
  h   : List W64
  buf : List Byte
  len : Nat
  deriving DecidableEq, Repr

/-- The fault summary of a digest range (Table 9.6). -/
structure Summary where
  replays   : W16
  corrected : W16
  faulted   : Byte
  remaps    : Nat
  settleF   : Bool
  minted    : Bool
  curvx     : Bool
  tbjmp     : Bool
  latel     : Bool
  accpv     : Bool
  eccue     : Bool
  epold     : Bool
  deriving DecidableEq, Repr

def Summary.zero : Summary :=
  { replays := 0, corrected := 0, faulted := 0, remaps := 0, settleF := false, minted := false, curvx := false,
    tbjmp := false, latel := false, accpv := false, eccue := false, epold := false }

/-- A digest context (R248). -/
structure Digest where
  live     : Bool
  tenant   : BitVec 3
  epoch    : W16
  sha      : Sha
  count    : W64
  tagFirst : W16
  tagLast  : W16
  gcStart  : Gc
  sum      : Summary
  deriving DecidableEq, Repr

def Sha.empty : Sha := { h := [], buf := [], len := 0 }

def Digest.closed : Digest :=
  { live := false, tenant := 0, epoch := 0, sha := .empty, count := 0, tagFirst := 0xFFFF, tagLast := 0xFFFF,
    gcStart := 0, sum := .zero }

/-- The life of a receipt (Table 13.10 STATE 1 to 3, then the notice). -/
inductive RcptStatus
  | queued | signed | noticeQueued | noticed
  deriving DecidableEq, Repr

/-- An entry of the receipt store (R252). `reason` is set when the receipt is invalidated (R254). -/
structure Receipt where
  rseq     : W64
  tenant   : BitVec 3
  gcSeal   : Gc
  gcStart  : Gc
  deadline : Gc
  record   : List Byte
  sig      : List Byte
  notice   : List Byte
  nsig     : List Byte
  status   : RcptStatus
  reason   : Option (Nat × Gc)
  confirmed : Bool
  deriving DecidableEq, Repr

structure Receipts where
  entries  : List Receipt
  signQ    : List W64
  noticeQ  : List W64
  /-- whether the signing engine serves a notice next (R252) -/
  noticeTurn : Bool
  rseq     : W64
  /-- exposure intervals [E, D] with their reason (R254) -/
  exposures : List (Gc × Gc × Nat)
  lastConfirm : Gc
  deriving DecidableEq, Repr

inductive Rotation
  | idle | generating | waiting | programming
  deriving DecidableEq, Repr

/-- The OTP array (R442): manufacture bytes, the syndromes of its 64-bit words, the key area's valid generations and the
transition records. -/
structure Otp where
  bytes : List Host.Cell
  synd  : List (Nat × Byte)
  keys  : List (BitVec 384)
  trans : List (List Byte)
  deriving DecidableEq, Repr

structure Keys where
  keygen : W16
  rot    : Rotation
  next   : Option (BitVec 384)
  /-- the transition record that is being programmed (R260) -/
  record : List Byte
  /-- key generation of the first start is running (R438) -/
  gen    : Bool
  /-- step 8 waits for that key (R438) -/
  need   : Bool
  /-- TCLK cycle in which that generation began -/
  began  : Nat
  deriving DecidableEq, Repr

/-- What the OTP load took into the dictionary (R343, R259). -/
structure Ident where
  serial : W64
  part   : List Byte
  vendor : W32
  chain  : List Byte
  trans  : List (List Byte)
  deriving DecidableEq, Repr

/-- The trims that the OTP load reads (Table 17.7): offset and gain of each sensor, the nine energy values. -/
structure Trims where
  sensor0 : W16 × W16
  sensor1 : W16 × W16
  energy  : List W32
  deriving DecidableEq, Repr

/-- Offset 0 and gain 1.0. -/
def Trims.neutral : W16 × W16 := (0, 0x8000)

/-! ### Ledger, event rings, management -/

/-- A Ledger entry (Table 15.5). -/
structure LEntry where
  gc     : Gc
  code   : W16
  tag    : W16
  ctx    : Option (BitVec 3)
  seq    : W32
  detail : List Byte
  deriving DecidableEq, Repr

/-- The sources whose entries are limited to one per millisecond (R450). -/
inductive LimitSource
  | bank (n : Nat) | structure (n : Nat) | roll (n : Nat) | throttle
  deriving DecidableEq, Repr

structure Limit where
  source : LimitSource
  /-- the window of the last entry, if one was logged -/
  window : Option Nat
  /-- events since that entry -/
  count  : W32
  deriving DecidableEq, Repr

structure Ledger where
  entries : List LEntry
  tail    : W32
  limits  : List Limit
  deriving DecidableEq, Repr

/-- An event ring (Table 15.8). `next` is the SEQ of the next entry it considers. -/
structure EvRing where
  enable  : Bool
  base    : W64
  size    : W32
  groups  : W16
  ctxs    : Byte
  wr      : W32
  rd      : W32
  dropped : W32
  policy  : Bool
  next    : W32
  deriving DecidableEq, Repr

def EvRing.default : EvRing :=
  { enable := false, base := 0, size := 64, groups := 0x07FE, ctxs := 0xFF, wr := 0, rd := 0, dropped := 0,
    policy := false, next := 0 }

/-- A value per path. -/
structure PerPath (α : Type) where
  operator : α
  driver   : α
  tenant   : α
  deriving DecidableEq, Repr

/-- An open transaction (R350 to R352). -/
structure Transaction where
  tid   : W16
  write : Bool
  index : W16
  sub   : Byte
  /-- the captured value, or the bytes of a write so far -/
  bytes : List Byte
  total : Nat
  last  : Nat
  gc    : Gc
  deriving DecidableEq, Repr

/-- A partner (R352, R356); `none` is the driver path. -/
structure Partner where
  eid        : Option Byte
  open_      : List Transaction
  timedOut   : List W16
  violations : Nat
  limited    : Bool
  deriving DecidableEq, Repr

structure Mgmt where
  partners   : List Partner
  /-- requests of the management port that wait, with their endpoints (R353) -/
  queue      : List (Byte × List Byte)
  /-- frames that the driver has submitted and that wait for their turn (R346, R354) -/
  asked      : List (List Byte)
  /-- an access has been served in this TCLK cycle -/
  taken      : Bool
  req        : List Byte
  resp       : List Byte
  busy       : Bool
  ready      : Bool
  served     : W64
  aborts     : W32
  violations : W32
  limited    : W32
  timeouts   : W32
  discards   : W32
  window     : Nat
  lockMask   : W32
  lockRefused : W32
  /-- each path's Statement buffer and its capture GC (R359, R363) -/
  stmts      : PerPath (List Byte × Gc)
  selRcpt    : PerPath W64
  selLedger  : PerPath W32
  selRing    : PerPath Byte
  deriving DecidableEq, Repr

/-! ### Power, tenants, faults -/

/-- 0x7000:06. -/
inductive PowerState
  | run | gated | sleep | waking | halt
  deriving DecidableEq, Repr

/-- The writable items of 0x7000 that take effect at a sample (Table 14.8). -/
structure PowerSet where
  lateWin : W32
  cap     : W16
  sleep   : Bool
  delay   : W16
  period  : W32
  deriving DecidableEq, Repr

/-- A floor breach in progress (R385). -/
structure Breach where
  start  : Gc
  floor  : Nat
  lowest : Nat
  cause  : Nat
  deriving DecidableEq, Repr

structure Power where
  stagger  : W32
  set      : PowerSet
  eff      : PowerSet
  estimate : W16
  state    : PowerState
  sensor0  : W32
  sensor1  : W32
  status   : Byte
  last     : W16 × W16
  same     : Nat × Nat
  thermal  : Nat
  lc       : Nat
  lp       : Nat
  issue    : Nat
  /-- the level L of R385 before floors and ceilings -/
  base     : Nat
  changes  : W32
  halts    : W32
  timeHalted : W64
  haltGc   : Gc
  greq     : Bool
  /-- the state that thermal halt interrupted -/
  before   : PowerState
  /-- the stagger step of the power-up in progress -/
  ustep    : Nat
  /-- the time at which the next power-up step is due, and its group (R380) -/
  grant    : Option Gc
  nextGroup : Nat
  on       : Byte
  idleSince : Nat
  /-- the next group to power down and the time of its step (R382) -/
  down     : Option (Nat × Gc)
  nextSample : Gc
  breach   : Option Breach
  deriving DecidableEq, Repr

structure Tenants where
  active  : BitVec 3
  rho     : Nat
  enable  : Vector Bool 8
  floor   : Vector Nat 8
  ceil    : Vector Nat 8
  breach  : Vector W64 8
  changes : W32
  deriving DecidableEq, Repr

/-- Statement LGROUP STATE (Table 13.9). -/
inductive GroupState
  | full | spare | disabled
  deriving DecidableEq, Repr

structure Group where
  st        : GroupState
  remap     : Byte
  cause     : Byte
  lastCheck : Vector Gc 32
  /-- lanes clean-checked in the current sweep -/
  cover     : W32
  /-- no mismatch in the current window -/
  clean     : Bool
  /-- transient residue faults, lane and GC (R397) -/
  transients : List (Nat × Gc)
  /-- the unused spare failed the start-up test (R439) -/
  spareBad : Bool
  deriving DecidableEq, Repr

def Group.default : Group :=
  { st := .full, remap := 0xFF, cause := 0, lastCheck := Vector.replicate 32 0, cover := 0, clean := true,
    transients := [], spareBad := false }

/-- A lane under test (R396): its trigger is a checker mismatch or a residue mismatch. -/
structure Suspect where
  group   : Nat
  lane    : Nat
  checker : Bool
  deriving DecidableEq, Repr

/-- The recovery between a lane fault and the replay (R396): the oldest command concerned, the lanes to test, the last lane
tested, and whether an outcome so far logs `RPLAY`. -/
structure Recovery where
  tag      : Option W16
  suspects : List Suspect
  last     : Nat × Nat
  logged   : Bool
  deriving DecidableEq, Repr

inductive UnitState
  | online | offline | back
  deriving DecidableEq, Repr

structure Faults where
  groups    : Vector Group 8
  remaps    : W32
  sweepGc   : Gc
  sweeps    : W64
  mismatches : W32
  romGc     : Gc
  romPasses : W64
  parity    : W32
  scan      : W32
  unit      : UnitState
  /-- cause of the last loss of the unit (`UNITX`, Table 15.6) -/
  cause     : Byte
  replays   : W64
  faild     : W32
  residue   : W32
  lockstep  : W32
  corrected : W32
  uncorr    : W32
  recovery  : Option Recovery
  /-- the rotation step in progress (R394) -/
  step      : Nat
  /-- FCLK ran throughout the window so far (R395) -/
  ran       : Bool
  /-- commands whose last replay was for a tally or precise-pipe residue (R401) -/
  tallyTags : List W16
  /-- lanes whose Till slice failed MBIST, group and lane (R439) -/
  tillFail  : List (Nat × Nat)
  deriving DecidableEq, Repr

/-! ### Settlement rings -/

inductive RingState
  | down | training | up
  deriving DecidableEq, Repr

/-- One ring port pair with its link layer (R227 to R231) and record (Table 8.7). -/
structure Link where
  st       : RingState
  sent     : W64
  recv     : W64
  retries  : W32
  crcFail  : W32
  viol     : W32
  downs    : W32
  returns  : W32
  /-- SEQ of the next new flit -/
  txSeq    : Byte
  /-- unacknowledged flits, oldest first -/
  replay   : List (List Byte)
  /-- how many of them, from the oldest, are on the link; a retry goes back to 0 (R228) -/
  next     : Nat
  /-- flits that wait to be sent, SEQ and CRC not yet filled in -/
  queue    : List (List Byte)
  /-- consecutive retries without a window advance (R228) -/
  consec   : Nat
  hold     : Bool
  /-- ring cycles without HOLD since the window last advanced, the last retry or the first unacknowledged flit (R228) -/
  quiet    : Nat
  /-- the transmitting port sends TRAIN flits: its link has not trained yet, or is declared down (R230, R440) -/
  down     : Bool
  /-- it has declared its link down, so that its return is logged (R231) -/
  declared : Bool
  /-- TRAIN flits acknowledged in a row -/
  trained  : Nat
  rxSeq    : Byte
  nakSent  : Bool
  /-- TRAIN flits received in a row -/
  rxTrain  : Nat
  /-- the positions at the downstream ends of links that are not up: that of a ring-down notice until its ring-up notice, and at
  start-up the unit's own and the next, whose ring-up notice has crossed every other link (R230, R231, R440; log 41) -/
  ringDown : List Nat
  /-- an acknowledgement word has gone out in this ring cycle (R227, R427) -/
  worded   : Bool
  deriving DecidableEq, Repr

def Link.default : Link :=
  { st := .training, sent := 0, recv := 0, retries := 0, crcFail := 0, viol := 0, downs := 0, returns := 0,
    txSeq := 0, replay := [], next := 0, queue := [], consec := 0, hold := false, quiet := 0, down := true, declared := false, trained := 0,
    rxSeq := 0, nakSent := false, rxTrain := 0, ringDown := [], worded := false }

/-- A flit in the settlement buffer with the cycle of its arrival (R226). -/
structure BufFlit where
  scope : Scope
  flit  : List Byte
  at_   : Nat
  /-- 64-bit words of the payload with an error, and the syndrome (R404) -/
  synd  : List (Nat × Byte)
  deriving DecidableEq, Repr

/-! ### Start-up and outputs -/

/-- The next step of start-up (Tables 17.5 and 17.6); `ready` is step 8. `otpLoad` stands while RST_POR_N is 0 and until the OTP is
loaded (log 91). -/
inductive Boot
  | otpLoad | grant | mbist | romCheck | laneTest | tsync
  | ready
  | warmHeld | warmPower | warmClear | warmRom | warmLane | warmTsync
  /-- test mode after step 4 (R446) -/
  | testMode
  deriving DecidableEq, Repr

/-- ESC_ANS (Table 17.2). -/
inductive Answer
  | grant | wait | refuse | timeout
  deriving DecidableEq, Repr

/-- What the output ports have presented, oldest first (the model's own record; nothing reads it). -/
structure Outputs where
  /-- CMD_CPL -/
  cpl    : List (BitVec 128)
  /-- ESC_ATAG, ESC_AKIND (roll report), ESC_ANS, ESC_ASEQ -/
  esc    : List (W16 × Bool × Answer × List W32)
  /-- SPW_RSTAT and SPW_RDATA -/
  spw    : List (BitVec 2 × List Byte)
  /-- SPN_RSTAT and SPN_RDATA -/
  spn    : List (BitVec 2 × W64)
  /-- MG_TXEID and the response frame; `none` is the driver window -/
  mg     : List (Option Byte × List Byte)
  /-- flits sent on CLC_TXF, CLD_TXF -/
  flits  : List (Scope × List Byte)
  /-- acknowledgement words sent on CLC_RXA, CLD_RXA -/
  acks   : List (Scope × W16)
  /-- abort codes answered to dictionary accesses that no frame carries -/
  od     : List (Path × W16)
  /-- event writes: ring, host address, record -/
  ev     : List (Nat × W64 × List Byte)
  /-- accumulator write-back beats: position and value -/
  acc    : List (List (Nat × W32))
  /-- ACC_RELEASE pulses and ACC_REPLAY pulses -/
  accRelease : Nat
  accReplay  : Nat
  /-- data shifted out of the test port -/
  tdo    : List (BitVec 32)
  deriving DecidableEq, Repr

def Outputs.none : Outputs :=
  { cpl := [], esc := [], spw := [], spn := [], mg := [], flits := [], acks := [], od := [], ev := [], acc := [],
    accRelease := 0, accReplay := 0, tdo := [] }

/-- The stores that hold data: Till, row-state table, curves, amax registers and assays. A Till cell is keyed
256 * entry + lane, a row-table byte 128 * line + byte. The `Synd` lists name the codewords whose stored bits hold an error, with
the syndrome (R404): Till cells, 64-bit words of the row table (16 * line + word), and of curve images (8192 * slot + word). -/
structure Stores where
  till     : List (Nat × W32)
  tillSynd : List (Nat × Byte)
  tillBad  : List Nat
  rowTab   : List Host.Cell
  rowSynd  : List (Nat × Byte)
  rowBad   : List Nat
  curves   : Vector Curve 16
  curveSynd : List (Nat × Byte)
  amax     : Vector W64 16
  assays   : Vector Assay 16
  deriving DecidableEq, Repr

/-- The command stream in the unit. -/
structure Stream where
  waiting  : List Waiting
  inflight : List Inflight
  /-- commands refused at issue while 32 stand between issue and retirement, which follow those in stream order (R296, R360, R375) -/
  refused  : List Inflight
  lastTag  : W16
  claims   : List Claim
  acc      : Option (List (Option W32))
  /-- the FCLK cycle in which a beat last started (R419) -/
  lastStart : Option Nat
  deriving DecidableEq, Repr

/-- The digests, receipts and keys. -/
structure Proving where
  cur      : Digest
  prev     : Digest
  epold    : Bool
  epoldCount : Nat
  rcpt     : Receipts
  keys     : Keys
  deriving DecidableEq, Repr

/-- What is fixed or sampled at reset. -/
structure Fixed where
  spadMiB : Nat
  straps  : Straps
  otp     : Otp
  ident   : Ident
  trims   : Trims
  ir      : Byte
  deriving DecidableEq, Repr

/-- The state of the unit. -/
structure State where
  fixed   : Fixed
  boot    : Boot
  tb      : TimeBase
  ep      : Epochs
  regs    : Regs
  st      : Stores
  spad    : Spad
  escrow  : Escrow
  rolls   : Vector Roll 16
  stream  : Stream
  prov    : Proving
  ledger  : Ledger
  evRings : Vector EvRing 64
  evOut   : List (Nat × W64 × List Byte)
  mg      : Mgmt
  pw      : Power
  tn      : Tenants
  ft      : Faults
  act     : Vector W64 22
  links   : Link × Link
  setBuf  : List BufFlit
  /-- free values drawn so far (log 4) -/
  free    : Nat
  out     : Outputs
  /-- the steps that wait, first in, first out -/
  pending : List Instr
  deriving DecidableEq, Repr

/-! ### Reset -/

/-- Little-endian bytes `n` of `w`, listed at `addr`. -/
def otpBytes (addr : Nat) : List Byte → List Host.Cell
  | [] => []
  | b :: bs => if b = 0 then otpBytes (addr + 1) bs else (addr, b) :: otpBytes (addr + 1) bs

/-- The OTP of the model's chip (log 2): serial 0, part "YE256/24", vendor 0x0005B7E3, format 1, an empty repair map,
sensor trims of offset 0 and gain 1.0 and nothing else programmed. -/
def Otp.reference : Otp :=
  { bytes := otpBytes 0x08 ([0x59, 0x45, 0x32, 0x35, 0x36, 0x2F, 0x32, 0x34] : List Byte)
      ++ otpBytes 0x18 ([0xE3, 0xB7, 0x05, 0x00, 0x01] : List Byte)
      ++ otpBytes 0x40 (List.replicate 8 0xFF)
      ++ otpBytes 0x50 ([0x00, 0x00, 0x00, 0x80, 0x00, 0x00, 0x00, 0x80] : List Byte),
    synd := [], keys := [], trans := [] }

def PowerSet.default : PowerSet :=
  { lateWin := 10000, cap := 2400, sleep := false, delay := 256, period := 10000 }

/-- The unit right after a cold reset with the given design, straps and OTP: nothing is kept but the OTP (R434). FCLK is an input of the unit;
that its frequency stands at the nominal 1,800 MHz again, whatever FCLK_CHANGE gave before, is the model's choice (DESIGN CHOICE, log 70), and
so is a first level of 1 of TB_INC (DESIGN CHOICE, log 3). -/
def State.cold (mib : Nat) (otp : Otp) : State :=
  { fixed := { spadMiB := mib, otp := otp, ir := 0x01
               straps := { pos := 0, cluster := 0, die := 0, otpLock := false, testMode := false }
               ident := { serial := 0, part := [], vendor := 0, chain := [], trans := [] }
               trims := { sensor0 := Trims.neutral, sensor1 := Trims.neutral, energy := List.replicate 9 0 } }
    boot := .otpLoad
    tb := { q := 0, v := 0, state := .notAligned, lastSync := 0, backEpisodes := 0, largestBack := 0, fwdJumps := 0,
            fwdSteps := 0, missed := 0, gap := 0, realign := false, fmhz := 1800, inc := 1, cycle := 0, phase := 0,
            runNs := 0, tclk := 0, syncAt := 0, live := 0 }
    ep := { cur := .default, prev := .default, pend := .default, pendEpoch := 0, switchGc := 0, curEpoch := 0,
            prevEpoch := 0, armed := false, lastSwitch := 0 }
    regs := { len := Vector.replicate 4 0, gt := 0, gh := 0, gw := 0 }
    st := { till := [], tillSynd := [], tillBad := [], rowTab := [], rowSynd := [], rowBad := [],
            curves := Vector.replicate 16 .default, curveSynd := [], amax := Vector.replicate 16 0,
            assays := Vector.replicate 16 { st := .idle, value := 0, count := 0 } }
    spad := { mem := [], synd := [], ptr := Vector.replicate 64 0, wrapped := 0, wb := [], visits := [], nextSteal := 0,
              clearing := none, nWait := none, wAt := none,
              health := { corrected := 0, uncorr := 0, poisoned := 0, lastAddr := 0xFFFFFFFF, lastSynd := 0,
                          lastGc := 0, passes := 0, steals := 0, passGc := 0, longest := 0, slips := 0,
                          conflicts := 0 } }
    escrow := { entries := [], engines := [], order := [], sets := [], watchdog := 1048576, rollWatchdog := 1048576, highest := 0, waited := 0,
                refusals := 0 }
    rolls := Vector.replicate 16 .default
    stream := { waiting := [], inflight := [], refused := [], lastTag := 0xFFFF, claims := [], acc := none, lastStart := none }
    prov := { cur := .closed, prev := .closed, epold := false, epoldCount := 0
              rcpt := { entries := [], signQ := [], noticeQ := [], noticeTurn := false, rseq := 0, exposures := [],
                        lastConfirm := 0 }
              keys := { keygen := 0, rot := .idle, next := none, record := [], gen := false, need := false, began := 0 } }
    ledger := { entries := [], tail := 0, limits := [] }
    evRings := Vector.replicate 64 .default
    evOut := []
    mg := { partners := [], queue := [], asked := [], taken := false, req := List.replicate 72 0, resp := List.replicate 72 0, busy := false, ready := false,
            served := 0, aborts := 0, violations := 0, limited := 0, timeouts := 0, discards := 0, window := 0,
            lockMask := 0, lockRefused := 0, stmts := ⟨([], 0), ([], 0), ([], 0)⟩, selRcpt := ⟨0, 0, 0⟩,
            selLedger := ⟨0, 0, 0⟩, selRing := ⟨0, 0, 0⟩ }
    pw := { stagger := 128, set := .default, eff := .default, estimate := 0, state := .sleep, sensor0 := 0,
            sensor1 := 0, status := 3, last := (0, 0), same := (0, 0), thermal := 100, lc := 100, lp := 100,
            issue := 100, base := 100, changes := 0, halts := 0, timeHalted := 0, haltGc := 0, greq := false,
            before := .run, ustep := 128, grant := none, nextGroup := 0, on := 0, idleSince := 0, down := none, nextSample := 0, breach := none }
    tn := { active := 0, rho := 100, enable := (Vector.replicate 8 false).set 0 true, floor := Vector.replicate 8 0,
            ceil := Vector.replicate 8 100, breach := Vector.replicate 8 0, changes := 0 }
    ft := { groups := Vector.replicate 8 .default, remaps := 0, sweepGc := 0, sweeps := 0, mismatches := 0,
            romGc := 0, romPasses := 0, parity := 0, scan := 0, unit := .online, cause := 0, replays := 0, faild := 0,
            residue := 0, lockstep := 0, corrected := 0, uncorr := 0, recovery := none, step := 0, ran := true,
            tallyTags := [], tillFail := [] }
    act := Vector.replicate 22 0
    links := (.default, .default)
    setBuf := []
    free := 0
    out := .none
    pending := [] }

/-- The machine right after reset: the reference configuration, waiting for step 2 of the cold start (R436). -/
def State.reset : State := State.cold Config.referenceMiB .reference

/-- Why a step can stop the model with a fault. -/
inductive Fault
  /-- The surroundings broke an obligation that the manual puts on the integrator, and the manual gives what follows no
  effect: raised by `execFclkChange` for a frequency outside 600 to 2,000 MHz (R432). Safe: the model stops where the
  hardware's behaviour is not described. -/
  | brokenObligation (rule : String)
  deriving DecidableEq, Repr

/-- Why a step can be refused. -/
inductive Refusal
  /-- Raised by an arm of `exec` whose command has no meaning yet. Safe: nothing is claimed of it. -/
  | notModelled (mnemonic : String)
  deriving DecidableEq, Repr

end Sys2Proof.Machine
end

