-- ==== Sys2Proof/Machine/Flags.lean ====
section
/-! DEFINITION. The exception flags: their sticky union and their bits (R42, Table 6.4). -/
namespace Sys2Proof.Machine
open Sys2Proof

/-- No flag. -/
def Flags.none : Flags := {}

/-- Sticky union (R42). -/
def Flags.or (a b : Flags) : Flags :=
  { iv := a.iv || b.iv, dz := a.dz || b.dz, ov := a.ov || b.ov, uf := a.uf || b.uf, nx := a.nx || b.nx }

/-- NX [4], UF [3], OF [2], DZ [1], IV [0] (Table 6.4). -/
def Flags.mask (f : Flags) : Nat :=
  f.iv.toNat + 2 * f.dz.toNat + 4 * f.ov.toNat + 8 * f.uf.toNat + 16 * f.nx.toNat

def Flags.ofMask (n : Nat) : Flags :=
  { iv := n.testBit 0, dz := n.testBit 1, ov := n.testBit 2, uf := n.testBit 3, nx := n.testBit 4 }

/-- The union of a list of flags. -/
def orAll (fs : List Flags) : Flags := fs.foldl Flags.or {}

end Sys2Proof.Machine
end

