-- ==== Sys2Proof/Machine/Num.lean ====
section
/-! DEFINITION. Formats, exact values, rounding and conversion (chapters 1 and 2). -/
namespace Sys2Proof.Machine
open Sys2Proof

/-! ### Exact arithmetic helpers -/

/-- 2^e as an exact number. -/
def pow2 (e : Int) : Rat := if 0 ≤ e then (2 ^ e.toNat : Nat) else mkRat 1 (2 ^ (-e).toNat)

/-- floor(log2 m) of m = num/den, both nonzero. -/
def floorLog2 (num den : Nat) : Int :=
  let k : Int := (Nat.log2 num : Int) - (Nat.log2 den : Int)
  let a := if 0 ≤ k then num else num * 2 ^ (-k).toNat
  let b := if 0 ≤ k then den * 2 ^ k.toNat else den
  if b ≤ a then k else k - 1

def Rat.isNeg (q : Rat) : Bool := decide (q.num < 0)

/-- |q|. -/
def rabs (q : Rat) : Rat := if q.num < 0 then -q else q

/-- floor(log2 |q|) for q ≠ 0. -/
def ilog2 (q : Rat) : Int := floorLog2 q.num.natAbs q.den

/-- floor(q). -/
def rfloor (q : Rat) : Int := q.num / (q.den : Int)

/-! ### Formats (Tables 1.1 to 1.6) -/

/-- Format codes of Table 1.1; 0xB to 0xF are reserved. -/
def Fmt.ofCode : Nat → Option Fmt
  | 0x0 => some .f32 | 0x1 => some .f16 | 0x2 => some .y16 | 0x3 => some .y8a | 0x4 => some .y8b | 0x5 => some .y4
  | 0x6 => some .y8s | 0x7 => some .s8 | 0x8 => some .u8 | 0x9 => some .s4 | 0xA => some .s32
  | _ => none

/-- The code of a format (Table 1.1). -/
def Fmt.code : Fmt → Nat
  | .f32 => 0x0 | .f16 => 0x1 | .y16 => 0x2 | .y8a => 0x3 | .y8b => 0x4 | .y4 => 0x5 | .y8s => 0x6 | .s8 => 0x7 | .u8 => 0x8
  | .s4 => 0x9 | .s32 => 0xA

/-- Bits per element (Table 1.1). -/
def Fmt.bits : Fmt → Nat
  | .f32 | .s32 => 32
  | .f16 | .y16 => 16
  | .y8a | .y8b | .y8s | .s8 | .u8 => 8
  | .y4 | .s4 => 4

/-- The formats that share a block scale (Table 1.1). -/
def Fmt.isBlock : Fmt → Bool
  | .y8a | .y8b | .y4 => true
  | _ => false

def Fmt.isInt : Fmt → Bool
  | .s8 | .u8 | .s4 | .s32 => true
  | _ => false

/-- `F32`, `F16` and `Y16`: the formats with infinities and signed zeros (Table 1.2). -/
def Fmt.isIeee : Fmt → Bool
  | .f32 | .f16 | .y16 => true
  | _ => false

/-- Fraction bits (Table 1.2), 0 for `Y8S` (R46). -/
def Fmt.fbits : Fmt → Nat
  | .f32 => 23 | .f16 => 10 | .y16 => 7 | .y8a => 3 | .y8b => 2 | .y4 => 1
  | _ => 0

/-- Exponent bits (Table 1.2). -/
def Fmt.ebits : Fmt → Nat
  | .f32 | .y16 => 8
  | .f16 | .y8b => 5
  | .y8a => 4
  | .y4 => 2
  | _ => 0

/-- The bias (Table 1.2). -/
def Fmt.bias : Fmt → Nat
  | .f32 | .y16 => 127
  | .f16 | .y8b => 15
  | .y8a => 7
  | .y4 => 1
  | _ => 0

/-- emin of R46. -/
def Fmt.emin : Fmt → Int
  | .y8s => -127
  | f => 1 - (f.bias : Int)

/-- The code of max, positive side (Tables 1.3 and 2.3). -/
def Fmt.maxCode : Fmt → Nat
  | .f32 => 0x7F7FFFFF | .f16 => 0x7BFF | .y16 => 0x7F7F | .y8a => 0x7F | .y8b => 0x7F | .y4 => 7 | .y8s => 0xFE
  | .s8 => 127 | .u8 => 255 | .s4 => 7 | .s32 => 0x7FFFFFFF

/-- The canonical NaN of a format (R31). -/
def Fmt.nanCode : Fmt → Nat
  | .f32 => 0x7FC00000 | .f16 => 0x7E00 | .y16 => 0x7FC0 | .y8a => 0x80 | .y8b => 0x80 | .y4 => 8 | .y8s => 0xFF
  | _ => 0

/-- The overflow threshold Θ (Table 2.3), (num, exponent): num * 2^exponent. -/
def Fmt.theta : Fmt → Nat × Int
  | .f32 => (2 ^ 25 - 1, 103) | .f16 => (65520, 0) | .y16 => (2 ^ 9 - 1, 119) | .y8a => (496, 0) | .y8b => (122880, 0)
  | .y4 => (7, 0) | .y8s => (3, 126)
  | _ => (0, 0)

/-- Θ as a number. -/
def Fmt.thetaQ (f : Fmt) : Rat := (f.theta.1 : Rat) * pow2 f.theta.2

/-- max as a number (Table 2.3). -/
def Fmt.maxQ : Fmt → Rat
  | .f32 => ((2 ^ 24 - 1 : Nat) : Rat) * pow2 104 | .f16 => 65504 | .y16 => 255 * pow2 120 | .y8a => 480
  | .y8b => 114688 | .y4 => 6 | .y8s => pow2 127
  | _ => 0

/-- Integer range of a format (Table 1.6). -/
def Fmt.range : Fmt → Int × Int
  | .s8 => (-128, 127) | .u8 => (0, 255) | .s4 => (-8, 7) | .s32 => (-2147483648, 2147483647)
  | _ => (0, 0)

/-! ### Values -/

/-- The exact value of a rational, +0 for zero. -/
def Val.ofRat (q : Rat) : Val := if q.num = 0 then .zero false else .fin q

def Val.isNeg : Val → Bool
  | .nan => false
  | .inf n => n
  | .zero n => n
  | .fin q => Rat.isNeg q

/-- The number a finite value stands for; 0 for NaN and infinities. -/
def Val.toRat : Val → Rat
  | .fin q => q
  | _ => 0

def Val.neg : Val → Val
  | .nan => .nan
  | .inf n => .inf (!n)
  | .zero n => .zero (!n)
  | .fin q => .fin (-q)

/-- The value of an encoding of a floating-point format (R13, Table 1.2). -/
def floatVal (f : Fmt) (c : Nat) : Val :=
  let neg := c.testBit (f.ebits + f.fbits)
  let e := (c >>> f.fbits) % 2 ^ f.ebits
  let m := c % 2 ^ f.fbits
  if f.isIeee && e == 2 ^ f.ebits - 1 then (if m = 0 then .inf neg else .nan)
  else if e = 0 ∧ m = 0 then (if !f.isIeee && neg then .nan else .zero neg)
  else
    let n : Int := if e = 0 then m else 2 ^ f.fbits + m
    let k : Int := (max e 1 : Nat) - (f.bias : Int) - (f.fbits : Int)
    .fin ((if neg then -n else n : Int) * pow2 k)

/-- The number of an integer encoding (Table 1.6). -/
def intVal (f : Fmt) (c : Nat) : Int :=
  if f ≠ .u8 ∧ c.testBit (f.bits - 1) then (c : Int) - 2 ^ f.bits else c

/-- The value of an encoding without its block scale (Tables 1.2 to 1.6, R18). -/
def codeVal (f : Fmt) (c : Nat) : Val :=
  match f with
  | .y8s => if c = 0xFF then .nan else .fin (pow2 ((c : Int) - 127))
  | .s8 | .u8 | .s4 | .s32 => .ofRat (intVal f c)
  | _ => floatVal f c

/-- Whether an encoding is a signalling NaN (R32). -/
def isSNaN (f : Fmt) (c : Nat) : Bool :=
  f.isIeee && floatVal f c == .nan && !c.testBit (f.fbits - 1)

/-- The value of an `F32` pattern. -/
def f32Val (w : W32) : Val := floatVal .f32 w.toNat

/-- Whether an `F32` pattern is a signalling NaN. -/
def f32SNaN (w : W32) : Bool := isSNaN .f32 w.toNat

/-! ### The rounding procedure (R46) -/

/-- num/den rounded to a multiple of 2^qe: the multiple and whether it differs. -/
def roundAt (num den : Nat) (neg : Bool) (rm : Rnd) (u : Nat) (qe : Int) : Nat × Bool :=
  let a := if 0 ≤ qe then num else num * 2 ^ (-qe).toNat
  let b := if 0 ≤ qe then den * 2 ^ qe.toNat else den
  let n := a / b
  let r := a % b
  if r = 0 then (n, false)
  else
    let up := match rm with
      | .rne => decide (b < 2 * r) || (2 * r == b && n % 2 == 1)
      | .rtz => false
      | .rup => !neg
      | .rdn => neg
      | .rto => n % 2 == 0
      | .sr => decide (u < r * 2 ^ 32 / b)
    (if up then n + 1 else n, true)

/-- The exponent of one unit in the last place at a magnitude (R46). -/
def gridExp (f : Fmt) (num den : Nat) : Int :=
  if f.isInt then 0 else max (floorLog2 num den) f.emin - (f.fbits : Int)

/-- Whether the magnitude rounded with unbounded exponent lies below 2^emin (R38). -/
def tiny (f : Fmt) (num den : Nat) (neg : Bool) (rm : Rnd) (u : Nat) : Bool :=
  let e := floorLog2 num den
  if f.emin ≤ e then false
  else if e < f.emin - 1 then true
  else decide ((roundAt num den neg rm u (e - (f.fbits : Int))).1 < 2 ^ (f.fbits + 1))

/-- The code magnitude of n * 2^qe in a floating-point format (n ≤ 2^(fbits+1)). -/
def packMag (f : Fmt) (n : Nat) (qe : Int) : Nat :=
  (qe + (f.fbits : Int) - f.emin).toNat * 2 ^ f.fbits + n

/-- One converted element: its code, the flags of the conversion and what it adds to VANISH and SATCNT. -/
structure Conv where
  code   : Nat
  fl     : Flags
  vanish : Bool
  sat    : Bool
  deriving DecidableEq, Repr

def signBit (f : Fmt) (neg : Bool) : Nat := if neg then 2 ^ (f.bits - 1) else 0

/-- ±∞ of a format, or its NaN code where it has no infinity (R52). -/
def infCode (f : Fmt) (neg : Bool) : Nat :=
  if f.isIeee then signBit f neg + (2 ^ f.ebits - 1) * 2 ^ f.fbits else f.nanCode

def Conv.exact (code : Nat) : Conv := { code := code, fl := {}, vanish := false, sat := false }

/-- Whether a rounding code leads away from zero for a sign (R53). -/
def awayFromZero (rm : Rnd) (neg : Bool) : Bool :=
  match rm with
  | .rup => !neg
  | .rdn => neg
  | _ => false

/-- Conversion of a nonzero finite number into a floating-point element format (R46, R47, R51 to R53, R61). -/
def convFin (f : Fmt) (nonsat : Bool) (rm : Rnd) (u : Nat) (q : Rat) : Conv :=
  let num := q.num.natAbs
  let den := q.den
  let neg := Rat.isNeg q
  let s := signBit f neg
  let ofnx : Flags := { ov := true, nx := true }
  let r := roundAt num den neg rm u (gridExp f num den)
  let code := packMag f r.1 (gridExp f num den)
  let m := rabs q
  if f.isIeee && nonsat && (rm == .rtz || rm == .rup || rm == .rdn) && decide (f.maxCode < code) then
    { code := if awayFromZero rm neg then infCode f neg else s + f.maxCode, fl := ofnx, vanish := false, sat := false }
  else if !(f.isIeee && nonsat && (rm == .rtz || rm == .rup || rm == .rdn)) && decide (f.thetaQ ≤ m) then
    if nonsat then { code := infCode f neg, fl := ofnx, vanish := false, sat := false }
    else { code := s + f.maxCode, fl := ofnx, vanish := false, sat := true }
  else if f.maxQ < m then { code := s + f.maxCode, fl := { nx := true }, vanish := false, sat := false }
  else if !r.2 then .exact (s + code)
  else if r.1 = 0 then
    { code := if f.isIeee then s else 0, fl := { uf := true, nx := true }, vanish := true, sat := false }
  else { code := s + code, fl := { nx := true, uf := tiny f num den neg rm u }, vanish := false, sat := false }

/-- Conversion into a floating-point element format under a fixed scale (Table 2.4). -/
def convFloat (f : Fmt) (nonsat : Bool) (rm : Rnd) (u : Nat) (v : Val) : Conv :=
  match v with
  | .nan => .exact f.nanCode
  | .inf neg =>
    if f.isIeee then .exact (infCode f neg)
    else if nonsat then { code := f.nanCode, fl := { iv := true }, vanish := false, sat := false }
    else { code := signBit f neg + f.maxCode, fl := {}, vanish := false, sat := true }
  | .zero neg => .exact (if f.isIeee then signBit f neg else 0)
  | .fin q => convFin f nonsat rm u q

/-- Conversion into `Y8S` as data (R56). -/
def convScale (nonsat : Bool) (rm : Rnd) (u : Nat) (v : Val) : Conv :=
  let iv : Conv := { code := 0xFF, fl := { iv := true }, vanish := false, sat := false }
  match v with
  | .nan | .inf true => iv
  | .inf false => if nonsat then iv else { code := 0xFE, fl := {}, vanish := false, sat := true }
  | .zero _ => .exact 0
  | .fin q =>
    if Rat.isNeg q then iv
    else
      let r := roundAt q.num.natAbs q.den false rm u (gridExp .y8s q.num.natAbs q.den)
      if Fmt.y8s.thetaQ ≤ q then
        { code := if nonsat then 0xFF else 0xFE, fl := { ov := true, nx := true }, vanish := false, sat := !nonsat }
      else if pow2 127 < q then { code := 0xFE, fl := { nx := true }, vanish := false, sat := false }
      else if q < pow2 (-127) then { code := 0, fl := { uf := true, nx := true }, vanish := false, sat := false }
      else { code := ((gridExp .y8s q.num.natAbs q.den) + 127).toNat + (r.1 - 1), fl := { nx := r.2 }, vanish := false,
             sat := false }

/-- The code of an integer in range. -/
def intCode (f : Fmt) (i : Int) : Nat := (i % (2 ^ f.bits : Int)).toNat

/-- Conversion into an integer format (R55). -/
def convInt (f : Fmt) (rm : Rnd) (u : Nat) (v : Val) : Conv :=
  let lo := f.range.1
  let hi := f.range.2
  let ends (neg : Bool) : Conv :=
    { code := intCode f (if neg then lo else hi), fl := { iv := true }, vanish := false, sat := true }
  match v with
  | .nan => { code := 0, fl := { iv := true }, vanish := false, sat := false }
  | .inf neg => ends neg
  | .zero _ => .exact 0
  | .fin q =>
    let r := roundAt q.num.natAbs q.den (Rat.isNeg q) rm u 0
    let i : Int := if Rat.isNeg q then -(r.1 : Int) else r.1
    if i < lo ∨ hi < i then ends (Rat.isNeg q)
    else { code := intCode f i, fl := { nx := r.2 }, vanish := false, sat := false }

/-- One rounding of a value into a format; a block format takes the value already divided by its scale (R46 to R56). -/
def convert (f : Fmt) (nonsat : Bool) (rm : Rnd) (u : Nat) (v : Val) : Conv :=
  match f with
  | .y8s => convScale nonsat rm u v
  | .s8 | .u8 | .s4 | .s32 => convInt f rm u v
  | _ => convFloat f nonsat rm u v

/-! ### `F32` intermediates -/

/-- A value rounded to nearest even into `F32`; overflow gives an infinity (R29, R40, R65). -/
def rnF32 (v : Val) : W32 × Flags :=
  let c := convFloat .f32 true .rne 0 v
  (BitVec.ofNat 32 c.code, c.fl)

/-- The round-to-odd `F32` intermediate of R40: Θ and above gives ±max with OF and NX, and no saturation counts. -/
def rtoF32 (v : Val) : W32 × Flags :=
  let c := convFloat .f32 false .rto 0 v
  (BitVec.ofNat 32 c.code, c.fl)

def posZero : W32 := 0
def negZero : W32 := 0x80000000
def one32 : W32 := 0x3F800000
def nan32 : W32 := 0x7FC00000
def posInf32 : W32 := 0x7F800000
def negInf32 : W32 := 0xFF800000

/-- A consumed `F32` pattern: a NaN becomes the canonical NaN, a signalling one raises IV (R32). -/
def quiet (w : W32) : W32 × Flags :=
  if f32Val w == .nan then (nan32, { iv := f32SNaN w }) else (w, {})

/-! ### Value arithmetic (IEEE 754 special cases) -/

/-- The exact product (R78): ∞·0 is invalid. -/
def vmul (a b : Val) : Val × Flags :=
  match a, b with
  | .nan, _ => (.nan, {})
  | _, .nan => (.nan, {})
  | .inf s, .inf t => (.inf (s != t), {})
  | .inf _, .zero _ => (.nan, { iv := true })
  | .zero _, .inf _ => (.nan, { iv := true })
  | .inf s, .fin q => (.inf (s != Rat.isNeg q), {})
  | .fin q, .inf s => (.inf (s != Rat.isNeg q), {})
  | .zero s, .zero t => (.zero (s != t), {})
  | .zero s, .fin q => (.zero (s != Rat.isNeg q), {})
  | .fin q, .zero s => (.zero (s != Rat.isNeg q), {})
  | .fin p, .fin q => (.fin (p * q), {})

/-- The exact sum; an exact zero takes its sign under `rdn` as R78 says. -/
def vadd (rdn : Bool) (a b : Val) : Val × Flags :=
  match a, b with
  | .nan, _ => (.nan, {})
  | _, .nan => (.nan, {})
  | .inf s, .inf t => if s == t then (.inf s, {}) else (.nan, { iv := true })
  | .inf s, _ => (.inf s, {})
  | _, .inf s => (.inf s, {})
  | .zero s, .zero t => (.zero (if s == t then s else rdn), {})
  | .zero _, .fin q => (.fin q, {})
  | .fin q, .zero _ => (.fin q, {})
  | .fin p, .fin q => (if (p + q).num = 0 then .zero rdn else .fin (p + q), {})

/-- FMA(a, x, b) unrounded (R78): ∞·0 raises IV also when b is a quiet NaN; signalling operands raise IV. -/
def fmaExact (rdn : Bool) (a x b : W32) : Val × Flags :=
  let p := vmul (f32Val a) (f32Val x)
  let s := vadd rdn p.1 (f32Val b)
  let inv := p.2.iv && !(f32Val a == .nan || f32Val x == .nan)
  (s.1, { iv := inv || s.2.iv || f32SNaN a || f32SNaN x || f32SNaN b })

/-- The order of finite values and infinities for comparisons (R36); `none` for a NaN. -/
def vlt (a b : Val) : Bool :=
  match a, b with
  | .nan, _ => false
  | _, .nan => false
  | .inf s, .inf t => s && !t
  | .inf s, _ => s
  | _, .inf t => !t
  | a, b => decide (a.toRat < b.toRat)

/-- maximum of IEEE 754-2019 clause 9.6 (R34). -/
def vmax (a b : Val) : Val :=
  if a == .nan || b == .nan then .nan
  else if vlt a b then b
  else if vlt b a then a
  else if a.isNeg then b else a

/-- minimum of IEEE 754-2019 clause 9.6 (R34). -/
def vmin (a b : Val) : Val :=
  if a == .nan || b == .nan then .nan
  else if vlt a b then a
  else if vlt b a then b
  else if a.isNeg then a else b

/-- The class of Table 1.9, lower ranks higher, and the number within it. -/
def rankClass : Val → Nat × Rat
  | .nan => (1, 0)
  | .inf false => (2, 0)
  | .fin q => if Rat.isNeg q then (6, q) else (3, q)
  | .zero false => (4, 0)
  | .zero true => (5, 0)
  | .inf true => (7, 0)

/-- Whether `a` ranks strictly above `b` in the total ranking of Table 1.9 (R35). -/
def ranksAbove (a b : Val) : Bool :=
  let ra := rankClass a
  let rb := rankClass b
  decide (ra.1 < rb.1) || (ra.1 == rb.1 && decide (rb.2 < ra.2))

/-! ### S1 decode (R20, R29, R30) -/

/-- S1 of one element without a block scale, with the per-tensor scale T (R30). -/
def decodePlain (f : Fmt) (c : Nat) (t : W32) : W32 × Flags :=
  let v := codeVal f c
  let tv := f32Val t
  let p := vmul v tv
  if v == .nan || tv == .nan then (nan32, { iv := isSNaN f c || f32SNaN t })
  else if p.2.iv then (nan32, { iv := true })
  else rnF32 p.1

/-- S1 of one block-format element: code, scale byte and T (R29, Table 1.8). -/
def decodeBlock (f : Fmt) (c s : Nat) (t : W32) : W32 × Flags :=
  if codeVal f c == .nan || s == 0xFF then (nan32, {})
  else
    let v := (vmul (codeVal f c) (.fin (pow2 ((s : Int) - 127)))).1
    let tv := f32Val t
    if tv == .nan then (nan32, { iv := f32SNaN t })
    else
      let p := vmul v tv
      if p.2.iv then (nan32, { iv := true })
      else if v = .zero false ∧ tv = .zero true then (posZero, {})  -- T < 0 does not hold of −0 (Table 1.8, log 75)
      else rnF32 p.1

/-! ### Block encoding (R57 to R60) -/

/-- The smallest e with m / 2^e < Θ, clamped to [-127, 127] (R59). -/
def blockExp (f : Fmt) (m : Rat) : Int :=
  let t := f.theta
  -- floor(log2 (m/Θ)) + 1, one less never suffices
  let q := m / f.thetaQ
  if t.1 = 0 ∨ q.num = 0 then -127
  else max (-127) (min 127 (ilog2 q + 1))

/-- What a block's values fix before its elements are converted (Table 2.5). -/
inductive BlockCase
  /-- every element becomes the NaN code; `iv` for an infinity under NONSAT -/
  | allNan (iv : Bool)
  | scaled (byte : Nat) (e : Int)
  deriving DecidableEq, Repr

/-- The row of Table 2.5 that applies to a block's valid elements under SELECT. -/
def blockCase (f : Fmt) (nonsat : Bool) (vs : List Val) : BlockCase :=
  if vs.any (· == .nan) then .allNan false
  else
    let anyInf := vs.any fun v => match v with | .inf _ => true | _ => false
    if anyInf && nonsat then .allNan true
    else
      let x : Rat := vs.foldl (fun m v => match v with | .fin q => (if m < rabs q then rabs q else m) | _ => m) 0
      if x.num = 0 then (if anyInf then .scaled 0xFE 127 else .scaled 0x00 (-127))
      else .scaled ((blockExp f x) + 127).toNat (blockExp f x)

/-- A value divided by a block scale 2^e, exactly (R60). -/
def Val.unscale (v : Val) (e : Int) : Val :=
  match v with
  | .fin q => .fin (q * pow2 (-e))
  | v => v

/-- What block-scale selection takes of a value that no `F32` intermediate has bounded: a finite value beyond the `F32`
maximum counts as ±max, with OF and NX from Θ on, so that e stays at most 120, 112 or 126 and no finite element overflows
(R40, R59, R60; DEDUCED, log 76). -/
def selectIn (v : Val) : Val × Flags :=
  match v with
  | .fin q => if Fmt.f32.maxQ < rabs q then (f32Val (rtoF32 v).1, (rtoF32 v).2) else (v, {})
  | v => (v, {})

/-! ### Coinflip (R48) -/

/-- `mix` of R48. -/
def mix (z : W64) : W64 :=
  let z := z ^^^ (z >>> 31)
  let z := z * 0xC4A71E935B28F6DB
  let z := z ^^^ (z >>> 29)
  let z := z * 0x9F61D08B37E5A2C9
  z ^^^ (z >>> 32)

/-- The draw of an element (R48). -/
def coinflip (seed : W64) (stream : W32) (index : BitVec 48) : W32 :=
  let z := mix (seed ^^^ index.setWidth 64 ^^^ 0x5A3C96E10F87B24D)
  let z := mix (z ^^^ (stream.setWidth 64 * 0x8E3B2C71D6A49F05))
  z.extractLsb' 32 32

end Sys2Proof.Machine
end

