-- ==== Sys2Proof/Machine/Ops.lean ====
section
/-! DEFINITION. Shared operations: bytes, sparse stores in canonical form, counters, the Ledger. -/
namespace Sys2Proof.Machine
open Sys2Proof

/-! ### Bytes -/

/-- `n` little-endian bytes of a number. -/
def leBytes : (n : Nat) → Nat → List Byte
  | 0, _ => []
  | n + 1, v => BitVec.ofNat 8 v :: leBytes n (v / 256)

/-- The number of a little-endian byte string. -/
def leNat : List Byte → Nat
  | [] => 0
  | b :: bs => b.toNat + 256 * leNat bs

/-- `n` big-endian bytes of a number. -/
def beBytes (n v : Nat) : List Byte := (leBytes n v).reverse

/-- Bytes `off` to `off + n - 1`. -/
def slice (bs : List Byte) (off n : Nat) : List Byte := (bs.drop off).take n

/-- The little-endian number at an offset. -/
def leAt (bs : List Byte) (off n : Nat) : Nat := leNat (slice bs off n)

/-- A byte string brought to length `n` with zero bytes, or cut. -/
def padTo (n : Nat) (bs : List Byte) : List Byte := bs.take n ++ List.replicate (n - bs.length) 0

/-- Bits [hi:lo] of a number. -/
def bitsOf (n hi lo : Nat) : Nat := (n >>> lo) % 2 ^ (hi + 1 - lo)

/-- A number built from 32-bit words, lowest first. -/
def wordsNat : List W32 → Nat
  | [] => 0
  | w :: ws => w.toNat + 2 ^ 32 * wordsNat ws

/-- A count that stops at its largest value (for example R63). -/
def satAdd {n : Nat} (a : BitVec n) (k : Nat) : BitVec n :=
  if 2 ^ n ≤ a.toNat + k then BitVec.allOnes n else BitVec.ofNat n (a.toNat + k)

/-! ### Sparse stores: addresses strictly rising, no entry at the default value -/

/-- The value at an address; `d` where none is listed. -/
def sparseGet {β : Type} (d : β) : List (Nat × β) → Nat → β
  | [], _ => d
  | (x, v) :: r, a => if x = a then v else sparseGet d r a

/-- The store with a value at an address; the default value removes the entry. -/
def sparseSet {β : Type} [DecidableEq β] (d : β) : List (Nat × β) → Nat → β → List (Nat × β)
  | [], a, b => if b = d then [] else [(a, b)]
  | (x, v) :: r, a, b =>
    if a < x then (if b = d then (x, v) :: r else (a, b) :: (x, v) :: r)
    else if a = x then (if b = d then r else (a, b) :: r)
    else (x, v) :: sparseSet d r a b

/-- Whether every listed address lies above `lo` and rises, with no default value. -/
def sparseFrom {β : Type} [DecidableEq β] (d : β) : Nat → List (Nat × β) → Bool
  | _, [] => true
  | lo, (x, v) :: r => decide (lo ≤ x) && decide (v ≠ d) && sparseFrom d (x + 1) r

/-- The canonical form of the scratchpad's memory. An unlisted byte reads as zero, what MBIST and every clear leave (R281,
R439). -/
def Memory.wf (m : List Host.Cell) : Bool := sparseFrom 0 0 m

/-- One byte of memory. -/
def Memory.read (m : List Host.Cell) (a : Nat) : Byte := sparseGet 0 m a

/-- Memory with one byte written. -/
def Memory.write (m : List Host.Cell) (a : Nat) (b : Byte) : List Host.Cell := sparseSet 0 m a b

/-- `n` bytes of memory from an address. -/
def Memory.readN (m : List Host.Cell) (a : Nat) : Nat → List Byte
  | 0 => []
  | n + 1 => Memory.read m a :: Memory.readN m (a + 1) n

/-- Memory with a byte string written from an address. -/
def Memory.writeN (m : List Host.Cell) (a : Nat) : List Byte → List Host.Cell
  | [] => m
  | b :: bs => Memory.writeN (Memory.write m a b) (a + 1) bs

/-- Memory with the listed addresses from `lo` up to `hi - 1` removed (they read as zero). -/
def Memory.clear (m : List Host.Cell) (lo hi : Nat) : List Host.Cell :=
  m.filter fun c => decide (c.1 < lo) || decide (hi ≤ c.1)

/-! ### Lists -/

def listUpdate {α : Type} (i : Nat) (f : α → α) : List α → List α
  | [] => []
  | x :: xs => if i = 0 then f x :: xs else x :: listUpdate (i - 1) f xs

/-- The first element that satisfies `p`, changed. -/
def updateFirst {α : Type} (p : α → Bool) (f : α → α) : List α → List α
  | [] => []
  | x :: xs => if p x then f x :: xs else x :: updateFirst p f xs

def eraseFirst {α : Type} (p : α → Bool) : List α → List α
  | [] => []
  | x :: xs => if p x then xs else x :: eraseFirst p xs

def findIdx' {α : Type} (p : α → Bool) : List α → Option Nat
  | [] => none
  | x :: xs => if p x then some 0 else (findIdx' p xs).map (· + 1)

/-- 0, 1, …, n − 1. -/
def upTo (n : Nat) : List Nat := List.range n

/-- The vector with entry `i` changed. -/
def vecModify {α : Type} {n : Nat} (v : Vector α n) (i : Nat) (f : α → α) : Vector α n :=
  if h : i < n then v.set i (f v[i]) else v

def vecGet {α : Type} {n : Nat} (v : Vector α n) (i : Nat) (d : α) : α := if h : i < n then v[i] else d

/-! ### Ledger codes (Table 15.6) -/

def cECCCE : W16 := 0x0101
def cECCUE : W16 := 0x0102
def cBANKC : W16 := 0x0103
def cRANGE : W16 := 0x0104
def cFMTIL : W16 := 0x0105
def cILLCM : W16 := 0x0106
def cESCTO : W16 := 0x0201
def cESCPV : W16 := 0x0202
def cROLLU : W16 := 0x0203
def cROLLO : W16 := 0x0204
def cROLLD : W16 := 0x0205
def cLANEF : W16 := 0x0301
def cLGNAR : W16 := 0x0302
def cRPLAY : W16 := 0x0303
def cFAILD : W16 := 0x0304
def cTROMP : W16 := 0x0305
def cLOCKF : W16 := 0x0306
def cUNITX : W16 := 0x0307
def cCLRTY : W16 := 0x0401
def cCLRDN : W16 := 0x0402
def cCLRPV : W16 := 0x0403
def cCLREP : W16 := 0x0404
def cTBJMP : W16 := 0x0501
def cLATEL : W16 := 0x0502
def cLATEE : W16 := 0x0503
def cEPOLD : W16 := 0x0504
def cTHRTL : W16 := 0x0601
def cTHALT : W16 := 0x0602
def cFLOOR : W16 := 0x0603
def cODABT : W16 := 0x0701
def cODRTL : W16 := 0x0702
def cTNCLR : W16 := 0x0801
def cKEYRT : W16 := 0x0802
def cSEALD : W16 := 0x0901
def cCONFM : W16 := 0x0902
def cPROVX : W16 := 0x0903
def cACCPV : W16 := 0x0A01
def cCURVX : W16 := 0x0A02

/-- Tag 0xFFFF: no tag (Table 15.5). -/
def noTag : W16 := 0xFFFF

/-- The GC view V, the unit's time (R366). -/
def State.gc (s : State) : Gc := s.tb.v

/-- The size of the scratchpad in bytes (OD 0x2000:04). -/
def State.spadBytes (s : State) : Nat := s.fixed.spadMiB * 1048576

/-- R, the lines of a bank (R262). -/
def State.bankRows (s : State) : Nat := s.spadBytes / 4096

/-- The newest `n` elements of a list kept oldest first. -/
def keepLast {α : Type} (n : Nat) (xs : List α) : List α := (xs.reverse.take n).reverse

/-- Whether a ring's filters select an entry (R410). -/
def EvRing.selects (r : EvRing) (e : LEntry) : Bool :=
  r.groups.getLsbD (e.code.toNat / 256) && (match e.ctx with | some c => r.ctxs.getLsbD c.toNat | none => true)

/-- An entry leaves the Ledger: a ring that has not come to it counts it as dropped when it would have taken it (R410). -/
def EvRing.miss (r : EvRing) (e : LEntry) : EvRing :=
  if r.enable && r.next == e.seq then
    { r with next := e.seq + 1, dropped := if r.selects e then satAdd r.dropped 1 else r.dropped }
  else r

/-- One Ledger entry (R407, Table 15.5): it takes SEQ, and the oldest of 4,096 entries goes. -/
def State.log (s : State) (code tag : W16) (ctx : Option (BitVec 3)) (detail : List Byte) : State :=
  let e : LEntry := { gc := s.gc, code := code, tag := tag, ctx := ctx, seq := s.ledger.tail, detail := padTo 16 detail }
  let gone := if s.ledger.entries.length < 4096 then none else s.ledger.entries.head?
  { s with
    ledger := { s.ledger with entries := keepLast 4096 (s.ledger.entries ++ [e]), tail := s.ledger.tail + 1 }
    evRings := match gone with | some o => s.evRings.map fun r => r.miss o | none => s.evRings }

/-- An entry put before the first that has no smaller code. -/
def LEntry.insert (e : LEntry) : List LEntry → List LEntry
  | [] => [e]
  | f :: fs => if e.code.toNat ≤ f.code.toNat then e :: f :: fs else f :: e.insert fs

/-- Entries in increasing code number, those of one code as they came. -/
def byCode : List LEntry → List LEntry
  | [] => []
  | e :: es => e.insert (byCode es)

/-- The entries since a SEQ in increasing code number, with the numbers that they take so (R407). -/
def Ledger.inOrder (l : Ledger) (since : W32) : Ledger :=
  let n := min (l.tail - since).toNat l.entries.length
  if n ≤ 1 then l
  else
    { l with entries := l.entries.take (l.entries.length - n)
        ++ (byCode (l.entries.drop (l.entries.length - n))).zipIdx.map fun e => { e.1 with seq := l.tail - BitVec.ofNat 32 (n - e.2) } }

/-- The entries that a step has logged, in the order in which entries of one cycle are written (R407); `s` is the state before it. -/
def State.cycleLog (t s : State) : State := { t with ledger := t.ledger.inOrder s.ledger.tail }

/-- SEQ of the oldest entry held (Table 15.7). -/
def Ledger.head (l : Ledger) : W32 := l.tail - BitVec.ofNat 32 l.entries.length

/-- The 32 bytes of an entry (Table 15.5). -/
def LEntry.bytes (e : LEntry) : List Byte :=
  leBytes 8 e.gc.toNat ++ leBytes 2 e.code.toNat ++ leBytes 2 e.tag.toNat
    ++ [match e.ctx with | some c => BitVec.ofNat 8 c.toNat | none => 0x80] ++ leBytes 3 e.seq.toNat ++ padTo 16 e.detail

/-- Events of a limited source (R450): whether this event logs an entry, and the count for its detail. -/
def Ledger.limit (l : Ledger) (src : LimitSource) (gc : Gc) : Bool × W32 × Ledger :=
  let w := gc.toNat / 1000000
  let cur : Limit := (l.limits.find? fun x => x.source == src).getD { source := src, window := none, count := 0 }
  let n := satAdd cur.count 1
  let fire := cur.window != some w
  let new : Limit := { source := src, window := if fire then some w else cur.window, count := if fire then 0 else n }
  let rest := l.limits.filter fun x => x.source != src
  (fire, n, { l with limits := rest ++ [new] })

/-- Log an entry of a limited source; `detail` takes the count (R450). -/
def State.logLimited (s : State) (src : LimitSource) (code tag : W16) (ctx : Option (BitVec 3))
    (detail : W32 → List Byte) : State :=
  let r := s.ledger.limit src s.gc
  let s := { s with ledger := r.2.2 }
  if r.1 then s.log code tag ctx (detail r.2.1) else s

/-! ### Fault summary of digest ranges (R249, Table 9.6) -/

def Digest.note (d : Digest) (f : Summary → Summary) : Digest := if d.live then { d with sum := f d.sum } else d

/-- Record an event of the unit in every open digest range (log 12). -/
def State.note (s : State) (f : Summary → Summary) : State :=
  { s with prov := { s.prov with cur := s.prov.cur.note f, prev := s.prov.prev.note f } }

/-- Record an event of a command in the digest range of its epoch. -/
def State.noteEpoch (s : State) (epoch : W16) (f : Summary → Summary) : State :=
  if epoch == s.ep.curEpoch then { s with prov := { s.prov with cur := s.prov.cur.note f } }
  else { s with prov := { s.prov with prev := s.prov.prev.note f } }

/-! ### Record updates -/

def State.modSpad (s : State) (f : Spad → Spad) : State := { s with spad := f s.spad }
def State.modHealth (s : State) (f : SpadHealth → SpadHealth) : State :=
  { s with spad := { s.spad with health := f s.spad.health } }
def State.modStream (s : State) (f : Stream → Stream) : State := { s with stream := f s.stream }
def State.modSt (s : State) (f : Stores → Stores) : State := { s with st := f s.st }
def State.modEscrow (s : State) (f : Escrow → Escrow) : State := { s with escrow := f s.escrow }
/-- RST_POR_N is held at 0: until the OTP is loaded every output is 0 (R434; log 91). -/
def State.held (s : State) : Bool := s.boot == .otpLoad

def State.modOut (s : State) (f : Outputs → Outputs) : State := { s with out := f s.out }
def State.modFt (s : State) (f : Faults → Faults) : State := { s with ft := f s.ft }
def State.modPw (s : State) (f : Power → Power) : State := { s with pw := f s.pw }
def State.modTb (s : State) (f : TimeBase → TimeBase) : State := { s with tb := f s.tb }
def State.modProv (s : State) (f : Proving → Proving) : State := { s with prov := f s.prov }
def State.modRcpt (s : State) (f : Receipts → Receipts) : State :=
  { s with prov := { s.prov with rcpt := f s.prov.rcpt } }
def State.modMg (s : State) (f : Mgmt → Mgmt) : State := { s with mg := f s.mg }
def State.modTn (s : State) (f : Tenants → Tenants) : State := { s with tn := f s.tn }

/-- An activity counter of 0x7010 raised (R420). Index i is subindex i + 1. -/
def State.bump (s : State) (i k : Nat) : State := { s with act := vecModify s.act i fun v => satAdd v k }

/-- The link pair of a scope. -/
def State.link (s : State) : Scope → Link
  | .cluster => s.links.1
  | .die => s.links.2

def State.setLink (s : State) (c : Scope) (l : Link) : State :=
  match c with
  | .cluster => { s with links := (l, s.links.2) }
  | .die => { s with links := (s.links.1, l) }

def State.modLink (s : State) (c : Scope) (f : Link → Link) : State := s.setLink c (f (s.link c))

/-- The inflight command with a tag, changed. -/
def State.modInflight (s : State) (tag : W16) (f : Inflight → Inflight) : State :=
  s.modStream fun st =>
    { st with inflight := updateFirst (fun c => (c.slot.words.headD 0).setWidth 16 == tag) f st.inflight }

/-- The tag of a slot (Table 12.1). -/
def Slot.tag (x : Slot) : W16 := (x.words.headD 0).setWidth 16

def Inflight.tag (c : Inflight) : W16 := c.slot.tag

/-- The unit command in flight with a tag. -/
def State.inflight? (s : State) (tag : W16) : Option Inflight := s.stream.inflight.find? fun c => c.tag == tag

/-! ### Power and readiness -/

/-- FCLK runs unless the unit halts (R383). -/
def State.fclkRuns (s : State) : Bool := s.pw.state != .halt

/-- The epoch's mode set of a command (R312). -/
def State.modesOf (s : State) (epoch : W16) : ModeSet := if epoch == s.ep.curEpoch then s.ep.cur else s.ep.prev

end Sys2Proof.Machine
end

