-- ==== Sys2Proof/Machine/Crypto.lean ====
section
/-! DEFINITION. The checksums, digests and signatures the manual names: CRC-32C, GF(2^64), SHA-384 (FIPS 180-4), HMAC and
ECDSA over P-384 with the deterministic nonce of FIPS 186-5. -/
namespace Sys2Proof.Machine
open Sys2Proof

/-! ### CRC-32C (Castagnoli) -/

def crcBits : Nat → Nat → Nat
  | 0, c => c
  | k + 1, c => crcBits k (if c % 2 = 1 then (c / 2) ^^^ 0x82F63B78 else c / 2)

def crcBytes (c : Nat) (bs : List Byte) : Nat := bs.foldl (fun c b => crcBits 8 (c ^^^ b.toNat)) c

/-- CRC-32C of a byte string. -/
def crc32c (bs : List Byte) : W32 := BitVec.ofNat 32 (crcBytes 0xFFFFFFFF bs ^^^ 0xFFFFFFFF)

/-! ### GF(2^64) with x^64 + x^4 + x^3 + x + 1 (R240) -/

def gfDouble (a : W64) : W64 := if a.getLsbD 63 then (a <<< 1) ^^^ 0x1B else a <<< 1

/-- Product, from the top bit of `b` down. -/
def gfMulAux (a b : W64) : Nat → W64 → W64
  | 0, acc => acc
  | k + 1, acc =>
    let acc := gfDouble acc
    gfMulAux a b k (if b.getLsbD k then acc ^^^ a else acc)

def gfMul (a b : W64) : W64 := gfMulAux a b 64 0

/-- K^e by squaring, from the top bit of the 49-bit exponent down. -/
def gfPowAux (k : W64) (e : Nat) : Nat → W64 → W64
  | 0, acc => acc
  | n + 1, acc =>
    let acc := gfMul acc acc
    gfPowAux k e n (if e.testBit n then gfMul acc k else acc)

def gfPow (k : W64) (e : Nat) : W64 := gfPowAux k e 49 1

/-! ### SHA-384 -/

def shaK1 : List W64 :=
  [0x428A2F98D728AE22, 0x7137449123EF65CD, 0xB5C0FBCFEC4D3B2F, 0xE9B5DBA58189DBBC,
   0x3956C25BF348B538, 0x59F111F1B605D019, 0x923F82A4AF194F9B, 0xAB1C5ED5DA6D8118,
   0xD807AA98A3030242, 0x12835B0145706FBE, 0x243185BE4EE4B28C, 0x550C7DC3D5FFB4E2,
   0x72BE5D74F27B896F, 0x80DEB1FE3B1696B1, 0x9BDC06A725C71235, 0xC19BF174CF692694,
   0xE49B69C19EF14AD2, 0xEFBE4786384F25E3, 0x0FC19DC68B8CD5B5, 0x240CA1CC77AC9C65,
   0x2DE92C6F592B0275, 0x4A7484AA6EA6E483, 0x5CB0A9DCBD41FBD4, 0x76F988DA831153B5,
   0x983E5152EE66DFAB, 0xA831C66D2DB43210, 0xB00327C898FB213F, 0xBF597FC7BEEF0EE4,
   0xC6E00BF33DA88FC2, 0xD5A79147930AA725, 0x06CA6351E003826F, 0x142929670A0E6E70,
   0x27B70A8546D22FFC, 0x2E1B21385C26C926, 0x4D2C6DFC5AC42AED, 0x53380D139D95B3DF,
   0x650A73548BAF63DE, 0x766A0ABB3C77B2A8, 0x81C2C92E47EDAEE6, 0x92722C851482353B]

def shaK2 : List W64 :=
  [0xA2BFE8A14CF10364, 0xA81A664BBC423001, 0xC24B8B70D0F89791, 0xC76C51A30654BE30,
   0xD192E819D6EF5218, 0xD69906245565A910, 0xF40E35855771202A, 0x106AA07032BBD1B8,
   0x19A4C116B8D2D0C8, 0x1E376C085141AB53, 0x2748774CDF8EEB99, 0x34B0BCB5E19B48A8,
   0x391C0CB3C5C95A63, 0x4ED8AA4AE3418ACB, 0x5B9CCA4F7763E373, 0x682E6FF3D6B2B8A3,
   0x748F82EE5DEFB2FC, 0x78A5636F43172F60, 0x84C87814A1F0AB72, 0x8CC702081A6439EC,
   0x90BEFFFA23631E28, 0xA4506CEBDE82BDE9, 0xBEF9A3F7B2C67915, 0xC67178F2E372532B,
   0xCA273ECEEA26619C, 0xD186B8C721C0C207, 0xEADA7DD6CDE0EB1E, 0xF57D4F7FEE6ED178,
   0x06F067AA72176FBA, 0x0A637DC5A2C898A6, 0x113F9804BEF90DAE, 0x1B710B35131C471B,
   0x28DB77F523047D84, 0x32CAAB7B40C72493, 0x3C9EBE0A15C9BEBC, 0x431D67C49C100D4C,
   0x4CC5D4BECB3E42B6, 0x597F299CFC657E2A, 0x5FCB6FAB3AD6FAEC, 0x6C44198C4A475817]

def shaK : List W64 := shaK1 ++ shaK2

def sha384Init : List W64 :=
  [0xCBBB9D5DC1059ED8, 0x629A292A367CD507, 0x9159015A3070DD17, 0x152FECD8F70E5939,
   0x67332667FFC00B31, 0x8EB44A8768581511, 0xDB0C2E0D64F98FA7, 0x47B5481DBEFA4FA4]

def beNat : Nat → List Byte → Nat
  | acc, [] => acc
  | acc, b :: bs => beNat (acc * 256 + b.toNat) bs

/-- The sixteen words of a block, newest first. -/
def blockWords : Nat → List Byte → List W64 → List W64
  | 0, _, acc => acc
  | n + 1, bs, acc => blockWords n (bs.drop 8) (BitVec.ofNat 64 (beNat 0 (bs.take 8)) :: acc)

def sigma0 (x : W64) : W64 := x.rotateRight 1 ^^^ x.rotateRight 8 ^^^ (x >>> 7)
def sigma1 (x : W64) : W64 := x.rotateRight 19 ^^^ x.rotateRight 61 ^^^ (x >>> 6)

/-- The message schedule, newest word first. -/
def shaExtend : Nat → List W64 → List W64
  | 0, ws => ws
  | n + 1, ws =>
    shaExtend n ((sigma1 (ws.getD 1 0) + ws.getD 6 0 + sigma0 (ws.getD 14 0) + ws.getD 15 0) :: ws)

def shaRound (st : List W64) (k w : W64) : List W64 :=
  match st with
  | [a, b, c, d, e, f, g, h] =>
    let s1 := e.rotateRight 14 ^^^ e.rotateRight 18 ^^^ e.rotateRight 41
    let ch := (e &&& f) ^^^ (~~~e &&& g)
    let t1 := h + s1 + ch + k + w
    let s0 := a.rotateRight 28 ^^^ a.rotateRight 34 ^^^ a.rotateRight 39
    let mj := (a &&& b) ^^^ (a &&& c) ^^^ (b &&& c)
    [t1 + (s0 + mj), a, b, c, d + t1, e, f, g]
  | st => st

def shaRounds : List W64 → List W64 → List W64 → List W64
  | st, k :: ks, w :: ws => shaRounds (shaRound st k w) ks ws
  | st, _, _ => st

def addWords : List W64 → List W64 → List W64
  | a :: as, b :: bs => (a + b) :: addWords as bs
  | _, _ => []

def shaBlock (h : List W64) (b : List Byte) : List W64 :=
  addWords h (shaRounds h shaK (shaExtend 64 (blockWords 16 b [])).reverse)

def shaBlocks : Nat → List W64 → List Byte → List W64 × List Byte
  | 0, h, buf => (h, buf)
  | n + 1, h, buf => shaBlocks n (shaBlock h (buf.take 128)) (buf.drop 128)

/-- A fresh running SHA-384. -/
def Sha.start : Sha := { h := sha384Init, buf := [], len := 0 }

/-- Bytes taken into a running digest. -/
def Sha.update (x : Sha) (bs : List Byte) : Sha :=
  let buf := x.buf ++ bs
  let r := shaBlocks (buf.length / 128) x.h buf
  { h := r.1, buf := r.2, len := x.len + bs.length }

/-- The 48-byte digest in the byte order of FIPS 180-4. -/
def Sha.finish (x : Sha) : List Byte :=
  let z := (239 - x.buf.length) % 128
  let tail := x.buf ++ [0x80] ++ List.replicate z 0 ++ beBytes 16 (8 * x.len)
  let h := (shaBlocks (tail.length / 128) x.h tail).1
  ((h.take 6).map fun w => beBytes 8 w.toNat).flatten

def sha384 (bs : List Byte) : List Byte := (Sha.start.update bs).finish

/-! ### HMAC-SHA-384 -/

def hmac384 (key msg : List Byte) : List Byte :=
  let k := padTo 128 (if 128 < key.length then sha384 key else key)
  sha384 (k.map (· ^^^ 0x5C) ++ sha384 (k.map (· ^^^ 0x36) ++ msg))

/-! ### P-384 -/

def pP384 : Nat := 2 ^ 384 - 2 ^ 128 - 2 ^ 96 + 2 ^ 32 - 1
def nP384 : Nat :=
  0xFFFFFFFFFFFFFFFFFFFFFFFFFFFFFFFFFFFFFFFFFFFFFFFFC7634D81F4372DDF581A0DB248B0A77AECEC196ACCC52973
def gxP384 : Nat :=
  0xAA87CA22BE8B05378EB1C71EF320AD746E1D3B628BA79B9859F741E082542A385502F25DBF55296C3A545E3872760AB7
def gyP384 : Nat :=
  0x3617DE4A96262C6F5D9E98BF9292DC29F8F41DBD289A147CE9DA3113B5F0B8C00A60B1CE1D7E819D7A431D7C90EA0E5F

def powMod (m b e : Nat) : Nat → Nat → Nat
  | 0, acc => acc
  | k + 1, acc =>
    let acc := acc * acc % m
    powMod m b e k (if e.testBit k then acc * b % m else acc)

def invMod (m a : Nat) : Nat := powMod m a (m - 2) 384 1

def subMod (m a b : Nat) : Nat := (a + (m - b % m)) % m

/-- A point in Jacobian coordinates; z = 0 is the point at infinity. -/
structure Point where
  x : Nat
  y : Nat
  z : Nat
  deriving DecidableEq, Repr

def Point.double (q : Point) : Point :=
  let p := pP384
  if q.z = 0 ∨ q.y = 0 then { x := 1, y := 1, z := 0 }
  else
    let zz := q.z * q.z % p
    let m := 3 * (subMod p q.x zz * ((q.x + zz) % p) % p) % p
    let yy := q.y * q.y % p
    let s := 4 * (q.x * yy % p) % p
    let x := subMod p (m * m % p) (2 * s)
    { x := x, y := subMod p (m * subMod p s x % p) (8 * (yy * yy % p)), z := 2 * (q.y * q.z % p) % p }

def Point.add (a b : Point) : Point :=
  let p := pP384
  if a.z = 0 then b else if b.z = 0 then a
  else
    let za := a.z * a.z % p
    let zb := b.z * b.z % p
    let u1 := a.x * zb % p
    let u2 := b.x * za % p
    let s1 := a.y * zb % p * b.z % p
    let s2 := b.y * za % p * a.z % p
    if u1 = u2 then (if s1 = s2 then a.double else { x := 1, y := 1, z := 0 })
    else
      let h := subMod p u2 u1
      let r := subMod p s2 s1
      let hh := h * h % p
      let hhh := hh * h % p
      let v := u1 * hh % p
      let x := subMod p (subMod p (r * r % p) hhh) (2 * v)
      { x := x, y := subMod p (r * subMod p v x % p) (s1 * hhh % p), z := a.z * b.z % p * h % p }

/-- Scalar multiple, from the top bit down. -/
def Point.mul (g : Point) (k : Nat) : Nat → Point → Point
  | 0, acc => acc
  | n + 1, acc =>
    let acc := acc.double
    Point.mul g k n (if k.testBit n then acc.add g else acc)

def baseMul (k : Nat) : Point := Point.mul { x := gxP384, y := gyP384, z := 1 } k 384 { x := 1, y := 1, z := 0 }

def Point.affine (q : Point) : Nat × Nat :=
  let i := invMod pP384 q.z
  let i2 := i * i % pP384
  (q.x * i2 % pP384, q.y * i2 % pP384 * i % pP384)

/-- The uncompressed public key of a private scalar, 97 bytes (Table 9.10). -/
def publicKey (d : Nat) : List Byte :=
  let a := (baseMul d).affine
  0x04 :: (beBytes 48 a.1 ++ beBytes 48 a.2)

/-- Candidates of the deterministic nonce; `f` accepts one. -/
def nonceLoop (f : Nat → Option (Nat × Nat)) : Nat → List Byte → List Byte → Nat × Nat
  | 0, _, _ => (0, 0)
  | n + 1, k, v =>
    let v := hmac384 k v
    let c := beNat 0 v
    match (if c = 0 ∨ nP384 ≤ c then none else f c) with
    | some r => r
    | none =>
      let k := hmac384 k (v ++ [0x00])
      nonceLoop f n k (hmac384 k v)

/-- The ECDSA signature (r, s) of a message, 96 bytes (R251). -/
def ecdsaSign (d : Nat) (msg : List Byte) : List Byte :=
  let e := beNat 0 (sha384 msg)
  let x := beBytes 48 d
  let h := beBytes 48 (e % nP384)
  let v0 := List.replicate 48 (0x01 : Byte)
  let k0 := List.replicate 48 (0x00 : Byte)
  let k1 := hmac384 k0 (v0 ++ [0x00] ++ x ++ h)
  let v1 := hmac384 k1 v0
  let k2 := hmac384 k1 (v1 ++ [0x01] ++ x ++ h)
  let v2 := hmac384 k2 v1
  let try_ (k : Nat) : Option (Nat × Nat) :=
    let r := (baseMul k).affine.1 % nP384
    let s := invMod nP384 k * (e % nP384 + r * d) % nP384
    if r = 0 ∨ s = 0 then none else some (r, s)
  let rs := nonceLoop try_ 16 k2 v2
  beBytes 48 rs.1 ++ beBytes 48 rs.2

end Sys2Proof.Machine
end

