-- ==== Sys2Proof/Machine/Trans.lean ====
section
/-! DEFINITION. The built-in functions (chapter 4): exact values where they are rational, and otherwise a value of the
same rounding in every format, computed with more than 500 significant bits (log 11). -/
namespace Sys2Proof.Machine
open Sys2Proof

/-! ### Fixed point with 720 fraction bits -/

def fxOne : Int := 2 ^ 720

def piFx : Int :=
  0x3243f6a8885a308d313198a2e03707344a4093822299f31d0082efa98ec4e6c89452821e638d01377be5466cf34e90c6cc0ac29b7c97c50dd3f84d5b5b54709179216d5d98979fb1bd1310ba698dfb5ac2ffd72dbd01adfb7b8e1
def ln2Fx : Int :=
  0xb17217f7d1cf79abc9e3b39803f2f6af40f343267298b62d8a0d175b8baafa2be7b876206debac98559552fb4afa1b10ed2eae35c138214427573b291169b8253e96ca16224ae8c51acbda11317c387eb9ea9bc3b136603b256f
/-- √(2/π) -/
def sqrt2OverPiFx : Int :=
  0xcc42299ea1b284687e59e2805d5c717fa7053e60a24e0db1808e369004c73a5d3bf158aa88fa7b6e47eba75766e9d11bd6284ef2e17c2a264f1d32688be119ff30505c3fb28f9c969d9b7adccb84672b9596a89bcd3dd46584ed
/-- 2/√π -/
def twoOverSqrtPiFx : Int :=
  0x120dd750429b6d11ae3a914fed7fd8688281341d7587cea2e7342b06199cc416180eb39f0b24e1e2281806c12d98f35d77a3e9ddc91c394f0e9eedf0efffd84a2a4ac3b98489b8cbd3845e8fef6ff6af92a45e5f27c2d6547a4f4

def fxMul (a b : Int) : Int := a * b / fxOne
def fxOf (q : Rat) : Int := q.num * fxOne / (q.den : Int)
def fxRat (a : Int) : Rat := (a : Rat) * pow2 (-720)

/-- 1 + x/1·(1 + x/2·(1 + …)), innermost step first. -/
def expSeries (x : Int) : Nat → Int → Int
  | 0, acc => acc
  | n + 1, acc => expSeries x n (fxOne + fxMul x acc / (n + 1 : Nat))

def fxSquares : Nat → Int → Int
  | 0, x => x
  | n + 1, x => fxSquares n (fxMul x x)

/-- e^x for 0 ≤ x < 1 in fixed point. -/
def expFx (x : Int) : Int := fxSquares 8 (expSeries (x / 256) 80 fxOne)

/-- e^x for a fixed-point argument, as an exact rational near the true value. -/
def expOfFx (x : Int) : Rat :=
  let k := x / ln2Fx
  (expFx (x - k * ln2Fx) : Rat) * pow2 (k - 720)

def expQ (x : Rat) : Rat := expOfFx (fxOf x)

/-- Σ t^(2i)/(2i+1), innermost term first. -/
def atanhSeries (t2 : Int) : Nat → Int → Int
  | 0, acc => acc
  | n + 1, acc => atanhSeries t2 n (fxOne / (2 * n + 1 : Nat) + fxMul t2 acc)

/-- ln of a positive rational. -/
def lnQ (q : Rat) : Rat :=
  let e0 := ilog2 q
  let m0 := q * pow2 (-e0)
  let up := decide (mkRat 7 5 < m0)
  let e := if up then e0 + 1 else e0
  let m := if up then m0 * mkRat 1 2 else m0
  let t := fxOf ((m - 1) / (m + 1))
  fxRat (e * ln2Fx + 2 * fxMul t (atanhSeries (fxMul t t) 160 0))

/-- ln(1 + q) for q > -1, accurate for small q. -/
def ln1pQ (q : Rat) : Rat :=
  if rabs q < mkRat 1 4 then
    let t := fxOf (q / (q + 2))
    fxRat (2 * fxMul t (atanhSeries (fxMul t t) 160 0))
  else lnQ (1 + q)

def sinSeries (x2 : Int) : Nat → Int → Int
  | 0, acc => acc
  | n + 1, acc => sinSeries x2 n (fxOne - fxMul x2 acc / ((2 * n + 2) * (2 * n + 3) : Nat))

def cosSeries (x2 : Int) : Nat → Int → Int
  | 0, acc => acc
  | n + 1, acc => cosSeries x2 n (fxOne - fxMul x2 acc / ((2 * n + 1) * (2 * n + 2) : Nat))

/-- sin(πy) for 0 ≤ y ≤ 1/2. -/
def sinpiQ (y : Rat) : Rat :=
  let x := fxOf (y * fxRat piFx)
  fxRat (fxMul x (sinSeries (fxMul x x) 75 fxOne))

/-- cos(πy) for 0 ≤ y ≤ 1/2. -/
def cospiQ (y : Rat) : Rat :=
  let x := fxOf (y * fxRat piFx)
  fxRat (cosSeries (fxMul x x) 75 fxOne)

/-- Σ a^n/(2n+1)!! from term n on. -/
def erfSeries (a : Int) : Nat → Nat → Int → Int → Int
  | 0, _, _, sum => sum
  | k + 1, n, term, sum =>
    if term = 0 then sum else erfSeries a k (n + 1) (fxMul term a / (2 * n + 3 : Nat)) (sum + term)

/-- erf x for |x| < 15. -/
def erfQ (x : Rat) : Rat :=
  x * fxRat twoOverSqrtPiFx * expQ (-(x * x)) * fxRat (erfSeries (fxOf (2 * x * x)) 900 0 fxOne 0)

/-- Φ(u) for |u| < 21. -/
def phiCdf (u : Rat) : Rat :=
  mkRat 1 2 * (1 + u * fxRat sqrt2OverPiFx * expQ (-(u * u * mkRat 1 2)) *
    fxRat (erfSeries (fxOf (u * u)) 900 0 fxOne 0))

/-- φ(u). -/
def phiPdf (u : Rat) : Rat := mkRat 1 2 * fxRat sqrt2OverPiFx * expQ (-(u * u * mkRat 1 2))

/-- Newton's iteration for the integer square root from above. -/
def sqrtIter (n : Nat) : Nat → Nat → Nat
  | 0, x => x
  | k + 1, x =>
    let y := (x + n / x) / 2
    if y < x then sqrtIter n k y else x

/-- floor(√n). -/
def isqrt (n : Nat) : Nat := if n = 0 then 0 else sqrtIter n 64 (2 ^ (Nat.log2 n / 2 + 1))

/-- An irrational number near q, of q's sign, that lies on no format's grid and on no tie: q to 601 bits, then a 1. -/
def stick (q : Rat) : Rat :=
  if q.num = 0 then q
  else
    let e := ilog2 q
    let n := rfloor (rabs q * pow2 (600 - e))
    let m : Rat := ((2 * n + 1 : Int) : Rat) * pow2 (e - 601)
    if q.num < 0 then -m else m

/-- √q of a positive rational: exact where it has at most 720 fraction bits. -/
def sqrtQ (q : Rat) : Rat :=
  let n := q.num.natAbs * 2 ^ 1440 / q.den
  let s := isqrt n
  let r : Rat := (s : Rat) * pow2 (-720)
  if r * r = q then r else stick r

/-- Slightly inside (toward zero) and slightly outside of q. -/
def inside (q : Rat) : Rat := stick (q * (1 - pow2 (-650)))
def outside (q : Rat) : Rat := stick (q * (1 + pow2 (-500)))

/-- A magnitude above every threshold, and one below every grid (R101). -/
def huge : Rat := pow2 300
def small : Rat := pow2 (-400)

/-! ### The functions -/

/-- What S3 knows of f(u): the exact value, whether it is exact in `F32`, and IV and DZ of Tables 4.2 and 4.5. -/
structure FnVal where
  v  : Val
  ex : Bool
  fl : Flags
  deriving DecidableEq, Repr

def FnVal.exact (v : Val) : FnVal := { v := v, ex := true, fl := {} }
def FnVal.inexact (q : Rat) : FnVal := { v := .fin (stick q), ex := false, fl := {} }
def FnVal.invalid : FnVal := { v := .nan, ex := true, fl := { iv := true } }
def FnVal.divZero (neg : Bool) : FnVal := { v := .inf neg, ex := true, fl := { dz := true } }
def FnVal.num (q : Rat) : FnVal := .exact (.ofRat q)

/-- f(−∞), f(−0), f(+0), f(+∞) of a column set. -/
structure Specials where
  ninf : FnVal
  nz   : FnVal
  pz   : FnVal
  pinf : FnVal

def specials (t : Specials) (f : Rat → FnVal) (u : Val) : FnVal :=
  match u with
  | .nan => .exact .nan
  | .inf true => t.ninf
  | .inf false => t.pinf
  | .zero true => t.nz
  | .zero false => t.pz
  | .fin q => f q

def fExp (q : Rat) : FnVal :=
  if 200 < q then .inexact huge else if q < -300 then .inexact small else .inexact (expQ q)

def fExp2 (q : Rat) : FnVal :=
  if q.den = 1 ∧ -400 < q.num ∧ q.num < 300 then
    { v := .fin (pow2 q.num), ex := decide (-149 ≤ q.num ∧ q.num ≤ 127), fl := {} }
  else if 300 ≤ q then .inexact huge else if q ≤ -400 then .inexact small
  else
    let k := rfloor q
    .inexact ((expFx (fxMul (fxOf (q - k)) ln2Fx) : Rat) * pow2 (k - 720))

def fExpm1 (q : Rat) : FnVal :=
  if 200 < q then .inexact huge else if q < -100 then .inexact (inside (-1)) else .inexact (expQ q - 1)

def fLog (q : Rat) : FnVal :=
  if q < 0 then .invalid else if q = 1 then .num 0 else .inexact (lnQ q)

def fLog2 (q : Rat) : FnVal :=
  if q < 0 then .invalid
  else if q = pow2 (ilog2 q) then .num (ilog2 q)
  else .inexact (lnQ q / fxRat ln2Fx)

def fLog1p (q : Rat) : FnVal :=
  if q < -1 then .invalid else if q = -1 then .divZero true else .inexact (ln1pQ q)

def fRcp (q : Rat) : FnVal :=
  let r := 1 / q
  { v := .fin r, ex := (rnF32 (.fin r)).2 == {}, fl := {} }

def fSqrt (q : Rat) : FnVal :=
  if q < 0 then .invalid
  else
    let r := sqrtQ q
    { v := .fin r, ex := (rnF32 (.fin r)).2 == {}, fl := {} }

def fRsq (q : Rat) : FnVal :=
  if q < 0 then .invalid
  else
    let r := sqrtQ (1 / q)
    { v := .fin r, ex := (rnF32 (.fin r)).2 == {}, fl := {} }

def sigQ (q : Rat) : Rat :=
  let e := expQ (-(rabs q))
  if q < 0 then e / (1 + e) else 1 / (1 + e)

def fSig (q : Rat) : FnVal :=
  if 120 < q then .inexact (inside 1) else if q < -300 then .inexact small else .inexact (sigQ q)

def fTanh (q : Rat) : FnVal :=
  let s : Rat := if q < 0 then -1 else 1
  if 60 < rabs q then .inexact (inside s)
  else
    let e := expQ (-2 * rabs q)
    .inexact (s * (1 - e) / (1 + e))

def fSilu (q : Rat) : FnVal :=
  if 130 < q then .inexact (inside q) else if q < -400 then .inexact (-small) else .inexact (q * sigQ q)

def fGelu (q : Rat) : FnVal :=
  if 15 < q then .inexact (inside q) else if q < -20 then .inexact (-small) else .inexact (q * phiCdf q)

/-- u + 0.044715 u³ -/
def gelutArg (q : Rat) : Rat := q + mkRat 44715 1000000 * q * q * q

/-- σ(2√(2/π)·w) -/
def gelutSig (w : Rat) : Rat :=
  let e := expOfFx (fxOf (-(2 * fxRat sqrt2OverPiFx * rabs w)))
  if w < 0 then e / (1 + e) else 1 / (1 + e)

def fGelut (q : Rat) : FnVal :=
  let w := gelutArg q
  if 80 < w then .inexact (inside q) else if w < -250 then .inexact (-small) else .inexact (q * gelutSig w)

def fSoftplus (q : Rat) : FnVal :=
  if 130 < q then .inexact (outside q) else if q < -300 then .inexact small
  else if q < 0 then .inexact (ln1pQ (expQ q)) else .inexact (q + ln1pQ (expQ (-q)))

def fErf (q : Rat) : FnVal :=
  if 9 < rabs q then .inexact (inside (if q < 0 then -1 else 1)) else .inexact (erfQ q)

/-- q modulo 2, in [0, 2). -/
def mod2 (q : Rat) : Rat := q - 2 * rfloor (q * mkRat 1 2)

def fSinpi (q : Rat) : FnVal :=
  if q.den = 1 then .exact (.zero (Rat.isNeg q))
  else
    let r := mod2 q
    if r = mkRat 1 2 then .num 1 else if r = mkRat 3 2 then .num (-1)
    else
      let s : Rat := if 1 < r then -1 else 1
      let y := if 1 < r then r - 1 else r
      .inexact (s * sinpiQ (if mkRat 1 2 < y then 1 - y else y))

def fCospi (q : Rat) : FnVal :=
  let r := mod2 q
  if q.den = 1 then .num (if r = 0 then 1 else -1)
  else if q.den = 2 then .num 0
  else
    let y := if 1 < r then 2 - r else r
    .inexact (if mkRat 1 2 < y then -(cospiQ (1 - y)) else cospiQ y)

def fMish (q : Rat) : FnVal :=
  if 60 < q then .inexact (inside q) else if q < -300 then .inexact (-small)
  else
    let e := expQ q
    let n := e * e + 2 * e
    .inexact (q * n / (n + 2))

def fElu (q : Rat) : FnVal := if 0 < q then .num q else fExpm1 q

def fDsig (q : Rat) : FnVal :=
  if 300 < rabs q then .inexact small
  else
    let e := expQ (-(rabs q))
    .inexact (e / ((1 + e) * (1 + e)))

def fDtanh (q : Rat) : FnVal :=
  if 150 < rabs q then .inexact small
  else
    let e := expQ (-2 * rabs q)
    .inexact (4 * e / ((1 + e) * (1 + e)))

def fDsilu (q : Rat) : FnVal :=
  if 130 < q then .inexact (outside 1) else if q < -400 then .inexact (-small)
  else .inexact (sigQ q * (1 + q * sigQ (-q)))

def fDgelu (q : Rat) : FnVal :=
  if 15 < q then .inexact (outside 1) else if q < -20 then .inexact (-small)
  else .inexact (phiCdf q + q * phiPdf q)

def fDgelut (q : Rat) : FnVal :=
  let w := gelutArg q
  if 80 < w then .inexact (outside 1) else if w < -250 then .inexact (-small)
  else
    let g := gelutSig w
    let h := gelutSig (-w)
    let t := 2 * fxRat sqrt2OverPiFx * (1 + 3 * mkRat 44715 1000000 * q * q)
    .inexact (g + q * g * h * t)

def fDmish (q : Rat) : FnVal :=
  if 60 < q then .inexact (outside 1) else if q < -300 then .inexact (-small)
  else
    let e := expQ q
    let n := e * e + 2 * e
    let d := n + 2
    .inexact (n / d + q * 4 * e * (e + 1) / (d * d))

def fDelu (q : Rat) : FnVal := if 0 < q then .num 1 else fExp q

/-- f(u) of Tables 4.1, 4.2, 4.4 and 4.5 by its function code without the .CR bit; `LRELU` is formed elsewhere (R119).
-/
def fnValue (code : Nat) (u : Val) : FnVal :=
  let n (q : Rat) : FnVal := .num q
  let z (neg : Bool) : FnVal := .exact (.zero neg)
  let inf (neg : Bool) : FnVal := .exact (.inf neg)
  match code with
  | 0x01 => specials ⟨z false, n 1, n 1, inf false⟩ fExp u
  | 0x02 => specials ⟨z false, n 1, n 1, inf false⟩ fExp2 u
  | 0x03 => specials ⟨n (-1), z true, z false, inf false⟩ fExpm1 u
  | 0x04 => specials ⟨.invalid, .divZero true, .divZero true, inf false⟩ fLog u
  | 0x05 => specials ⟨.invalid, .divZero true, .divZero true, inf false⟩ fLog2 u
  | 0x06 => specials ⟨.invalid, z true, z false, inf false⟩ fLog1p u
  | 0x07 => specials ⟨z true, .divZero true, .divZero false, z false⟩ fRcp u
  | 0x08 => specials ⟨.invalid, .divZero true, .divZero false, z false⟩ fRsq u
  | 0x09 => specials ⟨.invalid, z true, z false, inf false⟩ fSqrt u
  | 0x0A => specials ⟨z false, n (mkRat 1 2), n (mkRat 1 2), n 1⟩ fSig u
  | 0x0B => specials ⟨n (-1), z true, z false, n 1⟩ fTanh u
  | 0x0C => specials ⟨z true, z true, z false, inf false⟩ fSilu u
  | 0x0D => specials ⟨z true, z true, z false, inf false⟩ fGelu u
  | 0x0E => specials ⟨z true, z true, z false, inf false⟩ fGelut u
  | 0x0F => specials ⟨z false, .inexact (fxRat ln2Fx), .inexact (fxRat ln2Fx), inf false⟩ fSoftplus u
  | 0x10 => specials ⟨n (-1), z true, z false, n 1⟩ fErf u
  | 0x11 => specials ⟨.invalid, z true, z false, .invalid⟩ fSinpi u
  | 0x12 => specials ⟨.invalid, n 1, n 1, .invalid⟩ fCospi u
  | 0x13 => specials ⟨z true, z true, z false, inf false⟩ fMish u
  | 0x14 => specials ⟨n (-1), z true, z false, inf false⟩ fElu u
  | 0x16 => specials ⟨z false, z false, z false, inf false⟩ (fun q => if 0 < q then n q else z false) u
  | 0x4A => specials ⟨z false, n (mkRat 1 4), n (mkRat 1 4), z false⟩ fDsig u
  | 0x4B => specials ⟨z false, n 1, n 1, z false⟩ fDtanh u
  | 0x4C => specials ⟨z true, n (mkRat 1 2), n (mkRat 1 2), n 1⟩ fDsilu u
  | 0x4D => specials ⟨z true, n (mkRat 1 2), n (mkRat 1 2), n 1⟩ fDgelu u
  | 0x4E => specials ⟨z true, n (mkRat 1 2), n (mkRat 1 2), n 1⟩ fDgelut u
  | 0x4F => specials ⟨z false, n (mkRat 1 2), n (mkRat 1 2), n 1⟩ fSig u
  | 0x53 =>
    let m : FnVal := { v := .fin (mkRat 3 5), ex := false, fl := {} }
    specials ⟨z true, m, m, n 1⟩ fDmish u
  | 0x54 => specials ⟨z false, n 1, n 1, n 1⟩ fDelu u
  | _ => .exact u

def isCurveCode (c : Nat) : Bool := decide (0xC0 ≤ c) && decide (c ≤ 0xCF)
def isCrCode (c : Nat) : Bool := decide (0x81 ≤ c) && decide (c ≤ 0x92)
/-- The function of a code without the .CR bit (R99). -/
def fnBase (c : Nat) : Nat := if isCrCode c then c - 0x80 else c

/-- The functions that never give hard cases (R107): `PASS`, `RCP`, `RSQ`, `SQRT`, `LRELU`, `RELU`. -/
def neverHard (c : Nat) : Bool :=
  c == 0 || c == 7 || c == 8 || c == 9 || c == 0x15 || c == 0x16

/-- m with a 32-bit significand, rounded down or up (R101). -/
def sig32 (up : Bool) (m : Rat) : Rat :=
  let qe := ilog2 m - 31
  let t := m * pow2 (-qe)
  let n := rfloor t
  (if up && decide ((n : Rat) < t) then n + 1 else n : Int) * pow2 qe

/-- The fast value z (R101, R102): where the bound of R101 allows two `F32` results, the free value of log 4 says
which. An exactly representable f(u) gives itself, and the two values that the tables fix (`DMISH` at ±0) stay fixed. -/
def fastZ (code : Nat) (u : W32) (f : FnVal) : W32 :=
  match f.v with
  | .fin q =>
    if f.ex || (code == 0x53 && (u.setWidth 31 == 0)) then (rnF32 f.v).1
    else
      let m := rabs q
      let d := m * pow2 (-27)
      let sgn (r : Rat) : Val := .fin (if Rat.isNeg q then -r else r)
      let lo := (rnF32 (sgn (sig32 true (m - d)))).1
      let hi := (rnF32 (sgn (sig32 false (m + d)))).1
      if lo == hi then lo else if Config.fastHigh code u then hi else lo
  | v => (rnF32 v).1

/-- The flags that forming z raises (R102, R105, R118): OF and NX of an overflow, UF of a tiny inexact z, NX where z
differs from f(u). -/
def zFlags (f : FnVal) (z : W32) : Flags :=
  match f.v with
  | .fin q =>
    if (rnF32 f.v).1 == z then (rnF32 f.v).2
    else match f32Val z with
    | .inf _ => { ov := true, nx := true }
    | .zero _ => { uf := true, nx := true }
    | .fin r => if r = q then {} else { nx := true, uf := decide (rabs r < pow2 (-126)) }
    | .nan => {}
  | _ => {}

end Sys2Proof.Machine
end

