-- ==== Sys2Proof/Machine/Curves.lean ====
section
/-! DEFINITION. Minted curves and the rotary angle generator (chapter 5): what an image says, and what S3 makes of an
argument. -/
namespace Sys2Proof.Machine
open Sys2Proof

/-! ### The curve image (Table 5.1) -/

def imgWord (img : List Byte) (off : Nat) : W32 := BitVec.ofNat 32 (leAt img off 4)
def imgByte (img : List Byte) (off : Nat) : Nat := leAt img off 1

def imgNseg (img : List Byte) : Nat := leAt img 4 2
/-- SW or EBASE, an I8. -/
def imgExp (img : List Byte) : Int := (BitVec.ofNat 8 (imgByte img 6)).toInt
def imgFb (img : List Byte) : Nat := imgByte img 7
def imgMode (img : List Byte) : Nat := imgByte img 1
def imgSym (img : List Byte) : Nat := imgByte img 2
def imgTails (img : List Byte) : Nat := imgByte img 3

def finite32 (w : W32) : Bool := match f32Val w with | .zero _ => true | .fin _ => true | _ => false

/-- Whether all `n` words from an offset on are finite. -/
def finiteFrom (img : List Byte) (off : Nat) : Nat → Bool
  | 0 => true
  | n + 1 => finite32 (imgWord img off) && finiteFrom img (off + 4) n

/-- The checks of R122 on an image of `cols` bytes: true when `MINT` accepts it. -/
def imageOk (img : List Byte) (cols : Nat) : Bool :=
  let mode := imgMode img
  let nseg := imgNseg img
  let fb := imgFb img
  let tails := imgTails img
  imgByte img 0 == 1 && decide (mode ≤ 1) && decide (imgSym img ≤ 2)
    && tails / 16 == 0 && tails % 4 != 3 && tails / 4 % 4 != 3
    && (slice img 32 28).all (· == 0)
    && (if mode = 0 then fb == 0 else imgWord img 8 == 0)
    && decide (1 ≤ nseg) && decide (nseg ≤ 256) && cols == 64 + 16 * nseg
    && (mode == 0 || (decide (fb ≤ 7) && nseg % 2 ^ fb == 0 && decide (imgExp img + (nseg / 2 ^ fb : Nat) ≤ 128)))
    && finiteFrom img 8 5 && finiteFrom img 64 (4 * nseg)
    && crc32c (img.take 60 ++ [0, 0, 0, 0] ++ img.drop 64) == imgWord img 60

/-! ### Evaluation (R125 to R128) -/

/-- A tail's result (Table 5.3): V and S the tail's words, b its boundary, u the folded argument. -/
def tailValue (code : Nat) (v s : W32) (b : Rat) (u : Val) : W32 × Flags :=
  match code with
  | 0 => (v, {})
  | 1 =>
    match u with
    | .inf neg =>
      match f32Val s with
      | .zero _ => (v, {})
      | sv => (if sv.isNeg != neg then negInf32 else posInf32, {})
    | _ =>
      let p := (vmul (f32Val s) (.ofRat (u.toRat - b))).1
      rnF32 (vadd false (f32Val v) p).1
  | _ => (nan32, { iv := true })

/-- One rounded fused multiply-add of R126. -/
def fmaRn (a x b : W32) : W32 × Flags :=
  let r := fmaExact false a x b
  let o := rnF32 r.1
  (o.1, r.2.or o.2)

/-- The cubic of a segment (R126). -/
def cubic (c0 c1 c2 c3 t : W32) : W32 × Flags :=
  let p2 := fmaRn c3 t c2
  let p1 := fmaRn p2.1 t c1
  let p0 := fmaRn p1.1 t c0
  (p0.1, (p2.2.or p1.2).or p0.2)

/-- Segment k at local coordinate t. -/
def segmentValue (img : List Byte) (k : Nat) (t : Rat) : W32 × Flags :=
  let o := 64 + 16 * k
  cubic (imgWord img o) (imgWord img (o + 4)) (imgWord img (o + 8)) (imgWord img (o + 12)) (rnF32 (.ofRat t)).1

/-- The result of a folded argument, before the sign of an odd curve (R125 to R127). -/
def curveFolded (img : List Byte) (u : Val) : W32 × Flags :=
  let nseg := imgNseg img
  let lo := f32Val (imgWord img 8)
  let left (b : Rat) := tailValue (imgTails img % 4) (imgWord img 12) (imgWord img 16) b u
  let right (b : Rat) := tailValue (imgTails img / 4 % 4) (imgWord img 20) (imgWord img 24) b u
  if imgMode img = 0 then
    let w := pow2 (imgExp img)
    let top := lo.toRat + (nseg : Rat) * w
    match u with
    | .inf true => left lo.toRat
    | .inf false => right top
    | _ =>
      let v := (u.toRat - lo.toRat) / w
      if v < 0 then left lo.toRat
      else if (nseg : Rat) ≤ v then right top
      else segmentValue img (rfloor v).toNat (v - rfloor v)
  else
    let fb := imgFb img
    let bottom := pow2 (imgExp img)
    let top := pow2 (imgExp img + (nseg / 2 ^ fb : Nat))
    match u with
    | .inf true => left bottom
    | .inf false => right top
    | _ =>
      let x := u.toRat
      if x < bottom then left bottom
      else if top ≤ x then right top
      else
        let e := ilog2 x
        let m := (x * pow2 (-e) - 1) * pow2 fb
        segmentValue img (((e - imgExp img) * 2 ^ fb + rfloor m).toNat) (m - rfloor m)

/-- z of a minted curve and the flags it raises (R125 to R128). -/
def curveEval (img : List Byte) (u : W32) : W32 × Flags :=
  if f32Val u == .nan then quiet u
  else
    let sym := imgSym img
    let folded := if sym = 0 then f32Val u else f32Val (u &&& 0x7FFFFFFF)
    let r := curveFolded img folded
    if sym = 2 ∧ u.getLsbD 31 ∧ f32Val r.1 ≠ .nan then (r.1 ^^^ 0x80000000, r.2) else r

/-! ### The rotary angle generator (R133 to R139) -/

/-- φ of R133, a U0.64 fraction of a turn. -/
def phase (p : W32) (f : W64) : W64 := p.setWidth 64 * f

/-- 2φ, the argument of `SINPI` and `COSPI`, as an exact number in [0, 2). -/
def phaseArg (ph : W64) : Rat := (ph.toNat : Rat) * pow2 (-63)

/-- c and s of a phase: correctly rounded when `cr`, the fast value otherwise (R139). The free value of log 4 is keyed by
the function code and the phase. -/
def cosSin (cr : Bool) (ph : W64) : W32 × W32 :=
  let q := phaseArg ph
  let zero : Val := .zero false
  let c := if q.num = 0 then fnValue 0x12 zero else fCospi q
  let s := if q.den = 1 then FnVal.exact (.zero false) else fSinpi q
  let pick (code : Nat) (f : FnVal) : W32 :=
    if cr then (rnF32 f.v).1 else fastZ (code + 256 * (1 + ph.toNat)) 0 f
  (pick 0x12 c, pick 0x11 s)

/-- The exact sum of two exact products (R138): a·x + b·y, unrounded, with its flags. -/
def sumOfProducts (rdn : Bool) (a x b y : W32) : Val × Flags :=
  let p := vmul (f32Val a) (f32Val x)
  let q := vmul (f32Val b) (f32Val y)
  let s := vadd rdn p.1 q.1
  (s.1, { iv := p.2.iv || q.2.iv || s.2.iv || f32SNaN a || f32SNaN x || f32SNaN b || f32SNaN y })

/-- The floor quotient positions of a derived `ROPE` row (R135): (pt, ph, pw). -/
def derivedPos (gh gw idx : Nat) : Nat × Nat × Nat := (idx / (gh * gw), idx / gw % gh, idx % gw)

end Sys2Proof.Machine
end

