-- ==== Sys2Proof/Machine/RowRec.lean ====
section
/-! DEFINITION. Row states: the record of Tables 8.2 and 8.3, its checks (R224), the accumulators of chapter 6 and the merge
rules of R219. -/
namespace Sys2Proof.Machine
open Sys2Proof

/-! ### Operations and families (Tables 6.1 and 7.1) -/

def topSUM : Nat := 1
def topMEAN : Nat := 2
def topMAX : Nat := 3
def topMIN : Nat := 4
def topAMAX : Nat := 5
def topARGMAX : Nat := 6
def topARGMIN : Nat := 7
def topCOUNT : Nat := 8
def topCOUNTNZ : Nat := 9
def topTOPK : Nat := 0xA
def topPSUM : Nat := 0xB
def topPMAX : Nat := 0xC
def topPMIN : Nat := 0xD
def topSoftmax : Nat := 0x10
def topXent : Nat := 0x11
def topLayer : Nat := 0x12
def topRms : Nat := 0x13

/-- A code of Table 6.1 or Table 7.1. -/
def topDefined (t : Nat) : Bool := (decide (1 ≤ t) && decide (t ≤ 0xD)) || (decide (0x10 ≤ t) && decide (t ≤ 0x13))

def isSoft (t : Nat) : Bool := t == topSoftmax || t == topXent
def isNorm (t : Nat) : Bool := t == topLayer || t == topRms

/-! ### Status bits (Tables 6.5 and 7.2) -/

def sEMPTY : Nat := 5
def sNAN : Nat := 6
def sPINF : Nat := 7
def sNINF : Nat := 8
def sZNEG : Nat := 9
def sXUND : Nat := 10
def sXOVR : Nat := 11
def sTRUNC : Nat := 12
def sXOVF : Nat := 13
def sCSAT : Nat := 14
def sTSAT : Nat := 15
def sBOVF : Nat := 16
def sPIVX : Nat := 17
def sRSUF : Nat := 18
def sTGTC : Nat := 19
def sIGN : Nat := 20
def sTGTX : Nat := 21
def sZVAR : Nat := 22
def sRERD : Nat := 23

/-- The value 0x8000_0000: no pivot (R180). -/
def pivNone : W32 := 0x80000000
/-- MA in the infinite regime (R186). -/
def maInf : W32 := 0x7FFFFFFF
/-- "no index" (R143). -/
def noIndex : W32 := 0xFFFFFFFF

/-! ### A row state -/

/-- A row state (R146). `prim` and `sec` are the exact values of the accumulators, the bands those of R182; `p1` and `p2`
the selection pairs. `bad`: the bytes hold a W64 that R156 does not allow, or more candidates than fit. -/
structure RowSt where
  state  : Nat
  stage  : Nat
  top    : Nat
  strict : Bool
  sdir   : Bool
  k      : Nat
  epoch  : W16
  count  : W32
  status : W32
  pivot  : W32
  ma     : W32
  vanish : W32
  satcnt : W32
  ncand  : Nat
  prim   : Rat
  sec    : Rat
  p1     : W32 × W32
  p2     : W32 × W32
  bands  : List Nat
  cands  : List (W32 × W32)
  bad    : Bool
  deriving DecidableEq, Repr

def RowSt.bit (r : RowSt) (i : Nat) : Bool := r.status.getLsbD i
def RowSt.setBit (r : RowSt) (i : Nat) : RowSt := { r with status := r.status ||| (1 <<< i) }
def RowSt.clrBit (r : RowSt) (i : Nat) : RowSt := { r with status := r.status &&& ~~~((1 : W32) <<< i) }
def RowSt.setIf (r : RowSt) (i : Nat) (c : Bool) : RowSt := if c then r.setBit i else r
/-- A status bit set or cleared. -/
def RowSt.putBit (r : RowSt) (i : Nat) (c : Bool) : RowSt := if c then r.setBit i else r.clrBit i
/-- EMPTY at a close: set exactly when COUNT is 0 (R175, R219). -/
def RowSt.setEmpty (r : RowSt) : RowSt := r.putBit sEMPTY (r.count == 0)
/-- Flags gather into bits [4:0] of the row status (R83, R154). -/
def RowSt.addFlags (r : RowSt) (f : Flags) : RowSt := { r with status := r.status ||| BitVec.ofNat 32 f.mask }

/-- Slot bytes: 128 in fast mode, 512 in strict mode (R145). -/
def slotBytes (strict : Bool) : Nat := if strict then 512 else 128

/-- q of R145; `k` is the K field, k − 1. -/
def slotsPerRow (top k : Nat) (strict : Bool) : Nat :=
  if top = topTOPK then (32 + 8 * (k + 1) + slotBytes strict - 1) / slotBytes strict else 1

/-- Slots of the table in a mode (R144). -/
def tableSlots (strict : Bool) : Nat := if strict then 1024 else 4096

/-! ### Accumulators -/

/-- RN64: nearest even with a 64-bit significand (R156), and whether it is inexact. -/
def rn64 (q : Rat) : Rat × Bool :=
  if q.num = 0 then (0, false)
  else
    let num := q.num.natAbs
    let qe := floorLog2 num q.den - 63
    let r := roundAt num q.den false .rne 0 qe
    let m : Rat := (r.1 : Rat) * pow2 qe
    (if Rat.isNeg q then -m else m, r.2)

/-- The 16 bytes of a W64 (Table 6.6). -/
def w64Bytes (q : Rat) : List Byte :=
  if q.num = 0 then List.replicate 16 0
  else
    let e := ilog2 q
    let sig := (rfloor (rabs q * pow2 (63 - e))).toNat
    leBytes 8 sig ++ leBytes 2 (e % 65536).toNat ++ leBytes 6 (if Rat.isNeg q then 1 else 0)

/-- A W64's value, and whether it obeys R156. -/
def w64Of (bs : List Byte) : Rat × Bool :=
  let sig := leAt bs 0 8
  let e : Int := (BitVec.ofNat 16 (leAt bs 8 2)).toInt
  let neg := (leAt bs 10 1).testBit 0
  if sig = 0 then (0, e == 0 && !neg)
  else
    let m : Rat := (sig : Rat) * pow2 (e - 63)
    (if neg then -m else m, sig.testBit 63)

/-- The 80 bytes of an XACC (R160). -/
def xaccBytes (q : Rat) : List Byte := leBytes 80 ((rfloor (q * pow2 320)) % 2 ^ 640).toNat

def xaccOf (bs : List Byte) : Rat :=
  let n := leAt bs 0 80
  let i : Int := if n.testBit 639 then (n : Int) - 2 ^ 640 else n
  (i : Rat) * pow2 (-320)

/-- Whether a sum carries beyond bit 639 (R161). -/
def xaccOver (q : Rat) : Bool := decide (pow2 319 ≤ q) || decide (q < -(pow2 319))

/-! ### The record (Tables 8.2 and 8.3) -/

def RowSt.header (r : RowSt) : List Byte :=
  [BitVec.ofNat 8 (r.stage % 4 * 4 + r.state % 4), BitVec.ofNat 8 r.top,
   BitVec.ofNat 8 (r.sdir.toNat * 2 + r.strict.toNat), BitVec.ofNat 8 (r.k % 64)]
    ++ leBytes 2 r.epoch.toNat ++ leBytes 2 r.ncand ++ leBytes 4 r.count.toNat ++ leBytes 4 r.status.toNat
    ++ leBytes 4 r.pivot.toNat ++ leBytes 4 r.ma.toNat ++ leBytes 4 r.vanish.toNat ++ leBytes 4 r.satcnt.toNat

def pairBytes (p : W32 × W32) : List Byte := leBytes 4 p.1.toNat ++ leBytes 4 p.2.toNat

/-- `n` candidate places, unfilled ones with value 0 and no index. -/
def candBytes : Nat → List (W32 × W32) → List Byte
  | 0, _ => []
  | n + 1, [] => pairBytes (0, noIndex) ++ candBytes n []
  | n + 1, c :: cs => pairBytes c ++ candBytes n cs

/-- The q slots of a row as bytes; those past the k candidate places are unused and zero (R224, Table 8.3). -/
def RowSt.bytes (r : RowSt) : List Byte :=
  let sb := slotBytes r.strict
  let total := slotsPerRow r.top r.k r.strict * sb
  if r.top = topTOPK then padTo total (r.header ++ candBytes (r.k + 1) r.cands)
  else if r.strict then
    padTo 512 (r.header ++ xaccBytes r.prim ++ xaccBytes r.sec ++ pairBytes r.p1 ++ pairBytes r.p2
      ++ (r.bands.map (leBytes 9)).flatten)
  else padTo 128 (r.header ++ w64Bytes r.prim ++ w64Bytes r.sec ++ pairBytes r.p1 ++ pairBytes r.p2)

def pairOf (bs : List Byte) (off : Nat) : W32 × W32 := (BitVec.ofNat 32 (leAt bs off 4), BitVec.ofNat 32 (leAt bs (off + 4) 4))

def candsOf (bs : List Byte) : Nat → Nat → List (W32 × W32)
  | 0, _ => []
  | n + 1, off => pairOf bs off :: candsOf bs n (off + 8)

/-- The operations whose first pair holds the scan-segment markers (R172). -/
def isScan (t : Nat) : Bool := t == topPSUM || t == topPMAX || t == topPMIN

/-- A row state from the bytes of its slots; reserved bits are ignored and read as zero from then on (R11): STATUS [31:15]
of `RED`, `SEL` and `SCAN` (Table 6.5), [31:24] of the other families (Table 7.2), the marker word's [31:6], the word after RSTD. A value
word of `ARGMAX`, `ARGMIN` or `TOPK` keeps its bits, also those of a NaN that is not canonical, on which R31 and R224 are silent (DESIGN
CHOICE, log 96). -/
def RowSt.ofBytes (bs : List Byte) : RowSt :=
  let b0 := leAt bs 0 1
  let b2 := leAt bs 2 1
  let strict := b2.testBit 0
  let top := leAt bs 1 1
  let ncand := leAt bs 6 2
  let topk := top == topTOPK
  let cap := (bs.length - 32) / 8
  let w1 := w64Of (slice bs 32 16)
  let w2 := w64Of (slice bs 48 16)
  let o1 := if strict then 192 else 64
  { state := b0 % 4, stage := b0 / 4 % 4, top := top, strict := strict, sdir := b2.testBit 1, k := leAt bs 3 1 % 64
    epoch := BitVec.ofNat 16 (leAt bs 4 2), count := BitVec.ofNat 32 (leAt bs 8 4)
    status := BitVec.ofNat 32 (leAt bs 12 4) &&& (if top ≤ topPMIN then 0x7FFF else 0xFFFFFF)
    pivot := BitVec.ofNat 32 (leAt bs 16 4), ma := BitVec.ofNat 32 (leAt bs 20 4)
    vanish := BitVec.ofNat 32 (leAt bs 24 4), satcnt := BitVec.ofNat 32 (leAt bs 28 4), ncand := ncand
    prim := if topk then 0 else if strict then xaccOf (slice bs 32 80) else w1.1
    sec := if topk then 0 else if strict then xaccOf (slice bs 112 80) else w2.1
    p1 := if topk then (0, 0) else if isScan top then ((pairOf bs o1).1, (pairOf bs o1).2 &&& 0x3F) else pairOf bs o1
    p2 := if topk then (0, 0) else if isNorm top then ((pairOf bs (o1 + 8)).1, 0) else pairOf bs (o1 + 8)
    bands := if strict && !topk then (upTo 32).map fun j => leAt bs (208 + 9 * j) 9 else List.replicate 32 0
    cands := if topk then candsOf bs (min ncand cap) 32 else []
    bad := if topk then decide (cap < ncand) else !strict && !(w1.2 && w2.2) }

/-! ### Selection order (R168) -/

/-- Whether candidate `a` stands before `b`: rank descending (SDIR 0) or ascending (SDIR 1), then index ascending. -/
def candBefore (sdir : Bool) (a b : W32 × W32) : Bool :=
  let va := f32Val a.1
  let vb := f32Val b.1
  let hi := if sdir then ranksAbove vb va else ranksAbove va vb
  let lo := if sdir then ranksAbove va vb else ranksAbove vb va
  hi || (!lo && decide (a.2.toNat < b.2.toNat))

/-- Insert after every candidate that stands before it or is equal. -/
def insertCand (sdir : Bool) (c : W32 × W32) : List (W32 × W32) → List (W32 × W32)
  | [] => [c]
  | d :: ds => if candBefore sdir c d then c :: d :: ds else d :: insertCand sdir c ds

def insertCands (sdir : Bool) (k : Nat) : List (W32 × W32) → List (W32 × W32) → List (W32 × W32)
  | [], acc => acc
  | c :: cs, acc => insertCands sdir k cs ((insertCand sdir c acc).take k)

/-- The kept candidate of `ARGMAX` or `ARGMIN` against another: a pair without an index, the identity of OPEN, is no candidate
(R165). -/
def keepCand (sdir : Bool) (a b : W32 × W32) : W32 × W32 :=
  if b.2 = noIndex then a else if a.2 = noIndex ∨ candBefore sdir b a then b else a

def candsOrdered (sdir : Bool) : List (W32 × W32) → Bool
  | a :: b :: r => !candBefore sdir b a && candsOrdered sdir (b :: r)
  | _ => true

/-! ### Checks (R224) -/

/-- A pivot in the range of R180. -/
def pivotInRange (p : W32) : Bool := decide (-(2 ^ 30 : Int) + 8 ≤ p.toInt) && decide (p.toInt ≤ 2 ^ 30 + 8)

/-- The checks of R224 on a loaded, merged or settled record. -/
def RowSt.valid (r : RowSt) : Bool :=
  (r.state == 1 || r.state == 2) && topDefined r.top && !r.bad
    && (r.pivot == pivNone || pivotInRange r.pivot)
    && (r.ma == pivNone || r.ma == maInf || pivotInRange r.ma)
    && decide (r.ncand ≤ r.k + 1)
    && (r.top != topTOPK || (candsOrdered r.sdir r.cands && r.cands.all fun c => c.2 != noIndex))
    && decide (r.stage ≤ (if r.top = topLayer then 2 else if r.top = topRms then 1 else 0))

/-! ### Opening (Tables 6.3 and 6.9) -/

def negInfPair (i : W32) : W32 × W32 := (negInf32, i)
def posInfPair (i : W32) : W32 × W32 := (posInf32, i)

/-- The first pair at OPEN: the identities of Table 6.9; layer and RMS fields not yet determined read 0xFFFF_FFFF. -/
def openPair (top : Nat) : W32 × W32 :=
  if top = topMAX ∨ top = topPMAX then negInfPair 0
  else if top = topMIN ∨ top = topPMIN then posInfPair 0
  else if top = topARGMAX then negInfPair noIndex
  else if top = topARGMIN then posInfPair noIndex
  else if isNorm top then (noIndex, noIndex)
  else (0, 0)

def RowSt.opened (top k : Nat) (strict sdir : Bool) (epoch : W16) : RowSt :=
  { state := 1, stage := 0, top := top, strict := strict, sdir := sdir, k := if top = topTOPK then k else 0, epoch := epoch
    count := 0, status := 0, pivot := pivNone, ma := pivNone, vanish := 0, satcnt := 0, ncand := 0, prim := 0, sec := 0
    p1 := openPair top, p2 := if isSoft top then negInfPair 0 else if isNorm top then (noIndex, 0) else (0, 0)
    bands := List.replicate 32 0, cands := [], bad := false }

/-! ### The softmax sum (R182, R184) -/

/-- The bands after the pivot rises by 8c. -/
def bandRaise (c : Nat) (b : List Nat) : List Nat := (List.replicate (min c 32) 0 ++ b).take 32

/-- One term added to its band (R182), and whether the band carries beyond bit 71. -/
def bandAdd (b : List Nat) (m24 : Nat) (e : Int) : List Nat × Bool :=
  let j := ((-e - 1) / 8).toNat
  let v := b.getD j 0 + m24 * 2 ^ (e + 8 * (j + 1)).toNat
  (b.set j (v % 2 ^ 72), decide (2 ^ 72 ≤ v))

/-- S of a strict state (R182). -/
def bandSumFrom : Nat → List Nat → Rat
  | _, [] => 0
  | j, b :: bs => (b : Rat) * pow2 (-(8 * ((j : Int) + 1)) - 23) + bandSumFrom (j + 1) bs

/-- The state's sum S, or A in fast mode. -/
def RowSt.softSum (r : RowSt) : Rat := if r.strict then bandSumFrom 0 r.bands else r.prim

/-- The pivot raised to `m` (R182, R184). -/
def RowSt.raiseTo (r : RowSt) (m : W32) : RowSt :=
  if r.pivot = pivNone then { r with pivot := m }
  else
    let c := ((m.toInt - r.pivot.toInt) / 8).toNat
    if c = 0 then r
    else
      let r := { r with pivot := m }
      if r.strict then { r with bands := bandRaise c r.bands }
      else if 64 < c then ({ r with prim := 0 }.setBit sTRUNC).addFlags { nx := true }
      else { r with prim := r.prim * pow2 (-(8 * c : Nat)) }

/-! ### Merging (R218, R219) -/

/-- Whether two records match (R218). -/
def RowSt.matches (a b : RowSt) : Bool :=
  a.valid && b.valid && a.top == b.top && a.strict == b.strict && a.stage == b.stage
    && (a.top != topTOPK || (a.k == b.k && a.sdir == b.sdir))
    && (a.top != topXent || a.p1.2 == b.p1.2)
    && (!(isNorm a.top && decide (1 ≤ a.stage)) || (a.p1 == b.p1 && a.p2.1 == b.p2.1))

/-- Two accumulators combined (R159, R161): the sum, and whether an XACC overflowed. -/
def accAdd (strict : Bool) (x y : Rat) : Rat × Bool :=
  if strict then (x + y, xaccOver (x + y)) else ((rn64 (x + y)).1, false)

def addBands : List Nat → List Nat → List Nat × Bool
  | a :: as, b :: bs =>
    let r := addBands as bs
    ((a + b) % 2 ^ 72 :: r.1, decide (2 ^ 72 ≤ a + b) || r.2)
  | _, _ => ([], false)

/-- An `F32` pattern of a maximum or minimum (R34). -/
def max32 (a b : W32) : W32 := (rnF32 (vmax (f32Val a) (f32Val b))).1
def min32 (a b : W32) : W32 := (rnF32 (vmin (f32Val a) (f32Val b))).1

/-- The larger magnitude in the ranking of Table 1.9 (R35), as a positive value or the canonical NaN. -/
def amax32 (a b : W32) : W32 :=
  let m (w : W32) : W32 := if f32Val w == .nan then nan32 else w &&& 0x7FFFFFFF
  if ranksAbove (f32Val (m b)) (f32Val (m a)) then m b else m a

/-- The first pair of a merged selection (R167, R172); whether a nonzero count saturated. -/
def mergePair (top : Nat) (a b : W32 × W32) : (W32 × W32) × Bool :=
  if top = topMAX then ((max32 a.1 b.1, a.2), false)
  else if top = topMIN then ((min32 a.1 b.1, a.2), false)
  else if top = topAMAX then ((amax32 a.1 b.1, a.2), false)
  else if top = topARGMAX then (keepCand false a b, false)
  else if top = topARGMIN then (keepCand true a b, false)
  else if top = topCOUNTNZ then ((0, satAdd a.2 b.2.toNat), decide (2 ^ 32 ≤ a.2.toNat + b.2.toNat))
  else if top = topPSUM then ((a.1, a.2 ||| b.2), false)
  else if top = topPMAX then ((max32 a.1 b.1, a.2 ||| b.2), false)
  else if top = topPMIN then ((min32 a.1 b.1, a.2 ||| b.2), false)
  else (a, false)

/-- Status bits of a merge: OR, with the exceptions of R219. -/
def mergeStatus (a b : RowSt) : W32 :=
  let m (i : Nat) : W32 := 1 <<< i
  let both := m sEMPTY ||| m sTGTX
  let special := m sZNEG ||| both
  let ca := a.count != 0
  let cb := b.count != 0
  let zneg := (ca || cb) && (!ca || a.bit sZNEG) && (!cb || b.bit sZNEG)
  ((a.status ||| b.status) &&& ~~~special) ||| (a.status &&& b.status &&& both) ||| (if zneg then m sZNEG else 0)

/-- merge(a, b) with `a` the state merged into (R219); the caller has checked that they match. A sum of `PSUM` that overflows its
XACC sets the marker that Table 6.7 reads, like one inside a scan (R161, R172). -/
def RowSt.merge (a b : RowSt) (epoch : W16) : RowSt :=
  let r : RowSt :=
    { a with state := 1, epoch := epoch, count := satAdd a.count b.count.toNat, status := mergeStatus a b
             vanish := satAdd a.vanish b.vanish.toNat, satcnt := satAdd a.satcnt b.satcnt.toNat }
  let r := r.setIf sCSAT (decide (2 ^ 32 ≤ a.count.toNat + b.count.toNat))
  if a.top = topTOPK then
    let cs := insertCands a.sdir (a.k + 1) b.cands a.cands
    { r with cands := cs, ncand := cs.length }
  else if isSoft a.top then
    let m := if a.pivot = pivNone then b.pivot else if b.pivot = pivNone then a.pivot
      else if a.pivot.toInt < b.pivot.toInt then b.pivot else a.pivot
    let ra := if m = pivNone then a else a.raiseTo m
    let rb := if m = pivNone then b else b.raiseTo m
    let bands := addBands ra.bands rb.bands
    let p := accAdd a.strict ra.prim rb.prim
    let q := accAdd a.strict ra.sec rb.sec
    let inf := a.p2.2.toNat + b.p2.2.toNat
    let tgt := if a.top = topXent ∧ b.bit sTGTC ∧ (!a.bit sTGTC ∨ ranksAbove (f32Val b.p1.1) (f32Val a.p1.1)) then b.p1
      else a.p1
    let r := { r with pivot := m, bands := if a.strict then bands.1 else ra.bands, prim := p.1, sec := q.1, p1 := tgt
                      p2 := (max32 a.p2.1 b.p2.1, satAdd (0 : W32) inf), status := r.status ||| ((ra.status ||| rb.status) &&& 0x1010) }
    (r.setIf sBOVF bands.2).setIf sXOVF (p.2 || q.2)
  else
    let p := accAdd a.strict a.prim b.prim
    let q := accAdd a.strict a.sec b.sec
    let pr := if isNorm a.top then (a.p1, false) else mergePair a.top a.p1 b.p1
    let mark : W32 := if a.top = topPSUM ∧ p.2 then 0x10 else 0
    let r := { r with prim := p.1, sec := q.1, p1 := (pr.1.1, pr.1.2 ||| mark) }
    (r.setIf sXOVF (p.2 || q.2)).setIf sCSAT pr.2

/-- merge(a, b), or none where R218 or R224 fails. -/
def mergeRows (a b : RowSt) (epoch : W16) : Option RowSt := if a.matches b then some (a.merge b epoch) else none

end Sys2Proof.Machine
end

