-- ==== Sys2Proof/Machine/Operands.lean ====
section
/-! DEFINITION. What a slot says: opcode, operand descriptors in their roles, chain word (R309, Tables 12.1 to 12.12), with the
field rules that need no state. -/
namespace Sys2Proof.Machine
open Sys2Proof

/-! ### Opcodes (Table 12.2) -/

inductive Op
  | fn | cvt | red | scan | sel | smxa | smxn | ares | norm | xent | rope | opt | merge | settle | mint | fnsync | rollset
  | setlen | assay | sealing | cfg | waitgc | stmt | tenant
  deriving DecidableEq, Repr

def Op.ofCode : Nat → Option Op
  | 0x01 => some .fn | 0x02 => some .cvt | 0x03 => some .red | 0x04 => some .scan | 0x05 => some .sel
  | 0x06 => some .smxa | 0x07 => some .smxn | 0x08 => some .ares | 0x09 => some .norm | 0x0A => some .xent
  | 0x0B => some .rope | 0x0C => some .opt | 0x0D => some .merge | 0x0E => some .settle | 0x10 => some .mint
  | 0x11 => some .fnsync | 0x12 => some .rollset | 0x13 => some .setlen | 0x14 => some .assay | 0x15 => some .sealing
  | 0x16 => some .cfg | 0x17 => some .waitgc | 0x18 => some .stmt | 0x3F => some .tenant
  | _ => none

/-- The six OPCODE bits of each opcode (Table 12.2). -/
def Op.code : Op → Nat
  | .fn => 0x01 | .cvt => 0x02 | .red => 0x03 | .scan => 0x04 | .sel => 0x05 | .smxa => 0x06 | .smxn => 0x07
  | .ares => 0x08 | .norm => 0x09 | .xent => 0x0A | .rope => 0x0B | .opt => 0x0C | .merge => 0x0D | .settle => 0x0E
  | .mint => 0x10 | .fnsync => 0x11 | .rollset => 0x12 | .setlen => 0x13 | .assay => 0x14 | .sealing => 0x15 | .cfg => 0x16
  | .waitgc => 0x17 | .stmt => 0x18 | .tenant => 0x3F

/-! ### Slots (R309, Table 12.1) -/

def Slot.head (x : Slot) : W32 := x.words.headD 0
def Slot.opcode (x : Slot) : Nat := x.head.toNat / 2 ^ 26
def Slot.count (x : Slot) : Nat := bitsOf x.head.toNat 25 23
def Slot.cw (x : Slot) : Bool := x.head.getLsbD 22
def Slot.op (x : Slot) : Option Op := Op.ofCode x.opcode

/-- The four words of item `i` after the opcode word, as a 128-bit number. -/
def Slot.item (x : Slot) (i : Nat) : Nat := wordsNat ((x.words.drop (1 + 4 * i)).take 4)

/-- The chain word, when CW is set. -/
def Slot.chain (x : Slot) : Nat := if x.cw then x.item x.count else 0

/-! ### Operand descriptors (Tables 12.4 and 12.5) -/

inductive Kind
  | spad | acc | till | roll | brow | bcol | absent | reserved
  deriving DecidableEq, Repr

def Kind.ofCode : Nat → Kind
  | 0 => .spad | 1 => .acc | 2 => .till | 3 => .roll | 4 => .brow | 5 => .bcol | 6 => .absent | _ => .reserved

structure Desc where
  kind    : Kind
  fmt     : Nat
  lensel  : Nat
  trn     : Bool
  slot    : Nat
  addr    : Nat
  cols    : Nat
  rows    : Nat
  rstride : Nat
  estride : Nat
  scoff   : Nat
  deriving DecidableEq, Repr

/-- Table 12.4. -/
def Desc.ofNat (n : Nat) : Desc :=
  { kind := .ofCode (bitsOf n 127 125), fmt := bitsOf n 124 121, lensel := bitsOf n 120 118, trn := n.testBit 117
    slot := bitsOf n 116 111, addr := bitsOf n 110 84, cols := bitsOf n 83 64, rows := bitsOf n 63 48
    rstride := bitsOf n 47 24, estride := bitsOf n 23 20, scoff := bitsOf n 19 0 }

/-- The format, `F32` where the code is reserved (check 4 has refused it). -/
def Desc.f (d : Desc) : Fmt := (Fmt.ofCode d.fmt).getD .f32

/-- Bytes per element (R22). -/
def Desc.size (d : Desc) : Nat := d.f.bits / 8

/-- The fields of Table 12.5 that a kind reserves are zero, LENSEL and SLOT are in range, and the columns that must be 1
are (R315, R316). -/
def Desc.fieldsOk (d : Desc) : Bool :=
  let z (n : Nat) : Bool := n == 0
  let blk := d.f.isBlock
  decide (d.lensel ≤ 4) && match d.kind with
  | .spad => z d.slot && (blk || z d.scoff)
  | .acc => z d.lensel && !d.trn && z d.slot && z d.addr && z d.rstride && z d.estride && z d.scoff
      && decide (1 ≤ d.cols) && decide (d.cols ≤ 256)
  | .till => !d.trn && z d.addr && z d.rstride && z d.estride && z d.scoff
  | .roll => !d.trn && decide (d.slot ≤ 15) && z d.addr && z d.estride && (blk || z d.scoff)
  | .brow => !d.trn && z d.slot && d.rows == 1 && z d.rstride && z d.scoff
  | .bcol => z d.lensel && !d.trn && z d.slot && d.cols == 1 && z d.estride && z d.scoff
  | .absent => z d.fmt && z d.lensel && !d.trn && z d.slot && z d.addr && z d.cols && z d.rows && z d.rstride
      && z d.estride && z d.scoff
  | .reserved => false

/-- The row length under captured length registers (R70). -/
def Desc.len (d : Desc) (r : Regs) : Nat :=
  if d.lensel = 0 then d.cols else (vecGet r.len (d.lensel - 1) 0).toNat

/-- The bytes of a block of codes (R26). -/
def Desc.cb (d : Desc) : Nat := if d.f == .y4 then 16 else 32

/-- Alignment of R22, R26 and R27 on an operand in the scratchpad. A broadcast row or column of 16- or 32-bit elements must be
aligned like a scratchpad operand, which no rule states (DESIGN CHOICE, log 77); its block formats are left to check 6, which
refuses them with `FMTIL` (R24). -/
def Desc.alignOk (d : Desc) : Bool :=
  let even := d.f.bits < 16 || d.addr % d.size == 0
  match d.kind with
  | .spad =>
    (if d.f.isBlock then d.addr % d.cb == 0 && d.rstride % d.cb == 0 && d.scoff != 0 && !d.trn && d.estride == 0
     else even && (d.f != .s4 || d.estride == 0))
  | .brow | .bcol => d.f.isBlock || even
  | .roll => !d.f.isBlock || (d.rstride % d.cb == 0 && d.scoff != 0)
  | _ => true

/-- The formats a kind accepts (Table 1.7). -/
def Desc.kindAccepts (d : Desc) : Bool :=
  match d.kind with
  | .spad | .roll => true
  | .acc | .till => d.f == .f32 || d.f == .s32
  | .brow | .bcol => d.f == .f32 || d.f == .f16 || d.f == .y16
  | _ => true

/-! ### Chain words (Tables 12.7 to 12.12) -/

/-- The fields of the chain words that element commands carry; a field that a layout lacks is 0. -/
structure Recipe where
  imm0  : W32
  imm1  : W32
  func  : Nat
  s2a   : Nat
  s2b   : Nat
  s4op  : Nat
  s4c   : Nat
  s4d   : Nat
  tsx   : Nat
  tsy   : Nat
  tap   : Nat
  msrc  : Nat
  mact  : Nat
  mfill : Nat
  rnd   : Nat
  scm   : Bool
  scb   : Nat
  amen  : Bool
  amsel : Nat
  amclr : Bool
  aen   : Bool
  aacc  : Nat
  ixs   : Nat
  sigs  : Nat
  rsb   : Nat
  opn   : Bool
  ld    : Bool
  close : Bool
  st    : Bool
  ixb   : Nat
  top   : Nat
  excl  : Bool
  sseg  : Bool
  k     : Nat
  sdir  : Bool
  rese  : Bool
  gmk   : Nat
  qbl   : Nat
  aph   : Nat
  nk    : Nat
  nph   : Nat
  tsl   : Nat
  xph   : Nat
  bt    : Nat
  bh    : Nat
  bw    : Nat
  psrc  : Bool
  pair  : Bool
  dir   : Bool
  ibl   : Nat
  step  : Nat
  alg   : Nat
  mfmt  : Bool
  cpy   : Bool
  deriving DecidableEq, Repr

def Recipe.zero : Recipe :=
  { imm0 := 0, imm1 := 0, func := 0, s2a := 0, s2b := 0, s4op := 0, s4c := 0, s4d := 0, tsx := 0, tsy := 0, tap := 0
    msrc := 0, mact := 0, mfill := 0, rnd := 0, scm := false, scb := 0, amen := false, amsel := 0, amclr := false
    aen := false, aacc := 0, ixs := 0, sigs := 0, rsb := 0, opn := false, ld := false, close := false, st := false, ixb := 0
    top := 0, excl := false, sseg := false, k := 0, sdir := false, rese := false, gmk := 0, qbl := 0, aph := 0, nk := 0
    nph := 0, tsl := 0, xph := 0, bt := 0, bh := 0, bw := 0, psrc := false, pair := false, dir := false, ibl := 0, step := 0
    alg := 0, mfmt := false, cpy := false }

def w32Of (n hi lo : Nat) : W32 := BitVec.ofNat 32 (bitsOf n hi lo)

/-- The recipe layout (Table 12.7). -/
def Recipe.common (n : Nat) : Recipe :=
  { Recipe.zero with
    imm1 := w32Of n 127 96, imm0 := w32Of n 95 64, func := bitsOf n 63 56, s2a := bitsOf n 55 53, s2b := bitsOf n 52 50
    s4op := bitsOf n 49 47, s4c := bitsOf n 46 44, s4d := bitsOf n 43 41, tsx := bitsOf n 40 39, tsy := bitsOf n 38 37
    tap := bitsOf n 36 35, msrc := bitsOf n 34 33, mact := bitsOf n 32 31, mfill := bitsOf n 30 29, rnd := bitsOf n 28 26
    scm := n.testBit 25, scb := bitsOf n 24 17, amen := n.testBit 16, amsel := bitsOf n 15 12, amclr := n.testBit 11
    aen := n.testBit 10, aacc := bitsOf n 9 6, ixs := bitsOf n 5 4, sigs := bitsOf n 3 2 }

/-- RSX (Table 12.9) on the recipe layout. -/
def Recipe.rsx (o : Op) (n : Nat) : Recipe :=
  let r := { Recipe.common n with
    imm1 := 0, rsb := bitsOf n 127 116, opn := n.testBit 115, ld := n.testBit 114, close := n.testBit 113
    st := n.testBit 112, ixb := bitsOf n 111 109 }
  match o with
  | .red => { r with top := bitsOf n 108 105 }
  | .scan => { r with top := bitsOf n 108 105, excl := n.testBit 104, sseg := n.testBit 103 }
  | .sel => { r with top := bitsOf n 108 105, k := bitsOf n 104 99, sdir := n.testBit 98, rese := n.testBit 97 }
  | .smxa | .smxn => { r with gmk := bitsOf n 102 101, qbl := bitsOf n 100 98 }
  | .ares => { r with aph := bitsOf n 104 103, gmk := bitsOf n 102 101, qbl := bitsOf n 100 98 }
  | .norm => { r with nk := bitsOf n 108 108, nph := bitsOf n 107 106, tsl := bitsOf n 105 100 }
  | _ => r

/-- Table 12.10. -/
def Recipe.xent (n : Nat) : Recipe :=
  { Recipe.zero with
    imm1 := w32Of n 127 96, imm0 := w32Of n 95 64, rsb := bitsOf n 63 52, opn := n.testBit 51, ld := n.testBit 50
    close := n.testBit 49, st := n.testBit 48, ixb := bitsOf n 47 45, gmk := bitsOf n 44 43, qbl := bitsOf n 42 40
    xph := bitsOf n 39 39, s2a := bitsOf n 36 34, s2b := bitsOf n 33 31, msrc := bitsOf n 30 29, mact := bitsOf n 28 27
    mfill := bitsOf n 26 25, rnd := bitsOf n 24 22, amen := n.testBit 21, amsel := bitsOf n 20 17, amclr := n.testBit 16
    aen := n.testBit 15, aacc := bitsOf n 14 11, ixs := bitsOf n 10 9, sigs := bitsOf n 8 7 }

/-- Table 12.11. -/
def Recipe.rope (n : Nat) : Recipe :=
  { Recipe.zero with
    bt := bitsOf n 127 112, bh := bitsOf n 111 96, imm0 := w32Of n 95 64, func := bitsOf n 63 56, bw := bitsOf n 55 40
    tsx := bitsOf n 39 38, tap := bitsOf n 37 36, psrc := n.testBit 35, pair := n.testBit 34, dir := n.testBit 33
    ibl := bitsOf n 32 31, rnd := bitsOf n 30 28, scm := n.testBit 27, scb := bitsOf n 26 19, amen := n.testBit 18
    amsel := bitsOf n 17 14, amclr := n.testBit 13, aen := n.testBit 12, aacc := bitsOf n 11 8, ixs := bitsOf n 7 6
    sigs := bitsOf n 5 4 }

/-- The `OPT` row of Table 12.12. -/
def Recipe.opt (n : Nat) : Recipe :=
  { Recipe.zero with
    step := bitsOf n 95 64, alg := bitsOf n 63 62, mfmt := n.testBit 61, cpy := n.testBit 60, rnd := bitsOf n 59 57
    aen := n.testBit 56, aacc := bitsOf n 55 52, ixs := bitsOf n 51 50, sigs := bitsOf n 49 48 }

/-- The recipe of a command; without a chain word the defaults of Table 3.4, whose rounding code is the epoch's. -/
def Recipe.of (o : Op) (cw : Bool) (n : Nat) : Recipe :=
  match o with
  | .fn | .cvt => if cw then Recipe.common n else Recipe.zero
  | .red | .scan | .sel | .smxa | .smxn | .ares | .norm => Recipe.rsx o n
  | .xent => Recipe.xent n
  | .rope => Recipe.rope n
  | .opt => Recipe.opt n
  | .merge => { Recipe.zero with rnd := bitsOf n 3 1, close := n.testBit 0 }
  | .settle => { Recipe.zero with rnd := bitsOf n 62 60, close := n.testBit 59, st := n.testBit 58, ld := n.testBit 57
                                  rsb := bitsOf n 43 32 }
  | .assay => { Recipe.zero with ixs := bitsOf n 24 23, aacc := bitsOf n 22 19 }
  | _ => Recipe.zero

/-- Rounding codes of Table 2.2. -/
def Rnd.ofCode : Nat → Option Rnd
  | 0 => some .rne | 1 => some .rtz | 2 => some .rup | 3 => some .rdn | 4 => some .rto | 5 => some .sr
  | _ => none

def Rnd.code : Rnd → Nat
  | .rne => 0 | .rtz => 1 | .rup => 2 | .rdn => 3 | .rto => 4 | .sr => 5

/-! ### Roles (Table 12.6) -/

inductive Role
  | x | out | y | row | col | mask | res | rs | val | idx | gam | bet | tgt | freq | pos | sin | g | sout | hp | wcpy
  | in0 | in1 | rso | img | data
  deriving DecidableEq, Repr

def on {α : Type} (c : Bool) (a : α) : List α := if c then [a] else []

/-- A coefficient code stands in one of the four sources (Table 3.5). -/
def Recipe.uses (r : Recipe) (code : Nat) : Bool := r.s2a == code || r.s2b == code || r.s4c == code || r.s4d == code

/-- Y, ROW, COL and MASK, when the recipe names them. -/
def Recipe.yrcm (r : Recipe) : List Role :=
  on (r.uses 5) .y ++ on (r.uses 3) .row ++ on (r.uses 4) .col
    ++ on (r.msrc == 1 || r.msrc == 3 || r.sseg) .mask

def Recipe.usesRs (r : Recipe) : Bool := r.ld || r.st

/-- The roles present, in order (Table 12.6). `n` is the chain word. -/
def rolesOf (o : Op) (r : Recipe) (n : Nat) : List Role :=
  match o with
  | .fn | .cvt => [.x, .out] ++ r.yrcm
  | .red | .smxa => [.x] ++ on r.close .res ++ on r.usesRs .rs ++ r.yrcm
  | .scan => [.x, .out] ++ on r.close .res ++ on r.usesRs .rs ++ r.yrcm
  | .sel => [.x] ++ (if r.close then [.val, .idx] else []) ++ on (r.close && r.rese) .res ++ on r.usesRs .rs ++ r.yrcm
  | .smxn => [.x, .out] ++ on r.ld .rs ++ r.yrcm
  | .ares => [.x, .out] ++ on r.close .res ++ on r.usesRs .rs ++ r.yrcm
  | .norm => [.x] ++ (if r.nph = 0 ∨ r.nph = 3 then [.gam, .bet, .out] else []) ++ on r.close .res ++ on r.usesRs .rs
      ++ on (r.msrc == 1 || r.msrc == 3) .mask
  | .xent => [.x] ++ on (r.xph == 0 && r.opn) .tgt ++ on (r.xph == 1) .out ++ on (r.xph == 0 && r.close) .res
      ++ on r.usesRs .rs ++ r.yrcm
  | .rope => [.x, .out] ++ on (decide (0 < r.bt + r.bh + r.bw)) .freq ++ on r.psrc .pos
  | .opt => [.sin, .g, .sout, .hp] ++ on r.cpy .wcpy
  | .merge => [.in0, .in1, .out] ++ on r.close .res
  | .settle => on r.ld .rs ++ on r.st .rso ++ on r.close .res
  | .mint => [.img]
  | .assay =>
    let p := bitsOf n 18 16
    if p = 3 then [.x] else if p = 2 ∨ p = 4 then [.out] else []
  | .sealing | .stmt => [.out]
  | .cfg => on (!(n.testBit 24 && n.testBit 25)) .data
  | .fnsync | .rollset | .setlen | .waitgc | .tenant => []

/-! ### A decoded command -/

structure Cmd where
  op    : Op
  tag   : W16
  chain : Nat
  cw    : Bool
  rc    : Recipe
  descs : List Desc
  roles : List (Role × Desc)
  deriving DecidableEq, Repr

/-- The command a slot spells under the default rounding code of its epoch. -/
def Slot.decode (x : Slot) (ms : ModeSet) : Option Cmd :=
  match x.op with
  | none => none
  | some o =>
    let n := x.chain
    let r := Recipe.of o x.cw n
    let r := if x.cw then r else { r with rnd := ms.rnd.code }
    let ds := (upTo x.count).map fun i => Desc.ofNat (x.item i)
    some { op := o, tag := x.tag, chain := n, cw := x.cw, rc := r, descs := ds, roles := (rolesOf o r n).zip ds }

def Cmd.role? (c : Cmd) (p : Role) : Option Desc := (c.roles.find? fun x => x.1 == p).map fun x => x.2

def Desc.none : Desc := Desc.ofNat (6 * 2 ^ 125)

def Cmd.get (c : Cmd) (p : Role) : Desc := (c.role? p).getD Desc.none
def Cmd.has (c : Cmd) (p : Role) : Bool := (c.role? p).isSome

/-- The rounding code as a rounding. -/
def Cmd.rnd (c : Cmd) : Rnd := (Rnd.ofCode c.rc.rnd).getD .rne

/-! ### Reserved bits and values of the chain word (R310, R319 to R326) -/

def noBits (n : Nat) (rs : List (Nat × Nat)) : Bool := rs.all fun p => bitsOf n p.1 p.2 == 0

def Recipe.amOk (r : Recipe) : Bool := (r.amen || (r.amsel == 0 && !r.amclr)) && (r.aen || r.aacc == 0)

/-- The fields of Table 12.8 that a command does not use are zero. `outBlock`: OUT is a block format. -/
def recipeUnused (o : Op) (r : Recipe) : Bool :=
  let z (b : Bool) (n : Nat) : Bool := b || n == 0
  let fnLike := o == .fn || o == .red || o == .sel || o == .scan
  let s2 := fnLike || o == .smxa || o == .smxn || (o == .ares && r.aph == 0)
  let tsx := s2 || o == .cvt || o == .norm
  let out := o == .fn || o == .cvt || o == .scan || o == .smxn || o == .norm || (o == .ares && r.aph != 1)
  let rnd := !(o == .ares && r.aph == 1)
  let mf := !(o == .norm || (o == .ares && r.aph != 0))
  z fnLike r.func && z s2 r.s2a && z s2 r.s2b && z fnLike r.s4op && z fnLike r.s4c && z fnLike r.s4d && z tsx r.tsx
    && z fnLike r.tsy && z (o == .red || o == .sel || o == .scan) r.tap && z mf r.mfill && z rnd r.rnd
    && (out || (!r.scm && r.scb == 0 && !r.amen && r.amsel == 0 && !r.amclr && !r.aen && r.aacc == 0 && r.ixs == 0
        && r.sigs == 0))

/-- MACT values a command allows when it has a mask (Table 12.8, R171). `XENT`, whose own layout lists FILL and SKIP, is held to them
only when it has a mask, as the others are (DESIGN CHOICE, log 87). -/
def mactOk (o : Op) (r : Recipe) : Bool :=
  r.msrc == 0 || match o with
    | .fn | .cvt => true
    | .red | .sel => r.mact != 3
    | .norm => r.mact == 1
    | .ares => if r.aph = 0 then decide (r.mact ≤ 1) else r.mact == 1
    | _ => decide (r.mact ≤ 1)

/-- Code 2 (IMM1) stands in no field of a command without IMM1 (R322, R324). -/
def noImm1 (r : Recipe) : Bool :=
  r.s2a != 2 && r.s2b != 2 && r.s4c != 2 && r.s4d != 2 && r.tsx != 2 && r.tsy != 2 && r.mfill != 2 && r.sigs != 2

/-- Field values that are reserved for every recipe (Tables 3.4 to 3.6, 2.2, R241, R320, R321). -/
def recipeValues (r : Recipe) (outBlock : Bool) : Bool :=
  r.s2a != 7 && r.s2b != 7 && r.s4c != 7 && r.s4d != 7 && decide (r.s4op ≤ 3) && r.tsx != 3 && r.tsy != 3 && r.mfill != 3
    && decide (r.rnd ≤ 5) && r.ixs != 3 && r.sigs != 3 && funcOk r.func
    && (r.scm || r.scb == 0) && (outBlock || (!r.scm && r.scb == 0)) && !(r.scm && r.scb == 0xFF) && r.amOk
where
  /-- The codes of R98 that are not reserved. -/
  funcOk (c : Nat) : Bool :=
    decide (c ≤ 0x16) || (decide (0x4A ≤ c) && decide (c ≤ 0x4F)) || c == 0x53 || c == 0x54
      || (decide (0x81 ≤ c) && decide (c ≤ 0x92)) || (decide (0xC0 ≤ c) && decide (c ≤ 0xCF))

/-- RSX values (Table 12.9): reserved bits, IXB, GMK, QBL, and the flow fields a command does not use. -/
def rsxOk (o : Op) (r : Recipe) (n : Nat) : Bool :=
  decide (r.ixb ≤ 4) && decide (r.qbl ≤ 4) && decide (r.gmk ≤ 1) && !(r.opn && r.ld) && match o with
  | .red => noBits n [(104, 96)]
  | .scan => noBits n [(102, 96)]
  | .sel => noBits n [(96, 96)]
  | .smxa => noBits n [(108, 103), (97, 96)]
  | .smxn => noBits n [(108, 103), (97, 96)] && !r.opn && !r.close && !r.st
  | .ares => noBits n [(108, 105), (97, 96)] && r.aph != 3
      && (r.aph == 0 || (!r.opn && !r.close && (r.aph == 1 || !r.st)))
  | .norm => noBits n [(99, 96)] && r.ixb == 0
  | _ => true

/-- TOP and TAP (R141, Table 6.1). -/
def topOk (o : Op) (r : Recipe) : Bool :=
  let any := r.tap != 0
  let xz := r.tap == 1 || r.tap == 2
  match o with
  | .red => decide (1 ≤ r.top) && decide (r.top ≤ 9) && (if r.top = 1 ∨ r.top = 2 ∨ r.top = 8 then any else xz)
  | .sel => r.top == 0xA && xz
  | .scan => decide (0xB ≤ r.top) && decide (r.top ≤ 0xD) && (if r.top = 0xB then any else xz)
  | _ => true

/-- NORM phases (R200): WHOLE opens and closes and does not load; SUM2 does not open; APPLY has no flow but LD (DESIGN CHOICE, log 87).
TSL is a field of every phase and acts in WHOLE alone (R203; DEDUCED, log 87). -/
def normOk (r : Recipe) : Bool :=
  match r.nph with
  | 0 => r.opn && r.close && !r.ld
  | 1 => true
  | 2 => !r.opn && r.nk == 0
  | _ => !r.opn && !r.close && !r.st

/-- λ of `XENT` lies in [0, 1] (R206). -/
def lamOk (w : W32) : Bool := w == 0x80000000 || decide (w.toNat ≤ 0x3F800000)

/-- The chain word's own rules (check 5); `outBlock` tells whether OUT is a block format. -/
def chainOk (c : Cmd) (outBlock : Bool) : Bool :=
  let r := c.rc
  let n := c.chain
  match c.op with
  | .fn | .cvt => !c.cw || (noBits n [(1, 0)] && recipeUnused c.op r && mactOk c.op r && recipeValues r outBlock)
  | .red | .scan | .sel | .smxa | .smxn | .ares | .norm =>
    noBits n [(1, 0)] && recipeUnused c.op r && mactOk c.op r && recipeValues r outBlock && noImm1 r && rsxOk c.op r n
      && topOk c.op r && (c.op != .norm || normOk r) && (!(r.sseg) || r.msrc == 0 || r.msrc == 2)
  | .xent =>
    noBits n [(38, 37), (6, 0)] && recipeValues r outBlock && decide (r.ixb ≤ 4) && decide (r.gmk ≤ 1) && decide (r.qbl ≤ 4)
      && r.s2a != 1 && r.s2a != 2 && r.s2b != 1 && r.s2b != 2 && decide (r.mfill ≤ 1) && mactOk .xent r && !(r.opn && r.ld)
      && lamOk r.imm0
      && (if r.xph = 0 then !r.amen && r.amsel == 0 && !r.amclr && !r.aen && r.aacc == 0 && r.ixs == 0 && r.sigs == 0
          else !r.opn && !r.close && !r.st)
  | .rope =>
    noBits n [(3, 0)] && r.tap == 0 && r.tsx != 2 && r.sigs != 2 && (r.func == 0x11 || r.func == 0x91)
      && recipeValues r outBlock
  | .opt =>
    noBits n [(127, 96), (47, 0)] && decide (r.alg ≤ 1) && (r.rnd == 0 || r.rnd == 5) && r.ixs != 3 && r.sigs != 3 && r.amOk
      && (r.alg == 0 || r.step == 0)
  | .merge => noBits n [(127, 4)] && decide (r.rnd ≤ 5)
  | .settle => noBits n [(127, 83), (63, 63)] && decide (r.rnd ≤ 5)
      && decide (1 ≤ bitsOf n 82 80) && decide (bitsOf n 82 80 ≤ 5)
  | .mint => noBits n [(127, 4)]
  | .fnsync => noBits n [(127, 16)]
  | .rollset => noBits n [(47, 8), (3, 2)]
  | .setlen =>
    let ra := bitsOf n 3 0
    let rb := bitsOf n 7 4
    let ok (x : Nat) : Bool := decide (x ≤ 6) || x == 15
    noBits n [(63, 10)] && ok ra && ok rb && !(ra == rb && ra != 15)
  | .assay =>
    let p := bitsOf n 18 16
    noBits n [(127, 25)] && decide (p ≤ 5) && (if p = 3 then noBits n [(15, 0)] && r.ixs != 3 else noBits n [(24, 19)])
  | .sealing => noBits n [(127, 17)]
  | .cfg =>
    let len := bitsOf n 44 32
    noBits n [(63, 45), (31, 26)] && decide (1 ≤ len) && decide (len ≤ 4096)
      && (!(n.testBit 25 && n.testBit 24) || decide (len ≤ 8))
  | .waitgc => noBits n [(127, 64)]
  | .stmt => true
  | .tenant => noBits n [(127, 3)]

end Sys2Proof.Machine
end

