-- ==== Sys2Proof/Machine/Streams.lean ====
section
/-! DEFINITION. Beats, operand addresses, escrow boxes, and the lane-stream requests whose pieces decide bank conflicts (R22,
R26, R68, R267 to R273, R284 to R287). -/
namespace Sys2Proof.Machine
open Sys2Proof

def ceilDiv (a b : Nat) : Nat := (a + b - 1) / b

/-! ### Beats (R68) -/

/-- The beat structure of a command: row length, rows, and lane passes over each row (R203). -/
structure Geo where
  c      : Nat
  rows   : Nat
  passes : Nat
  deriving DecidableEq, Repr

/-- Beats of a row in one pass. -/
def Geo.bpr (g : Geo) : Nat := if 256 < g.c then ceilDiv g.c 256 else 1

/-- Rows that share a beat. -/
def Geo.share (g : Geo) : Nat := if g.c = 0 ∨ 256 < g.c then 1 else min (256 / g.c) 16

/-- Groups of rows that share their beats. -/
def Geo.groups (g : Geo) : Nat := if g.c = 0 then 0 else ceilDiv g.rows g.share

def Geo.beats (g : Geo) : Nat := g.groups * g.passes * g.bpr

/-- The beat that holds element k of row r in a pass. -/
def Geo.beatOf (g : Geo) (pass r k : Nat) : Nat := (r / g.share * g.passes + pass) * g.bpr + k / 256

def Geo.firstBeat (g : Geo) (r : Nat) : Nat := g.beatOf 0 r 0
def Geo.lastBeat (g : Geo) (r : Nat) : Nat := g.beatOf (g.passes - 1) r (g.c - 1)

/-- A segment: row, first element, length, first position. -/
structure Seg where
  row : Nat
  k   : Nat
  len : Nat
  pos : Nat
  deriving DecidableEq, Repr

/-- The pass and the segments of a beat. -/
def Geo.pass (g : Geo) (b : Nat) : Nat := b / g.bpr % g.passes

def Geo.segs (g : Geo) (b : Nat) : List Seg :=
  let grp := b / (g.bpr * g.passes)
  let j := b % g.bpr
  if 256 < g.c then [{ row := grp, k := 256 * j, len := min 256 (g.c - 256 * j), pos := 0 }]
  else (upTo (min g.share (g.rows - grp * g.share))).map fun i =>
    { row := grp * g.share + i, k := 0, len := g.c, pos := i * g.c }

/-- The index of a beat within its pass over the operand: its Till entry beyond SLOT (R88). -/
def Geo.tillIdx (g : Geo) (b : Nat) : Nat := b / (g.bpr * g.passes) * g.bpr + b % g.bpr

/-- Till entries that an operand of this shape takes (R88). -/
def Geo.entries (g : Geo) : Nat := if g.c = 0 then 0 else g.groups * g.bpr

/-- The lane of element k of row r in its beat. -/
def Geo.lane (g : Geo) (r k : Nat) : Nat := if 256 < g.c then k % 256 else r % g.share * g.c + k

/-! ### Addresses (R21, R22, R26, R72, R273) -/

/-- Where a roll operand's rows lie: the roll's base, slot size and number of slots, and the first slot's sequence number. -/
structure RollPlace where
  base  : Nat
  slotb : Nat
  nslot : Nat
  first : Nat
  /-- sequence numbers that lie in another slot than their value modulo NSLOT (R305) -/
  moved : List (W32 × Nat)
  deriving DecidableEq, Repr

/-- Rows per slot (R299). -/
def Desc.rps (d : Desc) (slotb : Nat) : Nat :=
  let lc := if d.f.isBlock then 64 * d.scoff else slotb
  if d.rstride = 0 then 0 else lc / d.rstride

/-- The slots a roll operand takes (R299). -/
def Desc.slotsTaken (d : Desc) (slotb : Nat) : Nat := if d.rps slotb = 0 then 0 else ceilDiv d.rows (d.rps slotb)

/-- The start of the slot that holds row r, and the row within it. -/
def RollPlace.slotOf (p : RollPlace) (d : Desc) (r : Nat) : Nat × Nat :=
  let n := (p.first + r / d.rps p.slotb) % 2 ^ 32
  let s := match p.moved.find? fun x => x.1.toNat == n with | some x => x.2 | none => n % p.nslot
  (p.base + s * p.slotb, r % d.rps p.slotb)

/-- The byte at which row r of an operand starts. -/
def rowBase (d : Desc) (p : Option RollPlace) (r : Nat) : Nat :=
  match p with
  | some p => let s := p.slotOf d r; s.1 + s.2 * d.rstride
  | none => d.addr + r * d.rstride

/-- The byte of the scale of block b of row r (R26). -/
def scaleAddr (d : Desc) (p : Option RollPlace) (r b : Nat) : Nat :=
  match p with
  | some p => let s := p.slotOf d r; s.1 + 64 * d.scoff + s.2 * (d.rstride / d.cb) + b
  | none => d.addr + 64 * d.scoff + r * (d.rstride / d.cb) + b

/-- The byte of element k of row r; a 4-bit element's byte (R21, R22, R273). -/
def elemAddr (d : Desc) (p : Option RollPlace) (r k : Nat) : Nat :=
  if d.trn then d.addr + k * d.rstride + r * d.size
  else if d.f.bits = 4 then rowBase d p r + k / 2
  else rowBase d p r + k * (d.estride + 1) * d.size

/-! ### Boxes (R284, Table 11.1) -/

structure Box where
  write : Bool
  lo    : Nat
  hi    : Nat
  deriving DecidableEq, Repr

/-- First and last byte of an operand's codes; `mask`: C counts bits. -/
def Desc.span (d : Desc) (mask : Bool) (l : Nat) : Nat × Nat :=
  let rows := d.rows - 1
  let hi := if mask then d.addr + rows * d.rstride + ceilDiv l 8 - 1
    else if d.trn then d.addr + (l - 1) * d.rstride + d.rows * d.size - 1
    else if d.f.bits = 4 then d.addr + rows * d.rstride + ceilDiv l 2 - 1
    else d.addr + rows * d.rstride + (l - 1) * (d.estride + 1) * d.size + d.size - 1
  (d.addr, hi)

/-- The byte intervals of an operand's box and its scale box, none where it forms no box. -/
def Desc.spans (d : Desc) (mask : Bool) (l : Nat) : List (Nat × Nat) :=
  let forms := d.kind == .spad || d.kind == .brow || d.kind == .bcol
  if !forms || d.rows == 0 || l == 0 then []
  else
    let sb := d.addr + 64 * d.scoff
    d.span mask l :: on d.f.isBlock (sb, sb + (d.rows - 1) * (d.rstride / d.cb) + ceilDiv l 32 - 1)

/-- Roles whose box is a write box (R285); `cfgRead`: the DATA of a `CFG` read. -/
def Role.writes (p : Role) (st cfgRead : Bool) : Bool :=
  match p with
  | .out | .res | .val | .idx | .sout | .wcpy | .rso => true
  | .rs => st
  | .data => cfgRead
  | _ => false

def Cmd.isCfgRead (c : Cmd) : Bool := c.op == .cfg && !c.chain.testBit 24

/-- The region a `ROLLSET` names: roll, base and end (R306). -/
def Cmd.rollRegion (c : Cmd) : Nat × Nat := 
  let b := bitsOf c.chain 127 96
  (b, b + bitsOf c.chain 63 48 * bitsOf c.chain 95 64)

/-- The byte intervals a command declares, with the descriptor position of each (R285). -/
def Cmd.intervals (c : Cmd) (r : Regs) : List (Nat × Bool × Nat × Nat) :=
  let ops := (c.roles.zipIdx.map fun x =>
    ((x.1.2.spans (x.1.1 == .mask) (x.1.2.len r)).map fun s =>
      (x.2, x.1.1.writes (c.rc.st && c.op != .settle) c.isCfgRead, s.1, s.2))).flatten
  if c.op = .rollset then
    let g := c.rollRegion
    on (decide (g.1 < g.2)) (0, true, g.1, g.2 - 1)
  else ops

/-- The boxes of a command in lines. -/
def Cmd.boxes (c : Cmd) (r : Regs) : List Box :=
  (c.intervals r).map fun x => { write := x.2.1, lo := x.2.2.1 / 64, hi := x.2.2.2 / 64 }

def Box.overlaps (a b : Box) : Bool := decide (a.lo ≤ b.hi) && decide (b.lo ≤ a.hi)

/-- Whether two boxes of different commands stand in a hazard (R288). -/
def Box.hazard (a b : Box) : Bool := (a.write || b.write) && a.overlaps b

/-- Whether no write box overlaps any other box of its command (R287). The flag marks the RS box of LD = ST = 1, which does not
count as overlapping a read box (R285). -/
def boxesApart : List (Bool × Box) → Bool
  | [] => true
  | b :: bs =>
    bs.all (fun x => !(b.2.hazard x.2) || (b.1 && !x.2.write) || (x.1 && !b.2.write)) && boxesApart bs

/-- The boxes of a command with that flag. -/
def Cmd.markedBoxes (c : Cmd) (r : Regs) : List (Bool × Box) :=
  (c.intervals r).map fun x =>
    (c.rc.ld && c.rc.st && ((c.roles.getD x.1 (.x, Desc.none)).1 == .rs) && x.2.1,
      { write := x.2.1, lo := x.2.2.1 / 64, hi := x.2.2.2 / 64 })

/-! ### Line requests (R267, R273) -/

/-- The lines from byte a to byte b. -/
def linesOf (a b : Nat) : List Nat := if b < a then [] else (upTo (b / 64 - a / 64 + 1)).map (· + a / 64)

/-- The lines of elements k to k + n − 1 of row r, in element order. -/
def spanLines (d : Desc) (p : Option RollPlace) (mask : Bool) (r k n : Nat) : List Nat :=
  if n = 0 then []
  else if mask then linesOf (rowBase d p r + k / 8) (rowBase d p r + (k + n - 1) / 8)
  else if d.f.bits = 4 then linesOf (rowBase d p r + k / 2) (rowBase d p r + (k + n - 1) / 2)
  else if d.estride = 0 then linesOf (rowBase d p r + k * d.size) (rowBase d p r + (k + n) * d.size - 1)
  else ((upTo n).map fun i =>
    let a := elemAddr d p r (k + i)
    linesOf a (a + d.size - 1)).flatten

/-- The lines of the scales of elements k to k + n − 1. -/
def scaleLines (d : Desc) (p : Option RollPlace) (r k n : Nat) : List Nat :=
  if n = 0 ∨ !d.f.isBlock then [] else linesOf (scaleAddr d p r (k / 32)) (scaleAddr d p r ((k + n - 1) / 32))

/-- Requests (beat key, line) of the beats of an element operand: codes before scales within a beat. Key 0 stands ahead of
beat 0, key b + 1 for beat b. `whole`: a written block operand covers whole blocks (R28). An `OPT` operand has one
descriptor for each of its planes (R329). -/
def elemTouches (g : Geo) (ds : List Desc) (p : Option RollPlace) (mask whole : Bool) (pass : Nat) : List (Nat × Nat) :=
  ((upTo g.beats).map fun b =>
    if g.pass b ≠ pass then []
    else
      let segs := g.segs b
      let rowsOf := (ds.zipIdx.map fun d => segs.map fun s => (d.1, ({ s with row := d.2 * g.rows + s.row } : Seg))).flatten
      let ext (d : Desc) (s : Seg) : Nat := if whole && d.f.isBlock then ceilDiv s.len 32 * 32 else s.len
      ((rowsOf.map fun x => spanLines x.1 p mask x.2.row x.2.k (ext x.1 x.2)).flatten
        ++ (rowsOf.map fun x => scaleLines x.1 p x.2.row x.2.k x.2.len).flatten).map fun l => (b + 1, l)).flatten

/-- Touches in the order of their beats. -/
def byKey (beats : Nat) (ts : List (Nat × Nat)) : List (Nat × Nat) :=
  ((upTo (beats + 1)).map fun k => ts.filter fun t => t.1 == k).flatten

/-- Requests of an operand whose row length l differs from C: position p′ stands at input position ⌊p′·C/l⌋ (R267). -/
def scaledTouches (g : Geo) (d : Desc) (p : Option RollPlace) (mask whole : Bool) (l pass : Nat) : List (Nat × Nat) :=
  byKey g.beats <|
  let key (r k : Nat) : Nat := if g.c = 0 then g.beats else g.beatOf pass r (min k (l - 1) * g.c / l) + 1
  let ext := if whole && d.f.isBlock then ceilDiv l 32 * 32 else l
  ((upTo g.rows).map fun r =>
    ((upTo ext).map fun k => (spanLines d p mask r (if mask then k / 8 * 8 else k) 1).map fun x =>
        (key r (if mask then k / 8 * 8 else k), x)).flatten).flatten
    ++ ((upTo g.rows).map fun r => ((upTo (ceilDiv l 32)).map fun b => (scaleLines d p r (32 * b) 1).map fun x =>
        (key r (if whole then min (32 * b + 31) (l - 1) else 32 * b), x)).flatten).flatten

/-- Requests of a per-row operand: at the row's first beat for a read, at its last for a write, or all at the command's last
beat (R267, R449). -/
def rowTouches (g : Geo) (d : Desc) (p : Option RollPlace) (l : Nat) (write atEnd : Bool) : List (Nat × Nat) :=
  ((upTo d.rows).map fun r =>
    let b := if g.beats = 0 then 0 else if atEnd then g.beats else if write then g.lastBeat r + 1 else g.firstBeat r + 1
    (spanLines d p false r 0 l).map fun x => (b, x)).flatten

/-- Requests of a transposed source: a band of 16 logical rows at its first beat, tile by tile (R273). -/
def trnTouches (g : Geo) (d : Desc) (l pass : Nat) : List (Nat × Nat) :=
  ((upTo (ceilDiv d.rows 16)).map fun band =>
    (upTo l).map fun s => (g.beatOf pass (16 * band) 0 + 1, (d.addr + s * d.rstride + 16 * band * d.size) / 64)).flatten

/-- Requests of a broadcast column: 256 values at a time, as the rows are reached (R73). -/
def colTouches (g : Geo) (d : Desc) : List (Nat × Nat) :=
  (upTo d.rows).map fun r => (g.firstBeat (r / 256 * 256) + 1, (d.addr + r * d.rstride) / 64)

/-- The read requests of touches in the order of their beats (R267): a line is requested at the first beat that needs a byte of it
and comes with that request for every further byte of that beat and of the beats that follow without a gap; a request equal to the
operand's previous one is not formed (DEDUCED, log 86). `seen` holds the touches of the last two beats. -/
def dropRepeats (seen : List (Nat × Nat)) (last : Option Nat) : List (Nat × Nat) → List (Nat × Nat)
  | [] => []
  | x :: xs =>
    let old := seen.filter fun y => decide (x.1 ≤ y.1 + 1)
    let now := if old.contains x then old else x :: old
    if last = some x.2 ∨ (old.any fun y => y.2 == x.2) = true then dropRepeats now last xs
    else x :: dropRepeats now (some x.2) xs

/-- A written line is requested once, at the beat of its last byte (R267). -/
def lastTouches : List (Nat × Nat) → List (Nat × Nat)
  | [] => []
  | x :: xs => if xs.any (fun y => y.2 == x.2) then lastTouches xs else x :: lastTouches xs

/-- A request: beat key, descriptor position, line. -/
structure Req where
  key  : Nat
  desc : Nat
  line : Nat
  deriving DecidableEq, Repr

def Req.bank (r : Req) : Nat := r.line % 64

/-- Requests in sequence order: by beat, within a beat by descriptor (R267). -/
def sequence (beats : Nat) (ops : List (Nat × List (Nat × Nat))) : List Req :=
  ((upTo (beats + 1)).map fun k =>
    (ops.map fun o => (o.2.filter fun t => t.1 == k).map fun t => ({ key := k, desc := o.1, line := t.2 } : Req)).flatten).flatten

/-- The pieces of a sequence (R268). -/
def pieces : List Req → List Req → List (List Req)
  | cur, [] => if cur.isEmpty then [] else [cur]
  | cur, r :: rs =>
    if cur.length = 8 ∨ cur.any (fun x => x.bank == r.bank) then cur :: pieces [r] rs
    else pieces (cur ++ [r]) rs

/-- Groups of n consecutive pieces (R269); the first argument bounds the number of groups. -/
def groupPieces (n : Nat) : Nat → List (List Req) → List (List (List Req))
  | 0, _ => []
  | f + 1, ps => if ps.isEmpty then [] else ps.take n :: groupPieces n f (ps.drop n)

/-- Two requests of different pieces that name one bank: the two descriptors and the bank. Of several clashes in a group the detail
names the first request in sequence order that has one, with the first later request it meets (DESIGN CHOICE, log 86). -/
def groupConflict : List (List Req) → Option (Nat × Nat × Nat)
  | [] => none
  | p :: ps =>
    let hit := p.findSome? fun a => (ps.flatten.find? fun b => b.bank == a.bank).map fun b => (a.desc, b.desc, a.bank)
    match hit with
    | some h => some h
    | none => groupConflict ps

/-- The first conflicting group of a sequence: its requests and the conflict. -/
def firstConflict (gs : List (List (List Req))) : Option (List Req × Nat × Nat × Nat) :=
  gs.findSome? fun g => (groupConflict g).map fun c => (g.flatten, c)

/-- The first beat with a read request in the first conflicting group or beyond: it and later beats start no read (R269). -/
def blockedBeat (beats : Nat) (reads : List (List (List Req))) : Nat :=
  (reads.dropWhile fun g => (groupConflict g).isNone).flatten.flatten.foldl (fun m r => min m (r.key - 1)) beats

/-- The bank conflict that decides a command's fault (R270). -/
def bankConflict (beats : Nat) (reads writes : List (Nat × List (Nat × Nat))) : Option Conflict :=
  let rs := sequence beats reads
  let ws := sequence beats writes
  let rg := groupPieces 4 (rs.length + 1) (pieces [] rs)
  let wg := groupPieces 2 (ws.length + 1) (pieces [] ws)
  let asRead (x : List Req × Nat × Nat × Nat) : Conflict :=
    { beat := blockedBeat beats rg, descA := x.2.1, descB := x.2.2.1, bank := x.2.2.2
      read := true, lines := [] }
  let asWrite (x : List Req × Nat × Nat × Nat) : Conflict :=
    { beat := (x.1.getLast?.map (·.key) |>.getD 0) - 1, descA := x.2.1, descB := x.2.2.1, bank := x.2.2.2, read := false
      lines := x.1.map (·.line) }
  match firstConflict rg, firstConflict wg with
  | none, none => none
  | some r, none => some (asRead r)
  | none, some w => some (asWrite w)
  | some r, some w =>
    if (r.1.head?.map (·.key) |>.getD 0) ≤ (w.1.getLast?.map (·.key) |>.getD 0) then some (asRead r) else some (asWrite w)

/-! ### A command's streams -/

/-- What the lane streams of a command depend on. -/
structure Place where
  geo    : Geo
  regs   : Regs
  /-- `NORM` WHOLE rereads its rows (R203) -/
  reread : Bool
  /-- the formats of the planes of SIN and SOUT of `OPT` (R329) -/
  planes : List Nat
  rolls  : List (Role × RollPlace)
  deriving DecidableEq, Repr

def Place.roll? (p : Place) (r : Role) : Option RollPlace := (p.rolls.find? fun x => x.1 == r).map fun x => x.2

/-- An operand that uses the lane streams (R266). -/
def Desc.streams (d : Desc) : Bool :=
  d.rows != 0 && (d.kind == .spad || d.kind == .roll || d.kind == .brow || d.kind == .bcol)

/-- The requests of one operand, as read and as write, in the order of their beats: a row's passes follow one another (R203, R267). -/
def operandTouches (c : Cmd) (pl : Place) (p : Role) (d : Desc) : List (Nat × Nat) × List (Nat × Nat) :=
  let g := pl.geo
  let l := d.len pl.regs
  let place := pl.roll? p
  let last := g.passes - 1
  let latched := p == .img || p == .hp || p == .freq || (d.kind == .brow && decide (l ≤ 256))
  let elem := p == .x || p == .y || p == .out || p == .mask || p == .sin || p == .g || p == .sout || p == .wcpy
    || d.kind == .brow
  let wr := p.writes (c.rc.st && c.op != .settle) c.isCfgRead
  let inPass := if p == .x then 0 else last
  let perRow := !elem || c.op == .merge || g.rows == 0
  let t : List (Nat × Nat) :=
    if l = 0 then []
    else if latched then (spanLines d place false 0 0 l).map fun x => (0, x)
    else if d.kind == .bcol then colTouches g d
    else if d.trn then
      (if p == .x && pl.reread then byKey g.beats ((upTo g.passes).map (trnTouches g d l)).flatten else trnTouches g d l inPass)
    else if perRow then rowTouches g d place l wr false
    else if l = g.c then
      let ds := if p == .sin || p == .sout then pl.planes.map fun f => { d with fmt := f } else [d]
      let e (ps : Nat) := elemTouches g ds place (p == .mask) wr ps
      if p == .x && pl.reread then byKey g.beats ((upTo g.passes).map e).flatten else e inPass
    else scaledTouches g d place (p == .mask) wr l inPass
  if p == .rs && c.rc.ld && wr then (rowTouches g d place l false false, rowTouches g d place l true true)
  else if wr then ([], t) else (t, [])

/-- Each operand of a command that uses the streams, with what it touches. -/
def Cmd.touches (c : Cmd) (pl : Place) : List (Nat × Role × (List (Nat × Nat) × List (Nat × Nat))) :=
  (c.roles.zipIdx.filter fun x => x.1.2.streams).map fun x => (x.2, x.1.1, operandTouches c pl x.1.1 x.1.2)

/-- The requests of a command by descriptor, reads and writes. -/
def Cmd.requests (c : Cmd) (pl : Place) : List (Nat × List (Nat × Nat)) × List (Nat × List (Nat × Nat)) :=
  let ops := c.touches pl
  (ops.map fun o => (o.1, dropRepeats [] none o.2.2.1), ops.map fun o => (o.1, lastTouches o.2.2.2))

/-- The lines that several steps of a command write (R267): each with the beats, and the row results, that must be through before
the line is written. With `packs` a row of OUT is written whole at its last beat. -/
def Cmd.gathered (c : Cmd) (pl : Place) (packs : Bool) : List (Nat × Nat × Nat) :=
  let g := pl.geo
  let rows (p : Nat → Nat) (key : Nat) : Nat := ((upTo g.rows).filter fun r => decide (p r < key)).length
  ((c.touches pl).map fun o =>
    ((lastTouches o.2.2.2).filter fun t => o.2.2.2.any fun u => u.2 == t.2 && u.1 != t.1).map fun t =>
      match o.2.1 with
      | .out | .sout | .wcpy =>
        if packs then (t.2, (let n := rows g.firstBeat t.1; if n = 0 then t.1 else g.lastBeat (n - 1) + 1), 0)
        else (t.2, t.1, 0)
      | .res => if c.op == .merge then (t.2, t.1, 0) else (t.2, 0, rows g.lastBeat t.1)
      | _ => (t.2, 0, rows g.lastBeat t.1)).flatten

/-- The conflict that a command's descriptors imply, if any. -/
def Cmd.conflict (c : Cmd) (pl : Place) : Option Conflict :=
  let r := c.requests pl
  bankConflict pl.geo.beats r.1 r.2

/-- The beat keys of the pieces of a command's streams, reads and writes (R268): a read piece counts at its first request, a write
piece at its last. -/
def Cmd.pieceKeys (c : Cmd) (pl : Place) : List Nat × List Nat :=
  let r := c.requests pl
  ((pieces [] (sequence pl.geo.beats r.1)).map fun p => (p.head?.map (·.key)).getD 0,
    (pieces [] (sequence pl.geo.beats r.2)).map fun p => (p.getLast?.map (·.key)).getD 0)

end Sys2Proof.Machine
end

