-- ==== Sys2Proof/Machine/Check.lean ====
section
/-! DEFINITION. The checks at issue in the order of Table 12.3 (R314), judged on the state that older commands leave. -/
namespace Sys2Proof.Machine
open Sys2Proof

/-- What the checks at issue say of a command. -/
inductive Verdict
  | ok
  /-- a fault with its Ledger code and detail -/
  | fault (code : W16) (detail : List Byte)
  /-- the command waits at issue before it can be judged -/
  | hold
  deriving DecidableEq, Repr

def illcmDetail (order pos row ring : Nat) : List Byte :=
  [BitVec.ofNat 8 order, BitVec.ofNat 8 pos, 0, 0] ++ leBytes 4 row ++ [BitVec.ofNat 8 ring]

def Verdict.illcm (order pos : Nat) : Verdict := .fault cILLCM (illcmDetail order pos 0 0xFF)

/-! ### The command behind an inflight entry -/

def Cmd.empty : Cmd := { op := .waitgc, tag := noTag, chain := 0, cw := false, rc := Recipe.zero, descs := [], roles := [] }

def Inflight.cmd (c : Inflight) : Cmd := (c.slot.decode c.modes).getD Cmd.empty

/-- A command that faulted at issue: it only waits for its completion (R314). -/
def Inflight.refused (c : Inflight) : Bool := c.fault.isSome && c.ready

/-- A `MINT` or `FNSYNC` whose change of its slots is made has retired; only its completion still waits for those of older commands
(R123, R129, R337; log 94). -/
def Inflight.gone (c : Inflight) : Bool := c.fault.isNone && c.ready && (c.cmd.op == .mint || c.cmd.op == .fnsync)

/-- Row-state slots per row (R145, R213). -/
def Cmd.q (c : Cmd) (strict : Bool) : Nat :=
  if c.op = .settle then bitsOf c.chain 82 80 else slotsPerRow c.rc.top c.rc.k strict

/-- The row-state family of a command (Tables 6.1 and 7.1). -/
def Cmd.top (c : Cmd) : Nat :=
  match c.op with
  | .red | .scan | .sel => c.rc.top
  | .smxa | .smxn | .ares => topSoftmax
  | .xent => topXent
  | .norm => if c.rc.nk = 0 then topLayer else topRms
  | _ => 0

/-- Commands that carry a row-state base. -/
def Op.rows (o : Op) : Bool :=
  o == .red || o == .scan || o == .sel || o == .smxa || o == .smxn || o == .ares || o == .xent || o == .norm

/-- Commands that only read their closed state (R185). -/
def Cmd.reads (c : Cmd) : Bool :=
  c.op == .smxn || (c.op == .ares && c.rc.aph == 2) || (c.op == .xent && c.rc.xph == 1) || (c.op == .norm && c.rc.nph == 3)

/-- Recipe commands and the others that process elements in beats (R67, R245, R329). -/
def Cmd.elements (c : Cmd) : Bool :=
  c.op.rows || c.op == .fn || c.op == .cvt || c.op == .rope || c.op == .opt
    || (c.op == .assay && bitsOf c.chain 18 16 == 3) || c.op == .merge

/-- The operand that fixes the shape. -/
def Cmd.main (c : Cmd) : Desc :=
  if c.op = .opt then c.get .g else if c.op = .merge then c.get .in0 else c.get .x

/-- Whether the mask acts as expand (R84). -/
def Cmd.expands (c : Cmd) : Bool := c.rc.msrc != 0 && c.rc.mact == 3
def Cmd.compresses (c : Cmd) : Bool := c.rc.msrc != 0 && c.rc.mact == 2

/-- Lane passes of `NORM` WHOLE (R203). -/
def Cmd.passes (c : Cmd) : Nat := if c.op = .norm ∧ c.rc.nph = 0 then (if c.rc.nk = 0 then 3 else 2) else 1

/-- The beats of a command; a `MERGE` takes one row a beat (R223). -/
def Cmd.geo (c : Cmd) (r : Regs) : Geo :=
  if c.op = .merge then { c := 256, rows := c.main.rows, passes := 1 }
  else if c.elements then { c := c.main.len r, rows := c.main.rows, passes := c.passes }
  else { c := 0, rows := 0, passes := 1 }

/-- The beats in which the output rows of a command lie (R88); expand gives OUT a row length of its own. -/
def Cmd.outGeo (c : Cmd) (r : Regs) : Geo :=
  { c := if c.has .out then (c.get .out).len r else c.main.len r, rows := c.main.rows, passes := 1 }

/-- Whether `NORM` WHOLE reads each row in every pass (R203). -/
def Cmd.rereads (c : Cmd) (r : Regs) : Bool :=
  c.op == .norm && c.rc.nph == 0 && decide (64 - c.rc.tsl < (c.geo r).bpr)

/-! ### The state that older commands leave -/

/-- What a continuing command needs to know of a slot (R148, R185). -/
structure Head where
  state  : Nat
  top    : Nat
  strict : Bool
  k      : Nat
  stage  : Nat
  deriving DecidableEq, Repr

/-- Lines per slot. -/
def slotLines (strict : Bool) : Nat := if strict then 4 else 1

/-- The bytes of lines. -/
def State.rowLines (s : State) (line n : Nat) : List Byte :=
  (upTo (128 * n)).map fun i => Memory.read s.st.rowTab (128 * line + i)

def State.headAt (s : State) (line : Nat) : Head :=
  if s.st.rowBad.contains line then { state := 0, top := 0, strict := false, k := 0, stage := 0 }
  else
    let b := s.rowLines line 1
    let b0 := leAt b 0 1
    { state := b0 % 4, stage := b0 / 4 % 4, top := leAt b 1 1, strict := (leAt b 2 1).testBit 0, k := leAt b 3 1 % 64 }

/-- The slots a command updates: first line, lines per row, rows. -/
def Inflight.rowSpan (c : Inflight) (m : Cmd) : Nat × Nat × Nat :=
  let strict := c.modes.strict
  let w := slotLines strict
  if m.op = .settle then (bitsOf m.chain 55 44 * w, m.q strict * w, bitsOf m.chain 79 64)
  else (m.rc.rsb * w, m.q strict * w, m.main.rows)

/-- The header a command leaves in a row it updates; none where that cannot be told yet. -/
def Inflight.headLeft (c : Inflight) (m : Cmd) : Option Head :=
  let st := if m.rc.close then 2 else 1
  let h (stage : Nat) : Head :=
    { state := st, top := m.top, strict := c.modes.strict, k := if m.top = topTOPK then m.rc.k else 0, stage := stage }
  if c.fault.isSome ∨ m.op = .settle ∨ (m.op = .ares ∧ m.rc.aph = 1) then none
  else if m.op = .norm then
    match m.rc.nph with
    | 0 => some (h (if m.rc.nk = 0 then 2 else 1))
    | 1 => some (h (if m.rc.close then 1 else 0))
    | _ => some (h (if m.rc.close then 2 else 1))
  else some (h 0)

/-- Whether a `SETTLE` has written its state to the slot at a line, which then stands (R216). -/
def Inflight.settledAt (c : Inflight) (m : Cmd) (line : Nat) : Bool :=
  let g := c.rowSpan m
  m.op == .settle && c.fault.isNone && ((c.settle.map fun w => w.settled).getD ((line - g.1) / g.2.1) false)

/-- The header of the slot that starts at a line, as the commands in flight leave it: none while it cannot be told. -/
def headAfter (s : State) (line : Nat) : List Inflight → Option Head
  | [] => some (s.headAt line)
  | c :: older =>
    let m := c.cmd
    let g := c.rowSpan m
    if !c.refused && (m.op.rows && !m.reads || m.op == .settle) && decide (g.1 ≤ line) && decide (line < g.1 + g.2.1 * g.2.2) then
      if (line - g.1) % g.2.1 = 0 then
        (if m.op = .ares ∧ m.rc.aph = 1 ∧ c.fault.isNone ∧ !m.rc.ld then headAfter s line older
          else if c.settledAt m line then some (s.headAt line) else c.headLeft m)
      else none
    else headAfter s line older

def State.headLeft (s : State) (strict : Bool) (slot : Nat) : Option Head :=
  headAfter s (slot * slotLines strict) s.stream.inflight.reverse

/-- An assay accumulator's state as the commands in flight leave it (R242, R245). -/
def assayAfter (s : State) (a : Nat) : List Inflight → AssayState
  | [] => (vecGet s.st.assays a { st := .idle, value := 0, count := 0 }).st
  | c :: older =>
    let m := c.cmd
    let p := bitsOf m.chain 18 16
    if m.op = .assay ∧ c.fault.isNone ∧ m.chain.testBit a ∧ p = 0 then .opened
    else if m.op = .assay ∧ c.fault.isNone ∧ m.chain.testBit a ∧ p = 1 then
      (match assayAfter s a older with | .opened => .closed | x => x)
    else assayAfter s a older

def State.assayLeft (s : State) (a : Nat) : AssayState := assayAfter s a s.stream.inflight.reverse

/-- The curve slot a command uses, if any. -/
def Cmd.curveSlot (c : Cmd) : Option Nat :=
  if (c.op == .fn || c.op == .red || c.op == .scan || c.op == .sel) && isCurveCode c.rc.func then some (c.rc.func - 0xC0) else none

/-- Whether a curve slot is valid in the state that older commands leave, none while an older `MINT` of it, refused image or not,
has still to retire (R123, R129). -/
def curveAfter (s : State) (k : Nat) : List Inflight → Option Bool
  | [] => some ((vecGet s.st.curves k .default).st == .valid)
  | c :: older =>
    let m := c.cmd
    if c.gone then curveAfter s k older
    else if m.op = .mint ∧ m.chain % 16 = k then (if c.refused then curveAfter s k older else none)
    else if m.op = .fnsync ∧ c.fault.isNone ∧ m.chain.testBit k then (curveAfter s k older).map fun _ => false
    else curveAfter s k older

/-! ### Rolls -/

/-- Roll operands of a command: role, roll, whether it produces. -/
def Cmd.rollOps (c : Cmd) : List (Role × Desc × Bool) :=
  (c.roles.filter fun x => x.2.kind == .roll).map fun x => (x.1, x.2, x.1.writes c.rc.st c.isCfgRead)

/-- Whether a `ROLLSET` of a roll is in flight (R306). -/
def State.rollPending (s : State) (n : Nat) : Bool :=
  (s.escrow.sets.any fun w => w.1 == n) || s.stream.inflight.any fun c => c.cmd.op == .rollset && bitsOf c.cmd.chain 7 4 == n && c.fault.isNone

def Roll.region (r : Roll) : Nat × Nat := (r.base.toNat, r.base.toNat + r.nslot.toNat * r.slotb.toNat)

/-- R299's rules for one roll operand on an enabled roll. -/
def rollFits (r : Roll) (d : Desc) (l : Nat) (produce : Bool) : Bool :=
  let sb := r.slotb.toNat
  let rps := d.rps sb
  let n := d.slotsTaken sb
  r.enable && decide (1 ≤ rps)
    && (!d.f.isBlock || decide (64 * d.scoff + (rps - 1) * (d.rstride / d.cb) + ceilDiv l 32 ≤ sb))
    && (produce || decide (n ≤ (if r.overwrite then r.nslot.toNat - 2 else r.nslot.toNat)))

/-- The regions of the enabled rolls but one, and those that a `ROLLSET` in flight or a waiting write of a record will enable (R298). -/
def State.regionsTaken (s : State) (but : Nat) : List (Nat × Nat) :=
  let live (i : Nat) (r : Roll) : List (Nat × Nat) := on (i != but && r.enable) r.region
  ((upTo 16).map fun i => live i (vecGet s.rolls i .default)).flatten ++ (s.escrow.sets.map fun w => live w.1 w.2.1).flatten
    ++ (s.stream.inflight.filter fun c => c.fault.isNone && !c.ready && c.cmd.op == .rollset && c.cmd.chain.testBit 0
        && bitsOf c.cmd.chain 7 4 != but).map fun c => c.cmd.rollRegion

/-- Whether a region of a roll meets no other roll's (R298). -/
def State.regionFree (s : State) (but : Nat) (g : Nat × Nat) : Bool :=
  (s.regionsTaken but).all fun x => decide (g.2 ≤ x.1) || decide (x.2 ≤ g.1)

/-- A `ROLLSET`'s fields and region obey R298 and Table 11.4. -/
def State.rollSetOk (s : State) (c : Cmd) : Bool :=
  let n := c.chain
  let sb := bitsOf n 95 64
  let ns := bitsOf n 63 48
  let g := c.rollRegion
  g.1 % 64 == 0 && sb % 64 == 0 && decide (64 ≤ sb) && decide (sb ≤ 0x100000) && decide (1 ≤ ns)
    && (!n.testBit 1 || decide (3 ≤ ns))
    && (!n.testBit 0 || (decide (g.2 ≤ s.spadBytes) && s.regionFree (bitsOf n 7 4) g))

/-! ### Kinds and formats by role (Tables 3.3, 7.6, 12.13) -/

def kindOk (c : Cmd) (p : Role) (k : Kind) : Bool :=
  let src := k == .spad || k == .acc || k == .till || k == .roll
  let dst := k == .spad || k == .till || k == .roll
  match p with
  | .x => if c.op = .assay then k == .spad
      else if c.op = .ares then (if c.rc.aph = 0 then k == .acc || k == .roll || k == .spad else k == .acc)
      else src
  | .y => src
  | .out =>
    if c.op = .ares then (if c.rc.aph = 1 then k == .acc else k == .spad || k == .roll)
    else if c.op = .merge ∨ c.op = .sealing ∨ c.op = .stmt ∨ c.op = .assay then k == .spad
    else dst
  | .row => k == .brow
  | .col => k == .bcol
  | .gam | .bet => k == .brow || k == .absent
  | .val | .idx => k == .spad || k == .roll
  | _ => k == .spad

def isFloat3 (f : Fmt) : Bool := f == .f32 || f == .f16 || f == .y16
def isFloat6 (f : Fmt) : Bool := isFloat3 f || f.isBlock

/-- The formats a role accepts, beside the kind's (R327). -/
def formatOk (c : Cmd) (p : Role) (d : Desc) : Bool :=
  let f := d.f
  match p with
  | .x => if c.op = .ares then f == .f32 else true
  | .y => true
  | .row | .col => isFloat3 f
  | .mask | .res | .rs | .rso | .in0 | .in1 | .img | .data => f == .u8
  | .val => isFloat3 f
  | .idx | .tgt | .freq | .pos => f == .s32
  | .gam | .bet => d.kind == .absent || isFloat3 f
  | .sin | .sout | .hp => f == .f32
  | .g => f == .f32 || f == .y16
  | .wcpy => f == .y16
  | .out =>
    match c.op with
    | .smxn | .norm => isFloat6 f
    | .xent => isFloat3 f
    | .ares => if c.rc.aph = 0 then isFloat3 f || f == .y8a || f == .y8b else if c.rc.aph = 1 then f == .f32 else isFloat6 f
    | .merge | .sealing | .stmt | .assay => f == .u8
    | _ => true

/-! ### Shapes (R71, R149, R153, R327 and the chapters of each command) -/

/-- R241: IB and IP of a command under its index scheme; `l` is C of OUT. -/
def indexBase (r : Regs) (ixs l : Nat) : Nat × Nat :=
  let b := (vecGet r.len 0 0).toNat + 2 ^ 32 * (vecGet r.len 1 0).toNat
  match ixs with
  | 0 => (0, l)
  | 1 => (b, l)
  | _ => (b, (vecGet r.len 2 0).toNat)

/-- C of OUT for the index scheme (R241). -/
def Cmd.outLen (c : Cmd) (r : Regs) : Nat :=
  if c.has .out ∧ c.op ≠ .assay then (c.get .out).len r else c.main.len r

/-- B of R143. -/
def Cmd.ixBase (c : Cmd) (r : Regs) : Nat := if c.rc.ixb = 0 then 0 else (vecGet r.len (c.rc.ixb - 1) 0).toNat

/-- The set bits of a 16-bit mask. -/
def maskCount (n : Nat) : Nat := (upTo 16).foldl (fun a i => a + (n.testBit i).toNat) 0

/-- The ring position of the unit (R211). -/
def State.ringPos (s : State) (die : Bool) : Nat :=
  let p := s.fixed.straps.pos.toNat
  if die then 4 * s.fixed.straps.cluster.toNat + p else p

/-- The record length of a row-state operand (R149). -/
def recordShape (d : Desc) (l rows : Nat) (r : Regs) : Bool :=
  d.len r == l && d.rows == rows && d.addr % 64 == 0 && d.rstride % 64 == 0

/-- One operand's own shape rules. -/
def shapeOk (c : Cmd) (r : Regs) (strict : Bool) (p : Role) (d : Desc) : Bool :=
  let m := c.main
  let l := d.len r
  let cx := m.len r
  let same := d.rows == m.rows && l == cx
  match p with
  | .x => true
  | .y => same
  | .row => l == cx
  | .col => d.rows == m.rows
  | .mask => d.estride == 0 && d.rows == m.rows && l == (if c.expands then (c.get .out).len r else cx)
  | .gam | .bet => d.kind == .absent || l == cx
  | .res => l == 32 && d.rows == (if c.op = .settle then bitsOf c.chain 79 64 else m.rows)
  | .rs | .rso =>
    if c.op = .settle then recordShape d (c.q strict * slotBytes strict) (bitsOf c.chain 79 64) r
    else recordShape d (c.q strict * slotBytes strict) m.rows r
  | .val | .idx => d.rows == m.rows && l == c.rc.k + 1
  | .tgt => d.rows == m.rows && l == 1
  | .freq => d.rows == 1 && l == 2 * (c.rc.bt + c.rc.bh + c.rc.bw)
  | .pos => d.rows == m.rows && (l == 1 || l == 3)
  | .in0 | .in1 => recordShape d cx m.rows r && (cx == 128 || cx == 256 || cx == 384 || cx == 512 || cx == 640 || cx == 1024)
  | .sin | .sout => d.rows == (if c.rc.alg = 0 then 3 else 2) * m.rows && l == cx && d.estride == 0 && decide (4 * cx ≤ d.rstride)
  | .g | .wcpy => same && d.estride == 0 && decide (4 * cx ≤ d.rstride)
  | .hp => d.rows == 1 && l == 8
  | .img => d.rows == 1 && d.addr % 64 == 0
  | .data => d.rows == 1 && l == bitsOf c.chain 44 32
  | .out =>
    match c.op with
    | .merge => recordShape d cx m.rows r
    | .sealing => d.rows == 1 && l == 256
    | .stmt => d.rows == 1 && l == 4096
    | .assay => d.rows == 1 && l == (if bitsOf c.chain 18 16 = 2 then 16 else 8) * maskCount (bitsOf c.chain 15 0)
    | _ => d.rows == m.rows && (c.expands || l == cx)

/-- A transposed operand obeys R27 and R273. -/
def trnOk (p : Role) (d : Desc) : Bool :=
  !d.trn || ((p == .x || p == .y) && d.kind == .spad && !d.f.isBlock && d.f != .s4 && d.estride == 0
    && d.addr % (16 * d.size) == 0 && d.rstride % (16 * d.size) == 0)

/-- A Till operand ends with the Till (R88). -/
def tillOk (c : Cmd) (r : Regs) (p : Role) (d : Desc) : Bool :=
  d.kind != .till || decide (d.slot + (if p = .out then c.outGeo r else c.geo r).entries ≤ 64)

/-- The Till entries a command writes; the rows that `NORM` WHOLE stages count as Till output (R203). -/
def Cmd.tillOut (c : Cmd) (r : Regs) : List (Nat × Nat) :=
  let g := c.geo r
  ((c.roles.filter fun x => x.2.kind == .till && x.1 == .out).map fun x => (x.2.slot, (c.outGeo r).entries))
    ++ on (c.op == .norm && c.rc.nph == 0 && decide (g.bpr ≤ 64 - c.rc.tsl)) (c.rc.tsl, g.bpr)

/-- A Till source lies apart from the Till output (R89); one without entries meets none. -/
def tillApart (c : Cmd) (r : Regs) (p : Role) (d : Desc) : Bool :=
  d.kind != .till || p == .out || (c.geo r).entries == 0
    || (c.tillOut r).all fun o => o.2 == 0 || decide (d.slot + (c.geo r).entries ≤ o.1) || decide (o.1 + o.2 ≤ d.slot)

/-- At most one transposed operand (R273) and at most two Till operands (R72). -/
def countsOk (c : Cmd) : Bool :=
  decide ((c.roles.filter fun x => x.2.trn).length ≤ 1) && decide ((c.roles.filter fun x => x.2.kind == .till).length ≤ 2)

/-- At most one accumulator operand, but for `ARES` RESCALE, whose X and OUT name the same rows (R72). -/
def accOk (c : Cmd) : Bool :=
  let n := (c.roles.filter fun x => x.2.kind == .acc).length
  if c.op = .ares ∧ c.rc.aph = 1 then (c.get .x).cols == (c.get .out).cols && (c.get .x).rows == (c.get .out).rows
  else decide (n ≤ 1)

/-- The rules of single commands that need only the captured registers. -/
def commandOk (s : State) (c : Cmd) (strict : Bool) : Bool :=
  let r := s.regs
  let m := c.main
  let cx := m.len r
  let rc := c.rc
  let frame := !(rc.gmk == 1 && (rc.msrc == 2 || rc.msrc == 3)) || (r.gh != 0 && r.gw != 0)
  let ixs := !(c.elements && c.op != .merge && rc.ixs == 2) || decide (c.outLen r ≤ (vecGet r.len 2 0).toNat)
  let ixb := !(c.op.rows && c.op != .norm) || cx == 0 || decide (c.ixBase r + cx ≤ 0xFFFFFFFF)
  let slots := !c.op.rows || m.rows == 0 || decide (rc.rsb + m.rows * c.q strict ≤ tableSlots strict)
  frame && ixs && ixb && slots && match c.op with
  | .ares => rc.aph != 0 || decide (cx ≤ 256)
  | .rope =>
    cx % 2 == 0 && decide (2 ≤ cx) && decide (cx ≤ 256) && decide (2 * (rc.bt + rc.bh + rc.bw) ≤ cx)
      && (rc.psrc || (r.gh != 0 && r.gw != 0 && decide ((vecGet r.len rc.ibl 0).toNat + m.rows ≤ 2 ^ 32)))
  | .settle =>
    let n := c.chain
    let rows := bitsOf n 79 64
    let w := rows * c.q strict
    let src := bitsOf n 43 32
    let dst := bitsOf n 55 44
    let pm := bitsOf n 15 0
    let die := n.testBit 56
    decide (1 ≤ rows) && (die || decide (pm < 16)) && pm.testBit (s.ringPos die) && decide (2 ≤ maskCount pm)
      && decide (dst + w ≤ tableSlots strict)
      && (rc.ld || (decide (src + w ≤ tableSlots strict) && (decide (src + w ≤ dst) || decide (dst + w ≤ src))))
  | .sealing => decide (maskCount (bitsOf c.chain 15 0) ≤ 8)
  | .rollset => s.rollSetOk c
  | _ => true

/-- The take-up of row states from slots (R148, R185, R200): some true when every row's slot is as the command needs it, none
while that cannot be told. -/
def headOk (c : Cmd) (strict : Bool) (h : Head) : Bool :=
  let fam := h.top == c.top || (c.op == .smxn && h.top == topXent)
  h.strict == strict && match c.op with
  | .red | .scan | .sel => h.state == 1 && fam && (c.rc.top != topTOPK || h.k == c.rc.k)
  | .smxa => h.state == 1 && fam
  | .smxn => h.state == 2 && fam
  | .ares => fam && (match c.rc.aph with | 0 => h.state == 1 | 1 => h.state == 1 || h.state == 2 | _ => h.state == 2)
  | .xent => fam && (if c.rc.xph = 0 then h.state == 1 else h.state == 2)
  | .norm =>
    fam && (match c.rc.nph with
      | 0 => false
      | 1 => h.state == 1 && h.stage == 0
      | 2 => h.state == 2 && h.stage == 1
      | _ => h.state == 2 && h.stage == (if c.rc.nk = 0 then 2 else 1))
  | _ => true

def slotsVerdict (s : State) (c : Cmd) (strict : Bool) : Nat → Nat → Verdict
  | _, 0 => .ok
  | r, n + 1 =>
    match s.headLeft strict (c.rc.rsb + r * c.q strict) with
    | none => .hold
    | some h => if headOk c strict h then slotsVerdict s c strict (r + 1) n else .fault cILLCM (illcmDetail 5 0xFF r 0xFF)

/-- Whether the command takes up states that stand in its slots. -/
def Cmd.takesSlots (c : Cmd) : Bool := c.op.rows && !c.rc.opn && !c.rc.ld

/-! ### The nine checks (Table 12.3) -/

/-- The words of a slot: 1 + 4·(COUNT + CW) (R309). -/
def Slot.lengthOk (x : Slot) : Bool := x.words.length == 1 + 4 * (x.count + x.cw.toNat)

/-- The chain-word rule of Table 12.2. -/
def Op.chainRule (o : Op) (cw : Bool) : Bool :=
  match o with
  | .fn | .cvt => true
  | .stmt => !cw
  | _ => cw

/-- A tag of a command of the stream in flight, on any engine (R313). -/
def State.tagBusy (s : State) (t : W16) : Bool :=
  ((s.stream.inflight ++ s.stream.refused).any fun c => c.tag == t) || (s.escrow.engines.any fun e => e.tag == t)

def check1 (s : State) (x : Slot) : Bool :=
  x.lengthOk && decide (x.count ≤ 5) && x.op.isSome && bitsOf x.head.toNat 21 16 == 0
    && ((x.op.map fun o => o.chainRule x.cw).getD false) && x.tag != noTag && !s.tagBusy x.tag

def check2 (s : State) (x : Slot) : Bool := x.tenant == s.tn.active && (x.op != some .tenant || x.priv)

/-- Check 3: the epoch is the current or the previous one; the pending one waits for the switch (R312). -/
def check3 (s : State) (x : Slot) : Verdict :=
  if x.epoch == s.ep.curEpoch || x.epoch == s.ep.prevEpoch then .ok
  else if s.ep.armed && x.epoch == s.ep.pendEpoch then .hold
  else .fault cEPOLD (leBytes 2 x.epoch.toNat ++ leBytes 2 s.ep.curEpoch.toNat ++ leBytes 2 s.ep.prevEpoch.toNat)

def fmtFault (pos : Nat) (d : Desc) : Verdict := .fault cFMTIL [BitVec.ofNat 8 pos, BitVec.ofNat 8 d.fmt]

def check4 (c : Cmd) : Verdict :=
  match findIdx' (fun d => (Fmt.ofCode d.fmt).isNone) c.descs with
  | some i => fmtFault i (c.descs.getD i Desc.none)
  | none => .ok

/-- The descriptor rules of check 5 that stand alone: the first position that breaks one. -/
def check5Desc (c : Cmd) (r : Regs) (strict : Bool) : Option Nat :=
  findIdx' (fun x : Role × Desc => !(x.2.fieldsOk && kindOk c x.1 x.2.kind && x.2.alignOk && shapeOk c r strict x.1 x.2
    && trnOk x.1 x.2 && tillOk c r x.1 x.2 && tillApart c r x.1 x.2)) c.roles

def Cmd.outBlock (c : Cmd) : Bool := c.has .out && (c.get .out).f.isBlock

/-- Roll operands on disabled rolls or that do not fit (R299); a faulted roll is checked like another one, and faults at check 9. -/
def State.rollsFit (s : State) (c : Cmd) : Bool :=
  c.rollOps.all fun x =>
    rollFits (vecGet s.rolls x.2.1.slot .default) x.2.1 (x.2.1.len s.regs) x.2.2

def check5 (s : State) (c : Cmd) (ms : ModeSet) : Verdict :=
  let strict := ms.strict
  let roles := rolesOf c.op c.rc c.chain
  if c.descs.length ≠ roles.length ∨ 5 < roles.length then .illcm 5 0xFF
  else if !chainOk c c.outBlock then .illcm 5 0xFF
  else match check5Desc c s.regs strict with
  | some i => .illcm 5 i
  | none =>
    if !(countsOk c && accOk c && commandOk s c strict) then .illcm 5 0xFF
    else if !boxesApart (c.markedBoxes s.regs) then .illcm 5 0xFF
    else if c.rollOps.any fun x => s.rollPending x.2.1.slot then .hold
    else if !s.rollsFit c then .illcm 5 0xFF
    else if (c.rc.aen || (c.op == .assay && bitsOf c.chain 18 16 == 3)) && s.assayLeft c.rc.aacc != .opened then .illcm 5 0xFF
    else if c.takesSlots then slotsVerdict s c strict 0 c.main.rows
    else .ok

def check6 (c : Cmd) : Verdict :=
  match findIdx' (fun x : Role × Desc => !(x.2.kindAccepts && formatOk c x.1 x.2)) c.roles with
  | some i => fmtFault i (c.descs.getD i Desc.none)
  | none => .ok

def check7 (s : State) (c : Cmd) : Verdict :=
  match (c.intervals s.regs).find? fun x => decide (s.spadBytes ≤ x.2.2.2) with
  | some x => .fault cRANGE ([0, BitVec.ofNat 8 x.1, 0, 0] ++ leBytes 4 (max x.2.2.1 s.spadBytes))
  | none => .ok

/-- Whether a byte interval meets the region of an enabled roll other than `except`. -/
def State.meetsRoll (s : State) (except : Option Nat) (lo hi : Nat) : Bool :=
  (upTo 16).any fun i =>
    let r := vecGet s.rolls i .default
    r.enable && except != some i && decide (lo / 64 * 64 < r.region.2) && decide (r.region.1 < hi / 64 * 64 + 64)

def check8 (s : State) (c : Cmd) : Verdict :=
  let ex := if c.op = .rollset then some (bitsOf c.chain 7 4) else none
  match (c.intervals s.regs).find? fun x => s.meetsRoll ex x.2.2.1 x.2.2.2 with
  | some x => .illcm 8 x.1
  | none => .ok

def check9 (s : State) (c : Cmd) : Verdict :=
  let faulted := c.rollOps.find? fun x =>
    let st := (vecGet s.rolls x.2.1.slot .default).st
    st == .faultedU || st == .faultedO
  let rollV : Verdict := match faulted with
    | some x =>
      let r := vecGet s.rolls x.2.1.slot .default
      .fault (if r.st == .faultedU then cROLLU else cROLLO)
        ([BitVec.ofNat 8 x.2.1.slot, 0, 0, 0] ++ leBytes 4 (if x.2.2 then r.rhead else r.rtail).toNat)
    | none => .ok
  match c.curveSlot with
  | none => rollV
  | some k =>
    match curveAfter s k s.stream.inflight.reverse with
    | none => .hold
    | some true => rollV
    | some false => .fault cCURVX [BitVec.ofNat 8 k, 1]

def Verdict.andThen (a : Verdict) (b : Unit → Verdict) : Verdict := match a with | .ok => b () | v => v

/-- Checks 4 to 9 on a decoded command. -/
def checkCmd (s : State) (c : Cmd) (ms : ModeSet) : Verdict :=
  (check4 c).andThen fun _ => (check5 s c ms).andThen fun _ => (check6 c).andThen fun _ => (check7 s c).andThen fun _ =>
    (check8 s c).andThen fun _ => check9 s c

/-- All checks at issue, in order (R314). -/
def checkSlot (s : State) (x : Slot) : Verdict :=
  if !check1 s x then .illcm 1 0xFF
  else if !check2 s x then .illcm 2 0xFF
  else (check3 s x).andThen fun _ =>
    let ms := s.modesOf x.epoch
    match x.decode ms with
    | none => .illcm 1 0xFF
    | some c => checkCmd s c ms

end Sys2Proof.Machine
end

