-- ==== Sys2Proof/Machine/Tally.lean ====
section
/-! DEFINITION. The tally tree: sums, selections, top-k and scans of a segment, row values and the row-result record
(chapter 6). -/
namespace Sys2Proof.Machine
open Sys2Proof

/-- A value delivered to the tally (R82): its logical index, its `F32` pattern, and whether it stands for its exact
square. -/
structure Dv where
  idx : W32
  w   : W32
  sq  : Bool
  deriving DecidableEq, Repr

/-- The exact value delivered (R82). -/
def Dv.val (d : Dv) : Val := if d.sq then (vmul (f32Val d.w) (f32Val d.w)).1 else f32Val d.w

/-- COUNT and the status bits of Table 6.5 that a delivered value sets (R154, R160). -/
def RowSt.deliver (r : RowSt) (v : Val) : RowSt :=
  let nz := v == .zero true && (r.count == 0 || r.bit sZNEG)
  let r := ({ r with count := satAdd r.count 1 }).setIf sCSAT (r.count == noIndex)
  let r := ((r.setIf sNAN (v == .nan)).setIf sPINF (v == .inf false)).setIf sNINF (v == .inf true)
  if nz then r.setBit sZNEG else r.clrBit sZNEG

def RowSt.delivers (r : RowSt) : List Val → RowSt
  | [] => r
  | v :: vs => (r.deliver v).delivers vs

/-! ### Sums (R156 to R163) -/

/-- E of R157 over the nonzero addends. -/
def windowExp : List Rat → Option Int
  | [] => none
  | x :: xs =>
    if x.num = 0 then windowExp xs
    else match windowExp xs with
      | none => some (ilog2 x)
      | some e => some (max (ilog2 x) e)

/-- One addend's part of the window: its truncation toward −∞ and whether bits were dropped (R157). -/
def windowTerm (e : Int) (x : Rat) : Int × Bool :=
  let t := x * pow2 (70 - e)
  (rfloor t, (rfloor t : Rat) != t)

/-- W and s over a list of addends (R157). -/
def windowSum (e : Int) (xs : List Rat) : Int × Bool :=
  xs.foldl (fun a x => (a.1 + (windowTerm e x).1, a.2 || (windowTerm e x).2)) (0, false)

/-- RN64(A + W·2^(E−70) + s·2^(E−71)). -/
def windowAdd (a : Rat) (e : Int) (ws : Int × Bool) : Rat × Bool :=
  rn64 (a + (ws.1 : Rat) * pow2 (e - 70) + (if ws.2 then pow2 (e - 71) else 0))

/-- fast_segment of R157: the accumulator, TRUNC, and whether RN64 was inexact. -/
def fastSegment (a : Rat) (xs : List Rat) : Rat × Bool × Bool :=
  match windowExp xs with
  | none => (a, false, false)
  | some e =>
    let ws := windowSum e xs
    let r := windowAdd a e ws
    (r.1, ws.2, r.2)

/-- The finite addends of a list of values (R157, R160). -/
def addends (vs : List Val) : List Rat := vs.filterMap fun v => match v with | .fin q => some q | _ => none

/-- A segment's finite values added to an accumulator of the row: exactly in strict mode (R160, R161), by R157 in fast
mode. Overflow of an XACC is judged on the segment's total (DEDUCED, log 78). -/
def RowSt.accumulate (r : RowSt) (a : Rat) (xs : List Rat) : RowSt × Rat :=
  if r.strict then
    let s := xs.foldl (· + ·) a
    (r.setIf sXOVF (xaccOver s), s)
  else
    let f := fastSegment a xs
    ((r.setIf sTRUNC f.2.1).addFlags { nx := f.2.1 || f.2.2 }, f.1)

def RowSt.sumInto (r : RowSt) (vs : List Val) : RowSt :=
  let x := r.accumulate r.prim (addends vs)
  { x.1 with prim := x.2 }

def RowSt.sumSec (r : RowSt) (vs : List Val) : RowSt :=
  let x := r.accumulate r.sec (addends vs)
  { x.1 with sec := x.2 }

/-- Table 6.7 with the given markers. -/
def sumRule (nan pinf ninf xovf zneg : Bool) (x : Rat) : Val × Flags :=
  if nan then (.nan, {})
  else if pinf && ninf then (.nan, { iv := true })
  else if pinf then (.inf false, {})
  else if ninf then (.inf true, {})
  else if xovf then (.nan, { iv := true })
  else if x.num = 0 then (.zero zneg, {})
  else (.fin x, {})

/-- Table 6.7 on an accumulator of the row. -/
def RowSt.sumValue (r : RowSt) (x : Rat) : Val × Flags :=
  sumRule (r.bit sNAN) (r.bit sPINF) (r.bit sNINF) (r.bit sXOVF) (r.bit sZNEG) x

/-- R163: the mean of a sum over n delivered values. A finite sum that would itself round to an infinity is divided like any
other (DEDUCED, log 78). -/
def meanOf (s : Val × Flags) (n : W32) : Val × Flags :=
  if n = 0 then (.nan, { iv := true })
  else match s.1 with
    | .fin q => (.fin (q / (n.toNat : Rat)), s.2)
    | _ => s

/-! ### Selections (R164 to R169) -/

/-- Whether a pattern compares equal to zero (R36). -/
def isZero32 (w : W32) : Bool := w.setWidth 31 == 0

/-- One delivered value of a selection or count. A `TOPK` state is continued in its own selection direction, whatever SDIR of
the command says: the conditions of R148 do not name it (DEDUCED, log 53). -/
def RowSt.select (r : RowSt) (d : Dv) : RowSt :=
  let c : W32 × W32 := (d.w, d.idx)
  let p : W32 × W32 :=
    if r.top = topMAX then (max32 r.p1.1 d.w, r.p1.2)
    else if r.top = topMIN then (min32 r.p1.1 d.w, r.p1.2)
    else if r.top = topAMAX then (amax32 r.p1.1 d.w, r.p1.2)
    else if r.top = topARGMAX then keepCand false r.p1 c
    else if r.top = topARGMIN then keepCand true r.p1 c
    else if r.top = topCOUNTNZ ∧ !isZero32 d.w then (0, satAdd r.p1.2 1)
    else r.p1
  let sat := r.top == topCOUNTNZ && r.p1.2 == noIndex && !isZero32 d.w
  let r := { r with p1 := p }.setIf sCSAT sat
  if r.top = topTOPK then
    let cs := (insertCand r.sdir c r.cands).take (r.k + 1)
    { r with cands := cs, ncand := cs.length }
  else r

def RowSt.selects (r : RowSt) : List Dv → RowSt
  | [] => r
  | d :: ds => (r.select d).selects ds

/-- A segment of a `RED` or `SEL` (R142). -/
def RowSt.tallySegment (r : RowSt) (ds : List Dv) : RowSt :=
  let vs := ds.map Dv.val
  let r := r.delivers vs
  if r.top = topSUM ∨ r.top = topMEAN then r.sumInto vs else r.selects ds

/-- The k candidates with R168's padding. -/
def RowSt.topk (r : RowSt) : List (W32 × W32) :=
  let pad : W32 × W32 := (if r.sdir then posInf32 else negInf32, noIndex)
  r.cands ++ List.replicate (r.k + 1 - r.cands.length) pad

/-! ### Scans (R170 to R174) -/

/-- The segment markers of R172 in the index word of the first pair. -/
def mNAN : Nat := 0
def mPINF : Nat := 1
def mNINF : Nat := 2
def mZNEG : Nat := 3
def mXOVF : Nat := 4
def mPEND : Nat := 5

def RowSt.mark (r : RowSt) (i : Nat) : Bool := r.p1.2.getLsbD i
def RowSt.setMark (r : RowSt) (i : Nat) (b : Bool) : RowSt :=
  { r with p1 := (r.p1.1, if b then r.p1.2 ||| (1 <<< i) else r.p1.2 &&& ~~~((1 : W32) <<< i)) }

/-- The prefix and markers restart (R171, R172). -/
def RowSt.restart (r : RowSt) : RowSt :=
  { r with prim := 0, p1 := ((openPair r.top).1, 0) }

/-- One element of a scanned segment: whether a start falls on it, and the value it delivers, if it does. -/
structure ScanIn where
  start : Bool
  dv    : Option Dv
  deriving DecidableEq, Repr

/-- The markers after a delivered value; `first`: no value stands before it in the scan segment. -/
def RowSt.markValue (r : RowSt) (first : Bool) (v : Val) : RowSt :=
  let z := v == .zero true && (first || r.mark mZNEG)
  (((r.setMark mNAN (r.mark mNAN || v == .nan)).setMark mPINF (r.mark mPINF || v == .inf false)).setMark mNINF
    (r.mark mNINF || v == .inf true)).setMark mZNEG z

/-- The prefix as it stands, exact (R172). -/
def RowSt.prefixValue (r : RowSt) (x : Rat) : Val × Flags :=
  if r.top = topPSUM then sumRule (r.mark mNAN) (r.mark mPINF) (r.mark mNINF) (r.mark mXOVF) (r.mark mZNEG) x
  else (f32Val r.p1.1, {})

/-- One scan segment's part of a beat: `base` is A before it, `e` the window exponent of its addends, `ws` the window so
far (fast mode). Gives each delivered element's output. -/
def scanChunk (excl : Bool) (base : Rat) (e : Option Int) :
    RowSt → Bool → Int × Bool → List Dv → RowSt × (Int × Bool) × List (Val × Flags)
  | r, _, ws, [] => (r, ws, [])
  | r, first, ws, d :: ds =>
    let v := d.val
    let now (r : RowSt) (ws : Int × Bool) : Val × Flags :=
      r.prefixValue (if r.strict then r.prim else match e with | none => base | some e => (windowAdd base e ws).1)
    let before := now r ws
    let first := first || r.count == 0
    let r := (r.deliver v).markValue first v
    let q := v.toRat
    let r := if r.top = topPSUM ∧ r.strict then
        let s := r.prim + q
        ({ r with prim := s }.setIf sXOVF (xaccOver s)).setMark mXOVF (r.mark mXOVF || xaccOver s)
      else if r.top = topPMAX then { r with p1 := (max32 r.p1.1 d.w, r.p1.2) }
      else if r.top = topPMIN then { r with p1 := (min32 r.p1.1 d.w, r.p1.2) }
      else r
    let ws := match e with
      | none => ws
      | some e => let t := windowTerm e q; (ws.1 + t.1, ws.2 || t.2)
    let out := if excl then (if first then (if r.top = topPSUM then (.zero false, {}) else (f32Val (openPair r.top).1, {}))
      else before) else now r ws
    let t := scanChunk excl base e r false ws ds
    (t.1, t.2.1, out :: t.2.2)

/-- A scan segment's part of a beat, with the accumulator brought up to date. In fast mode NX follows the final RN64 alone, not
those of the outputs before it (DEDUCED, log 78). -/
def RowSt.scanPart (r : RowSt) (excl restart : Bool) (ds : List Dv) : RowSt × List (Val × Flags) :=
  let r := if restart then r.restart else r
  let fastSum := r.top == topPSUM && !r.strict
  let e := if fastSum then windowExp (addends (ds.map Dv.val)) else none
  let x := scanChunk excl r.prim e r restart (0, false) ds
  match e with
  | none => (x.1, x.2.2)
  | some e =>
    let a := windowAdd r.prim e x.2.1
    (({ x.1 with prim := a.1 }.setIf sTRUNC x.2.1.2).addFlags { nx := x.2.1.2 || a.2 }, x.2.2)

/-- The delivered values of a beat's segment split at the scan-segment starts; the first part continues the prefix. The
last component says whether a start is pending at the end (R171). -/
def scanSplit : Bool → List ScanIn → List (Bool × List Dv) × Bool
  | pend, [] => ([], pend)
  | pend, x :: xs =>
    let pend := pend || x.start
    match x.dv with
    | none => scanSplit pend xs
    | some d =>
      let t := scanSplit false xs
      match t.1 with
      | (false, ds) :: r => ((pend, d :: ds) :: r, t.2)
      | r => ((pend, [d]) :: r, t.2)

def RowSt.scanParts (r : RowSt) (excl : Bool) : List (Bool × List Dv) → RowSt × List (Val × Flags)
  | [] => (r, [])
  | p :: ps =>
    let x := r.scanPart excl p.1 p.2
    let y := x.1.scanParts excl ps
    (y.1, x.2 ++ y.2)

/-- A segment of a `SCAN` (R170 to R173): the state after it and the outputs of the delivered elements in order. -/
def RowSt.scanSegment (r : RowSt) (excl : Bool) (xs : List ScanIn) : RowSt × List (Val × Flags) :=
  let s := scanSplit (r.mark mPEND) xs
  let x := (r.setMark mPEND false).scanParts excl s.1
  (x.1.setMark mPEND s.2, x.2)

/-! ### Row values (R155, Tables 6.7 and 6.8) -/

/-- Rounding of a row value into `F32` (R155): `SR` acts as RNE. -/
def rowRnd (rm : Rnd) : Rnd := if rm == .sr then .rne else rm

def rowRound (rm : Rnd) (nonsat : Bool) (v : Val × Flags) : W32 × Flags :=
  let c := convFloat .f32 nonsat (rowRnd rm) 0 v.1
  (BitVec.ofNat 32 c.code, v.2.or c.fl)

/-- VALUE (before rounding), INDEX and the flags of an operation of chapter 6 on a row (Tables 6.1, 6.7 and 6.8). -/
def RowSt.rowValue (r : RowSt) : (Val × Flags) × W32 :=
  let n (w : W32) : Val × Flags := (.ofRat (w.toNat : Rat), {})
  if r.top = topSUM then (r.sumValue r.prim, noIndex)
  else if r.top = topMEAN then (meanOf (r.sumValue r.prim) r.count, noIndex)
  else if r.top = topAMAX then
    (if r.bit sNAN then (.nan, {}) else if r.bit sPINF || r.bit sNINF then (.inf false, {}) else (f32Val r.p1.1, {}), noIndex)
  else if r.top = topARGMAX ∨ r.top = topARGMIN then ((f32Val r.p1.1, {}), r.p1.2)
  else if r.top = topCOUNT then (n r.count, noIndex)
  else if r.top = topCOUNTNZ then (n r.p1.2, noIndex)
  else if r.top = topTOPK then
    let c := (r.topk.getLast?).getD (0, noIndex)
    ((f32Val c.1, {}), c.2)
  else if r.top = topPSUM then (r.prefixValue r.prim, noIndex)
  else ((f32Val r.p1.1, {}), noIndex)

/-- A row closed by `RED`, `SCAN` or `SEL`, or settled by `SETTLE` or `MERGE`: the state and its 32-byte record
(Table 6.4). -/
def RowSt.closeTally (r : RowSt) (rm : Rnd) (nonsat : Bool) : RowSt × List Byte :=
  let v := r.rowValue
  let c := rowRound rm nonsat v.1
  let r := ({ r with state := 2 }.setEmpty).addFlags c.2
  (r, leBytes 4 c.1.toNat ++ leBytes 4 v.2.toNat ++ leBytes 4 r.count.toNat ++ leBytes 4 r.status.toNat
    ++ leBytes 4 r.vanish.toNat ++ leBytes 4 r.satcnt.toNat ++ List.replicate 8 0)

end Sys2Proof.Machine
end

