-- ==== Sys2Proof/Machine/Softmax.lean ====
section
/-! DEFINITION. Octave-pivot softmax, attention rescale, normalisation and cross-entropy: what each does to a row state, what
it writes for an element, and its row-result records (chapter 7). -/
namespace Sys2Proof.Machine
open Sys2Proof

/-! ### The fixed-point exponent and the term (R179 to R181) -/

/-- t of a finite value in units of 2^-64, and whether it saturated (R179). -/
def tfix (q : Rat) : Int × Bool :=
  let lim : Int := 2 ^ 94
  let t := rfloor (q * pow2 64 / fxRat ln2Fx)
  if t < -lim then (-lim, true) else if lim < t then (lim, true) else (t, false)

/-- pivot(t) of R180. -/
def pivotOf (t : Int) : W32 := BitVec.ofInt 32 (8 * (t / 2 ^ 67 + 1))

/-- The 24-bit significand of 2^frac, frac in units of 2^-64 (R181). -/
def m24Of (frac : Nat) : Nat :=
  if frac = 0 then 2 ^ 23
  else rfloor ((expFx (fxMul (fxOf ((frac : Rat) * pow2 (-64))) ln2Fx) : Rat) * pow2 (23 - 720) + mkRat 1 2) |>.toNat

/-- The term of a finite value under a pivot: (m24, e), none when it is zero (R181). -/
def termOf (t : Int) (m : W32) : Option (Nat × Int) :=
  let e := t / 2 ^ 64 - m.toInt
  if e < -256 then none else some (m24Of (t % 2 ^ 64).toNat, e)

def termQ (x : Nat × Int) : Rat := (x.1 : Rat) * pow2 (x.2 - 23)

/-- Whether the rounding test of R181, on an m known within 2^-43, leaves the significand of 2^frac open. -/
def m24Open (frac : Nat) : Bool :=
  frac != 0 &&
    let m := (expFx (fxMul (fxOf ((frac : Rat) * pow2 (-64))) ln2Fx) : Rat) * pow2 (23 - 720)
    decide (rfloor (m - pow2 (-20) + mkRat 1 2) ≠ rfloor (m + pow2 (-20) + mkRat 1 2))

/-- Whether the precise pipe recomputes the term of a value under a pivot (R181): the test may leave it open, which of those it leaves
is a free value (log 88). -/
def termRedone (m w : W32) : Bool :=
  let go (t : Int) : Bool := (termOf t m).isSome && m24Open (t % 2 ^ 64).toNat && Config.termOpen w
  match f32Val w with
  | .fin q => go (tfix q).1
  | .zero _ => go 0
  | _ => false

/-- The terms of a segment that the precise pipe recomputes. -/
def termsRedone (m : W32) (ws : List W32) : Nat := (ws.filter (termRedone m)).length

/-! ### smx_segment (R189) -/

/-- COUNT, maximum, INFCNT and status of a delivered value (R186, R189). -/
def RowSt.softNote (r : RowSt) (w : W32) : RowSt :=
  let v := f32Val w
  let r := ((r.setIf sNAN (v == .nan)).setIf sPINF (v == .inf false)).setIf sNINF (v == .inf true)
  let r := if v == .inf true then r
    else ({ r with count := satAdd r.count 1 }).setIf sCSAT (r.count == noIndex)
  { r with p2 := (max32 r.p2.1 w, if v == .inf false then satAdd r.p2.2 1 else r.p2.2) }

def RowSt.softNotes (r : RowSt) : List W32 → RowSt
  | [] => r
  | w :: ws => (r.softNote w).softNotes ws

/-- Terms added to the bands one by one (R182). -/
def bandAdds (b : List Nat) : List (Nat × Int) → List Nat × Bool
  | [] => (b, false)
  | x :: xs =>
    let a := bandAdd b x.1 x.2
    let r := bandAdds a.1 xs
    (r.1, a.2 || r.2)

/-- The finite values' exponents of a segment. -/
def tfixAll (ws : List W32) : List (Int × Bool) :=
  ws.filterMap fun w => match f32Val w with
    | .fin q => some (tfix q)
    | .zero _ => some (0, false)
    | _ => none

def maxInt : List Int → Int
  | [] => 0
  | [x] => x
  | x :: xs => max x (maxInt xs)

/-- smx_segment of R189 on the delivered values of a segment. -/
def RowSt.smxSegment (r : RowSt) (ws : List W32) : RowSt :=
  let r := r.softNotes ws
  let ts := tfixAll ws
  let r := r.setIf sTSAT (ts.any fun t => t.2)
  if ts.isEmpty then r
  else
    let mn := pivotOf (maxInt (ts.map fun t => t.1))
    let r := if r.pivot = pivNone ∨ r.pivot.toInt < mn.toInt then r.raiseTo mn else r
    let terms := ts.filterMap fun t => termOf t.1 r.pivot
    if r.strict then
      let b := bandAdds r.bands terms
      ({ r with bands := b.1 }).setIf sBOVF b.2
    else
      let f := fastSegment r.prim (terms.map termQ)
      (({ r with prim := f.1 }).setIf sTRUNC f.2.1).addFlags { nx := f.2.1 || f.2.2 }

/-- What `XENT` STATS adds to smx_segment (R206). -/
def RowSt.xentSegment (r : RowSt) (ds : List Dv) : RowSt :=
  let r := r.smxSegment (ds.map fun d => d.w)
  let r := r.sumSec (ds.map fun d => f32Val d.w)
  match ds.find? fun d => d.idx == r.p1.2 && r.p1.2 != noIndex with
  | some d => ({ r with p1 := (d.w, r.p1.2) }).setBit sTGTC
  | none => r

/-- The target index stored on OPEN (R206). -/
def RowSt.setTarget (r : RowSt) (t : W32) : RowSt :=
  ({ r with p1 := (negZero, t) }).setIf sIGN (t == noIndex)

/-! ### Outcomes (Table 7.3) -/

inductive Outcome7
  /-- NaN outputs; `iv`: each raises IV -/
  | nan (iv : Bool)
  /-- the infinite regime with K infinities -/
  | inf (k : W32)
  | empty
  | normal
  deriving DecidableEq, Repr

def RowSt.outcome (r : RowSt) (inflim : Bool) : Outcome7 :=
  if r.bit sNAN || r.bit sBOVF then .nan (r.bit sBOVF)
  else if r.p2.2 != 0 then (if inflim then .inf r.p2.2 else .nan true)
  else if r.count = 0 then .empty
  else .normal

/-- ln 2 · (M + log2 S) (R189). -/
def lseOf (m : W32) (s : Rat) : Val :=
  if s.num ≤ 0 then .inf true
  else if -1000 ≤ m.toInt ∧ m.toInt ≤ 1000 then
    let x := s * pow2 m.toInt
    if x = 1 then .zero false else .fin (lnQ x)
  else .ofRat ((m.toInt : Rat) * fxRat ln2Fx + (if s = 1 then 0 else lnQ s))

/-- S or A, and the log-sum-exp, before rounding (Table 7.3). -/
def RowSt.softValues (r : RowSt) (inflim : Bool) : (Val × Flags) × Val :=
  match r.outcome inflim with
  | .nan iv => ((.nan, { iv := iv }), .nan)
  | .inf _ => ((.inf false, {}), .inf false)
  | .empty => ((.zero false, {}), .inf true)
  | .normal => ((.ofRat r.softSum, {}), lseOf r.pivot r.softSum)

/-- The row-result record of Table 7.4; `counts` are VANISH and SATCNT of the closing command's outputs of the row. -/
def softRecord (r : RowSt) (value sum : W32) (counts : W32 × W32) : List Byte :=
  leBytes 4 value.toNat ++ leBytes 4 r.pivot.toNat ++ leBytes 4 r.count.toNat ++ leBytes 4 r.status.toNat
    ++ leBytes 4 counts.1.toNat ++ leBytes 4 counts.2.toNat ++ leBytes 4 sum.toNat ++ List.replicate 4 0

/-- A softmax row closed (R188 to R190). -/
def RowSt.closeSoftmax (r : RowSt) (rm : Rnd) (nonsat inflim : Bool) (counts : W32 × W32) : RowSt × List Byte :=
  let v := r.softValues inflim
  let s := rowRound rm nonsat v.1
  let l := rowRound rm nonsat (v.2, {})
  let r := (({ r with state := 2 }).setEmpty).addFlags (s.2.or l.2)
  (r, softRecord r l.1 s.1 counts)

/-- How a loss is rounded: by the command's code (R155), to nearest even (Table 7.9), or faithfully (fast mode, R207). -/
inductive LossRound
  | command | nearest | faithful
  deriving DecidableEq, Repr

/-- The loss of a cross-entropy row before rounding, whether it sets TGTX, and how it is rounded (R207, Table 7.9). -/
def RowSt.loss (r : RowSt) (inflim : Bool) (lam : W32) : (Val × Flags) × Bool × LossRound :=
  let normal : LossRound := if r.strict then .command else .faithful
  let l := (f32Val lam).toRat
  let xt := f32Val r.p1.1
  if r.bit sIGN then ((.zero false, {}), false, .command)
  else match r.outcome inflim with
    | .nan iv => ((.nan, { iv := iv }), false, .command)
    | o =>
      if !r.bit sTGTC then ((.nan, { iv := true }), true, .command)
      else match o with
        | .empty => ((.nan, { iv := true }), false, .command)
        | .inf k =>
          (if l = 0 ∧ xt = .inf false then (if k = 1 then (.zero false, {}) else (.fin (lnQ (k.toNat : Rat)), {}))
           else (.inf false, {}), false, .nearest)
        | _ =>
          let a := vadd false (lseOf r.pivot r.softSum) (vmul (.ofRat (1 - l)) xt).1.neg
          let iv := (vmul (.ofRat (1 - l)) xt).2
          if l = 0 then ((a.1, a.2), false, normal)
          else if r.bit sXOVF then ((.nan, { iv := true }), false, .command)
          else
            let b := vadd false a.1 (.ofRat (-(l * r.sec) / (r.count.toNat : Rat)))
            ((b.1, (a.2.or b.2).or iv), false, normal)

/-- Precise-pipe computations of a loss: the logarithm of a normal row, or of K infinities; the other rows of Table 7.9 need none. -/
def RowSt.lossPrecise (r : RowSt) (inflim : Bool) (lam : W32) : Nat :=
  let l := (f32Val lam).toRat
  if r.bit sIGN || !r.bit sTGTC then 0
  else match r.outcome inflim with
    | .normal => if l ≠ 0 ∧ r.bit sXOVF then 0 else 1
    | .inf k => if l = 0 ∧ f32Val r.p1.1 = .inf false ∧ k ≠ 1 then 1 else 0
    | _ => 0

/-- The faithful loss takes the free value of log 6. -/
def RowSt.lossHigh (r : RowSt) (lam : W32) : Bool := Config.lossHigh r.pivot r.softSum r.sec r.p1.1 r.count lam

/-- A cross-entropy row closed. `settled`: closed by a `SETTLE` or `MERGE`, which sets TGTX exactly when TGTC is clear
(R219); `XENT` itself sets it as Table 7.9 says (DEDUCED, log 52). -/
def RowSt.closeXent (r : RowSt) (rm : Rnd) (nonsat inflim : Bool) (lam : W32) (settled : Bool) : RowSt × List Byte :=
  let v := r.softValues inflim
  let s := rowRound rm nonsat v.1
  let l := r.loss inflim lam
  let rd : Rnd := match l.2.2 with
    | .command => rm
    | .nearest => .rne
    | .faithful => if r.lossHigh lam then .rup else .rdn
  let c := rowRound rd nonsat l.1
  let tgtx := if settled then !r.bit sTGTC else l.2.1
  let r := ((({ r with state := 2 }).setEmpty).putBit sTGTX tgtx).addFlags (s.2.or c.2)
  (r, softRecord r c.1 s.1 (0, 0))

/-! ### Element outputs -/

/-- What an element gives: its exact value, the flags raised, PIVX, and the divisor S of a strict quotient with the error of the tested
value (R192). -/
structure EOut where
  val  : Val
  fl   : Flags
  pivx : Bool
  div  : Option (Rat × Rat)
  deriving DecidableEq, Repr

def EOut.of (v : Val) : EOut := { val := v, fl := {}, pivx := false, div := none }
def EOut.invalid : EOut := { val := .nan, fl := { iv := true }, pivx := false, div := none }
def EOut.nanIf (iv : Bool) : EOut := { val := .nan, fl := { iv := iv }, pivx := false, div := none }

/-- The divisor of a row's strict quotients, and the error of the quotient `q` under 1/S held to 64 bits, which S6 tests (R192). -/
def RowSt.divisor (r : RowSt) (q : Val) : Option (Rat × Rat) :=
  if r.strict ∧ r.softSum.num ≠ 0 then some (r.softSum, pow2 (-62) * rabs q.toRat) else none

/-- 1/x of a positive sum; +∞ for a zero sum. -/
def recip (x : Rat) : Val := if x.num = 0 then .inf false else .fin (1 / x)

/-- Q = RN_F32(1/A) (R192). -/
def qOf (a : Rat) : W32 := (rnF32 (recip a)).1

/-- t of a finite or zero value. -/
def tOf (w : W32) : Int := (tfix (f32Val w).toRat).1

/-- p of `SMXN` (R188, R192). -/
def RowSt.smxn (r : RowSt) (inflim : Bool) (w : W32) : EOut :=
  let v := f32Val w
  match r.outcome inflim with
  | .nan iv => .nanIf iv
  | .inf k => .of (if v = .inf false then .fin (1 / (k.toNat : Rat)) else .zero false)
  | .empty => .of (.zero false)
  | .normal =>
    match v with
    | .nan => .of .nan
    | .inf true => .of (.zero false)
    | .inf false => { EOut.invalid with pivx := true }
    | _ =>
      match termOf (tOf w) r.pivot with
      | none => .of (.zero false)
      | some x =>
        let p := if r.strict then vmul (.fin (termQ x)) (recip r.softSum)
          else if termQ x = r.prim then (.fin 1, {})
          else vmul (.fin (termQ x)) (f32Val (qOf r.prim))
        { val := p.1, fl := p.2, pivx := decide (0 ≤ x.2), div := r.divisor p.1 }

/-- P of `ARES` SCORE (R195). -/
def RowSt.score (r : RowSt) (inflim : Bool) (w : W32) : EOut :=
  match f32Val w with
  | .nan => .of .nan
  | .inf true => .of (.zero false)
  | .inf false => if inflim then .of (.fin 1) else .invalid
  | _ =>
    if inflim && r.p2.2 != 0 then .of (.zero false)
    else match termOf (tOf w) r.pivot with
      | none => .of (.zero false)
      | some x => .of (.fin (termQ x))

/-- F of R196 and the new MA. -/
def RowSt.rescaleFactor (r : RowSt) (inflim : Bool) : Rat × W32 :=
  if r.pivot = pivNone then (1, r.ma)
  else if inflim && r.p2.2 != 0 && r.ma != maInf then (0, maInf)
  else if r.ma = maInf then (1, r.ma)
  else if r.ma = pivNone then (1, r.pivot)
  else
    let d := r.ma.toInt - r.pivot.toInt
    -- beyond every `F32` exponent range the power acts as its clamp does (R196, R197)
    (pow2 (max (-1000) (min 1000 d)), r.pivot)

/-- One value of O rescaled: its conversion with all flags, and RSUF (R52, R196, R197). -/
def rescaleValue (nonsat : Bool) (f : Rat) (a : W32) : Conv × Bool :=
  let p := vmul (f32Val a) (.ofRat f)
  let c := convFloat .f32 nonsat .rne 0 p.1
  ({ c with fl := p.2.or c.fl }, c.fl.uf)

/-- y of `ARES` FINAL (R198). A normal row whose MA is the infinite regime takes MA as M (DEDUCED, log 52). -/
def RowSt.final (r : RowSt) (inflim : Bool) (a : W32) : EOut :=
  match r.outcome inflim with
  | .nan iv => .nanIf iv
  | .empty => .of (.zero false)
  | .inf k =>
    if r.ma = maInf then
      let p := vmul (f32Val a) (.fin (1 / (k.toNat : Rat)))
      { val := p.1, fl := p.2, pivx := false, div := none }
    else .invalid
  | .normal =>
    let ma := if r.ma = pivNone ∨ r.ma = maInf then r.pivot else r.ma
    let d := max (-4000) (min 4000 (ma.toInt - r.pivot.toInt))
    let s := if r.strict then recip r.softSum else f32Val (qOf r.prim)
    let p := vmul (vmul (f32Val a) (.fin (pow2 d))).1 s
    { val := p.1, fl := p.2, pivx := false, div := r.divisor p.1 }

/-- The gradient of `XENT` GRAD (R208, Table 7.9) for an element of logical index `k`. -/
def RowSt.grad (r : RowSt) (inflim rdn : Bool) (lam g : W32) (k w : W32) : EOut :=
  let v := f32Val w
  let l := (f32Val lam).toRat
  let gv := f32Val g
  let gf : Flags := { iv := f32SNaN g }
  let h : Rat := (if k = r.p1.2 then 1 - l else 0) + (if l = 0 then 0 else l / (r.count.toNat : Rat))
  let exactly (p : Val) (px : Bool) : EOut :=
    let d := vadd rdn p (Val.ofRat h).neg
    let q := vmul gv d.1
    { val := q.1, fl := (d.2.or q.2).or gf, pivx := px, div := none }
  if r.bit sIGN then .of (.zero false)
  else match r.outcome inflim with
    | .nan iv => .nanIf iv
    | o =>
      if !r.bit sTGTC then .invalid
      else match o with
        | .empty => .of (.zero false)
        | .inf n =>
          if v = .inf true then .of (.zero false)
          else exactly (if v = .inf false then .fin (1 / (n.toNat : Rat)) else .zero false) false
        | _ =>
          match v with
          | .nan => .of .nan
          | .inf true => .of (.zero false)
          | .inf false => { EOut.invalid with pivx := true }
          | _ =>
            let t := termOf (tOf w) r.pivot
            let px := match t with | some x => decide (0 ≤ x.2) | none => false
            let tv : Val := match t with | some x => .fin (termQ x) | none => .zero false
            if r.strict then
              let p := (vmul tv (recip r.softSum)).1
              { exactly p px with div := r.divisor (vmul gv p).1 }
            else
              let p := rnF32 (vmul tv (f32Val (qOf r.prim))).1
              let hh := rnF32 (.ofRat h)
              let s := sumRdn rdn gv (f32Val p.1) (f32Val hh.1)
              { val := s.1, fl := ((s.2.or p.2).or hh.2).or gf, pivx := px, div := none }
where
  /-- G·p − G·h, exactly. -/
  sumRdn (rdn : Bool) (g p h : Val) : Val × Flags :=
    let a := vmul g p
    let b := vmul g h
    let s := vadd rdn a.1 b.1.neg
    (s.1, (a.2.or b.2).or s.2)

/-! ### NORM (R200 to R205) -/

/-- The record of Table 7.8. -/
def normRecord (r : RowSt) (counts : W32 × W32) : List Byte :=
  leBytes 4 r.p1.1.toNat ++ leBytes 4 r.p1.2.toNat ++ leBytes 4 r.count.toNat ++ leBytes 4 r.status.toNat
    ++ leBytes 4 counts.1.toNat ++ leBytes 4 counts.2.toNat ++ leBytes 4 r.p2.1.toNat ++ List.replicate 4 0

/-- v = RN_F32(var + ε). -/
def normV (var eps : W32) : W32 × Flags :=
  let e := quiet eps
  let s := vadd false (f32Val var) (f32Val e.1)
  let v := rnF32 s.1
  (v.1, (e.2.or s.2).or v.2)

/-- r = RSQ(v) and R205's rule: r, its flags, and whether the rule applied. -/
def normRsq (strict : Bool) (var eps : W32) : W32 × Flags × Bool :=
  let v := normV var eps
  let f0 := v.2
  if var = posZero ∧ v.1 = posZero then (posInf32, f0, true)
  else
    let f := fnValue 0x08 (f32Val v.1)
    let z := if strict then (rnF32 f.v).1 else fastZ 0x08 v.1 f
    (z, (f0.or f.fl).or (zFlags f z), false)

/-- The mean of a sum, rounded to `F32` (R201, R204). -/
def RowSt.normMean (r : RowSt) (x : Rat) : W32 × Flags :=
  let m := meanOf (r.sumValue x) r.count
  let o := rnF32 m.1
  (o.1, m.2.or o.2)

/-- The first phase closes: μ of layer norm, or ms and r of RMS norm, stage 1. -/
def RowSt.closeNorm1 (r : RowSt) (eps : W32) : RowSt :=
  let r := ({ r with state := 2, stage := 1 }).setEmpty
  let m := r.normMean r.prim
  if r.top = topLayer then ({ r with p1 := (m.1, noIndex), p2 := (noIndex, 0) }).addFlags m.2
  else if r.count = 0 then ({ r with p1 := (posZero, nan32), p2 := (nan32, 0) }).addFlags m.2
  else
    let q := normRsq r.strict m.1 eps
    (({ r with p1 := (posZero, m.1), p2 := (q.1, 0) }).addFlags (m.2.or q.2.1)).setIf sZVAR q.2.2

/-- The second phase of layer norm closes: var and r, stage 2. -/
def RowSt.closeNorm2 (r : RowSt) (eps : W32) : RowSt :=
  let r := ({ r with state := 2, stage := 2 }).setEmpty
  let m := r.normMean r.sec
  if r.count = 0 then ({ r with p1 := (r.p1.1, nan32), p2 := (nan32, 0) }).addFlags m.2
  else
    let q := normRsq r.strict m.1 eps
    (({ r with p1 := (r.p1.1, m.1), p2 := (q.1, 0) }).addFlags (m.2.or q.2.1)).setIf sZVAR q.2.2

/-- The division of a `MEAN` of sum `x`: a row value that is a NaN, an infinity or a zero needs none (R163). -/
def RowSt.meanPrecise (r : RowSt) (x : Rat) : Nat :=
  match (r.sumValue x).1 with
  | .fin _ => if r.count = 0 then 0 else 1
  | _ => 0

/-- The division by n, and in strict mode `RSQ.CR`, of a statistic: once per row, whatever the values (R201). A row with no elements
has no statistics (R204). -/
def RowSt.statPrecise (r : RowSt) (rsq : Bool) : Nat :=
  if r.count = 0 then 0 else 1 + (rsq && r.strict).toNat

/-- Precise-pipe computations of the close of a stage of a normalisation (R201). -/
def RowSt.normPrecise (r : RowSt) : Nat :=
  if r.stage = 0 then r.statPrecise (r.top != topLayer)
  else if r.stage = 1 ∧ r.top = topLayer then r.statPrecise true
  else 0

/-- Precise-pipe computations of a close, from the state before it: the division of a mean (R163), the log-sum-exp (R189), the loss
(R207), the statistics of a normalisation (R201); a row whose result needs none counts none (R420). -/
def RowSt.closePrecise (r : RowSt) (inflim : Bool) (lam : W32) : Nat :=
  if r.top = topMEAN then r.meanPrecise r.prim
  else if r.top = topSoftmax then (r.outcome inflim == .normal).toNat
  else if r.top = topXent then r.lossPrecise inflim lam
  else if isNorm r.top then r.normPrecise
  else 0

/-- A layer state taken up by SUM2: its count and its second sum start anew (log 20). -/
def RowSt.takeSum2 (r : RowSt) : RowSt := ({ r with state := 1, count := 0, sec := 0 }).clrBit sZNEG

/-- d = RN_F32(x − μ) of layer norm, x of RMS norm, with flags (R201). -/
def RowSt.normDev (r : RowSt) (x : W32) : W32 × Flags :=
  if r.top = topLayer then
    let s := vadd false (f32Val x) (f32Val r.p1.1).neg
    let o := rnF32 s.1
    (o.1, s.2.or o.2)
  else (x, {})

/-- y of the output pass before rounding (R201, R205). -/
def RowSt.normOut (r : RowSt) (rdn : Bool) (x gamma beta : W32) : Val × Flags :=
  let d := r.normDev x
  let q : W32 × Flags := if r.bit sZVAR then (d.1, {})
    else
      let p := vmul (f32Val d.1) (f32Val r.p2.1)
      let o := rnF32 p.1
      (o.1, p.2.or o.2)
  let y := fmaExact rdn q.1 gamma beta
  (y.1, (d.2.or q.2).or y.2)

/-- A segment of the first sum pass: Σx of layer norm, Σx² of RMS norm. -/
def RowSt.normSum1 (r : RowSt) (ds : List Dv) : RowSt :=
  let vs := (ds.map fun d => { d with sq := r.top == topRms }).map Dv.val
  (r.delivers vs).sumInto vs

/-- The special values of d² without counting them again (`NORM` WHOLE counts in its first pass). -/
def RowSt.noteSpecials (r : RowSt) (vs : List Val) : RowSt :=
  ((r.setIf sNAN (vs.any (· == .nan))).setIf sPINF (vs.any (· == .inf false))).clrBit sZNEG

/-- A segment of the second sum pass of layer norm: Σd², with the flags of d. -/
def RowSt.normSum2 (r : RowSt) (count : Bool) (ds : List Dv) : RowSt :=
  let dd := ds.map fun d => r.normDev d.w
  let vs := dd.map fun d => (vmul (f32Val d.1) (f32Val d.1)).1
  let r := if count then r.delivers vs else r.noteSpecials vs
  (r.sumSec vs).addFlags (dd.foldl (fun f d => f.or d.2) {})

end Sys2Proof.Machine
end

