-- ==== Sys2Proof/Machine/Pipe.lean ====
section
/-! DEFINITION. The lane pipeline on one element and one span of a row: S1 decode, S2 to S5, S6 conversion with block scales,
amax, assay fold and the hard-case test (chapters 2 to 5, 9). -/
namespace Sys2Proof.Machine
open Sys2Proof

/-! ### S2 to S5 (R77 to R82) -/

/-- The pattern of a coefficient source (Table 3.5). -/
def Elem.coef (e : Elem) (r : Recipe) (code : Nat) (mul : Bool) : W32 :=
  match code with
  | 0 => if mul then one32 else negZero
  | 1 => r.imm0
  | 2 => r.imm1
  | 3 => e.rv
  | 4 => e.cv
  | 5 => e.y
  | _ => e.x

/-- u of S2 before rounding (R78, R79): with no arithmetic the element itself. `rdn`: u is rounded toward −∞. -/
def s2Exact (r : Recipe) (rdn : Bool) (e : Elem) : Val × Flags :=
  if r.s2a = 0 ∧ r.s2b = 0 then (f32Val e.x, (quiet e.x).2)
  else fmaExact rdn (if r.func = 0x15 then one32 else e.coef r r.s2a true) e.x (e.coef r r.s2b false)

/-- u rounded to nearest even (R40). -/
def s2Rne (r : Recipe) (e : Elem) : W32 × Flags :=
  let u := s2Exact r false e
  let o := rnF32 u.1
  (o.1, u.2.or o.2)

/-- What S3 hands on: z, the value S6 rounds when S4 passes, how, the flags of f, and the flags of forming z (R102). -/
structure S3Out where
  z    : W32
  val  : Val
  hand : Hand
  fl   : Flags
  zfl  : Flags
  deriving DecidableEq, Repr

/-- `LRELU` (R79, R119): u for u ≥ 0 and α·u otherwise. -/
def lrelu (alpha u : W32) : S3Out :=
  let v := f32Val u
  if v = .nan ∨ !(vlt v (.zero false)) then { z := (quiet u).1, val := v, hand := .exact, fl := {}, zfl := {} }
  else
    let p := vmul (f32Val alpha) v
    let o := rnF32 p.1
    { z := o.1, val := p.1, hand := .exact, fl := { iv := p.2.iv || f32SNaN alpha }, zfl := o.2 }

/-- S3 on u (R80): a built-in function, a .CR form, a minted curve. `img` is the curve's image. -/
def s3 (code : Nat) (img : List Byte) (alpha u : W32) : S3Out :=
  if isCurveCode code then
    let c := curveEval img u
    { z := c.1, val := f32Val c.1, hand := .once, fl := c.2, zfl := {} }
  else if code = 0x15 then lrelu alpha u
  else
    let f := fnValue (fnBase code) (f32Val u)
    let z := if isCrCode code then (rnF32 f.v).1 else fastZ code u f
    { z := z, val := f.v, hand := .func (!isCrCode code), fl := f.fl, zfl := zFlags f z }

/-- The exact S4 result (R81); a signalling coefficient of MAX and MIN raises IV (R32). -/
def s4Exact (r : Recipe) (rdn : Bool) (e : Elem) (z : W32) : Val × Flags :=
  let c := e.coef r r.s4c true
  match r.s4op with
  | 1 => fmaExact rdn c z (e.coef r r.s4d false)
  | 2 => (vmax (f32Val z) (f32Val c), (quiet c).2)
  | _ => (vmin (f32Val z) (f32Val c), (quiet c).2)

/-- S2 to S4 of an element that has an element output (R78, R81, R102 to R105); `rdn` when the exact result is rounded
under `RDN` itself, so that an exact zero is −0. -/
def flowOut (r : Recipe) (rdn : Bool) (img : List Byte) (e : Elem) : S6In :=
  if r.func = 0 ∧ r.s4op = 0 then
    let u := s2Exact r rdn e
    { val := u.1, v := (rnF32 u.1).1, hand := .exact, fl := e.fl.or u.2, code := 0, u := 0 }
  else
    let u := s2Rne r e
    let o : S3Out := if r.func = 0 then { z := u.1, val := f32Val u.1, hand := .exact, fl := {}, zfl := {} }
      else s3 r.func img (e.coef r r.s2a true) u.1
    let fl := (e.fl.or u.2).or o.fl
    if r.s4op = 0 then { val := o.val, v := o.z, hand := o.hand, fl := fl, code := r.func, u := u.1 }
    else
      let w := s4Exact r rdn e o.z
      { val := w.1, v := (rnF32 w.1).1, hand := .exact, fl := (fl.or o.zfl).or w.2, code := 0, u := 0 }

/-- The pattern S5 gives the tally when it is the only consumer (R78, R82): x, or z4 rounded under the code (`SR` as RNE)
with the epoch's overflow mode, and the element's flags. -/
def flowTap (r : Recipe) (rm : Rnd) (nonsat : Bool) (img : List Byte) (e : Elem) : W32 × Flags :=
  let rdn := rm == .rdn
  let u := if r.func = 0 ∧ r.s4op = 0 then
      let u := s2Exact r rdn e
      let o := rowRound rm nonsat u
      (o.1, o.2)
    else s2Rne r e
  let o : S3Out := if r.func = 0 then { z := u.1, val := .nan, hand := .exact, fl := {}, zfl := {} }
    else s3 r.func img (e.coef r r.s2a true) u.1
  let fl := (e.fl.or u.2).or o.fl
  let z : W32 × Flags :=
    if r.s4op = 0 then (o.z, if r.tap = 1 then fl else fl.or o.zfl)
    else
      let w := s4Exact r rdn e o.z
      let c := rowRound rm nonsat w
      (c.1, (fl.or o.zfl).or c.2)
  if r.tap = 1 then ((quiet e.x).1, z.2.or (quiet e.x).2) else z

/-! ### S6 (R83, R104, R105) -/

/-- The value S6 converts into a format, before any block scale, and the flags of an `F32` intermediate (R40, R104). -/
def S6In.pre (s : S6In) (f : Fmt) : Val × Flags :=
  match s.hand with
  | .once => (s.val, {})
  | .exact =>
    if f == .f32 || f == .s32 then (s.val, {})
    else
      let r := rtoF32 s.val
      (f32Val r.1, { r.2 with uf := r.2.uf && !f.isInt })
  | .func _ => (if f == .s32 then f32Val s.v else s.val, {})
  | .quot _ _ => (s.val, {})

/-- Whether an integer code stands for a value other than the exact one (R118). -/
def integerInexact (f : Fmt) (code : Nat) (v : Val) : Bool :=
  match v with
  | .fin q => decide (q ≠ (intVal f code : Rat))
  | _ => false

/-- The fast `F32` output is z (R105): an overflowed z becomes ±max under SAT and counts one saturation. A zero z of a nonzero
f(u) counts one vanish (DEDUCED, log 49). -/
def fastOut (nonsat : Bool) (s : S6In) : Conv :=
  let fl := zFlags { v := s.val, ex := false, fl := {} } s.v
  match s.val, f32Val s.v with
  | .fin _, .inf neg =>
    if nonsat then { code := s.v.toNat, fl := fl, vanish := false, sat := false }
    else { code := signBit .f32 neg + Fmt.f32.maxCode, fl := fl, vanish := false, sat := true }
  | .fin _, .zero _ => { code := s.v.toNat, fl := fl, vanish := true, sat := false }
  | _, _ => { code := s.v.toNat, fl := fl, vanish := false, sat := false }

/-- One element without a block scale. An `S32` output of a function rounds z, and its NX follows f(u) (R104, R118). -/
def S6In.convert (s : S6In) (f : Fmt) (nonsat : Bool) (rm : Rnd) (draw : Nat) : Conv :=
  if f == .f32 && s.hand == .func true then fastOut nonsat s
  else
    let p := s.pre f
    let c := Machine.convert f nonsat rm draw p.1
    match s.hand with
    | .func _ => if f == .s32 && !c.fl.iv then { c with fl := { nx := integerInexact f c.code s.val } } else c
    | _ => { c with fl := p.2.or c.fl }

/-! ### The hard-case test (R106, R107) -/

/-- The values that a function approaches from a side which the function fixes, among the ranges R107 names: u for `TANH`, `ERF`, `SINPI`,
`EXPM1` and `LOG1P` at small |u| and `SOFTPLUS` at large u, 1 for `EXP` near 0 and `SIG`, `TANH` and `ERF` near saturation, −1 for the last
two. No other crossing or limit is among them. -/
def signLimits (code : Nat) (u : Rat) : List Rat :=
  let small := if rabs u ≤ mkRat 1 2 then [u] else []
  match code with
  | 0x01 | 0x0A => [1]
  | 0x03 | 0x06 | 0x11 => small
  | 0x0B => [u, 1, -1]
  | 0x0F => [u]
  | 0x10 => small ++ [1, -1]
  | _ => []

/-- The sign-known ranges: f(u) lies within 2^-27 of such a value, an absolute distance as R107's words and its `ERF` and `SINPI` have it
(DEDUCED, log 5), and the lane decides its rounding. Where R107's words leave a function's range out, the set of hard arguments decides. -/
def signKnown (code : Nat) (u f : Val) : Bool :=
  match f with
  | .fin q => (signLimits code u.toRat).any fun c => decide (rabs (q - c) ≤ pow2 (-27))
  | _ => false

/-- Whether the rounding test applies to an element at all: to a fast function's narrow output, and to a strict quotient whose
1/S is not exact in 64 bits (R106, R107, R192). -/
def S6In.tested (s : S6In) (f : Fmt) : Bool :=
  match s.hand with
  | .func true =>
    f != .f32 && f != .s32 && !neverHard s.code && !(fnValue (fnBase s.code) (f32Val s.u)).ex
      && !signKnown (fnBase s.code) (f32Val s.u) s.val
  | .quot d err => decide (err ≠ 0) && (match s.val with | .fin _ => true | .zero _ => true | _ => false) && (rn64 (1 / d)).2
  | _ => false

def scaleVal (v : Val) (m : Rat) : Val := match v with | .fin q => .fin (q * m) | v => v

def shiftVal (v : Val) (d : Rat) : Val :=
  match v with
  | .fin q => .ofRat (q + d)
  | .zero _ => .ofRat d
  | v => v

/-- The ends of the values that the rounding test covers about `v` (R101, R192). -/
def S6In.near (s : S6In) (v : Val) : Val × Val :=
  match s.hand with
  | .quot _ err => (shiftVal v (-err), shiftVal v err)
  | _ => (scaleVal v (1 - pow2 (-26)), scaleVal v (1 + pow2 (-26)))

/-- Whether every value between two ends converts alike under a fixed divisor 2^e. -/
def sameNear (ends : Val × Val) (f : Fmt) (nonsat : Bool) (rm : Rnd) (draw : Nat) (e : Int) : Bool :=
  let lo := ends.1.unscale e
  let hi := ends.2.unscale e
  Machine.convert f nonsat rm draw lo == Machine.convert f nonsat rm draw hi
    && Machine.convert f nonsat .rtz 0 lo == Machine.convert f nonsat .rtz 0 hi

/-- The undecided elements take the free value of log 5. -/
def S6In.hardBy (s : S6In) (f : Fmt) (rm : Rnd) (scale : Nat) (same : Bool) : Bool :=
  !same && match s.hand with
    | .quot d _ => Config.quotientOpen f.code rm.code scale s.val.toRat d
    | _ => Config.hardArgument s.code f.code rm.code scale s.u

/-! ### Spans of an output row -/

/-- One output position: not written, an element, a fill value written by expand, or the +0 tail of compress (R85). -/
inductive Item
  | skip
  | el (s : S6In)
  | fill (w : W32)
  deriving DecidableEq, Repr

/-- What S6 needs of a command: format, FIXED scale byte, rounding, overflow mode, Coinflip, and the assay key. -/
structure Egress where
  fmt    : Fmt
  fixed  : Option Nat
  rm     : Rnd
  nonsat : Bool
  seed   : W64
  sigma  : W32
  ib     : Nat
  ip     : Nat
  fold   : Bool
  key    : W64
  deriving DecidableEq, Repr

/-- What a span gives: codes by position (none: not written), scale bytes by block, flags and counts, the amax update, the
assay contribution, the number of elements the rounding test leaves undecided, and the positions that await the precise pipe:
those elements and every element of an affected block (R109). -/
structure Emit where
  codes  : List (Option Nat)
  scales : List Nat
  fl     : Flags
  vanish : Nat
  sat    : Nat
  amax   : W64
  asv    : W64
  asn    : Nat
  undec  : Nat
  hard   : List Nat
  deriving DecidableEq, Repr

def Emit.empty : Emit :=
  { codes := [], scales := [], fl := {}, vanish := 0, sat := 0, amax := 0, asv := 0, asn := 0, undec := 0, hard := [] }

/-- Two spans one after the other; `n` positions stand before the second. -/
def Emit.append (a b : Emit) (n : Nat) : Emit :=
  { codes := a.codes ++ b.codes, scales := a.scales ++ b.scales, fl := a.fl.or b.fl, vanish := a.vanish + b.vanish
    sat := a.sat + b.sat, amax := amaxJoin a.amax b.amax, asv := a.asv ^^^ b.asv, asn := a.asn + b.asn
    undec := a.undec + b.undec, hard := a.hard ++ b.hard.map (· + n) }
where
  /-- Two amax registers combined (R64, R65). -/
  amaxJoin (a b : W64) : W64 :=
    let lo := if (a.setWidth 32).toNat < (b.setWidth 32).toNat then b.setWidth 32 else a.setWidth 32
    (((a ||| b) >>> 32) <<< 32) ||| lo.setWidth 64

/-- Two amax registers combined (R64, R65): the larger magnitude and the sticky bits. -/
def amaxJoin (a b : W64) : W64 := Emit.append.amaxJoin a b

/-- The register value that one S6 input stands for (R65). -/
def amaxOf (w : W32) : W64 :=
  match f32Val w with
  | .nan => 0x100000000
  | .inf _ => 0x200000000
  | _ => (w &&& 0x7FFFFFFF).setWidth 64

/-- The logical index of output position k of output row r (R241). -/
def Egress.index (g : Egress) (r k : Nat) : BitVec 48 := BitVec.ofNat 48 (g.ib + r * g.ip + k)

/-- The draw of an output element under `SR` (R48 to R50). -/
def Egress.draw (g : Egress) (r k : Nat) : Nat :=
  if g.rm == .sr then (coinflip g.seed g.sigma (g.index r k)).toNat else 0

/-- The contribution of a stored element (R242, Table 9.4). -/
def Egress.fold1 (g : Egress) (r k code scale : Nat) : W64 :=
  let v : W64 := BitVec.ofNat 64 (code + (if g.fmt.isBlock then scale * 2 ^ 32 else 0))
  gfMul v (gfPow g.key ((g.index r k).toNat + 1))

def Item.value (f : Fmt) : Item → Val × Flags
  | .skip => (.zero false, {})
  | .el s => s.pre f
  | .fill w => (f32Val w, (quiet w).2)

def Item.amax : Item → W64
  | .el s => amaxOf s.v
  | _ => 0

def Item.flags : Item → Flags
  | .el s => s.fl
  | _ => {}

/-- A span of a format without block scales, from position k. -/
def emitPlain (g : Egress) (r : Nat) : Nat → List Item → Emit
  | _, [] => Emit.empty
  | k, it :: its =>
    let rest := emitPlain g r (k + 1) its
    let one (c : Conv) (hard : Bool) : Emit :=
      { codes := [some c.code], scales := [], fl := c.fl.or it.flags, vanish := c.vanish.toNat, sat := c.sat.toNat
        amax := it.amax, asv := if g.fold then g.fold1 r k c.code 0 else 0, asn := 1, undec := hard.toNat
        hard := if hard then [0] else [] }
    let d := g.draw r k
    let e : Emit := match it with
      | .skip => { Emit.empty with codes := [none] }
      | .el s =>
        let c := s.convert g.fmt g.nonsat g.rm d
        one c (s.tested g.fmt && s.hardBy g.fmt g.rm 0 (sameNear (s.near s.val) g.fmt g.nonsat g.rm d 0))
      | .fill w =>
        let c := convert g.fmt g.nonsat g.rm d (f32Val w)
        one { c with fl := c.fl.or (quiet w).2 } false
    e.append rest 1

/-- Whether the rounding test decides an element of a selected block (R106): every value near it lies on the same side of each threshold
Θ·2^k that R59 compares against, and gives the same code under the block's scale. The block's other elements enter by that scale alone
(R107). -/
def blockSame (ends : Val × Val) (g : Egress) (e : Int) (d : Nat) : Bool :=
  blockExp g.fmt (rabs ends.1.toRat) == blockExp g.fmt (rabs ends.2.toRat) && sameNear ends g.fmt g.nonsat g.rm d e

/-- One block of at most 32 positions from position k (R57 to R60, R85). -/
def emitBlock (g : Egress) (r k : Nat) (its : List Item) : Emit :=
  let pre := its.map fun it =>
    let p := it.value g.fmt
    if g.fixed.isSome then p else ((selectIn p.1).1, p.2.or (selectIn p.1).2)
  let vs := pre.map fun p => p.1
  let bc := match g.fixed with
    | some b => BlockCase.scaled b ((b : Int) - 127)
    | none => blockCase g.fmt g.nonsat vs
  let conv (i : Nat) (v : Val) : Conv := match bc with
    | .allNan iv => { code := g.fmt.nanCode, fl := { iv := iv }, vanish := false, sat := false }
    | .scaled _ e => convert g.fmt g.nonsat g.rm (g.draw r (k + i)) (v.unscale e)
  let scale := match bc with | .allNan _ => 0xFF | .scaled b _ => b
  let go (i : Nat) (x : Item × Val × Flags) : Emit :=
    let c := match x.1 with | .skip => Conv.exact 0 | _ => conv i x.2.1
    let hard := match x.1, bc with
      | .el s, .scaled b e => s.tested g.fmt && s.hardBy g.fmt g.rm b
          (if g.fixed.isSome then sameNear (s.near x.2.1) g.fmt g.nonsat g.rm (g.draw r (k + i)) e
           else blockSame (s.near x.2.1) g e (g.draw r (k + i)))
      | _, _ => false
    { codes := [some c.code], scales := [], fl := (c.fl.or x.2.2).or x.1.flags, vanish := c.vanish.toNat
      sat := c.sat.toNat, amax := x.1.amax, asv := if g.fold then g.fold1 r (k + i) c.code scale else 0, asn := 1
      undec := hard.toNat, hard := [] }
  let all := (its.zip pre).zipIdx.foldl (fun (a : Emit × Nat) x => (a.1.append (go x.2 x.1) a.2, a.2 + 1)) (Emit.empty, 0)
  let e := all.1
  { e with scales := [scale], hard := if e.undec = 0 then [] else upTo its.length }

/-- A span cut into blocks of 32. -/
def emitBlocks (g : Egress) (r : Nat) : Nat → Nat → List Item → Emit
  | 0, _, _ => Emit.empty
  | n + 1, k, its =>
    if its.isEmpty then Emit.empty
    else (emitBlock g r k (its.take 32)).append (emitBlocks g r n (k + 32) (its.drop 32)) (min 32 its.length)

/-- S6 on the positions k, k + 1, … of output row r. -/
def emitSpan (g : Egress) (r k : Nat) (its : List Item) : Emit :=
  if g.fmt.isBlock then emitBlocks g r (its.length / 32 + 1) k its else emitPlain g r k its

/-! ### S1 (R77, R84, R85) -/

/-- The MFILL pattern (Table 3.4). -/
def fillPattern (r : Recipe) : W32 :=
  match r.mfill with
  | 0 => negInf32
  | 1 => posZero
  | _ => r.imm1

/-- The fill of an expanded row: −∞ is read as +0 (Table 3.7). -/
def expandFill (r : Recipe) : W32 := if r.mfill = 0 then posZero else fillPattern r

/-- T of Table 3.4. -/
def tensorScale (r : Recipe) (code : Nat) : W32 :=
  match code with
  | 1 => r.imm0
  | 2 => r.imm1
  | _ => one32

/-- The keep bit of a generated mask (Table 7.5). -/
def generatedKeep (gmk : Nat) (rg : Regs) (kj qi : Nat) : Bool :=
  if gmk = 0 then decide (kj ≤ qi)
  else
    let n := rg.gh.toNat * rg.gw.toNat
    let fk := kj / n
    let fq := qi / n
    decide (fk ≤ fq) && (rg.gt == 0 || decide (fq - fk < rg.gt.toNat))

/-- Whether an element takes part in S2 to S5 (R84, Table 3.7). -/
def Elem.active (r : Recipe) (e : Elem) : Bool := e.valid && (e.keep || r.msrc == 0 || r.mact == 0 || r.mact == 3)

/-- Whether compress removes an element, so that it takes no output position (R84). -/
def Elem.removed (r : Recipe) (e : Elem) : Bool := r.msrc != 0 && r.mact == 2 && !(e.valid && e.keep)

end Sys2Proof.Machine
end

