-- ==== Sys2Proof/Machine/Rolls.lean ====
section
/-! DEFINITION. Roll slots: claims, acquiring, dropping, publishing and releasing (R297 to R305). -/
namespace Sys2Proof.Machine
open Sys2Proof

def State.roll (s : State) (i : Nat) : Roll := vecGet s.rolls i .default
def State.modRoll (s : State) (i : Nat) (f : Roll → Roll) : State := { s with rolls := vecModify s.rolls i f }

/-- Whether sequence number `n` lies before `m`, modulo 2^32 (R297). -/
def seqBefore (n m : W32) : Bool := decide (0 < (m - n).toInt)

/-- A slot is free when fewer than NSLOT slots lie between TSEQ and it (R297). -/
def Roll.free (r : Roll) (seq : W32) : Bool := decide ((seq - r.tseq).toInt < (r.nslot.toNat : Int))

def Roll.published (r : Roll) (seq : W32) : Bool := seqBefore seq r.hseq

/-- The sequence number of slot `i` of a claim. -/
def Claim.seq (c : Claim) (i : Nat) : W32 := c.first + BitVec.ofNat 32 i

/-- Whether a consumer of the stream has still to release a slot that it claims. -/
def Claim.wants (c : Claim) (roll : Nat) (seq : W32) : Bool :=
  !c.produce && c.roll == roll && decide (c.done ≤ (seq - c.first).toNat) && decide ((seq - c.first).toNat < c.n)

/-- The slot of a sequence number. -/
def Roll.place (r : Roll) (seq : W32) : Nat :=
  match r.moved.find? fun x => x.1 == seq with | some x => x.2 | none => seq.toNat % r.nslot.toNat

/-- The sequence numbers whose slots are in use: taken or complete and not yet published, published and not dropped or released,
held by a consumer. -/
def Roll.inUse (r : Roll) (cs : List Claim) (roll : Nat) : List W32 :=
  ((upTo (min (r.hseq - r.tseq).toNat r.nslot.toNat)).map fun i => r.tseq + BitVec.ofNat 32 i)
    ++ ((cs.filter fun c => c.roll == roll).map fun c =>
      ((upTo c.acquired).filter fun i => c.produce && !r.published (c.seq i) || !c.produce && decide (c.done ≤ i)).map c.seq).flatten

/-- The slot that a producer in overwrite mode fills with a sequence number: its own, or another that is not in use (R305). -/
def Roll.settle (r : Roll) (cs : List Claim) (roll : Nat) (seq : W32) : Option Nat :=
  let busy := (r.inUse cs roll).map r.place
  let own := seq.toNat % r.nslot.toNat
  if !busy.contains own then some own else (upTo r.nslot.toNat).find? fun p => !busy.contains p

/-- The slots that consumers hold: those they read, also where the number they claimed was dropped and the slot holds newer data
(R305). -/
def Roll.heldSlots (r : Roll) (cs : List Claim) (roll : Nat) : List Nat :=
  ((cs.filter fun c => !c.produce && c.roll == roll).map fun c =>
    ((upTo c.acquired).filter fun i => decide (c.done ≤ i)).map fun i => r.place (c.seq i)).flatten

/-- The oldest published slot that no consumer holds, from a sequence number on. -/
def Roll.oldestUnheld (r : Roll) (held : List Nat) : Nat → W32 → Option W32
  | 0, _ => none
  | n + 1, t =>
    if !seqBefore t r.hseq then none
    else if held.contains (r.place t) then r.oldestUnheld held n (t + 1)
    else some t

/-- Overwrite mode: the oldest published slot that no consumer holds is dropped; TSEQ and a reserved tail behind it advance
past it, the drop is counted and `ROLLD` logged (R305). -/
def State.dropSlot (s : State) (i : Nat) : Option State :=
  let r := s.roll i
  match r.oldestUnheld (r.heldSlots s.stream.claims i) (r.nslot.toNat + 1) r.tseq with
  | none => none
  | some t =>
    let s := s.modRoll i fun r =>
      { r with tseq := t + 1, rtail := if seqBefore r.rtail (t + 1) then t + 1 else r.rtail, dropped := satAdd r.dropped 1 }
    some (s.logLimited (.roll i) cROLLD noTag (some s.tn.active) fun n => [BitVec.ofNat 8 i, 0, 0, 0] ++ leBytes 4 n.toNat)

/-- The claims of a tag for a roll and a direction changed. -/
def State.modClaim (s : State) (c : Claim) (f : Claim → Claim) : State :=
  s.modStream fun st => { st with claims := updateFirst (fun d => d == c) f st.claims }

/-- A roll faulted by its watchdog: its counts are kept for inspection (R303). -/
def Roll.faulted (r : Roll) : Bool := r.st == .faultedU || r.st == .faultedO

/-- The slot of a sequence number noted when it is not the usual one; the note stays while the number is recent or claimed. -/
def State.moveSlot (s : State) (i : Nat) (seq : W32) (p : Nat) : State :=
  s.modRoll i fun r =>
    { r with moved := (r.moved.filter fun x => x.1 != seq && (!seqBefore (x.1 + BitVec.ofNat 32 (2 * r.nslot.toNat)) seq
          || s.stream.claims.any fun c => c.wants i x.1))
        ++ (if seq.toNat % r.nslot.toNat = p then [] else [(seq, p)]) }

/-- The claim takes its next slot: a producer a free one, or in overwrite mode the one that a drop frees, which Table 11.5 lets it always
find, a consumer a published one (R301, R305). None while it must wait, and none on a faulted roll. -/
def State.acquire (s : State) (c : Claim) : Option State :=
  let r := s.roll c.roll
  let seq := c.seq c.acquired
  let take (s : State) : State := s.modClaim c fun c => { c with acquired := c.acquired + 1, since := none }
  if r.faulted then none
  else if !c.produce then (if r.published seq then some (take s) else none)
  else if !r.overwrite then (if r.free seq then some (take s) else none)
  else match (if r.free seq then r.settle s.stream.claims c.roll seq else none) with
    | some p => some (take (s.moveSlot c.roll seq p))
    | none => (s.dropSlot c.roll).bind fun t =>
        ((t.roll c.roll).settle t.stream.claims c.roll seq).map fun p => take (t.moveSlot c.roll seq p)

/-- HSEQ past every slot that is complete, in sequence order (R301). -/
def advanceHead (cs : List Claim) (roll : Nat) : Nat → W32 → W32
  | 0, h => h
  | n + 1, h =>
    if cs.any fun c => c.produce && c.roll == roll && decide ((h - c.first).toNat < c.done) then advanceHead cs roll n (h + 1)
    else h

/-- Complete slots are published in sequence order; a retired producer's claim goes once its last slot is published. -/
def State.publish (s : State) (i : Nat) : State :=
  if (s.roll i).faulted then s
  else
    let n := s.stream.claims.foldl (fun a c => a + c.n) 0
    let s := s.modRoll i fun r => { r with hseq := advanceHead s.stream.claims i (n + 1) r.hseq }
    s.modStream fun st =>
      { st with claims := st.claims.filter fun c =>
          !(c.produce && c.tag == noTag && c.roll == i && !seqBefore (s.roll i).hseq (c.seq c.n)) }

/-- The first `k` slots of a producing claim are complete. -/
def State.complete (s : State) (c : Claim) (k : Nat) : State :=
  if k ≤ c.done then s else (s.modClaim c fun c => { c with done := max c.done k }).publish c.roll

/-- The first sequence number that a consumer in flight has still to release. -/
def consumerFloor (cs : List Claim) (roll : Nat) (t : W32) : W32 :=
  cs.foldl (fun m c =>
    if !c.produce && c.roll == roll && decide (c.done < c.n) && seqBefore (c.seq c.done) m then c.seq c.done else m) t

/-- TSEQ past every slot that its consumers have released (R301). -/
def State.settleTail (s : State) (i : Nat) : State :=
  s.modRoll i fun r =>
    let t := consumerFloor s.stream.claims i r.rtail
    if r.faulted then r else { r with tseq := if seqBefore r.tseq t then t else r.tseq }

/-- The claims of a command leave: a consumer releases every slot, a producer whose complete slots await an older one's
stays without a tag (R301). -/
def State.dropClaims (s : State) (tag : W16) : State :=
  let mine := s.stream.claims.filter fun c => c.tag == tag
  let left (c : Claim) : Bool :=
    c.tag != tag || (c.produce && decide (c.n ≤ c.done) && seqBefore (s.roll c.roll).hseq (c.seq c.n))
  let s := s.modStream fun st =>
    { st with claims := (st.claims.filter left).map fun c => if c.tag == tag then { c with tag := noTag } else c }
  mine.foldl (fun s c => if c.produce then s else s.settleTail c.roll) s

/-- Slots claimed at issue, in stream order (R300). -/
def State.claim (s : State) (tag : W16) (roll : Nat) (produce : Bool) (n : Nat) : State :=
  let r := s.roll roll
  let c : Claim := { tag := tag, roll := roll, produce := produce, first := if produce then r.rhead else r.rtail, n := n
                     acquired := 0, done := 0, since := none }
  let s := s.modRoll roll fun r =>
    if produce then { r with rhead := r.rhead + BitVec.ofNat 32 n } else { r with rtail := r.rtail + BitVec.ofNat 32 n }
  s.modStream fun st => { st with claims := st.claims ++ [c] }

/-- A roll set anew: its counts become 0 and it is active, or disabled; the tag of its last fault stays (R306). -/
def Roll.set (r : Roll) (enable overwrite : Bool) (base slotb : W32) (nslot : W16) : Roll :=
  { Roll.default with
    enable := enable, base := base, slotb := slotb, nslot := nslot, overwrite := overwrite
    st := if enable then .active else .disabled, lastTag := r.lastTag }

/-- A `ROLLSET`, or a write of the record, takes effect: the new record, and no claim on the roll (R306, R307). -/
def State.setRoll (s : State) (i : Nat) (r : Roll) : State :=
  (s.modRoll i fun _ => r).modStream fun st => { st with claims := st.claims.filter fun x => x.roll != i }

end Sys2Proof.Machine
end

