-- ==== Sys2Proof/Machine/Scratch.lean ====
section
/-! DEFINITION. The scratchpad's words, their ECC outcomes, partial writes and scrub visits (chapter 10). -/
namespace Sys2Proof.Machine
open Sys2Proof

/-! ### The code of R275 -/

def popcount8 (n : Nat) : Nat := (upTo 8).foldl (fun a i => a + (n.testBit i).toNat) 0

/-- The column of data bit j, j = 0 to 63 (R275). -/
def dataColumns : List Nat :=
  (upTo 256).filter (fun n => popcount8 n == 3) ++ ((upTo 256).filter (fun n => popcount8 n == 5)).take 8

/-- The column of address bit A[3 + k] (R275). -/
def addrColumns : List Nat := ((upTo 256).filter (fun n => popcount8 n == 2)).take 24

/-- What a syndrome says of a word (Table 10.4). -/
inductive Syndrome
  | clean
  | dataBit (j : Nat)
  | checkBit
  | poison
  | other
  deriving DecidableEq, Repr

def classify (s : Byte) : Syndrome :=
  if s = 0 then .clean
  else if s = 0xFF then .poison
  else if popcount8 s.toNat = 1 then .checkBit
  else match findIdx' (· == s.toNat) dataColumns with
    | some j => .dataBit j
    | none => .other

/-- The single-bit errors, which every reader corrects. -/
def Syndrome.correctable : Syndrome → Bool
  | .dataBit _ => true
  | .checkBit => true
  | _ => false

/-- Errors that a read cannot correct: the poison code and every other syndrome. -/
def Syndrome.bad : Syndrome → Bool
  | .poison => true
  | .other => true
  | _ => false

/-- The syndrome of the 64-bit word `w` (byte address 8w). -/
def Spad.syndrome (p : Spad) (w : Nat) : Byte := sparseGet 0 p.synd w

def Spad.setSyndrome (p : Spad) (w : Nat) (b : Byte) : Spad := { p with synd := sparseSet 0 p.synd w b }

/-- One byte as a reader sees it: a single flipped data bit is corrected in line. -/
def Spad.readByte (p : Spad) (a : Nat) : Byte :=
  match classify (p.syndrome (a / 8)) with
  | .dataBit j => if j / 8 = a % 8 then Memory.read p.mem a ^^^ (1 <<< (j % 8)) else Memory.read p.mem a
  | _ => Memory.read p.mem a

/-- `n` bytes as a reader sees them. -/
def Spad.readBytes (p : Spad) (a n : Nat) : List Byte :=
  if p.synd.isEmpty then Memory.readN p.mem a n else (upTo n).map fun i => p.readByte (a + i)

/-- The word's stored data bits corrected. -/
def Spad.fixWord (p : Spad) (w : Nat) : Spad :=
  match classify (p.syndrome w) with
  | .dataBit j =>
    let a := 8 * w + j / 8
    { p with mem := Memory.write p.mem a (Memory.read p.mem a ^^^ (1 <<< (j % 8))), synd := sparseSet 0 p.synd w 0 }
  | .checkBit => p.setSyndrome w 0
  | _ => p

/-! ### Counting and logging (R276, R282) -/

/-- The bank of a 64-bit word (Table 10.1). -/
def bankOfWord (w : Nat) : Nat := w / 8 % 64

def eccDetail (addr structure_ : Nat) (syn : Byte) (port : Nat) (count : Nat) : List Byte :=
  leBytes 4 addr ++ [BitVec.ofNat 8 structure_, syn, BitVec.ofNat 8 port, 0] ++ leBytes 4 count

def State.lastError (s : State) (w : Nat) (syn : Byte) : State :=
  s.modHealth fun h => { h with lastAddr := BitVec.ofNat 32 (8 * w), lastSynd := syn, lastGc := s.gc }

/-- A corrected single-bit error: counted, and logged once per bank and window (R276). -/
def State.corrected (s : State) (tag : W16) (ctx : Option (BitVec 3)) (w : Nat) (syn : Byte) : State :=
  let s := s.modHealth fun h => { h with corrected := satAdd h.corrected 1 }
  let s := (s.lastError w syn).note fun x => { x with corrected := satAdd x.corrected 1 }
  s.logLimited (.bank (bankOfWord w)) cECCCE tag ctx fun n => eccDetail (8 * w) 0 syn 0 n.toNat

/-- A correction write-back queued for a word (R275). -/
def State.queueWb (s : State) (w : Nat) (syn : Byte) : State :=
  s.modSpad fun p => if p.wb.any (fun e => e.1 == w) then p else { p with wb := p.wb ++ [(w, syn)] }

/-- An uncorrectable read by a lane, W or N, or a scrub visit that writes the poison: counted at :02, and at :03 when the
word is written as poison now. -/
def State.uncorrectable (s : State) (w : Nat) (syn : Byte) (poisonNow : Bool) : State :=
  let s := s.modHealth fun h =>
    { h with uncorr := satAdd h.uncorr 1, poisoned := if poisonNow then satAdd h.poisoned 1 else h.poisoned }
  let s := s.lastError w syn
  if poisonNow then s.modSpad fun p => p.setSyndrome w 0xFF else s

/-- An `ECCUE` entry of no command's fault: noted in every open digest range (Table 9.6, log 12). -/
def State.logEccue (s : State) (tag : W16) (ctx : Option (BitVec 3)) (detail : List Byte) : State :=
  (s.log cECCUE tag ctx detail).note fun x => { x with eccue := true }

/-- A read of one word by a lane, W or N (Table 10.4): whether it can be used. -/
def State.checkWord (s : State) (tag : W16) (ctx : Option (BitVec 3)) (w : Nat) : State × Bool :=
  let syn := s.spad.syndrome w
  match classify syn with
  | .clean => (s, true)
  | .poison => (s.uncorrectable w syn false, false)
  | .other => (s.uncorrectable w syn true, false)
  | _ => ((s.corrected tag ctx w syn).queueWb w syn, true)

/-- The words from `a` on that hold `n` bytes. -/
def wordsOf (a n : Nat) : List Nat := if n = 0 then [] else (upTo ((a + n - 1) / 8 - a / 8 + 1)).map (· + a / 8)

/-- Check a list of words in order; the first word that fails, if any, and its syndrome. -/
def State.checkWords (s : State) (tag : W16) (ctx : Option (BitVec 3)) : List Nat → State × Option (Nat × Byte)
  | [] => (s, none)
  | w :: ws =>
    if s.spad.synd.isEmpty then (s, none)
    else
      let syn := s.spad.syndrome w
      let r := s.checkWord tag ctx w
      if r.2 then r.1.checkWords tag ctx ws
      else
        let t := r.1.checkWords tag ctx ws
        (t.1, some (w, syn))

/-! ### Writes (R274) -/

/-- The words a list of masked byte writes touches. -/
def touchedWords (ws : List (Nat × Byte × Byte)) : List Nat := (ws.map fun x => x.1 / 8).dedup

/-- Whether the writes cover a whole word with fresh data. -/
def coversWord (ws : List (Nat × Byte × Byte)) (w : Nat) : Bool :=
  (upTo 8).all fun i => ws.foldl (fun m x => if x.1 = 8 * w + i then m ||| x.2.1 else m) (0 : Byte) == 0xFF

/-- The old word of a write that has a nonzero syndrome: a whole-word write needs nothing of it; a partial write corrects
it, keeps poison silently, or writes the merged word as poison and logs `ECCUE` (R274). -/
def State.prepareWord (s : State) (port : Nat) (tag : W16) (ctx : Option (BitVec 3)) (ws : List (Nat × Byte × Byte))
    (w : Nat) : State :=
  let syn := s.spad.syndrome w
  if coversWord ws w then s.modSpad fun p => p.setSyndrome w 0
  else match classify syn with
    | .clean => s
    | .poison => s
    | .other => (s.uncorrectable w syn true).logEccue tag ctx (eccDetail (8 * w) 0 syn port 1)
    | _ => (s.corrected tag ctx w syn).modSpad fun p => p.fixWord w

/-- Some words with those in front whose error a reader corrects, so that the entries of one cycle come in the order of their codes:
`ECCCE` before `ECCUE` (R407). -/
def State.byCode (s : State) (ws : List Nat) : List Nat :=
  let fixable (w : Nat) : Bool := (classify (s.spad.syndrome w)).correctable
  if s.spad.synd.isEmpty then ws else ws.filter fixable ++ ws.filter fun w => !fixable w

def State.prepareWords (s : State) (port : Nat) (tag : W16) (ctx : Option (BitVec 3)) (ws : List (Nat × Byte × Byte)) :
    List Nat → State
  | [] => s
  | w :: r => (if s.spad.syndrome w = 0 then s else s.prepareWord port tag ctx ws w).prepareWords port tag ctx ws r

/-- Masked bytes merged into memory. -/
def mergeBytes (m : List Host.Cell) : List (Nat × Byte × Byte) → List Host.Cell
  | [] => m
  | (a, mask, b) :: r => mergeBytes (Memory.write m a ((Memory.read m a &&& ~~~mask) ||| (b &&& mask))) r

/-- Written words leave the correction queue (R280). -/
def Spad.cancelWb (p : Spad) (ws : List Nat) : Spad := { p with wb := p.wb.filter fun e => !ws.contains e.1 }

/-- Masked byte writes by a lane (port 0) or the narrow port (port 2). -/
def State.writeBytes (s : State) (port : Nat) (tag : W16) (ctx : Option (BitVec 3)) (ws : List (Nat × Byte × Byte)) :
    State :=
  let s := if s.spad.synd.isEmpty then s else s.prepareWords port tag ctx ws (s.byCode (touchedWords ws))
  s.modSpad fun p => { (if p.wb.isEmpty then p else p.cancelWb (touchedWords ws)) with mem := mergeBytes p.mem ws }

/-- Whole bytes from an address as masked writes. -/
def wholeBytes (a : Nat) : List Byte → List (Nat × Byte × Byte)
  | [] => []
  | b :: bs => (a, 0xFF, b) :: wholeBytes (a + 1) bs

/-! ### Scrubbing (R277 to R280) -/

/-- ns of running clock of the last visit of a line: visits are kept by line, and the last clear at the key just beyond
the last line (R281). -/
def Spad.lastVisit (p : Spad) (lines l : Nat) : Nat := max (sparseGet 0 p.visits l) (sparseGet 0 p.visits lines)

/-- A scrub read of one word (Table 10.4). -/
def State.scrubWord (s : State) (w : Nat) : State :=
  let syn := s.spad.syndrome w
  match classify syn with
  | .clean => s
  | .poison => s
  | .other => (s.uncorrectable w syn true).logEccue noTag (some s.tn.active) (eccDetail (8 * w) 0 syn 3 1)
  | _ => (s.corrected noTag (some s.tn.active) w syn).queueWb w syn

def State.scrubWords (s : State) : List Nat → State
  | [] => s
  | w :: r => (s.scrubWord w).scrubWords r

/-- The words of the line that a bank's scrub pointer names (R277). -/
def State.pointedWords (s : State) (bank : Nat) : List Nat :=
  (upTo 8).map fun i => 8 * (vecGet s.spad.ptr bank 0 * 64 + bank) + i

/-- A visit of a bank's line ends: the pointer advances, and a pass completes when every bank's pointer has wrapped (R277,
Table 10.5). -/
def State.advanceScrub (s : State) (bank : Nat) : State :=
  let row := vecGet s.spad.ptr bank 0
  let lines := s.bankRows * 64
  let line := row * 64 + bank
  let gap := s.tb.runNs - s.spad.lastVisit lines line
  let s := s.modHealth fun h => { h with longest := if h.longest.toNat < gap then satAdd (0 : W32) gap else h.longest }
  let wraps := decide (s.bankRows ≤ row + 1)
  let wrapped := if wraps then s.spad.wrapped ||| (1 <<< bank) else s.spad.wrapped
  let s := s.modSpad fun p =>
    { p with visits := sparseSet 0 p.visits line s.tb.runNs, ptr := vecModify p.ptr bank fun _ => if wraps then 0 else row + 1,
             wrapped := if wrapped == BitVec.allOnes 64 then 0 else wrapped }
  if wrapped == BitVec.allOnes 64 then
    s.modHealth fun h => { h with passes := satAdd h.passes 1, passGc := s.gc }
  else s

def State.advanceScrubs (s : State) : List Nat → State
  | [] => s
  | b :: r => (s.advanceScrub b).advanceScrubs r

/-- A scrub visit in each of some banks, all in one cycle (R277). -/
def State.scrubBanks (s : State) (banks : List Nat) : State :=
  (s.scrubWords (s.byCode (banks.map s.pointedWords).flatten)).advanceScrubs banks

/-- P of R278 in ns. -/
def State.stealPeriod (s : State) : Nat := if s.bankRows = 0 then 0 else 110592000 / s.bankRows

/-- The longest interval since a visit that now ends, over all lines (R279, R281). -/
def State.longestGap (s : State) : Nat :=
  let lines := s.bankRows * 64
  let since := s.tb.runNs - sparseGet 0 s.spad.visits lines
  let own := s.spad.visits.filter fun v => decide (v.1 < lines)
  if own.length < lines then since else own.foldl (fun m v => max m (s.tb.runNs - v.2)) 0

def nextMultiple (p n : Nat) : Nat := if p = 0 then n else (n + p - 1) / p * p

/-- Steals that fell due while none could be taken are dropped: after a halt, and after a clear that satisfies them (R278, R281). -/
def State.dropSteals (s : State) : State :=
  if s.gc.toNat < s.spad.nextSteal.toNat then s
  else s.modSpad fun p => { p with nextSteal := BitVec.ofNat 64 (nextMultiple s.stealPeriod (s.gc.toNat + 1)) }

/-- The longest interval between two visits, with those that a clear ends now (R279). -/
def State.noteLongest (s : State) : State :=
  let gap := s.longestGap
  s.modHealth fun h => { h with longest := if h.longest.toNat < gap then satAdd (0 : W32) gap else h.longest }

/-- Every line written with zero data and correct check bits, a visit of every line; lines listed as failing twice become poison
(R279, R281). -/
def State.clearScratchpad (s : State) (failed : List Nat) : State :=
  let words := (failed.map fun l => (upTo 8).map fun i => 8 * l + i).flatten
  let lines := s.bankRows * 64
  s.modSpad fun p =>
    { p with mem := [], synd := words.foldl (fun m w => sparseSet 0 m w 0xFF) [], wb := [], ptr := Vector.replicate 64 0
             visits := if s.tb.runNs = 0 then [] else [(lines, s.tb.runNs)] }

/-! ### The other protected structures (R404): 1 Till, 2 row-state table, 3 pre-image buffer, 4 curve slots, 5 settlement buffer -/

/-- What a syndrome of the (39,32) code says of a Till cell. -/
def classifyTill (s : Byte) : Syndrome :=
  if s = 0 then .clean
  else if popcount8 s.toNat = 1 then .checkBit
  else match findIdx' (· == s.toNat) (((upTo 128).filter fun n => popcount8 n == 3).take 32) with
    | some j => .dataBit j
    | none => .other

/-- The entry, line or slot that a codeword belongs to. -/
def codePlace (n key : Nat) : Nat := if n = 1 then key / 256 else if n = 2 then key / 16 else key / 8192

def State.codeErrors (s : State) (n : Nat) : List (Nat × Byte) :=
  if n = 1 then s.st.tillSynd else if n = 2 then s.st.rowSynd else s.st.curveSynd

/-- Bytes with one bit flipped. -/
def flipBit (bs : List Byte) (i j : Nat) : List Byte := listUpdate (i + j / 8) (fun b => b ^^^ (1 <<< (j % 8))) bs

def invalidateCurve (gc : Gc) (v : Curve) : Curve := if v.st = .valid then { v with st := .invalidated, gcLast := gc } else v

/-- A codeword as its reader leaves it: corrected in the store (DESIGN CHOICE, log 83), or its place poisoned (Table 15.3). -/
def State.settleCode (s : State) (n key : Nat) (x : Syndrome) : State :=
  s.modSt fun st =>
    let bad := x.bad
    if n = 1 then
      { st with
        tillSynd := sparseSet 0 st.tillSynd key 0, tillBad := if bad then st.tillBad ++ [key / 256] else st.tillBad
        till := match x with | .dataBit j => sparseSet 0 st.till key (sparseGet 0 st.till key ^^^ (1 <<< j)) | _ => st.till }
    else if n = 2 then
      { st with
        rowSynd := sparseSet 0 st.rowSynd key 0, rowBad := if bad then st.rowBad ++ [key / 16] else st.rowBad
        rowTab := match x with
          | .dataBit j => Memory.write st.rowTab (8 * key + j / 8) (Memory.read st.rowTab (8 * key + j / 8) ^^^ (1 <<< (j % 8)))
          | _ => st.rowTab }
    else
      { st with
        curveSynd := sparseSet 0 st.curveSynd key 0
        curves := vecModify st.curves (key / 8192) fun v => match x with
          | .dataBit j => { v with image := flipBit v.image (8 * (key % 8192)) j }
          | _ => if bad then invalidateCurve s.gc v else v }

/-- The codewords of some places of a structure that no reader can correct: structure, place, syndrome. -/
def State.badCodes (s : State) (n : Nat) (places : List Nat) : List (Nat × Nat × Byte) :=
  ((s.codeErrors n).filter fun e => places.contains (codePlace n e.1) && (if n = 1 then classifyTill e.2 else classify e.2).bad).map
    fun e => (n, codePlace n e.1, e.2)

/-- A corrected or an uncorrectable error of a structure, counted and, when corrected, logged (R404, R450). -/
def State.codeEvent (s : State) (n addr : Nat) (tag : W16) (ctx : Option (BitVec 3)) (syn : Byte) (x : Syndrome) : State :=
  if x.correctable then
    ((s.modFt fun f => { f with corrected := satAdd f.corrected 1 }).note fun y =>
      { y with corrected := satAdd y.corrected 1 }).logLimited (.structure n) cECCCE tag ctx fun k => eccDetail addr n syn 0 k.toNat
  else if x.bad then s.modFt fun f => { f with uncorr := satAdd f.uncorr 1 }
  else s

/-- The codewords of some entries, lines or slots read: every error in them takes its effect. -/
def State.readCodes (s : State) (n : Nat) (tag : W16) (ctx : Option (BitVec 3)) (places : List Nat) : List (Nat × Byte) → State
  | [] => s
  | e :: es =>
    if places.contains (codePlace n e.1) then
      let x := if n = 1 then classifyTill e.2 else classify e.2
      ((s.settleCode n e.1 x).codeEvent n (codePlace n e.1) tag ctx e.2 x).readCodes n tag ctx places es
    else s.readCodes n tag ctx places es

/-- The read of Till entries, row-state lines or curve slots by a command. -/
def State.readStructure (s : State) (n : Nat) (tag : W16) (ctx : Option (BitVec 3)) (places : List Nat) : State :=
  if (s.codeErrors n).isEmpty then s else s.readCodes n tag ctx places (s.codeErrors n)

end Sys2Proof.Machine
end

