-- ==== Sys2Proof/Machine/Fetch.lean ====
section
/-! DEFINITION. The read stage: which words a beat reads, the elements it brings to S2, and what a beat waits for (R68, R73,
R77, R84, R88 to R92, R97, R136, R150, R203, R273, R329). -/
namespace Sys2Proof.Machine
open Sys2Proof

/-! ### Where operands lie -/

/-- The roll operands of a command in flight with their slots (R299, R300). -/
def State.places (s : State) (c : Inflight) (m : Cmd) : List (Role × RollPlace) :=
  (m.rollOps.zip (s.stream.claims.filter fun x => x.tag == c.tag)).map fun x =>
    let r := s.roll x.1.2.1.slot
    (x.1.1, ⟨r.base.toNat, r.slotb.toNat, r.nslot.toNat, x.2.first.toNat, r.moved⟩)

def placeOf (ps : List (Role × RollPlace)) (p : Role) : Option RollPlace := (ps.find? fun x => x.1 == p).map fun x => x.2

/-- Address and bytes of an element, or of the byte that holds it. -/
def elemSpan (d : Desc) (p : Option RollPlace) (r k : Nat) : Nat × Nat := (elemAddr d p r k, if d.f.bits = 4 then 1 else d.size)

/-- The stored code of an element (R21, R23). -/
def State.codeAt (s : State) (d : Desc) (p : Option RollPlace) (r k : Nat) : Nat :=
  let e := elemSpan d p r k
  let v := leNat (s.spad.readBytes e.1 e.2)
  if d.f.bits = 4 then (if k % 2 = 0 then v % 16 else v / 16) else v

/-- `n` bytes of a row of `U8` elements (R22, R327). -/
def Spad.readRow (p : Spad) (d : Desc) (pl : Option RollPlace) (r n : Nat) : List Byte :=
  if d.estride = 0 then p.readBytes (rowBase d pl r) n else (upTo n).map fun k => p.readByte (elemAddr d pl r k)

/-- The scale byte of an element's block (R26). -/
def State.scaleAt (s : State) (d : Desc) (p : Option RollPlace) (r k : Nat) : Nat :=
  if d.f.isBlock then (s.spad.readByte (scaleAddr d p r (k / 32))).toNat else 0

/-- S1 of a stored element (R29, R30). -/
def State.decodeAt (s : State) (d : Desc) (p : Option RollPlace) (t : W32) (r k : Nat) : W32 × Flags :=
  let c := s.codeAt d p r k
  if d.f.isBlock then decodeBlock d.f c (s.scaleAt d p r k) t else decodePlain d.f c t

/-- A raw 32-bit word of an operand (TGT, POS, FREQ). -/
def State.wordAt (s : State) (d : Desc) (r k : Nat) : W32 := BitVec.ofNat 32 (s.codeAt d none r k)

/-- A MASK bit (Table 3.3). -/
def State.maskBit (s : State) (d : Desc) (r k : Nat) : Bool := (s.spad.readByte (rowBase d none r + k / 8)).getLsbD (k % 8)

/-! ### Elements -/

/-- `NORM` WHOLE keeps its rows in the Till (R203). -/
def Cmd.staged (m : Cmd) (g : Geo) : Bool := m.op == .norm && m.rc.nph == 0 && decide (g.bpr ≤ 64 - m.rc.tsl)

/-- An element of X or Y at S1: none where an accumulator position is invalid. `acc` is the presentation. -/
def State.source (s : State) (acc : List (Option W32)) (d : Desc) (p : Option RollPlace) (t : W32) (till pos r k : Nat) :
    Option (W32 × Flags) :=
  match d.kind with
  | .till => some (decodePlain d.f (sparseGet 0 s.st.till (256 * (d.slot + till) + pos)).toNat t)
  | .acc => (acc.getD pos none).map fun w => decodePlain d.f w.toNat t
  | _ => some (s.decodeAt d p t r k)

/-- The keep bit of MSRC at position `k` of row `r` (R84, R193). -/
def State.keepBit (s : State) (m : Cmd) (rg : Regs) (r k : Nat) : Bool :=
  let rc := m.rc
  let q0 := if rc.qbl = 0 then 0 else (vecGet rg.len (rc.qbl - 1) 0).toNat
  (rc.msrc == 0 || rc.msrc == 2 || s.maskBit (m.get .mask) r k)
    && (rc.msrc == 0 || rc.msrc == 1 || generatedKeep rc.gmk rg (m.ixBase rg + k) (q0 + r))

/-- Whether a beat is the first of a row in the command. -/
def Geo.startsRow (g : Geo) (b : Nat) (sg : Seg) : Bool := sg.k == 0 && g.pass b == 0

/-- The broadcast operands and their places in the latch. -/
def bcastRoles : List (Role × Nat) := [(.row, 0), (.col, 1), (.gam, 2), (.bet, 3)]

/-- The groups of broadcast values that a beat loads (R73): a row of at most 256 values ahead of beat 0, columns 256 rows at a
time as the rows are reached. -/
def bcastLoads (rg : Regs) (g : Geo) (b : Nat) (p : Role) (d : Desc) : List (Nat × Nat) :=
  if !(bcastRoles.any fun x => x.1 == p) then []
  else if d.kind = .brow then (if b = 0 ∧ d.len rg ≤ 256 then [(0, d.len rg)] else [])
  else if d.kind = .bcol then
    ((g.segs b).filter fun sg => g.startsRow b sg && sg.row % 256 == 0).map fun sg => (sg.row, min 256 (d.rows - sg.row))
  else []

/-- The values that a beat puts into the broadcast latch. -/
def State.bcastLatch (s : State) (c : Inflight) (m : Cmd) (g : Geo) (b : Nat) : List Bcast :=
  (bcastRoles.map fun x => match m.role? x.1 with
    | none => []
    | some d => (bcastLoads c.regs g b x.1 d).map fun l =>
      ({ role := x.2, first := l.1
         codes := (upTo l.2).map fun i => if d.kind = .brow then s.codeAt d none 0 i else s.codeAt d none (l.1 + i) 0 } : Bcast)).flatten

/-- The latch after a load: the group before the one loaded stays for the rows of a beat that straddles them. -/
def latchJoin (old new : List Bcast) : List Bcast :=
  (old.filter fun x => !(new.any fun y => y.role == x.role && decide (x.first + 256 < y.first))) ++ new

/-- A latched value. -/
def latched (l : List Bcast) (role i : Nat) : Nat :=
  match l.find? fun x => x.role == role && decide (x.first ≤ i) && decide (i < x.first + x.codes.length) with
  | some x => x.codes.getD (i - x.first) 0
  | none => 0

/-- A broadcast vector's element from the latch, or from the scratchpad for a row of more than 256; the constant of an absent
one. -/
def State.broadcast (s : State) (l : List Bcast) (m : Cmd) (rg : Regs) (p : Role) (role : Nat) (absent : W32) (r k : Nat) :
    W32 × Flags :=
  match m.role? p with
  | none => (absent, {})
  | some d =>
    match d.kind with
    | .brow => if d.len rg ≤ 256 then decodePlain d.f (latched l role k) one32 else s.decodeAt d none one32 0 k
    | .bcol => decodePlain d.f (latched l role r) one32
    | _ => (absent, {})

/-- The word of a plane of SIN (R329). -/
def State.plane (s : State) (m : Cmd) (ps : List (Role × RollPlace)) (i r k : Nat) : W32 × Flags :=
  let d := m.get .sin
  let d := if 0 < i ∧ m.rc.mfmt then { d with fmt := 2 } else d
  s.decodeAt d (placeOf ps .sin) one32 (i * (m.get .g).rows + r) k

/-- One position of a beat after S1. It is invalid where X or Y is an accumulator position whose valid bit is clear (R84, R91).
Under `MACT` = FILL the S1 decode flags of an X element that the fill value replaces are not raised (DESIGN CHOICE, log 50). -/
def State.element (s : State) (c : Inflight) (m : Cmd) (g : Geo) (ps : List (Role × RollPlace)) (acc : List (Option W32))
    (b : Nat) (sg : Seg) (i : Nat) : Elem :=
  let rc := m.rc
  let k := sg.k + i
  let r := sg.row
  let pos := sg.pos + i
  let base : Elem := { row := r, k := k, pos := pos, valid := true, keep := true, mark := false, x := 0, y := 0, rv := 0
                       cv := 0, fl := {} }
  if m.op = .opt then
    let w := s.plane m ps 0 r k
    let mo := s.plane m ps 1 r k
    let v := if rc.alg = 0 then s.plane m ps 2 r k else (0, {})
    let gr := s.decodeAt (m.get .g) (placeOf ps .g) one32 r k
    { base with x := w.1, y := mo.1, rv := v.1, cv := gr.1, fl := ((w.2.or mo.2).or v.2).or gr.2 }
  else if m.op = .assay then
    let d := m.get .x
    { base with x := BitVec.ofNat 32 (s.codeAt d none r k), rv := BitVec.ofNat 32 (s.scaleAt d none r k) }
  else
    let d := m.get .x
    let later := decide (0 < g.pass b) && m.staged g
    let x := if later then
        (if d.kind = .acc ∧ !(c.latch.getD (pos / 32) 0).getLsbD (pos % 32) then none
         else some (sparseGet 0 s.st.till (256 * (rc.tsl + b % g.bpr) + pos), ({} : Flags)))
      else s.source acc d (placeOf ps .x) (tensorScale rc rc.tsx) (g.tillIdx b) pos r k
    let y := match m.role? .y with
      | some dy => s.source acc dy (placeOf ps .y) (tensorScale rc rc.tsy) (g.tillIdx b) pos r k
      | none => some (0, {})
    let keep := m.expands || s.keepBit m c.regs r k
    let fill := !keep && rc.mact == 0
    let xv := x.getD (0, {})
    let yv := y.getD (0, {})
    let rope3 := m.op == .rope && rc.psrc
    let one := rope3 && (m.get .pos).len c.regs == 1
    let gam := m.op == .norm && g.pass b == g.passes - 1
    let rv := if rope3 then (s.wordAt (m.get .pos) r (if one then 0 else 1), {})
      else if gam then s.broadcast c.bcast m c.regs .gam 2 one32 r k else s.broadcast c.bcast m c.regs .row 0 0 r k
    let cv := if rope3 then (s.wordAt (m.get .pos) r (if one then 0 else 2), {})
      else if gam then s.broadcast c.bcast m c.regs .bet 3 negZero r k else s.broadcast c.bcast m c.regs .col 1 0 r k
    let e : Elem :=
      { base with
        valid := x.isSome && y.isSome, keep := keep, mark := rc.sseg && s.maskBit (m.get .mask) r k
        x := if fill then fillPattern rc else xv.1
        y := if rope3 then s.wordAt (m.get .pos) r 0 else yv.1, rv := rv.1, cv := cv.1 }
    if e.active rc then { e with fl := (((if fill then {} else xv.2).or yv.2).or rv.2).or cv.2 } else e

/-- The positions of a beat that segments cover, in position order. -/
def State.beatElems (s : State) (c : Inflight) (m : Cmd) (g : Geo) (ps : List (Role × RollPlace)) (acc : List (Option W32))
    (b : Nat) : List Elem :=
  ((g.segs b).map fun sg => (upTo sg.len).map fun i => s.element c m g ps acc b sg i).flatten

/-! ### The words a beat reads (R267, R275) -/

/-- Words of elements k to k + n − 1 of a row, scales included. -/
def spanWords (d : Desc) (p : Option RollPlace) (mask : Bool) (r k n : Nat) : List Nat :=
  if n = 0 then []
  else
    let codes := if mask then wordsOf (rowBase d p r + k / 8) ((k + n - 1) / 8 - k / 8 + 1)
      else if d.estride = 0 ∧ !d.trn then
        let a := elemAddr d p r k
        wordsOf a (elemAddr d p r (k + n - 1) + (elemSpan d p r k).2 - a)
      else ((upTo n).map fun i => let e := elemSpan d p r (k + i); wordsOf e.1 e.2).flatten
    codes ++ (if d.f.isBlock then wordsOf (scaleAddr d p r (k / 32)) ((k + n - 1) / 32 - k / 32 + 1) else [])

/-- The MASK bytes of a row of l bits that belong to a segment of a beat under EXPAND: a byte counts as the position p of its first bit,
which stands at input position ⌊p·C/l⌋ (R267). -/
def maskBytes (g : Geo) (l : Nat) (sg : Seg) : List Nat :=
  (upTo (ceilDiv l 8)).filter fun j => decide (sg.k ≤ 8 * j * g.c / l) && decide (8 * j * g.c / l < sg.k + sg.len)

/-- The words of one operand that a beat reads. -/
def operandWords (m : Cmd) (c : Inflight) (g : Geo) (ps : List (Role × RollPlace)) (b : Nat) (p : Role) (d : Desc) : List Nat :=
  let l := d.len c.regs
  let pl := placeOf ps p
  let segs := g.segs b
  let stored := d.kind == .spad || d.kind == .roll
  let latched := p == .img || p == .hp || p == .freq || (d.kind == .brow && decide (l ≤ 256))
  let starts := segs.filter fun sg => g.startsRow b sg
  if latched then (if b = 0 then spanWords d none false 0 0 l else [])
  else if d.kind = .bcol then
    ((bcastLoads c.regs g b p d).map fun x =>
      ((upTo x.2).map fun i => spanWords d none false (x.1 + i) 0 1).flatten).flatten
  else if d.kind = .brow then
    (if g.pass b = g.passes - 1 then (segs.map fun sg => spanWords d none false 0 sg.k sg.len).flatten else [])
  else if !stored then []
  else if d.trn then
    (if m.staged g && decide (0 < g.pass b) then []
     else ((segs.filter fun sg => sg.k == 0 && sg.row % 16 == 0).map fun sg =>
      ((upTo l).map fun k => wordsOf (elemAddr d none sg.row k) (d.size * min 16 (d.rows - sg.row))).flatten).flatten)
  else match p with
    | .rs => if m.rc.ld then (starts.map fun sg => spanWords d pl false sg.row 0 l).flatten else []
    | .tgt | .pos => (starts.map fun sg => spanWords d pl false sg.row 0 l).flatten
    | .in0 | .in1 => (segs.map fun sg => spanWords d pl false sg.row 0 l).flatten
    | .mask =>
      if m.expands then (segs.map fun sg => ((maskBytes g l sg).map fun j => spanWords d pl true sg.row (8 * j) 1).flatten).flatten
      else (segs.map fun sg => spanWords d pl true sg.row sg.k sg.len).flatten
    | .sin =>
      ((upTo (if m.rc.alg = 0 then 3 else 2)).map fun i =>
        let d := if 0 < i ∧ m.rc.mfmt then { d with fmt := 2 } else d
        (segs.map fun sg => spanWords d pl false (i * (m.get .g).rows + sg.row) sg.k sg.len).flatten).flatten
    | .x => if 0 < g.pass b ∧ m.staged g then [] else (segs.map fun sg => spanWords d pl false sg.row sg.k sg.len).flatten
    | .y | .g => (segs.map fun sg => spanWords d pl false sg.row sg.k sg.len).flatten
    | _ => []

/-- All words a beat reads, in descriptor order; a word that the operand's previous beat read comes with that beat's line
(R267). -/
def beatWords (m : Cmd) (c : Inflight) (g : Geo) (ps : List (Role × RollPlace)) (b : Nat) : List Nat :=
  (m.roles.map fun x =>
    let old := if b = 0 then [] else operandWords m c g ps (b - 1) x.1 x.2
    (operandWords m c g ps b x.1 x.2).dedup.filter fun w => !old.contains w).flatten

/-! ### Row-state lines -/

/-- First line and lines of row r of a command (R144, R145). -/
def Inflight.rowLine (c : Inflight) (m : Cmd) (r : Nat) : Nat × Nat :=
  let sp := c.rowSpan m
  (sp.1 + r * sp.2.1, sp.2.1)

def State.loadRow (s : State) (line n : Nat) : RowSt :=
  if (upTo n).any fun i => s.st.rowBad.contains (line + i) then RowSt.ofBytes (List.replicate (128 * n) 0)
  else RowSt.ofBytes (s.rowLines line n)

/-- Bytes of lines written; the lines are no longer poisoned (Table 15.3). -/
def State.setLines (s : State) (line : Nat) (bs : List Byte) : State :=
  let n := bs.length / 128
  s.modSt fun st =>
    { st with rowTab := Memory.writeN st.rowTab (128 * line) bs
              rowSynd := st.rowSynd.filter fun e => decide (e.1 / 16 < line) || decide (line + n ≤ e.1 / 16)
              rowBad := st.rowBad.filter fun l => decide (l < line) || decide (line + n ≤ l) }

def State.storeRow (s : State) (line : Nat) (r : RowSt) : State := s.setLines line r.bytes

/-- Whether an older command still has an update of lines [a, a + n) to make: of a row not yet done, for a `SETTLE` of one not yet
settled, and of every row it has while its fault is still to be undone (R150, R216). -/
def Inflight.updates (o : Inflight) (a n : Nat) : Bool :=
  let m := o.cmd
  let sp := o.rowSpan m
  let from_ (lo : Nat) : Bool := decide (a < sp.1 + sp.2.1 * sp.2.2) && decide (lo < a + n)
  if o.refused then false
  else if m.op = .settle ∧ o.fault.isNone then
    o.settle.zipIdx.any fun x => !x.1.settled && decide (a < sp.1 + (x.2 + 1) * sp.2.1) && decide (sp.1 + x.2 * sp.2.1 < a + n)
  else ((m.op.rows && !m.reads) || m.op == .settle) && from_ (if o.fault.isSome then sp.1 else sp.1 + o.rowsDone * sp.2.1)

/-- Rows whose last beat has read its state. -/
def Inflight.rowsRead (o : Inflight) (g : Geo) : Nat :=
  if g.c = 0 then g.rows else ((upTo g.rows).filter fun r => decide (g.lastBeat r < o.started - o.beats.length)).length

/-- Whether an older command has still to read lines [a, a + n): the slots of a command that only reads them, the source of a
`SETTLE` until its row is settled (R150, R215). -/
def Inflight.readsLines (o : Inflight) (a n : Nat) : Bool :=
  let m := o.cmd
  let meets (lo hi : Nat) : Bool := decide (a < hi) && decide (lo < a + n)
  if m.op = .settle then
    let w := bitsOf m.chain 82 80 * slotLines o.modes.strict
    let lo := bitsOf m.chain 43 32 * slotLines o.modes.strict
    o.fault.isNone && !m.rc.ld && o.settle.zipIdx.any fun x => !x.1.settled && meets (lo + x.2 * w) (lo + (x.2 + 1) * w)
  else if m.takesSlots && m.reads && (o.fault.isNone || !o.beats.isEmpty) then
    let sp := o.rowSpan m
    meets (sp.1 + o.rowsRead (m.geo o.regs) * sp.2.1) (sp.1 + sp.2.1 * sp.2.2)
  else false

/-- Row results a command makes: every row it updates; with C = 0 also the rows that expand writes (R86). -/
def Cmd.rowSteps (m : Cmd) (r : Regs) : Nat :=
  if m.op.rows && !m.reads then m.main.rows
  else if m.expands && (m.op == .fn || m.op == .cvt) && (m.geo r).c == 0 then m.main.rows
  else 0

/-! ### Holds before the read stage (R89, R97, R150, R151) -/

/-- The Till entries a command reads and writes in all its beats, with the beat. -/
def Cmd.tillReads (m : Cmd) (g : Geo) (b : Nat) : List Nat :=
  ((m.roles.filter fun x => x.2.kind == .till && x.1 != .out).map fun x => x.2.slot + g.tillIdx b)
    ++ on (m.staged g && decide (0 < g.pass b)) (m.rc.tsl + b % g.bpr)

/-- The entries of a Till output. -/
def Cmd.tillOutEntries (m : Cmd) (r : Regs) : List Nat :=
  ((m.roles.filter fun x => x.2.kind == .till && x.1 == .out).map fun x => (upTo (m.outGeo r).entries).map (· + x.2.slot)).flatten

/-- The entries that a beat writes; the last beat of a compressed row writes them all (R85). -/
def Cmd.tillWrites (m : Cmd) (r : Regs) (g : Geo) (b : Nat) : List Nat :=
  (if m.expands then m.tillOutEntries r
   else ((m.roles.filter fun x => x.2.kind == .till && x.1 == .out).map fun x =>
    if !m.compresses then [x.2.slot + g.tillIdx b]
    else if b % g.bpr = g.bpr - 1 then (upTo g.bpr).map fun i => x.2.slot + g.tillIdx b - i else []).flatten)
    ++ on (m.staged g && g.pass b == 0) (m.rc.tsl + b % g.bpr)

/-- Whether a beat of a command is written. -/
def Inflight.beatWritten (c : Inflight) (b : Nat) : Bool :=
  decide (b < c.started) && !(c.beats.any fun x => x.idx == b) && !(c.hard.any fun x => x.idx == b)

def Inflight.beatPending (c : Inflight) (b : Nat) : Bool := !c.beatWritten b && (c.fault.isNone || decide (b < c.started))

/-- Whether an older command holds a beat that reads entries `rd` and writes entries `wr` (R89). -/
def Inflight.tillHolds (o : Inflight) (rd wr : List Nat) : Bool :=
  let m := o.cmd
  if o.refused then false
  else if !(m.op == .norm && m.rc.nph == 0) && !(m.roles.any fun x => x.2.kind == .till) then false
  else
    let g := m.geo o.regs
    ((upTo g.beats).any fun b =>
      (o.beatPending b && (m.tillWrites o.regs g b).any fun e => rd.contains e || wr.contains e)
        || (m.tillReads g b).any fun e => wr.contains e)
      || (g.beats == 0 && o.fault.isNone && decide (o.rowsDone < m.rowSteps o.regs)
        && (m.tillOutEntries o.regs).any fun e => rd.contains e || wr.contains e)

/-- The commands older than the one with a tag, oldest first. -/
def State.olderThan (s : State) (tag : W16) : List Inflight := s.stream.inflight.takeWhile fun c => c.tag != tag

/-- Whether `need` more pre-images would exceed the buffer, which the commands in flight share (R151, log 23). -/
def State.preFull (s : State) (need : Nat) : Bool :=
  decide (0 < need) && decide (512 < s.stream.inflight.foldl (fun n o => n + o.pre.length) need)

/-- Whether a beat waits for the lines of its rows or for the pre-image buffer (R150, R151). -/
def State.rowHeld (s : State) (c : Inflight) (m : Cmd) (g : Geo) (b : Nat) : Bool :=
  let older := s.olderThan c.tag
  let starts := (g.segs b).filter fun sg => g.startsRow b sg
  let lines := starts.map fun sg => c.rowLine m sg.row
  (m.op.rows && lines.any fun l => older.any fun o => o.updates l.1 l.2 || (!m.reads && o.readsLines l.1 l.2))
    || (m.op.rows && !m.reads && !m.rc.opn && s.preFull (lines.foldl (fun n l => n + l.2) 0))

/-- Whether a beat waits for the Till (R89, R203). -/
def State.tillHeld (s : State) (c : Inflight) (m : Cmd) (g : Geo) (b : Nat) : Bool :=
  let rd := m.tillReads g b
  let wr := m.tillWrites c.regs g b
  let own := m.staged g && decide (0 < g.pass b) && c.beats.any fun x => decide (x.idx + g.bpr ≤ b) && g.pass x.idx == 0
  own || (!(rd.isEmpty && wr.isEmpty) && (s.olderThan c.tag).any fun o => o.tillHolds rd wr)

/-- Whether the next row of a command with C = 0 waits for its lines or for the pre-image buffer (R150, R151). -/
def State.emptyRowHeld (s : State) (c : Inflight) : Bool :=
  let l := c.rowLine c.cmd c.rowsDone
  c.cmd.op.rows && ((s.olderThan c.tag).any (fun o => o.updates l.1 l.2 || o.readsLines l.1 l.2) || (!c.cmd.rc.opn && s.preFull l.2))

/-- Whether a beat waits for the Till, for its rows' lines or for the pre-image buffer. -/
def State.beatHeld (s : State) (c : Inflight) (m : Cmd) (g : Geo) (b : Nat) : Bool := s.tillHeld c m g b || s.rowHeld c m g b

/-! ### Roll slots (R301) -/

/-- The slots of its claims that a beat needs: claim and number of slots. -/
def State.slotsNeeded (s : State) (c : Inflight) (m : Cmd) (g : Geo) (b : Nat) : List (Claim × Nat) :=
  let rows := (g.segs b).map fun sg => sg.row
  let last := rows.foldl max 0
  ((s.stream.claims.filter fun x => x.tag == c.tag).zip m.rollOps).map fun x =>
    let rps := x.2.2.1.rps (s.roll x.1.roll).slotb.toNat
    (x.1, if rps = 0 then 0 else last / rps + 1)

/-- Take slots for a claim until it has `n`; the flag is false while it must wait. -/
def State.acquireUpTo (s : State) (c : Claim) (n : Nat) : Nat → State × Bool
  | 0 => (s, true)
  | f + 1 =>
    if n ≤ c.acquired then (s, true)
    else match s.acquire c with
      | some t => t.acquireUpTo { c with acquired := c.acquired + 1, since := none } n f
      | none =>
        if c.since.isSome then (s, false)
        else (s.modClaim c fun c => { c with since := some s.tb.cycle }, false)

def State.acquireAll (s : State) : List (Claim × Nat) → State × Bool
  | [] => (s, true)
  | x :: xs =>
    let r := s.acquireUpTo x.1 x.2 x.2
    if r.2 then r.1.acquireAll xs else r

end Sys2Proof.Machine
end

