-- ==== Sys2Proof/Machine/Optim.lean ====
section
/-! DEFINITION. The optimiser steps of R331: constants, AdamW and momentum SGD on one element. -/
namespace Sys2Proof.Machine
open Sys2Proof

/-- A rounded product. -/
def mulRn (a b : W32) : W32 × Flags :=
  let p := vmul (f32Val a) (f32Val b)
  let o := rnF32 p.1
  (o.1, (p.2.or o.2).or { iv := f32SNaN a || f32SNaN b })

/-- A rounded sum. -/
def addRn (a b : W32) : W32 × Flags :=
  let s := vadd false (f32Val a) (f32Val b)
  let o := rnF32 s.1
  (o.1, (s.2.or o.2).or { iv := f32SNaN a || f32SNaN b })

def neg32 (w : W32) : W32 := w ^^^ 0x80000000

/-- z of a function without a hard case: its value and flags (R102). -/
def zOf (code : Nat) (u : W32) : W32 × Flags :=
  let f := fnValue code (f32Val u)
  let z := fastZ code u f
  (z, f.fl.or (zFlags f z))

/-- n·2^(−e) with its numerator cut to at most 1,300 bits. -/
def cutPow (x : Nat × Nat) : Nat × Nat :=
  let b := Nat.log2 x.1
  if 1300 < b then (x.1 / 2 ^ (b - 1300), x.2 - (b - 1300)) else x

/-- b^s by squaring, from the top bit of the 32-bit exponent down (log 11). -/
def powLoop (b : Nat × Nat) (s : Nat) : Nat → Nat × Nat → Nat × Nat
  | 0, acc => acc
  | k + 1, acc =>
    let acc := cutPow (acc.1 * acc.1, acc.2 + acc.2)
    powLoop b s k (if s.testBit k then cutPow (acc.1 * b.1, acc.2 + b.2) else acc)

/-- b^STEP of a number in [0, 1); below 2^-400 it acts as that bound, which no rounding of 1/(1 − b^STEP) tells apart. -/
def powQ (b : Rat) (s : Nat) : Rat :=
  if b.num = 0 then 0
  else
    let r := powLoop (b.num.natAbs, Nat.log2 b.den) s 32 (1, 0)
    if Nat.log2 r.1 + 400 < r.2 then pow2 (-400) else mkRat r.1 (2 ^ r.2)

/-- RN_F32(1 / (1 − b^STEP)). -/
def biasFix (b : W32) (step : Nat) : W32 × Flags := rnF32 (.fin (1 / (1 - powQ (f32Val b).toRat step)))

/-- The constants of AdamW: c1, c2, o1, o2, dk, with the flags of forming them (R331). -/
def adamConstants (eta b1 b2 lam : W32) (step : Nat) : List W32 × Flags :=
  let c1 := biasFix b1 step
  let c2 := biasFix b2 step
  let o1 := addRn one32 (neg32 b1)
  let o2 := addRn one32 (neg32 b2)
  let el := mulRn eta lam
  let dk := addRn one32 (neg32 el.1)
  ([c1.1, c2.1, o1.1, o2.1, dk.1], ((((c1.2.or c2.2).or o1.2).or o2.2).or el.2).or dk.2)

/-- A step's `F32` result as S6 takes it: the exact value where the rounding overflows or vanishes, so that R52 and R61 apply to
it, else the rounded value (R332, DEDUCED, log 79). -/
def stepResult (v : Val) : Val :=
  match v, f32Val (rnF32 v).1 with
  | .fin q, .inf _ => .fin q
  | .fin q, .zero _ => .fin q
  | _, r => r

/-- An element of AdamW: w1, m1, v1 before their last rounding, and the flags. `hp` holds HP, then the constants. -/
def adamElement (hp : List W32) (w m v g : W32) : (Val × Val × Val) × Flags :=
  let p (i : Nat) : W32 := hp.getD i 0
  let g1 := mulRn g (p 5)
  let t1 := mulRn (p 10) g1.1
  let m1 := fmaRn (p 1) m t1.1
  let gg := mulRn g1.1 g1.1
  let t2 := mulRn (p 11) gg.1
  let v1 := fmaRn (p 2) v t2.1
  let vc := mulRn v1.1 (p 9)
  let sq := zOf 0x09 vc.1
  let dn := addRn sq.1 (p 3)
  let rc := zOf 0x07 dn.1
  let mc := mulRn m1.1 (p 8)
  let st := mulRn mc.1 rc.1
  let wd := mulRn w (p 12)
  let w1 := fmaRn (neg32 (p 0)) st.1 wd.1
  (((fmaExact false (neg32 (p 0)) st.1 wd.1).1, (fmaExact false (p 1) m t1.1).1, (fmaExact false (p 2) v t2.1).1),
    [g1.2, t1.2, m1.2, gg.2, t2.2, v1.2, vc.2, sq.2, dn.2, rc.2, mc.2, st.2, wd.2, w1.2].foldl Flags.or {})

/-- An element of momentum SGD: w1 and m1 before their last rounding. -/
def sgdElement (hp : List W32) (w m g : W32) : (Val × Val) × Flags :=
  let p (i : Nat) : W32 := hp.getD i 0
  let g1 := mulRn g (p 5)
  let t := fmaRn (p 4) w g1.1
  let m1 := fmaRn (p 1) m t.1
  let w1 := fmaRn (neg32 (p 0)) m1.1 w
  (((fmaExact false (neg32 (p 0)) m1.1 w).1, (fmaExact false (p 1) m t.1).1), ((g1.2.or t.2).or m1.2).or w1.2)

/-- The first HP element that fails the check at the latch (R330); a failing STEP names element 1, whose power it is. -/
def hpBad (alg step : Nat) (hp : List W32) : Option Nat :=
  let p (i : Nat) : W32 := hp.getD i 0
  let unit (w : W32) : Bool := decide (0 ≤ (f32Val w).toRat) && decide ((f32Val w).toRat < 1)
  let bad (i : Nat) : Bool :=
    !finite32 (p i) || (decide (6 ≤ i) && p i != posZero)
      || (if alg = 0 then
          (decide (1 ≤ i) && decide (i ≤ 2) && !unit (p i)) || (i == 3 && !decide (0 < (f32Val (p 3)).toRat))
            || (i == 1 && step == 0)
         else (i == 2 || i == 3) && p i != posZero)
  findIdx' bad (upTo 8)

end Sys2Proof.Machine
end

