-- ==== Sys2Proof/Machine/Flow.lean ====
section
/-! DEFINITION. What a segment of a beat does: row states, output items and write-back of every element command. -/
namespace Sys2Proof.Machine
open Sys2Proof

/-- What the work on a segment depends on beside its elements. -/
structure Flow where
  m     : Cmd
  regs  : Regs
  modes : ModeSet
  geo   : Geo
  /-- the image of the curve slot used -/
  img   : List Byte
  latch : List W32
  deriving DecidableEq, Repr

/-- A run of output elements: the operand with its format, the row it lies in, the row and first position of its indices
(R241, R332), and the items. -/
structure OutRun where
  role  : Role
  desc  : Desc
  row   : Nat
  irow  : Nat
  k     : Nat
  items : List Item
  second : Bool
  deriving DecidableEq, Repr

/-- What a segment gives. -/
structure SegOut where
  st   : Option RowSt
  outs : List OutRun
  /-- elements that compress or expand packs; none for an accumulator position that expand takes and does not write -/
  pack : List (Option S6In)
  /-- accumulator write-back: position and value -/
  back : List (Nat × W32)
  /-- write-back values that vanish and that saturate (R52, R61) -/
  vanish : Nat
  sat    : Nat
  /-- flags of elements that reach no output -/
  fl   : Flags
  pivx : Bool
  asv  : W64
  asn  : Nat
  /-- terms and row statistics that the precise pipe computes (R181, R201) -/
  precise : Nat
  /-- finite values that the tally takes, its addends (R157, R160, Table 16.6) -/
  added : Nat
  deriving DecidableEq, Repr

def SegOut.none : SegOut := { st := Option.none, outs := [], pack := [], back := [], vanish := 0, sat := 0, fl := {}, pivx := false, asv := 0, asn := 0, precise := 0, added := 0 }

def Flow.rm (x : Flow) : Rnd := x.m.rnd
def Flow.rdn (x : Flow) : Bool := x.m.rnd == .rdn
/-- Whether S2, S4 and the like round under `RDN` itself: a narrower output is rounded to odd first (R40, R78). -/
def Flow.outRdn (x : Flow) : Bool := x.rdn && (x.m.get .out).f == .f32
def Flow.index (x : Flow) (k : Nat) : W32 := BitVec.ofNat 32 (x.m.ixBase x.regs + k)

/-- S6's fields of a command (R57, R83, R241, R320). `OPT` has no immediates (Table 12.12), so its stream Σ is 0 under SIGS 1
and 2 as well (DESIGN CHOICE, log 80). -/
def Flow.egress (x : Flow) (d : Desc) (second : Bool) : Egress :=
  let rc := x.m.rc
  let ib := indexBase x.regs rc.ixs (if x.m.op = .opt ∨ x.m.op = .assay then x.geo.c else x.m.outLen x.regs)
  let sg : W32 := if rc.sigs = 1 then rc.imm0 else if rc.sigs = 2 then rc.imm1 else 0
  { fmt := d.f, fixed := if rc.scm && d.f.isBlock then some rc.scb else none
    rm := if x.m.op = .opt ∧ !second then .rne else x.rm
    nonsat := x.modes.nonsat, seed := x.modes.seed, sigma := if second then sg ^^^ 0x80000000 else sg
    ib := ib.1, ip := ib.2, fold := rc.aen, key := x.modes.key }

/-- An item of an exact result that rounds once. -/
def EOut.item (e : EOut) (fl : Flags) : Item :=
  .el { val := e.val, v := (rnF32 e.val).1, hand := match e.div with | some d => .quot d.1 d.2 | none => .once
        fl := fl.or e.fl, code := 0, u := 0 }

/-- A result handed to S6 for the intermediate of R40. -/
def exactItem (v : Val) (fl : Flags) : Item :=
  .el { val := v, v := (rnF32 v).1, hand := .exact, fl := fl, code := 0, u := 0 }

def Flow.outRun (x : Flow) (sg : Seg) (items : List Item) : List OutRun :=
  [{ role := .out, desc := x.m.get .out, row := sg.row, irow := sg.row, k := sg.k, items := items, second := false }]

/-- S2 of a softmax command's element: u rounded to nearest even (R189). -/
def Flow.soft (x : Flow) (e : Elem) : W32 × Flags :=
  let u := s2Rne x.m.rc e
  (u.1, e.fl.or u.2)

def Flow.active (x : Flow) (e : Elem) : Bool := e.active x.m.rc

/-- Items of the active elements of a segment, the others not written. -/
def Flow.items (x : Flow) (es : List Elem) (f : Elem → Item) : List Item := es.map fun e => if x.active e then f e else .skip

/-- The delivered values of a segment with the flags raised on the way (R82, R143). -/
def Flow.deliveries (x : Flow) (es : List Elem) : List (Dv × Flags) :=
  (es.filter x.active).map fun e =>
    let t := flowTap x.m.rc x.rm x.modes.nonsat x.img e
    ({ idx := x.index e.k, w := t.1, sq := x.m.rc.tap == 3 }, t.2)

/-- `FN` and `CVT`. -/
def Flow.element (x : Flow) (sg : Seg) (es : List Elem) : SegOut :=
  let s6 (e : Elem) : S6In := flowOut x.m.rc x.outRdn x.img e
  if x.m.expands || x.m.compresses then
    { SegOut.none with
      pack := if x.m.expands then es.map fun e => if x.active e then some (s6 e) else none
        else (es.filter fun e => x.active e && !e.removed x.m.rc).map fun e => some (s6 e) }
  else { SegOut.none with outs := x.outRun sg (x.items es fun e => .el (s6 e)) }

/-- `RED` and `SEL`. -/
def Flow.tally (x : Flow) (r : RowSt) (es : List Elem) : SegOut :=
  let ds := x.deliveries es
  { SegOut.none with
    st := some (r.tallySegment (ds.map fun d => d.1)), fl := orAll (ds.map fun d => d.2)
    added := (addends (ds.map fun d => d.1.val)).length }

/-- Outputs laid at the delivered positions. -/
def layOut : List Elem → (Elem → Bool) → List Item → List Item
  | [], _, _ => []
  | e :: es, act, its =>
    if act e then
      match its with
      | i :: r => i :: layOut es act r
      | [] => .skip :: layOut es act []
    else .skip :: layOut es act its

/-- `SCAN`; a row opened by the command starts a scan segment at its first element (R171). -/
def Flow.scan (x : Flow) (r : RowSt) (sg : Seg) (es : List Elem) : SegOut :=
  let ins := es.map fun e =>
    let t := flowTap x.m.rc x.rm x.modes.nonsat x.img e
    let d : ScanIn := { start := e.mark || (x.m.rc.opn && e.k == 0)
                        dv := if x.active e then some { idx := x.index e.k, w := t.1, sq := x.m.rc.tap == 3 } else none }
    (d, if x.active e then [t.2] else [])
  let o := r.scanSegment x.m.rc.excl (ins.map fun i => i.1)
  let fls := (ins.map fun i => i.2).flatten
  let its := (o.2.zip fls).map fun y => EOut.item { val := y.1.1, fl := y.1.2, pivx := false, div := none } y.2
  { SegOut.none with
    st := some o.1, outs := x.outRun sg (layOut es x.active its)
    added := (addends ((ins.filterMap fun i => i.1.dv).map Dv.val)).length }

/-- `SMXA`. -/
def Flow.smxa (x : Flow) (r : RowSt) (es : List Elem) : SegOut :=
  let us := (es.filter x.active).map x.soft
  let r := r.smxSegment (us.map fun u => u.1)
  { SegOut.none with
    st := some r, fl := orAll (us.map fun u => u.2), precise := termsRedone r.pivot (us.map fun u => u.1)
    added := (addends (us.map fun u => f32Val u.1)).length }

/-- The terms of a segment under a row's pivot that the precise pipe recomputes. -/
def Flow.redone (x : Flow) (r : RowSt) (es : List Elem) : Nat :=
  termsRedone r.pivot ((es.filter x.active).map fun e => (x.soft e).1)

/-- A reading softmax command's outputs; its terms are those of a normal row (Table 7.3). -/
def Flow.softOut (x : Flow) (r : RowSt) (sg : Seg) (es : List Elem) (f : W32 → Elem → EOut) : SegOut :=
  let its := x.items es fun e => let u := x.soft e; (f u.1 e).item u.2
  { SegOut.none with
    outs := x.outRun sg its
    precise := if r.outcome x.modes.inflim = .normal then x.redone r es else 0
    pivx := (es.filter x.active).any fun e => (f (x.soft e).1 e).pivx }

/-- `ARES` SCORE (R195). -/
def Flow.score (x : Flow) (r : RowSt) (sg : Seg) (es : List Elem) : SegOut :=
  let us := (es.filter x.active).map fun e => (x.soft e).1
  let r := r.smxSegment us
  { x.softOut r sg es (fun u _ => r.score x.modes.inflim u) with
    st := some r, precise := x.redone r es, added := (addends (us.map f32Val)).length }

/-- `ARES` RESCALE (R196, R197): F and MA once per row. -/
def Flow.rescale (x : Flow) (r : RowSt) (es : List Elem) : SegOut :=
  let f := r.rescaleFactor x.modes.inflim
  let os := (es.filter x.active).map fun e => (e.pos, e.fl, rescaleValue x.modes.nonsat f.1 e.x)
  let r := { r with ma := f.2 }.setIf sRSUF (os.any fun o => o.2.2.2)
  { SegOut.none with
    st := some r, back := os.map fun o => (o.1, BitVec.ofNat 32 o.2.2.1.code), fl := orAll (os.map fun o => o.2.1.or o.2.2.1.fl)
    vanish := (os.filter fun o => o.2.2.1.vanish).length, sat := (os.filter fun o => o.2.2.1.sat).length }

/-- `ARES` FINAL (R198). -/
def Flow.final (x : Flow) (r : RowSt) (sg : Seg) (es : List Elem) : SegOut :=
  { SegOut.none with outs := x.outRun sg (x.items es fun e => (r.final x.modes.inflim e.x).item e.fl) }

/-- The values of a `NORM` sum pass. -/
def Flow.normValues (x : Flow) (es : List Elem) : List Dv :=
  (es.filter x.active).map fun e => { idx := x.index e.k, w := e.x, sq := false }

/-- The output pass of `NORM` (R201). -/
def Flow.normApply (x : Flow) (r : RowSt) (sg : Seg) (es : List Elem) : SegOut :=
  { SegOut.none with
    st := some r
    outs := x.outRun sg (x.items es fun e =>
      let y := r.normOut x.outRdn e.x e.rv e.cv
      exactItem y.1 (e.fl.or y.2)) }

/-- A sum pass of `NORM`; `second` is the pass over d. -/
def Flow.normSum (x : Flow) (r : RowSt) (second count : Bool) (es : List Elem) : SegOut :=
  let ds := x.normValues es
  { SegOut.none with
    st := some (if second then r.normSum2 count ds else r.normSum1 ds), fl := orAll ((es.filter x.active).map fun e => e.fl)
    added := (addends (ds.map fun d => f32Val (if second then (r.normDev d.w).1 else d.w))).length }

/-- `NORM`; the last segment of a sum pass of WHOLE determines its statistics (R201, R203). -/
def Flow.norm (x : Flow) (r : RowSt) (b : Nat) (sg : Seg) (es : List Elem) : SegOut :=
  let rc := x.m.rc
  let fin := decide (x.geo.c ≤ sg.k + sg.len)
  if rc.nph = 3 then { x.normApply r sg es with st := Option.none }
  else if rc.nph = 1 then x.normSum r false true es
  else if rc.nph = 2 then x.normSum r true true es
  else
    let pass := x.geo.pass b
    if pass = x.geo.passes - 1 then x.normApply r sg es
    else
      let o := x.normSum r (decide (pass = 1)) false es
      if fin then
        { o with
          st := o.st.map fun r => if pass = 0 then r.closeNorm1 rc.imm0 else r.closeNorm2 rc.imm0
          precise := (o.st.map fun r => r.normPrecise).getD 0 }
      else o

/-- `XENT` STATS and GRAD. -/
def Flow.xent (x : Flow) (r : RowSt) (sg : Seg) (es : List Elem) : SegOut :=
  let rc := x.m.rc
  if rc.xph = 0 then
    let us := (es.filter x.active).map fun e => let u := x.soft e; (({ idx := x.index e.k, w := u.1, sq := false } : Dv), u.2)
    let r := r.xentSegment (us.map fun u => u.1)
    { SegOut.none with
      st := some r, fl := orAll (us.map fun u => u.2), precise := x.redone r es, added := (addends (us.map fun u => u.1.val)).length }
  else x.softOut r sg es fun u e => r.grad x.modes.inflim x.rdn rc.imm0 rc.imm1 (x.index e.k) u

/-- `ROPE` on a row (R136 to R138). A valid element whose mate's accumulator position is invalid takes the mate as +0 (DESIGN
CHOICE, log 81). -/
def Flow.rope (x : Flow) (sg : Seg) (es : List Elem) : SegOut :=
  let rc := x.m.rc
  let n := x.geo.c
  let p := n / 2
  let xs := es.map fun e => e.x
  let posn (e : Elem) (axis : Nat) : W32 :=
    if rc.psrc then (if axis = 0 then e.y else if axis = 1 then e.rv else e.cv)
    else
      let t := derivedPos x.regs.gh.toNat x.regs.gw.toNat ((vecGet x.regs.len rc.ibl 0).toNat + sg.row)
      BitVec.ofNat 32 (if axis = 0 then t.1 else if axis = 1 then t.2.1 else t.2.2)
  let one (e : Elem) : Item :=
    let i := if rc.pair then e.k % p else e.k / 2
    let second := if rc.pair then decide (p ≤ e.k) else e.k % 2 == 1
    let mate := if rc.pair then (if second then e.k - p else e.k + p) else (if second then e.k - 1 else e.k + 1)
    if rc.bt + rc.bh + rc.bw ≤ i then exactItem (f32Val e.x) e.fl
    else
      let axis := if i < rc.bt then 0 else if i < rc.bt + rc.bh then 1 else 2
      let f : W64 := (x.latch.getD (2 * i + 1) 0).setWidth 64 <<< 32 ||| (x.latch.getD (2 * i) 0).setWidth 64
      let cs := cosSin (rc.func == 0x91) (phase (posn e axis) f)
      let s := if rc.dir then neg32 cs.2 else cs.2
      let o := xs.getD mate 0
      let y := sumOfProducts x.outRdn e.x cs.1 o (if second then s else neg32 s)
      exactItem y.1 (e.fl.or y.2)
  { SegOut.none with outs := x.outRun sg (x.items es one) }

/-- `OPT` (R329 to R332): SOUT's planes, then the copy. -/
def Flow.opt (x : Flow) (sg : Seg) (es : List Elem) : SegOut :=
  let rc := x.m.rc
  let rows := x.geo.rows
  let planes := if rc.alg = 0 then 3 else 2
  let so := x.m.get .sout
  let md := if rc.mfmt then { so with fmt := 2 } else so
  let each := es.map fun e =>
    if rc.alg = 0 then
      let a := adamElement x.latch e.x e.y e.rv e.cv
      (a.1, e.fl.or a.2)
    else
      let a := sgdElement x.latch e.x e.y e.cv
      ((a.1.1, a.1.2, .zero false), e.fl.or a.2)
  let item (v : Val) (fl : Flags) : Item := .el { val := v, v := (rnF32 v).1, hand := .once, fl := fl, code := 0, u := 0 }
  let copied (v : Val) : Val := match stepResult v, f32Val (rnF32 v).1 with | .fin _, .zero n => .zero n | r, _ => r
  let run (role : Role) (d : Desc) (plane : Nat) (second : Bool) (row : Nat) (its : List Item) : OutRun :=
    { role := role, desc := d, row := row, irow := plane * rows + sg.row, k := sg.k, items := its, second := second }
  let w := run .sout so 0 false sg.row (each.map fun a => item (stepResult a.1.1) a.2)
  let m := run .sout md 1 false (rows + sg.row) (each.map fun a => item (stepResult a.1.2.1) {})
  let v := run .sout md 2 false (2 * rows + sg.row) (each.map fun a => item (stepResult a.1.2.2) {})
  let cp := run .wcpy (x.m.get .wcpy) planes true sg.row (each.map fun a => item (copied a.1.1) {})
  { SegOut.none with outs := [w, m] ++ on (rc.alg == 0) v ++ on rc.cpy cp }

/-- `ASSAY` FOLD: stored codes fold as if written (R245). -/
def Flow.fold (x : Flow) (sg : Seg) (es : List Elem) : SegOut :=
  let g := { x.egress (x.m.get .x) false with fold := true }
  { SegOut.none with
    asv := es.foldl (fun a e => a ^^^ g.fold1 sg.row e.k e.x.toNat e.rv.toNat) 0, asn := es.length }

/-- One segment of a beat. -/
def Flow.segment (x : Flow) (r : RowSt) (b : Nat) (sg : Seg) (es : List Elem) : SegOut :=
  match x.m.op with
  | .fn | .cvt => x.element sg es
  | .red | .sel => x.tally r es
  | .scan => x.scan r sg es
  | .smxa => x.smxa r es
  | .smxn => x.softOut r sg es fun u _ => r.smxn x.modes.inflim u
  | .ares =>
    if x.m.rc.aph = 0 then x.score r sg es else if x.m.rc.aph = 1 then x.rescale r es else x.final r sg es
  | .norm => x.norm r b sg es
  | .xent => x.xent r sg es
  | .rope => x.rope sg es
  | .opt => x.opt sg es
  | .assay => x.fold sg es
  | _ => SegOut.none

/-! ### Compress and expand (R84 to R86) -/

/-- The output row that compress forms: the kept elements, then +0. -/
def packCompress (n : Nat) (ps : List (Option S6In)) : List Item :=
  ((ps.filterMap id).map Item.el).take n ++ List.replicate (n - ps.length) (.fill posZero)

/-- The output row that expand forms. -/
def packExpand (fill : W32) : List Bool → List (Option S6In) → List Item
  | [], _ => []
  | true :: ks, p :: ps => (match p with | some s => .el s | none => .skip) :: packExpand fill ks ps
  | _ :: ks, ps => .fill fill :: packExpand fill ks ps

/-! ### Writes -/

/-- The masked bytes of one code. `last`: the element ends an odd 4-bit row, whose unused nibble its write clears (R23). -/
def codeWrites (d : Desc) (p : Option RollPlace) (r k code : Nat) (last : Bool) : List Wr :=
  let a := elemAddr d p r k
  if d.f.bits = 4 then
    if k % 2 = 0 then [.mem a (if last then 0xFF else 0x0F) (BitVec.ofNat 8 code)]
    else [.mem a 0xF0 (BitVec.ofNat 8 (16 * code))]
  else (leBytes d.size code).zipIdx.map fun x => .mem (a + x.2) 0xFF x.1

/-- The writes of codes at positions k, k + 1, … of a row of length l. The unused nibble of an odd 4-bit row is cleared with the
row's last position, also where that element is skipped (R23, log 82). -/
def rowWrites (d : Desc) (p : Option RollPlace) (g : Geo) (r l : Nat) : Nat → List (Option Nat) → List Wr
  | _, [] => []
  | k, c :: cs =>
    (match c with
      | none =>
        if d.kind ≠ .till ∧ d.f.bits = 4 ∧ k + 1 = l ∧ l % 2 = 1 then [.mem (elemAddr d p r k) 0xF0 0] else []
      | some v =>
        if d.kind = .till then [.till (d.slot + g.beatOf 0 r k) (g.lane r k) (BitVec.ofNat 32 v)]
        else codeWrites d p r k v (k + 1 == l && l % 2 == 1))
      ++ rowWrites d p g r l (k + 1) cs

/-- The writes of a run: codes, zero codes to the end of a last block (R28), scales. -/
def runWrites (d : Desc) (p : Option RollPlace) (g : Geo) (r k l : Nat) (e : Emit) : List Wr :=
  let pad := if d.f.isBlock && k + e.codes.length == l then ceilDiv l 32 * 32 - l else 0
  rowWrites d p g r l k (e.codes ++ List.replicate pad (some 0))
    ++ e.scales.zipIdx.map fun x => .mem (scaleAddr d p r (k / 32 + x.2)) 0xFF (BitVec.ofNat 8 x.1)

/-- A byte string as the `U8` elements of a row (R22, R327). -/
def recordWrites (d : Desc) (p : Option RollPlace) (r : Nat) (bs : List Byte) : List Wr :=
  bs.zipIdx.map fun x => .mem (elemAddr d p r x.2) 0xFF x.1

/-- The masked scratchpad bytes of a list of writes. -/
def memWrites (ws : List Wr) : List (Nat × Byte × Byte) :=
  ws.filterMap fun w => match w with | .mem a m b => some (a, m, b) | _ => none

/-- Whether a list of writes covers all 256 lanes of a Till entry (Table 15.3). -/
def coversEntry (ws : List Wr) (e : Nat) : Bool :=
  (upTo 256).all fun l => ws.any fun w => match w with | .till x y _ => x == e && y == l | _ => false

/-- Writes performed: scratchpad bytes with their words' check bits, Till lanes (R274). -/
def State.doWrites (s : State) (tag : W16) (ws : List Wr) : State :=
  let ms := (memWrites ws).filter fun x => decide (x.1 < s.spadBytes)
  let s := s.writeBytes 0 tag (some s.tn.active) ms
  s.modSt fun st =>
    { st with
      till := ws.foldl (fun t w => match w with | .till e l v => sparseSet 0 t (256 * e + l) v | _ => t) st.till
      tillSynd := st.tillSynd.filter fun x => !ws.any fun w => match w with | .till e l _ => 256 * e + l == x.1 | _ => false
      tillBad := st.tillBad.filter fun e => !coversEntry ws e }

end Sys2Proof.Machine
end

