-- ==== Sys2Proof/Machine/Beats.lean ====
section
/-! DEFINITION. Beats of the commands in flight: the start of a read stage, the end of a write stage, the precise pipe's
resolutions, and row results (R96, R97, R109 to R112, R150, R153, R448, R449). -/
namespace Sys2Proof.Machine
open Sys2Proof

/-! ### Shared pieces -/

/-- Beats of a command in all. -/
def Inflight.total (c : Inflight) : Nat := (c.cmd.geo c.regs).beats

/-- Whether FCLK-domain steps happen: the unit has started and the clock is not stopped (R379, R383). -/
def State.running (s : State) : Bool := s.boot == .ready && s.fclkRuns

/-- Whether a command's beats are stopped by a recovery: it is the affected command or a younger one, or no command had a beat in
flight (R396). -/
def State.stopped (s : State) (tag : W16) : Bool :=
  match s.ft.recovery with
  | none => false
  | some r => match r.tag with
    | none => true
    | some t => !((s.olderThan t).any fun c => c.tag == tag)

/-- The presentation that a command takes next: the beat, none when it needs no more. -/
def Inflight.accBeat (c : Inflight) : Option Nat :=
  let m := c.cmd
  let g := m.geo c.regs
  if c.fault.isNone && ((m.get .x).kind == .acc || (m.get .y).kind == .acc) then
    (upTo g.beats).find? fun b => decide (c.started ≤ b) && (g.pass b == 0 || !m.staged g)
  else none

/-- The command for which a presentation is made: the oldest that needs one (R90). -/
def State.presented (s : State) : Option (Inflight × Nat) := s.stream.inflight.findSome? fun c => c.accBeat.map fun b => (c, b)

/-- A presentation held for a command goes with it when it faults: its data are released at its retirement (R94). -/
def State.dropAcc (s : State) (tag : W16) : State :=
  if (s.presented.map fun x => x.1.tag) = some tag then s.modStream fun st => { st with acc := none } else s

/-- A fault after issue: it is logged, and the command starts no further beat (R448). -/
def State.failAfter (s : State) (c : Inflight) (code : W16) (detail : List Byte) : State :=
  ((s.dropAcc c.tag).modInflight c.tag fun c => { c with fault := some code, detail := detail }).log code c.tag (some c.slot.tenant) detail

def Conflict.detail (k : Conflict) : List Byte := [BitVec.ofNat 8 k.descA, BitVec.ofNat 8 k.descB, BitVec.ofNat 8 k.bank]

/-- The beats of the command that still run are written no more (R448). -/
def Inflight.mute (c : Inflight) : Inflight := { c with muted := true, gather := [], writes := [] }

/-- `BANKC`: no beat of the command is written any more (R270); those in their stages run to their ends with their writes withheld
(R448). -/
def State.failBank (s : State) (c : Inflight) (k : Conflict) : State :=
  ((s.failAfter c cBANKC k.detail).modInflight c.tag Inflight.mute).modHealth fun h => { h with conflicts := satAdd h.conflicts 1 }

/-- Scratchpad words read for a command: `ECCUE` when one fails, with the words poisoned now (R276, R405, R408). -/
def State.readOrFail (s : State) (c : Inflight) (ws : List Nat) : State × Bool :=
  let w := s.checkWords c.tag (some c.slot.tenant) (if s.spad.synd.isEmpty then [] else ws)
  match w.2 with
  | none => (w.1, true)
  | some e =>
    (w.1.failAfter c cECCUE (eccDetail (8 * e.1) 0 e.2 0 (w.1.spad.health.poisoned.toNat - s.spad.health.poisoned.toNat)), false)

def illcmAfter (pos row : Nat) : List Byte := illcmDetail 0xFF pos row 0xFF

/-- The work on a command's segments (R67, R80). -/
def State.flow (s : State) (c : Inflight) (m : Cmd) : Flow :=
  { m := m, regs := c.regs, modes := c.modes, geo := m.geo c.regs
    img := match m.curveSlot with | some k => (vecGet s.st.curves k .default).image | none => []
    latch := c.latch }

/-! ### BEAT_READ_START -/

/-- The next beat in stream order (R97). -/
def State.nextBeat (s : State) : Option Inflight :=
  s.stream.inflight.find? fun c => c.fault.isNone && decide (c.started < c.total)

/-- The bytes of a record that a row loads (R148, R185, R224). -/
def State.recordBytes (s : State) (c : Inflight) (m : Cmd) (r : Nat) : List Byte :=
  let d := m.get .rs
  s.spad.readRow d none r (d.len c.regs)

/-- The target of a row that `XENT` opens (R206). -/
def State.targetOf (s : State) (m : Cmd) (r : Nat) : W32 := if m.op = .xent ∧ m.rc.opn then s.wordAt (m.get .tgt) r 0 else 0

/-- What a row without beats takes in (C = 0). -/
def State.emptyIn (s : State) (c : Inflight) (m : Cmd) (r : Nat) : RowIn :=
  { row := r, record := if m.op.rows && m.rc.ld then s.recordBytes c m r else [], target := s.targetOf m r, keeps := [] }

/-- What the read stage of a beat takes in for its rows: a record and a target at the row's first beat, the record kept for the row's
further beats, the keep bits of expand (R67, R148, R267). -/
def State.rowIns (s : State) (c : Inflight) (m : Cmd) (g : Geo) (b : Nat) : List RowIn :=
  (g.segs b).map fun sg =>
    let x := s.emptyIn c m sg.row
    let l := m.outLen c.regs
    { x with
      record := if g.startsRow b sg then x.record else ((c.recs.find? fun y => y.1 == sg.row).map (·.2)).getD []
      keeps := if m.expands then
          ((maskBytes g l sg).map fun j => (upTo (min 8 (l - 8 * j))).map fun i => s.keepBit m c.regs sg.row (8 * j + i)).flatten
        else [] }

def loadedOk (m : Cmd) (strict : Bool) (r : RowSt) : Bool :=
  r.valid && headOk m strict { state := r.state, top := r.top, strict := r.strict, k := r.k, stage := r.stage }

/-- The first of some rows whose loaded record fails. -/
def badRecord (c : Inflight) (m : Cmd) (xs : List RowIn) : Option Nat :=
  if m.op.rows && m.rc.ld then (xs.find? fun x => !loadedOk m c.modes.strict (RowSt.ofBytes x.record)).map (·.row) else none

/-- Pre-images of the lines a command is about to update without having opened them (R151). -/
def State.preImages (s : State) (c : Inflight) (m : Cmd) (rows : List Nat) : List (Nat × List Byte) :=
  if m.op.rows && !m.reads && !m.rc.opn then
    (rows.map fun r => let l := c.rowLine m r; (upTo l.2).map fun i => (l.1 + i, s.rowLines (l.1 + i) 1)).flatten
  else []

/-- The words latched ahead of beat 0: FREQ of `ROPE`, HP and the constants of `OPT`; the flags of forming them. -/
def State.latchOf (s : State) (c : Inflight) (m : Cmd) : List W32 × Flags :=
  if m.op = .rope then
    match m.role? .freq with
    | some d => ((upTo (d.len c.regs)).map fun k => s.wordAt d 0 k, {})
    | none => ([], {})
  else if m.op = .opt then
    let hp := (upTo 8).map fun k => s.wordAt (m.get .hp) 0 k
    let p (i : Nat) : W32 := hp.getD i 0
    if m.rc.alg = 0 then
      let k := adamConstants (p 0) (p 1) (p 2) (p 4) m.rc.step
      (hp ++ k.1, k.2)
    else (hp, {})
  else (c.latch, {})

/-- The valid bits of a staged presentation, 32 to a word. -/
def validWords (acc : List (Option W32)) : List W32 :=
  (upTo 8).map fun w => BitVec.ofNat 32 ((upTo 32).foldl (fun a i =>
    a + (if (acc.getD (32 * w + i) none).isSome then 2 ^ i else 0)) 0)

/-- The lines of states that stand in the table when a beat reads them. -/
def Inflight.readLines (c : Inflight) (m : Cmd) (g : Geo) (b : Nat) : List Nat :=
  if m.op.rows then
    (((g.segs b).filter fun sg => m.takesSlots || (!g.startsRow b sg && !(m.reads && m.rc.ld))).map fun sg =>
      let l := c.rowLine m sg.row
      (upTo l.2).map (· + l.1)).flatten
  else []

/-- The Till entries, lines and curve slot of a beat read, and the fault that one of them raises (R404). Detail +5 is the syndrome of the
failing place's first codeword that this read cannot correct, 0xFF as for the poison code where the place was poisoned before; +8 counts
the codewords that this read finds so (DESIGN CHOICE, log 83). A curve slot that an earlier reader has invalidated meets a later user with
`CURVX` (Table 15.3). -/
def State.readStores (s : State) (c : Inflight) (m : Cmd) (es ls : List Nat) : State × Option (W16 × List Byte) :=
  let ks := match m.curveSlot with | some k => [k] | none => []
  let ctx := some c.slot.tenant
  let bad := s.badCodes 1 es ++ s.badCodes 2 ls ++ s.badCodes 4 ks
  let found (n p : Nat) : Option Byte := (bad.find? fun x => x.1 == n && x.2.1 == p).map fun x => x.2.2
  let fail (n p : Nat) : W16 × List Byte := (cECCUE, eccDetail p n ((found n p).getD 0xFF) 0 bad.length)
  let s := ((s.readStructure 1 c.tag ctx es).readStructure 2 c.tag ctx ls).readStructure 4 c.tag ctx ks
  (s, match es.find? fun e => s.st.tillBad.contains e with
    | some e => some (fail 1 e)
    | none => match ls.find? fun l => s.st.rowBad.contains l with
      | some l => some (fail 2 l)
      | none => (ks.find? fun k => (vecGet s.st.curves k .default).st != .valid).map fun k =>
        if (found 4 k).isSome then fail 4 k else (cCURVX, [BitVec.ofNat 8 k, 1]))

/-- The words, entries, lines and curve of a beat read, or the fault that meets them. -/
def State.readInputs (s : State) (c : Inflight) (m : Cmd) (ws es ls : List Nat) : State × Bool :=
  let w := s.readOrFail c ws
  if !w.2 then w
  else
    let t := w.1.readStores c m es ls
    match t.2 with
    | none => (t.1, true)
    | some f => (t.1.failAfter c f.1 f.2, false)

/-- Pieces of a key in a stream's list (R268). -/
def piecesAt (ks : List Nat) (b : Nat) : Nat := (ks.filter fun k => k == b + 1 || (b == 0 && k == 0)).length

/-- The read stage of a beat whose conditions hold. -/
def State.readBeat (s : State) (c : Inflight) (m : Cmd) (g : Geo) (b : Nat) : State :=
  let ps := s.places c m
  let r := s.readInputs c m (if s.spad.synd.isEmpty then [] else beatWords m c g ps b) (m.tillReads g b) (c.readLines m g b)
  let s := r.1
  if !r.2 then s
  else
    let latch := if b = 0 then s.latchOf c m else (c.latch, {})
    match (if m.op = .opt ∧ b = 0 then hpBad m.rc.alg m.rc.step latch.1 else none) with
    | some i => s.failAfter c cILLCM (illcmAfter i 0)
    | none =>
      let rows := ((g.segs b).filter fun sg => g.startsRow b sg).map fun sg => sg.row
      let ins := s.rowIns c m g b
      match badRecord c m (ins.filter fun x => rows.contains x.row) with
      | some r => s.failAfter c cILLCM (illcmAfter 0xFF r)
      | none =>
        let usesAcc := (m.get .x).kind == .acc || (m.get .y).kind == .acc
        let fresh := usesAcc && (g.pass b == 0 || !m.staged g)
        let acc := if fresh then s.stream.acc.getD [] else []
        let bc := latchJoin c.bcast (s.bcastLatch c m g b)
        let es := s.beatElems { c with latch := latch.1, bcast := bc } m g ps acc b
        let pre := s.preImages c m rows
        let s := s.modStream fun st => { st with lastStart := some s.tb.cycle, acc := if fresh then none else st.acc }
        let s := if fresh then s.bump 19 1 else s
        let s := if b = 0 ∧ m.op = .opt ∧ m.rc.alg = 0 then s.bump 14 5 else s
        (((s.bump 12 1).bump 17 (piecesAt c.pieces.1 b)).modHealth fun h =>
            { h with slips := satAdd h.slips (Config.slips c.tag.toNat b s.tb.cycle) }).modInflight c.tag fun c =>
          { c with
            since := s.tb.cycle, started := c.started + 1, left := c.left - 1, beats := c.beats ++ [{ idx := b, elems := es, ins := ins }]
            recs := if m.rc.ld then ins.map fun x => (x.row, x.record) else []
            latch := if fresh && m.staged g then validWords acc else latch.1, bcast := bc, flags := c.flags.or latch.2
            pre := c.pre ++ pre, opened := c.opened + rows.length
            accSeen := if fresh then c.accSeen + 1 else c.accSeen }

/-- Whether a beat may start in this cycle at the issue level: n mod 4 < 4 L / 100, counted from the last sync pulse (R382,
R384). -/
def State.issueCycle (s : State) : Bool := decide (25 * ((s.tb.cycle - s.tb.syncAt) % 4) < s.pw.issue)

/-- BEAT_READ_START: the next beat in stream order starts its read stage, or the fault that meets it is raised; it is held
while a condition of R89, R97, R150 or R301 stands. A full reorder queue holds the beats at S6 (R110) and no read: beats wait for it in
the lanes, in any number (DESIGN CHOICE, log 93). -/
def State.beatReadStart (s : State) : State :=
  match s.nextBeat with
  | none => s
  | some c =>
    let m := c.cmd
    let g := m.geo c.regs
    let b := c.started
    if !s.running || s.pw.state != .run || !s.issueCycle || s.stopped c.tag then s
    else match c.conflict with
      | some k => if k.read && decide (k.beat ≤ b) then s.failBank c k else go c m g b
      | none => go c m g b
where
  go (c : Inflight) (m : Cmd) (g : Geo) (b : Nat) : State :=
    let usesAcc := (m.get .x).kind == .acc || (m.get .y).kind == .acc
    let fresh := usesAcc && (g.pass b == 0 || !m.staged g)
    if s.beatHeld c m g b || (fresh && s.stream.acc.isNone) then s
    else
      let a := s.acquireAll (s.slotsNeeded c m g b)
      if a.2 then a.1.readBeat c m g b else a.1

/-! ### BEAT_WRITE_COMPLETE -/

/-- What a beat's segments add up to. -/
structure BeatAcc where
  st   : State
  c    : Inflight
  ws   : List Wr
  back : List (Nat × W32)
  hard : Byte
  /-- elements that the rounding test leaves undecided -/
  n    : Nat

/-- The state of a row as a command's segment finds it (Table 6.3), with what its read stage took in. -/
def State.takeRow (s : State) (c : Inflight) (m : Cmd) (i : RowIn) (first : Bool) : RowSt :=
  let l := c.rowLine m i.row
  if m.rc.ld && (first || m.reads) then
    let x := RowSt.ofBytes i.record
    if m.op == .norm && m.rc.nph == 2 then x.takeSum2 else x
  else if first && m.rc.opn then
    let x := RowSt.opened m.top m.rc.k c.modes.strict m.rc.sdir c.slot.epoch
    let x := if m.op = .xent then x.setTarget i.target else x
    x.setIf sRERD (m.rereads c.regs)
  else
    let x := s.loadRow l.1 l.2
    if first && m.op == .norm && m.rc.nph == 2 then x.takeSum2 else x

/-- VANISH and SATCNT added to a row and to the counts kept for its result. -/
def Inflight.addCounts (c : Inflight) (r v t : Nat) : Inflight :=
  let old := (c.counts.find? fun x => x.1 == r).getD (r, 0, 0)
  { c with vanish := satAdd c.vanish v, satcnt := satAdd c.satcnt t
           counts := if v = 0 ∧ t = 0 then c.counts
             else (c.counts.filter fun x => x.1 != r) ++ [(r, old.2.1 + v, old.2.2 + t)] }

def RowSt.addCounts (r : RowSt) (v t : Nat) : RowSt := { r with vanish := satAdd r.vanish v, satcnt := satAdd r.satcnt t }

/-- The lane groups of positions, 32 to a group. A disabled group's positions keep its queue (DESIGN CHOICE, log 84). -/
def groupsOf (ps : List Nat) : Byte := ps.foldl (fun a p => a ||| (1 <<< (p / 32 % 8))) 0

/-- Whether a row of a roll operand lies in a slot that is already published, so that a replay writes it no more (R302). -/
def State.published (s : State) (c : Inflight) (m : Cmd) (p : Role) (row : Nat) : Bool :=
  ((m.rollOps.zip (s.stream.claims.filter fun x => x.tag == c.tag)).any fun x =>
    x.1.1 == p && (let rps := x.1.2.1.rps (s.roll x.2.roll).slotb.toNat; rps != 0 && decide (row / rps < x.2.done)))

/-- S6 and the writes of an output run, at lane position `pos`. -/
def BeatAcc.run (a : BeatAcc) (x : Flow) (r : Option RowSt) (o : OutRun) (pos : Nat) : BeatAcc × Option RowSt :=
  let g := x.egress o.desc o.second
  let e := emitSpan g o.irow o.k o.items
  let l := if o.role = .out then x.m.outLen x.regs else x.geo.c
  let ps := a.st.places a.c x.m
  let ws := if a.st.published a.c x.m o.role o.row then []
    else runWrites o.desc (placeOf ps o.role) (x.m.outGeo x.regs) o.row o.k l e
  let c := a.c.addCounts o.row e.vanish e.sat
  let c := { c with
    flags := c.flags.or e.fl, asValue := c.asValue ^^^ e.asv, asCount := satAdd c.asCount e.asn
    amax := if x.m.rc.amen then amaxJoin c.amax e.amax else c.amax }
  ({ a with c := c, ws := a.ws ++ ws, hard := a.hard ||| groupsOf (e.hard.map (· + pos)), n := a.n + e.undec },
    r.map fun r => (r.addFlags e.fl).addCounts e.vanish e.sat)

def BeatAcc.runs (a : BeatAcc) (x : Flow) (r : Option RowSt) (pos : Nat) : List OutRun → BeatAcc × Option RowSt
  | [] => (a, r)
  | o :: os =>
    let t := a.run x r o pos
    t.1.runs x t.2 pos os

/-- The output row of a command that packs, once its last segment is through (R85, R86). The surplus of an overrun is discarded after
S5, so the flags of its stages before that count (R86). An accumulator position with a clear valid bit counts among the input elements
when underrun and overrun are decided (DESIGN CHOICE, log 86). -/
def BeatAcc.packRow (a : BeatAcc) (x : Flow) (row : Nat) (keeps : List Bool) : BeatAcc :=
  let m := x.m
  let l := m.outLen x.regs
  let ps := a.c.pack.map fun p => p.s6
  let n := if m.expands then (keeps.filter id).length else ps.length
  let its := if m.expands then packExpand (expandFill m.rc) keeps ps else packCompress l ps
  let c := { a.c with
    pack := [], keeps := [], flags := a.c.flags.or (orAll ((ps.drop n).filterMap fun p => p.map S6In.fl))
    xund := a.c.xund || decide (ps.length < n), xovr := a.c.xovr || decide (n < ps.length) }
  ({ a with c := c }.run x none { role := .out, desc := m.get .out, row := row, irow := row, k := 0, items := its, second := false }
    ((m.outGeo x.regs).lane row 0)).1

/-- A row state updated: its status joins the command's flags at once, so that a command that faults later completes with it too (R42,
R338). -/
def BeatAcc.keepRow (a : BeatAcc) (line : Nat) (r : RowSt) : BeatAcc :=
  { a with st := a.st.storeRow line r, c := { a.c with flags := a.c.flags.or (Flags.ofMask (r.status.toNat % 32)) } }

/-- A segment of a beat. -/
def BeatAcc.segment (a : BeatAcc) (x : Flow) (b : Beat) (sg : Seg) : BeatAcc :=
  let m := x.m
  let es := b.elems.filter fun e => e.row == sg.row
  let first := x.geo.startsRow b.idx sg
  let i := (b.ins.find? fun i => i.row == sg.row).getD { row := sg.row, record := [], target := 0, keeps := [] }
  let r := if m.op.rows then a.st.takeRow a.c m i first else RowSt.opened 0 0 false false 0
  let o := x.segment r b.idx sg es
  let stage := if m.staged x.geo && x.geo.pass b.idx == 0 then es.map fun e => Wr.till (m.rc.tsl + b.idx % x.geo.bpr) e.pos e.x
    else []
  let c := { a.c.addCounts sg.row o.vanish o.sat with
    flags := a.c.flags.or o.fl, pivx := a.c.pivx || o.pivx, pack := a.c.pack ++ o.pack.map Packed.mk, keeps := a.c.keeps ++ i.keeps
    asValue := a.c.asValue ^^^ o.asv, asCount := satAdd a.c.asCount o.asn }
  let a := { a with st := (a.st.bump 14 o.precise).bump 16 o.added, c := c, ws := a.ws ++ stage, back := a.back ++ o.back }
  let t := a.runs x (o.st.map fun r => { (r.addFlags o.fl).addCounts o.vanish o.sat with epoch := a.c.slot.epoch }) sg.pos o.outs
  let a := match t.2 with
    | some r => t.1.keepRow (t.1.c.rowLine m sg.row).1 r
    | none => t.1
  if (m.expands || m.compresses) && decide (x.geo.c ≤ sg.k + sg.len) && m.has .out then a.packRow x sg.row a.c.keeps else a

def BeatAcc.segments (a : BeatAcc) (x : Flow) (b : Beat) : List Seg → BeatAcc
  | [] => a
  | sg :: sgs => (a.segment x b sg).segments x b sgs

/-- The finalisation of a state by its family's closing command, or of a `settled` or merged state (R155, R189, R201, R207,
R220). -/
def RowSt.finish (r : RowSt) (rm : Rnd) (nonsat inflim : Bool) (eps lam : W32) (settled : Bool) (counts : W32 × W32) :
    RowSt × List Byte :=
  if r.top = topSoftmax then r.closeSoftmax rm nonsat inflim counts
  else if r.top = topXent then r.closeXent rm nonsat inflim lam settled
  else if isNorm r.top then
    let x := if r.stage = 0 then r.closeNorm1 eps
      else if r.stage = 1 ∧ r.top = topLayer then r.closeNorm2 eps
      else { r with state := 2 }
    (x, normRecord x counts)
  else r.closeTally rm nonsat

/-- One row of a `MERGE` (R221, R222): the record written, and the row result when it closes with the computations of its close. -/
def State.mergeRow (s : State) (c : Inflight) (m : Cmd) (row : Nat) : Option (RowSt × Option (List Byte) × Nat) :=
  let rec_ (p : Role) : RowSt :=
    let d := m.get p
    RowSt.ofBytes (s.spad.readRow d none row (d.len c.regs))
  let a := rec_ .in0
  let len := (m.get .in0).len c.regs
  if slotsPerRow a.top a.k a.strict * slotBytes a.strict ≠ len then none
  else match mergeRows a (rec_ .in1) c.slot.epoch with
    | none => none
    | some r =>
      if m.rc.close then
        let f := r.finish m.rnd c.modes.nonsat c.modes.inflim Config.closeEps Config.closeLambda true (0, 0)
        some (f.1, some f.2, r.closePrecise c.modes.inflim Config.closeLambda)
      else some (r, none, 0)

/-- A beat of a `MERGE`: a failing row writes a zero record and is remembered as the first (R222). -/
def BeatAcc.mergeBeat (a : BeatAcc) (m : Cmd) (row : Nat) : BeatAcc :=
  let d := m.get .out
  match a.st.mergeRow a.c m row with
  | none =>
    { a with
      ws := a.ws ++ recordWrites d none row (List.replicate (d.len a.c.regs) 0)
      c := { a.c with badRow := some (a.c.badRow.getD row) } }
  | some (r, res, n) =>
    { a with
      ws := a.ws ++ recordWrites d none row r.bytes ++ (match res with | some b => recordWrites (m.get .res) none row b | none => [])
      c := { a.c with flags := a.c.flags.or (Flags.ofMask (r.status.toNat % 32)) }
      st := a.st.bump 14 n }

/-- Rows whose beats are all written, hard cases resolved. -/
def Inflight.rowsWritten (c : Inflight) (g : Geo) : Nat :=
  let w := ((c.beats.map fun b => b.idx) ++ (c.hard.map fun b => b.idx)).foldl min c.started
  if g.c = 0 then 0
  else if g.beats ≤ w then g.rows
  else (upTo g.rows).foldl (fun n r => if n = r ∧ g.lastBeat r < w then n + 1 else n) 0

/-- Roll slots whose last beat is written are published (R301, R111). -/
def State.rollProgress (s : State) (tag : W16) : State :=
  match s.inflight? tag with
  | none => s
  | some c =>
    let m := c.cmd
    let g := m.geo c.regs
    let xs := (m.rollOps.zip (s.stream.claims.filter fun x => x.tag == tag)).filter fun x => x.2.produce
    xs.foldl (fun s x =>
      let rps := x.1.2.1.rps (s.roll x.2.roll).slotb.toNat
      let n := if x.1.1 = .val ∨ x.1.1 = .idx then c.rowsDone else c.rowsWritten g
      s.complete x.2 (if rps = 0 then 0 else if g.rows ≤ n then x.2.n else n / rps)) s

/-- Whether a write waits for more bytes of its line (R267). -/
def Inflight.gathers (c : Inflight) (w : Wr) : Bool :=
  match w with
  | .mem a _ _ => c.due.any fun d => d.1 == a / 64 && !((upTo d.2.1).all (c.beatWritten ·) && decide (d.2.2 ≤ c.rowsDone))
  | _ => false

/-- Whether a write lies in a line of a write group that conflicts (R270). -/
def Inflight.withheld (c : Inflight) (w : Wr) : Bool :=
  match w, c.conflict with
  | .mem a _ _, some k => k.lines.contains (a / 64)
  | _, _ => false

/-- Writes of a beat or row made, those of a line that is still gathered kept, and what follows from them. -/
def State.commitBeat (s : State) (tag : W16) (ws : List Wr) : State :=
  match s.inflight? tag with
  | none => s
  | some c =>
    let all := if c.muted then [] else (c.gather ++ ws).filter fun w => !c.withheld w
    let keep := if c.due.isEmpty then [] else all.filter c.gathers
    let now := if c.due.isEmpty then all else all.filter fun w => !c.gathers w
    let s := (s.modInflight tag fun c => { c with gather := keep }).doWrites tag now
    if c.muted then s else s.rollProgress tag

/-- Whether a lane group's reorder queue is full (R110). -/
def State.queueFull (s : State) : Bool :=
  (upTo 8).any fun i => decide (16 ≤ s.stream.inflight.foldl (fun n c =>
    n + (c.hard.filter fun h => h.groups.getLsbD i).length) 0)

/-- Commands with a correctly rounded function, whose inputs take the precise pipe (R109). -/
def Cmd.isCr (m : Cmd) : Bool := decide (0x81 ≤ m.rc.func) && decide (m.rc.func ≤ 0x92)

/-- The activity of a beat (Table 16.6): active elements, precise-pipe elements, hard cases, write pieces, write-back. Its tally
addends are counted with its segments. -/
def State.countBeat (s : State) (m : Cmd) (c : Inflight) (b : Beat) (hard : Nat) (back : Bool) : State :=
  let n := (b.elems.filter fun e => e.active m.rc).length
  let cr := if m.isCr then n else 0
  ((((s.bump 13 n).bump 14 (cr + hard)).bump 15 hard).bump 18 (piecesAt c.pieces.2 b.idx)).bump 19 (if back then 1 else 0)

/-- A write group that conflicts faults the command at the beat of its last request (R270). -/
def State.writeConflict (s : State) (c : Inflight) (b : Nat) : State :=
  match c.conflict with
  | some k => if !k.read && decide (k.beat ≤ b) && c.fault.isNone then s.failBank c k else s
  | none => s

/-- The oldest beat of a command passes S2 to S6 and completes its write stage, or waits for the precise pipe. What it raises and counts
arises also where its writes are withheld (R338, R448). -/
def State.writeBeat (s : State) (c : Inflight) : State :=
  match c.beats with
  | [] => s
  | b :: rest =>
    let m := c.cmd
    let s := s.writeConflict c b.idx
    let c := (s.inflight? c.tag).getD c
    let x := s.flow c m
    let a0 : BeatAcc := { st := s, c := { c with beats := rest, since := s.tb.cycle }, ws := [], back := [], hard := 0, n := 0 }
    let a := if m.op = .merge then a0.mergeBeat m b.idx else a0.segments x b (x.geo.segs b.idx)
    let s := if a.back.isEmpty || c.muted then a.st else a.st.modOut fun o => { o with acc := o.acc ++ [a.back] }
    let s := s.countBeat m c b a.n (!a.back.isEmpty)
    if a.hard = 0 then
      (s.modInflight c.tag fun _ => a.c).commitBeat c.tag a.ws
    else
      s.modInflight c.tag fun _ => { a.c with hard := a.c.hard ++ [{ idx := b.idx, writes := a.ws, groups := a.hard }] }

/-- BEAT_WRITE_COMPLETE: the write stage of the oldest beat in flight. -/
def State.beatWriteComplete (s : State) : State :=
  match s.stream.inflight.find? fun c => !c.beats.isEmpty with
  | none => s
  | some c => if !s.running || s.stopped c.tag || s.queueFull then s else s.writeBeat c

/-- HARD_CASE_RESOLUTION: the pending elements that one lane group holds of the oldest waiting beat are resolved, which frees the beat's
place in that group's queue; with the last of them the beat's write completes (R109, R110, R112). One step resolves all of a group's
elements of the beat, the lowest group first (DESIGN CHOICE, log 93). -/
def State.hardCaseResolution (s : State) : State :=
  match s.stream.inflight.find? fun c => !c.hard.isEmpty with
  | none => s
  | some c =>
    if !s.running || s.stopped c.tag then s
    else match c.hard with
      | [] => s
      | h :: hs =>
        let left := h.groups &&& (h.groups - 1)
        if left = 0 then (s.modInflight c.tag fun c => { c with hard := hs, since := s.tb.cycle }).commitBeat c.tag h.writes
        else s.modInflight c.tag fun c => { c with hard := { h with groups := left } :: hs, since := s.tb.cycle }

/-! ### ROW_RESULT -/

/-- Whether row `rowsDone` of a command can be finished. -/
def State.rowReady (s : State) (c : Inflight) : Bool :=
  let m := c.cmd
  let g := m.geo c.regs
  let r := c.rowsDone
  c.fault.isNone && !s.stopped c.tag && decide (r < m.rowSteps c.regs)
    && (if g.c ≠ 0 then decide (g.lastBeat r < c.started - c.beats.length)
        else if m.op.rows then !s.emptyRowHeld c
        else !((s.olderThan c.tag).any fun o => o.tillHolds [] (m.tillOutEntries c.regs)))

/-- VAL and IDX of a closing `SEL` row (R168): writes, flags, counts. -/
def topkWrites (s : State) (c : Inflight) (m : Cmd) (x : RowSt) (r : Nat) : List Wr × Flags × Nat × Nat :=
  let ps := s.places c m
  let dv := m.get .val
  let di := m.get .idx
  let cv := x.topk.map fun p => convert dv.f c.modes.nonsat (rowRnd m.rnd) 0 (f32Val p.1)
  let g : Geo := { c := m.rc.k + 1, rows := m.main.rows, passes := 1 }
  let wv := if s.published c m .val r then []
    else rowWrites dv (placeOf ps .val) g r (m.rc.k + 1) 0 (cv.map fun v => some v.code)
  let wi := if s.published c m .idx r then []
    else rowWrites di (placeOf ps .idx) g r (m.rc.k + 1) 0 (x.topk.map fun p => some p.2.toNat)
  (wv ++ wi, orAll (cv.map fun v => v.fl), cv.foldl (fun n v => n + v.vanish.toNat) 0, cv.foldl (fun n v => n + v.sat.toNat) 0)

/-- A row closed by its command: the state, its record and the other writes. -/
def State.closeRow (s : State) (c : Inflight) (m : Cmd) (x : RowSt) (r : Nat) : RowSt × Inflight × List Wr :=
  let own := (c.counts.find? fun y => y.1 == r).getD (r, 0, 0)
  let counts : W32 × W32 := (satAdd (0 : W32) own.2.1, satAdd (0 : W32) own.2.2)
  let k := if m.op = .sel then topkWrites s c m x r else ([], {}, 0, 0)
  let x := (x.addFlags k.2.1).addCounts k.2.2.1 k.2.2.2
  let c := if m.op = .sel then c.addCounts r k.2.2.1 k.2.2.2 else c
  let whole := m.op == .norm && m.rc.nph == 0
  let x0 := if whole && (m.geo c.regs).c == 0 then
      (if m.rc.nk = 0 then (x.closeNorm1 m.rc.imm0).closeNorm2 m.rc.imm0 else x.closeNorm1 m.rc.imm0) else x
  let f := if whole then (x0, normRecord x0 counts)
    else x.finish m.rnd c.modes.nonsat c.modes.inflim m.rc.imm0 m.rc.imm0 false counts
  (f.1, c, k.1 ++ (match m.role? .res with | some d => recordWrites d none r f.2 | none => []))

/-- A row that no beat reached (C = 0): its load is checked and its state taken up. -/
def State.emptyRow (s : State) (c : Inflight) (m : Cmd) (r : Nat) : State :=
  let g := m.geo c.regs
  if g.c ≠ 0 ∨ !m.op.rows then s
  else
    let ps := s.places c m
    let ws := (if m.rc.ld then spanWords (m.get .rs) (placeOf ps .rs) false r 0 ((m.get .rs).len c.regs) else [])
      ++ (match m.role? .tgt with | some d => spanWords d none false r 0 1 | none => [])
    let l := c.rowLine m r
    let w := s.readInputs c m ws [] (if m.takesSlots then (upTo l.2).map (· + l.1) else [])
    if !w.2 then w.1
    else
      let i := w.1.emptyIn c m r
      if (badRecord c m [i]).isSome then w.1.failAfter c cILLCM (illcmAfter 0xFF r)
      else
        let pre := w.1.preImages c m [r]
        let x := { w.1.takeRow c m i true with epoch := c.slot.epoch }
        (w.1.modInflight c.tag fun c => { c with pre := c.pre ++ pre, opened := c.opened + 1 }).storeRow l.1 x

/-- Precise-pipe computations of a row that a command closes, from the state before; WHOLE has made its own between its passes (R203). -/
def Cmd.closeCount (m : Cmd) (inflim : Bool) (x : RowSt) : Nat :=
  if m.rc.close && !(m.op == .norm && m.rc.nph == 0) then x.closePrecise inflim m.rc.imm0 else 0

/-- The row a command finishes: record, `TOPK` outputs, the closed state, the store of ST (Table 6.3). -/
def State.finishRow (s : State) (c : Inflight) (m : Cmd) : State :=
  let r := c.rowsDone
  let l := c.rowLine m r
  let x := s.loadRow l.1 l.2
  let t := if m.rc.close && m.op.rows then s.closeRow c m x r else (x, c, [])
  let s := s.bump 14 (m.closeCount c.modes.inflim x)
  let x := { t.1 with epoch := c.slot.epoch }
  let c := { t.2.1 with
    rowsDone := r + 1, since := s.tb.cycle, flags := t.2.1.flags.or (Flags.ofMask (x.status.toNat % 32))
    counts := t.2.1.counts.filter fun y => y.1 != r
    xund := t.2.1.xund || x.bit sXUND, xovr := t.2.1.xovr || x.bit sXOVR }
  let st := if m.rc.st then recordWrites (m.get .rs) none r x.bytes else []
  let c := if m.rc.ld then { c with writes := c.writes ++ st } else c
  ((s.storeRow l.1 x).modInflight c.tag fun _ => c).commitBeat c.tag (t.2.2 ++ if m.rc.ld then [] else st)

/-- ROW_RESULT: the next row of the oldest command that has one ready; a command without beats meets its bank conflict before its first
row (R270). -/
def State.rowResult (s : State) : State :=
  match s.stream.inflight.find? fun c => s.rowReady c with
  | none => s
  | some c =>
    if !s.running then s
    else match (if c.total = 0 then c.conflict else none) with
    | some k => s.failBank c k
    | none =>
      let m := c.cmd
      if !m.op.rows then
        let w := s.readOrFail c (match m.role? .mask with
          | some d => spanWords d none true c.rowsDone 0 (d.len c.regs)
          | none => [])
        let s := w.1
        if !w.2 then s
        else
          let x := s.flow c m
          let a : BeatAcc := { st := s, c := c, ws := [], back := [], hard := 0, n := 0 }
          let a := a.packRow x c.rowsDone ((upTo (m.outLen c.regs)).map fun k => s.keepBit m c.regs c.rowsDone k)
          (s.modInflight c.tag fun _ => { a.c with rowsDone := c.rowsDone + 1, since := s.tb.cycle }).commitBeat c.tag a.ws
      else
        let s := s.emptyRow c m c.rowsDone
        match s.inflight? c.tag with
        | none => s
        | some c => if c.fault.isSome ∧ (m.geo c.regs).c = 0 then s else s.finishRow c m

end Sys2Proof.Machine
end

