-- ==== Sys2Proof/Machine/Hold.lean ====
section
/-! DEFINITION. Whether the command at the head of the stream may issue, and the limiter code (R286 to R289, R296, R311 to
R314, R335, R336, R360, R371, R378, R402, R419). -/
namespace Sys2Proof.Machine
open Sys2Proof

/-- What holds a command at issue: escrow, lanes that wake, another wait that the escrow watchdog counts, or one that it
does not (R371). -/
inductive Hold
  | escrow | wake | counted | uncounted
  deriving DecidableEq, Repr

/-- What issue decides of a slot. -/
inductive Decision
  | issue (m : Cmd)
  | fault (code : W16) (detail : List Byte)
  | hold (h : Hold)
  deriving DecidableEq, Repr

/-- Commands that need the lanes (R378). -/
def Cmd.needsLanes (m : Cmd) : Bool :=
  match m.op with
  | .setlen | .waitgc | .cfg | .stmt | .sealing | .fnsync | .rollset => false
  | .assay => bitsOf m.chain 18 16 == 3
  | _ => true

def Entry.box (e : Entry) : Box := { write := e.write, lo := e.lo, hi := e.hi }

/-- The oldest entry that stands in a hazard with one of the boxes (R288). -/
def State.blocker (s : State) (bs : List Box) : Option Entry := s.escrow.entries.find? fun e => bs.any fun b => b.hazard e.box

/-- The write box of a roll's record over its region (R306). -/
def Roll.boxes (r : Roll) : List Box :=
  let g := r.region
  if g.2 ≤ g.1 then [] else [{ write := true, lo := g.1 / 64, hi := (g.2 - 1) / 64 }]

/-- Whether boxes must wait for older entries, for the box of a write of a roll record, or for free entries (R286, R288, R307). -/
def State.escrowHolds (s : State) (bs : List Box) : Bool :=
  !bs.isEmpty && ((s.blocker bs).isSome || (s.escrow.sets.any fun w => w.2.1.boxes.any fun x => bs.any fun b => b.hazard x) || decide (48 < s.escrow.entries.length + bs.length))

/-- Whether a `CFG` in flight holds what is younger (R335). -/
def State.cfgHeld (s : State) : Bool := s.stream.inflight.any fun c => !c.refused && c.cmd.op == .cfg

/-- The command in flight that holds every younger one: a `WAITGC` until its release, a `TENANT` (R336, R370, R388). -/
def State.streamHeld (s : State) : Bool :=
  s.stream.inflight.any fun c => !c.refused && ((c.cmd.op == .waitgc && !c.ready) || c.cmd.op == .tenant)

/-- Whether the ring of a `SETTLE` is up (R440). -/
def State.ringUp (s : State) (die : Bool) : Bool := (s.link (if die then .die else .cluster)).st == .up

/-- `SEAL` waits for the queue, the store and a rotation (R249, R260). -/
def State.sealWaits (s : State) : Bool :=
  decide (64 ≤ s.prov.rcpt.signQ.length) || decide (128 ≤ s.prov.rcpt.entries.length)
    || s.prov.keys.rot == .waiting || s.prov.keys.rot == .programming

/-- Faults at issue that Table 12.3 does not list: a context that is not enabled (R387), a ring that is not up (R230). -/
def State.lateFault (s : State) (m : Cmd) : Option (W16 × List Byte) :=
  let die := m.chain.testBit 56
  if m.op = .tenant ∧ !(vecGet s.tn.enable (m.chain % 8) false) then some (cILLCM, illcmDetail 5 0xFF 0 0xFF)
  else if m.op = .settle ∧ !s.ringUp die then some (cCLRDN, [BitVec.ofNat 8 die.toNat, 0])
  else none

/-- Waits of a command that has passed every check. -/
def State.issueHold (s : State) (m : Cmd) : Option Hold :=
  let older := !s.stream.inflight.isEmpty
  if (m.op = .tenant ∨ m.op = .cfg) ∧ (older ∨ !s.escrow.engines.isEmpty) then some .counted
  else if m.op = .sealing ∧ older then some .counted
  else if m.op = .sealing ∧ s.sealWaits then some .counted
  else if m.op = .mint ∧ (s.stream.inflight.any fun c => !c.refused && !c.gone && c.cmd.op == .mint) then some .counted
  else if s.escrowHolds (m.boxes s.regs) then some .escrow
  else if m.needsLanes ∧ s.pw.state ≠ .run then some .wake
  else none

/-- What keeps a wait from the watchdog's count, whatever else holds the command: a `WAITGC` or `TENANT` in flight, an epoch switch, lanes
that wake (R371). Lanes that a command waits for show as such, whatever else it waits for (R378). -/
def State.exempt (s : State) (x : Slot) (h : Hold) : Hold :=
  if s.streamHeld || (check1 s x && check2 s x && check3 s x == .hold) then .uncounted
  else if s.pw.state != .run && (x.decode (s.modesOf x.epoch)).any Cmd.needsLanes then .wake
  else h

/-- The unit slot that waits at issue. -/
def State.waitingSlot (s : State) : Option (Slot × Nat × Option (Nat × Nat)) :=
  s.stream.waiting.findSome? fun w => match w with | .unit x a t => some (x, a, t) | _ => none

/-- The epoch switch is due (R374). -/
def State.due (s : State) : Bool := s.ep.armed && decide (s.ep.switchGc.toNat ≤ s.gc.toNat)

/-- Whether a stamp is the previous epoch and not the current one (log 32). -/
def State.oldEpoch (s : State) (e : W16) : Bool := e == s.ep.prevEpoch && e != s.ep.curEpoch

/-- A command that carries the previous epoch is in flight or waits at issue. -/
def State.previousHeld (s : State) : Bool :=
  (s.stream.inflight.any fun c => !c.refused && s.oldEpoch c.slot.epoch)
    || (match s.waitingSlot with | some w => s.oldEpoch w.1.epoch | none => false)

/-- Whether the unit switches its epoch in this cycle, between two issues of the stream (R374). -/
def State.switches (s : State) : Bool := s.running && s.tb.state != .notAligned && s.due && !s.previousHeld

/-- Issue's decision on a slot at the head of the stream (R289, R314). Nothing leaves it while 32 commands stand between issue
and retirement (R360), nor before an epoch switch that takes place now, which a slot of the previous epoch itself would hold (R369, R374). -/
def State.verdict (s : State) (x : Slot) : Decision :=
  if s.switches && !s.oldEpoch x.epoch then .hold .uncounted
  else if 32 ≤ s.stream.inflight.length then .hold .counted
  else if s.ft.unit = .offline then .fault cUNITX [s.ft.cause]
  else if s.streamHeld || s.cfgHeld then .hold .counted
  else match checkSlot s x with
  | .fault k d => .fault k d
  | .hold => .hold .counted
  | .ok =>
    match x.decode (s.modesOf x.epoch) with
    | none => .fault cILLCM (illcmDetail 1 0xFF 0 0xFF)
    | some m =>
      match s.lateFault m with
      | some f => .fault f.1 f.2
      | none =>
        match s.issueHold m with
        | some h => .hold h
        | none => .issue m

/-- Issue's decision, with what exempts a wait from the watchdog's count. -/
def State.decision (s : State) (x : Slot) : Decision :=
  match s.verdict x with
  | .hold h => .hold (s.exempt x h)
  | d => d

/-! ### The limiter code (R419) -/

/-- Whether a declaration must wait: behind a `WAITGC`, `TENANT` or `CFG`, for a `ROLLSET` of a roll it claims, for escrow. -/
def State.declHeld (s : State) (boxes : List BoxOp) (claims : List ClaimOp) : Option Hold :=
  if s.streamHeld then some .uncounted
  else if s.cfgHeld || claims.any fun k => s.rollPending k.roll.toNat then some .counted
  else if s.escrowHolds (boxes.map fun b => { write := b.write, lo := b.lo.toNat, hi := b.hi.toNat }) then some .escrow
  else none

/-- The code of a slot that waits at issue; one behind a declaration waits for what holds the declaration, and one behind 32 commands shows
ISSUE, whatever else it waits for (R360; log 18). -/
def State.waitCode (s : State) (x : Slot) : Nat :=
  match s.stream.waiting.head? with
  | some (.decl _ _ bs ks _ _) => if s.declHeld bs ks = some .escrow then 7 else 10
  | _ => if 32 ≤ s.stream.inflight.length then 10 else match s.decision x with
    | .hold .escrow => 7
    | .hold .wake => 11
    | _ => 10

/-- Whether a `SETTLE` waits for an older command's use of its lines or for the pre-image buffer (R150, R215). -/
def State.settleHeld (s : State) (c : Inflight) (m : Cmd) : Bool :=
  let w := bitsOf m.chain 82 80 * slotLines c.modes.strict
  (upTo c.settle.length).any fun r =>
    !((c.settle.map (·.settled)).getD r true) &&
      let d := (c.rowLine m r).1
      let a := bitsOf m.chain 43 32 * slotLines c.modes.strict + r * w
      ((s.olderThan c.tag).any fun o => o.updates d w || o.readsLines d w || (!m.rc.ld && o.updates a w)) || s.preFull w

/-- Whether a `SETTLE` waits on its link: for records, or for the acknowledgement of its flits (R216). -/
def State.linkWait (s : State) (c : Inflight) (m : Cmd) : Bool :=
  let l := s.link (if m.chain.testBit 56 then .die else .cluster)
  c.fault.isNone && (c.settle.any (fun r => !r.settled)
    || (l.queue ++ l.replay).any fun b => leAt b 64 1 % 16 == 1 || leAt b 64 1 % 16 == 2)

/-- Commands whose tally can be slower than the lanes: strict sums, scans and octave-pivot sums, `TOPK` of more than 16, and the merge
datapath of `MERGE` (R177, R210, R223, Tables 6.1 and 7.10). -/
def Cmd.slowTally (m : Cmd) (strict : Bool) : Bool :=
  match m.op with
  | .red => strict && (m.rc.top == topSUM || m.rc.top == topMEAN)
  | .sel => decide (16 ≤ m.rc.k)
  | .scan | .smxa => strict
  | .ares => strict && m.rc.aph == 0
  | .xent => strict && m.rc.xph == 0
  | .norm => strict && decide (m.rc.nph ≤ 2)
  | .merge => true
  | _ => false

/-- The lane stream that holds a command in a cycle: LRD where a read group of its next beat, LWR where a write group of a beat in
flight is not yet issued (R271, R419). Which resource a cycle meets is a free value `w`, as beats take no cycles here (log 48). -/
def streamCode (c : Inflight) (next : Bool) (w : BitVec 3) : Nat :=
  if w = 1 ∧ next ∧ 0 < piecesAt c.pieces.1 c.started then 4
  else if w = 2 ∧ c.beats.any fun b => 0 < piecesAt c.pieces.2 b.idx then 5
  else 1

/-- The code of a command in flight, by the order of R419. A beat that waits for the Till is not at the precise pipe or the tally yet
(R89). -/
def State.flightCode (s : State) (c : Inflight) : Nat :=
  let m := c.cmd
  let g := m.geo c.regs
  let b := c.started
  let next := c.fault.isNone && decide (b < g.beats)
  let till := next && s.tillHeld c m g b
  let w := Config.streamLimit c.tag.toNat s.tb.cycle
  if m.op = .waitgc ∨ m.op = .tenant then 10
  else if !s.issueCycle || (next && s.pw.state != .run) then 11
  else if next && !(s.acquireAll (s.slotsNeeded c m g b)).2 then 8
  else if next && ((m.get .x).kind == .acc || (m.get .y).kind == .acc) && (g.pass b == 0 || !m.staged g) && s.stream.acc.isNone then 6
  else if s.queueFull || (w == 4 && next && !till && m.isCr) then 2
  else if (next && (s.rowHeld c m g b || (w == 3 && !till && m.slowTally c.modes.strict)))
      || (g.c == 0 && c.fault.isNone && decide (c.rowsDone < m.rowSteps c.regs) && s.emptyRowHeld c)
      || (m.op == .settle && s.settleHeld c m) then 3
  else if m.op == .settle && s.linkWait c m then 9
  else if till then 1
  else streamCode c next w

/-- The limiter code of the present cycle: LANE where a beat starts in it (R419). -/
def State.limiter (s : State) : Nat :=
  let beats (x : Slot) : Bool :=
    match x.decode (s.modesOf x.epoch) with
    | some m => decide (0 < (m.geo s.regs).beats)
    | none => false
  if s.stream.lastStart = some s.tb.cycle then 1
  else match s.nextBeat, s.waitingSlot, s.stream.inflight.head? with
  | some c, _, _ => s.flightCode c
  | none, some w, some c => if beats w.1 then s.waitCode w.1 else s.flightCode c
  | none, some w, none => s.waitCode w.1
  | none, none, some c => s.flightCode c
  | none, none, none => 0

end Sys2Proof.Machine
end

