-- ==== Sys2Proof/Machine/Due.lean ====
section
/-! DEFINITION. The events set against GC: when each is due and may fire, and the order in which those that are due at once fire
(R278, R279, R369, R374, R380, Table 14.3). -/
namespace Sys2Proof.Machine
open Sys2Proof

/-- Whether the unit is in the part of a cold start in which no view of GC stands yet (Table 17.5). -/
def Boot.cold (b : Boot) : Bool :=
  match b with
  | .otpLoad | .grant | .mbist | .romCheck | .laneTest | .tsync | .testMode => true
  | _ => false

/-- The time that step timers count: V, and TCLK cycles in a cold start until the unit is aligned (R380). -/
def State.stepClock (s : State) : Nat := if s.boot.cold && s.tb.state == .notAligned then s.tb.tclk else s.gc.toNat

/-- Whether a forced steal is due (R278). -/
def State.stealDue (s : State) : Bool :=
  s.boot == .ready && s.tb.state != .notAligned && decide (s.spad.nextSteal.toNat ≤ s.gc.toNat) && s.fclkRuns
    && s.spad.clearing.isNone

/-- Whether a telemetry sample is due: at every multiple of the period, and in a start before the view stands. -/
def State.sampleDue (s : State) : Bool := s.tb.state == .notAligned || decide (s.pw.nextSample.toNat ≤ s.gc.toNat)

/-- A clean check of every enabled lane and a clean ROM pass after a GC (R253). -/
def State.checkedSince (s : State) (gc : Gc) : Bool :=
  decide (gc.toNat < s.ft.romGc.toNat)
    && s.ft.groups.all fun g => g.st == .disabled || g.lastCheck.all fun c => decide (gc.toNat < c.toNat)

/-- Whether the lanes are clocked or wake: results, checks and receipt windows progress (R253, R379). -/
def State.checksRun (s : State) : Bool := s.boot == .ready && (s.pw.state == .run || s.pw.state == .waking)

/-- Whether a receipt's window closes now (R253). -/
def State.windowDue (s : State) (e : Receipt) : Bool := decide (e.deadline.toNat ≤ s.gc.toNat) && s.checkedSince e.gcSeal

/-- The first command of a kind that waits for its own event. -/
def State.awaiting (s : State) (o : Op) : Option Inflight :=
  s.stream.inflight.find? fun c => c.fault.isNone && !c.ready && c.cmd.op == o

/-- The target of a `WAITGC` (Table 12.13). -/
def Cmd.waitTarget (m : Cmd) : Nat := bitsOf m.chain 63 0

/-- The events of Table 14.3 that are due and may fire, each with its time and its order there. -/
def State.dueEvents (s : State) : List (Nat × Nat) :=
  let v := s.gc.toNat
  let aligned := s.tb.state != .notAligned
  on s.switches (s.ep.switchGc.toNat, 1)
    ++ (match s.pw.grant with | some t => on (s.fclkRuns && decide (t.toNat ≤ s.stepClock)) (t.toNat, 2) | none => [])
    ++ on s.stealDue (s.spad.nextSteal.toNat, 3)
    ++ on (s.boot == .ready && aligned && decide (s.ft.step < v / 128000)) (128000 * (s.ft.step + 1), 4)
    ++ on (s.boot != .otpLoad && aligned && decide (s.pw.nextSample.toNat ≤ v)) (s.pw.nextSample.toNat, 5)
    ++ (match s.awaiting .waitgc with
        | some c => on (s.running && aligned && decide (c.cmd.waitTarget ≤ v)) (c.cmd.waitTarget, 6)
        | none => [])
    ++ (if s.checksRun && aligned && decide (s.prov.rcpt.noticeQ.length < 64) then
          (s.prov.rcpt.entries.filter fun e => e.status == .signed && e.reason.isNone && s.windowDue e).map fun e => (e.deadline.toNat, 7)
        else [])

/-- Whether an event of a time and an order must wait for another one that is due: events due at once fire one in a cycle, in
increasing time, ties in the order of Table 14.3 (R369). -/
def State.behind (s : State) (t o : Nat) : Bool := s.dueEvents.any fun e => decide (e.1 < t) || (e.1 == t && decide (e.2 < o))

end Sys2Proof.Machine
end

