-- ==== Sys2Proof/Machine/Statement.lean ====
section
/-! DEFINITION. The Statement (R358 to R362, Tables 13.9 and 13.10). -/
namespace Sys2Proof.Machine
open Sys2Proof

/-- The 64-byte image of a mode set (Table 13.9). -/
def ModeSet.image (m : ModeSet) (epoch : W16) : List Byte :=
  padTo 64 ([BitVec.ofNat 8 m.strict.toNat, BitVec.ofNat 8 m.rnd.code, BitVec.ofNat 8 m.nonsat.toNat,
    BitVec.ofNat 8 m.inflim.toNat] ++ leBytes 2 epoch.toNat ++ [0, 0] ++ leBytes 8 m.seed.toNat ++ leBytes 8 m.key.toNat)

/-- A receipt without its notice (log 45). -/
def Receipt.pending (r : Receipt) : Bool := r.status != .noticed

def RcptStatus.code : RcptStatus → Nat
  | .queued => 1 | .signed => 2 | .noticeQueued => 3 | .noticed => 0

/-- Table 13.10. -/
def Receipt.slot (r : Receipt) : List Byte :=
  padTo 32 (leBytes 8 r.rseq.toNat ++ leBytes 8 r.gcSeal.toNat ++ leBytes 8 r.deadline.toNat
    ++ [BitVec.ofNat 8 r.status.code, BitVec.ofNat 8 r.tenant.toNat])

/-- 0x5000:08. -/
def RollState.code : RollState → Nat
  | .disabled => 0 | .active => 1 | .faultedU => 2 | .faultedO => 3

def Roll.slot (r : Roll) : List Byte :=
  leBytes 4 r.hseq.toNat ++ leBytes 4 r.tseq.toNat ++ leBytes 4 r.rhead.toNat ++ leBytes 4 r.rtail.toNat
    ++ leBytes 4 r.dropped.toNat ++ [BitVec.ofNat 8 r.st.code, BitVec.ofNat 8 r.overwrite.toNat]
    ++ leBytes 2 r.nslot.toNat ++ leBytes 4 r.base.toNat ++ leBytes 4 r.slotb.toNat

def Entry.slot (e : Entry) : List Byte :=
  leBytes 2 e.tag.toNat ++ [BitVec.ofNat 8 e.engine.toNat, if e.write then 2 else 1] ++ leBytes 4 e.lo ++ leBytes 4 e.hi
    ++ [0, 0, 0, 0]

/-- Statement LGROUP STATE. -/
def GroupState.code : GroupState → Nat
  | .full => 0 | .spare => 1 | .disabled => 2

/-- An entry of LGROUP; CHECK is the lane now shadowed (R394). -/
def Group.slot (g : Group) (step : Nat) : List Byte :=
  [BitVec.ofNat 8 g.st.code, g.remap, BitVec.ofNat 8 (step % 32), 0] ++ leBytes 4 g.cover.toNat

def Faults.group (f : Faults) (i : Nat) : Group := vecGet f.groups i .default

/-- The lane groups that are enabled, one bit each. -/
def Faults.mask (f : Faults) : Nat := (upTo 8).foldl (fun a i => a + (if (f.group i).st = .disabled then 0 else 2 ^ i)) 0

/-- Lane groups disabled. -/
def Faults.lost (f : Faults) : Nat := ((upTo 8).filter fun i => (f.group i).st == .disabled).length

/-- Cycles of the longest wait of a command in flight without a beat or at issue (R358). -/
def State.waited (s : State) : Nat :=
  let fl := s.stream.inflight.foldl (fun n c => max n (s.tb.cycle - c.since)) 0
  match s.waitingSlot with
  | some w => max fl (s.tb.cycle - w.2.1)
  | none => fl

/-- The stalled duration, 0 when the unit is not stalled. -/
def State.stall (s : State) : W32 := if s.waited < 4096 then 0 else satAdd 0 s.waited

def State.statementFlags (s : State) : Byte :=
  let halt := s.pw.state == .halt
  BitVec.ofNat 8 ((s.stall != 0 || halt).toNat + 2 * halt.toNat + 4 * s.ep.armed.toNat
    + 8 * (s.links.1.st == .down).toNat + 16 * (s.links.2.st == .down).toNat)

def fillTo (n : Nat) (fill : List Byte) (xs : List (List Byte)) : List Byte :=
  (xs.take n).flatten ++ (List.replicate (n - xs.length) fill).flatten

/-- Bytes 0 to 4091 of a Statement; `only` restricts the receipts listed to one context. NPEND counts those of every context all the same
(DESIGN CHOICE, log 89). -/
def State.statementBody (s : State) (only : Option (BitVec 3)) : List Byte :=
  let pend := s.prov.rcpt.entries.filter Receipt.pending
  let mine := pend.filter fun r => match only with | some t => r.tenant == t | none => true
  [0x01, s.statementFlags, BitVec.ofNat 8 s.tn.active.toNat, BitVec.ofNat 8 s.limiter]
    ++ leBytes 2 s.ep.curEpoch.toNat ++ leBytes 2 s.ep.prevEpoch.toNat ++ leBytes 8 s.gc.toNat
    ++ leBytes 8 s.fixed.ident.serial.toNat ++ leBytes 2 s.stream.lastTag.toNat
    ++ leBytes 2 ((s.waitingSlot.map fun w => w.1.tag).getD noTag).toNat
    ++ [BitVec.ofNat 8 s.stream.inflight.length, BitVec.ofNat 8 s.pw.issue, BitVec.ofNat 8 pend.length,
        BitVec.ofNat 8 s.ft.mask]
    ++ leBytes 4 s.ledger.head.toNat ++ leBytes 4 s.ledger.tail.toNat ++ leBytes 2 s.ep.pendEpoch.toNat
    ++ List.replicate 6 0 ++ leBytes 8 s.ep.switchGc.toNat ++ leBytes 4 s.stall.toNat ++ List.replicate 4 0
    ++ fillTo 32 [0xFF, 0xFF] (s.stream.inflight.map fun c => leBytes 2 c.tag.toNat)
    ++ fillTo 48 (List.replicate 16 0) (s.escrow.entries.map Entry.slot)
    ++ (s.rolls.toList.map Roll.slot).flatten
    ++ (s.regs.len.toList.map fun w => leBytes 4 w.toNat).flatten
    ++ leBytes 4 s.regs.gt.toNat ++ leBytes 4 s.regs.gh.toNat ++ leBytes 4 s.regs.gw.toNat ++ [0, 0, 0, 0]
    ++ (s.ft.groups.toList.map fun g => g.slot s.ft.step).flatten
    ++ leBytes 8 s.ft.sweepGc.toNat ++ leBytes 8 s.ft.romGc.toNat ++ List.replicate 16 0
    ++ fillTo 32 (List.replicate 32 0) (mine.map Receipt.slot)
    ++ s.ep.cur.image s.ep.curEpoch ++ s.ep.prev.image s.ep.prevEpoch
    ++ (if s.ep.armed then s.ep.pend.image s.ep.pendEpoch else List.replicate 64 0)
    ++ List.replicate 1340 0

/-- A Statement of 4,096 bytes. -/
def State.statement (s : State) (only : Option (BitVec 3)) : List Byte :=
  let b := s.statementBody only
  b ++ leBytes 4 (crc32c b).toNat

end Sys2Proof.Machine
end

