-- ==== Sys2Proof/Machine/Receipt.lean ====
section
/-! DEFINITION. Digest ranges, receipts, notices, exposure intervals and the signing key (R247 to R261). -/
namespace Sys2Proof.Machine
open Sys2Proof

/-! ### Digest ranges (R247, R248) -/

/-- A range that begins now: the digest of the prefix alone. -/
def Digest.begin (gc : Gc) (tenant : BitVec 3) (epoch : W16) : Digest :=
  { live := true, tenant := tenant, epoch := epoch
    sha := Sha.start.update (leBytes 2 epoch.toNat ++ [BitVec.ofNat 8 tenant.toNat, 0, 0, 0, 0, 0])
    count := 0, tagFirst := noTag, tagLast := noTag, gcStart := gc, sum := .zero }

/-- The context of an epoch that the unit holds. -/
def State.digest (s : State) (epoch : W16) : Digest := if epoch == s.ep.curEpoch then s.prov.cur else s.prov.prev

def State.setDigest (s : State) (epoch : W16) (d : Digest) : State :=
  s.modProv fun p => if epoch == s.ep.curEpoch then { p with cur := d } else { p with prev := d }

/-- The context whose commands are received now: behind a `TENANT` in flight, the one that it switches in. -/
def State.rangeTenant (s : State) : BitVec 3 :=
  match s.stream.inflight.find? fun c => !c.refused && c.cmd.op == .tenant with
  | some c => BitVec.ofNat 3 c.cmd.chain
  | none => s.tn.active

/-- A range begins at the first command under a tenant and epoch. -/
def State.openRange (s : State) (epoch : W16) : State :=
  if (s.digest epoch).live then s else s.setDigest epoch (.begin s.gc s.rangeTenant epoch)

/-- One command's words into a digest. -/
def Digest.take (d : Digest) (x : Slot) : Digest :=
  { d with
    sha := d.sha.update ((x.words.map fun w => leBytes 4 w.toNat).flatten), count := d.count + 1
    tagFirst := if d.count = 0 then x.tag else d.tagFirst, tagLast := x.tag }

/-- A command received under an epoch that the unit holds; `SEAL` is not digested (R249). -/
def State.receive (s : State) (x : Slot) : State :=
  if x.epoch == s.ep.curEpoch || x.epoch == s.ep.prevEpoch then
    let s := s.openRange x.epoch
    if x.op = some .sealing then s else s.setDigest x.epoch ((s.digest x.epoch).take x)
  else s

/-- A command refused with `EPOLD` counts in the next receipt (R248). -/
def State.countEpold (s : State) : State := s.modProv fun p => { p with epold := true, epoldCount := p.epoldCount + 1 }

/-! ### Sealing (R249, R250, Table 9.6) -/

/-- Assay slot (Table 9.6). -/
def Assay.slot (a : Assay) (i : Nat) : List Byte :=
  leBytes 8 a.value.toNat ++ leBytes 6 a.count.toNat
    ++ [BitVec.ofNat 8 i, match a.st with | .idle => 0 | .opened => 1 | .closed => 2]

def State.assay (s : State) (i : Nat) : Assay := vecGet s.st.assays i { st := .idle, value := 0, count := 0 }

/-- The numbers of the set bits of a 16-bit mask. -/
def maskBits (n : Nat) : List Nat := (upTo 16).filter fun i => n.testBit i

/-- FFLAGS without TAINT. -/
def Summary.flags (x : Summary) : Nat :=
  2 * x.settleF.toNat + 4 * x.minted.toNat + 8 * x.curvx.toNat + 16 * x.tbjmp.toNat + 32 * x.latel.toNat
    + 64 * x.accpv.toNat + 128 * x.eccue.toNat + 256 * x.epold.toNat

/-- The exposure interval that a range meets (R254). Of several the latest gives REASON and FAULTGC (DESIGN CHOICE, log 89). -/
def Receipts.taint (r : Receipts) (gcStart gcSeal : Gc) : Option (Gc × Gc × Nat) :=
  r.exposures.reverse.find? fun e => decide (gcStart.toNat ≤ e.2.1.toNat) && decide (e.1.toNat ≤ gcSeal.toNat)

/-- The summary of a range with the `EPOLD` refusals that wait for it. -/
def State.sealSummary (s : State) (d : Digest) : Summary :=
  { d.sum with
    epold := d.sum.epold || s.prov.epold
    faulted := satAdd d.sum.faulted s.prov.epoldCount }

/-- The receipt record of Table 9.6. -/
def State.sealRecord (s : State) (epoch : W16) (amask : Nat) (rseq : W64) : List Byte :=
  let d := s.digest epoch
  let ms := s.modesOf epoch
  let x := s.sealSummary d
  let as := maskBits amask
  let st := s.fixed.straps
  let taint := (s.prov.rcpt.taint d.gcStart s.gc).isSome
  [0x01, 0x01, BitVec.ofNat 8 (ms.strict.toNat + 2 * ms.rnd.code + 16 * ms.nonsat.toNat + 32 * ms.inflim.toNat),
      BitVec.ofNat 8 as.length, BitVec.ofNat 8 s.tn.active.toNat, st.die, BitVec.ofNat 8 st.cluster.toNat,
      BitVec.ofNat 8 st.pos.toNat]
    ++ leBytes 8 s.fixed.ident.serial.toNat ++ leBytes 2 epoch.toNat ++ leBytes 2 s.prov.keys.keygen.toNat
    ++ leBytes 2 d.tagFirst.toNat ++ leBytes 2 d.tagLast.toNat ++ leBytes 8 s.gc.toNat ++ leBytes 8 d.count.toNat
    ++ leBytes 8 rseq.toNat ++ d.sha.finish ++ leBytes 8 ms.key.toNat ++ leBytes 8 (s.gc.toNat + 5000000)
    ++ leBytes 8 d.gcStart.toNat ++ leBytes 2 x.replays.toNat ++ leBytes 2 x.corrected.toNat
    ++ [x.faulted, BitVec.ofNat 8 (min x.remaps 15 + 16 * s.ft.lost)] ++ leBytes 2 (taint.toNat + x.flags)
    ++ padTo 128 ((as.map fun i => (s.assay i).slot i).flatten)

/-- `SEAL` captures: the record, the store's entry queued for signing, and with `rstd` a new range (R249). RSEQ counts from
1 (log 46). -/
def State.sealNow (s : State) (epoch : W16) (amask : Nat) (rstd : Bool) : State × List Byte × W64 :=
  let s := s.openRange epoch
  let rseq := s.prov.rcpt.rseq + 1
  let rec_ := s.sealRecord epoch amask rseq
  let d := s.digest epoch
  let e : Receipt :=
    { rseq := rseq, tenant := s.tn.active, gcSeal := s.gc, gcStart := d.gcStart
      deadline := BitVec.ofNat 64 (s.gc.toNat + 5000000), record := rec_, sig := [], notice := [], nsig := []
      status := .queued, reason := (s.prov.rcpt.taint d.gcStart s.gc).map fun e => (e.2.2, e.2.1), confirmed := false }
  let s := s.modRcpt fun r => { r with entries := r.entries ++ [e], signQ := r.signQ ++ [rseq], rseq := rseq }
  let s := s.modProv fun p => { p with epold := false, epoldCount := 0 }
  (if rstd then s.setDigest epoch (.begin s.gc s.tn.active epoch) else s, rec_, rseq)

/-! ### Signing (R251, R252, R255) -/

def Receipts.entry? (r : Receipts) (rseq : W64) : Option Receipt := r.entries.find? fun e => e.rseq == rseq

def Receipts.modEntry (r : Receipts) (rseq : W64) (f : Receipt → Receipt) : Receipts :=
  { r with entries := updateFirst (fun e => e.rseq == rseq) f r.entries }

/-- Invalidation notices of signed receipts take their place in the queue, while it has one (R252, R254). -/
def Receipts.queueNotices (r : Receipts) : List Receipt → Receipts
  | [] => r
  | e :: es =>
    (if e.status == .signed && e.reason.isSome && decide (r.noticeQ.length < 64) then
        { r.modEntry e.rseq (fun e => { e with status := .noticeQueued }) with noticeQ := r.noticeQ ++ [e.rseq] }
      else r).queueNotices es

def Receipts.settled (r : Receipts) : Receipts := r.queueNotices r.entries

/-- The private scalar in force. -/
def State.key (s : State) : Nat := (s.fixed.otp.keys.getD s.prov.keys.keygen.toNat 0).toNat

/-- Whether the signing engine can work: not in test mode (R446), with a key. -/
def State.signs (s : State) : Bool :=
  s.boot != .testMode && decide (s.prov.keys.keygen.toNat < s.fixed.otp.keys.length)

/-- Bytes 0 to 127 of the transition record (R260). -/
def State.transition (s : State) (key : BitVec 384) : List Byte :=
  let g := s.prov.keys.keygen
  leBytes 2 g.toNat ++ leBytes 2 (g + 1).toNat ++ [0, 0, 0, 0] ++ leBytes 8 s.fixed.ident.serial.toNat
    ++ leBytes 8 s.gc.toNat ++ publicKey key.toNat ++ List.replicate 7 0

/-- Once the signing queue has drained the rotation forms the transition record, signs it with the old key and goes on to program
the OTP (R260). -/
def State.drained (s : State) : State :=
  match s.prov.keys.next with
  | some k =>
    if s.prov.keys.rot = .waiting ∧ s.prov.rcpt.signQ.isEmpty then
      let t := s.transition k
      s.modProv fun p => { p with keys := { p.keys with rot := .programming, record := t ++ ecdsaSign s.key t } }
    else s
  | none => s

/-- SIGNATURE_COMPLETE: the oldest queued receipt is signed; the two queues take turns. -/
def State.signatureComplete (s : State) : State :=
  match s.prov.rcpt.signQ with
  | [] => s
  | q :: qs =>
    let busy := s.prov.rcpt.noticeTurn && !s.prov.rcpt.noticeQ.isEmpty
    if !s.signs || busy then s
    else
      match s.prov.rcpt.entry? q with
      | none => s.modRcpt fun r => { r with signQ := qs }
      | some e =>
        let s := s.modRcpt fun r =>
          ({ r with signQ := qs, noticeTurn := true }.modEntry q fun e =>
            { e with sig := ecdsaSign s.key e.record, status := .signed }).settled
        (s.log cSEALD noTag (some e.tenant) (leBytes 8 q.toNat)).drained

/-- The notice of a receipt (Table 9.8). -/
def State.noticeOf (s : State) (e : Receipt) : List Byte :=
  let kind : Byte := if e.reason.isSome then 2 else 1
  [0x01, kind] ++ leBytes 2 ((e.reason.map fun r => r.1).getD 0) ++ leBytes 2 s.prov.keys.keygen.toNat ++ [0, 0]
    ++ leBytes 8 s.fixed.ident.serial.toNat ++ leBytes 8 e.rseq.toNat ++ leBytes 8 s.gc.toNat ++ sha384 e.record
    ++ leBytes 8 ((e.reason.map fun r => r.2.toNat).getD 0) ++ List.replicate 8 0

/-- NOTICE_SIGNED: the oldest queued notice is formed and signed, and logged as `CONFM` or `PROVX` (R253 to R255); that of a warm
reset waits for the restart (Table 9.7). The notice is formed now, not when it was queued (DESIGN CHOICE, log 89). -/
def State.noticeSigned (s : State) : State :=
  match s.prov.rcpt.noticeQ with
  | [] => s
  | q :: qs =>
    let busy := !s.prov.rcpt.noticeTurn && !s.prov.rcpt.signQ.isEmpty
    if !s.signs || busy || s.prov.keys.rot = .programming then s
    else
      match s.prov.rcpt.entry? q with
      | none => s.modRcpt fun r => { r with noticeQ := qs }
      | some e =>
        if (e.reason.map fun r => r.1) = some 4 ∧ s.boot ≠ .ready then s
        else
        let n := s.noticeOf e
        let s := s.modRcpt fun r =>
          ({ r with noticeQ := qs, noticeTurn := false, lastConfirm := if e.reason.isNone then s.gc else r.lastConfirm }.modEntry q
            fun e => { e with notice := n, nsig := ecdsaSign s.key n, status := .noticed, confirmed := e.reason.isNone }).settled
        match e.reason with
        | none => s.log cCONFM noTag (some e.tenant) (leBytes 8 q.toNat)
        | some r => s.log cPROVX noTag (some e.tenant) (leBytes 8 q.toNat ++ leBytes 2 r.1)

/-! ### Exposure (R254, Table 9.7) -/

/-- The receipts that satisfy `p` and are not confirmed are invalidated. One whose confirmation is queued and not signed is not confirmed
yet, and one already struck keeps its first reason (DESIGN CHOICE, log 89). -/
def State.invalidate (s : State) (reason : Nat) (p : Receipt → Bool) : State :=
  s.modRcpt fun r =>
    { r with entries := r.entries.map fun (e : Receipt) =>
        if e.reason.isNone && !e.confirmed && p e then { e with reason := some (reason, s.gc) } else e }.settled

/-- A fault that escaped masking: the interval [E, now] is exposed. -/
def State.expose (s : State) (e : Gc) (reason : Nat) : State :=
  let s := s.modRcpt fun r => { r with exposures := r.exposures ++ [(e, s.gc, reason)] }
  s.invalidate reason fun x => decide (x.gcStart.toNat ≤ s.gc.toNat) && decide (e.toNat ≤ x.gcSeal.toNat)

/-- Every unconfirmed receipt is invalidated (reasons 3 and 4); the loss of the unit exposes from the last confirmation. -/
def State.invalidateAll (s : State) (reason : Nat) : State :=
  let s := if reason = 3 then
      s.modRcpt fun r => { r with exposures := r.exposures ++ [(r.lastConfirm, s.gc, reason)] } else s
  s.invalidate reason fun _ => true

/-! ### Windows (R253) -/

def Receipts.closeWindows (r : Receipts) (due : Receipt → Bool) : List Receipt → Receipts
  | [] => r
  | e :: es =>
    (if e.status == .signed && e.reason.isNone && decide (r.noticeQ.length < 64) && due e then
        { r.modEntry e.rseq (fun e => { e with status := .noticeQueued }) with noticeQ := r.noticeQ ++ [e.rseq] }
      else r).closeWindows due es

/-- RECEIPT_WINDOW_TEST: windows whose three conditions hold close, and their confirmations are queued. While FCLK is halted or
gated they stay open; a window waits for other events that are due before it (R369). -/
def State.receiptWindowTest (s : State) : State :=
  if s.checksRun && s.tb.state != .notAligned then
    s.modRcpt fun r => (r.closeWindows (fun e => s.windowDue e && !s.behind e.deadline.toNat 7) r.entries).settled
  else s

/-! ### Keys (R258, R260) -/

/-- The next private scalar: the accepted draw of rejection sampling plus one (FIPS 186-5, log 10). -/
def State.drawKey (s : State) : BitVec 384 × State :=
  (BitVec.ofNat 384 ((Config.keyDraw s.free).val + 1), { s with free := s.free + 1 })

/-- KEY_GENERATED: the key of the next generation is ready, new `SEAL`s wait and the queue drains (R260). -/
def State.keyGenerated (s : State) : State :=
  if s.prov.keys.rot = .generating ∧ s.boot ≠ .testMode then
    let k := s.drawKey
    (k.2.modProv fun p => { p with keys := { p.keys with rot := .waiting, next := some k.1 } }).drained
  else s

/-- KEYRT: record, key and valid mark are programmed, and the keys switch (R260, R443). -/
def State.keyrt (s : State) : State :=
  match s.prov.keys.rot, s.prov.keys.next with
  | .programming, some k =>
    let g := s.prov.keys.keygen
    let rec_ := s.prov.keys.record
    let s := { s with fixed := { s.fixed with
      otp := { s.fixed.otp with keys := s.fixed.otp.keys ++ [k], trans := s.fixed.otp.trans ++ [rec_] }
      ident := { s.fixed.ident with trans := s.fixed.ident.trans ++ [rec_] } } }
    (s.modProv fun p => { p with keys := { p.keys with keygen := g + 1, rot := .idle, next := none, record := [] } }).log cKEYRT noTag none
      (leBytes 2 g.toNat ++ leBytes 2 (g + 1).toNat)
  | _, _ => s

end Sys2Proof.Machine
end

