-- ==== Sys2Proof/Machine/Link.lean ====
section
/-! DEFINITION. Flits, acknowledgement words and the link layer of the settlement rings (R225 to R231). -/
namespace Sys2Proof.Machine
open Sys2Proof

/-! ### Flits (Tables 8.4 and 8.5) -/

/-- The fields of a flit beside its link sequence number and CRC. -/
structure Flit where
  payload : List Byte
  strict  : Bool
  tenant  : BitVec 3
  type    : Nat
  src     : Nat
  dst     : Nat
  slot    : Nat
  bcast   : Bool
  part    : Nat
  sid     : W16
  epoch   : W16
  row     : W16
  nrows   : W16
  deriving DecidableEq, Repr

def Flit.ofBytes (b : List Byte) : Flit :=
  let h := leAt b 64 1
  let p := leAt b 66 1
  let q := leAt b 67 1
  { payload := padTo 64 (slice b 0 64), strict := h.testBit 7, tenant := BitVec.ofNat 3 (h / 16), type := h % 16
    src := p % 16, dst := p / 16, slot := q / 16 % 8, bcast := q.testBit 3, part := q % 8
    sid := BitVec.ofNat 16 (leAt b 68 2), epoch := BitVec.ofNat 16 (leAt b 70 2), row := BitVec.ofNat 16 (leAt b 72 2)
    nrows := BitVec.ofNat 16 (leAt b 74 2) }

/-- The 80 bytes of a flit under a link sequence number. -/
def Flit.bytes (f : Flit) (seq : Byte) : List Byte :=
  let b := padTo 64 f.payload
    ++ [BitVec.ofNat 8 (128 * f.strict.toNat + 16 * f.tenant.toNat + f.type), seq, BitVec.ofNat 8 (16 * f.dst + f.src),
        BitVec.ofNat 8 (16 * f.slot + 8 * f.bcast.toNat + f.part)]
    ++ leBytes 2 f.sid.toNat ++ leBytes 2 f.epoch.toNat ++ leBytes 2 f.row.toNat ++ leBytes 2 f.nrows.toNat
  b ++ leBytes 4 (crc32c b).toNat

def tIDLE : Nat := 0
def tPART : Nat := 1
def tFINAL : Nat := 2
def tABORT : Nat := 3
def tTRAIN : Nat := 4

/-- An `ABORT` flit from a position: fault code, row, settlement and its ROWS (Tables 8.4, 8.5). It holds no record, and its STRICT bit
is 0 (DESIGN CHOICE, log 90). -/
def Flit.abort (code row : W16) (pos : Nat) (tenant : BitVec 3) (sid epoch nrows : W16) : Flit :=
  { payload := leBytes 2 code.toNat ++ leBytes 2 row.toNat ++ [BitVec.ofNat 8 pos], strict := false, tenant := tenant
    type := tABORT, src := pos, dst := 0, slot := 0, bcast := false, part := 0, sid := sid, epoch := epoch, row := row, nrows := nrows }

/-- A ring-down notice, or with no code a ring-up notice (Table 8.5). No settlement gives its EPOCH, ROW, NROWS and TENANT, which are 0
(DESIGN CHOICE, log 90). -/
def Flit.notice (down : Bool) (pos : Nat) : Flit := .abort (if down then cCLRDN else 0) 0 pos 0 0xFFFF 0 0

/-- A flit without a payload of a type: IDLE or TRAIN (Table 8.5). Its DST is 0, as is that of FINAL and ABORT flits, a TRAIN flit's
SEQ is 0, and so are the fields that a record or a settlement would give (DESIGN CHOICE, log 90). -/
def Flit.plain (type pos : Nat) : Flit :=
  { payload := List.replicate 64 0, strict := false, tenant := 0, type := type, src := pos, dst := 0, slot := 0, bcast := false
    part := 0, sid := 0, epoch := 0, row := 0, nrows := 0 }

def Flit.code (f : Flit) : W16 := BitVec.ofNat 16 (leAt f.payload 0 2)
def Flit.detector (f : Flit) : Nat := leAt f.payload 4 1

/-! ### Rings -/

def isDie : Scope → Bool
  | .cluster => false
  | .die => true

def scopeByte (c : Scope) : Byte := if isDie c then 1 else 0

def ringSize (c : Scope) : Nat := if isDie c then 16 else 4

/-- This unit's position on a ring (R211). -/
def State.position (s : State) (c : Scope) : Nat := s.ringPos (isDie c)

/-! ### The transmitter -/

/-- The flit of one ring cycle (R227, R228, R230, R427): TRAIN on a link that is down, else the next flit that is sent again, else a new
one, which is an IDLE flit where none waits; none while HOLD stands or the replay buffer is full. -/
def Link.emit (l : Link) (me : Nat) : Link × Option (List Byte) :=
  let sent := satAdd l.sent 1
  if l.down then ({ l with sent := sent }, some ((Flit.plain tTRAIN me).bytes 0))
  else match l.replay[l.next]? with
    | some b => ({ l with next := l.next + 1, sent := sent }, some b)
    | none =>
      if l.hold ∨ 64 ≤ l.replay.length then (l, none)
      else
        let b := ((l.queue.head?.map Flit.ofBytes).getD (Flit.plain tIDLE me)).bytes l.txSeq
        ({ l with queue := l.queue.drop 1, replay := l.replay ++ [b], next := l.next + 1, txSeq := l.txSeq + 1, sent := sent }, some b)

/-- The acknowledgement timer runs while something is unacknowledged and HOLD is clear (R228). -/
def Link.time (l : Link) : Link := if l.hold ∨ l.replay.isEmpty then l else { l with quiet := l.quiet + 1 }

/-- Flits joined to the waiting ones, in order. -/
def State.send (s : State) (c : Scope) (fs : List Flit) : State :=
  s.modLink c fun l => { l with queue := l.queue ++ fs.map fun f => f.bytes 0 }

/-- The unacknowledged flits are to be sent again, in order; one retry (R228). -/
def State.resend (s : State) (c : Scope) : State :=
  s.modLink c fun l => { l with retries := satAdd l.retries 1, consec := l.consec + 1, next := 0, quiet := 0 }

/-- Even parity over bits [15:14] and [8:0] (Table 8.6). -/
def ackParity (w : W16) : Bool :=
  ((upTo 16).filter fun i => w.getLsbD i && (i == 15 || i == 14 || decide (i ≤ 8))).length % 2 == 1

/-- An acknowledgement word (Table 8.6). -/
def ackWord (nak hold : Bool) (seq : Byte) (valid : Bool := true) : W16 :=
  let w : W16 := BitVec.ofNat 16 (2 ^ 15 * nak.toNat + 2 ^ 14 * hold.toNat + 256 * valid.toNat + seq.toNat)
  w ||| (if ackParity w then 0x2000 else 0)

/-- Whether the settlement buffer of 256 payloads is full, so that the receivers hold their links (R226). -/
def State.holds (s : State) : Bool := decide (256 ≤ s.setBuf.length)

/-- The word of a ring cycle goes out. -/
def State.driveWord (s : State) (c : Scope) (w : W16) : State :=
  (s.modLink c fun l => { l with worded := true }).modOut fun o => { o with acks := o.acks ++ [(c, w)] }

/-- The answer to a flit. -/
def State.ack (s : State) (c : Scope) (nak : Bool) (seq : Byte) : State := s.driveWord c (ackWord nak s.holds seq)

/-- The word of a ring cycle without an acknowledgement (R227). -/
def State.ackIdle (s : State) (c : Scope) : State := s.driveWord c (ackWord false s.holds 0 false)

/-- Flits that an acknowledgement of `seq` covers: the window starts at txSeq − length of the replay buffer. -/
def Link.covered (l : Link) (seq : Byte) : Nat :=
  let n := l.replay.length
  let d := (seq - (l.txSeq - BitVec.ofNat 8 n)).toNat + 1
  if n < d then 0 else d

/-- Whether the ring ports work: training begins when the OTP is loaded, and everything stops in thermal halt (R212, R379). -/
def State.ringWorks (s : State) : Bool := s.boot != .otpLoad && s.fclkRuns

/-- One cycle of a ring port: the reverse lane carries a word, unless that of this cycle has answered a flit already, and the transmitter
sends one flit (R227, R427). While RST_POR_N is 0, and
until the OTP is loaded, the word is 0 and the flit all zero (R434, log 91). -/
def State.portCycle (s : State) (c : Scope) : State :=
  if s.boot = .otpLoad then
    s.modOut fun o => { o with flits := o.flits ++ [(c, List.replicate 80 0)], acks := o.acks ++ [(c, 0)] }
  else if !s.ringWorks then s
  else
    let s := if (s.link c).worded then s else s.ackIdle c
    let r := ((s.link c).time).emit (s.position c)
    (s.setLink c { r.1 with worded := false }).modOut fun o => { o with flits := o.flits ++ (r.2.map fun b => (c, b)).toList }

/-- One ring cycle. -/
def State.ringCycle (s : State) : State := (s.portCycle .cluster).portCycle .die

end Sys2Proof.Machine
end

