-- ==== Sys2Proof/Machine/Settle.lean ====
section
/-! DEFINITION. `SETTLE` and the ring ports: sending, forwarding, merging, gathering, aborting (R211 to R220, R226 to R232). -/
namespace Sys2Proof.Machine
open Sys2Proof

/-! ### A SETTLE's fields (Table 8.1) -/

def Cmd.scope (m : Cmd) : Scope := if m.chain.testBit 56 then .die else .cluster
def Cmd.sid (m : Cmd) : W16 := BitVec.ofNat 16 (bitsOf m.chain 31 16)
def Cmd.settleRows (m : Cmd) : Nat := bitsOf m.chain 79 64
def Cmd.settleQ (m : Cmd) : Nat := bitsOf m.chain 82 80

/-- The participants in increasing ring position. -/
def Cmd.parties (m : Cmd) : List Nat := maskBits (bitsOf m.chain 15 0)

/-- The owner of a row (R214). -/
def Cmd.owner (m : Cmd) (r : Nat) : Nat := m.parties.getD (r % m.parties.length) 0

/-- The participant after a position in the list, going round. -/
def Cmd.after (m : Cmd) (pos : Nat) : Nat :=
  let i := (findIdx' (· == pos) m.parties).getD 0
  m.parties.getD ((i + 1) % m.parties.length) 0

/-- The participant before a position in the list, going round. -/
def Cmd.before (m : Cmd) (pos : Nat) : Nat :=
  let i := (findIdx' (· == pos) m.parties).getD 0
  m.parties.getD ((i + m.parties.length - 1) % m.parties.length) 0

/-- Source and destination lines of a row. -/
def Inflight.srcLine (c : Inflight) (m : Cmd) (r : Nat) : Nat :=
  bitsOf m.chain 43 32 * slotLines c.modes.strict + r * (m.settleQ * slotLines c.modes.strict)

def Inflight.dstLine (c : Inflight) (m : Cmd) (r : Nat) : Nat := (c.rowLine m r).1

/-- Flits of a record (R225). -/
def recordFlits (strict : Bool) (q : Nat) : Nat := q * (slotBytes strict / 64)

/-- A record as flits. -/
def Inflight.flits (c : Inflight) (m : Cmd) (type src dst row : Nat) (bs : List Byte) : List Flit :=
  let n := slotBytes c.modes.strict / 64
  (upTo (recordFlits c.modes.strict m.settleQ)).map fun i =>
    { payload := slice bs (64 * i) 64, strict := c.modes.strict, tenant := c.slot.tenant, type := type, src := src, dst := dst
      slot := i / n, bcast := type == tFINAL, part := i % n, sid := m.sid, epoch := c.slot.epoch
      row := BitVec.ofNat 16 row, nrows := BitVec.ofNat 16 m.settleRows }

/-! ### Aborts (R217) -/

/-- Whether a flit belongs to a settlement of a context on a ring. -/
def BufFlit.hasKey (b : BufFlit) (scope : Scope) (tenant : BitVec 3) (sid : W16) : Bool :=
  let f := Flit.ofBytes b.flit
  b.scope == scope && f.tenant == tenant && f.sid == sid

def State.discard (s : State) (scope : Scope) (tenant : BitVec 3) (sid : W16) : State :=
  { s with setBuf := s.setBuf.filter fun b => !b.hasKey scope tenant sid }

/-- The unit's own `SETTLE` with a key, in flight and not aborted. -/
def State.settle? (s : State) (scope : Scope) (tenant : BitVec 3) (sid : W16) : Option Inflight :=
  s.stream.inflight.find? fun c =>
    let m := c.cmd
    c.fault.isNone && m.op == .settle && m.scope == scope && c.slot.tenant == tenant && m.sid == sid

/-- This unit's part of an abort: the command carries the fault, and the buffered flits go. -/
def State.abortOwn (s : State) (c : Inflight) (code : W16) : State :=
  let m := c.cmd
  (s.modInflight c.tag fun c => { c with fault := some code }).discard m.scope c.slot.tenant m.sid

/-- The unit detects the abort: a Ledger entry, an `ABORT` flit to every unit, and its own part. -/
def State.abortSettle (s : State) (c : Inflight) (code : W16) (row : Nat) (detail : List Byte) : State :=
  let m := c.cmd
  let s := s.log code c.tag (some c.slot.tenant) detail
  (s.abortOwn c code).send m.scope
    [.abort code (BitVec.ofNat 16 row) (s.position m.scope) c.slot.tenant m.sid c.slot.epoch (BitVec.ofNat 16 m.settleRows)]

/-- A record mismatch (R218): `ILLCM` with the row and the sending position. -/
def State.mismatch (s : State) (c : Inflight) (row pos : Nat) : State :=
  s.abortSettle c cILLCM row (illcmDetail 0xFF 0xFF row pos)

/-- The ring is down for this unit: every `SETTLE` in flight on it aborts with its own entry (R217, R230). -/
def State.ringFalls (s : State) (scope : Scope) : State :=
  (s.stream.inflight.filter fun c => c.fault.isNone && c.cmd.op == .settle && c.cmd.scope == scope).foldl
    (fun s c => (s.log cCLRDN c.tag (some c.slot.tenant) [scopeByte scope, 2]).abortOwn c cCLRDN) s

/-! ### Records -/

/-- Whether the source state of a row has had the last update of every older command (R215). -/
def State.sourceReady (s : State) (c : Inflight) (m : Cmd) (r : Nat) : Bool :=
  m.rc.ld || !((s.olderThan c.tag).any fun o => o.updates (c.srcLine m r) (m.settleQ * slotLines c.modes.strict))

/-- The source state of a row: the words of RS that cannot be read, or the state. -/
def State.sourceRow (s : State) (c : Inflight) (m : Cmd) (r : Nat) : State × Option (Nat × Byte) × RowSt :=
  if m.rc.ld then
    let d := m.get .rs
    let w := s.checkWords c.tag (some c.slot.tenant) (spanWords d none false r 0 (d.len c.regs))
    (w.1, w.2, RowSt.ofBytes (w.1.spad.readRow d none r (d.len c.regs)))
  else
    let n := m.settleQ * slotLines c.modes.strict
    let s := s.readStructure 2 c.tag (some c.slot.tenant) ((upTo n).map (· + c.srcLine m r))
    (s, none, s.loadRow (c.srcLine m r) n)

/-- A source that may be sent: open or closed, of the command's mode, and with Q slots (R215, R224, R326). -/
def sourceOk (c : Inflight) (m : Cmd) (x : RowSt) : Bool :=
  x.valid && x.strict == c.modes.strict && slotsPerRow x.top x.k x.strict == m.settleQ

def Inflight.modRow (c : Inflight) (r : Nat) (f : SettleRow → SettleRow) : Inflight := { c with settle := listUpdate r f c.settle }

def Inflight.row? (c : Inflight) (r : Nat) : SettleRow :=
  c.settle.getD r { sent := false, record := [], merged := [], final := none, settled := false }

/-- The settled state takes its place (R216, R219, R220): destination slots, RSO and, when it closes, RES. -/
def State.place (s : State) (c : Inflight) (m : Cmd) (r : Nat) (bs : List Byte) (ma : W32) : State :=
  let x := { RowSt.ofBytes bs with ma := ma, epoch := c.slot.epoch, state := 1 }
  let f := if m.rc.close then
      x.finish m.rnd c.modes.nonsat c.modes.inflim Config.closeEps Config.closeLambda true (0, 0)
    else (x, [])
  let y := f.1
  let ws := (match m.role? .rso with | some d => recordWrites d none r y.bytes | none => [])
    ++ (match m.role? .res with | some d => if m.rc.close then recordWrites d none r f.2 else [] | none => [])
  let l := c.rowLine m r
  let pre := (upTo l.2).map fun i => (l.1 + i, s.rowLines (l.1 + i) 1)
  let s := if m.rc.close then s.bump 14 (x.closePrecise c.modes.inflim Config.closeLambda) else s
  ((s.storeRow (c.dstLine m r) y).doWrites c.tag ws).modInflight c.tag fun c =>
    { c.modRow r fun w => { w with final := some (bs, ma), settled := true } with
      since := s.tb.cycle, pre := c.pre ++ pre, flags := c.flags.or (Flags.ofMask (y.status.toNat % 32)) }

/-- Whether the destination slots of a row wait for an older command or for the pre-image buffer (R150, R151, R216). -/
def State.placeHeld (s : State) (c : Inflight) (m : Cmd) (r : Nat) : Bool :=
  let n := m.settleQ * slotLines c.modes.strict
  ((s.olderThan c.tag).any fun o => o.updates (c.dstLine m r) n || o.readsLines (c.dstLine m r) n) || s.preFull n

/-- Whether a buffered flit belongs to a row of a `SETTLE`. -/
def BufFlit.ofRow (b : BufFlit) (c : Inflight) (m : Cmd) (row : Nat) : Bool :=
  b.hasKey m.scope c.slot.tenant m.sid && (Flit.ofBytes b.flit).row.toNat == row

/-- The buffered payloads of a row read: a single-bit error is corrected, and an uncorrectable one leaves its flit marked (R404). -/
def State.readBuffer (s : State) (c : Inflight) (m : Cmd) (row : Nat) : State :=
  let bad := s.setBuf.filter fun b => b.ofRow c m row && !b.synd.isEmpty
  let s := bad.foldl (fun s b => b.synd.foldl (fun s e => s.codeEvent 5 e.1 c.tag (some c.slot.tenant) e.2 (classify e.2)) s) s
  if bad.isEmpty then s
  else { s with
    setBuf := s.setBuf.map fun b => if !b.ofRow c m row then b else
      { b with
        flit := b.synd.foldl (fun f e => match classify e.2 with | .dataBit j => flipBit f (8 * e.1) j | _ => f) b.flit
        synd := b.synd.filter fun e => (classify e.2).bad } }

/-- The sending position of a buffered payload of a row that cannot be read, which is a record mismatch (R217, Table 15.3). -/
def State.bufferBad (s : State) (c : Inflight) (m : Cmd) (row : Nat) : Option Nat :=
  (s.setBuf.find? fun b => b.ofRow c m row && b.synd.any fun e => (classify e.2).bad).map fun b => (Flit.ofBytes b.flit).src

/-- The buffered flits of a record from a position, in order; none while it is not whole. -/
def State.bufRecord (s : State) (c : Inflight) (m : Cmd) (type src row : Nat) : Option (List Byte) :=
  let fs := s.setBuf.filter fun b =>
    let f := Flit.ofBytes b.flit
    b.hasKey m.scope c.slot.tenant m.sid && f.type == type && f.src == src && f.row.toNat == row
  let n := slotBytes c.modes.strict / 64
  let need := recordFlits c.modes.strict m.settleQ
  let chunk (i : Nat) : Option (List Byte) :=
    (fs.find? fun b => let f := Flit.ofBytes b.flit; f.slot == i / n && f.part == i % n).map fun b => slice b.flit 0 64
  let cs := (upTo need).filterMap chunk
  if cs.length = need then some cs.flatten else none

/-- Those flits leave the buffer. -/
def State.dropRecord (s : State) (c : Inflight) (m : Cmd) (type src row : Nat) : State :=
  { s with setBuf := s.setBuf.filter fun b =>
      let f := Flit.ofBytes b.flit
      !(b.hasKey m.scope c.slot.tenant m.sid && f.type == type && f.src == src && f.row.toNat == row) }

/-! ### The reduce and gather phases (R214) -/

/-- The owner has merged every part: the state is settled, sent as FINAL flits and put in place. -/
def State.finalRow (s : State) (c : Inflight) (m : Cmd) (r : Nat) (own : RowSt) (bs : List Byte) : State :=
  let me := s.position m.scope
  let x := { RowSt.ofBytes bs with ma := own.ma, epoch := c.slot.epoch, state := 1 }
  (s.send m.scope (c.flits m tFINAL me 0 r x.bytes)).place c m r x.bytes own.ma

/-- A strict owner or later participant merges the record it has received with its own source (R214). -/
def State.strictStep (s : State) (c : Inflight) (m : Cmd) (r : Nat) (own : RowSt) : State :=
  let me := s.position m.scope
  let owner := m.owner r
  let first := m.after owner
  if me = first then
    let s := s.send m.scope (c.flits m tPART me (m.after me) r own.bytes)
    s.modInflight c.tag fun c => { c.modRow r fun w => { w with sent := true } with since := s.tb.cycle }
  else
    let src := m.before me
    match s.bufRecord c m tPART src r with
    | none => s
    | some bs =>
      if me = owner ∧ s.placeHeld c m r then s
      else
        let s := s.dropRecord c m tPART src r
        match mergeRows (RowSt.ofBytes bs) own c.slot.epoch with
        | none => s.mismatch c r src
        | some x =>
          let s := s.modInflight c.tag fun c => c.modRow r fun w => { w with sent := true }
          if me = owner then s.finalRow c m r own x.bytes
          else
            (s.modInflight c.tag fun c => { c with since := s.tb.cycle }).send m.scope (c.flits m tPART me (m.after me) r x.bytes)

/-- Parts that have arrived at a fast owner, in order of arrival of their first flit. -/
def State.arrivals (s : State) (c : Inflight) (m : Cmd) (r : Nat) : List Nat :=
  ((s.setBuf.filter fun b =>
    let f := Flit.ofBytes b.flit
    b.hasKey m.scope c.slot.tenant m.sid && f.type == tPART && f.row.toNat == r).map fun b => (Flit.ofBytes b.flit).src).dedup

/-- One participant's part of a row: merged when it has arrived whole; and whether the next may follow (R159, R184, R214). A part from a
position outside the owner's PMASK, and a second one from a position whose part is merged, leave the buffer and change nothing (DESIGN
CHOICE, log 43). -/
def State.fastPart (s : State) (c : Inflight) (m : Cmd) (r : Nat) (own : RowSt) (src : Nat) : State × Bool :=
  let w := ((s.inflight? c.tag).getD c).row? r
  match s.bufRecord c m tPART src r with
  | none => (s, true)
  | some bs =>
    let s := s.dropRecord c m tPART src r
    let held := if w.record.isEmpty then own else RowSt.ofBytes w.record
    if w.merged.contains src || !m.parties.contains src then (s, true)
    else match mergeRows held (RowSt.ofBytes bs) c.slot.epoch with
      | none => (s.mismatch c r src, false)
      | some x =>
        (s.modInflight c.tag fun c => { c.modRow r fun w => { w with record := x.bytes, merged := w.merged ++ [src] } with
          since := s.tb.cycle }, true)

/-- A fast owner merges the records that have arrived whole, in order (R159, R184, R214). -/
def State.fastMerge (s : State) (c : Inflight) (m : Cmd) (r : Nat) (own : RowSt) : List Nat → State
  | [] => s
  | src :: rest =>
    let t := s.fastPart c m r own src
    if t.2 then t.1.fastMerge c m r own rest else t.1

/-- A fast participant sends its source to the owner; the owner merges, and settles the row when all parts are in. -/
def State.fastStep (s : State) (c : Inflight) (m : Cmd) (r : Nat) (own : RowSt) : State :=
  let me := s.position m.scope
  let owner := m.owner r
  if me ≠ owner then
    let s := s.send m.scope (c.flits m tPART me owner r own.bytes)
    s.modInflight c.tag fun c => { c.modRow r fun w => { w with sent := true } with since := s.tb.cycle }
  else
    let s := s.fastMerge c m r own (s.arrivals c m r)
    match s.inflight? c.tag with
    | none => s
    | some c =>
      let w := c.row? r
      if c.fault.isSome ∨ w.merged.length + 1 < m.parties.length ∨ s.placeHeld c m r then s
      else (s.modInflight c.tag fun c => c.modRow r fun w => { w with sent := true }).finalRow c m r own w.record

/-- A row's part in the reduce phase, once its source state stands (R214, R215). -/
def State.reduceRow (s : State) (c : Inflight) (m : Cmd) (r : Nat) : State :=
  if !s.sourceReady c m r then s
  else
    let x := s.sourceRow c m r
    match x.2.1 with
    | some e => x.1.abortSettle c cECCUE r
        (eccDetail (8 * e.1) 0 e.2 0 (x.1.spad.health.poisoned.toNat - s.spad.health.poisoned.toNat))
    | none =>
      if !sourceOk c m x.2.2 then x.1.mismatch c r (s.position m.scope)
      else if c.modes.strict then x.1.strictStep c m r x.2.2
      else x.1.fastStep c m r x.2.2

/-- The gather phase: the settled record of a row that has arrived takes its place. -/
def State.gatherRow (s : State) (c : Inflight) (m : Cmd) (r : Nat) : State :=
  let owner := m.owner r
  match s.bufRecord c m tFINAL owner r with
  | none => s
  | some bs =>
    if s.placeHeld c m r then s
    else
      let s := s.dropRecord c m tFINAL owner r
      if !sourceOk c m (RowSt.ofBytes bs) then s.mismatch c r owner
      else s.place c m r bs (s.sourceRow c m r).2.2.ma

/-- What a row of a `SETTLE` can do now: its part in the reduce phase, then the settled record that has arrived; one that has stood
before and was put back takes its place again. -/
def State.advanceRow (s : State) (tag : W16) (r : Nat) : State :=
  match s.inflight? tag with
  | none => s
  | some c =>
    let m := c.cmd
    let w := c.row? r
    if c.fault.isSome ∨ m.op ≠ .settle ∨ m.settleRows ≤ r ∨ w.settled then s
    else if c.conflict.isSome then
      (s.abortSettle c cBANKC r (c.conflict.map Conflict.detail |>.getD [])).modHealth fun h => { h with conflicts := satAdd h.conflicts 1 }
    else
      match w.final with
      | some x => if s.placeHeld c m r then s else s.place c m r x.1 x.2
      | none =>
        let s := s.readBuffer c m r
        match s.bufferBad c m r with
        | some src => s.mismatch c r src
        | none => if w.sent then s.gatherRow c m r else s.reduceRow c m r

/-! ### Receiving (R226, R227, R229 to R232) -/

/-- The ring state from what the unit knows of it: up when every link is, and until then in training at start-up (R230, R231, R440). -/
def Link.settleState (l : Link) : Link :=
  { l with st := if !l.down && l.ringDown.isEmpty then .up else if l.st = .training then .training else .down }

/-- A flit goes on downstream. -/
def State.forward (s : State) (c : Scope) (f : Flit) : State := s.send c [f]

/-- A PART or FINAL of the unit's own `SETTLE`: another epoch aborts with `CLREP`, a shape that differs is a mismatch
(R226, R232); none when the flit is as it should be. -/
def State.badFlit (s : State) (c : Inflight) (m : Cmd) (f : Flit) : Option State :=
  if f.epoch ≠ c.slot.epoch then
    some (s.abortSettle c cCLREP f.row.toNat
      ([scopeByte m.scope, 0] ++ leBytes 2 c.slot.epoch.toNat ++ leBytes 2 f.epoch.toNat))
  else if f.nrows.toNat ≠ m.settleRows ∨ f.nrows.toNat ≤ f.row.toNat ∨ m.settleQ ≤ f.slot then
    some (s.mismatch c f.row.toNat f.src)
  else none

def State.buffer (s : State) (c : Scope) (b : List Byte) : State :=
  { s with setBuf := s.setBuf ++ [{ scope := c, flit := b, at_ := s.tb.cycle, synd := [] }] }

/-- A PART: forwarded when it is addressed to another unit, else buffered and used when its record is whole. -/
def State.takePart (s : State) (c : Scope) (f : Flit) (b : List Byte) : State :=
  let mine := f.dst == s.position c
  match s.settle? c f.tenant f.sid with
  | none => if mine then s.buffer c b else s.forward c f
  | some x =>
    match s.badFlit x x.cmd f with
    | some t => if mine then t else t.forward c f
    | none => if mine then (s.buffer c b).advanceRow x.tag f.row.toNat else s.forward c f

/-- A FINAL that the unit's own `SETTLE` does not expect: it is not from the row's owner, or the row is settled (R229). -/
def State.unmatched (s : State) (c : Scope) (f : Flit) : Bool :=
  f.type == tFINAL && f.src != s.position c && match s.settle? c f.tenant f.sid with
    | none => false
    | some x => (s.badFlit x x.cmd f).isNone && (x.cmd.owner f.row.toNat != f.src || (x.row? f.row.toNat).settled)

/-- A FINAL: removed at its owner, else forwarded; a unit that takes part and expects it keeps a copy. -/
def State.takeFinal (s : State) (c : Scope) (f : Flit) (b : List Byte) : State :=
  if f.src = s.position c then s
  else
    match s.settle? c f.tenant f.sid with
    | none => s.forward c f
    | some x =>
      match s.badFlit x x.cmd f with
      | some t => t.forward c f
      | none =>
        let u := s.forward c f
        if s.unmatched c f then u else (u.buffer c b).advanceRow x.tag f.row.toNat

/-- An ABORT, a ring-down notice or a ring-up notice (R217, R226, R230, R231). -/
def State.takeAbort (s : State) (c : Scope) (f : Flit) : State :=
  let me := s.position c
  if f.sid = 0xFFFF ∧ (f.code = cCLRDN ∨ f.code = 0) then
    let s := s.modLink c fun l =>
      { l with ringDown := l.ringDown.filter (· != f.detector) ++ on (f.code == cCLRDN) f.detector }.settleState
    let s := if f.code = cCLRDN then s.ringFalls c else s
    if (me + 1) % ringSize c = f.detector then s else s.forward c f
  else if f.detector = me then s
  else
    let s := match s.settle? c f.tenant f.sid with
      | some x => s.abortOwn x f.code
      | none => s.discard c f.tenant f.sid
    s.forward c f

/-- A TRAIN flit: the upstream link is down; a unit that takes it for up sends a ring-down notice (R230). Every TRAIN flit is
acknowledged, and a NAK answers the next that is corrupted, so that both ends count the same run (R231). -/
def State.takeTrain (s : State) (c : Scope) (seq : Byte) : State :=
  let me := s.position c
  let s := (s.modLink c fun l => { l with rxTrain := l.rxTrain + 1, recv := satAdd l.recv 1, nakSent := false }).ack c false seq
  if (s.link c).ringDown.contains me then s
  else
    ((s.modLink c fun l => { l with ringDown := l.ringDown ++ [me] }.settleState).ringFalls c).send c [.notice true me]

/-- Whether the flit would have to wait in a full settlement buffer (R226). -/
def State.bufferFull (s : State) (c : Scope) (f : Flit) : Bool :=
  decide (256 ≤ s.setBuf.length) && ((f.type == tPART && f.dst == s.position c)
    || (f.type == tFINAL && f.src != s.position c && (s.settle? c f.tenant f.sid).isSome))

/-- A rejected flit: NAK once (R227). -/
def State.reject (s : State) (c : Scope) : State :=
  let l := s.link c
  if l.nakSent then s else (s.setLink c { l with nakSent := true }).ack c true l.rxSeq

/-- A run of TRAIN flits is broken (R231). -/
def State.breakTrain (s : State) (c : Scope) : State := s.modLink c fun l => { l with rxTrain := 0 }

/-- What is wrong with a flit whose CRC matches: its SEQ, its type, a reserved field (R227), a FINAL that is not expected (R229). A TRAIN
flit stands outside the sequence (log 90). -/
def State.badLink (s : State) (c : Scope) (f : Flit) (seq : Byte) (reserved : Bool) : Option Byte :=
  let l := s.link c
  if seq ≠ l.rxSeq ∧ f.type ≠ tTRAIN then some 0 else if 4 < f.type then some 1 else if reserved then some 2
  else if !l.nakSent && s.unmatched c f then some 3 else none

/-- FLIT_RECEIVE. A flit that needs room in a full buffer is held off: the word of the cycle carries HOLD and acknowledges nothing.
An unmatched FINAL is answered by NAK once, and taken for forwarding alone when its number arrives again (DEDUCED, log 42). -/
def State.flitReceive (s : State) (c : Scope) (flit : List Byte) : State :=
  let b := padTo 80 flit
  let f := Flit.ofBytes b
  let l := s.link c
  let seq := b.getD 65 0
  if !s.ringWorks then s
  else if crc32c (b.take 76) ≠ BitVec.ofNat 32 (leAt b 76 4) then
    ((s.modLink c fun l => { l with crcFail := satAdd l.crcFail 1 }).breakTrain c).reject c
  else if f.type ≠ tTRAIN ∧ seq ≠ l.rxSeq ∧ l.nakSent then s.breakTrain c
  else
    match s.badLink c f seq ((b.getD 67 0).getLsbD 7) with
    | some k =>
      (((s.modLink c fun l => { l with viol := satAdd l.viol 1 }).breakTrain c).log cCLRPV noTag none [scopeByte c, k]).reject c
    | none =>
      if f.type = tTRAIN then s.takeTrain c seq
      else
      let s := s.breakTrain c
      let l := s.link c
      if s.bufferFull c f then s.ackIdle c
      else
        let s := s.setLink c { l with rxSeq := l.rxSeq + 1, nakSent := false, recv := satAdd l.recv 1 }
        let s := if f.type = tPART then s.takePart c f b else if f.type = tFINAL then s.takeFinal c f b
          else if f.type = tABORT then s.takeAbort c f else s
        s.ack c false seq

/-! ### The transmitter's events (R228, R230) -/

/-- The port declares its link down (R230). -/
def State.declareDown (s : State) (c : Scope) : State :=
  let s := s.modLink c fun l =>
    { l with down := true, declared := true, downs := satAdd l.downs 1, replay := [], next := 0, queue := [], consec := 0, trained := 0
             quiet := 0 }.settleState
  (s.log cCLRDN noTag none [scopeByte c, 0]).ringFalls c

/-- One retry, and after 8 in a row the link is down. -/
def State.retry (s : State) (c : Scope) : State :=
  let s := s.resend c
  if 8 ≤ (s.link c).consec then s.declareDown c else s

/-- ACK_RECEIVE. -/
def State.ackReceive (s : State) (c : Scope) (w : W16) : State :=
  let l := s.link c
  let seq : Byte := w.setWidth 8
  if !s.ringWorks || ackParity w != w.getLsbD 13 then s
  else if l.down then
    if w.getLsbD 8 then s.setLink c { l with trained := if w.getLsbD 15 then 0 else min 64 (l.trained + 1) } else s
  else
    let l := { l with hold := w.getLsbD 14 }
    let s := s.setLink c l
    if !w.getLsbD 8 then s
    else
      let n := if w.getLsbD 15 then l.covered (seq - 1) else l.covered seq
      let episode := l.consec
      let s := if 0 < n then s.setLink c { l with replay := l.replay.drop n, next := l.next - n, consec := 0, quiet := 0 } else s
      let s := if 0 < n ∧ 0 < episode then s.log cCLRTY noTag none ([scopeByte c, 0, 0, 0] ++ leBytes 4 episode) else s
      if w.getLsbD 15 then s.retry c else s

/-- ACK_TIMEOUT: no acknowledgement has advanced the window for 512 ring cycles without HOLD (R228). -/
def State.ackTimeout (s : State) (c : Scope) : State :=
  let l := s.link c
  if !s.ringWorks || l.down || l.hold || l.replay.isEmpty || decide (l.quiet < 512) then s else s.retry c

/-- PART_SEND: a participant's part of a row, once older updates are made. -/
def State.partSend (s : State) (tag row : W16) : State := if s.running then s.advanceRow tag row.toNat else s

/-- Buffered flits of a `SETTLE` that issues are taken up in order (R226). -/
def State.takeBuffered (s : State) (tag : W16) : List BufFlit → State
  | [] => s
  | b :: bs =>
    match s.inflight? tag with
    | none => s
    | some c =>
      let m := c.cmd
      let f := Flit.ofBytes b.flit
      if c.fault.isSome then s
      else if !b.hasKey m.scope c.slot.tenant m.sid then s.takeBuffered tag bs
      else match s.badFlit c m f with
        | some t => t
        | none => (s.advanceRow tag f.row.toNat).takeBuffered tag bs

/-- SETTLEMENT_BUFFER_TIMEOUT: the flits of each key without a `SETTLE` whose first has waited the escrow watchdog go (R226). Their
`CLRPV` does not count at 0x6040:06 or 0x6041:06, since no flit is refused (DESIGN CHOICE, log 42). -/
def State.dropStale (s : State) : List BufFlit → State
  | [] => s
  | b :: bs =>
    let f := Flit.ofBytes b.flit
    let held := s.stream.inflight.any fun c =>
      let m := c.cmd
      m.op == .settle && m.scope == b.scope && c.slot.tenant == f.tenant && m.sid == f.sid
    if s.setBuf.contains b ∧ !held ∧ s.escrow.watchdog.toNat ≤ s.tb.cycle - b.at_ then
      ((s.discard b.scope f.tenant f.sid).log cCLRPV noTag (some f.tenant) ([scopeByte b.scope, 4] ++ leBytes 2 f.sid.toNat)).dropStale bs
    else s.dropStale bs

def State.settlementBufferTimeout (s : State) : State := if s.ringWorks then s.dropStale s.setBuf else s

/-! ### Retirement (R216) -/

/-- Whether flits that the command sent are still to be acknowledged. -/
def State.unacked (s : State) (c : Inflight) (m : Cmd) : Bool :=
  let me := s.position m.scope
  let l := s.link m.scope
  (l.queue ++ l.replay).any fun b =>
    let f := Flit.ofBytes b
    (f.type == tPART || f.type == tFINAL) && f.src == me && f.tenant == c.slot.tenant && f.sid == m.sid

/-- An aborted `SETTLE` leaves its destinations invalid and RSO zero (R217). -/
def State.voidSettle (s : State) (c : Inflight) (m : Cmd) : State :=
  let n := m.settleQ * slotLines c.modes.strict
  let s := s.setLines (c.dstLine m 0) (List.replicate (128 * n * m.settleRows) 0)
  match m.role? .rso with
  | none => s
  | some d =>
    s.doWrites c.tag ((upTo m.settleRows).map fun r => recordWrites d none r (List.replicate (d.len c.regs) 0)).flatten

/-- The transmitting end of a link that has trained resumes at a sync pulse; one that it had declared down logs its return (R231). -/
def State.txUp (s : State) (c : Scope) : State :=
  let l := s.link c
  if l.down ∧ 64 ≤ l.trained then
    let s := s.modLink c fun l =>
      { l with down := false, declared := false, returns := if l.declared then satAdd l.returns 1 else l.returns, txSeq := 0, replay := []
               next := 0, consec := 0, hold := false, trained := 0, quiet := 0 }.settleState
    if l.declared then s.log cCLRDN noTag none [scopeByte c, 1] else s
  else s

/-- The receiving end resumes and sends a ring-up notice (R231). -/
def State.rxUp (s : State) (c : Scope) : State :=
  let me := s.position c
  if 64 ≤ (s.link c).rxTrain then
    (s.modLink c fun l =>
      { l with rxSeq := 0, nakSent := false, rxTrain := 0, ringDown := l.ringDown.filter (· != me) }.settleState).send c [.notice false me]
  else s

/-- Links that have trained resume at a sync pulse (R231, R440); in test mode none does (R446). -/
def State.linkUp (s : State) (c : Scope) : State := if s.fixed.straps.testMode then s else (s.txUp c).rxUp c

end Sys2Proof.Machine
end

