-- ==== Sys2Proof/Machine/Issue.lean ====
section
/-! DEFINITION. Taking a slot, issue and what a command does in the cycle in which it issues (R286, R289, R309 to R314, R334,
R359, R388). -/
namespace Sys2Proof.Machine
open Sys2Proof

/-- A slot's words with the OPCODE that its row of the table fixes. -/
def slotOf (code : Nat) (o : SlotOps) : Slot :=
  { words := BitVec.ofNat 32 (code * 2 ^ 26 + o.head.toNat) :: o.rest, epoch := o.epoch, tenant := o.tenant, priv := o.priv }

/-- A command in flight that has done nothing yet. -/
def Inflight.new (x : Slot) (ms : ModeSet) (rg : Regs) (cycle limit beats : Nat) : Inflight :=
  { slot := x, modes := ms, regs := rg, issued := cycle, limit := limit, since := cycle, started := 0, left := beats, beats := []
    hard := [], opened := 0, rowsDone := 0, flags := {}, vanish := 0, satcnt := 0, xund := false, xovr := false, pivx := false
    asValue := 0, asCount := 0, amax := 0, pre := [], preSynd := [], pack := [], recs := [], keeps := [], muted := false, counts := [], conflict := none, pieces := ([], []), due := [], gather := [], latch := [], bcast := []
    data := []
    writes := [], badRow := none, d0 := 0, d1 := 0, fault := none, detail := [], replays := 0, merges := 0, accpv := 0, accSeen := 0, settle := []
    ready := false }

/-- A command joins those between issue and retirement; one refused while 32 stand there waits behind them (R360). -/
def State.push (s : State) (c : Inflight) : State :=
  s.modStream fun st =>
    if st.inflight.length < 32 then { st with inflight := st.inflight ++ [c] } else { st with refused := st.refused ++ [c] }

/-- A fault at issue: a Ledger entry, and a completion in stream order (R314). -/
def State.refuse (s : State) (x : Slot) (code : W16) (detail : List Byte) : State :=
  let s := if code = cEPOLD then s.countEpold else s
  let c := Inflight.new x (s.modesOf x.epoch) s.regs s.tb.cycle s.escrow.watchdog.toNat 0
  (s.log code x.tag (some x.tenant) detail).push { c with fault := some code, detail := detail, ready := true }

/-! ### What commands do at issue -/

/-- A register of `SETLEN` set or added to (R334). -/
def Regs.write (r : Regs) (reg : Nat) (add : Bool) (v : W32) : Regs :=
  let f (old : W32) : W32 := if add then old + v else v
  if reg < 4 then { r with len := vecModify r.len reg f }
  else if reg = 4 then { r with gt := f r.gt }
  else if reg = 5 then { r with gh := f r.gh }
  else if reg = 6 then { r with gw := f r.gw }
  else r

/-- `SETLEN`: VA, then VB (R334). -/
def Regs.setlen (r : Regs) (n : Nat) : Regs :=
  (r.write (bitsOf n 3 0) (n.testBit 8) (w32Of n 95 64)).write (bitsOf n 7 4) (n.testBit 9) (w32Of n 127 96)

/-- `MINT` reads its image into the staging buffer and checks it (R122, R123). -/
def State.mintImage (s : State) (c : Inflight) (m : Cmd) : State :=
  let d := m.get .img
  let n := d.len s.regs
  let w := s.readOrFail c (spanWords d none false 0 0 n)
  if !w.2 then w.1
  else
    let img := w.1.spad.readRow d none 0 n
    if imageOk img n then w.1.modInflight c.tag fun c => { c with data := img }
    else w.1.failAfter c cCURVX [BitVec.ofNat 8 (m.chain % 16), 0]

/-- What `TENANT` and warm reset clear beside the scratchpad: digests, assays, rolls, curves, row states, amax and length
registers (R388 step 1, R435). -/
def State.clearContext (s : State) : State :=
  { s with
    regs := { len := Vector.replicate 4 0, gt := 0, gh := 0, gw := 0 }
    rolls := Vector.replicate 16 .default
    st := { s.st with rowTab := [], rowSynd := [], rowBad := [], curveSynd := [], curves := Vector.replicate 16 .default, amax := Vector.replicate 16 0
                      assays := Vector.replicate 16 { st := .idle, value := 0, count := 0 } }
    stream := { s.stream with claims := [] }
    escrow := { s.escrow with sets := [] }
    prov := { s.prov with cur := .closed, prev := .closed } }

/-- The first cycle of a `TENANT` (R388). -/
def State.tenantClear (s : State) : State :=
  let t := s.tn.active
  let s := s.clearContext
  { s with
    setBuf := s.setBuf.filter fun b => (Flit.ofBytes b.flit).tenant != t
    mg := { s.mg with stmts := { s.mg.stmts with tenant := ([], 0) } }
    spad := { s.spad with clearing := some .tenant, ptr := Vector.replicate 64 0 } }

/-- The command's own effect in the cycle of issue. -/
def State.onIssue (s : State) (c : Inflight) (m : Cmd) : State :=
  match m.op with
  | .setlen => { s with regs := s.regs.setlen m.chain }
  | .stmt =>
    let live := s.stall != 0 || s.pw.state == .halt
    s.modInflight c.tag fun c => { c with data := s.statement none, d0 := if live then 1 else 0 }
  | .mint => s.mintImage c m
  | .tenant => s.tenantClear
  | .sealing =>
    let r := s.sealNow c.slot.epoch (bitsOf m.chain 15 0) (m.chain.testBit 16)
    r.1.modInflight c.tag fun c =>
      { c with data := r.2.1, d0 := r.2.2.setWidth 32, d1 := (r.2.2 >>> 32).setWidth 32 }
  | .settle => s.takeBuffered c.tag s.setBuf
  | _ => s

/-! ### Issue -/

/-- A command issues: the entries of its boxes, its place in the order of issue (R286, R289). -/
def State.enter (s : State) (tag : W16) (engine : BitVec 3) (bs : List Box) : State :=
  s.modEscrow fun e =>
    let es := e.entries ++ bs.map fun b => { tag := tag, engine := engine, write := b.write, lo := b.lo, hi := b.hi }
    { e with entries := es, order := e.order ++ [tag], highest := if e.highest.toNat < es.length then BitVec.ofNat 8 es.length else e.highest }

/-- The claims of a command's roll operands, in descriptor order (R299, R300). -/
def State.claimAll (s : State) (tag : W16) : List (Role × Desc × Bool) → State
  | [] => s
  | x :: xs =>
    (s.claim tag x.2.1.slot x.2.2 (x.2.1.slotsTaken (s.roll x.2.1.slot).slotb.toNat)).claimAll tag xs

/-- The formats of the planes of SIN and SOUT (R329). -/
def Cmd.planes (m : Cmd) : List Nat :=
  let f := if m.rc.mfmt then 2 else 0
  if m.op = .opt then [0, f] ++ on (m.rc.alg == 0) f else []

/-- A command issues: entries, claims, captured registers and modes, and its effect at issue. -/
def State.issue (s : State) (x : Slot) (m : Cmd) (arrived : Nat) : State :=
  let g := m.geo s.regs
  let c0 := Inflight.new x (s.modesOf x.epoch) s.regs s.tb.cycle s.escrow.watchdog.toNat g.beats
  let c0 := if m.op = .settle then
      { c0 with settle := List.replicate m.settleRows { sent := false, record := [], merged := [], final := none, settled := false } }
    else c0
  let s := s.modEscrow fun e => { e with waited := satAdd e.waited (s.tb.cycle - arrived) }
  let s := (s.enter x.tag 0 (m.boxes s.regs)).claimAll x.tag m.rollOps
  let pl : Place := { geo := g, regs := s.regs, reread := m.rereads s.regs, planes := m.planes, rolls := s.places c0 m }
  let c := { c0 with conflict := m.conflict pl, pieces := m.pieceKeys pl, due := m.gathered pl (m.expands || m.compresses) }
  (s.push c).onIssue c m

/-- A command that needs lanes and finds them asleep asks for a grant; gated lanes wake by its next attempt (R381, R382). -/
def State.wake (s : State) (x : Slot) : State :=
  let needs := match x.decode (s.modesOf x.epoch) with
    | some m => m.needsLanes
    | none => false
  if !needs then s
  else match s.pw.state with
    | .sleep => s.modPw fun p => { p with greq := true }
    | _ => s

/-- The start of a wait that the watchdog counts (R296, R371). -/
def State.waitStart (s : State) (h : Hold) (since : Option (Nat × Nat)) : Option (Nat × Nat) :=
  if h = .escrow ∨ h = .counted then (match since with | some y => some y | none => some (s.tb.live, s.escrow.watchdog.toNat))
  else none

/-- One attempt to issue the slot at the head of the stream; it leaves the waiting list when it issues or faults. What an image or buffered
flits make it log stands in the order of R407. -/
def State.attempt (s : State) (x : Slot) (arrived : Nat) (since : Option (Nat × Nat)) (rest : List Waiting) : State :=
  let gone (s : State) : State := s.modStream fun st => { st with waiting := rest }
  match s.decision x with
  | .fault k d => ((gone s).modEscrow fun e => { e with waited := satAdd e.waited (s.tb.cycle - arrived) }).refuse x k d
  | .issue m => ((gone s).issue x m arrived).cycleLog s
  | .hold h =>
    (s.modStream fun st => { st with waiting := .unit x arrived (s.waitStart h since) :: rest }).wake x

/-- Gated lanes that the command at the head has waited for are awake (R381). -/
def State.wakeGated (s : State) (x : Slot) : State :=
  if s.pw.state == .gated && decide (s.waitCode x = 11) then s.modPw fun p => { p with state := .run } else s

/-- ISSUE_AFTER_WAIT: the command at the head of the stream tries again. -/
def State.issueAfterWait (s : State) : State :=
  if !s.running then s
  else match s.stream.waiting with
    | .unit x a t :: rest => (s.wakeGated x).attempt x a t rest
    | _ => s

/-- CMD_READY (R423). -/
def State.cmdReady (s : State) : Bool := s.running && s.waitingSlot.isNone

/-- A slot is taken: digested, and tried at once when nothing older waits. Behind a declaration that waits it does not count towards its
own watchdog, which begins with its first attempt at the head of the stream (DESIGN CHOICE, log 95). -/
def State.takeSlot (s : State) (x : Slot) : State :=
  if !s.cmdReady then s
  else
    let s := s.receive x
    if s.stream.waiting.isEmpty then s.attempt x s.tb.cycle none []
    else (s.modStream fun st => { st with waiting := st.waiting ++ [.unit x s.tb.cycle none] }).wake x

/-- CMD_NW of 0: the slot is dropped and logged (R423). -/
def State.slotDropped (s : State) : State :=
  if s.cmdReady then s.log cILLCM noTag (some s.tn.active) (illcmDetail 1 0xFF 0 0xFF) else s

/-! ### The escrow watchdog (R217, R296) -/

/-- What waits at issue: a command, none when its words do not decode, or a declaration with the rolls it claims; and its boxes. -/
structure Waiter where
  cmd   : Option Cmd
  rolls : List Nat
  boxes : List Box
  /-- lines of rows whose states the checks wait to know (R148) -/
  lines : List (Nat × Nat)
  deriving DecidableEq, Repr

def State.unitWaiter (s : State) (x : Slot) : Waiter :=
  match x.decode (s.modesOf x.epoch) with
  | none => { cmd := none, rolls := [], boxes := [], lines := [] }
  | some m =>
    let c := Inflight.new x (s.modesOf x.epoch) s.regs 0 0 0
    { cmd := some m, rolls := m.rollOps.map fun o => o.2.1.slot, boxes := m.boxes s.regs
      lines := if m.takesSlots && slotsVerdict s m c.modes.strict 0 m.main.rows == .hold then
          (upTo m.main.rows).map fun r => c.rowLine m r else [] }

def Waiter.isOp (w : Waiter) (o : Op) : Bool := (w.cmd.map fun m => m.op) == some o

/-- Whether an older unit command holds what waits, whatever its boxes: all of them hold a `TENANT`, `CFG` or `SEAL` and, while 32 are in
flight, anything of the unit; a `CFG` holds everything, a `ROLLSET` the use of its roll, a `MINT` the use of its slot, an update of a line
the check of its state (R148, R249, R306, R335, R360, R388). -/
def State.unitHolds (s : State) (w : Waiter) (c : Inflight) : Bool :=
  !c.refused && ((w.cmd.isSome && decide (32 ≤ s.stream.inflight.length)) || w.isOp .tenant || w.isOp .cfg || w.isOp .sealing
    || c.cmd.op == .cfg
    || (c.cmd.op == .rollset && c.fault.isNone && w.rolls.contains (bitsOf c.cmd.chain 7 4))
    || (c.cmd.op == .mint && !c.gone && (w.isOp .mint || w.cmd.any fun m => m.curveSlot == some (c.cmd.chain % 16)))
    || w.lines.any fun l => c.updates l.1 l.2)

/-- Whether a command in flight on any engine holds what waits at issue: by an entry in a hazard with its boxes, by any entry when entries
are short, or otherwise (R286, R288, R296). -/
def State.holdsBack (s : State) (w : Waiter) (t : W16) : Bool :=
  let short := !w.boxes.isEmpty && decide (48 < s.escrow.entries.length + w.boxes.length)
  (s.escrow.entries.any fun e => e.tag == t && (short || w.boxes.any fun b => b.hazard e.box))
    || ((w.isOp .tenant || w.isOp .cfg) && s.escrow.engines.any fun e => e.tag == t)
    || s.stream.inflight.any fun c => c.tag == t && s.unitHolds w c

/-- The tag of the oldest command that blocks what waits, in the order of issue of all engines (R296). -/
def State.blockingTag (s : State) (w : Waiter) : W16 := (s.escrow.order.find? (s.holdsBack w)).getD noTag

def State.countRefusal (s : State) : State := s.modEscrow fun e => { e with refusals := satAdd e.refusals 1 }

def esctoDetail (tag : W16) (settle : Bool) (n : Nat) : List Byte :=
  leBytes 2 tag.toNat ++ [BitVec.ofNat 8 settle.toNat, 0] ++ leBytes 4 (min n 0xFFFFFFFF)

/-- The boxes of a declaration in lines. -/
def boxesOf (bs : List BoxOp) : List Box := bs.map fun b => { write := b.write, lo := b.lo.toNat, hi := b.hi.toNat }

/-- ESCROW_WATCHDOG: the command with a tag, at the head of the stream, has waited out its count; or a `SETTLE` has not
completed in time. -/
def State.escrowWatchdog (s : State) (tag : W16) : State :=
  if !s.running then s
  else match s.stream.waiting with
    | .unit x a (some y) :: rest =>
      if x.tag = tag ∧ y.2 ≤ s.tb.live - y.1 then
        let b := s.blockingTag (s.unitWaiter x)
        let s := (s.modStream fun st => { st with waiting := rest }).countRefusal
        let s := s.modEscrow fun e => { e with waited := satAdd e.waited (s.tb.cycle - a) }
        s.refuse x cESCTO (esctoDetail b false (s.tb.live - y.1))
      else settles s tag
    | .decl t _ bs ks a (some y) :: rest =>
      if t = tag ∧ y.2 ≤ s.tb.live - y.1 then
        let w : Waiter := { cmd := none, rolls := ks.map fun k => k.roll.toNat, boxes := boxesOf bs, lines := [] }
        let s := (s.modStream fun st => { st with waiting := rest }).countRefusal
        let s := s.modEscrow fun e => { e with waited := satAdd e.waited (s.tb.cycle - a) }
        let s := s.log cESCTO t (some s.tn.active) (esctoDetail (s.blockingTag w) false (s.tb.live - y.1))
        s.modOut fun o => { o with esc := o.esc ++ [(t, false, .timeout, [])] }
      else settles s tag
    | _ => settles s tag
where
  /-- A `SETTLE` that has not completed within the count from its issue. -/
  settles (s : State) (tag : W16) : State :=
    match s.inflight? tag with
    | none => s
    | some c =>
      let n := s.tb.cycle - c.issued
      if c.cmd.op = .settle ∧ c.fault.isNone ∧ !c.ready ∧ c.limit ≤ n then
        s.abortSettle c cESCTO 0 (esctoDetail noTag true n)
      else s

end Sys2Proof.Machine
end

