-- ==== Sys2Proof/Machine/Dict.lean ====
section
/-! DEFINITION. The object dictionary: items, values, the checks of an access and what a write does (R340 to R347 and the
records' own tables). -/
namespace Sys2Proof.Machine
open Sys2Proof

/-! ### Items (Tables 13.2 and the records' tables) -/

inductive Access
  | const | ro | rw | rwe | wo
  deriving DecidableEq, Repr

/-- An item: class, the size of a fixed-size type (none for OCTETS, STRING, RECORD, ARRAY), and the paths that may read and
write it, one bit each: 1 operator, 2 driver, 4 tenant. -/
structure ItemInfo where
  acc  : Access
  size : Option Nat
  rd   : Nat
  wr   : Nat
  deriving DecidableEq, Repr

def item (acc : Access) (size rd wr : Nat) : ItemInfo := { acc := acc, size := some size, rd := rd, wr := wr }
def octets (rd : Nat) : ItemInfo := { acc := .ro, size := none, rd := rd, wr := 0 }

/-- The items of a record with the sizes of :00, :01, …, all of one class beyond :00. -/
def plain (acc : Access) (rd wr : Nat) (sizes : List Nat) (sub : Nat) : Option ItemInfo :=
  if sub = 0 then some (item .const 1 rd 0) else (sizes[sub - 1]?).map fun n => item acc n rd wr

def pathBit : Path → Nat
  | .operator => 1 | .driver => 2 | .tenant => 4

/-- A record's items; none where the index is not defined. -/
def odRecord (index : Nat) : Option (Nat → Option ItemInfo) :=
  if index = 0x1000 then some fun sub =>
    if sub = 2 ∨ sub = 3 ∨ sub = 4 then some { acc := .const, size := none, rd := 7, wr := 0 }
    else plain .const 7 0 [2, 0, 0, 0, 4, 2, 8, 1] sub
  else if index = 0x1100 then some fun sub => if sub = 2 then some (octets 7) else plain .ro 7 1 [2] sub
  else if index = 0x1101 then some fun sub => if sub = 1 then some (octets 7) else plain .ro 7 1 [0, 2] sub
  else if index = 0x1102 then some fun sub =>
    if sub = 0 then some (item .ro 1 7 1) else if sub ≤ 15 then some (octets 7) else none
  else if index = 0x1103 then some fun sub => if sub = 1 then some (item .wo 1 7 1) else plain .ro 7 1 [0, 1] sub
  else if index = 0x2000 then some fun sub =>
    (plain .const 7 0 [2, 2, 1, 4, 1, 1, 1, 2, 1, 1, 1, 1, 1, 1, 1, 1, 1, 1, 4] sub).map fun i =>
      if sub = 1 ∨ sub = 8 ∨ (0xE ≤ sub ∧ sub ≤ 0x10) ∨ sub = 0x13 then { i with acc := .ro } else i
  else if index = 0x3000 then some (plain .rwe 7 0 [1, 1, 1, 1, 8, 8])
  else if index = 0x3010 then some fun sub =>
    (plain .ro 7 3 [2, 8, 2, 2, 1, 1, 8] sub).map fun i =>
      if sub = 1 ∨ sub = 2 then { i with acc := .rw } else if sub = 6 then { i with acc := .wo } else i
  else if index = 0x3011 then some (plain .rw 7 3 [1, 1, 1, 1, 8, 8])
  else if index = 0x3012 then some (plain .ro 7 0 [1, 1, 1, 1, 8, 8])
  else if index = 0x3100 then some fun sub =>
    (plain .ro 3 1 [4, 4] sub).map fun i => if sub = 1 then { i with acc := .rw } else i
  else if 0x4000 ≤ index ∧ index ≤ 0x400F then some (plain .ro 7 0 [1, 4, 2, 2, 4, 4, 4, 8])
  else if 0x5000 ≤ index ∧ index ≤ 0x500F then some fun sub =>
    (plain .ro 7 3 [1, 4, 4, 2, 1, 4, 4, 1, 4, 4, 4, 2] sub).map fun i => if 1 ≤ sub ∧ sub ≤ 5 then { i with acc := .rw } else i
  else if index = 0x5100 then some fun sub =>
    (plain .ro 7 3 [4, 4, 1, 1, 8, 4] sub).map fun i => if sub = 1 ∨ sub = 2 then { i with acc := .rw } else i
  else if index = 0x6000 then some (plain .ro 3 0 [4, 4, 4, 4, 4, 4, 4, 4, 4, 1])
  else if index = 0x6001 then some fun sub =>
    if sub = 5 then some (octets 3)
    else (plain .ro 3 0 [4, 8, 8, 4] sub).map fun i => if sub = 1 then { i with acc := .const } else i
  else if index = 0x6002 then some (plain .ro 3 0 [8, 8, 4, 4])
  else if index = 0x6003 then some (plain .ro 3 0 [1, 8, 4, 4, 4, 4, 4])
  else if index = 0x6010 then some (plain .ro 3 0 [4, 4, 4, 4, 1, 8, 4, 8, 8, 4, 8, 4])
  else if index = 0x6040 ∨ index = 0x6041 then some (plain .ro 3 0 [1, 8, 8, 4, 4, 4, 4, 4])
  else if index = 0x6060 then some (plain .ro 3 0 [8, 4, 4, 4, 4, 4])
  else if index = 0x7000 then some fun sub =>
    (plain .ro 3 3 [4, 4, 2, 2, 1, 1, 2, 4, 4, 4, 1, 1, 1, 1, 1, 4, 4, 8] sub).map fun i =>
      if sub = 1 ∨ sub = 2 ∨ sub = 3 ∨ sub = 5 ∨ sub = 7 ∨ sub = 8 then { i with acc := .rw } else i
  else if index = 0x7010 then some fun sub =>
    if sub = 0x17 then some (item .wo 1 3 3) else plain .ro 3 3 (List.replicate 22 8) sub
  else if index = 0x7100 then some fun sub =>
    if sub = 0 then some (item .const 1 3 0) else if sub ≤ 2 then some (item .ro 1 3 3)
    else if sub < 8 then none else if sub < 0x20 then some (item .rw 1 3 3)
    else if sub < 0x28 then some (item .ro 8 3 3) else if sub = 0x28 then some (item .ro 4 3 3) else none
  else if index = 0x7200 then some (plain .ro 7 0 [8, 1, 8, 4, 8, 4, 4, 4])
  else if index = 0x8000 then some fun sub =>
    if sub = 4 then some (octets 3)
    else (plain .ro 3 3 [4, 4, 4] sub).map fun i => if sub = 3 then { i with acc := .rw } else i
  else if index = 0x8100 then some fun sub =>
    (plain .rw 3 3 [1, 1, 8, 4, 2, 1, 4, 4, 4, 1] sub).map fun i => if sub = 7 ∨ sub = 9 then { i with acc := .ro } else i
  else if index = 0x8200 then some fun sub =>
    if sub = 6 then some (octets 7)
    else (plain .ro 7 3 [1, 8, 1, 1, 8, 0, 8] sub).map fun i =>
      if sub = 2 then { i with acc := .wo } else if sub = 5 then { i with acc := .rw, wr := 7 } else i
  else if index = 0x9000 then some fun sub => if sub = 1 then some (octets 7) else plain .ro 7 0 [0, 8] sub
  else none

/-- The highest subindex of a record, the value of :00. -/
def odHighest (index : Nat) : Nat :=
  if index = 0x1000 then 8 else if index = 0x1100 ∨ index = 0x1101 ∨ index = 0x1103 then 2
  else if index = 0x2000 then 0x13 else if index = 0x3010 then 7 else if index = 0x3000 ∨ index = 0x3011 ∨ index = 0x3012 then 6
  else if index = 0x3100 then 2 else if 0x4000 ≤ index ∧ index ≤ 0x400F then 8
  else if 0x5000 ≤ index ∧ index ≤ 0x500F then 0xC else if index = 0x5100 then 6 else if index = 0x6000 then 0xA
  else if index = 0x6001 then 5 else if index = 0x6002 then 4 else if index = 0x6003 then 7 else if index = 0x6010 then 0xC
  else if index = 0x6040 ∨ index = 0x6041 then 8 else if index = 0x6060 then 6 else if index = 0x7000 then 0x12
  else if index = 0x7010 then 0x17 else if index = 0x7100 then 0x28 else if index = 0x7200 then 8 else if index = 0x8000 then 4
  else if index = 0x8100 then 0xA else if index = 0x8200 then 7 else 2

/-! ### Values -/

def PerPath.get {α : Type} (p : PerPath α) : Path → α
  | .operator => p.operator | .driver => p.driver | .tenant => p.tenant

def PerPath.set {α : Type} (p : PerPath α) (x : Path) (v : α) : PerPath α :=
  match x with
  | .operator => { p with operator := v }
  | .driver => { p with driver := v }
  | .tenant => { p with tenant := v }

/-- Little-endian bytes of a word. -/
def bv {n : Nat} (k : Nat) (v : BitVec n) : List Byte := leBytes k v.toNat

def ascii (s : String) : List Byte := s.toList.map fun c => BitVec.ofNat 8 c.toNat

def ModeSet.od (m : ModeSet) : Nat → List Byte
  | 1 => leBytes 1 m.strict.toNat | 2 => leBytes 1 m.rnd.code | 3 => leBytes 1 m.nonsat.toNat | 4 => leBytes 1 m.inflim.toNat
  | 5 => bv 8 m.seed | _ => bv 8 m.key

/-- The schedule's state (Table 14.4). -/
def State.schedule (s : State) : Nat := if s.due then 2 else if s.ep.armed then 1 else 0

/-- CMD_PENDEPOCH: the epoch of an armed or due schedule, else the current one (Table 17.2). -/
def State.cmdPendEpoch (s : State) : W16 := if s.schedule = 0 then s.ep.curEpoch else s.ep.pendEpoch

def PowerState.code : PowerState → Nat
  | .run => 0 | .gated => 1 | .sleep => 2 | .waking => 3 | .halt => 4

def TimeState.code : TimeState → Nat
  | .notAligned => 0 | .aligned => 1 | .frozen => 2 | .holdover => 3


def Curve.od (c : Curve) : Nat → List Byte
  | 1 => leBytes 1 (match c.st with | .empty => 0 | .valid => 1 | .invalidated => 2)
  | 2 => bv 4 c.src | 3 => bv 2 c.bytes | 4 => bv 2 c.nseg | 5 => bv 4 c.tableId | 6 => bv 4 c.crc | 7 => bv 4 c.installs
  | _ => bv 8 c.gcLast

def Roll.od (r : Roll) : Nat → List Byte
  | 1 => leBytes 1 r.enable.toNat | 2 => bv 4 r.base | 3 => bv 4 r.slotb | 4 => bv 2 r.nslot | 5 => leBytes 1 r.overwrite.toNat
  | 6 => bv 4 r.hseq | 7 => bv 4 r.tseq | 8 => leBytes 1 r.st.code | 9 => bv 4 r.rhead | 10 => bv 4 r.rtail
  | 11 => bv 4 r.dropped | _ => bv 2 r.lastTag

def Link.od (l : Link) : Nat → List Byte
  | 1 => leBytes 1 (match l.st with | .down => 0 | .training => 1 | .up => 2)
  | 2 => bv 8 l.sent | 3 => bv 8 l.recv | 4 => bv 4 l.retries | 5 => bv 4 l.crcFail | 6 => bv 4 l.viol | 7 => bv 4 l.downs
  | _ => bv 4 l.returns

def SpadHealth.od (h : SpadHealth) : Nat → List Byte
  | 1 => bv 4 h.corrected | 2 => bv 4 h.uncorr | 3 => bv 4 h.poisoned | 4 => bv 4 h.lastAddr | 5 => bv 1 h.lastSynd
  | 6 => bv 8 h.lastGc | 7 => bv 4 h.passes | 8 => bv 8 h.steals | 9 => bv 8 h.passGc | 10 => bv 4 h.longest | 11 => bv 8 h.slips
  | _ => bv 4 h.conflicts

/-- 0x6000:01 to :08 (Table 15.9). -/
def Group.od (g : Group) : List Byte := [BitVec.ofNat 8 g.st.code, g.remap, g.cause, 0]

def UnitState.code : UnitState → Nat
  | .online => 0 | .offline => 1 | .back => 2

def State.odPower (s : State) (sub : Nat) : List Byte :=
  let p := s.pw
  match sub with
  | 1 => bv 4 p.stagger | 2 => bv 4 p.set.lateWin | 3 => bv 2 p.set.cap | 4 => bv 2 p.estimate | 5 => leBytes 1 p.set.sleep.toNat
  | 6 => leBytes 1 p.state.code | 7 => bv 2 p.set.delay | 8 => bv 4 p.set.period | 9 => bv 4 p.sensor0 | 10 => bv 4 p.sensor1
  | 11 => bv 1 p.status | 12 => leBytes 1 p.thermal | 13 => leBytes 1 p.lc | 14 => leBytes 1 p.lp | 15 => leBytes 1 p.issue
  | 16 => bv 4 p.changes | 17 => bv 4 p.halts | _ => bv 8 p.timeHalted

def State.odTime (s : State) (sub : Nat) : List Byte :=
  let t := s.tb
  match sub with
  | 1 => bv 8 t.v | 2 => leBytes 1 t.state.code | 3 => bv 8 t.lastSync | 4 => bv 4 t.backEpisodes | 5 => bv 8 t.largestBack
  | 6 => bv 4 t.fwdJumps | 7 => bv 4 t.fwdSteps | _ => bv 4 t.missed

/-- 0x7100 beyond :02. -/
def State.odTenant (s : State) (sub : Nat) : List Byte :=
  let t := s.tn
  let i := sub % 8
  if sub = 1 then leBytes 1 t.active.toNat else if sub = 2 then leBytes 1 t.rho
  else if sub < 0x10 then leBytes 1 (vecGet t.enable i false).toNat else if sub < 0x18 then leBytes 1 (vecGet t.floor i 0)
  else if sub < 0x20 then leBytes 1 (vecGet t.ceil i 0) else if sub < 0x28 then bv 8 (vecGet t.breach i 0) else bv 4 t.changes

def EvRing.od (r : EvRing) : Nat → List Byte
  | 2 => leBytes 1 r.enable.toNat | 3 => bv 8 r.base | 4 => bv 4 r.size | 5 => bv 2 r.groups | 6 => bv 1 r.ctxs | 7 => bv 4 r.wr
  | 8 => bv 4 r.rd | 9 => bv 4 r.dropped | _ => leBytes 1 r.policy.toNat

/-- The 544 bytes of a receipt-store entry (R252). -/
def Receipt.bytes (r : Receipt) : List Byte := padTo 256 r.record ++ padTo 96 r.sig ++ padTo 96 r.notice ++ padTo 96 r.nsig

/-- Configuration record (Table 0.4); `strict` is the mode that :08 reports (R9). -/
def State.odConfig (s : State) (strict : Bool) (sub : Nat) : List Byte :=
  let st := s.fixed.straps
  match sub with
  | 1 => leBytes 2 (if s.ft.lost = 0 then 256 else 224) | 2 => leBytes 2 272 | 3 => leBytes 1 8 | 4 => leBytes 4 s.spadBytes
  | 5 => leBytes 1 64 | 6 => leBytes 1 64 | 7 => leBytes 1 64 | 8 => leBytes 2 (tableSlots strict) | 9 => leBytes 1 16
  | 10 => leBytes 1 16 | 11 => leBytes 1 16 | 12 => leBytes 1 48 | 13 => leBytes 1 64 | 14 => bv 1 st.pos | 15 => bv 1 st.cluster
  | 16 => bv 1 st.die | 17 => leBytes 1 4 | 18 => leBytes 1 4 | _ => bv 4 s.tb.fmhz

def State.odIdentity (s : State) (sub : Nat) : List Byte :=
  let i := s.fixed.ident
  match sub with
  | 1 => leBytes 2 0x0E25 | 2 => padTo 16 (ascii "Ecben-256") | 3 => padTo 16 i.part | 4 => padTo 4 (ascii "B1")
  | 5 => bv 4 i.vendor | 6 => leBytes 2 0x0256 | 7 => bv 8 i.serial | _ => leBytes 1 1

/-- 0x1100 to 0x1103 (Table 9.10). While the unit holds no key 0x1101:01 reads as 97 zero bytes (DESIGN CHOICE, log 89). -/
def State.odKeys (s : State) (index sub : Nat) : List Byte :=
  let k := s.prov.keys
  if index = 0x1100 then (if sub = 1 then leBytes 2 s.fixed.ident.chain.length else s.fixed.ident.chain)
  else if index = 0x1101 then
    (if sub = 1 then (if s.fixed.otp.keys.isEmpty then List.replicate 97 0 else publicKey s.key) else bv 2 k.keygen)
  else if index = 0x1102 then
    (if sub = 0 then leBytes 1 s.fixed.ident.trans.length else padTo 224 (s.fixed.ident.trans.getD (sub - 1) []))
  else leBytes 1 (match k.rot with | .idle => 0 | .generating => 1 | .waiting => 2 | .programming => 3)

/-- Health records (Table 15.9). -/
def State.odHealth (s : State) (index sub : Nat) : List Byte :=
  let f := s.ft
  if index = 0x6000 then
    (if sub ≤ 8 then (f.group (sub - 1)).od else if sub = 9 then bv 4 f.remaps else leBytes 1 f.lost)
  else if index = 0x6001 then
    match sub with
    | 1 => leBytes 4 128000 | 2 => bv 8 f.sweepGc | 3 => bv 8 f.sweeps | 4 => bv 4 f.mismatches
    | _ => (f.groups.toList.map fun g => (g.lastCheck.toList.map fun c => bv 8 c).flatten).flatten
  else if index = 0x6002 then
    match sub with | 1 => bv 8 f.romGc | 2 => bv 8 f.romPasses | 3 => bv 4 f.parity | _ => bv 4 f.scan
  else
    match sub with
    | 1 => leBytes 1 f.unit.code | 2 => bv 8 f.replays | 3 => bv 4 f.faild | 4 => bv 4 f.residue | 5 => bv 4 f.lockstep
    | 6 => bv 4 f.corrected | _ => bv 4 f.uncorr

def State.odMgmt (s : State) (sub : Nat) : List Byte :=
  let m := s.mg
  match sub with
  | 1 => bv 8 m.served | 2 => bv 4 m.aborts | 3 => bv 4 m.violations | 4 => bv 4 m.limited | 5 => bv 4 m.timeouts
  | _ => bv 4 m.discards

/-- An entry that a 32-bit SEQ names, if it is held (R407). -/
def Ledger.find (l : Ledger) (seq : W32) : Option LEntry :=
  let i := (seq - l.head).toNat
  if i < l.entries.length then l.entries[i]? else none

def State.odSchedule (s : State) : Nat → List Byte
  | 1 => bv 2 s.ep.pendEpoch | 2 => bv 8 s.ep.switchGc | 3 => bv 2 s.ep.curEpoch | 4 => bv 2 s.ep.prevEpoch
  | 5 => leBytes 1 s.schedule | _ => bv 8 s.ep.lastSwitch

/-- Cycles waited at issue, those of waits that still run included (Table 11.3). -/
def State.cyclesWaited (s : State) : W64 :=
  s.stream.waiting.foldl (fun n w => satAdd n (s.tb.cycle - match w with | .unit _ a _ => a | .decl _ _ _ _ a _ => a)) s.escrow.waited

def State.odEscrow (s : State) : Nat → List Byte
  | 1 => bv 4 s.escrow.watchdog | 2 => bv 4 s.escrow.rollWatchdog | 3 => leBytes 1 s.escrow.entries.length
  | 4 => bv 1 s.escrow.highest | 5 => bv 8 s.cyclesWaited | _ => bv 4 s.escrow.refusals

/-- 0x8000: an entry that is not held is refused (R407). -/
def State.odLedger (s : State) (path : Path) : Nat → Except W16 (List Byte)
  | 1 => .ok (bv 4 s.ledger.head) | 2 => .ok (bv 4 s.ledger.tail) | 3 => .ok (bv 4 (s.mg.selLedger.get path))
  | _ => match s.ledger.find (s.mg.selLedger.get path) with | some e => .ok e.bytes | none => .error 0xA007

/-- The receipt that :05 selects, on the tenant path only one of the active context (R252). -/
def State.odReceipt (s : State) (path : Path) : Except W16 (List Byte) :=
  match s.prov.rcpt.entry? (s.mg.selRcpt.get path) with
  | none => .error 0xA007
  | some e => if path = .tenant ∧ e.tenant ≠ s.tn.active then .error 0xA008 else .ok e.bytes

/-- 0x8200. On the tenant path :01, :03, :04 and :07 speak of the whole store, whose entries of other contexts :06 alone hides (DESIGN
CHOICE, log 89). -/
def State.odReceipts (s : State) (path : Path) : Nat → Except W16 (List Byte)
  | 1 => .ok (leBytes 1 s.prov.rcpt.entries.length) | 3 => .ok (leBytes 1 s.prov.rcpt.signQ.length)
  | 4 => .ok (leBytes 1 s.prov.rcpt.noticeQ.length) | 5 => .ok (bv 8 (s.mg.selRcpt.get path)) | 6 => s.odReceipt path
  | _ => .ok (match s.prov.rcpt.entries.head? with | some e => bv 8 e.rseq | none => List.replicate 8 0xFF)

/-- A roll's record as the dictionary shows it: a read that follows a write sees it, also while it waits for its box (R346). -/
def State.rollShown (s : State) (i : Nat) : Roll :=
  match s.escrow.sets.find? fun w => w.1 == i with
  | some w => w.2.1
  | none => s.roll i

/-- The value of an item on a path, or an abort code where the value's own record refuses the read. `strict` is for
0x2000:08; `ctx` the context of a tenant-path read. -/
def State.odValue (s : State) (path : Path) (strict : Bool) (index sub : Nat) : Except W16 (List Byte) :=
  if index = 0x1102 then .ok (s.odKeys index sub)
  else if sub = 0 then .ok (leBytes 1 (odHighest index))
  else if index = 0x1000 then .ok (s.odIdentity sub)
  else if index ≤ 0x1103 then .ok (s.odKeys index sub)
  else if index = 0x2000 then .ok (s.odConfig strict sub)
  else if index = 0x3000 then .ok (s.ep.cur.od sub)
  else if index = 0x3010 then .ok (s.odSchedule sub)
  else if index = 0x3011 then .ok (s.ep.pend.od sub)
  else if index = 0x3012 then .ok (s.ep.prev.od sub)
  else if index = 0x3100 then .ok (if sub = 1 then bv 4 s.mg.lockMask else bv 4 s.mg.lockRefused)
  else if index ≤ 0x400F then .ok ((vecGet s.st.curves (index - 0x4000) .default).od sub)
  else if index ≤ 0x500F then .ok ((s.rollShown (index - 0x5000)).od sub)
  else if index = 0x5100 then .ok (s.odEscrow sub)
  else if index ≤ 0x6003 then .ok (s.odHealth index sub)
  else if index = 0x6010 then .ok (s.spad.health.od sub)
  else if index = 0x6040 then .ok (s.links.1.od sub)
  else if index = 0x6041 then .ok (s.links.2.od sub)
  else if index = 0x6060 then .ok (s.odMgmt sub)
  else if index = 0x7000 then .ok (s.odPower sub)
  else if index = 0x7010 then .ok (bv 8 (vecGet s.act (sub - 1) 0))
  else if index = 0x7100 then .ok (s.odTenant sub)
  else if index = 0x7200 then .ok (s.odTime sub)
  else if index = 0x8000 then s.odLedger path sub
  else if index = 0x8100 then
    .ok (if sub = 1 then bv 1 (s.mg.selRing.get path) else (vecGet s.evRings (s.mg.selRing.get path).toNat .default).od sub)
  else if index = 0x8200 then s.odReceipts path sub
  else if sub = 1 then .ok (s.mg.stmts.get path).1
  else .ok (bv 8 (s.mg.stmts.get path).2)

/-! ### The checks of Table 13.5 -/

/-- The operator lock bit that covers an item (Table 13.4). -/
def lockBit (index sub : Nat) : Option Nat :=
  if index = 0x3010 ∨ index = 0x3011 then some 0
  else if index = 0x5100 ∧ (sub = 1 ∨ sub = 2) then some 1
  else if 0x5000 ≤ index ∧ index ≤ 0x500F then some 2
  else if index = 0x7000 ∨ (index = 0x7010 ∧ sub = 0x17) then some 3
  else if index = 0x7100 then some 4
  else if index = 0x8100 then some 5
  else if index = 0x8200 ∧ sub = 2 then some 6
  else none

/-- Checks 1 to 5 of a read: an abort code, or 0. -/
def readChecks (path : Path) (index sub : Nat) : W16 :=
  match odRecord index with
  | none => 0xA001
  | some f =>
    match f sub with
    | none => 0xA002
    | some i => if i.acc = .wo then 0xA005 else if i.rd / pathBit path % 2 = 0 then 0xA008 else 0

/-- Whether the dictionary answers (R347). -/
def State.odReady (s : State) : Bool := s.boot == .ready

/-- The Statement that a read of 0x9000:01 captures into its path's buffer (R359, R361). -/
def State.capture (s : State) (path : Path) : State :=
  let b := s.statement (if path = .tenant then some s.tn.active else none)
  s.modMg fun m => { m with stmts := m.stmts.set path (b, s.gc) }

/-- A read of a whole item: its abort code, its value and, for the Statement, the capture. -/
def State.odRead (s : State) (path : Path) (strict : Bool) (index sub : Nat) : State × W16 × List Byte :=
  if !s.odReady then (s, 0xA006, [])
  else
    let e := readChecks path index sub
    if e ≠ 0 then (s, e, [])
    else
      let s := if index = 0x9000 ∧ sub = 1 then s.capture path else s
      match s.odValue path strict index sub with
      | .error k => (s, k, [])
      | .ok v => (s, 0, v)

/-- The roll with one field written (Table 11.4). -/
def Roll.withField (r : Roll) (sub v : Nat) : Roll :=
  r.set (if sub = 1 then decide (v = 1) else r.enable) (if sub = 5 then decide (v = 1) else r.overwrite)
    (if sub = 2 then BitVec.ofNat 32 v else r.base) (if sub = 3 then BitVec.ofNat 32 v else r.slotb)
    (if sub = 4 then BitVec.ofNat 16 v else r.nslot)

/-- The ranges of Table 11.4, and R298 for a roll that the write leaves enabled (log 47). -/
def State.rollFieldOk (s : State) (i sub v : Nat) : Bool :=
  let r := (s.rollShown i).withField sub v
  let own := match sub with
    | 1 => decide (v ≤ 1)
    | 2 => v % 64 == 0
    | 3 => v % 64 == 0 && decide (64 ≤ v) && decide (v ≤ 0x100000)
    | 4 => decide (1 ≤ v) && (!r.overwrite || decide (3 ≤ v))
    | _ => decide (v ≤ 1) && (v == 0 || !r.enable || decide (3 ≤ r.nslot.toNat))
  let g := r.region
  own && (!r.enable || (decide (64 ≤ r.slotb.toNat) && decide (1 ≤ r.nslot.toNat)
    && (!r.overwrite || decide (3 ≤ r.nslot.toNat)) && decide (g.2 ≤ s.spadBytes) && s.regionFree i g))

/-- Whether the slot that waits at issue is a `ROLLSET` of a roll. -/
def State.rollSetWaits (s : State) (i : Nat) : Bool :=
  match s.waitingSlot with
  | some w =>
    (match w.1.decode (s.modesOf w.1.epoch) with | some m => m.op == .rollset && bitsOf m.chain 7 4 == i | none => false)
  | none => false

/-- Whether a roll is used by a command or claim in flight, or a `ROLLSET` of it is pending (R307). -/
def State.rollBusy (s : State) (i : Nat) : Bool :=
  s.rollPending i || s.rollSetWaits i || (s.stream.claims.any fun c => c.roll == i && c.tag != noTag)
    || s.stream.inflight.any fun c => c.fault.isNone && c.cmd.rollOps.any fun x => x.2.1.slot == i

def isPow2 (n : Nat) : Bool := (upTo 33).any fun i => n == 2 ^ i

def share (v : Nat) : Bool := v == 0 || v == 25 || v == 50 || v == 75 || v == 100

def State.evRing (s : State) (path : Path) : EvRing := vecGet s.evRings (s.mg.selRing.get path).toNat .default

/-- The ranges of 0x3011 (Table 2.1). -/
def modeInRange (sub v : Nat) : Bool :=
  match sub with
  | 1 => decide (v ≤ 1) | 2 => decide (v ≤ 5) | 3 => decide (v ≤ 1) | 4 => decide (v ≤ 1) | 5 => true | _ => v != 0

/-- The ranges of 0x7000 (Table 14.8). -/
def powerInRange (sub v : Nat) : Bool :=
  match sub with
  | 1 => decide (32 ≤ v) && decide (v ≤ 4096) | 2 => decide (v ≤ 1000000000) | 3 => decide (800 ≤ v) && decide (v ≤ 3400)
  | 5 => decide (v ≤ 1) | 7 => decide (16 ≤ v) | _ => decide (1000 ≤ v) && decide (v ≤ 1000000)

/-- The ranges of 0x8100 (R411). -/
def ringInRange (sub v : Nat) : Bool :=
  match sub with
  | 1 => decide (v ≤ 63) | 2 => decide (v ≤ 1) | 3 => v % 4096 == 0 | 4 => isPow2 v && decide (64 ≤ v) && decide (v ≤ 65536)
  | 10 => decide (v ≤ 1) | _ => true

/-- Check 8: the written value lies in the item's range. -/
def State.inRange (s : State) (index sub : Nat) (v : Nat) : Bool :=
  if index = 0x1103 then v == 1 && s.prov.keys.keygen != 15
  else if index = 0x3010 then sub != 6 || v == 1
  else if index = 0x3011 then
    modeInRange sub v
  else if index = 0x3100 then decide (v < 128)
  else if 0x5000 ≤ index ∧ index ≤ 0x500F then s.rollFieldOk (index - 0x5000) sub v
  else if index = 0x5100 then decide (4096 ≤ v)
  else if index = 0x7000 then
    powerInRange sub v
  else if index = 0x7010 then v == 1
  else if index = 0x7100 then
    (let i := sub % 8
     if sub < 0x10 then decide (v ≤ 1)
     else if sub < 0x18 then share v && decide (v ≤ vecGet s.tn.ceil i 100)
     else share v && v != 0 && decide (vecGet s.tn.floor i 0 ≤ v))
  else if index = 0x8100 then
    ringInRange sub v
  else if index = 0x8200 then sub != 2 || (s.prov.rcpt.entry? (BitVec.ofNat 64 v)).isSome
  else true

/-- Writes that thermal halt lets through (R347). -/
def haltWrites (index sub : Nat) : Bool :=
  index == 0x3100 || index == 0x7000 || (index == 0x7010 && sub == 0x17) || index == 0x7100

/-- Check 9: the item is writable now; a nonzero code refuses. A Rotate write while the unit holds no key is refused as one during a
rotation is (DESIGN CHOICE, log 89). -/
def State.writableNow (s : State) (path : Path) (index sub v : Nat) : W16 :=
  if s.pw.state = .halt ∧ !haltWrites index sub then 0xA006
  else if index = 0x1103 then (if s.prov.keys.rot = .idle ∧ !s.fixed.otp.keys.isEmpty then 0 else 0xA006)
  else if index = 0x3010 then
    (match sub with
      | 1 => if s.ep.armed then 0xA006 else 0
      | 6 => if s.schedule = 1 then 0 else 0xA006
      | _ => if s.schedule = 2 ∨ s.ep.pendEpoch = s.ep.curEpoch ∨ s.ep.pendEpoch = s.ep.prevEpoch then 0xA006
             else if v ≤ s.gc.toNat then 0xA00F else 0)
  else if index = 0x3011 then (if s.ep.armed then 0xA006 else 0)
  else if 0x5000 ≤ index ∧ index ≤ 0x500F then (if s.rollBusy (index - 0x5000) then 0xA006 else 0)
  else if index = 0x7100 then (if sub < 0x10 ∧ v = 0 ∧ sub % 8 = s.tn.active.toNat then 0xA006 else 0)
  else if index = 0x8100 then
    (if (3 ≤ sub ∧ sub ≤ 6) ∨ sub = 10 then
       (let n := (s.mg.selRing.get path).toNat
        if (s.evRing path).enable ∨ s.evOut.any (fun w => w.1 == n) then 0xA006 else 0)
     else 0)
  else if index = 0x8200 ∧ sub = 2 then
    (match s.prov.rcpt.entry? (BitVec.ofNat 64 v) with | some e => if e.status = .noticed then 0 else 0xA006 | none => 0xA007)
  else 0

/-- Checks 1 to 9 of a write. -/
def State.writeChecks (s : State) (path : Path) (index sub : Nat) (value : List Byte) : W16 :=
  match odRecord index with
  | none => 0xA001
  | some f =>
    match f sub with
    | none => 0xA002
    | some i =>
      let v := leNat value
      if i.acc = .const ∨ i.acc = .ro then 0xA004
      else if i.acc = .rwe then 0xA00E
      else if i.wr / pathBit path % 2 = 0 then 0xA008
      else if path = .driver ∧ ((lockBit index sub).map fun b => s.mg.lockMask.getLsbD b).getD false then 0xA00D
      else if i.size ≠ some value.length then 0xA003
      else if !s.inRange index sub v then 0xA007
      else s.writableNow path index sub v

/-! ### What a write does -/

def ModeSet.write (m : ModeSet) (sub v : Nat) : ModeSet :=
  match sub with
  | 1 => { m with strict := decide (v = 1) } | 2 => { m with rnd := (Rnd.ofCode v).getD .rne }
  | 3 => { m with nonsat := decide (v = 1) } | 4 => { m with inflim := decide (v = 1) }
  | 5 => { m with seed := BitVec.ofNat 64 v } | _ => { m with key := BitVec.ofNat 64 v }

/-- A floor breach ends (R385): logged with its duration, which the context's breach time takes. -/
def State.endBreach (s : State) : State :=
  match s.pw.breach with
  | none => s
  | some b =>
    let c := s.tn.active
    let d := s.gc.toNat - b.start.toNat
    let s := s.modPw fun p => { p with breach := none }
    let s := s.modTn fun t => { t with breach := vecModify t.breach c.toNat fun v => satAdd v d }
    s.log cFLOOR noTag (some c)
      ([BitVec.ofNat 8 c.toNat, BitVec.ofNat 8 b.floor, BitVec.ofNat 8 b.lowest, BitVec.ofNat 8 b.cause, 1, 0, 0, 0]
        ++ leBytes 8 d)

/-- DISARM: the schedule is idle, and a command that waits with the withdrawn epoch faults with `EPOLD` (R375). -/
def State.disarm (s : State) : State :=
  let s := { s with ep := { s.ep with armed := false } }
  match s.waitingSlot with
  | none => s
  | some w =>
    match check3 s w.1 with
    | .fault k d =>
      if w.1.epoch ≠ s.ep.pendEpoch then s
      else
        let s := s.modEscrow fun e => { e with waited := satAdd e.waited (s.tb.cycle - w.2.1) }
        (s.modStream fun st => { st with waiting := st.waiting.filter fun x => match x with | .unit .. => false | _ => true }).refuse
          w.1 k d
    | _ => s

def PowerSet.write (p : PowerSet) (sub v : Nat) : PowerSet :=
  match sub with
  | 2 => { p with lateWin := BitVec.ofNat 32 v } | 3 => { p with cap := BitVec.ofNat 16 v }
  | 5 => { p with sleep := decide (v = 1) } | 7 => { p with delay := BitVec.ofNat 16 v }
  | _ => { p with period := BitVec.ofNat 32 v }

def Tenants.write (t : Tenants) (sub v : Nat) : Tenants :=
  let i := sub % 8
  if sub < 0x10 then { t with enable := vecModify t.enable i fun _ => decide (v = 1) }
  else if sub < 0x18 then { t with floor := vecModify t.floor i fun _ => v }
  else { t with ceil := vecModify t.ceil i fun _ => v }

/-- A ring's fields; :02 starts or stops it (R411). -/
def EvRing.write (r : EvRing) (tail : W32) (sub v : Nat) : EvRing :=
  match sub with
  | 2 => if decide (v = 1) == r.enable then r
    else if v = 1 then { r with enable := true, wr := 0, rd := 0, dropped := 0, next := tail } else { r with enable := false }
  | 3 => { r with base := BitVec.ofNat 64 v } | 4 => { r with size := BitVec.ofNat 32 v }
  | 5 => { r with groups := BitVec.ofNat 16 v } | 6 => { r with ctxs := BitVec.ofNat 8 v }
  | 8 => { r with rd := BitVec.ofNat 32 v } | _ => { r with policy := decide (v = 1) }

/-- Writes of roll records take effect once no entry older than them stands in a hazard with their boxes (R307). -/
def State.rollSetsDue (s : State) : State :=
  s.escrow.sets.foldl (fun s w =>
    if s.escrow.entries.any fun e => w.2.2.contains e.tag && w.2.1.boxes.any fun b => b.hazard e.box then s
    else (s.setRoll w.1 w.2.1).modEscrow fun e => { e with sets := e.sets.filter fun x => x.1 != w.1 }) s

/-- A field of a roll's record written, exactly as a `ROLLSET` with the new field values (R307). -/
def State.writeRoll (s : State) (i sub v : Nat) : State :=
  (s.modEscrow fun e => { e with sets := e.sets ++ [(i, (s.roll i).withField sub v, e.entries.map fun x => x.tag)] }).rollSetsDue

/-- The effect of a write that has passed every check. -/
def State.odApply (s : State) (path : Path) (index sub v : Nat) : State :=
  if index = 0x1103 then s.modProv fun p => { p with keys := { p.keys with rot := .generating } }
  else if index = 0x3010 then
    (match sub with
      | 1 => { s with ep := { s.ep with pendEpoch := BitVec.ofNat 16 v } }
      | 2 => { s with ep := { s.ep with switchGc := BitVec.ofNat 64 v, armed := true } }
      | _ => s.disarm)
  else if index = 0x3011 then { s with ep := { s.ep with pend := s.ep.pend.write sub v } }
  else if index = 0x3100 then s.modMg fun m => { m with lockMask := BitVec.ofNat 32 v }
  else if 0x5000 ≤ index ∧ index ≤ 0x500F then s.writeRoll (index - 0x5000) sub v
  else if index = 0x5100 then
    s.modEscrow fun e => if sub = 1 then { e with watchdog := BitVec.ofNat 32 v } else { e with rollWatchdog := BitVec.ofNat 32 v }
  else if index = 0x7000 then
    s.modPw fun p => if sub = 1 then { p with stagger := BitVec.ofNat 32 v } else { p with set := p.set.write sub v }
  else if index = 0x7010 then { s with act := Vector.replicate 22 0 }
  else if index = 0x7100 then
    (let s := s.modTn fun t => t.write sub v
     if vecGet s.tn.floor s.tn.active.toNat 0 ≤ s.pw.issue then s.endBreach else s)
  else if index = 0x8000 then s.modMg fun m => { m with selLedger := m.selLedger.set path (BitVec.ofNat 32 v) }
  else if index = 0x8100 then
    (if sub = 1 then s.modMg fun m => { m with selRing := m.selRing.set path (BitVec.ofNat 8 v) }
     else { s with evRings := vecModify s.evRings (s.mg.selRing.get path).toNat fun r => r.write s.ledger.tail sub v })
  else if index = 0x8200 then
    (if sub = 2 then s.modRcpt fun r => { r with entries := r.entries.filter fun e => e.rseq != BitVec.ofNat 64 v }
     else s.modMg fun m => { m with selRcpt := m.selRcpt.set path (BitVec.ofNat 64 v) })
  else s

/-- A write of a whole value: its abort code and the state (R345); a refused switch GC logs `LATEE` (R373). As every access it takes effect
in one step, whole, between two issues of the command stream, and never waits for a command; a read after it on any path finds the value
(R346). A roll record whose box must wait is the one write that takes effect later (R307): it is seen at once (`State.rollShown`). -/
def State.odWrite (s : State) (path : Path) (index sub : Nat) (value : List Byte) : State × W16 :=
  if !s.odReady then (s, 0xA006)
  else
    let e := s.writeChecks path index sub value
    if e = 0 then (s.odApply path index sub (leNat value), 0)
    else if e = 0xA00D then (s.modMg fun m => { m with lockRefused := satAdd m.lockRefused 1 }, e)
    else if e = 0xA00F then (s.log cLATEE noTag none (leBytes 8 (leNat value) ++ leBytes 8 s.gc.toNat), e)
    else (s, e)

/-- The management counters of one access (Table 13.8). -/
def State.countAccess (s : State) (abort : W16) : State :=
  s.modMg fun m => { m with served := satAdd m.served 1, aborts := if abort = 0 then m.aborts else satAdd m.aborts 1 }

/-- A write that no frame carries: applied, counted, its abort code noted; a unit held in reset takes none (R434). -/
def State.odWriteRow (s : State) (path : Path) (index sub : Nat) (value : List Byte) : State :=
  if s.held then s else
  let r := s.odWrite path index sub value
  (r.1.countAccess r.2).modOut fun o => { o with od := o.od ++ [(path, r.2)] }

/-- STATEMENT_READ: a SEG 0 read of 0x9000:01. -/
def State.statementRead (s : State) (path : Path) : State :=
  if s.held then s else
  let r := s.odRead path s.ep.cur.strict 0x9000 1
  (r.1.countAccess r.2.1).modOut fun o => { o with od := o.od ++ [(path, r.2.1)] }

end Sys2Proof.Machine
end

