-- ==== Sys2Proof/Machine/Retire.lean ====
section
/-! DEFINITION. What ends a command: its own event where it has one, its retirement and its completion record, and the
presentations of the accumulator port (R65, R90 to R92, R94, R123, R129, R150, R222, R244, R245, R270, R281, R290, R301, R303, R306,
R335 to R338, R370, R388, R448, R449). -/
namespace Sys2Proof.Machine
open Sys2Proof

/-! ### Restarts (R151, R399, R400) -/

/-- A command back at its first beat; what it has counted, packed or staged goes, its claims and captures stay, and amax is
unchanged (R65). -/
def Inflight.restart (c : Inflight) (cycle replays : Nat) : Inflight :=
  { c with
    since := cycle, started := 0, left := c.total, beats := [], hard := [], opened := 0, rowsDone := 0, flags := {}, vanish := 0
    satcnt := 0, xund := false, xovr := false, pivx := false, asValue := 0, asCount := 0, pre := [], preSynd := [], pack := []
    recs := [], keeps := [], counts := [], gather := [], latch := [], bcast := [], writes := [], badRow := none, d0 := 0, d1 := 0, accpv := 0, accSeen := 0
    replays := BitVec.ofNat 2 replays }

/-- Whether a command has beats or row results still to come. -/
def Inflight.unfinished (c : Inflight) : Bool :=
  !c.beats.isEmpty || !c.hard.isEmpty || decide (c.started < c.total) || decide (c.rowsDone < c.cmd.rowSteps c.regs)

/-- The row-state lines that a command uses, first line and number, row by row: those it reads or updates, the destinations that a
`SETTLE` has written. `updates`: those it updates alone. -/
def Inflight.lines (c : Inflight) (updates : Bool) : List (Nat × Nat) :=
  let m := c.cmd
  if m.op = .settle then (c.settle.zipIdx.filter fun x => x.1.settled).map fun x => c.rowLine m x.2
  else if m.op.rows && (!m.reads || (m.takesSlots && !updates)) then (upTo m.main.rows).map fun r => c.rowLine m r
  else []

/-- Whether a younger command uses a row-state line that this one updates. -/
def Inflight.sharesLine (a young : Inflight) : Bool :=
  (a.lines true).any fun x => (young.lines false).any fun y => decide (x.1 < y.1 + y.2) && decide (y.1 < x.1 + x.2)

/-- Whether a command has used a line, or moved a beat. -/
def Inflight.begun (c : Inflight) : Bool :=
  if c.cmd.op = .settle then c.settle.any fun r => r.settled else c.cmd.elements && decide (0 < c.started + c.rowsDone)

/-- Of younger commands in stream order, those that go back with the commands before them: one whose beats were stopped, when `stops`, and
one that has used a line which a command that goes back updates (R151, R400). A command that has faulted goes back for its lines alone. -/
def restartWith (stops : Bool) : List Inflight → List Inflight → List Inflight
  | _, [] => []
  | again, y :: ys =>
    if y.begun && ((stops && y.fault.isNone && y.cmd.elements && y.unfinished) || again.any fun c => c.sharesLine y) then
      y :: restartWith stops (again ++ [y]) ys
    else restartWith stops again ys

/-- The younger commands of the stream. -/
def State.youngerThan (s : State) (tag : W16) : List Inflight := s.stream.inflight.drop ((s.olderThan tag).length + 1)

/-- Pre-images read: single-bit errors are corrected, and words that cannot be stay listed (R404). -/
def Inflight.fixPre (c : Inflight) : Inflight :=
  { c with
    pre := c.pre.zipIdx.map fun p => (p.1.1, c.preSynd.foldl (fun bs e =>
      if e.1 / 16 = p.2 then match classify e.2 with | .dataBit j => flipBit bs (8 * (e.1 % 16)) j | _ => bs else bs) p.1.2)
    preSynd := c.preSynd.filter fun e => (classify e.2).bad }

def State.readPre (s : State) (c : Inflight) : State :=
  if c.preSynd.isEmpty then s
  else
    (c.preSynd.foldl (fun s e =>
      s.codeEvent 3 (c.pre.getD (e.1 / 16) (0, [])).1 c.tag (some c.slot.tenant) e.2 (classify e.2)) s).modInflight c.tag Inflight.fixPre

/-- Row-state lines put back as they were before the commands, the youngest first; one whose pre-image cannot be read is poisoned
(Table 15.3). -/
def State.restore (s : State) : List Inflight → State
  | [] => s
  | c :: cs => (c.pre.zipIdx).foldl (fun s p =>
      if c.preSynd.any fun e => e.1 / 16 == p.2 then
        (s.setLines p.1.1 p.1.2).modSt fun st => { st with rowBad := st.rowBad ++ [p.1.1] }
      else s.setLines p.1.1 p.1.2) (s.restore cs)

def Inflight.takesAcc (c : Inflight) : Bool :=
  let m := c.cmd
  (m.get .x).kind == .acc || (m.get .y).kind == .acc

/-- The beats of a command that are still to be written are dropped. -/
def Inflight.dropBeats (c : Inflight) : Inflight := { c with beats := [] }

/-- The lines of a command stand as they did before it: it has none left to put back. -/
def Inflight.lineless (c : Inflight) : Inflight := { c with pre := [], preSynd := [] }

/-- A pre-image that cannot be read: the command faults in place of starting again, and nothing more of it is written (Table 15.3). -/
def State.failPre (s : State) (c : Inflight) (e : Nat × Byte) : State :=
  (s.failAfter c cECCUE (eccDetail (c.pre.getD (e.1 / 16) (0, [])).1 3 e.2 0 c.preSynd.length)).modInflight c.tag fun c =>
    { c.mute.dropBeats.lineless with hard := [] }

/-- A `SETTLE` whose destinations were put back: the settled records take their places again (R150, R151). -/
def Inflight.unplace (c : Inflight) : Inflight := { c.lineless with settle := c.settle.map fun w => { w with settled := false } }

/-- A command whose lines were put back starts again, with its count of replays (R151, R399); one that has faulted does not. -/
def State.restartOne (s : State) (y : Inflight) (replays : Nat) : State :=
  if y.fault.isSome then s.modInflight y.tag Inflight.lineless
  else match y.preSynd with
  | e :: _ => s.failPre y e
  | [] => s.modInflight y.tag fun y => if y.cmd.op = .settle then y.unplace else y.restart s.tb.cycle replays

/-- Younger commands start again from their first beats, which counts as no replay (R151); `ask`: the matrix engine is asked to present
again (R94). -/
def State.restartAll (s : State) (young : List Inflight) (ask : Bool) : State :=
  let s := young.foldl (fun s y => s.restartOne y y.replays.toNat) s
  if ask || young.any fun y => y.fault.isNone && y.takesAcc then
    (s.modStream fun st => { st with acc := none }).modOut fun o => { o with accReplay := o.accReplay + 1 }
  else s

/-- The pre-images of some commands read, and the commands as they are then (R404). -/
def State.readPres (s : State) (cs : List Inflight) : State × List Inflight :=
  let s := cs.foldl State.readPre s
  (s, cs.map fun c => (s.inflight? c.tag).getD c)

/-- The beats of younger commands that have faulted are stopped with the rest and do not run again (R396, R448). -/
def State.stopFaulted (s : State) (tag : W16) : State :=
  ((s.youngerThan tag).filter fun y => y.fault.isSome).foldl (fun s y => s.modInflight y.tag Inflight.dropBeats) s

/-- The affected command and every younger one that follows it start again; one whose pre-images cannot be read faults instead
(R399, R400, Table 15.3). -/
def State.startAgain (s : State) (c : Inflight) : State :=
  let r := (s.stopFaulted c.tag).readPres (c :: restartWith true [c] (s.youngerThan c.tag))
  (((r.1.restore r.2).restartOne ((r.2.head?).getD c) (c.replays.toNat + 1))).restartAll (r.2.drop 1) c.takesAcc

/-! ### The completion record (Tables 12.15 and 12.16) -/

/-- Byte 4: FLAGS, XUND, XOVR, PIVX. -/
def Inflight.statusByte (c : Inflight) : Nat :=
  c.flags.mask + 32 * c.xund.toNat + 64 * c.xovr.toNat + 128 * c.pivx.toNat

def completionRecord (tag fault : W16) (status replays : Nat) (epoch : W16) (d0 d1 : W32) : BitVec 128 :=
  BitVec.ofNat 128 (tag.toNat + 2 ^ 16 * fault.toNat + 2 ^ 32 * status + 2 ^ 40 * replays + 2 ^ 48 * epoch.toNat
    + 2 ^ 64 * d0.toNat + 2 ^ 96 * d1.toNat)

/-- D0 and D1 hold VANISH and SATCNT of the commands that write elements or rows (Table 12.16). -/
def Cmd.counts (m : Cmd) : Bool := m.elements && m.op != .merge && m.op != .assay

def Inflight.completion (c : Inflight) (m : Cmd) : BitVec 128 :=
  let f := c.fault.getD 0
  if c.refused then completionRecord c.tag f 0 0 c.slot.epoch 0 0
  else
    completionRecord c.tag f c.statusByte c.replays.toNat c.slot.epoch (if m.counts then c.vanish else c.d0)
      (if m.counts then c.satcnt else c.d1)

/-! ### The commands' own events -/

/-- Whether a command in flight still has to use or to change a curve slot (R123, R129). -/
def Inflight.usesCurve (c : Inflight) (k : Nat) : Bool :=
  let m := c.cmd
  !c.refused && (m.curveSlot == some k
    || (c.fault.isNone && !c.ready && ((m.op == .mint && m.chain % 16 == k) || (m.op == .fnsync && m.chain.testBit k))))

/-- Whether no older command has still to use or to change a slot. -/
def State.curveFree (s : State) (tag : W16) (k : Nat) : Bool := (s.olderThan tag).all fun c => !c.usesCurve k

/-- Whether the roll that a `ROLLSET` sets is still used by an older command or claim, or an older write of its record waits (R306,
R307). -/
def State.rollUsed (s : State) (tag : W16) (i : Nat) : Bool :=
  (s.escrow.sets.any fun w => w.1 == i) || (s.stream.claims.any fun x => x.roll == i && x.tag != noTag)
    || (s.olderThan tag).any fun c => c.fault.isNone && !c.ready && c.cmd.op == .rollset && bitsOf c.cmd.chain 7 4 == i

/-- ROLL_SET_EFFECT. -/
def State.rollSetEffect (s : State) : State :=
  match s.awaiting .rollset with
  | none => s
  | some c =>
    let n := c.cmd.chain
    let i := bitsOf n 7 4
    if !s.running || s.rollUsed c.tag i then s
    else
      let s := s.setRoll i
        ((s.roll i).set (n.testBit 0) (n.testBit 1) (w32Of n 127 96) (w32Of n 95 64) (BitVec.ofNat 16 (bitsOf n 63 48)))
      s.modInflight c.tag fun c => { c with ready := true }

/-- `ECCUE` of each line that a clear leaves as poison (R281). -/
def State.logClear (s : State) : List Nat → State
  | [] => s
  | l :: ls => (s.logEccue noTag (some s.tn.active) (eccDetail (64 * l) 0 0xFF 4 8)).logClear ls

/-- SCRATCHPAD_CLEAR_DONE: the Till and the row-state table are clear as well (R281, R388, R441). -/
def State.scratchpadClearDone (s : State) (failed : List Nat) : State :=
  match s.spad.clearing with
  | none => s
  | some who =>
    if !s.fclkRuns || (who == .warm && s.boot != .warmClear) then s
    else
      let bad := (failed.filter fun l => decide (l < 64 * s.bankRows)).dedup
      let s := ((s.noteLongest.clearScratchpad bad).dropSteals).modSpad fun p => { p with clearing := none }
      let s := s.modSt fun st => { st with till := [], tillSynd := [], tillBad := [], rowTab := [], rowSynd := [], rowBad := [] }
      let s := (s.modHealth fun h => { h with poisoned := satAdd h.poisoned (8 * bad.length) }).logClear bad
      match who with
      | .warm => { s with boot := if s.boot = .warmClear then .warmRom else s.boot }
      | .tenant =>
        match s.awaiting .tenant with
        | none => s
        | some c => s.modInflight c.tag fun c => { c with ready := true, d0 := BitVec.ofNat 32 bad.length }

/-! ### Rolls that time out (R303) -/

/-- ROLL_WATCHDOG: the claim of a tag has waited for one slot beyond the count. A roll that is faulted already keeps its code, and a
command that has faulted waits no more. -/
def State.rollWatchdog (s : State) (tag : W16) : State :=
  let late (x : Claim) : Bool :=
    x.tag == tag && !((s.inflight? tag).any fun c => c.fault.isSome) && (match x.since with | some y => decide (s.escrow.rollWatchdog.toNat ≤ s.tb.cycle - y) | none => false)
  match s.stream.claims.find? late with
  | none => s
  | some x =>
    if !s.running then s
    else
      let code := if x.produce then cROLLO else cROLLU
      let detail := [BitVec.ofNat 8 x.roll, 0, 0, 0] ++ leBytes 4 (x.seq x.acquired).toNat
      let s := s.modRoll x.roll fun r =>
        { r with st := if r.faulted then r.st else if x.produce then .faultedO else .faultedU, lastTag := tag }
      let s := s.modClaim x fun x => { x with since := none }
      match s.inflight? tag with
      | some c => s.failAfter c code detail
      | none =>
        (s.log code tag (some s.tn.active) detail).modOut fun o => { o with esc := o.esc ++ [(tag, true, .timeout, [])] }

/-! ### Accumulator presentations (R90 to R92) -/

/-- ACC_PRESENTATION. -/
def State.accPresentation (s : State) (beat : List (Option W32)) : State :=
  match s.presented with
  | none => s
  | some (c, b) =>
    let ps := beat.take 256
    if !s.running || s.stream.acc.isSome || s.stopped c.tag then s
    else if ps.all fun p => p.isNone then s.bump 20 1
    else
      let segs := (c.cmd.geo c.regs).segs b
      let outside := (ps.zipIdx.any fun p => p.1.isSome && !(segs.any fun sg => decide (sg.pos ≤ p.2) && decide (p.2 < sg.pos + sg.len)))
      let s := s.modStream fun st => { st with acc := some ps }
      if outside then s.modInflight c.tag fun c => { c with accpv := satAdd c.accpv 1 } else s

/-! ### COMMAND_RETIREMENT -/

/-- Whether an access of the operator or the driver waits to be served, which goes before a tenant's (R346). -/
def State.accessWaits (s : State) : Bool := !s.mg.queue.isEmpty || !s.mg.asked.isEmpty

/-- Whether the oldest command can retire. -/
def State.retireReady (s : State) (c : Inflight) (m : Cmd) : Bool :=
  !s.stopped c.tag && !(m.op == .cfg && c.fault.isNone && s.accessWaits) && (c.refused
    || (c.beats.isEmpty && c.hard.isEmpty && !s.rowReady c
      && (c.fault.isSome || (match m.op with
        | .settle => (c.settle.all fun r => r.settled) && !s.unacked c m
        | .mint | .fnsync | .rollset | .waitgc | .tenant => c.ready
        | _ => c.started == c.total && decide (m.rowSteps c.regs ≤ c.rowsDone)))))

/-- A fault that shows only now: a bank conflict of a command without beats, a row of a `MERGE` (R222, R270). -/
def State.lastFault (s : State) (c : Inflight) : State :=
  if c.fault.isSome then s
  else match c.conflict with
    | some k => if c.total = 0 then s.failBank c k else s
    | none => match c.badRow with
      | some r => s.failAfter c cILLCM (illcmAfter 0xFF r)
      | none => s

/-- The beats in flight of a younger command that has faulted end before the lines it shares are put back: their write stages complete, or
they go where a recovery has stopped them (R448, R396; log 23). -/
def State.endBeats (s : State) (y : Inflight) : State :=
  if y.fault.isNone then s
  else if s.stopped y.tag then s.modInflight y.tag Inflight.dropBeats
  else y.beats.foldl (fun s _ => match s.inflight? y.tag with | some c => s.writeBeat c | none => s) s

/-- What a fault after issue undoes: row-state lines, the destinations of a `SETTLE`; younger commands that have used one of those lines
start again, and the lines of younger ones that have faulted go back with them (R150, R151, R217, R270). -/
def State.undo (s : State) (c : Inflight) (m : Cmd) : State :=
  let young := restartWith false [c] (s.youngerThan c.tag)
  if m.op = .settle then
    let r := (young.foldl State.endBeats s).readPres young
    ((r.1.restore r.2).voidSettle c m).restartAll r.2 false
  else if c.pre.isEmpty then s
  else
    let r := (young.foldl State.endBeats s).readPres (c :: young)
    (r.1.restore r.2).restartAll (r.2.drop 1) false

/-- Every slot that a command's claims name (R299). -/
def State.allSlots (s : State) (c : Inflight) : List (Claim × Nat) :=
  (s.stream.claims.filter fun x => x.tag == c.tag).map fun x => (x, x.n)

/-- The stores of a command that also loads, in row order, each of the state after its last update (R449). -/
def State.lateStores (s : State) (c : Inflight) : State := if c.writes.isEmpty then s else s.doWrites c.tag c.writes

/-- `ASSAY` (Table 9.5). AMREAD lays the registers in OUT in increasing number, as the table says of READ (DESIGN CHOICE, log 97). -/
def State.assayOp (s : State) (c : Inflight) (m : Cmd) : State :=
  let ks := maskBits (bitsOf m.chain 15 0)
  let each (f : Assay → Assay) : State :=
    s.modSt fun st => { st with assays := ks.foldl (fun v k => vecModify v k f) st.assays }
  let read (bs : List Byte) : State :=
    (s.doWrites c.tag (recordWrites (m.get .out) none 0 bs)).modInflight c.tag fun c => { c with d0 := BitVec.ofNat 32 ks.length }
  match bitsOf m.chain 18 16 with
  | 0 => each fun _ => { st := .opened, value := 0, count := 0 }
  | 1 => each fun a => if a.st = .opened then { a with st := .closed } else a
  | 2 => read (ks.map fun k => (s.assay k).slot k).flatten
  | 4 => read (ks.map fun k => leBytes 8 (vecGet s.st.amax k 0).toNat).flatten
  | 5 => s.modSt fun st => { st with amax := ks.foldl (fun v k => vecModify v k fun _ => 0) st.amax }
  | _ => s

/-- A refused `CFG` (R335). -/
def State.refuseCfg (s : State) (c : Inflight) (abort : W16) : State :=
  (s.log cODABT c.tag (some c.slot.tenant) ([2, 0xFF, 0, 0] ++ leBytes 2 abort.toNat)).modInflight c.tag fun c =>
    { c with fault := some cODABT, d0 := abort.setWidth 32, d1 := 0 }

/-- The abort code of a `CFG` read of `n` bytes: its length is checked before the item's range (Table 13.5). -/
def cfgReadAbort (index sub n : Nat) (e : W16) (len : Nat) : W16 :=
  let fixed := ((odRecord index).bind fun f => f sub).bind fun i => i.size
  if e = 0xA007 then (if 544 < n then 0xA003 else e)
  else if e ≠ 0 then e
  else match fixed with
    | some k => if n = k then 0 else 0xA003
    | none => if n ≤ len then 0 else 0xA003

/-- `CFG` at its place in the stream (R335). -/
def State.cfgOp (s : State) (c : Inflight) (m : Cmd) : State :=
  let n := m.chain
  let index := bitsOf n 15 0
  let sub := bitsOf n 23 16
  let len := bitsOf n 44 32
  let done (s : State) : State :=
    (s.countAccess 0).modInflight c.tag fun c => { c with d0 := 0, d1 := BitVec.ofNat 32 len }
  if n.testBit 24 then
    let d := m.get .data
    let w := s.readOrFail c (if n.testBit 25 then [] else spanWords d none false 0 0 len)
    if !w.2 then w.1
    else
      let v := if n.testBit 25 then padTo len (leBytes 8 (bitsOf n 127 64)) else w.1.spad.readRow d none 0 len
      let r := w.1.odWrite .tenant index sub v
      if r.2 = 0 then done r.1 else (r.1.countAccess r.2).refuseCfg c r.2
  else
    let r := s.odRead .tenant c.modes.strict index sub
    let e := cfgReadAbort index sub len r.2.1 r.2.2.length
    if e = 0 then done (r.1.doWrites c.tag (recordWrites (m.get .data) none 0 (r.2.2.take len)))
    else (r.1.countAccess e).refuseCfg c e

/-- The end of a `TENANT`: a breach of the outgoing context's floor ends, the context changes, digest ranges begin
(R248, R385, R388); a range that a command received behind the `TENANT` has begun goes on. -/
def State.tenantSwitch (s : State) (c : Inflight) (m : Cmd) : State :=
  let s := s.endBreach
  let old := s.tn.active
  let new : BitVec 3 := BitVec.ofNat 3 m.chain
  let s := s.modTn fun t => { t with active := new, changes := satAdd t.changes 1 }
  let s := s.log cTNCLR c.tag (some c.slot.tenant)
    ([BitVec.ofNat 8 old.toNat, BitVec.ofNat 8 new.toNat, 0, 0] ++ leBytes 4 (min (s.tb.cycle - c.issued) 0xFFFFFFFF)
      ++ leBytes 4 c.d0.toNat)
  s.modProv fun p => 
    { p with
      cur := if p.cur.live then p.cur else .begin s.gc new s.ep.curEpoch
      prev := if p.prev.live then p.prev else .begin s.gc new s.ep.prevEpoch }

/-- What a command does in the cycle in which it retires without a fault. -/
def State.retireEffect (s : State) (c : Inflight) (m : Cmd) : State :=
  match m.op with
  | .assay => if bitsOf m.chain 18 16 = 3 then s else s.assayOp c m
  | .sealing | .stmt => s.doWrites c.tag (recordWrites (m.get .out) none 0 c.data)
  | .cfg => s.cfgOp c m
  | .tenant => s.tenantSwitch c m
  | _ => s.lateStores c

/-- The private partials of a command combined: the assay's unless it faulted, the amax register's with the clear that the
command asked for (R65, R244). -/
def State.combine (s : State) (c : Inflight) (m : Cmd) : State :=
  let s := if c.fault.isNone && (m.rc.aen || (m.op == .assay && bitsOf m.chain 18 16 == 3)) then
      s.modSt fun st => { st with assays := vecModify st.assays m.rc.aacc fun a =>
        { a with value := a.value ^^^ c.asValue, count := satAdd a.count c.asCount.toNat } }
    else s
  if m.rc.amen then
    s.modSt fun st => { st with amax := vecModify st.amax m.rc.amsel fun v => amaxJoin (if m.rc.amclr then 0 else v) c.amax }
  else s

/-- The producing claims of a command that did its work are complete. -/
def State.completeAll (s : State) (c : Inflight) : State :=
  (s.stream.claims.filter fun x => x.tag == c.tag && x.produce).foldl (fun s x => s.complete x x.n) s

/-- The fault summary of a retirement (Table 9.6); `EPOLD` counts where R248 says. -/
def Summary.retire (x : Summary) (fault : Option W16) (fastSettle : Bool) : Summary :=
  { x with
    faulted := if fault.isSome && fault != some cEPOLD then satAdd x.faulted 1 else x.faulted
    curvx := x.curvx || fault == some cCURVX, eccue := x.eccue || fault == some cECCUE, settleF := x.settleF || fastSettle }

/-- The escrow entries of a command go (R290). -/
def State.endHolds (s : State) (tag : W16) : State :=
  s.modEscrow fun e => { e with entries := e.entries.filter fun x => x.tag != tag }

/-- The command leaves the unit: entries and claims go, the completion is delivered. -/
def State.leave (s : State) (c : Inflight) (m : Cmd) : State :=
  let acc := c.takesAcc
  let s := if c.refused then s else ((s.dropClaims c.tag).endHolds c.tag).modEscrow fun e => { e with order := e.order.filter fun t => t != c.tag }
  let s := s.noteEpoch c.slot.epoch fun x =>
    x.retire c.fault (m.op == .settle && !c.modes.strict && !c.refused)
  let s := if c.accpv = 0 then s
    else (s.log cACCPV c.tag (some c.slot.tenant) (bv 4 c.accpv)).noteEpoch c.slot.epoch fun x => { x with accpv := true }
  let s := s.modStream fun st =>
    { st with inflight := st.inflight.drop 1 ++ st.refused.take 1, refused := st.refused.drop 1, lastTag := if m.op = .tenant ∧ c.fault.isNone then noTag else c.tag }
  let s := s.modPw fun p => { p with idleSince := s.tb.cycle }
  let s := s.modFt fun f => { f with tallyTags := f.tallyTags.filter fun t => t != c.tag }
  let s := if !c.refused && c.total == 0 then
      let s := (s.bump 17 c.pieces.1.length).bump 18 c.pieces.2.length
      if c.pieces.1.isEmpty && c.pieces.2.isEmpty then s
      else s.modHealth fun h => { h with slips := satAdd h.slips (Config.slips c.tag.toNat 0 s.tb.cycle) }
    else s
  (s.bump 21 1).modOut fun o =>
    { o with cpl := o.cpl ++ [c.completion m], accRelease := o.accRelease + (if acc && !c.refused then 1 else 0) }

/-- COMMAND_RETIREMENT. -/
def State.commandRetirement (s : State) : State :=
  match s.stream.inflight with
  | [] => s
  | c :: _ =>
    let m := c.cmd
    if !s.running || !s.retireReady c m then s
    else if c.refused then s.leave c m
    else
      let s := s.lastFault c
      let c := (s.inflight? c.tag).getD c
      if c.fault.isSome then ((s.undo c m).combine c m).leave c m
      else
        let a := s.acquireAll (s.allSlots c)
        if !a.2 then a.1
        else
          let s := (a.1.completeAll c).retireEffect c m
          let c := (s.inflight? c.tag).getD c
          (s.combine c m).leave c m

/-- A command that is the oldest retires at once (R123, R129, R370). -/
def State.retireIfOldest (s : State) (tag : W16) : State :=
  if (s.stream.inflight.head?.map Inflight.tag) = some tag then s.commandRetirement else s

/-- A command whose own event is its retirement: its hold on the escrow ends, and it leaves now or, behind older commands, when its
completion may follow theirs (R123, R129, R337; log 94). -/
def State.retireNow (s : State) (tag : W16) : State :=
  ((s.modInflight tag fun c => { c with ready := true }).endHolds tag).retireIfOldest tag

/-- CURVE_INSTALL. -/
def State.curveInstall (s : State) : State :=
  match s.awaiting .mint with
  | none => s
  | some c =>
    let m := c.cmd
    let k := m.chain % 16
    if !s.running || !s.curveFree c.tag k then s
    else
      let img := c.data
      let s := s.modSt fun st =>
        { st with curves := vecModify st.curves k fun v =>
            { st := .valid, src := BitVec.ofNat 32 (m.get .img).addr, bytes := BitVec.ofNat 16 img.length
              nseg := BitVec.ofNat 16 (imgNseg img), tableId := imgWord img 28, crc := imgWord img 60
              installs := satAdd v.installs 1, gcLast := s.gc, image := img }
                  curveSynd := st.curveSynd.filter fun e => e.1 / 8192 != k }
      (s.noteEpoch c.slot.epoch fun x => { x with minted := true }).retireNow c.tag

/-- CURVE_SLOT_INVALIDATE. -/
def State.curveSlotInvalidate (s : State) : State :=
  match s.awaiting .fnsync with
  | none => s
  | some c =>
    let ks := maskBits (bitsOf c.cmd.chain 15 0)
    if !s.running || ks.any (fun k => !s.curveFree c.tag k) then s
    else
      let s := s.modSt fun st => { st with curves := ks.foldl (fun v k => vecModify v k (invalidateCurve s.gc)) st.curves }
      s.retireNow c.tag

/-- WAITGC_RELEASE: younger commands may issue from now on, and a `WAITGC` that is the oldest command retires (R370). -/
def State.waitgcRelease (s : State) : State :=
  match s.awaiting .waitgc with
  | none => s
  | some c =>
    let t := c.cmd.waitTarget
    let v := s.gc.toNat
    if !s.running || s.tb.state == .notAligned || decide (v < t) || s.behind t 6 then s
    else
      let s := s.modInflight c.tag fun c =>
        { c with ready := true, d0 := s.gc.setWidth 32, d1 := (s.gc >>> 32).setWidth 32 }
      let s := if s.pw.eff.lateWin.toNat < v - t then
          (s.log cLATEL c.tag (some c.slot.tenant) (leBytes 8 t ++ leBytes 8 v)).noteEpoch c.slot.epoch fun x => { x with latel := true }
        else s
      s.retireIfOldest c.tag

end Sys2Proof.Machine
end

