-- ==== Sys2Proof/Machine/Ports.lean ====
section
/-! DEFINITION. The escrow port and the common side of the scratchpad: declarations, grants and reports of other engines, wide
and narrow accesses, scrub visits and correction write-backs (R264, R265, R274 to R280, R288, R289, R293 to R295, R300 to R304,
R402, R424, R426). -/
namespace Sys2Proof.Machine
open Sys2Proof

/-! ### Answers and refusals -/

/-- An answer on the escrow port: `roll` for a roll report. -/
def State.answer (s : State) (tag : W16) (roll : Bool) (a : Answer) (seqs : List W32) : State :=
  s.modOut fun o => { o with esc := o.esc ++ [(tag, roll, a, seqs)] }

/-- `ESCPV`: the engine, the row of Table 11.2 counted from 1, an address. -/
def State.escpv (s : State) (tag : W16) (engine case addr : Nat) : State :=
  s.log cESCPV tag (some s.tn.active) ([BitVec.ofNat 8 engine, BitVec.ofNat 8 case, 0, 0] ++ leBytes 4 addr)

def State.refuseEscpv (s : State) (tag : W16) (roll : Bool) (engine case addr : Nat) : State :=
  (s.escpv tag engine case addr).answer tag roll .refuse []

/-- Whether a tag is in use on any engine, or waits. -/
def State.tagTaken (s : State) (tag : W16) : Bool :=
  s.tagBusy tag || s.stream.waiting.any fun w => match w with | .unit x _ _ => x.tag == tag | .decl t _ _ _ _ _ => t == tag

/-! ### Declarations (R293, R295, R424) -/

/-- The first claim on a roll that is disabled or faulted. -/
def State.badClaim (s : State) (claims : List ClaimOp) : Option ClaimOp :=
  claims.find? fun k => let r := s.roll k.roll.toNat; !r.enable || r.faulted

/-- Claims taken at issue; the first sequence numbers, claim by claim. -/
def State.claimEach (s : State) (tag : W16) : List ClaimOp → State × List W32
  | [] => (s, [])
  | k :: ks =>
    let r := s.roll k.roll.toNat
    let t := (s.claim tag k.roll.toNat k.produce k.n.toNat).claimEach tag ks
    (t.1, (if k.produce then r.rhead else r.rtail) :: t.2)

/-- The first box that overlaps the region of an enabled roll (R295, R298). -/
def State.rollBox (s : State) (boxes : List BoxOp) : Option BoxOp :=
  boxes.find? fun b => s.meetsRoll none (64 * b.lo.toNat) (64 * b.hi.toNat + 63)

/-- A declaration that nothing holds: REFUSE for a box in a roll or a roll that cannot be claimed, else GRANT with entries and
claims. -/
def State.grantDecl (s : State) (tag : W16) (engine : BitVec 3) (boxes : List BoxOp) (claims : List ClaimOp) (arrived : Nat) :
    State :=
  let s := s.modEscrow fun e => { e with waited := satAdd e.waited (s.tb.cycle - arrived) }
  match s.rollBox boxes with
  | some b => s.refuseEscpv tag false engine.toNat 3 (64 * b.lo.toNat)
  | none =>
  if (s.badClaim claims).isSome then s.refuseEscpv tag false engine.toNat 5 0
  else
    let s := (s.enter tag engine (boxesOf boxes)).modEscrow fun e =>
      { e with engines := e.engines ++ [{ tag := tag, engine := engine }] }
    let t := s.claimEach tag claims
    t.1.answer tag false .grant t.2

/-- ESC_DREADY and ESC_SREADY: the unit has started and FCLK runs. -/
def State.escReady (s : State) : Bool := s.running

/-- ESCROW_DECLARATION. -/
def State.escrowDeclaration (s : State) (tag : W16) (engine : BitVec 3) (boxes : List BoxOp) (claims : List ClaimOp) : State :=
  let first := match boxes with | b :: _ => 64 * b.lo.toNat | [] => 0
  if !s.escReady then s
  else if s.ft.unit = .offline then s.answer tag false .refuse []
  else if 10 < boxes.length ∨ (boxes.any fun b => decide (b.hi.toNat < b.lo.toNat)) ∨ engine = 0 ∨ 4 < engine.toNat
      ∨ s.tagTaken tag then
    s.refuseEscpv tag false engine.toNat 1 first
  else
    match findIdx' (fun b : BoxOp => decide (s.spadBytes ≤ 64 * b.hi.toNat)) boxes with
    | some i =>
      (s.log cRANGE tag (some s.tn.active) ([0, BitVec.ofNat 8 i, 0, 0]
        ++ leBytes 4 (max (64 * (boxes.getD i { write := false, hi := 0, lo := 0 }).lo.toNat) s.spadBytes))).answer tag false .refuse []
    | none =>
      match s.rollBox boxes with
      | some b => s.refuseEscpv tag false engine.toNat 3 (64 * b.lo.toNat)
      | none =>
        match (if s.stream.waiting.isEmpty then s.declHeld boxes claims else some .uncounted) with
        | none => s.grantDecl tag engine boxes claims s.tb.cycle
        | some h =>
          let t := if s.stream.waiting.isEmpty then s.waitStart h none else none
          (s.modStream fun st => { st with waiting := st.waiting ++ [.decl tag engine boxes claims s.tb.cycle t] }).answer tag false
            .wait []

/-- A slot that an engine waits to acquire is granted. -/
def State.grantAcquire (s : State) (tag : W16) : State :=
  match s.stream.claims.find? fun x => x.tag == tag && x.since.isSome && (s.escrow.engines.any fun e => e.tag == tag) with
  | none => s
  | some x =>
    match s.acquire x with
    | none => s
    | some t => t.answer tag true .grant []

/-- GRANT: the declaration at the head of the stream, or a waiting acquire, once nothing holds it. -/
def State.grant (s : State) (tag : W16) : State :=
  if !s.running then s
  else match s.stream.waiting with
    | .decl t e bs ks a y :: rest =>
      if t = tag then
        if s.ft.unit = .offline then
          ((s.modStream fun st => { st with waiting := rest }).modEscrow fun e =>
            { e with waited := satAdd e.waited (s.tb.cycle - a) }).answer tag false .refuse []
        else match s.declHeld bs ks with
          | none => (s.modStream fun st => { st with waiting := rest }).grantDecl t e bs ks a
          | some h => s.modStream fun st => { st with waiting := .decl t e bs ks a (s.waitStart h y) :: rest }
      else s.grantAcquire tag
    | _ => s.grantAcquire tag

/-- RETIREMENT_REPORT: entries and claims of the command go; a tag that holds none is logged. -/
def State.retirementReport (s : State) (tag : W16) : State :=
  if !s.running then s
  else if s.escrow.engines.any fun e => e.tag == tag then
    (s.dropClaims tag).modEscrow fun e =>
      { e with
        engines := e.engines.filter fun x => x.tag != tag, entries := e.entries.filter fun x => x.tag != tag
        order := e.order.filter fun t => t != tag }
  else s.escpv tag 0 4 0

/-! ### Roll reports of other engines (R304) -/

/-- The engine of a granted command; 0 when there is none. -/
def State.engineOf (s : State) (tag : W16) : Nat :=
  match s.escrow.engines.find? fun e => e.tag == tag with
  | some e => e.engine.toNat
  | none => 0

/-- The claim of an engine's command on a roll that a report fits. -/
def State.engineClaim (s : State) (tag : W16) (roll : BitVec 4) (fits : Claim → Bool) : Option Claim :=
  if s.engineOf tag = 0 then none
  else s.stream.claims.find? fun x => x.tag == tag && x.roll == roll.toNat && fits x

/-- ROLL_ACQUIRE: the next slot of the claim, granted when a producer may fill it or a consumer may read it. -/
def State.rollAcquire (s : State) (tag : W16) (roll : BitVec 4) (seq : W32) : State :=
  let r := s.roll roll.toNat
  let refuse := s.refuseEscpv tag true (s.engineOf tag) 5 0
  if !s.escReady then s
  else match s.engineClaim tag roll fun x => decide (x.acquired < x.n) && x.since.isNone && seq == x.seq x.acquired with
    | none => refuse
    | some x =>
      if !r.enable || r.faulted then refuse
      else match s.acquire x with
        | some t => t.answer tag true .grant []
        | none => s.modClaim x fun x => { x with since := some s.tb.cycle }

/-- ROLL_PUBLISH: the oldest slot that the producer holds. -/
def State.rollPublish (s : State) (tag : W16) (roll : BitVec 4) (seq : W32) : State :=
  let refuse := s.refuseEscpv tag true (s.engineOf tag) 5 0
  if !s.escReady then s
  else match s.engineClaim tag roll fun x => x.produce && decide (x.done < x.acquired) && seq == x.seq x.done with
    | none => refuse
    | some x => (s.complete x (x.done + 1)).answer tag true .grant []

/-- ROLL_RELEASE: the oldest slot that the consumer holds. -/
def State.rollRelease (s : State) (tag : W16) (roll : BitVec 4) (seq : W32) : State :=
  let refuse := s.refuseEscpv tag true (s.engineOf tag) 5 0
  if !s.escReady then s
  else match s.engineClaim tag roll fun x => !x.produce && decide (x.done < x.n) && seq == x.seq x.done
      && (decide (x.done < x.acquired) || (s.roll roll.toNat).published seq) with
    | none => refuse
    | some x =>
      let s := s.modClaim x fun x => { x with acquired := max x.acquired (x.done + 1), done := x.done + 1 }
      (s.settleTail x.roll).answer tag true .grant []

/-- A roll report by its ESC_SOP; 3 is answered REFUSE (R424). -/
def State.rollReport (s : State) (sop : BitVec 2) (tag : W16) (roll : BitVec 4) (seq : W32) : State :=
  match sop.toNat with
  | 0 => s.rollAcquire tag roll seq
  | 1 => s.rollPublish tag roll seq
  | 2 => s.rollRelease tag roll seq
  | _ => if s.escReady then s.answer tag true .refuse [] else s

/-! ### The wide and the narrow port -/

/-- SPW_READY and SPN_READY, but for what other requesters hold. -/
def State.portReady (s : State) : Bool := s.running && s.spad.clearing.isNone

def zeros (n : Nat) : List Byte := List.replicate n 0

def State.spwAnswer (s : State) (stat : BitVec 2) (data : List Byte) : State :=
  s.modOut fun o => { o with spw := o.spw ++ [(stat, data)] }

def State.spnAnswer (s : State) (stat : BitVec 2) (data : W64) : State :=
  s.modOut fun o => { o with spn := o.spn ++ [(stat, data)] }

/-- Whether a line lies in the region of an enabled roll on which a command has a claim of a direction: such accesses go through
the roll and are not checked (R298). -/
def State.throughRoll (s : State) (write : Bool) (line : Nat) (tag : W16) : Bool :=
  s.stream.claims.any fun c =>
    let r := s.roll c.roll
    c.tag == tag && c.produce == write && r.enable && decide (r.region.1 ≤ 64 * line) && decide (64 * line < r.region.2)

/-- Whether a wide access stays within boxes of its kind that its command declared, or goes through a roll it claims (R294,
R298). -/
def State.declared (s : State) (write : Bool) (line : Nat) (tag : W16) : Bool :=
  (upTo 8).all fun i => s.throughRoll write (line + i) tag || s.escrow.entries.any fun e =>
    e.tag == tag && e.write == write && decide (e.lo ≤ line + i) && decide (line + i ≤ e.hi)

/-- `RANGE` of a port (R264). -/
def State.portRange (s : State) (port : Nat) (tag : W16) (addr : Nat) : State :=
  s.log cRANGE tag (some s.tn.active) ([BitVec.ofNat 8 port, 0xFF, 0, 0] ++ leBytes 4 addr)

/-- A read by a port: its words are checked; the first that fails is logged with the port (R275, R276). -/
def State.portRead (s : State) (port : Nat) (tag : W16) (addr n : Nat) : State × Option (List Byte) :=
  let before := s.spad.health.poisoned.toNat
  let w := s.checkWords tag (some s.tn.active) (wordsOf addr n)
  match w.2 with
  | some e =>
    (w.1.logEccue tag (some s.tn.active) (eccDetail (8 * e.1) 0 e.2 port (w.1.spad.health.poisoned.toNat - before)), none)
  | none => (w.1, some (w.1.spad.readBytes addr n))

/-- Whether a guarded narrow request waits for a bank of a wide access (Table 10.2). -/
def State.guardedIn (s : State) (line : Nat) : Bool :=
  match s.spad.nWait with
  | some w => w.guarded && (upTo 8).any fun i => (line + i) % 64 == bankOfWord w.word.toNat
  | none => false

/-- Whether a forced steal, or a correction write-back in the bank of a word from w to w + n − 1, goes ahead of a port (Table 10.2). -/
def State.bankTaken (s : State) (w n : Nat) : Bool :=
  s.stealDue || s.spad.wb.any fun e => (upTo n).any fun i => bankOfWord e.1 == bankOfWord (w + i)

/-- Whether a W access has been served in a bank in this cycle, ahead of the requesters below it in Table 10.2. -/
def State.wServed (s : State) (bank : Nat) : Bool :=
  match s.spad.wAt with
  | some w => w.1 == s.tb.cycle && (upTo 8).any fun i => (w.2 + i) % 64 == bank
  | none => false

/-- W_ACCESS. -/
def State.wAccess (s : State) (write : Bool) (line : Nat) (tag : W16) (data : List Byte) : State :=
  let a := 64 * line
  if !s.portReady || s.guardedIn line || s.bankTaken (8 * line) 64 then s
  else
  let s := s.modSpad fun p => { p with wAt := some (s.tb.cycle, line) }
  if s.spadBytes < a + 512 then (s.portRange 1 tag a).spwAnswer 1 (zeros 512)
  else if !s.declared write line tag then (s.escpv tag (s.engineOf tag) 0 a).spwAnswer 1 (zeros 512)
  else if write then (s.writeBytes 1 tag (some s.tn.active) (wholeBytes a (padTo 512 data))).spwAnswer 0 (zeros 512)
  else
    let r := s.portRead 1 tag a 512
    match r.2 with
    | some bs => r.1.spwAnswer 0 bs
    | none => r.1.spwAnswer 2 (zeros 512)

/-- The bytes that a narrow write enables. -/
def enabledBytes (a : Nat) (be : Byte) (data : W64) : List (Nat × Byte × Byte) :=
  ((upTo 8).filter fun i => be.getLsbD i).map fun i => (a + i, 0xFF, (data >>> (8 * i)).setWidth 8)

/-- N_ACCESS; a request that meets a clear, a due steal, a write-back of its bank or a W access of its bank in the same cycle waits
(R265, R281). -/
def State.nAccess (s : State) (write : Bool) (word : BitVec 24) (be : Byte) (data : W64) : State :=
  let a := 8 * word.toNat
  if !s.portReady || s.bankTaken word.toNat 1 || s.wServed (bankOfWord word.toNat) then
    (if s.running && s.spad.nWait.isNone then
        s.modSpad fun p => { p with nWait := some { word := word, since := s.tb.cycle, guarded := false } }
      else s)
  else
    let s := s.modSpad fun p => { p with nWait := none }
    if s.spadBytes < a + 8 then (s.portRange 2 noTag a).spnAnswer 1 0
    else if write then (s.writeBytes 2 noTag (some s.tn.active) (enabledBytes a be data)).spnAnswer 0 0
    else
      let r := s.portRead 2 noTag a 8
      match r.2 with
      | some bs => r.1.spnAnswer 0 (BitVec.ofNat 64 (leNat bs))
      | none => r.1.spnAnswer 2 0

/-- GUARDED_N_REQUEST: a narrow request has waited 32 cycles. -/
def State.guardedNRequest (s : State) : State :=
  match s.spad.nWait with
  | some w =>
    if s.running ∧ 32 ≤ s.tb.cycle - w.since then s.modSpad fun p => { p with nWait := some { w with guarded := true } } else s
  | none => s

/-! ### Scrubbing and correction -/

/-- FORCED_SCRUB_STEAL: the steal that is due. None is taken while FCLK is halted or a clear runs (R278, R281). -/
def State.forcedScrubSteal (s : State) : State :=
  if s.boot ≠ .ready ∨ s.tb.state = .notAligned ∨ s.gc.toNat < s.spad.nextSteal.toNat ∨ s.behind s.spad.nextSteal.toNat 3 then s
  else
    let s := s.modSpad fun p => { p with nextSteal := p.nextSteal + BitVec.ofNat 64 s.stealPeriod }
    if !s.fclkRuns || s.spad.clearing.isSome then s
    else (s.modHealth fun h => { h with steals := satAdd h.steals 1 }).scrubBanks (upTo 64)

/-- IDLE_SCRUB: a visit of a bank that no other requester wants. -/
def State.idleScrub (s : State) (bank : Nat) : State :=
  let wanted := s.wServed bank || (s.spad.wb.any fun w => bankOfWord w.1 == bank)
    || (match s.spad.nWait with | some w => bankOfWord w.word.toNat == bank | none => false)
  if !s.portReady || wanted || s.stealDue then s else s.scrubBanks [bank]

/-- CORRECTION_WRITEBACK: the oldest queued write-back rereads its word (R280). -/
def State.correctionWriteback (s : State) : State :=
  match s.spad.wb with
  | [] => s
  | (w, seen) :: rest =>
    if !s.portReady || s.stealDue then s
    else
      let s := s.modSpad fun p => { p with wb := rest }
      let syn := s.spad.syndrome w
      if syn = 0 then s
      else if syn = seen ∧ (classify syn).correctable then s.modSpad fun p => p.fixWord w
      else (s.uncorrectable w syn true).logEccue noTag (some s.tn.active) (eccDetail (8 * w) 0 syn 3 1)

end Sys2Proof.Machine
end

