-- ==== Sys2Proof/Machine/Time.lean ====
section
/-! DEFINITION. Time: the counts of a TCLK cycle, sync pulses, the frozen view, changes of fclk, epoch switches (R365 to R376,
R419, R420, R428, R432, R433). -/
namespace Sys2Proof.Machine
open Sys2Proof

/-! ### A TCLK cycle -/

/-- The counts of one TCLK cycle: Q takes the increment, V := max(V, Q), and a frozen view that Q exceeds tracks it again (R366,
R367, R428). The level of TB_INC in the next cycle is free (log 3). -/
def TimeBase.advance (t : TimeBase) (running : Bool) : TimeBase :=
  let q := t.q + t.inc.setWidth 64
  let ph := t.phase + t.fmhz.toNat
  { t with
    q := q, v := if t.v.toNat < q.toNat then q else t.v, tclk := t.tclk + 1, inc := Config.tbInc (t.tclk + 1)
    state := if t.state = .frozen ∧ t.v.toNat < q.toNat then (if t.gap = 0 then .aligned else .holdover) else t.state
    phase := if running then ph % 1000 else t.phase, cycle := if running then t.cycle + ph / 1000 else t.cycle
    runNs := if running then t.runNs + 1 else t.runNs }

/-! ### Sync pulses (R365 to R368, R428) -/


/-- TSYNC: Q and V take the count, and events are set against GC from here (R368, R369). No check of a sweep before it counts for one after
it (R395). -/
def State.tsync (s : State) (count : Gc) : State :=
  let c := count.toNat
  let s := s.modTb fun t => { t with v := count, state := .aligned }
  let s := s.modSpad fun p => { p with nextSteal := BitVec.ofNat 64 (nextMultiple s.stealPeriod c) }
  let s := s.modPw fun p => { p with nextSample := BitVec.ofNat 64 (nextMultiple p.eff.period.toNat c) }
  let s := s.modFt fun f =>
    { f with step := c / 128000, ran := c % 128000 == 0 && f.ran, groups := f.groups.map fun g => { g with cover := 0 } }
  if s.prov.keys.need && s.prov.keys.gen then s else { s with boot := .ready }

/-- A pulse of an aligned unit: a forward step beyond the increment of the cycle, a backward step, or neither (Table 14.1). -/
def State.pulse (s : State) (count : Gc) : State :=
  let v := s.gc.toNat
  let c := count.toNat
  if c < v then
    let s := if s.tb.state = .frozen then s
      else
        let s := s.modTb fun t => { t with backEpisodes := satAdd t.backEpisodes 1, state := .frozen }
        (s.log cTBJMP noTag none (leBytes 8 v ++ leBytes 8 c)).note fun x => { x with tbjmp := true }
    s.modTb fun t => { t with largestBack := if t.largestBack.toNat < v - c then BitVec.ofNat 64 (v - c) else t.largestBack }
  else
    let jump := c - v
    let s := if jump ≤ s.tb.inc.toNat then s
      else if jump ≤ 1000000 then s.modTb fun t => { t with fwdSteps := satAdd t.fwdSteps 1 }
      else
        let s := s.modTb fun t => { t with fwdJumps := satAdd t.fwdJumps 1 }
        (s.log cTBJMP noTag none (leBytes 8 v ++ leBytes 8 c)).note fun x => { x with tbjmp := true }
    s.modTb fun t => { t with v := count, state := if t.state = .frozen ∧ c = v then .frozen else .aligned }

/-- SYNC_PULSE. -/
def State.syncPulse (s : State) (count : Gc) : State :=
  let s := s.modTb fun t => { t with q := count, lastSync := count, gap := 0, realign := false, syncAt := t.cycle }
  let s :=
    if s.tb.state ≠ .notAligned then s.pulse count
    else if s.boot = .tsync ∨ s.boot = .warmTsync then s.tsync count
    else s.modTb fun t => { t with v := if t.v.toNat < count.toNat then count else t.v }
  if s.ringWorks then (s.linkUp .cluster).linkUp .die else s

/-- SYNC_PULSE_MISSING: 1.5 ms without a pulse, and each further 1 ms (Table 14.1). -/
def State.syncPulseMissing (s : State) : State :=
  if s.tb.state = .notAligned ∨ s.tb.q.toNat < s.tb.lastSync.toNat + 1500000 + 1000000 * s.tb.gap then s
  else s.modTb fun t =>
    { t with gap := t.gap + 1, missed := satAdd t.missed 1, state := if t.state = .frozen then .frozen else .holdover }

/-- FROZEN_STATE_EXIT: Q has passed the frozen view, which follows it again (R367). -/
def State.frozenStateExit (s : State) : State :=
  if s.tb.state = .frozen ∧ s.tb.v.toNat < s.tb.q.toNat then
    s.modTb fun t => { t with v := t.q, state := if t.gap = 0 then .aligned else .holdover }
  else s

/-- Frequencies that the surroundings may give FCLK (Table 17.3). -/
def fclkAllowed (mhz : BitVec 12) : Bool := decide (600 ≤ mhz.toNat) && decide (mhz.toNat ≤ 2000)

/-- FCLK_CHANGE to an allowed frequency. -/
def State.fclkChange (s : State) (mhz : BitVec 12) : State := s.modTb fun t => { t with fmhz := mhz, realign := true }

/-! ### Epochs (R374) -/

/-- A waiting command that carries the epoch just entered is digested into its context (R248). -/
def State.receiveWaiting (s : State) : State :=
  match s.waitingSlot with
  | some w => if w.1.epoch = s.ep.curEpoch then s.receive w.1 else s
  | none => s

/-- EPOCH_SWITCH. -/
def State.epochSwitch (s : State) : State :=
  if !s.switches || s.behind s.ep.switchGc.toNat 1 then s
  else
    let s := { s with ep := { s.ep with
      prev := s.ep.cur, cur := s.ep.pend, prevEpoch := s.ep.curEpoch, curEpoch := s.ep.pendEpoch, armed := false, lastSwitch := s.gc } }
    (s.modProv fun p => { p with prev := p.cur, cur := .closed }).receiveWaiting

end Sys2Proof.Machine
end

