-- ==== Sys2Proof/Machine/Energy.lean ====
section
/-! DEFINITION. Power states, the thermal governor, issue levels and floors (R378 to R385). -/
namespace Sys2Proof.Machine
open Sys2Proof

/-! ### The governor's levels (Tables 14.7 and 17.2) -/

/-- Percent of a thermal step: 0 none, 4 HALT. -/
def stepLevel (k : Nat) : Nat := 100 - 25 * k

def levelStep (l : Nat) : Nat := (100 - l) / 25

/-- Thresholds and release points in 1/16 °C. -/
def thermalUp : List Int := [1600, 1680, 1760, 1840]
def thermalRelease : List Int := [1552, 1632, 1712, 1792]

/-- The thermal step at a reading of the higher valid sensor. -/
def thermalStep (now : Nat) (t : Int) : Nat :=
  let reach := (thermalUp.filter fun u => decide (u ≤ t)).length
  if now < reach then reach
  else if 0 < now ∧ t < thermalRelease.getD (now - 1) 0 then now - 1
  else now

/-- Lc of PW_LEVEL. -/
def chipLevel (level : BitVec 3) : Nat := if level.toNat ≤ 3 then stepLevel level.toNat else 0

/-- Lp: the highest level whose estimate keeps to the cap, else 25 (R384, log 7). -/
def powerLevel (energy : List W32) (draw cap : Nat) : Nat :=
  match [100, 75, 50].find? fun l => decide ((Config.powerAt energy draw l).toNat ≤ cap) with
  | some l => l
  | none => 25

/-- A reading lies in range and has changed within 64 samples (R383). -/
def sensorValid (t : Int) (same : Nat) : Bool := decide (-640 ≤ t) && decide (t ≤ 2400) && decide (same < 64)

/-- A sensor's reading in 1/16 °C from a raw one (R442): itself under offset 0 and gain 1.0; how others act on it is not stated (log 92). -/
def trimmed (t : W16 × W16) (raw : W16) : W16 := if t = Trims.neutral then raw else Config.trimmed t.1 t.2 raw

/-- A reading in m°C, rounded down. -/
def milliCelsius (t : Int) : W32 := BitVec.ofInt 32 (t * 125 / 2)

/-- The cause of a level, the lowest of the three: 0 thermal, 1 chip, 2 power. -/
def levelCause (tl lc lp : Nat) : Nat := if tl ≤ lc ∧ tl ≤ lp then 0 else if lc ≤ lp then 1 else 2

/-! ### TELEMETRY_SAMPLE -/

/-- The sensors are read (R383). -/
def State.readSensors (s : State) (t0 t1 : W16) : State :=
  let p := s.pw
  let n0 := if t0 = p.last.1 then p.same.1 + 1 else 0
  let n1 := if t1 = p.last.2 then p.same.2 + 1 else 0
  let v0 := sensorValid t0.toInt n0
  let v1 := sensorValid t1.toInt n1
  let lost (i : Nat) (ok : Bool) (s : State) : State :=
    if p.status.getLsbD i && !ok then s.log cTHRTL noTag none [BitVec.ofNat 8 p.base, 3, BitVec.ofNat 8 i, 0] else s
  let s := lost 1 v1 (lost 0 v0 s)
  s.modPw fun p =>
    { p with
      sensor0 := milliCelsius t0.toInt, sensor1 := milliCelsius t1.toInt, status := BitVec.ofNat 8 (v0.toNat + 2 * v1.toNat)
      last := (t0, t1), same := (n0, n1) }

/-- The higher valid reading, if any. -/
def State.hottest (s : State) : Option Int :=
  let p := s.pw
  let a := p.last.1.toInt
  let b := p.last.2.toInt
  match p.status.getLsbD 0, p.status.getLsbD 1 with
  | true, true => some (max a b)
  | true, false => some a
  | false, true => some b
  | false, false => none

/-- Thermal halt begins (Table 14.7). -/
def State.enterHalt (s : State) : State :=
  (s.modPw fun p => { p with state := .halt, before := p.state, halts := satAdd p.halts 1, haltGc := s.gc }).log cTHALT noTag none [0]

/-- Thermal halt ends: the time halted is logged, and power-up steps that were held go on from now (Table 14.3). -/
def State.leaveHalt (s : State) : State :=
  let s := s.dropSteals
  let d := s.gc.toNat - s.pw.haltGc.toNat
  let s := s.modPw fun p =>
    { p with state := p.before, timeHalted := satAdd p.timeHalted d
             grant := p.grant.map fun _ => BitVec.ofNat 64 s.stepClock }
  s.log cTHALT noTag none ([1, 0, 0, 0, 0, 0, 0, 0] ++ leBytes 8 d)

/-- The thermal level of a sample; with both sensors invalid it is held at 25 %, and a halt goes on. -/
def State.setThermal (s : State) : State :=
  let now := levelStep s.pw.thermal
  let new := match s.hottest with
    | some t => thermalStep now t
    | none => if now = 4 then 4 else 3
  s.modPw fun p => { p with thermal := stepLevel new }

/-- A halt begins or ends when the thermal level has reached or left its last step; `was` is the level before (Table 14.7). -/
def State.setHalt (s : State) (was : Nat) : State :=
  let now := levelStep was
  let new := levelStep s.pw.thermal
  if new = 4 ∧ now ≠ 4 then s.enterHalt else if new ≠ 4 ∧ now = 4 then s.leaveHalt else s

/-- PW_STATE: the power state in the code of 0x7000:06, 0 while the unit is held in reset (Table 17.2, R434). -/
def State.pwState (s : State) : BitVec 3 := if s.held then 0 else BitVec.ofNat 3 s.pw.state.code

/-- PW_THLVL: the thermal level in the code of PW_LEVEL, 4 in HALT (Table 17.2). -/
def State.pwThlvl (s : State) : BitVec 3 := BitVec.ofNat 3 (levelStep s.pw.thermal)

/-- L and its change (R385). -/
def State.setBase (s : State) : State :=
  let p := s.pw
  let l := min p.thermal (min p.lc p.lp)
  if l = p.base then s
  else
    let s := s.modPw fun p => { p with base := l, changes := satAdd p.changes 1 }
    s.logLimited .throttle cTHRTL noTag none fun n =>
      [BitVec.ofNat 8 l, BitVec.ofNat 8 (levelCause p.thermal p.lc p.lp), 0, 0] ++ leBytes 4 n.toNat

/-- A floor breach begins (R385). -/
def State.startBreach (s : State) (floor level : Nat) : State :=
  let c := s.tn.active
  let cause := levelCause s.pw.thermal s.pw.lc s.pw.lp
  (s.modPw fun p => { p with breach := some { start := s.gc, floor := floor, lowest := level, cause := cause } }).log cFLOOR noTag
    (some c) [BitVec.ofNat 8 c.toNat, BitVec.ofNat 8 floor, BitVec.ofNat 8 level, BitVec.ofNat 8 cause, 0]

/-- The issue level, ρ and the breach of the active context (R385). -/
def State.setIssue (s : State) : State :=
  let c := s.tn.active.toNat
  let floor := vecGet s.tn.floor c 0
  let l := s.pw.base
  let ok := decide (floor ≤ l)
  let level := if ok then min (vecGet s.tn.ceil c 100) l else l
  let s := (s.modPw fun p => { p with issue := level }).modTn fun t => { t with rho := if ok then 100 else 100 * l / floor }
  if ok then s.endBreach
  else match s.pw.breach with
    | none => s.startBreach floor level
    | some b => s.modPw fun p => { p with breach := some { b with lowest := min b.lowest level } }

/-- TELEMETRY_SAMPLE. -/
def State.telemetrySample (s : State) (t0 t1 : W16) (level : BitVec 3) : State :=
  if s.boot = .otpLoad ∨ !s.sampleDue ∨ (s.tb.state ≠ .notAligned ∧ s.behind s.pw.nextSample.toNat 5) then s
  else
    let at_ := s.pw.nextSample.toNat
    let was := s.pw.thermal
    let s := s.modPw fun p => { p with eff := p.set }
    let s := if s.tb.state = .notAligned then s
      else s.modPw fun p => { p with nextSample := BitVec.ofNat 64 (nextMultiple p.eff.period.toNat (at_ + 1)) }
    let x := s.fixed.trims
    let s := (s.readSensors (trimmed x.sensor0 t0) (trimmed x.sensor1 t1)).setThermal
    let d := s.free
    let s := s.modPw fun p =>
      { p with lc := chipLevel level, lp := powerLevel x.energy d p.eff.cap.toNat
               estimate := (Config.powerAt x.energy d p.issue).setWidth 16 }
    (({ s with free := s.free + 1 } : State).setBase.setHalt was).setIssue

/-! ### Gating, sleep and power-up (R378, R380 to R382) -/

/-- The unit is idle: nothing in flight, nothing waiting at issue (R345). -/
def State.idle (s : State) : Bool := s.stream.inflight.isEmpty && s.waitingSlot.isNone

/-- CMD_IDLE: the unit is idle, 0 while it is held in reset (R345, R434). -/
def State.cmdIdle (s : State) : Bool := !s.held && s.idle

/-- IDLE_TIMEOUT. -/
def State.idleTimeout (s : State) : State :=
  if s.running && s.pw.state == .run && s.idle && decide (s.pw.eff.delay.toNat ≤ s.tb.cycle - s.pw.idleSince) then
    if s.pw.eff.sleep then
      s.modPw fun p => { p with state := .sleep, down := some (7, BitVec.ofNat 64 s.stepClock), ustep := p.stagger.toNat }
    else s.modPw fun p => { p with state := .gated }
  else s

/-- POWER_DOWN_STEP: the groups go down in reverse order, one step apart. -/
def State.powerDownStep (s : State) : State :=
  match s.pw.down with
  | none => s
  | some (g, t) =>
    if s.pw.state ≠ .sleep ∨ s.stepClock < t.toNat then s
    else s.modPw fun p =>
      { p with on := p.on &&& ~~~((1 : Byte) <<< g)
               down := if g = 0 then none else some (g - 1, t + BitVec.ofNat 64 p.ustep) }

/-- PW_GRANT: the step timer starts with the stagger step in force; a unit in thermal halt goes on waking once it leaves it
(Table 14.3). -/
def State.pwGrant (s : State) : State :=
  if !s.pw.greq then s
  else s.modPw fun p =>
    { p with greq := false, state := if p.state = .halt then .halt else .waking
             before := if p.state = .halt then .waking else p.before, ustep := p.stagger.toNat
             grant := some (BitVec.ofNat 64 s.stepClock), nextGroup := 0, down := none }

/-- LANE_GROUP_POWER_STEP: the next group powers up unless it is disabled; one step after LG7 the lanes are ready. -/
def State.laneGroupPowerStep (s : State) : State :=
  match s.pw.grant with
  | none => s
  | some t =>
    if !s.fclkRuns || decide (s.stepClock < t.toNat) || s.behind t.toNat 2 then s
    else if s.pw.nextGroup < 8 then
      let j := s.pw.nextGroup
      s.modPw fun p =>
        { p with on := if (s.ft.group j).st = .disabled then p.on else p.on ||| ((1 : Byte) <<< j)
                 nextGroup := j + 1, grant := some (t + BitVec.ofNat 64 p.ustep) }
    else
      let s := s.modPw fun p => { p with grant := none, state := .run, idleSince := s.tb.cycle }
      { s with boot := if s.boot = .grant then .mbist else if s.boot = .warmPower then .warmClear else s.boot }

end Sys2Proof.Machine
end

