-- ==== Sys2Proof/Machine/Faults.lean ====
section
/-! DEFINITION. Faults of the lanes, the shared logic and the table ROMs: detection, the lane test, remap, replay, loss of the
unit, and the checkers' rotation (R392 to R406). -/
namespace Sys2Proof.Machine
open Sys2Proof

/-! ### Loss of the unit (R401, R402) -/

/-- The unit goes offline: every command in flight that has not retired retires with `UNITX`, and every unconfirmed receipt is invalidated. -/
def State.unitLoss (s : State) (cause : Byte) : State :=
  if s.ft.unit = .offline then s
  else
    let s := s.log cUNITX noTag none [cause]
    let s := s.modFt fun f => { f with unit := .offline, cause := cause, recovery := none, tallyTags := [] }
    let s := s.modStream fun st =>
      { st with acc := none, inflight := st.inflight.map fun c =>
          if c.refused || c.gone then c else { c.mute with fault := some cUNITX, detail := [cause], ready := false } }
    s.invalidateAll 3

/-! ### Replay (R399, R400, R151) -/

/-- `FAILD` (R400): the command writes no more, and its lines are restored when it retires. -/
def State.failFaild (s : State) (c : Inflight) (detail : List Byte) : State :=
  ((s.failAfter c cFAILD detail).modInflight c.tag Inflight.mute).modFt fun f =>
    { f with faild := satAdd f.faild 1 }

/-- The replay of a command; a third fault retires it with `FAILD`. `logged`: the outcome logs `RPLAY`. -/
def State.replay (s : State) (tag : W16) (group lane : Nat) (logged : Bool) : State :=
  match s.inflight? tag with
  | none => s
  | some c =>
    if c.fault.isSome then s
    else if 2 ≤ c.replays.toNat then s.failFaild c [BitVec.ofNat 8 group, BitVec.ofNat 8 lane]
    else
      let s := s.startAgain c
      if (s.inflight? tag).any fun c => c.fault.isSome then s
      else
      let s := s.modFt fun f => { f with replays := satAdd f.replays 1 }
      if logged then
        (s.log cRPLAY tag (some c.slot.tenant)
          [BitVec.ofNat 8 (c.replays.toNat + 1), BitVec.ofNat 8 group, BitVec.ofNat 8 lane]).noteEpoch c.slot.epoch fun x =>
            { x with replays := satAdd x.replays 1 }
      else s

/-! ### Detection (R393, R394, R396) -/

/-- The command whose beats a lane works on: the oldest with a beat in flight (DESIGN CHOICE, log 85). -/
def State.working (s : State) : Option Inflight := s.stream.inflight.find? fun c => !c.beats.isEmpty

/-- The older of two tags in the stream. -/
def State.olderTag (s : State) (a b : Option W16) : Option W16 :=
  match a, b with
  | none, t => t
  | t, none => t
  | some x, some y => if (s.olderThan x).any (fun c => c.tag == y) then some y else some x

/-- A lane under suspicion: beats stop, and the lane test begins. -/
def State.suspect (s : State) (x : Suspect) : State :=
  let t := s.working.map fun c => c.tag
  let r := match s.ft.recovery with
    | none => { tag := t, suspects := [x], last := (x.group, x.lane), logged := false }
    | some r => { r with tag := s.olderTag r.tag t, suspects := r.suspects ++ [x] }
  s.modFt fun f => { f with recovery := some r }

/-- The command that the tally or the precise pipe works on. -/
def State.tallying (s : State) : Option Inflight :=
  s.stream.inflight.find? fun c => c.fault.isNone && c.cmd.elements && decide (0 < c.started + c.rowsDone)

def State.countResidue (s : State) : State := s.modFt fun f => { f with residue := satAdd f.residue 1 }

/-- A mismatch in the tally or the precise pipe: a replay, or the loss of the unit when it recurs there. -/
def State.sharedResidue (s : State) (cause : Byte) : State :=
  match s.tallying with
  | none => s
  | some c =>
    let s := s.countResidue
    if s.ft.tallyTags.contains c.tag then s.unitLoss cause
    else
      let s := s.replay c.tag 0 0xFF true
      s.modFt fun f => { f with tallyTags := f.tallyTags ++ [c.tag] }

/-- A mismatch in a merge of a `SETTLE` or `MERGE`: the merge is repeated; a third in merges takes the unit offline, and a third
fault of another kind before it is `FAILD` (R400, R401). -/
def State.mergeResidue (s : State) (tag : W16) : State :=
  match s.inflight? tag with
  | none => s
  | some c =>
    if (c.cmd.op ≠ .settle ∧ c.cmd.op ≠ .merge) ∨ c.fault.isSome then s
    else
      let s := s.countResidue
      let n := c.replays.toNat
      if 2 ≤ c.merges.toNat then s.unitLoss 4
      else if 2 ≤ n then s.failFaild c [0, 0xFF]
      else
        let s := s.modInflight tag fun c => { c with replays := BitVec.ofNat 2 (n + 1), merges := c.merges + 1 }
        let s := s.modFt fun f => { f with replays := satAdd f.replays 1 }
        (s.log cRPLAY tag (some c.slot.tenant) [BitVec.ofNat 8 (n + 1), 0, 0xFF]).noteEpoch c.slot.epoch fun x =>
          { x with replays := satAdd x.replays 1 }

/-- Whether lanes work and are checked: in the running unit, and in the clear of a warm reset (R406). -/
def State.lanesChecked (s : State) : Bool :=
  ((s.running && s.pw.state == .run) || (s.boot == .warmClear && s.fclkRuns)) && s.ft.unit != .offline

/-- RESIDUE_MISMATCH. A lane fault during a clear is tested and remapped, and replays nothing (Table 15.4). -/
def State.residueMismatch (s : State) (site : ResidueSite) : State :=
  if !s.lanesChecked then s
  else match site with
    | .lane g l =>
      if g < 8 ∧ l < 32 ∧ (s.ft.group g).st ≠ .disabled ∧ (s.working.isSome || s.spad.clearing.isSome) then
        s.countResidue.suspect { group := g, lane := l, checker := false }
      else s
    | .tally => s.sharedResidue 1
    | .precise => s.sharedResidue 2
    | .merge tag => s.mergeResidue tag

def State.modGroup (s : State) (g : Nat) (f : Group → Group) : State :=
  s.modFt fun x => { x with groups := vecModify x.groups g f }

/-- CHECKER_MISMATCH: the lane that the group's checker shadows is suspect, and the interval since its last clean check is
exposed. -/
def State.checkerMismatch (s : State) (g : BitVec 3) : State :=
  let i := g.toNat
  if !s.lanesChecked || (s.ft.group i).st == .disabled then s
  else
    let l := s.ft.step % 32
    let s := s.modFt fun f => { f with mismatches := satAdd f.mismatches 1 }
    let s := (s.modGroup i fun x => { x with clean := false }).suspect { group := i, lane := l, checker := true }
    s.expose (vecGet (s.ft.group i).lastCheck l 0) 1

/-! ### LANE_TEST_COMPLETE (Table 15.2) -/

/-- Whether a group other than `g` is disabled. -/
def Faults.otherLost (f : Faults) (g : Nat) : Bool := (upTo 8).any fun i => i != g && (f.group i).st == .disabled

/-- `LANEF`: outcome 0 transient, 1 lane failed, 2 checker failed. -/
def State.logLane (s : State) (x : Suspect) (lane outcome : Nat) : State :=
  let e := if x.checker then vecGet (s.ft.group x.group).lastCheck x.lane 0 else 0
  s.log cLANEF noTag none ([BitVec.ofNat 8 x.group, BitVec.ofNat 8 lane, BitVec.ofNat 8 x.checker.toNat, BitVec.ofNat 8 outcome, 0, 0, 0, 0]
    ++ leBytes 8 e.toNat)

/-- The spare takes a logical position; 0x20 is the checker's. It has had no transient fault. -/
def State.takeSpare (s : State) (x : Suspect) (remap : Nat) (cause : Byte) : State :=
  let s := s.modGroup x.group fun g =>
    { g with st := .spare, remap := BitVec.ofNat 8 remap, cause := cause, transients := g.transients.filter fun t => t.1 != remap }
  (s.modFt fun f => { f with remaps := satAdd f.remaps 1 }).note fun y => { y with remaps := y.remaps + 1 }

/-- The group is disabled; a second one takes the unit offline instead. -/
def State.loseGroup (s : State) (g : Nat) (cause : Byte) (logCause : Byte) : State :=
  if s.ft.otherLost g then s.unitLoss 5
  else (s.modGroup g fun x => { x with st := .disabled, cause := cause }).log cLGNAR noTag none [BitVec.ofNat 8 g, logCause]

/-- What the test of a suspect lane leads to, and whether the row logs `RPLAY`. -/
def State.laneOutcome (s : State) (x : Suspect) (laneOk checkerOk : Bool) : State × Bool :=
  let g := s.ft.group x.group
  let recent := (g.transients.filter fun t => t.1 == x.lane && decide (s.gc.toNat < t.2.toNat + 1000000000)).length
  let third := !x.checker && laneOk && decide (2 ≤ recent)
  let cause : Byte := if x.checker then 2 else 1
  if g.st = .disabled then (s, false)
  else if !laneOk || third then
    let s := s.logLane x x.lane 1
    if g.st = .full ∧ !g.spareBad ∧ (!x.checker || checkerOk) then (s.takeSpare x x.lane cause, true)
    else (s.loseGroup x.group cause 0, true)
  else if !x.checker then
    (s.modGroup x.group fun g => { g with transients := g.transients ++ [(x.lane, s.gc)] }, true)
  else if !checkerOk then
    let s := s.logLane x 0x20 2
    if g.st = .full ∧ !g.spareBad then (s.takeSpare x 0x20 cause, false) else (s.loseGroup x.group cause 0, false)
  else (s.logLane x x.lane 0, false)

/-- LANE_TEST_COMPLETE: the first suspect's outcome; after the last one the command is replayed. -/
def State.laneTestComplete (s : State) (laneOk checkerOk : Bool) : State :=
  match s.ft.recovery with
  | none => s
  | some r =>
    match r.suspects with
    | [] => s
    | x :: xs =>
      if !(s.running || (s.boot == .warmClear && s.fclkRuns)) then s
      else
        let t := s.laneOutcome x laneOk checkerOk
        let s := t.1
        if s.ft.unit = .offline then s
        else
          let r := { r with suspects := xs, last := (x.group, x.lane), logged := r.logged || t.2 }
          if xs.isEmpty then
            let s := s.modFt fun f => { f with recovery := none }
            match r.tag with
            | some tag => s.replay tag r.last.1 r.last.2 r.logged
            | none => s
          else s.modFt fun f => { f with recovery := some r }

/-! ### Table ROMs (R403) -/

def State.logRom (s : State) (rom kind : Nat) : State :=
  s.log cTROMP noTag none ([BitVec.ofNat 8 rom, BitVec.ofNat 8 kind, 0, 0, 0, 0, 0, 0] ++ leBytes 8 s.ft.romGc.toNat)

/-- A table ROM fails: its group is disabled, or the unit is lost. -/
def State.romFault (s : State) (rom kind : Nat) : State :=
  let lost := rom = 8 ∨ s.ft.otherLost rom
  let s := if lost then s
    else (s.modGroup rom fun x => { x with st := .disabled, cause := 3 }).log cLGNAR noTag none [BitVec.ofNat 8 rom, 1]
  let s := (s.logRom rom kind).expose s.ft.romGc 2
  if lost then s.unitLoss (if rom = 8 then 3 else 5) else s

/-- A ROM that the unit still uses: a group's, or the precise pipe's. -/
def State.romInUse (s : State) (rom : Nat) : Bool := rom == 8 || (decide (rom < 8) && (s.ft.group rom).st != .disabled)

/-- TABLE_ROM_PARITY: the reading command is replayed. -/
def State.tableRomParity (s : State) (rom : Nat) : State :=
  if !s.running || s.pw.state != .run || s.ft.unit == .offline || !s.romInUse rom then s
  else
    let s := s.modFt fun f => { f with parity := satAdd f.parity 1 }
    let w := s.working
    let s := s.romFault rom 0
    match w with
    | some c => if s.ft.unit = .offline then s else s.replay c.tag rom 0xFF false
    | none => s

/-- ROM_SCAN_PASS: clean, or with a mismatch of one ROM; no pass ends while the lanes are gated, asleep or halted (R253, R379). -/
def State.romScanPass (s : State) (mismatch : Option Nat) : State :=
  if !s.checksRun then s
  else match mismatch with
    | none => s.modFt fun f => { f with romGc := s.gc, romPasses := satAdd f.romPasses 1 }
    | some rom =>
      if s.ft.unit = .offline ∨ !s.romInUse rom then s
      else (s.modFt fun f => { f with scan := satAdd f.scan 1 }).romFault rom 1

/-- LOCKSTEP_MISMATCH. -/
def State.lockstepMismatch (s : State) (signals : W32) : State :=
  if !s.running || s.ft.unit == .offline then s
  else
    let s := s.modFt fun f => { f with lockstep := satAdd f.lockstep 1 }
    (s.log cLOCKF noTag none (leBytes 4 signals.toNat)).unitLoss 0

/-! ### CHECKER_ROTATION_STEP (R394, R395) -/

/-- The window of a group's lane ends: a clean check is recorded. -/
def Group.endWindow (g : Group) (lane : Nat) (gc : Gc) (ran : Bool) : Group :=
  if g.st ≠ .disabled ∧ g.clean ∧ ran then
    { g with lastCheck := vecModify g.lastCheck lane fun _ => gc, cover := g.cover ||| ((1 : W32) <<< lane) }
  else { g with clean := true }

/-- CHECKER_ROTATION_STEP: one step; those that a jump of the view makes due follow one by one (R369). -/
def State.checkerRotationStep (s : State) : State :=
  if s.boot ≠ .ready ∨ s.tb.state = .notAligned ∨ s.gc.toNat / 128000 ≤ s.ft.step ∨ s.behind (128000 * (s.ft.step + 1)) 4 then s
  else
    let n := s.ft.step + 1
    let f := s.ft
    let gs := f.groups.map fun g => g.endWindow (f.step % 32) s.gc f.ran
    let turn := n / 32 != f.step / 32
    let full := gs.all fun g => g.st == .disabled || g.cover == 0xFFFFFFFF
    let sweep := turn && full && gs.any fun g => g.st != .disabled
    s.modFt fun f =>
      { f with
        groups := if turn then gs.map fun g => { g with cover := 0 } else gs, step := n, ran := s.pw.state == .run
        sweepGc := if sweep then s.gc else f.sweepGc, sweeps := if sweep then satAdd f.sweeps 1 else f.sweeps }

end Sys2Proof.Machine
end

