-- ==== Sys2Proof/Machine/Frames.lean ====
section
/-! DEFINITION. Management frames, transactions, partners, the driver window, and the event rings (R346 to R357, R410, R411, R429,
R431). -/
namespace Sys2Proof.Machine
open Sys2Proof

/-! ### Frames (Table 13.6) -/

/-- A request of 72 bytes as its fields. -/
structure Request where
  version : Nat
  op      : Nat
  tid     : W16
  index   : W16
  sub     : Byte
  flags   : Nat
  total   : Nat
  seg     : Nat
  len     : Nat
  status  : Nat
  payload : List Byte
  deriving DecidableEq, Repr

def Request.ofBytes (f : List Byte) : Request :=
  { version := leAt f 0 1, op := leAt f 1 1, tid := BitVec.ofNat 16 (leAt f 2 2), index := BitVec.ofNat 16 (leAt f 4 2)
    sub := BitVec.ofNat 8 (leAt f 6 1), flags := leAt f 7 1, total := leAt f 8 4, seg := leAt f 12 2, len := leAt f 14 1
    status := leAt f 15 1, payload := slice f 16 56 }

/-- R349; `n` is the frame's length. -/
def Request.malformed (q : Request) (n : Nat) : Bool :=
  n != 72 || q.version != 1 || !(q.op == 1 || q.op == 2 || q.op == 3) || decide (128 ≤ q.flags) || q.flags % 64 != 0 || q.status != 0
    || decide (56 < q.len)

def Request.last (q : Request) : Bool := q.flags / 64 % 2 == 1

/-- The response: VERSION, OP, TID, INDEX, SUB and SEG echoed, RESP set. -/
def Request.respond (q : Request) (last : Bool) (total status : Nat) (bytes : List Byte) : List Byte :=
  leBytes 1 q.version ++ leBytes 1 q.op ++ leBytes 2 q.tid.toNat ++ leBytes 2 q.index.toNat ++ [q.sub]
    ++ leBytes 1 (128 + 64 * last.toNat) ++ leBytes 4 total ++ leBytes 2 q.seg ++ leBytes 1 bytes.length ++ leBytes 1 status
    ++ padTo 56 bytes

def Request.abort (q : Request) (code : W16) : List Byte := q.respond false 0 1 (leBytes 2 code.toNat)

def Request.done (q : Request) : List Byte := q.respond false 0 0 []

/-- A segment of a read value (R350). -/
def Request.segment (q : Request) (value : List Byte) : List Byte :=
  q.respond (decide (value.length ≤ 56 * (q.seg + 1))) value.length 0 (slice value (56 * q.seg) 56)

/-! ### Partners (R352, R355, R356) -/

def Partner.new (eid : Option Byte) : Partner := { eid := eid, open_ := [], timedOut := [], violations := 0, limited := false }

def State.partner (s : State) (eid : Option Byte) : Partner :=
  (s.mg.partners.find? fun p => p.eid == eid).getD (Partner.new eid)

def State.modPartner (s : State) (eid : Option Byte) (f : Partner → Partner) : State :=
  let p := f (s.partner eid)
  s.modMg fun m =>
    { m with partners := if m.partners.any (fun x => x.eid == eid) then m.partners.map (fun x => if x.eid == eid then p else x)
        else m.partners ++ [p] }

/-- Path and endpoint of a partner in a Ledger detail (Table 15.6). -/
def partnerDetail (eid : Option Byte) : List Byte :=
  match eid with
  | some e => [0, e]
  | none => [1, 0]

def partnerPath (eid : Option Byte) : Path :=
  match eid with
  | some _ => .operator
  | none => .driver

/-- A violation: counted and logged; the 64th of the window limits the partner. -/
def State.violation (s : State) (eid : Option Byte) (tid code : W16) : State :=
  let s := s.modMg fun m => { m with violations := satAdd m.violations 1 }
  let s := s.log cODABT noTag none (partnerDetail eid ++ leBytes 2 tid.toNat ++ leBytes 2 code.toNat)
  let n := (s.partner eid).violations + 1
  let s := s.modPartner eid fun p => { p with violations := n, limited := p.limited || n == 64 }
  if n = 64 then s.log cODRTL noTag none (partnerDetail eid) else s

/-! ### Transactions (R350 to R352) -/

def Partner.close (p : Partner) (tid : W16) : Partner := { p with open_ := p.open_.filter fun t => t.tid != tid }

def Partner.find (p : Partner) (tid : W16) : Option Transaction := p.open_.find? fun t => t.tid == tid

/-- A transaction opens; a third closes the oldest. -/
def Partner.open' (p : Partner) (t : Transaction) : Partner :=
  let p := p.close t.tid
  { p with open_ := keepLast 2 (p.open_ ++ [t]), timedOut := p.timedOut.filter fun x => x != t.tid }

/-- The open transaction that a later segment belongs to: same kind and item, SEG one higher than the last. -/
def Partner.follows (p : Partner) (q : Request) : Option Transaction :=
  match p.find q.tid with
  | none => none
  | some t =>
    if t.write = decide (q.op = 2) ∧ t.index = q.index ∧ t.sub = q.sub ∧ q.seg = t.last + 1 then some t else none

/-- The abort of a later segment that follows no open transaction. -/
def Partner.stray (p : Partner) (tid : W16) : W16 :=
  if (p.find tid).isNone && p.timedOut.contains tid then 0xA00B else 0xA00A

/-- READ. -/
def State.serveRead (s : State) (eid : Option Byte) (q : Request) : State × W16 × List Byte :=
  let path := partnerPath eid
  if q.seg = 0 then
    let r := s.odRead path s.ep.cur.strict q.index.toNat q.sub.toNat
    let s := r.1
    if r.2.1 ≠ 0 then (s.modPartner eid fun p => p.close q.tid, r.2.1, q.abort r.2.1)
    else
      let t : Transaction :=
        { tid := q.tid, write := false, index := q.index, sub := q.sub, bytes := r.2.2, total := r.2.2.length, last := 0, gc := s.gc }
      let one := decide (r.2.2.length ≤ 56)
      (s.modPartner eid fun p => if one then (p.open' t).close q.tid else p.open' t, 0, q.segment r.2.2)
  else
    match (s.partner eid).follows q with
    | none => let e := (s.partner eid).stray q.tid; (s, e, q.abort e)
    | some t =>
      let v := if q.index = 0x9000 ∧ q.sub = 1 then (s.mg.stmts.get path).1 else t.bytes
      if v.length ≤ 56 * q.seg then (s, 0xA00A, q.abort 0xA00A)
      else
        let end_ := decide (v.length ≤ 56 * (q.seg + 1))
        (s.modPartner eid fun p =>
          if end_ then p.close q.tid
          else { p with open_ := p.open_.map fun x => if x.tid == q.tid then { x with last := q.seg, gc := s.gc } else x },
          0, q.segment v)

/-- The last segment of a WRITE: the whole value is applied; one that is not TOTAL bytes long fails the length check. -/
def State.applyWrite (s : State) (eid : Option Byte) (q : Request) (bytes : List Byte) (total : Nat) (one : Bool) :
    State × W16 × List Byte :=
  let v := if bytes.length = total ∧ one then bytes else List.replicate 9 0
  let r := s.odWrite (partnerPath eid) q.index.toNat q.sub.toNat v
  (r.1, r.2, if r.2 = 0 then q.done else q.abort r.2)

/-- WRITE. -/
def State.serveWrite (s : State) (eid : Option Byte) (q : Request) : State × W16 × List Byte :=
  let bytes := q.payload.take q.len
  if q.seg = 0 then
    let t : Transaction :=
      { tid := q.tid, write := true, index := q.index, sub := q.sub, bytes := bytes, total := q.total, last := 0, gc := s.gc }
    let s := s.modPartner eid fun p => p.open' t
    if q.last then (s.modPartner eid fun p => p.close q.tid).applyWrite eid q bytes q.total true
    else (s, 0, q.done)
  else
    match (s.partner eid).follows q with
    | none => let e := (s.partner eid).stray q.tid; (s, e, q.abort e)
    | some t =>
      let all := t.bytes ++ bytes
      if q.last then (s.modPartner eid fun p => p.close q.tid).applyWrite eid q all q.total false
      else
        (s.modPartner eid fun p =>
          { p with open_ := p.open_.map fun x =>
              if x.tid == q.tid then { x with bytes := all, last := q.seg, gc := s.gc } else x }, 0, q.done)

/-- A request taken whole and answered. -/
def State.serve (s : State) (eid : Option Byte) (frame : List Byte) : State × List Byte :=
  let q := Request.ofBytes (padTo 72 frame)
  if !s.odReady then (s.countAccess 0xA006, q.abort 0xA006)
  else if (s.partner eid).limited then
    (s.modMg fun m => { m with aborts := satAdd m.aborts 1, limited := satAdd m.limited 1 }, q.abort 0xA00C)
  else if q.malformed frame.length then ((s.countAccess 0xA009).violation eid q.tid 0xA009, q.abort 0xA009)
  else
    let r := if q.op = 1 then s.serveRead eid q
      else if q.op = 2 then s.serveWrite eid q
      else (s.modPartner eid fun p => p.close q.tid, 0, q.done)
    let s := r.1.countAccess r.2.1
    (if r.2.1 = 0xA00A ∨ r.2.1 = 0xA00B then s.violation eid q.tid r.2.1 else s, r.2.2)

/-- A request of the management port served, and its response to the same endpoint (R353). -/
def State.answerFrame (s : State) (eid : Byte) (frame : List Byte) : State :=
  let r := s.serve (some eid) frame
  r.1.modOut fun o => { o with mg := o.mg ++ [(some eid, r.2)] }

/-- The answer to a request that finds the queue full, with which nothing else is done (R353, R357). -/
def State.queueFullAnswer (s : State) (eid : Byte) (frame : List Byte) : State :=
  (s.modMg fun m => { m with aborts := satAdd m.aborts 1, limited := satAdd m.limited 1 }).modOut fun o =>
    { o with mg := o.mg ++ [(some eid, (Request.ofBytes (padTo 72 frame)).abort 0xA00C)] }

/-- A frame from the management port, whose accesses are served one at a time (R346): the first of a TCLK cycle is taken and served, others
wait in the queue of 8 (R353). A unit held in reset takes none (R434). -/
def State.frame (s : State) (eid : Byte) (frame : List Byte) : State :=
  if s.held then s
  else if !s.mg.taken && s.mg.queue.isEmpty then (s.modMg fun m => { m with taken := true }).answerFrame eid frame
  else if s.mg.queue.length < 8 then s.modMg fun m => { m with queue := m.queue ++ [(eid, frame)] }
  else s.queueFullAnswer eid frame

/-- FRAME_READ. -/
def State.frameRead (s : State) (eid : Byte) (frame : List Byte) : State := s.frame eid frame

/-- FRAME_WRITE. -/
def State.frameWrite (s : State) (eid : Byte) (frame : List Byte) : State := s.frame eid frame

/-- FRAME_CANCEL. -/
def State.frameCancel (s : State) (eid : Byte) (frame : List Byte) : State := s.frame eid frame

def Transaction.overdue (t : Transaction) (gc : Gc) : Bool := decide (t.gc.toNat + 100000000 ≤ gc.toNat)

/-- TRANSACTION_TIMEOUT: every transaction without a segment for 100 ms closes. -/
def State.transactionTimeout (s : State) : State :=
  let late (p : Partner) : List W16 := (p.open_.filter fun t => t.overdue s.gc).map fun t => t.tid
  let n := s.mg.partners.foldl (fun a p => a + (late p).length) 0
  s.modMg fun m =>
    { m with
      timeouts := satAdd m.timeouts n
      partners := m.partners.map fun p =>
        { p with open_ := p.open_.filter fun t => !t.overdue s.gc, timedOut := keepLast 8 (p.timedOut ++ late p) } }

/-- RATE_WINDOW: a new window of one second. -/
def State.rateWindow (s : State) : State :=
  let w := s.gc.toNat / 1000000000
  if w ≤ s.mg.window then s
  else s.modMg fun m =>
    { m with window := w, partners := m.partners.map fun p => { p with violations := 0, limited := false } }

/-! ### The driver window (R354) -/

/-- A write while BUSY: discarded, logged and counted. -/
def State.discardWrite (s : State) : State :=
  (s.modMg fun m => { m with discards := satAdd m.discards 1 }).violation none 0 0

/-- DOORBELL: the frame in REQ is submitted. It is served at the end of a cycle, so that the operator's requests of that cycle are served
before it (R346, R354; log 59). -/
def State.doorbell (s : State) (value : W32) : State :=
  if s.held then s
  else if s.mg.busy then s.discardWrite
  else if value ≠ 1 then s
  else s.modMg fun m => { m with busy := true, asked := m.asked ++ [m.req] }

/-- A frame of the driver served, and its response in RESP (R354). -/
def State.answerDriver (s : State) (frame : List Byte) : State :=
  let r := s.serve none frame
  (r.1.modMg fun m => { m with resp := r.2, ready := true }).modOut fun o => { o with mg := o.mg ++ [(none, r.2)] }

/-- RELEASE. -/
def State.release (s : State) (value : W32) : State :=
  if value = 1 ∧ !s.held then s.modMg fun m => { m with ready := false, busy := false } else s

/-- DRIVER_WINDOW_WRITE: `offset` is the window offset [11:2]. -/
def State.driverWindowWrite (s : State) (offset : BitVec 10) (value : W32) : State :=
  let i := 4 * offset.toNat
  if s.held || decide (0x48 ≤ i) then s
  else if s.mg.busy then s.discardWrite
  else s.modMg fun m => { m with req := m.req.take i ++ leBytes 4 value.toNat ++ m.req.drop (i + 4) }

/-- A read of the driver window: STATUS, the response frame, zeros elsewhere (Table 13.7). -/
def State.driverWindowRead (s : State) (offset : BitVec 10) : W32 :=
  let i := 4 * offset.toNat
  if s.held then 0
  else if i = 0x4C then BitVec.ofNat 32 (s.mg.busy.toNat + 2 * s.mg.ready.toNat)
  else if 0x80 ≤ i ∧ i < 0xC8 then BitVec.ofNat 32 (leAt s.mg.resp (i - 0x80) 4)
  else 0

/-! ### Event rings (R410, R411, R431) -/

/-- A ring is full (R411). -/
def EvRing.full (r : EvRing) : Bool := r.wr - r.rd == r.size

/-- The first entry from SEQ `next` on that a ring selects: the entries of the Ledger are in order. -/
def EvRing.candidate (r : EvRing) (l : Ledger) : Option LEntry :=
  if !r.enable then none
  else (l.entries.drop (r.next - l.head).toNat).find? fun e => r.selects e

/-- The copy that goes next: increasing SEQ, then ring number. -/
def State.nextCopy (s : State) : Option (Nat × LEntry) :=
  (upTo 64).foldl (fun best n =>
    match (vecGet s.evRings n .default).candidate s.ledger with
    | none => best
    | some e =>
      match best with
      | none => some (n, e)
      | some b => if (e.seq - s.ledger.head).toNat < (b.2.seq - s.ledger.head).toNat then some (n, e) else best) none

def State.modRing (s : State) (n : Nat) (f : EvRing → EvRing) : State := { s with evRings := vecModify s.evRings n f }

/-- EVENT_POST: the next copy is presented on the event port, or dropped where its ring is full. -/
def State.eventPost (s : State) : State :=
  match s.nextCopy with
  | none => s
  | some (n, e) =>
    let r := vecGet s.evRings n .default
    if 16 ≤ s.evOut.length ∨ s.evOut.any (fun w => w.1 == n) then s
    else if r.full && !r.policy then s.modRing n fun r => { r with next := e.seq + 1, dropped := satAdd r.dropped 1 }
    else
      let w := (n, r.base + BitVec.ofNat 64 (32 * (r.wr.toNat % r.size.toNat)), e.bytes)
      let s := s.modRing n fun r => { r with next := e.seq + 1 }
      ({ s with evOut := s.evOut ++ [w] } : State).modOut fun o => { o with ev := o.ev ++ [w] }

/-- EVENT_WRITE_DONE: the oldest outstanding write completes. -/
def State.eventWriteDone (s : State) (failed : Bool) : State :=
  match s.evOut with
  | [] => s
  | w :: ws =>
    ({ s with evOut := ws } : State).modRing w.1 fun r =>
      if failed then { r with dropped := satAdd r.dropped 1 } else { r with wr := r.wr + 1 }

end Sys2Proof.Machine
end

