-- ==== Sys2Proof/Machine/Boot.lean ====
section
/-! DEFINITION. Resets, start-up, the OTP load and the test port (R343, R434 to R447). -/
namespace Sys2Proof.Machine
open Sys2Proof

/-! ### Cold reset and the OTP (R434, R442 to R444) -/

/-- COLD_RESET: nothing is kept but the OTP. The queue, the record of outputs and the count of free values are the model's. -/
def State.coldReset (s : State) : State :=
  { State.cold s.fixed.spadMiB s.fixed.otp with free := s.free, out := s.out, pending := s.pending }

/-- A byte of the OTP as the load reads it. -/
def Otp.byte (o : Otp) (a : Nat) : Byte :=
  match classify (sparseGet 0 o.synd (a / 8)) with
  | .dataBit j => if j / 8 = a % 8 then sparseGet 0 o.bytes a ^^^ (1 <<< (j % 8)) else sparseGet 0 o.bytes a
  | _ => sparseGet 0 o.bytes a

def Otp.range (o : Otp) (a n : Nat) : List Byte := (upTo n).map fun i => o.byte (a + i)

/-- The words of the loaded lines 0 to 999 whose syndrome satisfies `p`. -/
def Otp.words (o : Otp) (p : Syndrome → Bool) : List Nat :=
  (o.synd.filter fun x => decide (x.1 < 2000) && p (classify x.2)).map fun x => x.1

/-- The generation that the valid marks give (R443). -/
def Otp.keygen (o : Otp) : Nat := o.keys.length - 1

/-- Whether an uncorrectable word leaves the unit offline (R444): identity, chain, a transition record or a key up to KEYGEN. -/
def Otp.fatal (o : Otp) (w : Nat) : Bool :=
  let a := 8 * w
  decide (a < 0x40) || (decide (0x2000 ≤ a) && decide (a < 0x3010))
    || (decide (0x0800 ≤ a) && decide (a < 0x0800 + 224 * o.keygen))
    || (decide (0x0100 ≤ a) && decide (a < 0x0100 + 64 * (o.keygen + 1)))

/-- The trims (R442). An uncorrectable word among them gives the sensors offset 0 and gain 1.0 and the energy values their defaults
(R444, log 92). -/
def Otp.trims (o : Otp) : Trims :=
  let half (a : Nat) : W16 := BitVec.ofNat 16 (leNat (o.range a 2))
  if (o.words Syndrome.bad).any fun w => decide (0x50 ≤ 8 * w) && decide (8 * w < 0x100) then
    { sensor0 := Trims.neutral, sensor1 := Trims.neutral, energy := (upTo 9).map Config.energyDefault }
  else
    { sensor0 := (half 0x50, half 0x52), sensor1 := (half 0x54, half 0x56)
      energy := (upTo 9).map fun i => BitVec.ofNat 32 (leNat (o.range (0x60 + 4 * i) 4)) }

/-- A group as the repair map gives it; an uncorrectable word of the map gives none. -/
def Otp.group (o : Otp) (g : Nat) : Group :=
  let b := (o.byte (0x40 + g)).toNat
  if (classify (sparseGet 0 o.synd 8)).bad || decide (0x20 < b) then .default
  else { Group.default with st := .spare, remap := BitVec.ofNat 8 b }

/-- The unit is offline for a reason that logs no `UNITX`. -/
def State.offlineQuietly (s : State) : State :=
  { s with ft := { s.ft with unit := .offline, cause := Config.offlineCause s.free }, free := s.free + 1 }

/-- OTP_LOAD: the OTP is loaded and the straps sampled; ring training, key generation and the grant request begin. -/
def State.otpLoad (s : State) (straps : Straps) : State :=
  if s.boot ≠ .otpLoad then s
  else
    let o := s.fixed.otp
    let bad := o.words Syndrome.bad
    let s := { s with fixed := { s.fixed with
      straps := straps, trims := o.trims
      ident := { serial := BitVec.ofNat 64 (leNat (o.range 0 8)), part := o.range 0x08 16, vendor := BitVec.ofNat 32 (leNat (o.range 0x18 4))
                 chain := o.range 0x2010 (min 4096 (leNat (o.range 0x2000 2))), trans := o.trans } } }
    let s := s.modFt fun f =>
      { f with groups := Vector.ofFn fun g => o.group g.val, corrected := satAdd f.corrected (o.words Syndrome.correctable).length
               uncorr := satAdd f.uncorr bad.length }
    let first := o.keys.isEmpty && !straps.testMode
    let s := s.modProv fun p =>
      { p with keys := { p.keys with keygen := BitVec.ofNat 16 o.keygen, gen := first, need := first, began := s.tb.tclk } }
    let s := if bad.any o.fatal then s.offlineQuietly else s
    let train (c : Scope) (s : State) : State := s.modLink c fun l => { l with ringDown := [s.position c, (s.position c + 1) % ringSize c] }
    let s := train .die (train .cluster s)
    if straps.testMode then { s with boot := .mbist }
    else ({ s with boot := .grant } : State).modPw fun p => { p with greq := true }

/-! ### MBIST, ROM check, lane self-test (R439) -/

/-- Scratchpad words that fail MBIST become poison. -/
def State.poisonWords (s : State) : List Nat → State
  | [] => s
  | w :: ws =>
    let s := (s.modSpad fun p => p.setSyndrome w 0xFF).modHealth fun h => { h with poisoned := satAdd h.poisoned 1 }
    (s.log cECCUE noTag none (eccDetail (8 * w) 0 0xFF 4 1)).poisonWords ws

def arrayCause : CoreArray → Byte
  | .rowTable => 1 | .preImage => 1 | .settlement => 4 | .curve => 2

/-- Every array zero-filled: scratchpad, Till, row-state table, pre-image buffer, curve store and settlement buffer (Table 17.5). -/
def State.zeroFill (s : State) : State :=
  ({ s.clearScratchpad [] with setBuf := [] } : State).modSt fun st =>
    { st with till := [], tillSynd := [], tillBad := [], rowTab := [], rowSynd := [], rowBad := [], curveSynd := [] }

/-- MBIST: every array is zero; failing words, lanes and arrays are dealt with. -/
def State.mbist (s : State) (r : MbistReport) : State :=
  if s.boot ≠ .mbist ∨ !s.fclkRuns then s
  else
    let s := s.zeroFill.poisonWords ((r.words.filter fun w => decide (w < 512 * s.bankRows)).dedup)
    let s := s.modFt fun f => { f with tillFail := r.lanes }
    let s := match r.array with | some a => s.unitLoss (arrayCause a) | none => s
    { s with boot := if s.fixed.straps.testMode then .testMode else .romCheck }

/-- A group lost at start-up. -/
def State.startLoss (s : State) (g : Nat) (cause logCause : Byte) : State :=
  if (s.ft.group g).st = .disabled then s else s.loseGroup g cause logCause

/-- The failing ROMs of a start-up check. -/
def State.romFailures (s : State) : List Nat → State
  | [] => s
  | r :: rs =>
    (if r < 8 then s.startLoss r 3 1 else if r = 8 then s.unitLoss 3 else s).romFailures rs

/-- A failing ROM that matters: the precise pipe's, or one that leaves a second group disabled. -/
def State.romStopsUnit (s : State) (failed : List Nat) : Bool :=
  failed.contains 8
    || decide (2 ≤ ((upTo 8).filter fun g => (s.ft.group g).st == .disabled || failed.contains g).length)

/-- ROM_CHECK: a full pass of every table ROM. An offline unit whose warm check passes comes back (R402, R441). -/
def State.romCheck (s : State) (failed : List Nat) : State :=
  let warm := s.boot = .warmRom
  if (s.boot ≠ .romCheck ∧ !warm) ∨ !s.fclkRuns then s
  else
    let stops := s.romStopsUnit failed
    let s := s.romFailures failed
    let s := if failed.isEmpty then s.modFt fun f => { f with romGc := s.gc, romPasses := satAdd f.romPasses 1 } else s
    let s := if warm ∧ s.ft.unit = .offline ∧ !stops then s.modFt fun f => { f with unit := .back } else s
    { s with boot := if warm then .warmLane else .laneTest }

/-- The lane test of one group: lanes 0 to 31, 32 the checker, 33 the spare. -/
def State.testGroup (s : State) (failed : List (Nat × Nat)) (g : Nat) : State :=
  let x := s.ft.group g
  let mine := (failed.filter fun f => f.1 == g).map fun f => f.2
  let bad := (upTo 33).filter fun l => mine.contains l && (l : Nat) != x.remap.toNat
  let spareFails := mine.contains 33
  match x.st with
  | .disabled => s
  | .spare => if bad.isEmpty && !spareFails then s else s.loseGroup g 4 0
  | .full =>
    match bad with
    | [] => s.modGroup g fun x => { x with spareBad := spareFails }
    | [l] =>
      if spareFails then s.loseGroup g 4 0
      else
        (s.modGroup g fun x => { x with st := .spare, remap := BitVec.ofNat 8 l, cause := 4 }).modFt fun f =>
          { f with remaps := satAdd f.remaps 1 }
    | _ => s.loseGroup g 4 0

def State.testGroups (s : State) (failed : List (Nat × Nat)) : List Nat → State
  | [] => s
  | g :: gs => (s.testGroup failed g).testGroups failed gs

/-- LANE_SELF_TEST: the lane map is settled; TSYNC is next. -/
def State.laneSelfTest (s : State) (failed : List (Nat × Nat)) : State :=
  if (s.boot ≠ .laneTest ∧ s.boot ≠ .warmLane) ∨ !s.fclkRuns then s
  else
    let s := s.testGroups (failed ++ s.ft.tillFail) (upTo 8)
    let s := s.modFt fun f => { f with tillFail := [] }
    { s with boot := if s.boot = .warmLane then .warmTsync else .tsync }

/-! ### The first key (R438) -/

/-- KEY_GENERATION: the generation-0 key becomes valid. -/
def State.keyGeneration (s : State) : State :=
  if !s.prov.keys.gen || s.boot == .testMode || s.boot == .otpLoad then s
  else
    let k := s.drawKey
    let s := k.2
    let s := { s with fixed := { s.fixed with otp := { s.fixed.otp with keys := [k.1] } } }
    let s := s.modProv fun p => { p with keys := { p.keys with keygen := 0, gen := false, need := false } }
    { s with boot := if s.boot = .tsync ∧ s.tb.state ≠ .notAligned then .ready else s.boot }

/-- KEY_GENERATION_TIMEOUT: no key 50 ms after generation began; step 8 is reached with the unit offline. -/
def State.keyGenerationTimeout (s : State) : State :=
  if !s.prov.keys.gen || decide (s.tb.tclk < s.prov.keys.began + 50000000) then s
  else
    let s := (s.modProv fun p => { p with keys := { p.keys with gen := false } }).offlineQuietly
    { s with boot := if s.boot = .tsync ∧ s.tb.state ≠ .notAligned then .ready else s.boot }

/-! ### Warm reset (R435, R441) -/

/-- Whether RST_WARM_N has an effect: not before step 8 of a cold start, nor in test mode (Table 17.8). -/
def Boot.warmable : Boot → Bool
  | .ready | .warmHeld | .warmPower | .warmClear | .warmRom | .warmLane | .warmTsync => true
  | _ => false

/-- WARM_RESET: RST_WARM_N falls. -/
def State.warmReset (s : State) : State :=
  if !s.boot.warmable then s
  else
    let s := s.clearContext
    let s := { s with
      boot := .warmHeld
      stream := { waiting := [], inflight := [], refused := [], lastTag := noTag, claims := [], acc := none, lastStart := none }
      escrow := { s.escrow with entries := [], engines := [], order := [], sets := [] }
      spad := { s.spad with clearing := none, nWait := none } }
    let s := s.modTb fun t => { t with state := .notAligned, lastSync := 0, gap := 0 }
    let s := s.modFt fun f => { f with recovery := none, tallyTags := [], groups := f.groups.map fun g => { g with clean := true, cover := 0 } }
    let s := s.modProv fun p => { p with keys := { p.keys with rot := .idle, next := none, record := [] } }
    s.invalidateAll 4

/-- The power state that a halt stands on. -/
def Power.under (p : Power) : PowerState := if p.state = .halt then p.before else p.state

/-- WARM_START: RST_WARM_N rises. -/
def State.warmStart (s : State) (straps : Straps) : State :=
  if s.boot ≠ .warmHeld then s
  else
    let s := { s with fixed := { s.fixed with straps := { straps with testMode := s.fixed.straps.testMode } } }
    let s := s.modSpad fun p => { p with clearing := some .warm, ptr := Vector.replicate 64 0 }
    match s.pw.under with
    | .sleep => ({ s with boot := .warmPower } : State).modPw fun p => { p with greq := true }
    | .waking => { s with boot := .warmPower }
    | .gated =>
      ({ s with boot := .warmClear } : State).modPw fun p => if p.state = .halt then { p with before := .run } else { p with state := .run }
    | _ => { s with boot := .warmClear }

/-! ### The test port (R445, R446) -/

/-- TEST_LOGIC_RESET: only the test logic is reset; IDCODE is selected. -/
def State.testLogicReset (s : State) : State := { s with fixed := { s.fixed with ir := 0x01 } }

/-- Words shifted out at TST_TDO, zeros while the unit is held in reset (R434). -/
def State.shiftOut (s : State) (ws : List (BitVec 32)) : State :=
  s.modOut fun o => { o with tdo := o.tdo ++ if s.held then ws.map fun _ => 0 else ws }

/-- The identification register. -/
def idcodeValue : BitVec 32 := BitVec.ofNat 32 (0x10000000 + 0x0256 * 4096 + Config.jep106.toNat * 2 + 1)

/-- IDCODE. -/
def State.idcode (s : State) : State := ({ s with fixed := { s.fixed with ir := 0x01 } } : State).shiftOut [idcodeValue]

/-- BYPASS: 0xFF, or an instruction that is not defined. -/
def State.bypass (s : State) (ir : Byte) : State := if ir = 0x01 ∨ ir = 0x10 then s else { s with fixed := { s.fixed with ir := ir } }

/-- Bytes that manufacture may program (Table 17.7). -/
def otpManufacture (a : Nat) : Bool := decide (a < 0x100) || (decide (0x2000 ≤ a) && decide (a < 0x3010))

/-- An instrument that only test mode reaches. -/
def restricted : Instrument → Bool
  | .scanChain | .mbistControl | .dataArray _ | .romRead | .otpProgram .. => true
  | _ => false

/-- What an instrument shifts out, where the manual gives it. -/
def State.instrument (s : State) : Instrument → List (BitVec 32)
  | .sensors => [s.pw.last.1.setWidth 32, s.pw.last.2.setWidth 32]
  | .powerState => [BitVec.ofNat 32 s.pw.state.code]
  | .laneMap => s.ft.groups.toList.map fun g => BitVec.ofNat 32 (leNat g.od)
  | .scrubCounters => [s.spad.health.passes, s.spad.health.steals.setWidth 32, (s.spad.health.steals >>> 32).setWidth 32]
  | .keyArea _ => [0]
  | _ => []

/-- What an array access in test mode leaves in the array, as it may write (R446): the addresses count the bytes of the scratchpad, then
those of the row-state table, then the Till's lanes (DESIGN CHOICE, log 8). -/
def State.testWrite (s : State) (a : Nat) (w : W32) : State :=
  let b := a - s.spadBytes
  if a < s.spadBytes then s.modSpad fun p => { p with mem := Memory.write p.mem a (w.setWidth 8) }
  else if b < 2 ^ 19 then s.modSt fun st => { st with rowTab := Memory.write st.rowTab b (w.setWidth 8) }
  else if b < 2 ^ 19 + 2 ^ 14 then s.modSt fun st => { st with till := sparseSet 0 st.till (b - 2 ^ 19) w }
  else s

/-- IJTAG_ACCESS. In test mode an MBIST run zero-fills the arrays, and an array access leaves a free value in its place, which may be what
stood there (R446, log 8). -/
def State.ijtagAccess (s : State) (i : Instrument) : State :=
  let s : State := { s with fixed := { s.fixed with ir := 0x10 } }
  if restricted i && s.boot != .testMode then s
  else match i with
    | .otpProgram a bits =>
      if otpManufacture a && !s.fixed.straps.otpLock then
        { s with fixed := { s.fixed with otp := { s.fixed.otp with
          bytes := sparseSet 0 s.fixed.otp.bytes a (sparseGet 0 s.fixed.otp.bytes a ||| bits) } } }
      else s
    | .scanChain | .romRead => ({ s with free := s.free + 1 } : State).shiftOut [Config.testData s.free]
    | .mbistControl => ({ s.zeroFill with free := s.free + 1 } : State).shiftOut [Config.testData s.free]
    | .dataArray a =>
      (({ s with free := s.free + 2 } : State).shiftOut [Config.testData s.free]).testWrite a (Config.testData (s.free + 1))
    | _ => s.shiftOut (s.instrument i)

end Sys2Proof.Machine
end

