-- ==== Sys2Proof/Machine/Slots.lean ====
section
/-! DEFINITION. The slots of the command port: one meaning for each row that the port takes (R309, R310, R423). -/
namespace Sys2Proof.Machine
open Sys2Proof

/-- FN (R67): Applies the chain word's recipe (stages S1 to S6) to every active element of X and writes OUT. The slot is taken; what follows are the unit's own steps. -/
def execFn (o : SlotOps) (s : State) : Host.Outcome State Fault Refusal := .next (s.takeSlot (slotOf 0x01 o))

/-- CVT (R328): Decodes each element of X at S1 and rounds it once into the OUT format, bypassing S2 to S4. The slot is taken; what follows are the unit's own steps. -/
def execCvt (o : SlotOps) (s : State) : Host.Outcome State Fault Refusal := .next (s.takeSlot (slotOf 0x02 o))

/-- RED (R141): Folds delivered values into row states under the TOP tally operation and writes row results on close. The slot is taken; what follows are the unit's own steps. -/
def execRed (o : SlotOps) (s : State) : Host.Outcome State Fault Refusal := .next (s.takeSlot (slotOf 0x03 o))

/-- SCAN (R170): Writes inclusive or exclusive prefix sums, maxima or minima per scan segment. The slot is taken; what follows are the unit's own steps. -/
def execScan (o : SlotOps) (s : State) : Host.Outcome State Fault Refusal := .next (s.takeSlot (slotOf 0x04 o))

/-- SEL (R168): Selects the k highest- or lowest-ranked values of each row with their indices. The slot is taken; what follows are the unit's own steps. -/
def execSel (o : SlotOps) (s : State) : Host.Outcome State Fault Refusal := .next (s.takeSlot (slotOf 0x05 o))

/-- SMXA (R189): Accumulates rows into octave-pivot softmax states and writes log-sum-exp on close. The slot is taken; what follows are the unit's own steps. -/
def execSmxa (o : SlotOps) (s : State) : Host.Outcome State Fault Refusal := .next (s.takeSlot (slotOf 0x06 o))

/-- SMXN (R191): Normalises each delivered element against a closed softmax or cross-entropy state. The slot is taken; what follows are the unit's own steps. -/
def execSmxn (o : SlotOps) (s : State) : Host.Outcome State Fault Refusal := .next (s.takeSlot (slotOf 0x07 o))

/-- ARES_SCORE (R195): ARES with APH = 0: updates the softmax state from score rows and writes P values. The slot is taken; what follows are the unit's own steps. -/
def execAresScore (o : SlotOps) (s : State) : Host.Outcome State Fault Refusal := .next (s.takeSlot (slotOf 0x08 o))

/-- ARES_RESCALE (R196): ARES with APH = 1: rescales accumulator rows of O by the pivot rise and updates MA. The slot is taken; what follows are the unit's own steps. -/
def execAresRescale (o : SlotOps) (s : State) : Host.Outcome State Fault Refusal := .next (s.takeSlot (slotOf 0x08 o))

/-- ARES_FINAL (R198): ARES with APH = 2: divides O by the settled sum and writes output rows. The slot is taken; what follows are the unit's own steps. -/
def execAresFinal (o : SlotOps) (s : State) : Host.Outcome State Fault Refusal := .next (s.takeSlot (slotOf 0x08 o))

/-- NORM_WHOLE (R203): NORM with NPH = 0: computes layer or RMS statistics and outputs in two or three lane passes. The slot is taken; what follows are the unit's own steps. -/
def execNormWhole (o : SlotOps) (s : State) : Host.Outcome State Fault Refusal := .next (s.takeSlot (slotOf 0x09 o))

/-- NORM_SUM1 (R200): NORM with NPH = 1: accumulates the first sum and closes stage 1. The slot is taken; what follows are the unit's own steps. -/
def execNormSum1 (o : SlotOps) (s : State) : Host.Outcome State Fault Refusal := .next (s.takeSlot (slotOf 0x09 o))

/-- NORM_SUM2 (R200): NORM with NPH = 2: accumulates the sum of squared deviations for layer norm and closes stage 2. The slot is taken; what follows are the unit's own steps. -/
def execNormSum2 (o : SlotOps) (s : State) : Host.Outcome State Fault Refusal := .next (s.takeSlot (slotOf 0x09 o))

/-- NORM_APPLY (R201): NORM with NPH = 3: applies the closed statistics, gamma and beta to write normalised outputs. The slot is taken; what follows are the unit's own steps. -/
def execNormApply (o : SlotOps) (s : State) : Host.Outcome State Fault Refusal := .next (s.takeSlot (slotOf 0x09 o))

/-- XENT_STATS (R206): XENT with XPH = 0: builds a cross-entropy state, captures the target value and writes the loss on close. The slot is taken; what follows are the unit's own steps. -/
def execXentStats (o : SlotOps) (s : State) : Host.Outcome State Fault Refusal := .next (s.takeSlot (slotOf 0x0A o))

/-- XENT_GRAD (R208): XENT with XPH = 1: writes the cross-entropy gradient of every delivered element. The slot is taken; what follows are the unit's own steps. -/
def execXentGrad (o : SlotOps) (s : State) : Host.Outcome State Fault Refusal := .next (s.takeSlot (slotOf 0x0A o))

/-- ROPE (R138): Rotates element pairs by exact fixed-point phases from the rotary angle generator. The slot is taken; what follows are the unit's own steps. -/
def execRope (o : SlotOps) (s : State) : Host.Outcome State Fault Refusal := .next (s.takeSlot (slotOf 0x0B o))

/-- OPT_ADAMW (R331): OPT with ALG = 0: applies an AdamW step to master weights and moments. The slot is taken; what follows are the unit's own steps. -/
def execOptAdamw (o : SlotOps) (s : State) : Host.Outcome State Fault Refusal := .next (s.takeSlot (slotOf 0x0C o))

/-- OPT_MOMENTUM_SGD (R331): OPT with ALG = 1: applies a momentum SGD step to master weights and moment. The slot is taken; what follows are the unit's own steps. -/
def execOptMomentumSgd (o : SlotOps) (s : State) : Host.Outcome State Fault Refusal := .next (s.takeSlot (slotOf 0x0C o))

/-- MERGE (R221): Merges pairs of row-state records in the scratchpad and optionally finalises them. The slot is taken; what follows are the unit's own steps. -/
def execMerge (o : SlotOps) (s : State) : Host.Outcome State Fault Refusal := .next (s.takeSlot (slotOf 0x0D o))

/-- SETTLE (R213): All-reduces row states among the units of a participant mask over a settlement ring. The slot is taken; what follows are the unit's own steps. -/
def execSettle (o : SlotOps) (s : State) : Host.Outcome State Fault Refusal := .next (s.takeSlot (slotOf 0x0E o))

/-- MINT (R122): Reads and checks a curve image for installation into a curve slot. The slot is taken; what follows are the unit's own steps. -/
def execMint (o : SlotOps) (s : State) : Host.Outcome State Fault Refusal := .next (s.takeSlot (slotOf 0x10 o))

/-- FNSYNC (R129): Requests invalidation of the valid curve slots selected by its mask. The slot is taken; what follows are the unit's own steps. -/
def execFnsync (o : SlotOps) (s : State) : Host.Outcome State Fault Refusal := .next (s.takeSlot (slotOf 0x11 o))

/-- ROLLSET (R306): Sets or disables the descriptor of one roll once older users retire. The slot is taken; what follows are the unit's own steps. -/
def execRollset (o : SlotOps) (s : State) : Host.Outcome State Fault Refusal := .next (s.takeSlot (slotOf 0x12 o))

/-- SETLEN (R334): Sets or adds to up to two length or geometry registers at issue. The slot is taken; what follows are the unit's own steps. -/
def execSetlen (o : SlotOps) (s : State) : Host.Outcome State Fault Refusal := .next (s.takeSlot (slotOf 0x13 o))

/-- ASSAY_OPEN (R245): Opens the selected assay accumulators with zero value and count. The slot is taken; what follows are the unit's own steps. -/
def execAssayOpen (o : SlotOps) (s : State) : Host.Outcome State Fault Refusal := .next (s.takeSlot (slotOf 0x14 o))

/-- ASSAY_CLOSE (R245): Closes the selected open assay accumulators, keeping value and count. The slot is taken; what follows are the unit's own steps. -/
def execAssayClose (o : SlotOps) (s : State) : Host.Outcome State Fault Refusal := .next (s.takeSlot (slotOf 0x14 o))

/-- ASSAY_READ (R245): Writes the 16-byte slot of each selected assay accumulator to OUT. The slot is taken; what follows are the unit's own steps. -/
def execAssayRead (o : SlotOps) (s : State) : Host.Outcome State Fault Refusal := .next (s.takeSlot (slotOf 0x14 o))

/-- ASSAY_FOLD (R245): Folds every stored element of a scratchpad operand into an open assay accumulator. The slot is taken; what follows are the unit's own steps. -/
def execAssayFold (o : SlotOps) (s : State) : Host.Outcome State Fault Refusal := .next (s.takeSlot (slotOf 0x14 o))

/-- ASSAY_AMREAD (R66): Reads the selected amax registers into the scratchpad. The slot is taken; what follows are the unit's own steps. -/
def execAssayAmread (o : SlotOps) (s : State) : Host.Outcome State Fault Refusal := .next (s.takeSlot (slotOf 0x14 o))

/-- ASSAY_AMCLR (R66): Clears the selected amax registers in stream order. The slot is taken; what follows are the unit's own steps. -/
def execAssayAmclr (o : SlotOps) (s : State) : Host.Outcome State Fault Refusal := .next (s.takeSlot (slotOf 0x14 o))

/-- SEAL (R249): Captures the digest, assays and fault summary into a receipt record and queues it for signing. The slot is taken; what follows are the unit's own steps. -/
def execSeal (o : SlotOps) (s : State) : Host.Outcome State Fault Refusal := .next (s.takeSlot (slotOf 0x15 o))

/-- CFG_READ (R335): CFG with WR = 0: reads an OD item with tenant rights into the scratchpad. The slot is taken; what follows are the unit's own steps. -/
def execCfgRead (o : SlotOps) (s : State) : Host.Outcome State Fault Refusal := .next (s.takeSlot (slotOf 0x16 o))

/-- CFG_WRITE (R335): CFG with WR = 1: writes an OD item with tenant rights from an immediate or the scratchpad. The slot is taken; what follows are the unit's own steps. -/
def execCfgWrite (o : SlotOps) (s : State) : Host.Outcome State Fault Refusal := .next (s.takeSlot (slotOf 0x16 o))

/-- WAITGC (R370): Holds younger issue of every engine until GC reaches the target. The slot is taken; what follows are the unit's own steps. -/
def execWaitgc (o : SlotOps) (s : State) : Host.Outcome State Fault Refusal := .next (s.takeSlot (slotOf 0x17 o))

/-- STMT (R359): Captures the 4,096-byte Statement at issue and writes it to OUT. The slot is taken; what follows are the unit's own steps. -/
def execStmt (o : SlotOps) (s : State) : Host.Outcome State Fault Refusal := .next (s.takeSlot (slotOf 0x18 o))

/-- TENANT (R388): Clears the outgoing context and switches the unit to the incoming tenant context. The slot is taken; what follows are the unit's own steps. -/
def execTenant (o : SlotOps) (s : State) : Host.Outcome State Fault Refusal := .next (s.takeSlot (slotOf 0x3F o))

/-- RESERVED_OPCODE (R310): A slot whose OPCODE is reserved faults with ILLCM at issue. -/
def execReservedOpcode (code : BitVec 6) (o : SlotOps) (s : State) : Host.Outcome State Fault Refusal :=
  .next (s.takeSlot (slotOf code.toNat o))

/-- SLOT_DROPPED (R423): A slot presented with CMD_NW of 0 is dropped and ILLCM is logged with tag 0xFFFF. -/
def execSlotDropped (s : State) : Host.Outcome State Fault Refusal := .next s.slotDropped

end Sys2Proof.Machine
end

