-- ==== Sys2Proof/Machine/Steps.lean ====
section
/-! DEFINITION. The steps of the unit and the events on its ports: one meaning for each of the other rows. A step whose condition
does not hold leaves the state as it is (log 1). -/
namespace Sys2Proof.Machine
open Sys2Proof

/-- ISSUE_AFTER_WAIT (R289): A command held at issue by escrow, epoch, wake or ordering issues once its last hold clears. -/
def execIssueAfterWait (s : State) : Host.Outcome State Fault Refusal := .next s.issueAfterWait

/-- ESCROW_WATCHDOG (R296): A command that has waited at issue for the escrow watchdog count is refused with ESCTO. -/
def execEscrowWatchdog (tag : W16) (s : State) : Host.Outcome State Fault Refusal := .next (s.escrowWatchdog tag)

/-- BEAT_READ_START (R97): A beat starts its read stage once its Till, roll, row-state, stream and throttle conditions allow. -/
def execBeatReadStart (s : State) : Host.Outcome State Fault Refusal := .next (s.beatReadStart.cycleLog s)

/-- BEAT_WRITE_COMPLETE (R96): A beat completes its write stage after the fixed pipeline latency. -/
def execBeatWriteComplete (s : State) : Host.Outcome State Fault Refusal := .next (s.beatWriteComplete.cycleLog s)

/-- HARD_CASE_RESOLUTION (R109): The precise pipe returns a hard element and the lane group completes its S6 work and the beat's write. -/
def execHardCaseResolution (s : State) : Host.Outcome State Fault Refusal := .next (s.hardCaseResolution.cycleLog s)

/-- ROW_RESULT (R150): A row's result becomes available after the tally latency and any precise-pipe slots, and its record is written. -/
def execRowResult (s : State) : Host.Outcome State Fault Refusal := .next (s.rowResult.cycleLog s)

/-- COMMAND_RETIREMENT (R337): A command retires and delivers its completion record in stream order. -/
def execCommandRetirement (s : State) : Host.Outcome State Fault Refusal := .next (s.commandRetirement.cycleLog s)

/-- CURVE_INSTALL (R123): A checked curve image is installed once every older user of the slot has retired, and the MINT retires. -/
def execCurveInstall (s : State) : Host.Outcome State Fault Refusal := .next s.curveInstall

/-- CURVE_SLOT_INVALIDATE (R129): Selected valid curve slots become invalidated once older users retire, and FNSYNC retires. -/
def execCurveSlotInvalidate (s : State) : Host.Outcome State Fault Refusal := .next s.curveSlotInvalidate

/-- ROLL_SET_EFFECT (R306): A pending roll setting takes effect once older users of the roll have retired. -/
def execRollSetEffect (s : State) : Host.Outcome State Fault Refusal := .next s.rollSetEffect

/-- ACC_PRESENTATION (R90): The unit takes an accumulator presentation from the matrix engine. -/
def execAccPresentation (beat : List (Option W32)) (s : State) : Host.Outcome State Fault Refusal :=
  .next (s.accPresentation beat)

/-- ESCROW_DECLARATION (R293): Another engine's range declaration is answered GRANT, WAIT or REFUSE. -/
def execEscrowDeclaration (tag : W16) (engine : BitVec 3) (boxes : List BoxOp) (claims : List ClaimOp) (s : State) : Host.Outcome State Fault Refusal :=
  .next (s.escrowDeclaration tag engine boxes claims)

/-- GRANT (R424): A waiting declaration or slot acquire is granted once its hazards clear. -/
def execGrant (tag : W16) (s : State) : Host.Outcome State Fault Refusal := .next (s.grant tag)

/-- RETIREMENT_REPORT (R293): Another engine reports a command's retirement, releasing its escrow entries. -/
def execRetirementReport (tag : W16) (s : State) : Host.Outcome State Fault Refusal := .next (s.retirementReport tag)

/-- ROLL_ACQUIRE (R304): Another engine reports acquiring a roll slot to fill. -/
def execRollAcquire (tag : W16) (roll : BitVec 4) (seq : W32) (s : State) : Host.Outcome State Fault Refusal :=
  .next (s.rollReport 0 tag roll seq)

/-- ROLL_PUBLISH (R304): Another engine reports publishing a roll slot. -/
def execRollPublish (tag : W16) (roll : BitVec 4) (seq : W32) (s : State) : Host.Outcome State Fault Refusal :=
  .next (s.rollReport 1 tag roll seq)

/-- ROLL_RELEASE (R304): Another engine reports releasing a consumed roll slot. -/
def execRollRelease (tag : W16) (roll : BitVec 4) (seq : W32) (s : State) : Host.Outcome State Fault Refusal :=
  .next (s.rollReport 2 tag roll seq)

/-- ROLL_WATCHDOG (R303): A wait for one roll slot beyond the roll watchdog aborts the command with ROLLU or ROLLO and faults the roll. -/
def execRollWatchdog (tag : W16) (s : State) : Host.Outcome State Fault Refusal := .next (s.rollWatchdog tag)

/-- W_ACCESS (R265): A 512-byte wide scratchpad access is performed once all eight banks grant it. -/
def execWAccess (write : Bool) (line : BitVec 21) (tag : W16) (data : List Byte) (s : State) : Host.Outcome State Fault Refusal :=
  .next ((s.wAccess write line.toNat tag data).cycleLog s)

/-- N_ACCESS (R265): An 8-byte narrow scratchpad access is performed. -/
def execNAccess (write : Bool) (word : BitVec 24) (be : Byte) (data : W64) (s : State) : Host.Outcome State Fault Refusal :=
  .next (s.nAccess write word be data)

/-- GUARDED_N_REQUEST (R265): An N request that has waited 32 cycles becomes guarded and is served ahead of W. -/
def execGuardedNRequest (s : State) : Host.Outcome State Fault Refusal := .next s.guardedNRequest

/-- FORCED_SCRUB_STEAL (R278): At every multiple of P ns every bank makes a scrub visit at top priority. -/
def execForcedScrubSteal (s : State) : Host.Outcome State Fault Refusal := .next (s.forcedScrubSteal.cycleLog s)

/-- IDLE_SCRUB (R277): A bank with an idle common side makes a scrub visit. -/
def execIdleScrub (bank : BitVec 6) (s : State) : Host.Outcome State Fault Refusal := .next ((s.idleScrub bank.toNat).cycleLog s)

/-- CORRECTION_WRITEBACK (R280): A queued correction rereads its word and writes the corrected word, poison or nothing. -/
def execCorrectionWriteback (s : State) : Host.Outcome State Fault Refusal := .next s.correctionWriteback

/-- SCRATCHPAD_CLEAR_DONE (R281): The clear and verification of the scratchpad completes after R + 64 cycles. -/
def execScratchpadClearDone (failed : List Nat) (s : State) : Host.Outcome State Fault Refusal :=
  .next (s.scratchpadClearDone failed)

/-- PART_SEND (R214): A SETTLE participant sends its source state as PART flits once older updates are made. -/
def execPartSend (tag : W16) (row : W16) (s : State) : Host.Outcome State Fault Refusal := .next ((s.partSend tag row).cycleLog s)

/-- FLIT_RECEIVE (R227): A ring receive port takes a flit whole, checking it and forwarding, merging, storing or acting on it. -/
def execFlitReceive (scope : Scope) (flit : List Byte) (s : State) : Host.Outcome State Fault Refusal :=
  .next ((s.flitReceive scope flit).cycleLog s)

/-- ACK_RECEIVE (R228): A transmitter takes an acknowledgement word, advancing its window, honouring HOLD or resending on NAK. -/
def execAckReceive (scope : Scope) (word : W16) (s : State) : Host.Outcome State Fault Refusal :=
  .next (s.ackReceive scope word)

/-- ACK_TIMEOUT (R228): With no window advance for 512 ring cycles, the transmitter resends from the oldest unacknowledged flit. -/
def execAckTimeout (scope : Scope) (s : State) : Host.Outcome State Fault Refusal := .next (s.ackTimeout scope)

/-- SETTLEMENT_BUFFER_TIMEOUT (R226): Buffered flits with no matching SETTLE within the escrow watchdog are discarded and logged. -/
def execSettlementBufferTimeout (s : State) : Host.Outcome State Fault Refusal := .next s.settlementBufferTimeout

/-- SYNC_PULSE (R365): A time-base sync pulse loads the received count Q and updates the GC view. -/
def execSyncPulse (count : Gc) (s : State) : Host.Outcome State Fault Refusal := .next ((s.syncPulse count).cycleLog s)

/-- SYNC_PULSE_MISSING (R367): No sync pulse within 1.5 ms puts the time state in holdover and counts the missed pulse. -/
def execSyncPulseMissing (s : State) : Host.Outcome State Fault Refusal := .next s.syncPulseMissing

/-- FCLK_CHANGE (R433): A change of fclk frequency takes effect and the crossing is realigned at the next sync pulse. -/
def execFclkChange (mhz : BitVec 12) (s : State) : Host.Outcome State Fault Refusal :=
  if fclkAllowed mhz then .next (s.fclkChange mhz) else .fault (.brokenObligation "R432")

/-- EPOCH_SWITCH (R374): At the first boundary after the switch GC with no previous-epoch commands, the pending mode set becomes current. -/
def execEpochSwitch (s : State) : Host.Outcome State Fault Refusal := .next s.epochSwitch

/-- WAITGC_RELEASE (R370): A WAITGC retires when the FCLK-domain view reaches its target. -/
def execWaitgcRelease (s : State) : Host.Outcome State Fault Refusal := .next s.waitgcRelease

/-- CHECKER_ROTATION_STEP (R394): At each 128,000 ns step the checker lanes complete one lane's check and move to the next lane. -/
def execCheckerRotationStep (s : State) : Host.Outcome State Fault Refusal := .next s.checkerRotationStep

/-- TELEMETRY_SAMPLE (R383): At each telemetry period the governor reads the sensors and sets thermal, chip, power and issue levels. -/
def execTelemetrySample (temp0 : W16) (temp1 : W16) (level : BitVec 3) (s : State) : Host.Outcome State Fault Refusal :=
  .next ((s.telemetrySample temp0 temp1 level).cycleLog s)

/-- RECEIPT_WINDOW_TEST (R253): At a receipt's deadline the window closes if the checks are clean, and a confirmation notice is queued. -/
def execReceiptWindowTest (s : State) : Host.Outcome State Fault Refusal := .next s.receiptWindowTest

/-- IDLE_TIMEOUT (R378): After the idle delay the unit enters GATED or SLEEP according to its idle policy. -/
def execIdleTimeout (s : State) : Host.Outcome State Fault Refusal := .next s.idleTimeout

/-- PW_GRANT (R381): The die power manager's grant arrives and the lane-group step timer starts. -/
def execPwGrant (s : State) : Host.Outcome State Fault Refusal := .next s.pwGrant

/-- LANE_GROUP_POWER_STEP (R380): A lane group powers up at its stagger step after the grant. -/
def execLaneGroupPowerStep (s : State) : Host.Outcome State Fault Refusal := .next s.laneGroupPowerStep

/-- RESIDUE_MISMATCH (R396): A residue check fails, stopping unwritten beats and starting the lane test. -/
def execResidueMismatch (site : ResidueSite) (s : State) : Host.Outcome State Fault Refusal := .next (s.residueMismatch site)

/-- CHECKER_MISMATCH (R396): The checker lane disagrees with the shadowed lane, stopping beats and starting the lane test. -/
def execCheckerMismatch (group : BitVec 3) (s : State) : Host.Outcome State Fault Refusal := .next (s.checkerMismatch group)

/-- LANE_TEST_COMPLETE (R397): The lane test ends and the lane is kept, remapped to the spare or its group disabled. -/
def execLaneTestComplete (lanePasses : Bool) (checkerPasses : Bool) (s : State) : Host.Outcome State Fault Refusal :=
  .next ((s.laneTestComplete lanePasses checkerPasses).cycleLog s)

/-- TABLE_ROM_PARITY (R403): A parity error at a table-ROM read disables the group and replays the reading command. -/
def execTableRomParity (rom : Nat) (s : State) : Host.Outcome State Fault Refusal := .next ((s.tableRomParity rom).cycleLog s)

/-- ROM_SCAN_PASS (R403): A table-ROM scan pass completes clean or with a mismatch that disables the group. -/
def execRomScanPass (mismatch : Option Nat) (s : State) : Host.Outcome State Fault Refusal := .next ((s.romScanPass mismatch).cycleLog s)

/-- LOCKSTEP_MISMATCH (R401): A lockstep mismatch in shared logic is logged as LOCKF and takes the unit offline. -/
def execLockstepMismatch (signals : W32) (s : State) : Host.Outcome State Fault Refusal := .next (s.lockstepMismatch signals)

/-- SIGNATURE_COMPLETE (R251): The signing engine completes a receipt's ECDSA signature and logs SEALD. -/
def execSignatureComplete (s : State) : Host.Outcome State Fault Refusal := .next s.signatureComplete

/-- NOTICE_SIGNED (R255): A confirmation or invalidation notice is signed and logged as CONFM or PROVX. -/
def execNoticeSigned (s : State) : Host.Outcome State Fault Refusal := .next s.noticeSigned

/-- FRAME_READ (R350): A management READ frame is taken whole and one segment of a captured value is answered. -/
def execFrameRead (eid : Byte) (frame : List Byte) (s : State) : Host.Outcome State Fault Refusal :=
  .next (s.frameRead eid frame)

/-- FRAME_WRITE (R351): A management WRITE frame segment is taken and, on its last segment, the value is applied. -/
def execFrameWrite (eid : Byte) (frame : List Byte) (s : State) : Host.Outcome State Fault Refusal :=
  .next (s.frameWrite eid frame)

/-- FRAME_CANCEL (R352): A CANCEL frame closes the transaction with its TID. -/
def execFrameCancel (eid : Byte) (frame : List Byte) (s : State) : Host.Outcome State Fault Refusal :=
  .next (s.frameCancel eid frame)

/-- TRANSACTION_TIMEOUT (R352): A transaction with no segment for 100 ms is closed by timeout. -/
def execTransactionTimeout (s : State) : Host.Outcome State Fault Refusal := .next s.transactionTimeout

/-- RATE_WINDOW (R356): A new one-second rate window begins and rate limiting of partners ends. -/
def execRateWindow (s : State) : Host.Outcome State Fault Refusal := .next s.rateWindow

/-- DOORBELL (R354): A write of 1 to DOORBELL submits the driver-window request and sets BUSY. -/
def execDoorbell (value : W32) (s : State) : Host.Outcome State Fault Refusal := .next (s.doorbell value)

/-- RELEASE (R354): A write of 1 to RELEASE clears RESPONSE READY and BUSY. -/
def execRelease (value : W32) (s : State) : Host.Outcome State Fault Refusal := .next (s.release value)

/-- DRIVER_WINDOW_WRITE (R354): A write to the request frame area, discarded and logged while BUSY is set. -/
def execDriverWindowWrite (offset : BitVec 10) (value : W32) (s : State) : Host.Outcome State Fault Refusal :=
  .next (s.driverWindowWrite offset value)

/-- OD_WRITE (R345): A write to an OD item without behaviour of its own, checked and applied in one cycle. -/
def execOdWrite (path : Path) (index : W16) (sub : Byte) (value : List Byte) (s : State) : Host.Outcome State Fault Refusal :=
  .next (s.odWriteRow path index.toNat sub.toNat value)

/-- SWITCH_GC_WRITE (R373): A write of 0x3010:02 arms or replaces an epoch schedule, or is refused with LATEE. -/
def execSwitchGcWrite (path : Path) (value : List Byte) (s : State) : Host.Outcome State Fault Refusal :=
  .next (s.odWriteRow path 0x3010 2 value)

/-- DISARM (R375): A write of 1 to 0x3010:06 disarms the schedule and faults commands waiting for its epoch with EPOLD. -/
def execDisarm (path : Path) (value : List Byte) (s : State) : Host.Outcome State Fault Refusal :=
  .next (s.odWriteRow path 0x3010 6 value)

/-- ROTATE (R260): A write of 1 to 0x1103:01 starts a live rotation of the signing key. -/
def execRotate (path : Path) (value : List Byte) (s : State) : Host.Outcome State Fault Refusal :=
  .next (s.odWriteRow path 0x1103 1 value)

/-- KEY_GENERATED (R260): The next key pair is ready, new SEALs wait and the signing queue drains. -/
def execKeyGenerated (s : State) : Host.Outcome State Fault Refusal := .next s.keyGenerated

/-- KEYRT (R260): The transition record and key are programmed, the keys switch and KEYGEN increments. -/
def execKeyrt (s : State) : Host.Outcome State Fault Refusal := .next s.keyrt

/-- RECEIPT_RELEASE (R256): A write of an RSEQ to 0x8200:02 frees that receipt-store entry. -/
def execReceiptRelease (path : Path) (value : List Byte) (s : State) : Host.Outcome State Fault Refusal :=
  .next (s.odWriteRow path 0x8200 2 value)

/-- ROLL_RECORD_WRITE (R307): A write to a roll record is applied at the next command boundary as a ROLLSET. -/
def execRollRecordWrite (path : Path) (roll : BitVec 4) (sub : Byte) (value : List Byte) (s : State) : Host.Outcome State Fault Refusal :=
  .next (s.odWriteRow path (0x5000 + roll.toNat) sub.toNat value)

/-- COUNTER_CLEAR (R420): A write of 1 to 0x7010:17 clears the activity counters in one cycle. -/
def execCounterClear (path : Path) (value : List Byte) (s : State) : Host.Outcome State Fault Refusal :=
  .next (s.odWriteRow path 0x7010 0x17 value)

/-- EVENT_RING_ENABLE (R411): A write of 0x8100:02 starts or stops an event ring. -/
def execEventRingEnable (path : Path) (value : List Byte) (s : State) : Host.Outcome State Fault Refusal :=
  .next (s.odWriteRow path 0x8100 2 value)

/-- STATEMENT_READ (R359): A SEG 0 read of 0x9000:01 captures a new Statement into the path's buffer. -/
def execStatementRead (path : Path) (s : State) : Host.Outcome State Fault Refusal := .next (s.statementRead path)

/-- EVENT_POST (R410): A Ledger entry is copied to each selecting event ring through the event port once the port allows. -/
def execEventPost (s : State) : Host.Outcome State Fault Refusal := .next s.eventPost

/-- EVENT_WRITE_DONE (R431): The fabric completes an event write, advancing the write index or counting a failed write as dropped. -/
def execEventWriteDone (failed : Bool) (s : State) : Host.Outcome State Fault Refusal := .next (s.eventWriteDone failed)

/-- COLD_RESET (R434): RST_POR_N asserts: every output goes to 0 and nothing is kept but the OTP. -/
def execColdReset (s : State) : Host.Outcome State Fault Refusal := .next s.coldReset

/-- OTP_LOAD (R436): After reset release the OTP is loaded, straps sampled, ring training and the grant request begun. -/
def execOtpLoad (straps : Straps) (s : State) : Host.Outcome State Fault Refusal := .next (s.otpLoad straps)

/-- MBIST (R436): MBIST with zero-fill of the arrays completes. -/
def execMbist (report : MbistReport) (s : State) : Host.Outcome State Fault Refusal := .next ((s.mbist report).cycleLog s)

/-- ROM_CHECK (R436): A full clean pass of every table ROM completes at start-up. -/
def execRomCheck (failed : List Nat) (s : State) : Host.Outcome State Fault Refusal := .next ((s.romCheck failed).cycleLog s)

/-- LANE_SELF_TEST (R439): The start-up lane test of every lane completes and the lane map is settled. -/
def execLaneSelfTest (failed : List (Nat × Nat)) (s : State) : Host.Outcome State Fault Refusal :=
  .next ((s.laneSelfTest failed).cycleLog s)

/-- KEY_GENERATION (R438): On the first start, generation of the generation-0 key completes. -/
def execKeyGeneration (s : State) : Host.Outcome State Fault Refusal := .next s.keyGeneration

/-- KEY_GENERATION_TIMEOUT (R438): No key 50 ms after generation began leaves the unit offline at step 8. -/
def execKeyGenerationTimeout (s : State) : Host.Outcome State Fault Refusal := .next s.keyGenerationTimeout

/-- WARM_RESET (R435): RST_WARM_N falls: commands in flight are abandoned without completion and the OD answers 0xA006. -/
def execWarmReset (s : State) : Host.Outcome State Fault Refusal := .next s.warmReset

/-- WARM_START (R441): RST_WARM_N rises: straps are sampled and the warm start-up sequence begins. -/
def execWarmStart (straps : Straps) (s : State) : Host.Outcome State Fault Refusal := .next (s.warmStart straps)

/-- TEST_LOGIC_RESET (R445): TST_TRST_N resets only the test logic. -/
def execTestLogicReset (s : State) : Host.Outcome State Fault Refusal := .next s.testLogicReset

/-- IDCODE (R445): The TAP instruction 0x01 selects the identification register. -/
def execIdcode (s : State) : Host.Outcome State Fault Refusal := .next s.idcode

/-- BYPASS (R445): The TAP instruction 0xFF, or any undefined instruction, selects bypass. -/
def execBypass (ir : Byte) (s : State) : Host.Outcome State Fault Refusal := .next (s.bypass ir)

/-- IJTAG_ACCESS (R446): The TAP instruction 0x10 gives access to the IEEE 1687 network under the mode's limits. -/
def execIjtagAccess (instrument : Instrument) (s : State) : Host.Outcome State Fault Refusal := .next (s.ijtagAccess instrument)

/-- FROZEN_STATE_EXIT (R367): When the received count Q, advancing by time-port increments, exceeds the frozen view V, the view leaves the frozen time state and tracks Q again. -/
def execFrozenStateExit (s : State) : Host.Outcome State Fault Refusal := .next s.frozenStateExit

/-- POWER_DOWN_STEP (R382): On entering SLEEP the unit powers the lane groups down in reverse order, LG7 first, one stagger step apart. -/
def execPowerDownStep (s : State) : Host.Outcome State Fault Refusal := .next s.powerDownStep

end Sys2Proof.Machine
end

