-- ==== Sys2Proof/Machine/Dispatch.lean ====
section
/-! DEFINITION. The effect of a command on everything but the queue: one arm per command. -/
namespace Sys2Proof.Machine
open Sys2Proof

def exec (i : Instr) (s : State) : Host.Outcome State Fault Refusal :=
  match i with
  | .fn o => Sys2Proof.Machine.execFn o s
  | .cvt o => Sys2Proof.Machine.execCvt o s
  | .red o => Sys2Proof.Machine.execRed o s
  | .scan o => Sys2Proof.Machine.execScan o s
  | .sel o => Sys2Proof.Machine.execSel o s
  | .smxa o => Sys2Proof.Machine.execSmxa o s
  | .smxn o => Sys2Proof.Machine.execSmxn o s
  | .aresScore o => Sys2Proof.Machine.execAresScore o s
  | .aresRescale o => Sys2Proof.Machine.execAresRescale o s
  | .aresFinal o => Sys2Proof.Machine.execAresFinal o s
  | .normWhole o => Sys2Proof.Machine.execNormWhole o s
  | .normSum1 o => Sys2Proof.Machine.execNormSum1 o s
  | .normSum2 o => Sys2Proof.Machine.execNormSum2 o s
  | .normApply o => Sys2Proof.Machine.execNormApply o s
  | .xentStats o => Sys2Proof.Machine.execXentStats o s
  | .xentGrad o => Sys2Proof.Machine.execXentGrad o s
  | .rope o => Sys2Proof.Machine.execRope o s
  | .optAdamw o => Sys2Proof.Machine.execOptAdamw o s
  | .optMomentumSgd o => Sys2Proof.Machine.execOptMomentumSgd o s
  | .merge o => Sys2Proof.Machine.execMerge o s
  | .settle o => Sys2Proof.Machine.execSettle o s
  | .mint o => Sys2Proof.Machine.execMint o s
  | .fnsync o => Sys2Proof.Machine.execFnsync o s
  | .rollset o => Sys2Proof.Machine.execRollset o s
  | .setlen o => Sys2Proof.Machine.execSetlen o s
  | .assayOpen o => Sys2Proof.Machine.execAssayOpen o s
  | .assayClose o => Sys2Proof.Machine.execAssayClose o s
  | .assayRead o => Sys2Proof.Machine.execAssayRead o s
  | .assayFold o => Sys2Proof.Machine.execAssayFold o s
  | .assayAmread o => Sys2Proof.Machine.execAssayAmread o s
  | .assayAmclr o => Sys2Proof.Machine.execAssayAmclr o s
  | .sealing o => Sys2Proof.Machine.execSeal o s
  | .cfgRead o => Sys2Proof.Machine.execCfgRead o s
  | .cfgWrite o => Sys2Proof.Machine.execCfgWrite o s
  | .waitgc o => Sys2Proof.Machine.execWaitgc o s
  | .stmt o => Sys2Proof.Machine.execStmt o s
  | .tenant o => Sys2Proof.Machine.execTenant o s
  | .reservedOpcode code o => Sys2Proof.Machine.execReservedOpcode code o s
  | .slotDropped => Sys2Proof.Machine.execSlotDropped s
  | .issueAfterWait => Sys2Proof.Machine.execIssueAfterWait s
  | .escrowWatchdog tag => Sys2Proof.Machine.execEscrowWatchdog tag s
  | .beatReadStart => Sys2Proof.Machine.execBeatReadStart s
  | .beatWriteComplete => Sys2Proof.Machine.execBeatWriteComplete s
  | .hardCaseResolution => Sys2Proof.Machine.execHardCaseResolution s
  | .rowResult => Sys2Proof.Machine.execRowResult s
  | .commandRetirement => Sys2Proof.Machine.execCommandRetirement s
  | .curveInstall => Sys2Proof.Machine.execCurveInstall s
  | .curveSlotInvalidate => Sys2Proof.Machine.execCurveSlotInvalidate s
  | .rollSetEffect => Sys2Proof.Machine.execRollSetEffect s
  | .accPresentation beat => Sys2Proof.Machine.execAccPresentation beat s
  | .escrowDeclaration tag engine boxes claims => Sys2Proof.Machine.execEscrowDeclaration tag engine boxes claims s
  | .grant tag => Sys2Proof.Machine.execGrant tag s
  | .retirementReport tag => Sys2Proof.Machine.execRetirementReport tag s
  | .rollAcquire tag roll seq => Sys2Proof.Machine.execRollAcquire tag roll seq s
  | .rollPublish tag roll seq => Sys2Proof.Machine.execRollPublish tag roll seq s
  | .rollRelease tag roll seq => Sys2Proof.Machine.execRollRelease tag roll seq s
  | .rollWatchdog tag => Sys2Proof.Machine.execRollWatchdog tag s
  | .wAccess write line tag data => Sys2Proof.Machine.execWAccess write line tag data s
  | .nAccess write word be data => Sys2Proof.Machine.execNAccess write word be data s
  | .guardedNRequest => Sys2Proof.Machine.execGuardedNRequest s
  | .forcedScrubSteal => Sys2Proof.Machine.execForcedScrubSteal s
  | .idleScrub bank => Sys2Proof.Machine.execIdleScrub bank s
  | .correctionWriteback => Sys2Proof.Machine.execCorrectionWriteback s
  | .scratchpadClearDone failed => Sys2Proof.Machine.execScratchpadClearDone failed s
  | .partSend tag row => Sys2Proof.Machine.execPartSend tag row s
  | .flitReceive scope flit => Sys2Proof.Machine.execFlitReceive scope flit s
  | .ackReceive scope word => Sys2Proof.Machine.execAckReceive scope word s
  | .ackTimeout scope => Sys2Proof.Machine.execAckTimeout scope s
  | .settlementBufferTimeout => Sys2Proof.Machine.execSettlementBufferTimeout s
  | .syncPulse count => Sys2Proof.Machine.execSyncPulse count s
  | .syncPulseMissing => Sys2Proof.Machine.execSyncPulseMissing s
  | .fclkChange mhz => Sys2Proof.Machine.execFclkChange mhz s
  | .epochSwitch => Sys2Proof.Machine.execEpochSwitch s
  | .waitgcRelease => Sys2Proof.Machine.execWaitgcRelease s
  | .checkerRotationStep => Sys2Proof.Machine.execCheckerRotationStep s
  | .telemetrySample temp0 temp1 level => Sys2Proof.Machine.execTelemetrySample temp0 temp1 level s
  | .receiptWindowTest => Sys2Proof.Machine.execReceiptWindowTest s
  | .idleTimeout => Sys2Proof.Machine.execIdleTimeout s
  | .pwGrant => Sys2Proof.Machine.execPwGrant s
  | .laneGroupPowerStep => Sys2Proof.Machine.execLaneGroupPowerStep s
  | .residueMismatch site => Sys2Proof.Machine.execResidueMismatch site s
  | .checkerMismatch group => Sys2Proof.Machine.execCheckerMismatch group s
  | .laneTestComplete lanePasses checkerPasses => Sys2Proof.Machine.execLaneTestComplete lanePasses checkerPasses s
  | .tableRomParity rom => Sys2Proof.Machine.execTableRomParity rom s
  | .romScanPass mismatch => Sys2Proof.Machine.execRomScanPass mismatch s
  | .lockstepMismatch signals => Sys2Proof.Machine.execLockstepMismatch signals s
  | .signatureComplete => Sys2Proof.Machine.execSignatureComplete s
  | .noticeSigned => Sys2Proof.Machine.execNoticeSigned s
  | .frameRead eid frame => Sys2Proof.Machine.execFrameRead eid frame s
  | .frameWrite eid frame => Sys2Proof.Machine.execFrameWrite eid frame s
  | .frameCancel eid frame => Sys2Proof.Machine.execFrameCancel eid frame s
  | .transactionTimeout => Sys2Proof.Machine.execTransactionTimeout s
  | .rateWindow => Sys2Proof.Machine.execRateWindow s
  | .doorbell value => Sys2Proof.Machine.execDoorbell value s
  | .release value => Sys2Proof.Machine.execRelease value s
  | .driverWindowWrite offset value => Sys2Proof.Machine.execDriverWindowWrite offset value s
  | .odWrite path index sub value => Sys2Proof.Machine.execOdWrite path index sub value s
  | .switchGcWrite path value => Sys2Proof.Machine.execSwitchGcWrite path value s
  | .disarm path value => Sys2Proof.Machine.execDisarm path value s
  | .rotate path value => Sys2Proof.Machine.execRotate path value s
  | .keyGenerated => Sys2Proof.Machine.execKeyGenerated s
  | .keyrt => Sys2Proof.Machine.execKeyrt s
  | .receiptRelease path value => Sys2Proof.Machine.execReceiptRelease path value s
  | .rollRecordWrite path roll sub value => Sys2Proof.Machine.execRollRecordWrite path roll sub value s
  | .counterClear path value => Sys2Proof.Machine.execCounterClear path value s
  | .eventRingEnable path value => Sys2Proof.Machine.execEventRingEnable path value s
  | .statementRead path => Sys2Proof.Machine.execStatementRead path s
  | .eventPost => Sys2Proof.Machine.execEventPost s
  | .eventWriteDone failed => Sys2Proof.Machine.execEventWriteDone failed s
  | .coldReset => Sys2Proof.Machine.execColdReset s
  | .otpLoad straps => Sys2Proof.Machine.execOtpLoad straps s
  | .mbist report => Sys2Proof.Machine.execMbist report s
  | .romCheck failed => Sys2Proof.Machine.execRomCheck failed s
  | .laneSelfTest failed => Sys2Proof.Machine.execLaneSelfTest failed s
  | .keyGeneration => Sys2Proof.Machine.execKeyGeneration s
  | .keyGenerationTimeout => Sys2Proof.Machine.execKeyGenerationTimeout s
  | .warmReset => Sys2Proof.Machine.execWarmReset s
  | .warmStart straps => Sys2Proof.Machine.execWarmStart straps s
  | .testLogicReset => Sys2Proof.Machine.execTestLogicReset s
  | .idcode => Sys2Proof.Machine.execIdcode s
  | .bypass ir => Sys2Proof.Machine.execBypass ir s
  | .ijtagAccess instrument => Sys2Proof.Machine.execIjtagAccess instrument s
  | .frozenStateExit => Sys2Proof.Machine.execFrozenStateExit s
  | .powerDownStep => Sys2Proof.Machine.execPowerDownStep s

end Sys2Proof.Machine
end

