-- ==== Sys2Proof/Machine/Tick.lean ====
section
/-! DEFINITION. The passing of a TCLK cycle, which no row of the table commands (R227, R307, R353, R365, R366, R395, R419, R428; log 3). -/
namespace Sys2Proof.Machine
open Sys2Proof

/-- The access that a TCLK cycle begins with: the operator's next queued request, else the driver's (R346, R353; log 59). -/
def State.nextRequest (s : State) : State :=
  match s.mg.queue, s.mg.asked with
  | q :: qs, _ => (s.modMg fun m => { m with queue := qs, taken := true }).answerFrame q.1 q.2
  | [], f :: fs => (s.modMg fun m => { m with asked := fs, taken := true }).answerDriver f
  | [], [] => s.modMg fun m => { m with taken := false }

/-- The running FCLK cycles of a TCLK cycle counted, each under the limiter code of its own number (R377, R419). -/
def State.countCycles (s : State) (n : Nat) : State :=
  (upTo n).foldl (fun a i => a.bump (s.modTb fun t => { t with cycle := t.cycle + i }).limiter 1) s

/-- How many of the next n FCLK cycles the issue level lets a beat start in (R382). -/
def State.liveCycles (s : State) (n : Nat) : Nat :=
  ((upTo n).filter fun i => (s.modTb fun t => { t with cycle := t.cycle + i }).issueCycle).length

/-- One TCLK cycle passes: the counts advance, running FCLK cycles count under their limiter code, a stopped clock spoils the
window of the checkers, the ring ports have their cycle (log 41), and what waits for a cycle is served (R227, R307, R353, R395,
R419). -/
def State.tick (s : State) : State :=
  let t := s.tb.advance s.fclkRuns
  let n := t.cycle - s.tb.cycle
  let s := (s.countCycles n).modTb fun _ => { t with live := t.live + s.liveCycles n }
  let s := if s.pw.state = .run then s else s.modFt fun f => { f with ran := false }
  s.ringCycle.rollSetsDue.nextRequest

end Sys2Proof.Machine
end

