-- ==== Sys2Proof/Safety.lean ====
section
/-! DEFINITION. What a safe state is: the invariant that claims about every step use. -/
namespace Sys2Proof.Machine
open Sys2Proof

/-- The stores are in their canonical form: addresses rise, and no listed entry holds the value an unlisted one reads as. -/
def State.canonical (s : State) : Bool :=
  Memory.wf s.spad.mem && sparseFrom 0 0 s.spad.synd && sparseFrom 0 0 s.st.till && Memory.wf s.st.rowTab

/-- No two range entries of different commands stand in a hazard (R288). -/
def entriesApart (es : List Entry) : Bool := es.all fun e => es.all fun f => e.tag == f.tag || !(e.box.hazard f.box)

/-- The stores are canonical, the Ledger holds at most 4,096 entries (R407), at most 32 commands stand between issue and
retirement (R360), and at most 48 range entries are taken (R286), none in a hazard with another command's (R288). -/
def State.inv (s : State) : Bool :=
  s.canonical && decide (s.ledger.entries.length ≤ 4096) && decide (s.stream.inflight.length ≤ 32)
    && decide (s.escrow.entries.length ≤ 48) && entriesApart s.escrow.entries

/-- The queues keep to their sizes: the settlement buffer 256 payloads (R226), a replay buffer 64 flits, those on the link among them (R228),
the receipt store 128 receipts, the signing queue and the notice queue 64 each (R249, R252), the management port's queue 8 requests (R353), and
at most 16 event writes stand open (R431). -/
def State.bounded (s : State) : Bool :=
  let link (l : Link) : Bool := decide (l.replay.length ≤ 64) && decide (l.next ≤ l.replay.length)
  decide (s.setBuf.length ≤ 256) && link s.links.1 && link s.links.2
    && decide (s.prov.rcpt.entries.length ≤ 128) && decide (s.prov.rcpt.signQ.length ≤ 64) && decide (s.prov.rcpt.noticeQ.length ≤ 64)
    && decide (s.mg.queue.length ≤ 8) && decide (s.evOut.length ≤ 16)

end Sys2Proof.Machine
end

