-- ==== Sys2Proof/Certificates/Slice0/Obligations.lean ====
section
/-! DEFINITION. What is claimed of the model: statements for the provers, family by family. `exec c s = .next t` in a
conclusion says that the command completes, and `t = { s with f := t.f, … }` that it changes no other field. -/
namespace Sys2Proof.Claims
open Sys2Proof Sys2Proof.Machine

/-- A slot whose six OPCODE bits are `code` above the 26 bits of its row (R309, Table 12.1). -/
def slotWith (code : BitVec 6) (o : SlotOps) : Slot :=
  { words := (code ++ o.head) :: o.rest, epoch := o.epoch, tenant := o.tenant, priv := o.priv }

/-- The slot that a row of the command port offers, with the codes of Table 12.2. -/
def slotRow : Instr → Option Slot
  | .fn o => some (slotWith 0x01 o)
  | .cvt o => some (slotWith 0x02 o)
  | .red o => some (slotWith 0x03 o)
  | .scan o => some (slotWith 0x04 o)
  | .sel o => some (slotWith 0x05 o)
  | .smxa o => some (slotWith 0x06 o)
  | .smxn o => some (slotWith 0x07 o)
  | .aresScore o | .aresRescale o | .aresFinal o => some (slotWith 0x08 o)
  | .normWhole o | .normSum1 o | .normSum2 o | .normApply o => some (slotWith 0x09 o)
  | .xentStats o | .xentGrad o => some (slotWith 0x0A o)
  | .rope o => some (slotWith 0x0B o)
  | .optAdamw o | .optMomentumSgd o => some (slotWith 0x0C o)
  | .merge o => some (slotWith 0x0D o)
  | .settle o => some (slotWith 0x0E o)
  | .mint o => some (slotWith 0x10 o)
  | .fnsync o => some (slotWith 0x11 o)
  | .rollset o => some (slotWith 0x12 o)
  | .setlen o => some (slotWith 0x13 o)
  | .assayOpen o | .assayClose o | .assayRead o | .assayFold o | .assayAmread o | .assayAmclr o => some (slotWith 0x14 o)
  | .sealing o => some (slotWith 0x15 o)
  | .cfgRead o | .cfgWrite o => some (slotWith 0x16 o)
  | .waitgc o => some (slotWith 0x17 o)
  | .stmt o => some (slotWith 0x18 o)
  | .tenant o => some (slotWith 0x3F o)
  | .reservedOpcode code o => some (slotWith code o)
  | _ => none

/-- The unit has started, FCLK runs, and nothing waits at issue: issue looks at a slot in the cycle in which it comes. -/
abbrev atHead (s : State) : Prop := s.boot = .ready ∧ s.pw.state ≠ .halt ∧ s.stream.waiting = []

/-- The unit has started and FCLK runs. -/
abbrev started (s : State) : Prop := s.boot = .ready ∧ s.pw.state ≠ .halt

/-- The commands that act in the cycle of issue beyond taking their place (R123, R249, R334, R359, R388). -/
def actsAtIssue : List Op := [.setlen, .stmt, .mint, .tenant, .sealing]

/-- The entry of one box of a unit command (R286). -/
def entryOf (tag : W16) (b : Box) : Entry := { tag := tag, engine := 0, write := b.write, lo := b.lo, hi := b.hi }

/-- A command that has just issued: it has done nothing, and holds the mode set of its epoch (R312), the length and geometry registers of
`s` (R70, R134) and the counts of its descriptors' streams; what it does in the cycle of issue itself may add data and a fault. -/
def justIssued (s : State) (x : Slot) (m : Cmd) (d : Inflight) : Prop :=
  d = { Inflight.new x (s.modesOf x.epoch) s.regs s.tb.cycle s.escrow.watchdog.toNat (m.geo s.regs).beats with
    conflict := d.conflict, pieces := d.pieces, due := d.due
    settle := if m.op = .settle then
        List.replicate m.settleRows { sent := false, record := [], merged := [], final := none, settled := false } else []
    data := d.data, d0 := d.d0, d1 := d.d1, fault := d.fault, detail := d.detail }

/-- The escrow state of `s` after a command with a tag has issued that came in cycle `a`: the entries of its boxes (R286), its place in the
order of issue (R289), the wait counted. -/
def entered (s : State) (tag : W16) (a : Nat) (es : List Entry) : Escrow :=
  let all := s.escrow.entries ++ es
  { s.escrow with
    entries := all, order := s.escrow.order ++ [tag]
    highest := if s.escrow.highest.toNat < all.length then BitVec.ofNat 8 all.length else s.escrow.highest
    waited := satAdd s.escrow.waited (s.tb.cycle - a) }

/-- In `t` the command `m` of slot `x`, which came in cycle `a`, stands in flight as `d` behind the commands of `s`, with `rest` waiting at
issue; its boxes are entered, the slots of its roll operands are claimed in descriptor order (R299, R300), and nothing else of the
stream, the escrow or the rolls has changed. -/
def placed (s t : State) (x : Slot) (m : Cmd) (d : Inflight) (a : Nat := s.tb.cycle) (rest : List Waiting := []) : Prop :=
  justIssued s x m d
  ∧ t.stream = { s.stream with
      inflight := s.stream.inflight ++ [d], waiting := rest, claims := (s.claimAll x.tag m.rollOps).stream.claims }
  ∧ t.escrow = entered s x.tag a ((m.boxes s.regs).map (entryOf x.tag))
  ∧ t.rolls = (s.claimAll x.tag m.rollOps).rolls

/-- Among the commands in flight only the one with a tag has changed, to `d`; the rest of the stream is as it was. -/
def onlyCommand (s t : State) (tag : W16) (d : Inflight) : Prop :=
  t.stream = { s.stream with inflight := t.stream.inflight } ∧ t.stream.inflight.length = s.stream.inflight.length
  ∧ t.inflight? tag = some d ∧ ∀ g, g ≠ tag → t.inflight? g = s.inflight? g

/-- The writes that a command makes when it has new ones beside those it gathers (R267), and those it goes on gathering. -/
def written (c : Inflight) (ws : List Wr) : List Wr := (c.gather ++ ws).filter fun w => c.due.isEmpty || !c.gathers w
def kept (c : Inflight) (ws : List Wr) : List Wr := (c.gather ++ ws).filter fun w => !c.due.isEmpty && c.gathers w

/-- From `s` to `t` the scratchpad has taken the writes `ws` and nothing else: their bytes merged under their masks, written words out of
the correction queue (R280), and every other byte as it was. -/
def storesOnly (s t : State) (ws : List Wr) : Prop :=
  t.spad = { s.spad with mem := mergeBytes s.spad.mem ((memWrites ws).filter fun w => decide (w.1 < s.spadBytes)), wb := t.spad.wb }
  ∧ ∀ a, (∀ w ∈ memWrites ws, w.1 ≠ a) → Memory.read t.spad.mem a = Memory.read s.spad.mem a

/-- From `s` to `t` the stores of the lanes have changed only in the row-state table and in the Till lanes among the writes `ws`: no other Till
lane, no amax register, no assay, no curve slot. -/
def lanesOnly (s t : State) (ws : List Wr) : Prop :=
  t.st = { s.st with
    till := t.st.till, tillSynd := t.st.tillSynd, tillBad := t.st.tillBad
    rowTab := t.st.rowTab, rowSynd := t.st.rowSynd, rowBad := t.st.rowBad }
  ∧ ∀ i, (∀ w ∈ ws, ∀ e l v, w = Wr.till e l v → 256 * e + l ≠ i) → sparseGet 0 t.st.till i = sparseGet 0 s.st.till i

/-- From `s` to `t` the command with a tag has gone on as `d`: no other command, no claim and no roll but those that it writes has changed. -/
def commandOnly (s t : State) (tag : W16) (d : Inflight) : Prop :=
  t.stream = { s.stream with inflight := t.stream.inflight, claims := t.stream.claims }
  ∧ t.stream.inflight.length = s.stream.inflight.length
  ∧ t.inflight? tag = some d ∧ (∀ g, g ≠ tag → t.inflight? g = s.inflight? g)
  ∧ ((∀ x ∈ s.stream.claims, x.tag ≠ tag) → t.stream.claims = s.stream.claims ∧ t.rolls = s.rolls)

/-- The state as a command's `ACCPV` leaves the Ledger when it retires (R92). -/
def accNote (s : State) (c : Inflight) : State :=
  if c.accpv = 0 then s else s.log 0x0A01 c.tag (some c.slot.tenant) (leBytes 4 c.accpv.toNat)

/-- What one ring cycle puts on a link of which `l` is the transmitter at position `me` and `u` the transmitter after it (R227, R228, R230,
R427): TRAIN while the link is down, else the next flit that is sent again, else nothing while HOLD stands or the replay buffer is
full, else the oldest waiting flit under the next number, or an IDLE flit where none waits. The acknowledgement timer runs while
something is unacknowledged and HOLD is clear; the next word is still to be driven. -/
def oneFlit (me : Nat) (l u : Link) (b : Option (List Byte)) : Prop :=
  let l1 : Link := { l with quiet := if l.hold = true ∨ l.replay = [] then l.quiet else l.quiet + 1, sent := satAdd l.sent 1, worded := false }
  if l.down then b = some ((Flit.plain tTRAIN me).bytes 0) ∧ u = l1
  else if l.next < l.replay.length then b = l.replay[l.next]? ∧ u = { l1 with next := l.next + 1 }
  else if l.hold = true ∨ 64 ≤ l.replay.length then b = none ∧ u = { l1 with sent := l.sent }
  else
    let f := ((match l.queue with | [] => Flit.plain tIDLE me | q :: _ => Flit.ofBytes q) : Flit).bytes l.txSeq
    b = some f ∧ u = { l1 with queue := l.queue.drop 1, replay := l.replay ++ [f], next := l.next + 1, txSeq := l.txSeq + 1 }

/-- From `s` to `t` the unit has taken its own part in an abort of the `SETTLE` in flight `c` that it has found itself: the command carries the
code, an entry is logged, the settlement's buffered flits go, and an ABORT flit waits to be sent (R217), with the ROWS of the command (Table 8.4) and a
STRICT bit of 0, which is the model's choice (log 90). -/
def aborted (s t : State) (c : Inflight) (code : W16) (row : Nat) (detail : List Byte) : Prop :=
  let m := c.cmd
  let l := s.link m.scope
  onlyCommand s t c.tag { c with fault := some code }
  ∧ t.setBuf = s.setBuf.filter (fun b => !b.hasKey m.scope c.slot.tenant m.sid)
  ∧ t.link m.scope = { l with queue := l.queue ++
      [(Flit.abort code (BitVec.ofNat 16 row) (s.position m.scope) c.slot.tenant m.sid c.slot.epoch
        (BitVec.ofNat 16 m.settleRows)).bytes 0] }
  ∧ (∀ k, k ≠ m.scope → t.link k = s.link k)
  ∧ t.ledger = (s.log code c.tag (some c.slot.tenant) detail).ledger
  ∧ t = { s with stream := t.stream, setBuf := t.setBuf, links := t.links, ledger := t.ledger, evRings := t.evRings }

/-- From `u` to `t` the settled record `bs` of row `r` has taken its place at the `SETTLE` in flight `e`, under the unit's own MA: its destination
slots hold the state, closed where CLOSE asks for it, RSO and RES their records, the lines that stood there are kept as pre-images, and nothing
else changes (R151, R216, R219, R220). -/
def takesPlace (u t : State) (e : Inflight) (r : Nat) (bs : List Byte) (ma : W32) : Prop :=
  let m := e.cmd
  let x : RowSt := { RowSt.ofBytes bs with ma := ma, epoch := e.slot.epoch, state := 1 }
  let f := if m.rc.close then
      x.finish m.rnd e.modes.nonsat e.modes.inflim Config.closeEps Config.closeLambda true (0, 0)
    else (x, [])
  let ws := (match m.role? .rso with | some d => recordWrites d none r f.1.bytes | none => [])
    ++ (match m.role? .res with | some d => if m.rc.close then recordWrites d none r f.2 else [] | none => [])
  let l := e.rowLine m r
  storesOnly u t ws ∧ lanesOnly u t ws ∧ t.st.rowTab = (u.storeRow (e.dstLine m r) f.1).st.rowTab
  ∧ commandOnly u t e.tag { e.modRow r (fun w => { w with final := some (bs, ma), settled := true }) with
      since := u.tb.cycle, pre := e.pre ++ (upTo l.2).map fun i => (l.1 + i, u.rowLines (l.1 + i) 1)
      flags := e.flags.or (Flags.ofMask (f.1.status.toNat % 32)) }
  ∧ t = { u with stream := t.stream, st := t.st, spad := t.spad, act := t.act }

/-- A command without beats, conflicts, presentations and roll claims of its own. -/
def plain (s : State) (c : Inflight) : Prop :=
  c.beats = [] ∧ c.hard = [] ∧ c.conflict = none ∧ c.badRow = none ∧ c.accpv = 0 ∧ ∀ x ∈ s.stream.claims, x.tag ≠ c.tag

/-- From `u` to `t` a retirement of `c` has been counted: one command, and the pieces of one without beats, whose groups may slip (a free
value, log 48). -/
def counted (u t : State) (c : Inflight) : Prop :=
  t.act = ((if c.total = 0 then (u.bump 17 c.pieces.1.length).bump 18 c.pieces.2.length else u).bump 21 1).act
  ∧ t.spad = { u.spad with health := { u.spad.health with slips := t.spad.health.slips } }
  ∧ (c.total ≠ 0 ∨ c.pieces = ([], []) → t.spad = u.spad)

/-- From `u` to `t` the oldest command `c`, which was not refused at issue, has left the unit with a completion record: its entries go (R290),
its claims go, a command refused earlier takes the free place, its `ACCPV` is noted, the matrix engine's data are released (R94), and nothing
else changes but the digest's summary. `z` is the state before the step: what the step has logged since then stands in the order of R407. -/
def departs (u t : State) (c : Inflight) (cpl : BitVec 128) (z : State := u) : Prop :=
  t.stream = { u.stream with
      inflight := u.stream.inflight.drop 1 ++ u.stream.refused.take 1, refused := u.stream.refused.drop 1
      lastTag := if c.cmd.op = .tenant ∧ c.fault = none then 0xFFFF else c.tag, claims := t.stream.claims }
  ∧ ((∀ x ∈ u.stream.claims, x.tag ≠ c.tag) → t.stream.claims = u.stream.claims ∧ t.rolls = u.rolls)
  ∧ (∀ x, x.tag ≠ c.tag → (x ∈ t.stream.claims ↔ x ∈ u.stream.claims) ∨ x.tag = 0xFFFF)
  ∧ t.escrow = { u.escrow with
      entries := u.escrow.entries.filter fun e => e.tag != c.tag, order := u.escrow.order.filter fun g => g != c.tag }
  ∧ t.out = { u.out with cpl := u.out.cpl ++ [cpl], accRelease := u.out.accRelease + if c.takesAcc then 1 else 0 }
  ∧ t.prov.rcpt = u.prov.rcpt ∧ t.prov.keys = u.prov.keys
  ∧ t.pw = { u.pw with idleSince := u.tb.cycle } ∧ t.ft = { u.ft with tallyTags := u.ft.tallyTags.filter fun g => g != c.tag }
  ∧ t.ledger = ((accNote u c).cycleLog z).ledger ∧ t.evRings = (accNote u c).evRings ∧ counted u t c
  ∧ t = { u with
      stream := t.stream, escrow := t.escrow, rolls := t.rolls, prov := t.prov, pw := t.pw, act := t.act, spad := t.spad, out := t.out
      ft := t.ft, ledger := t.ledger, evRings := t.evRings }

/-- A completion record (Table 12.15). -/
def record (tag fault : W16) (status replays : Byte) (epoch : W16) (d0 d1 : W32) : BitVec 128 :=
  d1 ++ d0 ++ epoch ++ replays ++ status ++ fault ++ tag

/-- The completion record of a command as it stands, with a fault code and the two values of Table 12.16. -/
def completes (c : Inflight) (fault : W16) (d0 d1 : W32) : BitVec 128 :=
  record c.tag fault (BitVec.ofNat 8 c.statusByte) (c.replays.setWidth 8) c.slot.epoch d0 d1

/-- From `u`, where the change that is the event of `c` is made, to `t` the command has retired: as the oldest it has left with its completion
record, and behind older ones of `s` its entries have gone and its completion waits (R123, R129, R337; log 94). -/
def retires (s u t : State) (c : Inflight) : Prop :=
  let d : Inflight := { c with ready := true }
  (s.stream.inflight.head? ≠ some c → onlyCommand s t c.tag d
    ∧ t = { u with stream := t.stream, escrow := { s.escrow with entries := s.escrow.entries.filter fun e => e.tag != c.tag } })
  ∧ ∀ rest, s.stream.inflight = c :: rest → s.stopped c.tag = false → plain s c → c.writes = [] →
      departs { u with stream := { s.stream with inflight := d :: rest } } t d (completes d 0 d.d0 d.d1)

/-- A register of `SETLEN` by its code (R334). -/
def regOf (r : Regs) (code : Nat) : W32 :=
  if code < 4 then vecGet r.len code 0 else if code = 4 then r.gt else if code = 5 then r.gh else r.gw

/-- The steps of the unit that FCLK drives, beside the slots: those of the stream, of the escrow port, of the scratchpad and of the rings,
the events that GC sets against the stream, and the checks of the lanes. -/
def fclkDriven : Instr → Prop
  | .slotDropped | .issueAfterWait | .beatReadStart | .beatWriteComplete | .hardCaseResolution | .rowResult | .commandRetirement
  | .curveInstall | .curveSlotInvalidate | .rollSetEffect | .guardedNRequest | .correctionWriteback | .epochSwitch | .waitgcRelease
  | .idleTimeout | .laneGroupPowerStep | .settlementBufferTimeout | .receiptWindowTest => True
  | .accPresentation _ | .partSend _ _ | .escrowWatchdog _ | .rollWatchdog _ | .scratchpadClearDone _ | .idleScrub _
  | .wAccess _ _ _ _ | .nAccess _ _ _ _ | .escrowDeclaration _ _ _ _ | .grant _ | .retirementReport _ | .rollAcquire _ _ _
  | .rollPublish _ _ _ | .rollRelease _ _ _ | .flitReceive _ _ | .ackReceive _ _ | .ackTimeout _ | .residueMismatch _
  | .checkerMismatch _ | .laneTestComplete _ _ | .tableRomParity _ | .romScanPass _ | .lockstepMismatch _ | .mbist _ | .romCheck _
  | .laneSelfTest _ => True
  | _ => False

end Sys2Proof.Claims

open Sys2Proof Sys2Proof.Machine Sys2Proof.Claims

/-! ### The machine as a whole -/

/-- A step with a command at the front of the queue runs that command with the rest of the queue. -/
def Obligations.StepRunsFrontCommand : Prop :=
  ∀ (c : Instr) (rest : List Instr) (s : State), s.pending = c :: rest → step s = exec c { s with pending := rest }

/-- On an empty queue one TCLK cycle passes: Q counts by the level of TB_INC, V := max(V, Q), and a frozen view that Q exceeds tracks
it again (R366, R367). Each FCLK cycle that passes counts under the limiter code of its own number (R419), and so do those in which the issue level lets a beat start,
by which escrow waits are measured (log 95). Each ring port drives an acknowledgement word, unless the word of this cycle has answered a flit, and
sends one flit (R227, R228, R427): TRAIN on a link that is down, a flit
again, a new one or IDLE (Table 8.5), nothing while HOLD stands or the replay buffer is full; until the OTP is loaded it sends a zero word and
zero flits (R434, log 91). That this is what an empty queue does, that a ring cycle is a TCLK cycle, and that the next level of TB_INC is free, is
the model's choice (log 1, log 3, log 41). With no roll write and no request waiting, nothing else changes. -/
def Obligations.IdleStepIsOneTclkCycle : Prop :=
  ∀ s : State, s.pending = [] → s.escrow.sets = [] → s.mg.queue = [] → s.mg.asked = [] →
    let nth (k : Nat) : State := { s with tb := { s.tb with cycle := s.tb.cycle + k } }
    ∃ t, step s = .next t
      ∧ t.tb.q = s.tb.q + s.tb.inc.setWidth 64
      ∧ t.tb.v.toNat = max s.tb.v.toNat t.tb.q.toNat
      ∧ t.tb.state = (if s.tb.state = .frozen ∧ s.tb.v.toNat < t.tb.q.toNat then (if s.tb.gap = 0 then .aligned else .holdover) else s.tb.state)
      ∧ t.tb.tclk = s.tb.tclk + 1
      ∧ (s.pw.state = .halt → t.tb.cycle = s.tb.cycle)
      ∧ (s.pw.state ≠ .halt → 1000 * t.tb.cycle + t.tb.phase = 1000 * s.tb.cycle + s.tb.phase + s.tb.fmhz.toNat)
      ∧ (let n := t.tb.cycle - s.tb.cycle
         t.tb.live = s.tb.live + ((List.range n).filter fun k => (nth k).issueCycle).length
         ∧ ∀ i : Nat, i < 22 → vecGet t.act i 0 =
             satAdd (vecGet s.act i 0) ((List.range n).filter fun k => (nth k).limiter == i).length)
      ∧ (s.boot = .otpLoad → t.links = s.links ∧ t.out = { s.out with
          flits := s.out.flits ++ [(.cluster, List.replicate 80 0), (.die, List.replicate 80 0)]
          acks := s.out.acks ++ [(.cluster, 0), (.die, 0)] })
      ∧ (s.boot ≠ .otpLoad → s.pw.state = .halt → t.links = s.links ∧ t.out = s.out)
      ∧ (s.boot ≠ .otpLoad → s.pw.state ≠ .halt → let w := ackWord false s.holds 0 false
          ∃ a b, oneFlit (s.position .cluster) (s.link .cluster) (t.link .cluster) a ∧ oneFlit (s.position .die) (s.link .die) (t.link .die) b
            ∧ t.out = { s.out with
                flits := s.out.flits ++ (a.toList.map fun f => (Scope.cluster, f)) ++ b.toList.map fun f => (Scope.die, f)
                acks := s.out.acks ++ (if (s.link .cluster).worded then [] else [(.cluster, w)])
                  ++ if (s.link .die).worded then [] else [(.die, w)] })
      ∧ t = { s with
          tb := t.tb, act := t.act, ft := { s.ft with ran := s.ft.ran && s.pw.state == .run }, links := t.links, out := t.out
          mg := { s.mg with taken := false } }

/-- Every command answers a next state but one: FCLK outside the 600 to 2,000 MHz that the integrator keeps to (R432) breaks an obligation of the
surroundings, and that it ends the run is the model's choice (log 71). No command touches the queue, which is the model's own (log 1), or the
size of the scratchpad, and the count of free values drawn never falls (log 4). -/
def Obligations.CommandsAnswerAndKeepQueue : Prop :=
  ((∀ (f : BitVec 12) (s : State), f.toNat < 600 ∨ 2000 < f.toNat → exec (.fclkChange f) s = .fault (.brokenObligation "R432"))
  ∧ ∀ (c : Instr) (s : State), (∀ f, c = .fclkChange f → 600 ≤ f.toNat ∧ f.toNat ≤ 2000) → ∃ t, exec c s = .next t)
  ∧ ∀ (c : Instr) (s t : State), exec c s = .next t →
    t.pending = s.pending ∧ t.fixed.spadMiB = s.fixed.spadMiB ∧ s.free ≤ t.free

/-- Every step keeps the invariant: the stores stay canonical, the Ledger holds at most 4,096 entries (R407), at most 32 commands
stand between issue and retirement (R360), at most 48 range entries are taken (R286), and no two entries of different commands
stand in a hazard (R288). -/
def Obligations.EveryStepKeepsInvariant : Prop :=
  ∀ s t : State, s.inv = true → step s = .next t → t.inv = true

/-- The invariant holds right after reset, and every queue keeps to its size. -/
def Obligations.ResetMeetsInvariant : Prop := State.reset.inv = true ∧ State.reset.bounded = true

/-- Every step keeps the sizes of the queues, whatever state it finds: the settlement buffer holds at most 256 payloads (R226), a replay buffer at
most 64 flits with those on the link among them (R228), the receipt store 128 receipts and the signing and the notice queue 64 each (R249,
R253), the management port's queue 8 requests (R353), and at most 16 event writes stand open (R431). -/
def Obligations.EveryStepKeepsQueueSizes : Prop :=
  ∀ s t : State, s.bounded = true → step s = .next t → t.bounded = true

/-- While CMD_READY is low no slot is taken (R423), and in thermal halt FCLK stands: the steps that it drives, of the stream, the escrow port,
the scratchpad, the rings and the checks of the lanes, find the state as it was (R379, R383). -/
def Obligations.StoppedUnitKeepsState : Prop :=
  (∀ (c : Instr) (s : State), (slotRow c).isSome ∨ c = .slotDropped →
    (s.boot ≠ .ready ∨ s.pw.state = .halt ∨ ∃ x a y, Waiting.unit x a y ∈ s.stream.waiting) → exec c s = .next s)
  ∧ ∀ (c : Instr) (s : State), s.pw.state = .halt → fclkDriven c → exec c s = .next s

/-! ### Reset -/

/-- COLD_RESET keeps nothing but the OTP: every other field is as right after reset, whatever the unit was doing (R434). The
size is the design's; the queue, the record of outputs and the count of free values are the model's own (log 1, log 4, log 9). Values that the manual gives for cold reset: epochs, mode sets and schedule (R376, Tables 2.1 and 9.1), length and geometry
registers (R70, R134), amax registers (R64), curve slots (R132), rolls (R308), counters (R420), the active context (R387), the
watchdogs (R296, R303), telemetry and idle settings (Table 14.8) and the time state (R365). -/
def Obligations.ColdResetKeepsOnlyOtp : Prop :=
  (∀ s : State, exec .coldReset s = .next
    { State.reset with
      fixed := { State.reset.fixed with spadMiB := s.fixed.spadMiB, otp := s.fixed.otp }
      free := s.free, out := s.out, pending := s.pending })
  ∧ let s := State.reset
  s.ep.curEpoch = 0 ∧ s.ep.prevEpoch = 0 ∧ s.ep.armed = false
  ∧ s.ep.cur = s.ep.pend ∧ s.ep.cur = s.ep.prev
  ∧ s.ep.cur = { strict := false, rnd := .rne, nonsat := false, inflim := true, seed := 0, key := 0x5D2B97C43E81A6F3 }
  ∧ (∀ k : Nat, k < 4 → vecGet s.regs.len k 1 = 0) ∧ s.regs.gt = 0 ∧ s.regs.gh = 0 ∧ s.regs.gw = 0
  ∧ (∀ k : Nat, k < 16 → vecGet s.st.amax k 1 = 0 ∧ (vecGet s.st.curves k .default).st = .empty ∧ (s.roll k).enable = false
      ∧ (s.roll k).st = .disabled)
  ∧ (∀ k : Nat, k < 22 → vecGet s.act k 1 = 0)
  ∧ s.tn.active = 0 ∧ s.escrow.watchdog = 1048576 ∧ s.escrow.rollWatchdog = 1048576
  ∧ s.pw.stagger = 128 ∧ s.pw.set = { lateWin := 10000, cap := 2400, sleep := false, delay := 256, period := 10000 }
  ∧ s.tb.state = .notAligned ∧ s.spad.mem = [] ∧ s.ledger.entries = [] ∧ s.stream.inflight = [] ∧ s.escrow.entries = []

/-! ### Slots of the command port -/

/-- A slot that meets every check issues in the cycle in which it comes, whatever its row: it stands in flight behind the others with
the mode set of its epoch (R312) and the length and geometry registers of that moment (R70, R134), its boxes are entered (R286), the
slots of its roll operands are claimed (R300), the digest takes it in, and nothing else changes but what the command does in that very cycle, its entries in the order of R407:
nothing for FN to MERGE, FNSYNC, ROLLSET, ASSAY, CFG, WAITGC and a SETTLE without buffered flits; a SETTLE takes up its buffered flits in order
(R226); SETLEN, STMT, MINT, TENANT and SEAL have their own statements. So every row of the command port completes. ISSUE_AFTER_WAIT: a slot that
has waited issues in the same way, whatever its row, when its last hold clears, gated lanes awake by then (R381), and what waits behind it
stands as it was (R289). -/
def Obligations.SlotIssues : Prop :=
  let unbuffered (m : Cmd) (x : Slot) (s : State) : Prop := m.op = .settle → ∀ b ∈ s.setBuf, b.hasKey m.scope x.tenant m.sid = false
  let quiet (u : State) (d : Inflight) (m : Cmd) (x : Slot) : Prop :=
    (m.op ∉ actsAtIssue → unbuffered m x u → u.onIssue d m = u)
    ∧ (m.op = .settle → u.onIssue d m = u.takeBuffered x.tag u.setBuf)
  (∀ (c : Instr) (x : Slot) (m : Cmd) (s : State), slotRow c = some x → atHead s → s.decision x = .issue m →
    ∃ (u : State) (d : Inflight), exec c s = .next ((u.onIssue d m).cycleLog u) ∧ placed s u x m d ∧ d.fault = none ∧ quiet u d m x
      ∧ u.prov.rcpt = s.prov.rcpt ∧ u.prov.keys = s.prov.keys
      ∧ u = { s with stream := u.stream, escrow := u.escrow, rolls := u.rolls, prov := (s.receive x).prov })
  ∧ ∀ (x : Slot) (a : Nat) (y : Option (Nat × Nat)) (rest : List Waiting) (m : Cmd) (s : State), started s →
    let v : State := { s with pw := { s.pw with state := if s.pw.state = .gated ∧ s.waitCode x = 11 then .run else s.pw.state } }
    s.stream.waiting = .unit x a y :: rest → v.decision x = .issue m →
    ∃ (u : State) (d : Inflight), exec .issueAfterWait s = .next ((u.onIssue d m).cycleLog u) ∧ placed s u x m d a rest ∧ d.fault = none ∧ quiet u d m x
      ∧ u = { v with stream := u.stream, escrow := u.escrow, rolls := u.rolls }

/-- A slot that a check refuses is logged and stands in flight as a refused command, in stream order; it takes no entry and
does nothing else (R290, R314). RESERVED_OPCODE: one whose OPCODE is outside Table 12.2 is refused so with `ILLCM`, order 1 of Table 12.3, when
it comes to its turn, which a switch of the epoch puts off (R369, log 32). SLOT_DROPPED: a slot offered with CMD_NW of 0 is dropped, with one `ILLCM` entry and nothing else (R423).
ESCROW_WATCHDOG: a slot at the head of the stream that has waited out the count in force when its wait began is refused with `ESCTO`; the
refusal and the wait are counted, and it takes no entry (R290, R296). The count is of cycles in which the issue level lets a beat start, as
throttling slows it, and the entry gives it (DEDUCED, log 95). That this comes also while 32 commands stand in flight, behind which the
refused command then waits for its completion, is the model's reading of R360 (log 18); the context byte of entries without a context of
their own is the model's (log 16). -/
def Obligations.SlotFaultsAtIssue : Prop :=
  (∀ (c : Instr) (x : Slot) (code : W16) (detail : List Byte) (s : State), slotRow c = some x → atHead s →
    s.decision x = .fault code detail →
    ∃ (t : State) (d : Inflight), exec c s = .next t
      ∧ t.stream = { s.stream with inflight := s.stream.inflight ++ [d] }
      ∧ d.slot = x ∧ d.fault = some code ∧ d.refused = true ∧ d.beats = [] ∧ d.left = 0
      ∧ t.ledger = (s.log code x.tag (some x.tenant) detail).ledger
      ∧ t.prov.rcpt = s.prov.rcpt ∧ t.prov.keys = s.prov.keys
      ∧ t = { s with stream := t.stream, ledger := t.ledger, evRings := t.evRings, prov := t.prov })
  ∧ (∀ (code : BitVec 6) (o : SlotOps) (s : State), Op.ofCode code.toNat = none → atHead s → s.stream.inflight.length < 32 →
    s.ft.unit ≠ .offline → s.switches = false ∨ s.oldEpoch o.epoch = true → s.streamHeld = false → (∀ c ∈ s.stream.inflight, c.refused = true ∨ c.cmd.op ≠ .cfg) →
    ∃ (t : State) (d : Inflight), exec (.reservedOpcode code o) s = .next t
      ∧ t.stream = { s.stream with inflight := s.stream.inflight ++ [d] }
      ∧ d.slot = slotWith code o ∧ d.fault = some 0x0106 ∧ d.refused = true
      ∧ t.ledger = (s.log 0x0106 (slotWith code o).tag (some o.tenant) (illcmDetail 1 0xFF 0 0xFF)).ledger
      ∧ t = { s with stream := t.stream, ledger := t.ledger, evRings := t.evRings, prov := t.prov })
  ∧ (∀ s : State, s.boot = .ready → s.pw.state ≠ .halt → (∀ x a y, Waiting.unit x a y ∉ s.stream.waiting) →
    exec .slotDropped s = .next (s.log 0x0106 0xFFFF (some s.tn.active) (illcmDetail 1 0xFF 0 0xFF))
    ∧ ∀ t, exec .slotDropped s = .next t → t = { s with ledger := t.ledger, evRings := t.evRings })
  ∧ ∀ (x : Slot) (a : Nat) (y : Nat × Nat) (rest : List Waiting) (s : State), started s →
    s.stream.waiting = .unit x a (some y) :: rest → y.2 ≤ s.tb.live - y.1 →
    ∃ (t : State) (d : Inflight), exec (.escrowWatchdog x.tag) s = .next t
      ∧ t.stream = (if s.stream.inflight.length < 32 then { s.stream with waiting := rest, inflight := s.stream.inflight ++ [d] }
          else { s.stream with waiting := rest, refused := s.stream.refused ++ [d] })
      ∧ d.slot = x ∧ d.fault = some 0x0201 ∧ d.refused = true
      ∧ t.escrow = { s.escrow with refusals := satAdd s.escrow.refusals 1, waited := satAdd s.escrow.waited (s.tb.cycle - a) }
      ∧ t.ledger = (s.log 0x0201 x.tag (some x.tenant) (leBytes 2 (s.blockingTag (s.unitWaiter x)).toNat ++ [0, 0]
          ++ leBytes 4 (min (s.tb.live - y.1) 0xFFFFFFFF))).ledger
      ∧ t = { s with stream := t.stream, escrow := t.escrow, ledger := t.ledger, evRings := t.evRings }

/-- A slot that must wait stands at issue and takes nothing; at most it asks for the grant that wakes sleeping lanes (R289,
R382). A slot that comes behind a waiting declaration waits behind it in the same way, and asks for the grant at once; it does not count towards its own watchdog yet,
which is the model's choice (log 95). -/
def Obligations.SlotWaits : Prop :=
  let asks (s t : State) (x : Slot) : Prop := t.pw = { s.pw with greq := t.pw.greq } ∧ (s.pw.state ≠ .sleep → t.pw = s.pw)
    ∧ (s.pw.state = .sleep → t.pw.greq = (s.pw.greq || (x.decode (s.modesOf x.epoch)).any Cmd.needsLanes))
  (∀ (c : Instr) (x : Slot) (h : Hold) (s : State), slotRow c = some x → atHead s → s.decision x = .hold h →
    ∃ t since, exec c s = .next t
      ∧ t.stream = { s.stream with waiting := [.unit x s.tb.cycle since] }
      ∧ since = (if h = .escrow ∨ h = .counted then some (s.tb.live, s.escrow.watchdog.toNat) else none)
      ∧ asks s t x ∧ t.prov.rcpt = s.prov.rcpt ∧ t.prov.keys = s.prov.keys
      ∧ t = { s with stream := t.stream, pw := t.pw, prov := t.prov })
  ∧ ∀ (c : Instr) (x : Slot) (s : State), slotRow c = some x → started s → s.stream.waiting ≠ [] →
    (∀ x a y, Waiting.unit x a y ∉ s.stream.waiting) →
    ∃ t, exec c s = .next t ∧ t.stream = { s.stream with waiting := s.stream.waiting ++ [.unit x s.tb.cycle none] }
      ∧ asks s t x ∧ t = { s with stream := t.stream, pw := t.pw, prov := t.prov }

/-- The unit holds at most 32 unit commands between issue and retirement: no step adds one beyond. A 33rd command waits at issue, with limiter
code ISSUE (0x0A), whatever it is. The in-flight list of a Statement is therefore complete: it gives their number and the tag of each. -/
def Obligations.AtMost32CommandsInFlight : Prop :=
  (∀ s t : State, s.inv = true → step s = .next t → t.stream.inflight.length ≤ 32)
  ∧ (∀ (c : Instr) (x : Slot) (s : State), slotRow c = some x → atHead s → s.stream.inflight.length = 32 →
    ∃ t since, exec c s = .next t ∧ t.stream = { s.stream with waiting := [.unit x s.tb.cycle since] } ∧ t.waitCode x = 10)
  ∧ ∀ (only : Option (BitVec 3)) (s : State), s.inv = true →
    (s.statement only).getD 28 0 = BitVec.ofNat 8 s.stream.inflight.length
    ∧ ∀ (k : Nat) (c : Inflight), s.stream.inflight[k]? = some c → slice (s.statement only) (64 + 2 * k) 2 = leBytes 2 c.tag.toNat

/-- `SETLEN` writes VA into the register REGA and then VB into REGB, setting it or adding to it modulo 2^32, in the cycle of
issue; codes from 7 on write none, and no other register changes (R334). `STMT` captures the Statement in the cycle of issue, itself in flight,
and its completion value D0 says whether the unit is stalled or halted (R359); nothing else of the unit changes. That the Statement of a `STMT` covers
every context is the model's reading, unsafe for isolation (DEDUCED, log 66). -/
def Obligations.SetlenAndStmtActAtIssue : Prop :=
  (∀ (o : SlotOps) (m : Cmd) (s : State), atHead s → s.decision (slotWith 0x13 o) = .issue m → m.op = .setlen →
    ∃ (t : State) (d : Inflight), exec (.setlen o) s = .next t ∧ placed s t (slotWith 0x13 o) m d ∧ d.fault = none ∧ d.data = []
      ∧ (∀ k : Nat, k < 7 →
          let va := BitVec.ofNat 32 (bitsOf m.chain 95 64)
          let vb := BitVec.ofNat 32 (bitsOf m.chain 127 96)
          let one := if k = bitsOf m.chain 3 0 then (if m.chain.testBit 8 then regOf s.regs k + va else va) else regOf s.regs k
          regOf t.regs k = if k = bitsOf m.chain 7 4 then (if m.chain.testBit 9 then one + vb else vb) else one)
      ∧ t.prov.rcpt = s.prov.rcpt ∧ t.prov.keys = s.prov.keys
      ∧ t = { s with regs := t.regs, stream := t.stream, escrow := t.escrow, rolls := t.rolls, prov := t.prov })
  ∧ ∀ (o : SlotOps) (m : Cmd) (s : State), atHead s → s.decision (slotWith 0x18 o) = .issue m → m.op = .stmt →
    ∃ (t : State) (d d0 : Inflight), exec (.stmt o) s = .next t ∧ placed s t (slotWith 0x18 o) m d ∧ d.fault = none
      ∧ (let u : State := { t with stream := { t.stream with inflight := s.stream.inflight ++ [d0] } }
         d.data = u.statement none ∧ d.d0 = if u.stall = 0 then 0 else 1)
      ∧ d0 = { d with data := [], d0 := 0 }
      ∧ t.prov.rcpt = s.prov.rcpt ∧ t.prov.keys = s.prov.keys
      ∧ t = { s with stream := t.stream, escrow := t.escrow, rolls := t.rolls, prov := t.prov }

/-- `SEAL` puts one receipt into the store and behind the others into the signing queue: its RSEQ is the next one, its window
ends 5 ms after GC_SEAL, and its record carries RSEQ and GC_SEAL; D0 and D1 of the completion are the RSEQ (R249,
R253, Table 9.6). RSEQ counts from 1 (log 46). -/
def Obligations.SealQueuesReceipt : Prop :=
  ∀ (o : SlotOps) (m : Cmd) (s : State), atHead s → s.decision (slotWith 0x15 o) = .issue m → m.op = .sealing →
    ∃ (t : State) (d : Inflight) (e : Receipt), exec (.sealing o) s = .next t ∧ placed s t (slotWith 0x15 o) m d ∧ d.fault = none
      ∧ t.prov.rcpt = { s.prov.rcpt with
          entries := s.prov.rcpt.entries ++ [e], signQ := s.prov.rcpt.signQ ++ [e.rseq], rseq := s.prov.rcpt.rseq + 1 }
      ∧ e.rseq = s.prov.rcpt.rseq + 1 ∧ e.tenant = s.tn.active ∧ e.gcSeal = s.gc ∧ e.status = .queued ∧ e.confirmed = false
      ∧ e.deadline = s.gc + 5000000 ∧ e.sig = [] ∧ e.notice = []
      ∧ d.data = e.record ∧ d.d0 = e.rseq.setWidth 32 ∧ d.d1 = (e.rseq >>> 32).setWidth 32
      ∧ slice e.record 24 8 = leBytes 8 s.gc.toNat ∧ slice e.record 40 8 = leBytes 8 e.rseq.toNat
      ∧ t.prov.keys = s.prov.keys ∧ t.prov.epold = false
      ∧ t = { s with stream := t.stream, escrow := t.escrow, rolls := t.rolls, prov := t.prov }

/-- A `TENANT` clears, in the cycle of issue, the registers, rolls, curve slots, row states, amax registers, assays and digests
of the outgoing context and its settlement flits, and starts the clear of the scratchpad; epochs, receipts, keys, Ledger,
lane map and counters stay (R388, R389). -/
def Obligations.TenantClearsAtIssue : Prop :=
  ∀ (o : SlotOps) (m : Cmd) (s : State), atHead s → s.decision (slotWith 0x3F o) = .issue m → m.op = .tenant →
    ∃ (t : State) (d : Inflight), exec (.tenant o) s = .next t ∧ justIssued s (slotWith 0x3F o) m d
      ∧ t.stream = { s.stream with inflight := s.stream.inflight ++ [d], claims := [] } ∧ d.fault = none ∧ d.ready = false
      ∧ t.escrow = { entered s (slotWith 0x3F o).tag s.tb.cycle ((m.boxes s.regs).map (entryOf (slotWith 0x3F o).tag)) with sets := [] }
      ∧ t.regs = State.reset.regs ∧ t.rolls = State.reset.rolls
      ∧ t.st = { State.reset.st with till := s.st.till, tillSynd := s.st.tillSynd, tillBad := s.st.tillBad }
      ∧ t.prov = { s.prov with cur := Digest.closed, prev := Digest.closed }
      ∧ t.setBuf = s.setBuf.filter (fun b => (Flit.ofBytes b.flit).tenant != s.tn.active)
      ∧ t.spad = { s.spad with clearing := some .tenant, ptr := Vector.replicate 64 0 }
      ∧ t.mg = { s.mg with stmts := { s.mg.stmts with tenant := ([], 0) } }
      ∧ t = { s with stream := t.stream, escrow := t.escrow, rolls := t.rolls, prov := t.prov, regs := t.regs, st := t.st
                     setBuf := t.setBuf, mg := t.mg, spad := t.spad }

/-- `TENANT`, warm reset and cold reset set every curve slot to empty and every item of its record to its default: nothing of
a context's tables is left for the next. -/
def Obligations.CurvesClearedBetweenContexts : Prop :=
  let cleared (t : State) : Prop := ∀ k : Nat, k < 16 → vecGet t.st.curves k { Curve.default with st := .valid } =
    { st := .empty, src := 0, bytes := 0, nseg := 0, tableId := 0, crc := 0, installs := 0, gcLast := 0, image := [] }
  (∀ (o : SlotOps) (m : Cmd) (s : State), atHead s → s.decision (slotWith 0x3F o) = .issue m → m.op = .tenant →
      ∃ t, exec (.tenant o) s = .next t ∧ cleared t)
  ∧ (∀ s : State, s.boot.warmable = true → ∃ t, exec .warmReset s = .next t ∧ cleared t)
  ∧ (∀ s : State, ∃ t, exec .coldReset s = .next t ∧ cleared t)

/-! ### Beats and rows -/

/-- BEAT_READ_START: a beat that nothing holds and whose inputs read clean starts its read stage, for every command that has beats: the
beat is counted and stands behind the command's others with one element for each position that its segments cover and what its rows take
in, an accumulator presentation is taken up with it, the slots of its roll operands are taken first, and no other command, no memory, no Till
lane, no row state and no register changes (R67, R89, R90, R97, R301). That a beat slips some cycles is a free value (log 48). -/
def Obligations.BeatStartsReading : Prop :=
  ∀ (c : Inflight) (s : State),
    let m := c.cmd
    let g := m.geo c.regs
    let b := c.started
    let fresh := ((m.get .x).kind == .acc || (m.get .y).kind == .acc) && (g.pass b == 0 || !m.staged g)
    let rows := ((g.segs b).filter fun sg => g.startsRow b sg).map fun sg => sg.row
    let ins := s.rowIns c m g b
    let got := s.acquireAll (s.slotsNeeded c m g b)
    let u := got.1
    started s → s.pw.state = .run → s.nextBeat = some c → s.inflight? c.tag = some c → s.issueCycle = true →
    s.stopped c.tag = false → (∀ k, c.conflict = some k → k.read = true → b < k.beat) → s.beatHeld c m g b = false →
    (fresh = true → s.stream.acc ≠ none) → got.2 = true →
    s.spad.synd = [] → s.st.tillSynd = [] → s.st.rowSynd = [] → s.st.curveSynd = [] → s.st.tillBad = [] → s.st.rowBad = [] →
    (∀ k, m.curveSlot = some k → (vecGet s.st.curves k Curve.default).st = .valid) →
    (m.op = .opt → b = 0 → hpBad m.rc.alg m.rc.step (s.latchOf c m).1 = none) →
    badRecord c m (ins.filter fun x => rows.contains x.row) = none →
    ∃ (t : State) (d : Inflight), exec .beatReadStart s = .next t
      ∧ u.spad = s.spad ∧ u.st = s.st ∧ u.regs = s.regs ∧ u.escrow = s.escrow ∧ u.out = s.out
      ∧ u.stream = { s.stream with claims := u.stream.claims }
      ∧ ((∀ x ∈ s.stream.claims, x.tag ≠ c.tag) → u = s)
      ∧ t.stream = { u.stream with
          inflight := t.stream.inflight, acc := if fresh then none else s.stream.acc, lastStart := some s.tb.cycle }
      ∧ t.stream.inflight.length = s.stream.inflight.length
      ∧ t.inflight? c.tag = some d ∧ (∀ x, x ≠ c.tag → t.inflight? x = s.inflight? x)
      ∧ d = { c with
          since := s.tb.cycle, started := b + 1, left := c.left - 1, beats := d.beats
          recs := if m.rc.ld then ins.map fun x => (x.row, x.record) else []
          latch := d.latch, bcast := d.bcast, flags := if b = 0 then c.flags.or (s.latchOf c m).2 else c.flags
          pre := c.pre ++ s.preImages c m rows, opened := c.opened + rows.length
          accSeen := if fresh then c.accSeen + 1 else c.accSeen }
      ∧ (∃ es, d.beats = c.beats ++ [{ idx := b, elems := es, ins := ins }]
          ∧ es.map (fun e => (e.row, e.k, e.pos)) = ((g.segs b).map fun sg => (upTo sg.len).map fun i => (sg.row, sg.k + i, sg.pos + i)).flatten)
      ∧ t.act = ((((s.bump 19 (if fresh then 1 else 0)).bump 14 (if b = 0 ∧ m.op = .opt ∧ m.rc.alg = 0 then 5 else 0)).bump 12 1).bump 17
          (piecesAt c.pieces.1 b)).act
      ∧ t.spad = { s.spad with health := { s.spad.health with slips := t.spad.health.slips } }
      ∧ t = { u with stream := t.stream, act := t.act, spad := t.spad, ledger := (u.cycleLog s).ledger }

/-- BEAT_WRITE_COMPLETE: the oldest beat in flight completes its write stage: the bytes that its segments give are merged under their masks
into memory, those of a line that more beats write being gathered first (R267), the Till lanes that they name are written, and no other byte,
Till lane, amax register, assay, curve slot, other command, escrow entry or Ledger entry changes; row states change as its segments leave them
(R96). A beat with hard elements writes nothing yet and waits for the precise pipe (R109); the writes of a command that a bank conflict has
stopped are withheld, and what its beats raise and count still arises (R270). That the same holds of a command stopped by the loss of the unit is
the model's reading of R448 (DEDUCED, log 25). HARD_CASE_RESOLUTION: the oldest beat that waits there leaves the reorder queue of its lowest lane
group, whose pending elements are resolved (R109, R110); with its last group it completes in the same way (R112). That one step resolves all that a
group holds of the beat, the lowest group first, is the model's choice (log 93). -/
def Obligations.BeatCompletesItsWrites : Prop :=
  (∀ (c : Inflight) (b : Beat) (rest : List Beat) (s : State),
    started s → (s.stream.inflight.find? fun c => !c.beats.isEmpty) = some c → s.inflight? c.tag = some c → c.beats = b :: rest →
    s.stopped c.tag = false → s.queueFull = false → s.spad.synd = [] →
    let a0 : BeatAcc := { st := s, c := { c with beats := rest, since := s.tb.cycle }, ws := [], back := [], hard := 0, n := 0 }
    let a := if c.cmd.op = .merge then a0.mergeBeat c.cmd b.idx else a0.segments (s.flow c c.cmd) b ((c.cmd.geo c.regs).segs b.idx)
    let frame (t : State) (ws : List Wr) : Prop := t.st.rowTab = a.st.st.rowTab ∧ lanesOnly s t ws
      ∧ t.out = (if c.muted ∨ a.back = [] then s.out else { s.out with acc := s.out.acc ++ [a.back] })
      ∧ t = { s with stream := t.stream, st := t.st, spad := t.spad, rolls := t.rolls, out := t.out, act := t.act }
    (c.conflict = none → c.muted = false → a.hard = 0 → ∃ t, exec .beatWriteComplete s = .next t
      ∧ commandOnly s t c.tag { a.c with gather := kept a.c a.ws } ∧ storesOnly s t (written a.c a.ws) ∧ frame t (written a.c a.ws))
    ∧ (c.conflict = none ∨ c.fault ≠ none → a.hard ≠ 0 → ∃ t, exec .beatWriteComplete s = .next t
      ∧ commandOnly s t c.tag { a.c with hard := a.c.hard ++ [{ idx := b.idx, writes := a.ws, groups := a.hard }] }
      ∧ t.spad = s.spad ∧ t.rolls = s.rolls ∧ frame t [])
    ∧ (c.muted = true → c.fault ≠ none → a.hard = 0 → ∃ t, exec .beatWriteComplete s = .next t
      ∧ commandOnly s t c.tag { a.c with gather := [] } ∧ t.spad = s.spad ∧ t.rolls = s.rolls ∧ frame t []))
  ∧ ∀ (c : Inflight) (h : HardBeat) (hs : List HardBeat) (s : State),
    started s → (s.stream.inflight.find? fun c => !c.hard.isEmpty) = some c → c.hard = h :: hs → s.inflight? c.tag = some c →
    s.stopped c.tag = false →
    let left := h.groups &&& (h.groups - 1)
    let d : Inflight := { c with hard := hs, since := s.tb.cycle }
    (left ≠ 0 → ∃ t, exec .hardCaseResolution s = .next t
      ∧ onlyCommand s t c.tag { d with hard := { h with groups := left } :: hs } ∧ t = { s with stream := t.stream })
    ∧ (left = 0 → c.conflict = none → c.muted = false → s.spad.synd = [] → ∃ t, exec .hardCaseResolution s = .next t
      ∧ commandOnly s t c.tag { d with gather := kept d h.writes }
      ∧ storesOnly s t (written d h.writes) ∧ lanesOnly s t (written d h.writes) ∧ t.st.rowTab = s.st.rowTab
      ∧ t = { s with stream := t.stream, st := t.st, spad := t.spad, rolls := t.rolls })

/-- ROW_RESULT: a row whose beats are written, or that no beat reaches (C = 0), is finished: its command counts it, its state goes back to
its lines, and apart from the writes of the record no byte, no Till lane and no register changes; with LD = ST = 1 the store of the record is
kept for retirement (R150, R449, Table 6.3). With C = 0 the row's state is taken up first. A row of `FN` or `CVT` that expands with C = 0 is
written whole with its fill elements (R86). A command without beats whose descriptors clash faults with `BANKC` before its first row, and
nothing is written (R270).
The context byte of an entry is the model's (log 16). -/
def Obligations.RowResultIsWritten : Prop :=
  (∀ (c e : Inflight) (s : State), let m := c.cmd
    let u := s.emptyRow c m c.rowsDone
    started s → (s.stream.inflight.find? fun c => s.rowReady c) = some c → m.op.rows = true → s.spad.synd = [] →
    u.inflight? c.tag = some e → e.fault = none → e.conflict = none → c.conflict = none → e.muted = false →
    let l := e.rowLine m e.rowsDone
    let x := u.loadRow l.1 l.2
    let f := if m.rc.close then u.closeRow e m x e.rowsDone else (x, e, [])
    let y := { f.1 with epoch := e.slot.epoch }
    let st := if m.rc.st then recordWrites (m.get .rs) none e.rowsDone y.bytes else []
    let ws := f.2.2 ++ if m.rc.ld then [] else st
    let d : Inflight := { f.2.1 with
      rowsDone := e.rowsDone + 1, since := s.tb.cycle, flags := f.2.1.flags.or (Flags.ofMask (y.status.toNat % 32))
      counts := f.2.1.counts.filter fun z => z.1 != e.rowsDone, xund := f.2.1.xund || y.bit sXUND, xovr := f.2.1.xovr || y.bit sXOVR
      writes := f.2.1.writes ++ if m.rc.ld then st else [] }
    ∃ t : State, exec .rowResult s = .next t ∧ ((m.geo c.regs).c ≠ 0 → u = s)
      ∧ commandOnly u t c.tag { d with gather := kept d ws } ∧ d.gather = e.gather ∧ d.due = e.due
      ∧ t.st.rowTab = (u.storeRow l.1 y).st.rowTab ∧ storesOnly u t (written d ws) ∧ lanesOnly u t (written d ws)
      ∧ t.act = (u.bump 14 (m.closeCount e.modes.inflim x)).act
      ∧ t = { u with stream := t.stream, st := t.st, spad := t.spad, rolls := t.rolls, act := t.act, ledger := (u.cycleLog s).ledger })
  ∧ (∀ (c : Inflight) (s : State), let m := c.cmd
    started s → (s.stream.inflight.find? fun c => s.rowReady c) = some c → s.inflight? c.tag = some c → m.op.rows = false →
    c.conflict = none → c.muted = false → s.spad.synd = [] →
    let a := ({ st := s, c := c, ws := [], back := [], hard := 0, n := 0 } : BeatAcc).packRow (s.flow c m) c.rowsDone
      ((upTo (m.outLen c.regs)).map fun k => s.keepBit m c.regs c.rowsDone k)
    let d : Inflight := { a.c with rowsDone := c.rowsDone + 1, since := s.tb.cycle }
    ∃ t, exec .rowResult s = .next t ∧ commandOnly s t c.tag { d with gather := kept d a.ws } ∧ storesOnly s t (written d a.ws)
      ∧ lanesOnly s t (written d a.ws) ∧ t.st.rowTab = s.st.rowTab
      ∧ t = { s with stream := t.stream, st := t.st, spad := t.spad, rolls := t.rolls })
  ∧ ∀ (c : Inflight) (k : Conflict) (s : State),
    started s → (s.stream.inflight.find? fun c => s.rowReady c) = some c → s.inflight? c.tag = some c → c.total = 0 → c.conflict = some k →
    ∃ t, exec .rowResult s = .next t
      ∧ t.inflight? c.tag = some { c with fault := some 0x0103, detail := k.detail, muted := true, gather := [], writes := [] }
      ∧ (∀ g, g ≠ c.tag → t.inflight? g = s.inflight? g)
      ∧ t.stream = { s.stream with inflight := t.stream.inflight, acc := t.stream.acc }
      ∧ t.ledger = (s.log 0x0103 c.tag (some c.slot.tenant) k.detail).ledger
      ∧ t.spad = { s.spad with health := { s.spad.health with conflicts := satAdd s.spad.health.conflicts 1 } }
      ∧ t = { s with stream := t.stream, spad := t.spad, ledger := t.ledger, evRings := t.evRings }

/-! ### Numbers -/

/-- Every encoding of every format of Table 1.1 is read and written alike: the value of a code that is no NaN converts back to that
code, raising nothing, in every rounding mode and under either overflow mode (R13, R46, R47, Tables 1.2 to 1.6). -/
def Obligations.FormatCodesRoundTrip : Prop :=
  ∀ (f : Fmt) (nonsat : Bool) (rm : Rnd) (u c : Nat), c < 2 ^ f.bits → codeVal f c ≠ .nan →
    convert f nonsat rm u (codeVal f c) = { code := c, fl := {}, vanish := false, sat := false }

/-- A finite nonzero number within the range of a floating-point format is rounded correctly (R46, R47): under RNE to a nearest value of
the format, with an even code at a tie; under RTZ to the largest magnitude not above its own; under RUP and RDN to the next value on that
side. NX says that the value has changed, a result of zero counts as vanished, and nothing overflows or saturates. Block formats take the
number already divided by the scale (R60). -/
def Obligations.RoundingIsCorrect : Prop :=
  ∀ (f : Fmt) (nonsat : Bool) (rm : Rnd) (u : Nat) (q : Rat), f.isInt = false → q ≠ 0 → |q| ≤ f.maxQ → (f = .y8s → pow2 (-127) ≤ q) →
    let c := convert f nonsat rm u (.fin q)
    let v := (codeVal f c.code).toRat
    let finite (d : Nat) : Prop := d < 2 ^ f.bits ∧ codeVal f d ≠ .nan ∧ ∀ n, codeVal f d ≠ .inf n
    let value (d : Nat) : Rat := (codeVal f d).toRat
    finite c.code
      ∧ (c.fl.nx = true ↔ v ≠ q) ∧ (c.vanish = true ↔ v = 0) ∧ c.sat = false ∧ c.fl.ov = false ∧ c.fl.iv = false ∧ c.fl.dz = false
      ∧ (rm = .rne → ∀ d, finite d → |q - v| ≤ |q - value d|)
      ∧ (rm = .rne → f ≠ .y8s → ∀ d, finite d → |q - v| = |q - value d| → value d ≠ v → c.code % 2 = 0)
      ∧ (rm = .rtz → |v| ≤ |q| ∧ 0 ≤ v * q ∧ ∀ d, finite d → |value d| ≤ |q| → |value d| ≤ |v|)
      ∧ (rm = .rup → q ≤ v ∧ ∀ d, finite d → q ≤ value d → v ≤ value d)
      ∧ (rm = .rdn → v ≤ q ∧ ∀ d, finite d → value d ≤ q → value d ≤ v)

/-- Conversion into an integer format under RNE (R55): a number within half a step of the range gives a nearest integer, with NX when it is
another number; one outside gives the nearest end of the range with IV, and counts as saturated; an infinity gives the end on its side
in the same way, a NaN gives 0 with IV, and a zero gives 0. -/
def Obligations.IntegerConversionSaturates : Prop :=
  ∀ (f : Fmt) (nonsat : Bool) (u : Nat), f.isInt = true →
    let lo : Rat := f.range.1
    let hi : Rat := f.range.2
    let saturated (neg : Bool) : Conv := { code := intCode f (if neg then f.range.1 else f.range.2), fl := { iv := true }, vanish := false, sat := true }
    (∀ q : Rat, q ≠ 0 → lo - 1 / 2 ≤ q → q < hi + 1 / 2 →
      let c := convert f nonsat .rne u (.fin q)
      let i : Rat := intVal f c.code
      c.code < 2 ^ f.bits ∧ |q - i| ≤ 1 / 2 ∧ c = { code := c.code, fl := { nx := decide (i ≠ q) }, vanish := false, sat := false })
    ∧ (∀ q : Rat, q < lo - 1 / 2 → convert f nonsat .rne u (.fin q) = saturated true)
    ∧ (∀ q : Rat, hi + 1 / 2 ≤ q → convert f nonsat .rne u (.fin q) = saturated false)
    ∧ (∀ n : Bool, convert f nonsat .rne u (.inf n) = saturated n)
    ∧ convert f nonsat .rne u .nan = { code := 0, fl := { iv := true }, vanish := false, sat := false }
    ∧ ∀ n : Bool, convert f nonsat .rne u (.zero n) = { code := 0, fl := {}, vanish := false, sat := false }

/-- The ranking of Table 1.9 is a strict total order of values, highest first NaN, +∞, positive numbers, +0, −0, negative numbers, −∞;
maximum and minimum do not depend on the order of their operands and put +0 above −0 (R34, R35); and amax registers combine in any
order (R64, R65). -/
def Obligations.RankingAndExtremes : Prop :=
  let proper (a : Val) : Prop := a ≠ .fin 0
  (∀ a b c : Val, ranksAbove a b = true → ranksAbove b c = true → ranksAbove a c = true)
  ∧ (∀ a b : Val, ranksAbove a b = true → ranksAbove b a = false)
  ∧ (∀ a b : Val, proper a → proper b → a ≠ b → ranksAbove a b = true ∨ ranksAbove b a = true)
  ∧ (∀ p q : Rat, 0 < q → p < 0 → ranksAbove .nan (.inf false) ∧ ranksAbove (.inf false) (.fin q) ∧ ranksAbove (.fin q) (.zero false)
      ∧ ranksAbove (.zero false) (.zero true) ∧ ranksAbove (.zero true) (.fin p) ∧ ranksAbove (.fin p) (.inf true))
  ∧ (∀ p q : Rat, ranksAbove (.fin p) (.fin q) = true ↔ q < p)
  ∧ (∀ a b : Val, proper a → proper b → vmax a b = vmax b a ∧ vmin a b = vmin b a)
  ∧ (∀ a b : Val, proper a → proper b → a ≠ .nan → b ≠ .nan → (vmax a b = a ∨ vmax a b = b) ∧ ranksAbove a (vmax a b) = false
      ∧ ranksAbove b (vmax a b) = false ∧ (vmin a b = a ∨ vmin a b = b) ∧ ranksAbove (vmin a b) a = false ∧ ranksAbove (vmin a b) b = false)
  ∧ (∀ a : Val, vmax a .nan = .nan ∧ vmax .nan a = .nan ∧ vmin a .nan = .nan ∧ vmin .nan a = .nan)
  ∧ (∀ a b c : W64, amaxJoin a b = amaxJoin b a ∧ amaxJoin (amaxJoin a b) c = amaxJoin a (amaxJoin b c) ∧ amaxJoin a a = a)

/-! ### Ends of commands -/

/-- COMMAND_RETIREMENT of the oldest command with a fault. One refused at issue took no entry and leaves none; one that faulted later undoes
its row-state updates (R151) and releases every entry it held (R290); an amax register that it names still takes its partial, as the model
reads R65 (log 54). The completion carries TAG, the fault code, the status byte, the replay count, EPOCH and, of an element command, VANISH and
SATCNT (R337, R338, Table 12.15); beats with a valid bit outside its rows are logged as `ACCPV` with their count (R92; at retirement, log 55).
A refused command that waited for a place takes the one that is free (log 18).
The context byte of an entry is the model's (log 16). -/
def Obligations.FaultedCommandsRetire : Prop :=
  (∀ (c : Inflight) (rest : List Inflight) (k : W16) (s : State), started s → s.stream.inflight = c :: rest → c.fault = some k →
    c.ready = true → s.stopped c.tag = false →
    ∃ t, exec .commandRetirement s = .next t
      ∧ t.stream = { s.stream with inflight := rest ++ s.stream.refused.take 1, refused := s.stream.refused.drop 1, lastTag := c.tag }
      ∧ t.out = { s.out with cpl := s.out.cpl ++ [record c.tag k 0 0 c.slot.epoch 0 0] }
      ∧ t.escrow = s.escrow ∧ t.prov.rcpt = s.prov.rcpt ∧ t.prov.keys = s.prov.keys ∧ t.ledger = (accNote s c).ledger
      ∧ t.pw = { s.pw with idleSince := s.tb.cycle } ∧ t.act = (s.bump 21 1).act
      ∧ t = { s with stream := t.stream, prov := t.prov, pw := t.pw, act := t.act, out := t.out, ft := t.ft, ledger := t.ledger
                     evRings := t.evRings })
  ∧ ∀ (c : Inflight) (rest : List Inflight) (k : W16) (s : State), let m := c.cmd
    let u := s.undo c m
    started s → s.stream.inflight = c :: rest → c.fault = some k → c.ready = false → s.stopped c.tag = false → c.beats = [] → c.hard = [] →
    ∃ t, exec .commandRetirement s = .next t
      ∧ (c.pre = [] → m.op ≠ .settle → u = s)
      ∧ u.stream.inflight.length = s.stream.inflight.length ∧ u.stream.waiting = s.stream.waiting
      ∧ (∀ j : Nat, j < 16 → vecGet t.st.amax j 0 =
          if m.rc.amen ∧ j = m.rc.amsel then amaxJoin (if m.rc.amclr then 0 else vecGet s.st.amax j 0) c.amax else vecGet s.st.amax j 0)
      ∧ (let v : State := { u with st := { u.st with amax := t.st.amax } }
         departs v t c (completes c k (if m.counts then c.vanish else c.d0) (if m.counts then c.satcnt else c.d1)) s)

/-- COMMAND_RETIREMENT of an element command whose beats and rows are done and which meets no fault: its partials are combined into the
amax register and the assay that it names (R65, R244; that the register takes the partial at retirement, with AMCLR first, is the model's reading,
DEDUCED, log 54), the stores it kept are made (R449), its entries go (R290), its completion gives
VANISH and SATCNT (D0 and D1 of a `MERGE` or `ASSAY`), and no other byte of memory changes. The slots that its producing claims have filled are
published (R301).
The context byte of an entry is the model's (log 16). -/
def Obligations.ElementCommandRetires : Prop :=
  ∀ (c : Inflight) (rest : List Inflight) (s : State), let m := c.cmd
    let w := (s.acquireAll (s.allSlots c)).1.completeAll c
    started s → s.stream.inflight = c :: rest → c.fault = none → s.stopped c.tag = false → c.beats = [] → c.hard = [] →
    s.rowReady c = false → c.started = c.total → m.rowSteps c.regs ≤ c.rowsDone → c.conflict = none → c.badRow = none →
    m.elements = true → (m.op = .assay → c.writes = []) → (s.acquireAll (s.allSlots c)).2 = true → (c.writes = [] ∨ s.spad.synd = []) →
    ∃ t p, exec .commandRetirement s = .next t
      ∧ ((∀ x ∈ s.stream.claims, x.tag ≠ c.tag) → w = s)
      ∧ w.stream = { s.stream with claims := w.stream.claims } ∧ w.spad = s.spad ∧ w.st = s.st ∧ w.out = s.out
      ∧ (∀ k : Nat, k < 16 → vecGet t.st.amax k 0 =
          if m.rc.amen ∧ k = m.rc.amsel then amaxJoin (if m.rc.amclr then 0 else vecGet s.st.amax k 0) c.amax else vecGet s.st.amax k 0)
      ∧ (∀ k : Nat, k < 16 → vecGet t.st.assays k ⟨.idle, 0, 0⟩ =
          let a := vecGet s.st.assays k ⟨.idle, 0, 0⟩
          if (m.rc.aen ∨ m.op = .assay) ∧ k = m.rc.aacc then { a with value := a.value ^^^ c.asValue, count := satAdd a.count c.asCount.toNat }
          else a)
      ∧ ((∀ x ∈ c.writes, ∃ a n b, x = Wr.mem a n b) → t.st = { s.st with amax := t.st.amax, assays := t.st.assays })
      ∧ (let v : State := { w with st := t.st, spad := p }
         storesOnly w v c.writes
           ∧ departs v t c (completes c 0 (if m.counts then c.vanish else c.d0) (if m.counts then c.satcnt else c.d1)) s)

/-- COMMAND_RETIREMENT of an `ASSAY` at its place in the stream (Table 9.5): OPEN sets the accumulators of its mask to zero and open, CLOSE
closes those that are open, AMCLR zeroes amax registers, and READ and AMREAD write the accumulators' 16-byte slots or the registers' 8
bytes in increasing order to OUT, changing no other byte, and give their number in D0.
The context byte of an entry is the model's (log 16). -/
def Obligations.AssayCommandsRetire : Prop :=
  ∀ (c : Inflight) (rest : List Inflight) (s : State), let m := c.cmd
    let op := bitsOf m.chain 18 16
    let ks := maskBits (bitsOf m.chain 15 0)
    let old (k : Nat) : Assay := vecGet s.st.assays k ⟨.idle, 0, 0⟩
    started s → s.stream.inflight = c :: rest → c.fault = none → m.op = .assay → op ≤ 5 → op ≠ 3 → s.stopped c.tag = false →
    plain s c → c.started = c.total → s.spad.synd = [] → m.rc.aen = false → m.rc.amen = false →
    let bs := if op = 2 then (ks.map fun k => (old k).slot k).flatten
      else if op = 4 then (ks.map fun k => leBytes 8 (vecGet s.st.amax k 0).toNat).flatten else []
    ∃ t p, exec .commandRetirement s = .next t
      ∧ (∀ k : Nat, k < 16 → vecGet t.st.assays k ⟨.idle, 0, 0⟩ =
          if k ∈ ks ∧ op = 0 then ⟨.opened, 0, 0⟩
          else if k ∈ ks ∧ op = 1 ∧ (old k).st = .opened then { old k with st := .closed } else old k)
      ∧ (∀ k : Nat, k < 16 → vecGet t.st.amax k 0 = if k ∈ ks ∧ op = 5 then 0 else vecGet s.st.amax k 0)
      ∧ t.st = { s.st with assays := t.st.assays, amax := t.st.amax }
      ∧ (let v : State := { s with st := t.st, spad := p }
         storesOnly s v (recordWrites (m.get .out) none 0 bs)
           ∧ departs v t c (completes c 0 (if op = 2 ∨ op = 4 then BitVec.ofNat 32 ks.length else c.d0) c.d1))

/-- COMMAND_RETIREMENT of the commands that act at issue or by their own event, once that has come: a `SETLEN`, and a `MINT`, `FNSYNC` or `ROLLSET`
that has taken effect (R123, R129, R306, R334; log 94), leave with their completion alone; a `SEAL` and an `STMT` write the record or Statement
captured at issue to OUT, and no other byte (R249, R359); a `TENANT` whose clear is done makes the incoming context active, counts the change,
ends a breach of the outgoing context's floor, logs `TNCLR` with both contexts, the cycles since issue and the poisoned lines, and begins the
new context's digest ranges, while the last retired tag becomes 0xFFFF and the epochs stay as they are (R385, R387, R388). The context byte of
the entry is the model's (log 16). -/
def Obligations.UnitCommandsRetire : Prop :=
  ∀ (c : Inflight) (rest : List Inflight) (s : State), let m := c.cmd
    started s → s.stream.inflight = c :: rest → c.fault = none → s.stopped c.tag = false → plain s c → c.writes = [] →
    c.started = c.total → m.rowSteps c.regs ≤ c.rowsDone → s.rowReady c = false → m.rc.aen = false → m.rc.amen = false →
    (m.op = .setlen ∨ (m.op ∈ [Op.mint, Op.fnsync, Op.rollset] ∧ c.ready = true) →
      ∃ t, exec .commandRetirement s = .next t ∧ departs s t c (completes c 0 c.d0 c.d1))
    ∧ (m.op = .sealing ∨ m.op = .stmt → s.spad.synd = [] → ∃ t p, exec .commandRetirement s = .next t
      ∧ (let v : State := { s with spad := p }
         storesOnly s v (recordWrites (m.get .out) none 0 c.data) ∧ departs v t c (completes c 0 c.d0 c.d1)))
    ∧ (m.op = .tenant → c.ready = true → let new : BitVec 3 := BitVec.ofNat 3 m.chain
      let begun (x : Digest) (epoch : W16) : Digest := if x.live then x else Digest.begin s.gc new epoch
      ∃ t v, exec .commandRetirement s = .next t ∧ departs v t c (completes c 0 c.d0 c.d1) s
        ∧ v.tn.active = new ∧ v.tn.changes = satAdd s.tn.changes 1 ∧ v.pw = { s.pw with breach := none }
        ∧ v.prov = { s.prov with cur := begun s.prov.cur s.ep.curEpoch, prev := begun s.prov.prev s.ep.prevEpoch }
        ∧ (s.pw.breach = none → v.tn = { s.tn with active := new, changes := v.tn.changes }
          ∧ v.ledger = (s.log 0x0801 c.tag (some c.slot.tenant) ([BitVec.ofNat 8 s.tn.active.toNat, BitVec.ofNat 8 new.toNat, 0, 0]
              ++ leBytes 4 (min (s.tb.cycle - c.issued) 0xFFFFFFFF) ++ leBytes 4 c.d0.toNat)).ledger)
        ∧ v = { s with tn := v.tn, pw := v.pw, prov := v.prov, ledger := v.ledger, evRings := v.evRings })

/-- COMMAND_RETIREMENT of a `CFG`, which acts at its place in the stream, on the tenant path (R335): an accepted write, of its inline value or of
LEN bytes of DATA, has the whole effect that the item's write has (`State.odWrite`) and its completion gives D0 = 0 and D1 = LEN; an accepted
read writes the item's bytes to DATA; a refused access retires with `ODABT` and the abort code in D0, and a refused read stores nothing. The
access is counted as any other (Table 13.8), and nothing else changes. It is served when no access of the operator or the driver waits, which go
before it (R346, log 59). For words that read clean.
The context byte of an entry is the model's (log 16). -/
def Obligations.CfgRetires : Prop :=
  ∀ (c : Inflight) (rest : List Inflight) (s : State), let m := c.cmd
    let index := bitsOf m.chain 15 0
    let sub := bitsOf m.chain 23 16
    let len := bitsOf m.chain 44 32
    let val : W32 := BitVec.ofNat 32 len
    started s → s.mg.queue = [] → s.mg.asked = [] → s.stream.inflight = c :: rest → c.fault = none → c.ready = false → m.op = .cfg →
    s.stopped c.tag = false → plain s c → c.started = c.total → s.spad.synd = [] → s.stream.claims = [] →
    m.rc.aen = false → m.rc.amen = false →
    (m.chain.testBit 24 = true →
      let bytes := if m.chain.testBit 25 then padTo len (leBytes 8 (bitsOf m.chain 127 64)) else s.spad.readRow (m.get .data) none 0 len
      let r := s.odWrite .tenant index sub bytes
      ∃ t, exec .commandRetirement s = .next t
        ∧ (r.2 = 0 → departs (r.1.countAccess 0) t c (completes c 0 0 val) s)
        ∧ (r.2 ≠ 0 → let u := r.1.countAccess r.2
            departs (u.log 0x0701 c.tag (some c.slot.tenant) ([2, 0xFF, 0, 0] ++ leBytes 2 r.2.toNat)) t
              { c with fault := some 0x0701 } (completes c 0x0701 (r.2.setWidth 32) 0) s))
    ∧ (m.chain.testBit 24 = false →
      let r := s.odRead .tenant c.modes.strict index sub
      let e := cfgReadAbort index sub len r.2.1 r.2.2.length
      ∃ t p, exec .commandRetirement s = .next t
        ∧ (e = 0 → let v : State := { r.1.countAccess 0 with spad := p }
            storesOnly s v (recordWrites (m.get .data) none 0 (r.2.2.take len)) ∧ departs v t c (completes c 0 0 val) s)
        ∧ (e ≠ 0 → let u := r.1.countAccess e
            departs (u.log 0x0701 c.tag (some c.slot.tenant) ([2, 0xFF, 0, 0] ++ leBytes 2 e.toNat)) t
              { c with fault := some 0x0701 } (completes c 0x0701 (e.setWidth 32) 0) s))

/-- `MINT` stages its image at issue and checks it: one that breaks a rule of the curve image (R122) faults the command with
`CURVX`, and no curve slot changes before the install (R123). The image's bytes lie ESTRIDE + 1 bytes apart (R22). With words that all
read clean, no memory changes. CURVE_INSTALL fills the slot that a `MINT` names from its staged image, and CURVE_SLOT_INVALIDATE marks the
valid slots of an `FNSYNC`'s mask, each once no older command uses or still changes the slot; other slots stay as they were (R123, R129,
Table 5.2). The command retires with that change: the oldest command leaves in the same step, and of one behind older commands the entries go,
while its completion follows theirs (DEDUCED, log 94).
The context byte of an entry is the model's (log 16). -/
def Obligations.CurveSlotsChange : Prop :=
  (∀ (o : SlotOps) (m : Cmd) (s : State), atHead s → s.decision (slotWith 0x10 o) = .issue m → m.op = .mint → s.spad.synd = [] →
    let x := m.get .img
    ∃ (t : State) (d : Inflight), exec (.mint o) s = .next t ∧ placed s t (slotWith 0x10 o) m d
      ∧ (let img := s.spad.readRow x none 0 (x.len s.regs)
         (x.f = .u8 → x.trn = false → ∀ k : Nat, k < x.len s.regs → img.getD k 0 = Memory.read s.spad.mem (x.addr + k * (x.estride + 1)))
         ∧ if imageOk img (x.len s.regs) then d.fault = none ∧ d.data = img ∧ t.ledger = s.ledger
           else d.fault = some 0x0A02 ∧ ∃ detail, t.ledger = (s.log 0x0A02 (slotWith 0x10 o).tag (some o.tenant) detail).ledger)
      ∧ t.prov.rcpt = s.prov.rcpt ∧ t.prov.keys = s.prov.keys
      ∧ t = { s with stream := t.stream, escrow := t.escrow, rolls := t.rolls, prov := t.prov, ledger := t.ledger, evRings := t.evRings })
  ∧ (∀ (c : Inflight) (s : State), started s → s.awaiting .mint = some c → s.inflight? c.tag = some c →
    s.curveFree c.tag (c.cmd.chain % 16) = true →
    ∃ (t u : State), exec .curveInstall s = .next t ∧ retires s u t c
      ∧ (∀ k : Nat, k < 16 → vecGet t.st.curves k Curve.default =
          if k = c.cmd.chain % 16 then
            { st := .valid, src := BitVec.ofNat 32 (c.cmd.get .img).addr, bytes := BitVec.ofNat 16 c.data.length
              nseg := BitVec.ofNat 16 (leAt c.data 4 2), tableId := BitVec.ofNat 32 (leAt c.data 28 4)
              crc := BitVec.ofNat 32 (leAt c.data 60 4), installs := satAdd (vecGet s.st.curves k Curve.default).installs 1
              gcLast := s.gc, image := c.data }
          else vecGet s.st.curves k Curve.default)
      ∧ t.st = { s.st with curves := t.st.curves, curveSynd := s.st.curveSynd.filter fun e => e.1 / 8192 != c.cmd.chain % 16 }
      ∧ t.prov.rcpt = s.prov.rcpt ∧ t.prov.keys = s.prov.keys
      ∧ u = { s with st := t.st, prov := u.prov })
  ∧ ∀ (c : Inflight) (s : State), let ks := maskBits (bitsOf c.cmd.chain 15 0)
    started s → s.awaiting .fnsync = some c → s.inflight? c.tag = some c → (∀ k ∈ ks, s.curveFree c.tag k = true) →
    ∃ (t u : State), exec .curveSlotInvalidate s = .next t ∧ retires s u t c
      ∧ (∀ k : Nat, k < 16 → let v := vecGet s.st.curves k Curve.default
          vecGet t.st.curves k Curve.default = if k ∈ ks ∧ v.st = .valid then { v with st := .invalidated, gcLast := s.gc } else v)
      ∧ t.st = { s.st with curves := t.st.curves } ∧ u = { s with st := t.st }

/-- ROLL_SET_EFFECT gives a roll the fields of the oldest `ROLLSET` once no older command or claim uses the roll: its counts become
0 and it is active or disabled (R306). WAITGC_RELEASE lets a `WAITGC` go when the view has reached its target and no event that is due before it
waits (R369), gives the view in D0 and D1, and logs `LATEL` when the view has passed the target by more than the late window; one that is the
oldest command retires in the same cycle with that completion, one behind older commands once they have retired (R337, R370). The context byte
of entries is the model's (log 16). -/
def Obligations.RollSetAndWaitgcTakeEffect : Prop :=
  (∀ (c : Inflight) (s : State), let n := c.cmd.chain
    started s → s.awaiting .rollset = some c → s.inflight? c.tag = some c → s.rollUsed c.tag (bitsOf n 7 4) = false →
    ∃ (t : State) (d : Inflight), exec .rollSetEffect s = .next t ∧ t.inflight? c.tag = some d ∧ d = { c with ready := true }
      ∧ (∀ i : Nat, i < 16 → t.roll i = if i = bitsOf n 7 4 then
          { enable := n.testBit 0, base := BitVec.ofNat 32 (bitsOf n 127 96), slotb := BitVec.ofNat 32 (bitsOf n 95 64)
            nslot := BitVec.ofNat 16 (bitsOf n 63 48), overwrite := n.testBit 1, hseq := 0, tseq := 0
            st := if n.testBit 0 then .active else .disabled, rhead := 0, rtail := 0, dropped := 0, lastTag := (s.roll i).lastTag
            moved := [] }
          else s.roll i)
      ∧ (∀ x ∈ t.stream.claims, x.roll ≠ bitsOf n 7 4)
      ∧ t = { s with stream := t.stream, rolls := t.rolls })
  ∧ ∀ (c : Inflight) (s : State), let g := bitsOf c.cmd.chain 63 0
    let d : Inflight := { c with ready := true, d0 := s.gc.setWidth 32, d1 := (s.gc >>> 32).setWidth 32 }
    let logged (t : State) : Prop := t.ledger = (if s.pw.eff.lateWin.toNat < s.gc.toNat - g then
        (s.log 0x0502 c.tag (some c.slot.tenant) (leBytes 8 g ++ leBytes 8 s.gc.toNat)).ledger else s.ledger)
      ∧ t.prov.rcpt = s.prov.rcpt ∧ t.prov.keys = s.prov.keys
    started s → s.tb.state ≠ .notAligned → s.awaiting .waitgc = some c → s.inflight? c.tag = some c → g ≤ s.gc.toNat → s.behind g 6 = false →
    (s.stream.inflight.head? ≠ some c → ∃ t, exec .waitgcRelease s = .next t ∧ onlyCommand s t c.tag d ∧ logged t
      ∧ t = { s with stream := t.stream, ledger := t.ledger, evRings := t.evRings, prov := t.prov })
    ∧ ∀ rest, s.stream.inflight = c :: rest → s.stopped c.tag = false → plain s c → c.writes = [] →
      ∃ t v, exec .waitgcRelease s = .next t ∧ logged v ∧ departs v t d (completes d 0 d.d0 d.d1)
        ∧ v = { s with stream := { s.stream with inflight := d :: rest }, ledger := v.ledger, evRings := v.evRings, prov := v.prov }

/-- SCRATCHPAD_CLEAR_DONE: when the clear of a `TENANT` is done, every byte of the scratchpad reads as zero, the Till and the row-state table are
clear, every word but those of lines that failed twice is clean, and the command may retire with the number of poisoned lines in D0;
the clear of a warm reset leads to the ROM check (R281, R388, R441). -/
def Obligations.ScratchpadIsCleared : Prop :=
  ∀ (failed : List Nat) (who : ClearFor) (s : State), s.pw.state ≠ .halt → s.spad.clearing = some who →
    (who = .warm → s.boot = .warmClear) →
    ∃ t, exec (.scratchpadClearDone failed) s = .next t
      ∧ (∀ a, Memory.read t.spad.mem a = 0) ∧ t.spad.clearing = none ∧ t.spad.wb = []
      ∧ (∀ w, t.spad.syndrome w = if w / 8 ∈ failed ∧ w / 8 < 64 * s.bankRows then 0xFF else 0)
      ∧ (s.gc.toNat < s.spad.nextSteal.toNat → t.spad.nextSteal = s.spad.nextSteal)
      ∧ t.st = { s.st with till := [], tillSynd := [], tillBad := [], rowTab := [], rowSynd := [], rowBad := [] }
      ∧ t.boot = (if who = .warm then .warmRom else s.boot)
      ∧ (∀ c, who = .tenant → s.awaiting .tenant = some c → s.inflight? c.tag = some c →
          ∃ d, onlyCommand s t c.tag d
            ∧ d = { c with ready := true, d0 := BitVec.ofNat 32 (failed.filter fun l => decide (l < 64 * s.bankRows)).dedup.length })
      ∧ t.prov.rcpt = s.prov.rcpt ∧ t.prov.keys = s.prov.keys
      ∧ t = { s with boot := t.boot, spad := t.spad, st := t.st, stream := t.stream, ledger := t.ledger, evRings := t.evRings
                     prov := t.prov }

/-- ACC_PRESENTATION: a presentation of the matrix engine is taken when a command waits for one and none is held; one with every valid bit
clear is only counted (Table 16.6), and one with a valid bit outside the beat's elements counts for the `ACCPV` of its command, which is
logged once, when the command retires, with the number of such beats (R90, R91, R92). When a presentation is taken, and that `ACCPV` is logged once at
retirement, are the model's readings (DEDUCED, log 55). -/
def Obligations.AccPresentationIsTaken : Prop :=
  ∀ (beat : List (Option W32)) (c : Inflight) (b : Nat) (s : State), started s → s.stream.acc = none →
    (s.stream.inflight.findSome? fun c => c.accBeat.map fun b => (c, b)) = some (c, b) → s.stopped c.tag = false →
    let ps := beat.take 256
    let segs := (c.cmd.geo c.regs).segs b
    let outside := ∃ i w, ps[i]? = some (some w) ∧ ∀ g ∈ segs, ¬(g.pos ≤ i ∧ i < g.pos + g.len)
    ((∀ p ∈ ps, p = none) → exec (.accPresentation beat) s = .next (s.bump 20 1))
    ∧ ((∃ p ∈ ps, p ≠ none) → ¬ outside → exec (.accPresentation beat) s = .next { s with stream := { s.stream with acc := some ps } })
    ∧ (outside → s.inflight? c.tag = some c → ∃ t, exec (.accPresentation beat) s = .next t
        ∧ onlyCommand { s with stream := { s.stream with acc := some ps } } t c.tag { c with accpv := satAdd c.accpv 1 }
        ∧ t = { s with stream := t.stream })

/-! ### The escrow port and rolls -/

/-- ESCROW_DECLARATION: a declaration of another engine that breaks no rule is answered at once: GRANT with the first sequence number of each claim
when nothing holds it, its boxes entered, its slots claimed and its tag known; WAIT when something does, or when older ones wait; REFUSE with `ESCPV`
for more than ten boxes, an inverted box, an engine outside 1 to 4 or a tag in use, for a box that overlaps an enabled roll and for a claim on a
roll that is disabled or faulted; REFUSE with `RANGE` for a box beyond the scratchpad (R293, R295, R424, Table 11.2). The context byte of
entries is the model's (log 16). -/
def Obligations.DeclarationsAreAnswered : Prop :=
  ∀ (tag : W16) (engine : BitVec 3) (boxes : List BoxOp) (claims : List ClaimOp) (s : State), started s → s.ft.unit ≠ .offline →
    let bad := 10 < boxes.length ∨ (∃ b ∈ boxes, b.hi.toNat < b.lo.toNat) ∨ engine = 0 ∨ 4 < engine.toNat ∨ s.tagTaken tag = true
    let within := ∀ b ∈ boxes, 64 * b.hi.toNat < s.spadBytes
    let apart := ∀ b ∈ boxes, s.meetsRoll none (64 * b.lo.toNat) (64 * b.hi.toNat + 63) = false
    let open_ := s.stream.waiting = [] ∧ s.declHeld boxes claims = none
    let refused (code : W16) (t : State) : Prop := t.out = { s.out with esc := s.out.esc ++ [(tag, false, .refuse, [])] }
      ∧ (∃ detail, t.ledger = (s.log code tag (some s.tn.active) detail).ledger)
      ∧ t = { s with ledger := t.ledger, evRings := t.evRings, out := t.out }
    (bad ∨ (within ∧ ¬ apart) ∨ (within ∧ open_ ∧ s.badClaim claims ≠ none) →
      ∃ t, exec (.escrowDeclaration tag engine boxes claims) s = .next t ∧ refused 0x0202 t)
    ∧ (¬ bad → ¬ within → ∃ t, exec (.escrowDeclaration tag engine boxes claims) s = .next t ∧ refused 0x0104 t)
    ∧ (¬ bad → within → apart → open_ → s.badClaim claims = none →
        let u := s.claimEach tag claims
        ∃ t, exec (.escrowDeclaration tag engine boxes claims) s = .next t
          ∧ t.escrow = { entered s tag s.tb.cycle (boxes.map
              fun b => { tag := tag, engine := engine, write := b.write, lo := b.lo.toNat, hi := b.hi.toNat }) with
              engines := s.escrow.engines ++ [{ tag := tag, engine := engine }] }
          ∧ t.out = { s.out with esc := s.out.esc ++ [(tag, false, .grant, u.2)] }
          ∧ u.2.length = claims.length ∧ u.1.stream.claims.length = s.stream.claims.length + claims.length
          ∧ t.stream = { s.stream with claims := u.1.stream.claims } ∧ t.rolls = u.1.rolls
          ∧ t = { s with stream := t.stream, escrow := t.escrow, rolls := t.rolls, out := t.out })
    ∧ (¬ bad → within → apart → ¬ open_ →
        ∃ t since, exec (.escrowDeclaration tag engine boxes claims) s = .next t
          ∧ t.stream = { s.stream with waiting := s.stream.waiting ++ [.decl tag engine boxes claims s.tb.cycle since] }
          ∧ t.out = { s.out with esc := s.out.esc ++ [(tag, false, .wait, [])] }
          ∧ t = { s with stream := t.stream, out := t.out })

/-- GRANT: a declaration at the head of the stream is granted once nothing holds it, with its entries and the wait counted (R289, R424), unless
a roll that was enabled meanwhile meets one of its boxes or a roll that it claims was disabled or has faulted, when it is refused (R295). A
waiting acquire of an engine is granted once its slot is free or published (R301, R304). RETIREMENT_REPORT: a report releases every entry and
claim of its command, and one for a tag that holds none is logged as `ESCPV` (R293, Table 11.2). The context byte of entries is the model's
(log 16). -/
def Obligations.GrantsAndReports : Prop :=
  (∀ (tag : W16) (engine : BitVec 3) (boxes : List BoxOp) (claims : List ClaimOp) (a : Nat) (y : Option (Nat × Nat))
      (rest : List Waiting) (s : State), started s → s.ft.unit ≠ .offline →
    s.stream.waiting = .decl tag engine boxes claims a y :: rest → s.declHeld boxes claims = none →
    (s.rollBox boxes = none → s.badClaim claims = none →
      let u := s.claimEach tag claims
      ∃ t, exec (.grant tag) s = .next t
        ∧ t.stream = { s.stream with waiting := rest, claims := u.1.stream.claims } ∧ t.rolls = u.1.rolls
        ∧ t.escrow = { entered s tag a (boxes.map
            fun b => { tag := tag, engine := engine, write := b.write, lo := b.lo.toNat, hi := b.hi.toNat }) with
            engines := s.escrow.engines ++ [{ tag := tag, engine := engine }] }
        ∧ t.out = { s.out with esc := s.out.esc ++ [(tag, false, .grant, u.2)] }
        ∧ t = { s with stream := t.stream, escrow := t.escrow, rolls := t.rolls, out := t.out })
    ∧ (s.rollBox boxes ≠ none ∨ s.badClaim claims ≠ none →
      ∃ t detail, exec (.grant tag) s = .next t ∧ t.stream = { s.stream with waiting := rest }
        ∧ t.escrow = { s.escrow with waited := satAdd s.escrow.waited (s.tb.cycle - a) }
        ∧ t.out = { s.out with esc := s.out.esc ++ [(tag, false, .refuse, [])] }
        ∧ t.ledger = (s.log 0x0202 tag (some s.tn.active) detail).ledger
        ∧ t = { s with stream := t.stream, escrow := t.escrow, ledger := t.ledger, evRings := t.evRings, out := t.out }))
  ∧ (∀ (tag : W16) (x : Claim) (s : State), started s → s.stream.waiting = [] →
    (s.stream.claims.find? fun c => c.tag == tag && c.since.isSome && (s.escrow.engines.any fun e => e.tag == tag)) = some x →
    let r := s.roll x.roll
    let seq := x.seq x.acquired
    r.st = .active → (x.produce = false ∨ r.overwrite = false) →
    (if x.produce then (seq - r.tseq).toInt < r.nslot.toNat else 0 < (r.hseq - seq).toInt) →
    ∃ t, exec (.grant tag) s = .next t
      ∧ t.stream = { s.stream with
          claims := updateFirst (fun d => d == x) (fun d => { d with acquired := d.acquired + 1, since := none }) s.stream.claims }
      ∧ t.out = { s.out with esc := s.out.esc ++ [(tag, true, .grant, [])] }
      ∧ t = { s with stream := t.stream, out := t.out })
  ∧ (∀ (tag : W16) (s : State), started s → (∃ e ∈ s.escrow.engines, e.tag = tag) →
    ∃ t, exec (.retirementReport tag) s = .next t
      ∧ t.escrow = { s.escrow with
          entries := s.escrow.entries.filter fun e => e.tag != tag, engines := s.escrow.engines.filter fun e => e.tag != tag
          order := s.escrow.order.filter fun g => g != tag }
      ∧ t.stream = { s.stream with claims := t.stream.claims }
      ∧ (∀ x, x.tag ≠ tag → (x ∈ t.stream.claims ↔ x ∈ s.stream.claims) ∨ x.tag = 0xFFFF)
      ∧ ((∀ x ∈ s.stream.claims, x.tag ≠ tag) → t.stream.claims = s.stream.claims ∧ t.rolls = s.rolls)
      ∧ t = { s with stream := t.stream, escrow := t.escrow, rolls := t.rolls })
  ∧ ∀ (tag : W16) (s : State), started s → (∀ e ∈ s.escrow.engines, e.tag ≠ tag) →
    ∃ t detail, exec (.retirementReport tag) s = .next t ∧ t = s.log 0x0202 tag (some s.tn.active) detail

/-- Another engine takes, publishes and releases the slots of its claims in order (R297, R301, R304, R305). ROLL_ACQUIRE: granted to a
producer whose next slot is free and to a consumer whose next slot is published; it waits otherwise, and one that fits no claim is refused and
moves nothing. In overwrite mode a producer whose next slot is not free drops the oldest published slot that no consumer holds: TSEQ, and a
reserved tail behind it, advance past it and the drop is counted (R305). ROLL_PUBLISH of the oldest slot held moves HSEQ past every slot that
is complete in order; ROLL_RELEASE moves TSEQ up to the first slot that a consumer has still to release. ROLL_WATCHDOG: a claim that has
waited for one slot beyond the count faults its roll: `ROLLO` for a producer, `ROLLU` for a consumer, with the tag; the roll keeps its counts
and, when it is faulted already, its code, and the command of the unit that waits faults, unless it has faulted already, or the engine is
answered TIMEOUT (R303). Where slots are placed in overwrite mode and that TSEQ passes older held slots (log 27), that a faulted roll keeps counts and
code (log 28), and the order and matching of reports (log 29) are DEDUCED readings. The context byte of entries is the model's (log 16). -/
def Obligations.RollReportsMoveSlots : Prop :=
  (∀ (tag : W16) (roll : BitVec 4) (seq : W32) (s : State), started s →
    let i := roll.toNat
    let r := s.roll i
    let asks (x : Claim) : Bool := decide (x.acquired < x.n) && x.since.isNone && seq == x.seq x.acquired
    let fills (x : Claim) : Bool := x.produce && decide (x.done < x.acquired) && seq == x.seq x.done
    let frees (x : Claim) : Bool := !x.produce && decide (x.done < x.n) && seq == x.seq x.done
      && (decide (x.done < x.acquired) || r.published seq)
    let grants (t : State) : Prop := t.out = { s.out with esc := s.out.esc ++ [(tag, true, .grant, [])] }
    let changed (x : Claim) (f : Claim → Claim) : List Claim := updateFirst (fun d => d == x) f s.stream.claims
    r.enable = true → r.st = .active →
    (∀ x, s.engineClaim tag roll asks = some x →
      let open_ := if x.produce then (seq - r.tseq).toInt < r.nslot.toNat else 0 < (r.hseq - seq).toInt
      let took := changed x fun d => { d with acquired := d.acquired + 1, since := none }
      (open_ → x.produce = false ∨ r.overwrite = false → ∃ t, exec (.rollAcquire tag roll seq) s = .next t ∧ grants t
        ∧ t.stream.claims = took ∧ t = { s with stream := { s.stream with claims := t.stream.claims }, out := t.out })
      ∧ (open_ → x.produce = true → r.overwrite = true → (r.settle s.stream.claims i seq).isSome →
        ∃ t, exec (.rollAcquire tag roll seq) s = .next t ∧ grants t ∧ t.stream.claims = took
          ∧ t.roll i = { r with moved := (t.roll i).moved } ∧ some ((t.roll i).place seq) = r.settle s.stream.claims i seq
          ∧ t = { s with stream := { s.stream with claims := t.stream.claims }, rolls := t.rolls, out := t.out })
      ∧ (∀ n p, ¬ open_ → x.produce = true → r.overwrite = true →
        r.oldestUnheld (r.heldSlots s.stream.claims i) (r.nslot.toNat + 1) r.tseq = some n →
        let q : Roll := { r with
          tseq := n + 1, rtail := if 0 < ((n + 1) - r.rtail).toInt then n + 1 else r.rtail, dropped := satAdd r.dropped 1 }
        q.settle s.stream.claims i seq = some p →
        r.published n = true ∧ r.place n ∉ r.heldSlots s.stream.claims i
        ∧ ∃ t, exec (.rollAcquire tag roll seq) s = .next t ∧ grants t ∧ t.stream.claims = took
          ∧ t.roll i = { q with moved := (t.roll i).moved } ∧ (t.roll i).place seq = p ∧ (∀ j : Nat, j ≠ i → t.roll j = s.roll j)
          ∧ t = { s with
              stream := { s.stream with claims := t.stream.claims }, rolls := t.rolls, out := t.out, ledger := t.ledger
              evRings := t.evRings })
      ∧ (¬ open_ → x.produce = false ∨ r.overwrite = false → ∃ t, exec (.rollAcquire tag roll seq) s = .next t
        ∧ t = { s with stream := { s.stream with claims := changed x fun d => { d with since := some s.tb.cycle } } }))
    ∧ (∀ x, s.engineClaim tag roll fills = some x →
      let cs := changed x fun d => { d with done := max d.done (x.done + 1) }
      ∃ t, exec (.rollPublish tag roll seq) s = .next t ∧ grants t
        ∧ (∀ j : Nat, j ≠ i → t.roll j = s.roll j)
        ∧ t.roll i = { r with hseq := advanceHead cs i (cs.foldl (fun a c => a + c.n) 0 + 1) r.hseq }
        ∧ t = { s with stream := { s.stream with claims := t.stream.claims }, rolls := t.rolls, out := t.out })
    ∧ (∀ x, s.engineClaim tag roll frees = some x →
      let cs := changed x fun d => { d with acquired := max d.acquired (d.done + 1), done := d.done + 1 }
      let next := consumerFloor cs i r.rtail
      ∃ t, exec (.rollRelease tag roll seq) s = .next t ∧ grants t ∧ t.stream.claims = cs
        ∧ (∀ j : Nat, j ≠ i → t.roll j = s.roll j)
        ∧ t.roll i = { r with tseq := if 0 < (next - r.tseq).toInt then next else r.tseq }
        ∧ t = { s with stream := { s.stream with claims := t.stream.claims }, rolls := t.rolls, out := t.out })
    ∧ (s.engineClaim tag roll asks = none →
      ∃ t, exec (.rollAcquire tag roll seq) s = .next t
        ∧ t.out = { s.out with esc := s.out.esc ++ [(tag, true, .refuse, [])] }
        ∧ t = { s with ledger := t.ledger, evRings := t.evRings, out := t.out }))
  ∧ (∀ (tag : W16) (c : Inflight) (s : State), s.inflight? tag = some c → c.fault ≠ none → exec (.rollWatchdog tag) s = .next s)
  ∧ ∀ (tag : W16) (x : Claim) (y : Nat) (s : State), started s → x ∈ s.stream.claims → x.tag = tag → x.since = some y → x.roll < 16 →
    s.escrow.rollWatchdog.toNat ≤ s.tb.cycle - y → (∀ z ∈ s.stream.claims, z.tag = tag → z = x ∨ z.since = none) →
    (∀ c, s.inflight? tag = some c → c.fault = none) →
    let code : W16 := if x.produce then 0x0204 else 0x0203
    ∃ t, exec (.rollWatchdog tag) s = .next t
      ∧ (∀ i : Nat, i < 16 → t.roll i = if i = x.roll then
          { s.roll i with
            st := if (s.roll i).st = .faultedU ∨ (s.roll i).st = .faultedO then (s.roll i).st
              else if x.produce then .faultedO else .faultedU
            lastTag := tag }
        else s.roll i)
      ∧ (∀ c, s.inflight? tag = some c →
          ∃ d, t.inflight? tag = some d ∧ d.fault = some code ∧ t.out = s.out
            ∧ (∃ detail, t.ledger = (s.log code tag (some c.slot.tenant) detail).ledger))
      ∧ (s.inflight? tag = none → t.out = { s.out with esc := s.out.esc ++ [(tag, true, .timeout, [])] }
          ∧ t.stream.inflight = s.stream.inflight ∧ ∃ detail, t.ledger = (s.log code tag (some s.tn.active) detail).ledger)
      ∧ t = { s with stream := t.stream, rolls := t.rolls, ledger := t.ledger, evRings := t.evRings, out := t.out }

/-! ### The scratchpad's common side -/

/-- W_ACCESS: a wide write inside write boxes of its command stores its 512 bytes from the line's first byte and no other byte; a wide read
gives the 512 bytes that stand there and changes none; an access that leaves the boxes is `ESCPV` and one beyond the scratchpad
is `RANGE`, both answered with status 1 and zero data and without effect (R264, R265, R294). One whose banks a guarded narrow request, a due
steal or a correction write-back takes first waits (Table 10.2). N_ACCESS: a narrow write stores the bytes that its byte enables select and no
other; a narrow read gives the word; one beyond the scratchpad is `RANGE` (R264, R265). A request that meets a clear, a due steal, a write-back
or a wide access of its bank waits; GUARDED_N_REQUEST: one that has waited 32 cycles becomes guarded (Table 10.2). For words that all read
clean. The context byte of entries is the model's (log 16). -/
def Obligations.ScratchpadAccesses : Prop :=
  (∀ (write : Bool) (line : BitVec 21) (tag : W16) (data : List Byte) (s : State), started s → s.spad.clearing = none →
    s.spad.synd = [] → Memory.wf s.spad.mem = true →
    let a := 64 * line.toNat
    let z : List Byte := List.replicate 512 0
    let at_ : Option (Nat × Nat) := some (s.tb.cycle, line.toNat)
    let answers (t : State) (st : BitVec 2) (bs : List Byte) : Prop := t.out = { s.out with spw := s.out.spw ++ [(st, bs)] }
    let held := s.guardedIn line.toNat = true ∨ s.bankTaken (8 * line.toNat) 64 = true
    (held → exec (.wAccess write line tag data) s = .next s)
    ∧ (¬ held → a + 512 ≤ s.spadBytes → s.declared write line.toNat tag = true →
      ∃ t, exec (.wAccess write line tag data) s = .next t
        ∧ answers t 0 (if write then z else (upTo 512).map fun i => Memory.read s.spad.mem (a + i))
        ∧ (∀ x, Memory.read t.spad.mem x = if write ∧ a ≤ x ∧ x < a + 512 then (padTo 512 data).getD (x - a) 0
            else Memory.read s.spad.mem x)
        ∧ t = { s with spad := { s.spad with mem := t.spad.mem, wAt := at_ }, out := t.out })
    ∧ (¬ held → s.spadBytes < a + 512 ∨ s.declared write line.toNat tag = false →
      ∃ t, exec (.wAccess write line tag data) s = .next t ∧ answers t 1 z
        ∧ (∃ detail, t.ledger = (s.log (if s.spadBytes < a + 512 then 0x0104 else 0x0202) tag (some s.tn.active) detail).ledger)
        ∧ t = { s with spad := { s.spad with wAt := at_ }, ledger := t.ledger, evRings := t.evRings, out := t.out }))
  ∧ (∀ (write : Bool) (word : BitVec 24) (be : Byte) (data : W64) (s : State), started s →
    let held := s.bankTaken word.toNat 1 = true ∨ s.wServed (bankOfWord word.toNat) = true
    let a := 8 * word.toNat
    (¬ held → s.spad.clearing = none → s.spad.synd = [] → Memory.wf s.spad.mem = true → a + 8 ≤ s.spadBytes →
      ∃ t, exec (.nAccess write word be data) s = .next t
        ∧ t.out = { s.out with spn := s.out.spn ++
            [(0, if write then 0 else BitVec.ofNat 64 (leNat ((upTo 8).map fun i => Memory.read s.spad.mem (a + i))))] }
        ∧ (∀ x, Memory.read t.spad.mem x = if write ∧ a ≤ x ∧ x < a + 8 ∧ be.getLsbD (x - a) then (data >>> (8 * (x - a))).setWidth 8
            else Memory.read s.spad.mem x)
        ∧ t = { s with spad := { s.spad with mem := t.spad.mem, nWait := none }, out := t.out })
    ∧ (¬ held → s.spad.clearing = none → s.spadBytes < a + 8 →
      ∃ t detail, exec (.nAccess write word be data) s = .next t
        ∧ t.ledger = (s.log 0x0104 0xFFFF (some s.tn.active) detail).ledger ∧ t.out = { s.out with spn := s.out.spn ++ [(1, 0)] }
        ∧ t = { s with spad := { s.spad with nWait := none }, ledger := t.ledger, evRings := t.evRings, out := t.out })
    ∧ (held ∨ s.spad.clearing ≠ none → exec (.nAccess write word be data) s = .next { s with spad := { s.spad with
        nWait := if s.spad.nWait = none then some { word := word, since := s.tb.cycle, guarded := false } else s.spad.nWait } }))
  ∧ ∀ (w : NWait) (s : State), started s → s.spad.nWait = some w → 32 ≤ s.tb.cycle - w.since →
    exec .guardedNRequest s = .next { s with spad := { s.spad with nWait := some { w with guarded := true } } }

/-- Scrubbing (R277, R278, R280). IDLE_SCRUB: a visit of a bank that no other requester wants advances its pointer by one line, and over memory
with clean words writes no byte. FORCED_SCRUB_STEAL: a forced steal that is due, with no event due before it (R369), visits every bank, is counted
and moves the time of the next by P. CORRECTION_WRITEBACK: a correction write-back whose word still shows the correctable syndrome that was
seen corrects it and nothing else. While a steal is due, a visit and a write-back wait (Table 10.2). -/
def Obligations.ScrubVisitsAndCorrections : Prop :=
  (∀ (bank : BitVec 6) (s : State), s.stealDue = true → exec (.idleScrub bank) s = .next s ∧ exec .correctionWriteback s = .next s)
  ∧ (∀ (bank : BitVec 6) (s : State), started s → s.spad.clearing = none → s.spad.wb = [] → s.spad.nWait = none → s.spad.synd = [] →
    s.wServed bank.toNat = false → s.stealDue = false →
    ∃ t, exec (.idleScrub bank) s = .next t
      ∧ (let row := vecGet s.spad.ptr bank.toNat 0
         ∀ b : Nat, b < 64 → vecGet t.spad.ptr b 0 =
           if b = bank.toNat then (if s.bankRows ≤ row + 1 then 0 else row + 1) else vecGet s.spad.ptr b 0)
      ∧ t.spad.mem = s.spad.mem ∧ t.spad.synd = [] ∧ t = { s with spad := t.spad })
  ∧ (∀ s : State, started s → s.tb.state ≠ .notAligned → s.spad.clearing = none → s.spad.nextSteal.toNat ≤ s.gc.toNat →
    s.behind s.spad.nextSteal.toNat 3 = false → s.spad.synd = [] →
    ∃ t, exec .forcedScrubSteal s = .next t ∧ t.spad.health.steals = satAdd s.spad.health.steals 1
      ∧ t.spad.nextSteal = s.spad.nextSteal + BitVec.ofNat 64 s.stealPeriod
      ∧ (∀ b : Nat, b < 64 → let row := vecGet s.spad.ptr b 0
          vecGet t.spad.ptr b 0 = if s.bankRows ≤ row + 1 then 0 else row + 1)
      ∧ t.spad.mem = s.spad.mem ∧ t.spad.synd = [] ∧ t = { s with spad := t.spad })
  ∧ ∀ (w : Nat) (seen : Byte) (rest : List (Nat × Byte)) (j : Nat) (s : State), started s → s.spad.clearing = none →
    s.spad.wb = (w, seen) :: rest → s.spad.syndrome w = seen → classify seen = .dataBit j → sparseFrom 0 0 s.spad.synd = true →
    Memory.wf s.spad.mem = true → s.stealDue = false →
    ∃ t, exec .correctionWriteback s = .next t ∧ t.spad.wb = rest
      ∧ (∀ x, Memory.read t.spad.mem x = if x = 8 * w + j / 8 then Memory.read s.spad.mem x ^^^ (1 <<< (j % 8)) else Memory.read s.spad.mem x)
      ∧ (∀ v, t.spad.syndrome v = if v = w then 0 else s.spad.syndrome v)
      ∧ t = { s with spad := { s.spad with mem := t.spad.mem, synd := t.spad.synd, wb := rest } }

/-! ### Settlement rings -/

/-- PART_SEND: a strict participant that comes first after the owner sends its source state of a row as one PART record to the participant
after it, in flits of the record's slots, once every older command has made its last update of the state (R214, R215, R225); a
fast participant sends it to the owner. A strict participant further on merges the record that it has received whole with its own source and
sends the result on. The row counts as sent, the flits wait to be sent in order, and no memory changes. With words, lines and payloads that read
clean. -/
def Obligations.ParticipantsSendTheirParts : Prop :=
  ∀ (c : Inflight) (row : W16) (s : State), let m := c.cmd
    let r := row.toNat
    let me := s.position m.scope
    let own := (s.sourceRow c m r).2.2
    started s → s.inflight? c.tag = some c → c.fault = none → c.conflict = none → m.op = .settle → r < m.settleRows →
    (c.row? r).settled = false → (c.row? r).sent = false → (c.row? r).final = none → s.sourceReady c m r = true →
    s.spad.synd = [] → s.st.rowSynd = [] → (∀ b ∈ s.setBuf, b.synd = []) → sourceOk c m own = true →
    let first := m.after (m.owner r)
    let queued (t : State) (dst : Nat) (bs : List Byte) : Prop :=
      onlyCommand s t c.tag { c.modRow r (fun w => { w with sent := true }) with since := s.tb.cycle }
      ∧ (let l := s.link m.scope
         t.link m.scope = { l with queue := l.queue ++ (c.flits m tPART me dst r bs).map fun f => f.bytes 0 })
      ∧ (∀ k, k ≠ m.scope → t.link k = s.link k) ∧ t = { s with stream := t.stream, links := t.links, setBuf := t.setBuf }
    ((if c.modes.strict then me = first else me ≠ m.owner r) →
      ∃ t, exec (.partSend c.tag row) s = .next t ∧ queued t (if c.modes.strict then m.after me else m.owner r) own.bytes
        ∧ t.setBuf = s.setBuf)
    ∧ ∀ bs x, c.modes.strict = true → me ≠ first → me ≠ m.owner r → s.bufRecord c m tPART (m.before me) r = some bs →
      mergeRows (RowSt.ofBytes bs) own c.slot.epoch = some x →
      ∃ t, exec (.partSend c.tag row) s = .next t ∧ queued t (m.after me) x.bytes
        ∧ t.setBuf = (s.dropRecord c m tPART (m.before me) r).setBuf

/-- The owner's side of a `SETTLE`, and the gather phase (R214, R216, R219, R220). A fast owner merges a part that has arrived whole with what
it has merged before, or with its own source; a strict owner merges the record that has come round with its own source. Once every part is
merged the owner sends the settled record as FINAL flits and the state takes its place; a participant takes the record from its owner when it
has arrived whole. A PART for the unit's own `SETTLE` that FLIT_RECEIVE takes is buffered and has the effect that PART_SEND of its row then
has. COMMAND_RETIREMENT of a `SETTLE`: once every row is settled and no flit that it sent is unacknowledged. With words, lines and payloads that
read clean, and for one part at a time.
The context byte of an entry is the model's (log 16). -/
def Obligations.SettlementsComplete : Prop :=
  (∀ (c : Inflight) (row : W16) (s : State), let m := c.cmd
    let r := row.toNat
    let me := s.position m.scope
    let w := c.row? r
    let own := (s.sourceRow c m r).2.2
    let l := s.link m.scope
    started s → s.inflight? c.tag = some c → c.fault = none → c.conflict = none → m.op = .settle → r < m.settleRows → r < c.settle.length →
    w.settled = false → w.final = none → s.spad.synd = [] → s.st.rowSynd = [] → (∀ b ∈ s.setBuf, b.synd = []) →
    let settles (t : State) (src : Nat) (e : Inflight) (x : RowSt) : Prop :=
      let y : RowSt := { RowSt.ofBytes x.bytes with ma := own.ma, epoch := c.slot.epoch, state := 1 }
      ∃ u, onlyCommand s u c.tag e
        ∧ u.link m.scope = { l with queue := l.queue ++ (c.flits m tFINAL me 0 r y.bytes).map fun f => f.bytes 0 }
        ∧ (∀ k, k ≠ m.scope → u.link k = s.link k) ∧ u.setBuf = (s.dropRecord c m tPART src r).setBuf
        ∧ u = { s with stream := u.stream, links := u.links, setBuf := u.setBuf } ∧ takesPlace u t e r y.bytes own.ma
    (∀ src bs x, c.modes.strict = false → me = m.owner r → w.sent = false → s.sourceReady c m r = true → sourceOk c m own = true →
      s.arrivals c m r = [src] → s.bufRecord c m tPART src r = some bs → src ∈ m.parties → src ∉ w.merged →
      mergeRows (if w.record = [] then own else RowSt.ofBytes w.record) (RowSt.ofBytes bs) c.slot.epoch = some x →
      let e : Inflight := { c.modRow r (fun w => { w with record := x.bytes, merged := w.merged ++ [src] }) with since := s.tb.cycle }
      (w.merged.length + 2 < m.parties.length → ∃ t, exec (.partSend c.tag row) s = .next t ∧ onlyCommand s t c.tag e
        ∧ t.setBuf = (s.dropRecord c m tPART src r).setBuf ∧ t = { s with stream := t.stream, setBuf := t.setBuf })
      ∧ (m.parties.length ≤ w.merged.length + 2 → s.placeHeld c m r = false →
        ∃ t, exec (.partSend c.tag row) s = .next t ∧ settles t src (e.modRow r fun w => { w with sent := true }) x))
    ∧ (∀ bs x, c.modes.strict = true → me = m.owner r → me ≠ m.after me → w.sent = false → s.sourceReady c m r = true →
      sourceOk c m own = true → s.bufRecord c m tPART (m.before me) r = some bs → s.placeHeld c m r = false →
      mergeRows (RowSt.ofBytes bs) own c.slot.epoch = some x →
      ∃ t, exec (.partSend c.tag row) s = .next t ∧ settles t (m.before me) (c.modRow r fun w => { w with sent := true }) x)
    ∧ ∀ bs, w.sent = true → s.bufRecord c m tFINAL (m.owner r) r = some bs → s.placeHeld c m r = false →
      sourceOk c m (RowSt.ofBytes bs) = true →
      ∃ t, exec (.partSend c.tag row) s = .next t ∧ takesPlace (s.dropRecord c m tFINAL (m.owner r) r) t c r bs own.ma)
  ∧ (∀ (c : Scope) (flit : List Byte) (x : Inflight) (s : State), started s → flit.length = 80 →
    let l := s.link c
    let f := Flit.ofBytes flit
    let v : State := s.setLink c { l with rxTrain := 0, rxSeq := l.rxSeq + 1, nakSent := false, recv := satAdd l.recv 1 }
    crc32c (flit.take 76) = BitVec.ofNat 32 (leAt flit 76 4) → flit.getD 65 0 = l.rxSeq → (flit.getD 67 0).getLsbD 7 = false →
    f.type = tPART → f.dst = s.position c → s.setBuf.length < 256 → s.settle? c f.tenant f.sid = some x → s.badFlit x x.cmd f = none →
    ∃ u, exec (.partSend x.tag f.row) { v with setBuf := v.setBuf ++ [{ scope := c, flit := flit, at_ := s.tb.cycle, synd := [] }] } = .next u
      ∧ exec (.flitReceive c flit) s = .next { u.setLink c { u.link c with worded := true } with
          out := { u.out with acks := u.out.acks ++ [(c, ackWord false u.holds l.rxSeq)] } })
  ∧ ∀ (c : Inflight) (rest : List Inflight) (s : State), let m := c.cmd
    started s → s.stream.inflight = c :: rest → c.fault = none → m.op = .settle → s.stopped c.tag = false → plain s c → c.writes = [] →
    s.rowReady c = false → m.rc.aen = false → m.rc.amen = false → (∀ w ∈ c.settle, w.settled = true) → s.unacked c m = false →
    ∃ t, exec .commandRetirement s = .next t ∧ departs s t c (completes c 0 c.d0 c.d1)

/-- Aborts of settlements (R217, R218, R226, R230, R440). A source that may not be sent and records that do not match are `ILLCM` with the row and the
sending position, and a `SETTLE` that has not completed within the count of the escrow watchdog from its issue is `ESCTO`: the unit logs it,
its command carries the fault, its buffered flits go, and an ABORT flit waits to be sent. FLIT_RECEIVE of an ABORT: the unit's own `SETTLE` carries
its code, buffered flits go, and the flit goes on; the detector takes its own from the ring. A ring-down notice takes the ring down, a ring-up
notice takes back its down notice, and each goes on unless the next unit sent it. An aborted `SETTLE` leaves its destinations invalid at retirement.
DST 0 and STRICT 0 of an ABORT flit are the model's choice (log 90).
The context byte of an entry is the model's (log 16). -/
def Obligations.AbortsEndSettlements : Prop :=
  (∀ (c : Inflight) (row : W16) (s : State), let m := c.cmd
    let r := row.toNat
    let me := s.position m.scope
    let own := (s.sourceRow c m r).2.2
    started s → s.inflight? c.tag = some c → c.fault = none → c.conflict = none → m.op = .settle → r < m.settleRows →
    (c.row? r).settled = false → (c.row? r).sent = false → (c.row? r).final = none → s.sourceReady c m r = true →
    s.spad.synd = [] → s.st.rowSynd = [] → (∀ b ∈ s.setBuf, b.synd = []) →
    (sourceOk c m own = false → ∃ t, exec (.partSend c.tag row) s = .next t
      ∧ aborted s t c 0x0106 r (illcmDetail 0xFF 0xFF r me))
    ∧ ∀ bs, sourceOk c m own = true → c.modes.strict = true → me ≠ m.after (m.owner r) → (me = m.owner r → s.placeHeld c m r = false) →
      s.bufRecord c m tPART (m.before me) r = some bs → mergeRows (RowSt.ofBytes bs) own c.slot.epoch = none →
      ∃ t, exec (.partSend c.tag row) s = .next t ∧ aborted s t c 0x0106 r (illcmDetail 0xFF 0xFF r (m.before me)))
  ∧ (∀ (c : Inflight) (s : State), started s → s.stream.waiting = [] → s.inflight? c.tag = some c → c.cmd.op = .settle → c.fault = none →
    c.ready = false → c.limit ≤ s.tb.cycle - c.issued →
    ∃ t, exec (.escrowWatchdog c.tag) s = .next t ∧ aborted s t c 0x0201 0
      ([0xFF, 0xFF, 1, 0] ++ leBytes 4 (min (s.tb.cycle - c.issued) 0xFFFFFFFF)))
  ∧ (∀ (c : Scope) (flit : List Byte) (s : State), s.boot ≠ .otpLoad → s.pw.state ≠ .halt → flit.length = 80 →
    let l := s.link c
    let f := Flit.ofBytes flit
    let me := s.position c
    let notice := f.sid = 0xFFFF ∧ (f.code = 0x0402 ∨ f.code = 0)
    let taken : Link := { l with rxTrain := 0, rxSeq := l.rxSeq + 1, nakSent := false, recv := satAdd l.recv 1, worded := true }
    let passed : Link := { taken with queue := l.queue ++ [f.bytes 0] }
    let acked (t : State) : Prop := t.out = { s.out with acks := s.out.acks ++ [(c, ackWord false t.holds l.rxSeq)] }
    let gone (t : State) : Prop := t.setBuf = s.setBuf.filter fun b => !b.hasKey c f.tenant f.sid
    crc32c (flit.take 76) = BitVec.ofNat 32 (leAt flit 76 4) → flit.getD 65 0 = l.rxSeq → (flit.getD 67 0).getLsbD 7 = false →
    f.type = tABORT →
    (¬ notice → f.detector = me → ∃ t, exec (.flitReceive c flit) s = .next t ∧ t.link c = taken ∧ acked t
      ∧ t = { s with links := t.links, out := t.out })
    ∧ (¬ notice → f.detector ≠ me → s.settle? c f.tenant f.sid = none → ∃ t, exec (.flitReceive c flit) s = .next t
      ∧ t.link c = passed ∧ acked t ∧ gone t ∧ t = { s with links := t.links, out := t.out, setBuf := t.setBuf })
    ∧ (∀ x, ¬ notice → f.detector ≠ me → s.settle? c f.tenant f.sid = some x → s.inflight? x.tag = some x →
      ∃ t, exec (.flitReceive c flit) s = .next t ∧ t.link c = passed ∧ acked t ∧ gone t
        ∧ onlyCommand s t x.tag { x with fault := some f.code }
        ∧ t = { s with links := t.links, out := t.out, setBuf := t.setBuf, stream := t.stream })
    ∧ (notice → (∀ x ∈ s.stream.inflight, x.cmd.op ≠ .settle) →
      let heard := (l.ringDown.filter fun p => p != f.detector) ++ if f.code = 0x0402 then [f.detector] else []
      ∃ t, exec (.flitReceive c flit) s = .next t
        ∧ t.link c = { (if (me + 1) % ringSize c = f.detector then taken else passed) with
            ringDown := heard
            st := if l.down = false ∧ heard = [] then .up else if l.st = .training then .training else .down }
        ∧ acked t ∧ t = { s with links := t.links, out := t.out }))
  ∧ ∀ (c : Inflight) (rest : List Inflight) (k : W16) (s : State), let m := c.cmd
    started s → s.stream.inflight = c :: rest → c.fault = some k → m.op = .settle → c.ready = false → s.stopped c.tag = false →
    c.beats = [] → c.hard = [] → Memory.wf s.st.rowTab = true →
    ∃ t, exec .commandRetirement s = .next t
      ∧ ∀ a, 128 * c.dstLine m 0 ≤ a → a < 128 * (c.dstLine m 0 + m.settleQ * slotLines c.modes.strict * m.settleRows) →
        Memory.read t.st.rowTab a = 0

/-- FLIT_RECEIVE: a flit that the ring port takes. A wrong CRC is counted and answered with one NAK; a flit out of sequence after a NAK is
discarded; a number out of sequence, an unknown type and a reserved bit that is set are protocol violations, logged as `CLRPV` and answered with one
NAK. A TRAIN flit is counted and acknowledged, and the first of a link that was up takes the ring down with a notice; an IDLE flit in
sequence is counted and acknowledged, and nothing else happens. A PART for another unit goes on downstream, one for this unit whose `SETTLE`
has not come waits in the settlement buffer, or where that is full is held off by a word with HOLD. A FINAL goes on downstream, and its owner
takes it from the ring (R212, R226 to R230). The context byte of the entry is log 16, that TRAIN flits stand outside the sequence log 90, and what a word with
HOLD acknowledges log 42. A word that answers a flit is the word of its cycle (log 41). -/
def Obligations.FlitsAreTaken : Prop :=
  ∀ (c : Scope) (flit : List Byte) (s : State), s.boot ≠ .otpLoad → s.pw.state ≠ .halt → flit.length = 80 →
    let l := s.link c
    let l1 : Link := { l with rxTrain := 0 }
    let naks (u : Link) : Link := { u with nakSent := true, worded := if l.nakSent then l.worded else true }
    let f := Flit.ofBytes flit
    let seq := flit.getD 65 0
    let me := s.position c
    let reserved := (flit.getD 67 0).getLsbD 7
    let crcOk := crc32c (flit.take 76) = BitVec.ofNat 32 (leAt flit 76 4)
    let words (t : State) (w : W16) : Prop := t.out = { s.out with acks := s.out.acks ++ [(c, w)] }
    let nak (t : State) : Prop := if l.nakSent then t.out = s.out else words t (ackWord true s.holds l.rxSeq)
    let inOrder := crcOk ∧ seq = l.rxSeq ∧ reserved = false
    let expected := ∀ x, s.settle? c f.tenant f.sid = some x → s.badFlit x x.cmd f = none
    let taken : Link := { l1 with rxSeq := l.rxSeq + 1, nakSent := false, recv := satAdd l.recv 1 }
    let passed : Link := { taken with queue := l.queue ++ [f.bytes 0] }
    let counts (k : Byte) : Prop := ∃ t, exec (.flitReceive c flit) s = .next t
        ∧ t.link c = naks { l1 with viol := satAdd l.viol 1 } ∧ (∀ k, k ≠ c → t.link k = s.link k) ∧ nak t
        ∧ t.ledger = (s.log 0x0403 0xFFFF none [if c = .die then 1 else 0, k]).ledger
        ∧ t = { s with links := t.links, out := t.out, ledger := t.ledger, evRings := t.evRings }
    let answers (u : Link) (w : W16) : Prop := ∃ t, exec (.flitReceive c flit) s = .next t
        ∧ t.link c = { u with worded := true } ∧ (∀ k, k ≠ c → t.link k = s.link k) ∧ words t w ∧ t = { s with links := t.links, out := t.out }
    (¬ crcOk → ∃ t, exec (.flitReceive c flit) s = .next t
        ∧ t.link c = naks { l1 with crcFail := satAdd l.crcFail 1 } ∧ (∀ k, k ≠ c → t.link k = s.link k) ∧ nak t
        ∧ t = { s with links := t.links, out := t.out })
    ∧ (crcOk → f.type ≠ tTRAIN → seq ≠ l.rxSeq → l.nakSent = true → exec (.flitReceive c flit) s = .next (s.setLink c l1))
    ∧ (crcOk → f.type ≠ tTRAIN → seq ≠ l.rxSeq → l.nakSent = false → counts 0)
    ∧ (crcOk → 4 < f.type → seq = l.rxSeq → counts 1)
    ∧ (crcOk → f.type ≤ 4 → (seq = l.rxSeq ∨ f.type = tTRAIN) → reserved = true → counts 2)
    ∧ (crcOk → f.type = tTRAIN → reserved = false → me ∈ l.ringDown →
        answers { l with rxTrain := l.rxTrain + 1, recv := satAdd l.recv 1, nakSent := false } (ackWord false s.holds seq))
    ∧ (crcOk → f.type = tTRAIN → reserved = false → me ∉ l.ringDown → (∀ x ∈ s.stream.inflight, x.cmd.op ≠ .settle) →
        answers { l with
            rxTrain := l.rxTrain + 1, recv := satAdd l.recv 1, nakSent := false, ringDown := l.ringDown ++ [me]
            st := if l.st = .training then .training else .down, queue := l.queue ++ [(Flit.notice true me).bytes 0] }
          (ackWord false s.holds seq))
    ∧ (inOrder → f.type = tIDLE → answers taken (ackWord false s.holds seq))
    ∧ (inOrder → f.type = tPART → expected → f.dst ≠ me → answers passed (ackWord false s.holds seq))
    ∧ (inOrder → f.type = tPART → s.settle? c f.tenant f.sid = none → f.dst = me → s.setBuf.length < 256 →
        ∃ t, exec (.flitReceive c flit) s = .next t ∧ t.link c = { taken with worded := true } ∧ (∀ k, k ≠ c → t.link k = s.link k)
        ∧ t.setBuf = s.setBuf ++ [{ scope := c, flit := flit, at_ := s.tb.cycle, synd := [] }]
        ∧ words t (ackWord false (decide (255 ≤ s.setBuf.length)) seq) ∧ t = { s with links := t.links, out := t.out, setBuf := t.setBuf })
    ∧ (inOrder → f.type = tPART → f.dst = me → 256 ≤ s.setBuf.length → answers l1 (ackWord false true 0 false))
    ∧ (inOrder → f.type = tFINAL → f.src = me → answers taken (ackWord false s.holds seq))
    ∧ (inOrder → f.type = tFINAL → f.src ≠ me → s.settle? c f.tenant f.sid = none → answers passed (ackWord false s.holds seq))

/-- ACK_RECEIVE: a word without an acknowledgement sets HOLD alone; an acknowledgement in the window frees the flits that it covers, restarts the timer
and ends an episode of retries, which is logged as `CLRTY` with their number; a NAK frees the flits before its own and sends the rest again; on a link that
trains acknowledged TRAIN flits count, and a NAK begins anew (R228, R231). ACK_TIMEOUT: once 512 ring cycles have passed without an
acknowledgement the unacknowledged flits are to go out again in order, and the eighth retry in a row declares the link down: its flits go and
`CLRDN` is logged (R230). SETTLEMENT_BUFFER_TIMEOUT: buffered flits whose `SETTLE` has not come within the escrow watchdog are discarded (R226). The
context byte of the entries is log 16, and a ring cycle log 41. -/
def Obligations.RingTimersAndAcknowledgements : Prop :=
  (∀ (c : Scope) (w : W16) (s : State), s.boot ≠ .otpLoad → s.pw.state ≠ .halt →
    let l := s.link c
    let h : Link := { l with hold := w.getLsbD 14 }
    let n := l.covered (w.setWidth 8)
    let moved : Link := { h with replay := l.replay.drop n, next := l.next - n, consec := 0, quiet := 0 }
    ackParity w = w.getLsbD 13 →
    (l.down = false → w.getLsbD 8 = false → exec (.ackReceive c w) s = .next (s.setLink c h))
    ∧ (l.down = false → w.getLsbD 8 = true → w.getLsbD 15 = false → n = 0 → exec (.ackReceive c w) s = .next (s.setLink c h))
    ∧ (l.down = false → w.getLsbD 8 = true → w.getLsbD 15 = false → 0 < n → l.consec = 0 →
      exec (.ackReceive c w) s = .next (s.setLink c moved))
    ∧ (l.down = false → w.getLsbD 8 = true → w.getLsbD 15 = false → 0 < n → 0 < l.consec →
      exec (.ackReceive c w) s = .next ((s.setLink c moved).log 0x0401 0xFFFF none
        ([if c = .die then 1 else 0, 0, 0, 0] ++ leBytes 4 l.consec)))
    ∧ (l.down = false → w.getLsbD 8 = true → w.getLsbD 15 = true → l.consec = 0 →
      let k := l.covered (w.setWidth 8 - 1)
      exec (.ackReceive c w) s = .next (s.setLink c { h with
        replay := l.replay.drop k, next := 0, quiet := 0, consec := 1, retries := satAdd l.retries 1 }))
    ∧ (l.down = true → w.getLsbD 8 = true → exec (.ackReceive c w) s = .next (s.setLink c
        { l with trained := if w.getLsbD 15 then 0 else min 64 (l.trained + 1) })))
  ∧ (∀ (c : Scope) (s : State), s.boot ≠ .otpLoad → s.pw.state ≠ .halt →
    let l := s.link c
    let again : Link := { l with retries := satAdd l.retries 1, consec := l.consec + 1, next := 0, quiet := 0 }
    l.down = false → l.hold = false → l.replay ≠ [] →
    (l.quiet < 512 → exec (.ackTimeout c) s = .next s)
    ∧ (512 ≤ l.quiet → l.consec < 7 → exec (.ackTimeout c) s = .next (s.setLink c again))
    ∧ (512 ≤ l.quiet → 7 ≤ l.consec → (∀ x ∈ s.stream.inflight, x.cmd.op ≠ .settle) →
      exec (.ackTimeout c) s = .next ((s.setLink c { again with
        down := true, declared := true, downs := satAdd l.downs 1, replay := [], queue := [], consec := 0, trained := 0
        st := if l.st = .training then .training else .down }).log 0x0402 0xFFFF none [if c = .die then 1 else 0, 0])))
  ∧ ∀ (b : BufFlit) (rest : List BufFlit) (s : State), s.boot ≠ .otpLoad → s.pw.state ≠ .halt → s.setBuf = b :: rest →
    let f := Flit.ofBytes b.flit
    (∀ x ∈ rest, x.hasKey b.scope f.tenant f.sid = true ∨ s.tb.cycle - x.at_ < s.escrow.watchdog.toNat) →
    (∀ x ∈ s.stream.inflight, x.cmd.op ≠ .settle) → s.escrow.watchdog.toNat ≤ s.tb.cycle - b.at_ →
    ∃ t, exec .settlementBufferTimeout s = .next t
      ∧ t.setBuf = rest.filter (fun x => !x.hasKey b.scope f.tenant f.sid)
      ∧ t.ledger = (s.log 0x0403 0xFFFF (some f.tenant) ([if b.scope = .die then 1 else 0, 4] ++ leBytes 2 f.sid.toNat)).ledger
      ∧ t = { s with setBuf := t.setBuf, ledger := t.ledger, evRings := t.evRings }

/-- The 80 bytes of a flit give back its fields, whatever the link sequence number (Tables 8.4 and 8.5). -/
def Obligations.FlitBytesRoundTrip : Prop :=
  ∀ (f : Flit) (seq : Byte), f.payload.length = 64 → f.type < 16 → f.src < 16 → f.dst < 16 → f.slot < 8 → f.part < 8 →
    Flit.ofBytes (f.bytes seq) = f ∧ (f.bytes seq).length = 80
      ∧ crc32c ((f.bytes seq).take 76) = BitVec.ofNat 32 (leAt (f.bytes seq) 76 4)

/-! ### Time -/

/-- SYNC_PULSE of an aligned unit (R365 to R367, Table 14.1): Q takes the count. A count not behind the view is taken by the view,
and the time state is aligned, but a frozen view that the count does not exceed stays frozen; a step beyond the increment of the cycle counts, one of more than 1 ms as a jump that is logged. A count
behind the view leaves the view, and freezes the time state: a new episode counts and is logged as `TBJMP`. SYNC_PULSE_MISSING: without a pulse for
1.5 ms the unit holds over and counts the pulse as missed. FROZEN_STATE_EXIT: a frozen view follows Q again once Q has passed it.
FCLK_CHANGE: a change of FCLK within its range takes effect and asks for alignment at the next pulse (R433). A link that has trained resumes
at a pulse: its transmitting end with SEQ 0, and its receiving end with a ring-up notice (R231); in test mode none does (R446). That only a step beyond the increment
of the cycle counts, and that missing pulses count 1.5 ms after the last and then every 1 ms, is log 33; the context byte of an entry is log 16. -/
def Obligations.SyncPulsesKeepTime : Prop :=
  (∀ (n : Gc) (s : State), s.tb.state ≠ .notAligned → (∀ k, (s.link k).trained < 64 ∧ (s.link k).rxTrain < 64) →
    let v := s.tb.v
    let took : TimeBase := { s.tb with q := n, lastSync := n, gap := 0, realign := false, syncAt := s.tb.cycle }
    let jumped := (s.log 0x0501 0xFFFF none (leBytes 8 v.toNat ++ leBytes 8 n.toNat)).ledger
    (v.toNat ≤ n.toNat → let j := n.toNat - v.toNat
      ∃ t, exec (.syncPulse n) s = .next t
        ∧ t.tb = { took with
            v := n, state := if s.tb.state = .frozen ∧ n = v then .frozen else .aligned
            fwdSteps := if s.tb.inc.toNat < j ∧ j ≤ 1000000 then satAdd s.tb.fwdSteps 1 else s.tb.fwdSteps
            fwdJumps := if s.tb.inc.toNat < j ∧ 1000000 < j then satAdd s.tb.fwdJumps 1 else s.tb.fwdJumps }
        ∧ t.ledger = (if 1000000 < j then jumped else s.ledger)
        ∧ t = { s with tb := t.tb, ledger := t.ledger, evRings := t.evRings, prov := t.prov })
    ∧ (n.toNat < v.toNat →
      ∃ t, exec (.syncPulse n) s = .next t
        ∧ t.tb = { took with
            state := .frozen
            backEpisodes := if s.tb.state = .frozen then s.tb.backEpisodes else satAdd s.tb.backEpisodes 1
            largestBack := if s.tb.largestBack.toNat < v.toNat - n.toNat then BitVec.ofNat 64 (v.toNat - n.toNat) else s.tb.largestBack }
        ∧ t.ledger = (if s.tb.state = .frozen then s.ledger else jumped)
        ∧ t = { s with tb := t.tb, ledger := t.ledger, evRings := t.evRings, prov := t.prov }))
  ∧ (∀ s : State, s.tb.state ≠ .notAligned → s.tb.lastSync.toNat + 1500000 + 1000000 * s.tb.gap ≤ s.tb.q.toNat →
    exec .syncPulseMissing s = .next { s with tb := { s.tb with
      gap := s.tb.gap + 1, missed := satAdd s.tb.missed 1, state := if s.tb.state = .frozen then .frozen else .holdover } })
  ∧ (∀ s : State, s.tb.state = .frozen → s.tb.v.toNat < s.tb.q.toNat →
    exec .frozenStateExit s = .next { s with tb := { s.tb with v := s.tb.q, state := if s.tb.gap = 0 then .aligned else .holdover } })
  ∧ (∀ (n : Gc) (c : Scope) (s : State), s.fixed.straps.testMode = false → s.boot ≠ .otpLoad → s.pw.state ≠ .halt →
    let l := s.link c
    let me := s.position c
    let st (down : Bool) (r : List Nat) : RingState :=
      if down = false ∧ r = [] then .up else if l.st = .training then .training else .down
    (l.down = true → 64 ≤ l.trained → l.rxTrain < 64 → ∃ t, exec (.syncPulse n) s = .next t ∧ t.link c = { l with
      down := false, declared := false, returns := if l.declared then satAdd l.returns 1 else l.returns, txSeq := 0, replay := [], next := 0
      consec := 0, hold := false, trained := 0, quiet := 0, st := st false l.ringDown })
    ∧ ((l.down = false ∨ l.trained < 64) → 64 ≤ l.rxTrain → let r := l.ringDown.filter (fun p => p != me)
      ∃ t, exec (.syncPulse n) s = .next t ∧ t.link c = { l with
        rxSeq := 0, nakSent := false, rxTrain := 0, ringDown := r, st := st l.down r
        queue := l.queue ++ [(Flit.notice false me).bytes 0] }))
  ∧ (∀ (n : Gc) (s : State), s.fixed.straps.testMode = true → ∃ t, exec (.syncPulse n) s = .next t ∧ t.links = s.links)
  ∧ ∀ (f : BitVec 12) (s : State), 600 ≤ f.toNat → f.toNat ≤ 2000 →
    exec (.fclkChange f) s = .next { s with tb := { s.tb with fmhz := f, realign := true } }

/-- Epochs at resets and switches (R374, R376): cold reset sets the current and previous epochs to 0, all three mode sets to their defaults and the
state to idle; warm reset keeps them and an armed schedule; a switch GC that has passed, however long ago, takes effect at
the next step of a running unit that holds no command of the previous epoch, which is EPOCH_SWITCH; `TENANT` has no effect on epochs. That the previous
epoch is held by a waiting command too is log 32. Events that GC sets and that are due at once fire one in a cycle, in increasing time and in the
order of Table 14.3: each waits while another comes before it (R369). -/
def Obligations.EpochsAtResetsAndSwitches : Prop :=
  (∀ s : State, ∃ t, exec .coldReset s = .next t ∧ t.ep.curEpoch = 0 ∧ t.ep.prevEpoch = 0 ∧ t.ep.armed = false
    ∧ t.ep.prev = t.ep.cur ∧ t.ep.pend = t.ep.cur
    ∧ t.ep.cur = { strict := false, rnd := .rne, nonsat := false, inflim := true, seed := 0, key := 0x5D2B97C43E81A6F3 })
  ∧ (∀ s : State, ∃ t, exec .warmReset s = .next t ∧ t.ep = s.ep)
  ∧ (∀ (o : SlotOps) (s : State), ∃ t, exec (.tenant o) s = .next t ∧ t.ep = s.ep)
  ∧ (∀ (c : Inflight) (rest : List Inflight) (s : State), s.stream.inflight = c :: rest → c.cmd.op = .tenant →
      ∃ t, exec .commandRetirement s = .next t ∧ t.ep = s.ep)
  ∧ (∀ s : State, s.tb.state ≠ .notAligned →
    (s.behind s.ep.switchGc.toNat 1 = true → exec .epochSwitch s = .next s)
    ∧ (∀ u, s.pw.grant = some u → s.behind u.toNat 2 = true → exec .laneGroupPowerStep s = .next s)
    ∧ (s.behind s.spad.nextSteal.toNat 3 = true → exec .forcedScrubSteal s = .next s)
    ∧ (s.behind (128000 * (s.ft.step + 1)) 4 = true → exec .checkerRotationStep s = .next s)
    ∧ (∀ t0 t1 level, s.behind s.pw.nextSample.toNat 5 = true → exec (.telemetrySample t0 t1 level) s = .next s)
    ∧ (∀ c, s.awaiting .waitgc = some c → s.behind c.cmd.waitTarget 6 = true → exec .waitgcRelease s = .next s))
  ∧ ∀ s : State, started s → s.tb.state ≠ .notAligned → s.ep.armed = true → s.ep.switchGc.toNat ≤ s.gc.toNat → s.previousHeld = false →
    s.behind s.ep.switchGc.toNat 1 = false →
    ∃ t, exec .epochSwitch s = .next t
      ∧ t.ep = { s.ep with
          prev := s.ep.cur, cur := s.ep.pend, prevEpoch := s.ep.curEpoch, curEpoch := s.ep.pendEpoch, armed := false, lastSwitch := s.gc }
      ∧ t.prov.rcpt = s.prov.rcpt ∧ t.prov.keys = s.prov.keys
      ∧ t = { s with ep := t.ep, prov := t.prov }

/-! ### Power -/

/-- TELEMETRY_SAMPLE of an aligned unit that is due, and that no other due event precedes (R369, R383 to R385, Table 14.7): the settings written since
the last one take effect, the next one is due at the next multiple of the period, the readings are trimmed and taken in m°C, rounded down (log 34),
and a reading out of range or unchanged for 64 samples is invalid. The thermal level rises to that of the highest threshold that the higher valid
reading has reached, and falls one step below the release point of its own; without a valid reading it is held at 25 %. HALT is entered at the last step,
and left with the state from before it. The issue level is the lowest of the thermal, chip and power levels, capped by the active context's
ceiling where its floor is met; below the floor the level stands, ρ is the share of the floor and a breach is open. The power level rests on
a free value (log 7), and so does a trim that is not neutral (log 92). -/
def Obligations.TelemetrySetsIssueLevel : Prop :=
  ∀ (t0 t1 : W16) (level : BitVec 3) (s : State), s.boot ≠ .otpLoad → s.tb.state ≠ .notAligned → s.pw.nextSample.toNat ≤ s.gc.toNat →
    s.pw.nextSample.toNat + s.pw.set.period.toNat < 2 ^ 64 → 0 < s.pw.set.period.toNat → s.behind s.pw.nextSample.toNat 5 = false →
    s.pw.thermal ∈ [0, 25, 50, 75, 100] →
    let floor := vecGet s.tn.floor s.tn.active.toNat 0
    let ceil := vecGet s.tn.ceil s.tn.active.toNat 100
    let r0 := (trimmed s.fixed.trims.sensor0 t0).toInt
    let r1 := (trimmed s.fixed.trims.sensor1 t1).toInt
    let valid (r last : Int) (same : Nat) : Bool := decide (-640 ≤ r ∧ r ≤ 2400 ∧ (r ≠ last ∨ same < 63))
    let v0 := valid r0 s.pw.last.1.toInt s.pw.same.1
    let v1 := valid r1 s.pw.last.2.toInt s.pw.same.2
    let was := s.pw.thermal
    let reached (h : Int) : Nat := if 1840 ≤ h then 0 else if 1760 ≤ h then 25 else if 1680 ≤ h then 50 else if 1600 ≤ h then 75 else 100
    let release : Int := if was = 75 then 1552 else if was = 50 then 1632 else if was = 25 then 1712 else 1792
    let next (h : Int) : Nat := if reached h < was then reached h else if was < 100 ∧ h < release then was + 25 else was
    ∃ t, exec (.telemetrySample t0 t1 level) s = .next t
      ∧ t.pw.eff = s.pw.set ∧ s.pw.nextSample.toNat < t.pw.nextSample.toNat
      ∧ t.pw.nextSample.toNat ≤ s.pw.nextSample.toNat + s.pw.set.period.toNat ∧ t.pw.nextSample.toNat % s.pw.set.period.toNat = 0
      ∧ (s.fixed.trims.sensor0 = (0, 0x8000) → r0 = t0.toInt) ∧ (s.fixed.trims.sensor1 = (0, 0x8000) → r1 = t1.toInt)
      ∧ t.pw.sensor0 = BitVec.ofInt 32 (r0 * 125 / 2) ∧ t.pw.sensor1 = BitVec.ofInt 32 (r1 * 125 / 2)
      ∧ t.pw.status = BitVec.ofNat 8 (v0.toNat + 2 * v1.toNat)
      ∧ t.pw.thermal = (if v0 ∧ v1 then next (max r0 r1) else if v0 then next r0 else if v1 then next r1 else min was 25)
      ∧ (was ≠ 0 → t.pw.thermal = 0 → t.pw.state = .halt ∧ t.pw.before = s.pw.state ∧ t.pw.halts = satAdd s.pw.halts 1
          ∧ t.pw.haltGc = s.gc)
      ∧ (was = 0 → t.pw.thermal ≠ 0 → t.pw.state = s.pw.before
          ∧ t.pw.timeHalted = satAdd s.pw.timeHalted (s.gc.toNat - s.pw.haltGc.toNat))
      ∧ ((was = 0 ↔ t.pw.thermal = 0) → t.pw.state = s.pw.state ∧ t.spad = s.spad)
      ∧ t.pw.lc = (if level.toNat ≤ 3 then 100 - 25 * level.toNat else 0)
      ∧ t.pw.lp ∈ [25, 50, 75, 100] ∧ t.pw.base = min t.pw.thermal (min t.pw.lc t.pw.lp)
      ∧ t.pw.issue = (if floor ≤ t.pw.base then min ceil t.pw.base else t.pw.base)
      ∧ t.tn.rho = (if floor ≤ t.pw.base then 100 else 100 * t.pw.base / floor)
      ∧ (t.pw.breach.isSome ↔ t.pw.base < floor)
      ∧ t.free = s.free + 1 ∧ t.spad = { s.spad with nextSteal := t.spad.nextSteal }
      ∧ t = { s with pw := t.pw, tn := t.tn, spad := t.spad, ledger := t.ledger, evRings := t.evRings, free := t.free }

/-- Gating and power (R369, R378, R380 to R382). The step timer counts GC, and TCLK cycles in a cold start until TSYNC loads the view. IDLE_TIMEOUT: an
idle unit gates after its delay, or sleeps and begins to power its groups down, LG7 first. POWER_DOWN_STEP: the next group down. PW_GRANT: the grant
starts the step timer, and the unit wakes, after a thermal halt if it is in one. LANE_GROUP_POWER_STEP, in every state of time: each step powers the
next group that is not disabled; one step after LG7 the lanes run, a cold start goes on to MBIST and a warm one to its clear (Tables 17.5 and 17.6). -/
def Obligations.PowerStepsInOrder : Prop :=
  (∀ s : State, (s.tb.state ≠ .notAligned → s.stepClock = s.gc.toNat) ∧ (s.boot = .warmPower → s.stepClock = s.gc.toNat)
    ∧ (s.tb.state = .notAligned → s.boot = .grant → s.stepClock = s.tb.tclk))
  ∧ (∀ s : State, started s → s.pw.state = .run → s.stream.inflight = [] → (∀ x a y, Waiting.unit x a y ∉ s.stream.waiting) →
    s.pw.eff.delay.toNat ≤ s.tb.cycle - s.pw.idleSince →
    exec .idleTimeout s = .next { s with pw :=
      if s.pw.eff.sleep then { s.pw with state := .sleep, down := some (7, BitVec.ofNat 64 s.stepClock), ustep := s.pw.stagger.toNat }
      else { s.pw with state := .gated } })
  ∧ (∀ (g : Nat) (u : Gc) (s : State), s.pw.state = .sleep → s.pw.down = some (g, u) → u.toNat ≤ s.stepClock →
    exec .powerDownStep s = .next { s with pw := { s.pw with
      on := s.pw.on &&& ~~~((1 : Byte) <<< g), down := if g = 0 then none else some (g - 1, u + BitVec.ofNat 64 s.pw.ustep) } })
  ∧ (∀ s : State, s.pw.greq = true →
    exec .pwGrant s = .next { s with pw := { s.pw with
      greq := false, state := if s.pw.state = .halt then .halt else .waking
      before := if s.pw.state = .halt then .waking else s.pw.before
      ustep := s.pw.stagger.toNat, grant := some (BitVec.ofNat 64 s.stepClock), nextGroup := 0, down := none } })
  ∧ ∀ (u : Gc) (s : State), s.pw.state ≠ .halt → s.pw.grant = some u → u.toNat ≤ s.stepClock →
    s.behind u.toNat 2 = false →
    (s.pw.nextGroup < 8 → exec .laneGroupPowerStep s = .next { s with pw := { s.pw with
      on := if (s.ft.group s.pw.nextGroup).st = .disabled then s.pw.on else s.pw.on ||| ((1 : Byte) <<< s.pw.nextGroup)
      nextGroup := s.pw.nextGroup + 1, grant := some (u + BitVec.ofNat 64 s.pw.ustep) } })
    ∧ (8 ≤ s.pw.nextGroup → exec .laneGroupPowerStep s = .next { s with
      pw := { s.pw with grant := none, state := .run, idleSince := s.tb.cycle }
      boot := if s.boot = .grant then .mbist else if s.boot = .warmPower then .warmClear else s.boot })

/-! ### Faults -/

/-- RESIDUE_MISMATCH on a lane that works for a command, and CHECKER_MISMATCH of a group, stop the command's beats and put the lane
under test (R393, R394, R396); the checker's also exposes the time since the lane's last clean check (R254). That the command concerned is the oldest with a beat in flight is the
model's choice (logs 36 and 85). -/
def Obligations.MismatchesStopAndTest : Prop :=
  (∀ (g l : Nat) (c : Inflight) (s : State), started s → s.pw.state = .run → s.ft.unit ≠ .offline → s.ft.recovery = none → g < 8 → l < 32 →
    (s.ft.group g).st ≠ .disabled → (s.stream.inflight.find? fun c => !c.beats.isEmpty) = some c →
    exec (.residueMismatch (.lane g l)) s = .next { s with ft := { s.ft with
      residue := satAdd s.ft.residue 1
      recovery := some { tag := some c.tag, suspects := [{ group := g, lane := l, checker := false }], last := (g, l), logged := false } } })
  ∧ ∀ (g : BitVec 3) (s : State), started s → s.pw.state = .run → s.ft.unit ≠ .offline → s.ft.recovery = none →
    (s.ft.group g.toNat).st ≠ .disabled →
    let l := s.ft.step % 32
    ∃ t r, exec (.checkerMismatch g) s = .next t ∧ t.ft.mismatches = satAdd s.ft.mismatches 1 ∧ t.ft.recovery = some r
      ∧ r.suspects = [{ group := g.toNat, lane := l, checker := true }] ∧ r.logged = false
      ∧ r.tag = ((s.stream.inflight.find? fun c => !c.beats.isEmpty).map fun c => c.tag)
      ∧ (t.ft.group g.toNat).clean = false
      ∧ t.prov.rcpt.exposures = s.prov.rcpt.exposures ++ [(vecGet (s.ft.group g.toNat).lastCheck l 0, s.gc, 1)]
      ∧ t.prov.cur = s.prov.cur ∧ t.prov.prev = s.prov.prev ∧ t.prov.keys = s.prov.keys
      ∧ t = { s with ft := t.ft, prov := t.prov }

/-- LANE_TEST_COMPLETE of a lone suspect (R397, Table 15.2), for a residue mismatch on a full group with a sound spare: a lane that passes and has not
failed so twice within a second is kept, one that fails goes to the spare with `LANEF`; either way the recovery ends. The
command concerned restarts from its first beat with its captures and one more replay, logged as `RPLAY` (R399). The context byte of the entries is
log 16. -/
def Obligations.LaneTestSettlesLane : Prop :=
  (∀ (g l : Nat) (passes checkerOk : Bool) (s : State), started s → s.ft.unit ≠ .offline → g < 8 →
    s.ft.recovery = some { tag := none, suspects := [{ group := g, lane := l, checker := false }], last := (g, l), logged := false } →
    (s.ft.group g).st = .full → (s.ft.group g).spareBad = false → (s.ft.group g).transients = [] →
    ∃ t, exec (.laneTestComplete passes checkerOk) s = .next t ∧ t.ft.recovery = none
      ∧ (passes = true → (t.ft.group g) = { s.ft.group g with transients := [(l, s.gc)] } ∧ t.ledger = s.ledger)
      ∧ (passes = false → (t.ft.group g) = { s.ft.group g with st := .spare, remap := BitVec.ofNat 8 l, cause := 1 }
          ∧ t.ft.remaps = satAdd s.ft.remaps 1 ∧ ∃ detail, t.ledger = (s.log 0x0301 0xFFFF none detail).ledger)
      ∧ t.prov.rcpt = s.prov.rcpt ∧ t.prov.keys = s.prov.keys
      ∧ t = { s with ft := t.ft, ledger := t.ledger, evRings := t.evRings, prov := t.prov })
  ∧ ∀ (g l : Nat) (checkerOk : Bool) (c : Inflight) (s : State), started s → s.ft.unit ≠ .offline → g < 8 →
    s.ft.recovery = some { tag := some c.tag, suspects := [{ group := g, lane := l, checker := false }], last := (g, l), logged := false } →
    (s.ft.group g).st = .full → (s.ft.group g).transients = [] → s.stream.inflight = [c] → c.fault = none → c.replays.toNat < 2 →
    c.pre = [] → c.preSynd = [] → c.takesAcc = false →
    ∃ (t : State) (d : Inflight), exec (.laneTestComplete true checkerOk) s = .next t ∧ t.stream = { s.stream with inflight := [d] }
      ∧ d.slot = c.slot ∧ d.modes = c.modes ∧ d.regs = c.regs ∧ d.started = 0 ∧ d.left = c.total ∧ d.beats = [] ∧ d.hard = []
      ∧ d.rowsDone = 0 ∧ d.opened = 0 ∧ d.writes = [] ∧ d.gather = [] ∧ d.recs = [] ∧ d.keeps = [] ∧ d.flags = {} ∧ d.fault = none ∧ d.replays = c.replays + 1
      ∧ t.ft.recovery = none ∧ t.ft.replays = satAdd s.ft.replays 1
      ∧ t.ledger = (s.log 0x0303 c.tag (some c.slot.tenant)
          [BitVec.ofNat 8 (c.replays.toNat + 1), BitVec.ofNat 8 g, BitVec.ofNat 8 l]).ledger
      ∧ t = { s with ft := t.ft, stream := t.stream, ledger := t.ledger, evRings := t.evRings, prov := t.prov }

/-- Checks and what they find (R253, R394, R395, R401 to R403). CHECKER_ROTATION_STEP: a rotation step of the checkers ends the window of one lane: a group
that is not disabled, has seen no mismatch and ran throughout has a clean check of that lane at the present time, the window of every group
begins clean, and at most one sweep is counted, at the present time (log 40); steps that a jump of the view makes due follow one by one (R369).
ROM_SCAN_PASS: while the lanes run or wake a clean scan pass is recorded at the present time, and otherwise no pass ends; a mismatch, and
TABLE_ROM_PARITY of a group's ROM, disable the group while no other is lost, log `LGNAR` and `TROMP`, and expose the time since the last clean pass.
LOCKSTEP_MISMATCH logs `LOCKF` and takes the unit offline: every command in flight that was not refused at issue (log 39) and has not retired with the
change of its curve slots (log 94) carries `UNITX` (R448), its
beats run on and write nothing more (the model's reading of R448, DEDUCED, log 25), and no unconfirmed receipt stays valid. The context byte of the entries is log 16. -/
def Obligations.ChecksRomsAndLockstep : Prop :=
  (∀ s : State, s.boot = .ready → s.tb.state ≠ .notAligned → s.ft.step < s.gc.toNat / 128000 →
    s.behind (128000 * (s.ft.step + 1)) 4 = false →
    ∃ t, exec .checkerRotationStep s = .next t ∧ t.ft.step = s.ft.step + 1
      ∧ (∀ g : Nat, g < 8 → ∀ l : Nat, l < 32 → let x := s.ft.group g
          vecGet (t.ft.group g).lastCheck l 0 =
            if x.st ≠ .disabled ∧ x.clean = true ∧ s.ft.ran = true ∧ l = s.ft.step % 32 then s.gc else vecGet x.lastCheck l 0)
      ∧ (∀ g : Nat, g < 8 → (t.ft.group g).clean = true ∧ (t.ft.group g).st = (s.ft.group g).st ∧ (t.ft.group g).remap = (s.ft.group g).remap)
      ∧ (t.ft.sweeps = s.ft.sweeps ∨ t.ft.sweeps = satAdd s.ft.sweeps 1 ∧ t.ft.sweepGc = s.gc)
      ∧ t.ft.ran = (s.pw.state == .run)
      ∧ t = { s with ft := t.ft })
  ∧ (∀ s : State, s.boot = .ready → exec (.romScanPass none) s = .next (
      if s.pw.state = .run ∨ s.pw.state = .waking then
        { s with ft := { s.ft with romGc := s.gc, romPasses := satAdd s.ft.romPasses 1 } }
      else s))
  ∧ (∀ (g : Nat) (s : State), s.boot = .ready → s.pw.state = .run → s.ft.unit ≠ .offline → g < 8 → (s.ft.group g).st ≠ .disabled →
    s.ft.otherLost g = false → (∀ c ∈ s.stream.inflight, c.beats = []) → ∀ parity : Bool,
    ∃ t, exec (if parity then .tableRomParity g else .romScanPass (some g)) s = .next t
      ∧ t.ft.group g = { s.ft.group g with st := .disabled, cause := 3 }
      ∧ (∀ k : Nat, k ≠ g → t.ft.group k = s.ft.group k)
      ∧ t.ft.parity = (if parity then satAdd s.ft.parity 1 else s.ft.parity)
      ∧ t.ft.scan = (if parity then s.ft.scan else satAdd s.ft.scan 1)
      ∧ t.prov.rcpt.exposures = s.prov.rcpt.exposures ++ [(s.ft.romGc, s.gc, 2)]
      ∧ t.ledger = ((s.log 0x0302 0xFFFF none [BitVec.ofNat 8 g, 1]).log 0x0305 0xFFFF none
          ([BitVec.ofNat 8 g, if parity then 0 else 1, 0, 0, 0, 0, 0, 0] ++ leBytes 8 s.ft.romGc.toNat)).ledger
      ∧ t = { s with ft := t.ft, prov := t.prov, ledger := t.ledger, evRings := t.evRings })
  ∧ ∀ (signals : W32) (s : State), started s → s.ft.unit ≠ .offline →
    ∃ t, exec (.lockstepMismatch signals) s = .next t
      ∧ t.ft = { s.ft with lockstep := satAdd s.ft.lockstep 1, unit := .offline, cause := 0, recovery := none, tallyTags := [] }
      ∧ t.ledger = ((s.log 0x0306 0xFFFF none (leBytes 4 signals.toNat)).log 0x0307 0xFFFF none [0]).ledger
      ∧ t.stream = { s.stream with
          acc := none
          inflight := s.stream.inflight.map fun c => if c.refused || c.gone then c else
            { c with fault := some 0x0307, detail := [0], ready := false, muted := true, gather := [], writes := [] } }
      ∧ t.prov.rcpt.exposures = s.prov.rcpt.exposures ++ [(s.prov.rcpt.lastConfirm, s.gc, 3)]
      ∧ (∀ e ∈ t.prov.rcpt.entries, e.confirmed = true ∨ e.reason.isSome)
      ∧ t = { s with ft := t.ft, stream := t.stream, prov := t.prov, ledger := t.ledger, evRings := t.evRings }

/-! ### Receipts and keys -/

/-- The signing engine (R251 to R255). SIGNATURE_COMPLETE: the oldest queued receipt is signed over its record and logged as `SEALD`. RECEIPT_WINDOW_TEST:
at their deadlines, while the lanes run or wake, the signed receipts whose lanes and ROMs have been checked clean since GC_SEAL go to the
notice queue in the order of the store, but those behind other due events (R369); while the lanes are gated, asleep or halted no
window closes. NOTICE_SIGNED: the oldest notice is formed, signed and logged as `CONFM`, or as `PROVX` for an invalidated receipt. Records and
other receipts do not change. The context byte of the entries is log 16, and that a notice is formed when it is signed log 89. -/
def Obligations.ReceiptsAreSignedAndConfirmed : Prop :=
  (∀ (e : Receipt) (q : W64) (qs : List W64) (as bs : List Receipt) (s : State), let r := s.prov.rcpt
    s.signs = true → r.signQ = q :: qs → (r.noticeTurn = false ∨ r.noticeQ = []) → r.entries = as ++ e :: bs → e.rseq = q →
    (∀ x ∈ as, x.rseq ≠ q) → e.reason = none → (∀ x ∈ as ++ bs, x.status = .signed → x.reason = none) → s.prov.keys.rot = .idle →
    exec .signatureComplete s = .next (({ s with prov := { s.prov with rcpt := { r with
        entries := as ++ { e with sig := ecdsaSign s.key e.record, status := .signed } :: bs, signQ := qs, noticeTurn := true } } } : State).log
      0x0901 0xFFFF (some e.tenant) (leBytes 8 q.toNat)))
  ∧ (∀ s : State, let r := s.prov.rcpt
    let closes (e : Receipt) : Bool := e.status == .signed && decide (e.deadline.toNat ≤ s.gc.toNat) && s.checkedSince e.gcSeal
      && !s.behind e.deadline.toNat 7
    s.boot = .ready → s.tb.state ≠ .notAligned → (r.entries.map fun e => e.rseq).Nodup →
    (∀ x ∈ r.entries, x.status = .signed → x.reason = none) → r.noticeQ.length + (r.entries.filter closes).length ≤ 64 →
    exec .receiptWindowTest s = .next (if s.pw.state = .run ∨ s.pw.state = .waking then
        { s with prov := { s.prov with rcpt := { r with
          entries := r.entries.map fun e => if closes e then { e with status := .noticeQueued } else e
          noticeQ := r.noticeQ ++ (r.entries.filter closes).map fun e => e.rseq } } }
      else s))
  ∧ ∀ (e : Receipt) (q : W64) (qs : List W64) (as bs : List Receipt) (s : State), let r := s.prov.rcpt
    s.signs = true → r.noticeQ = q :: qs → (r.noticeTurn = true ∨ r.signQ = []) → r.entries = as ++ e :: bs → e.rseq = q →
    (∀ x ∈ as, x.rseq ≠ q) → (∀ x ∈ as ++ bs, x.status = .signed → x.reason = none) → s.prov.keys.rot ≠ .programming →
    let after (n : List Byte) : State := { s with prov := { s.prov with rcpt := { r with
      entries := as ++ { e with notice := n, nsig := ecdsaSign s.key n, status := .noticed, confirmed := e.reason.isNone } :: bs
      noticeQ := qs, noticeTurn := false, lastConfirm := if e.reason = none then s.gc else r.lastConfirm } } }
    let head (n : List Byte) (kind : Byte) : Prop := n.take 2 = [0x01, kind] ∧ slice n 24 8 = leBytes 8 s.gc.toNat
      ∧ slice n 16 8 = leBytes 8 q.toNat ∧ slice n 32 48 = sha384 e.record
    (e.reason = none → ∃ n, exec .noticeSigned s = .next ((after n).log 0x0902 0xFFFF (some e.tenant) (leBytes 8 q.toNat)) ∧ head n 1)
    ∧ ∀ k g, e.reason = some (k, g) → (k ≠ 4 ∨ s.boot = .ready) →
      ∃ n, exec .noticeSigned s = .next ((after n).log 0x0903 0xFFFF (some e.tenant) (leBytes 8 q.toNat ++ leBytes 2 k)) ∧ head n 2
        ∧ slice n 2 2 = leBytes 2 k ∧ slice n 80 8 = leBytes 8 g.toNat

/-- Keys (R258, R260, R438). KEY_GENERATED: a rotation's key is drawn and waits until the signing queue has drained, when the transition
record is formed, under the GC of that moment, and signed with the old key. KEYRT programs that record and the key, advances KEYGEN and is
logged. KEY_GENERATION: the first start's key becomes generation 0. KEY_GENERATION_TIMEOUT: without one 50 ms after generation began the
unit is offline. The key is one more than an accepted draw, which is free (log 10);
the context byte of an entry is log 16. -/
def Obligations.KeysAreMadeAndRotated : Prop :=
  let drawn (s : State) (k : BitVec 384) : Prop := k.toNat = (Config.keyDraw s.free).val + 1
  (∀ s : State, s.prov.keys.rot = .generating → s.boot ≠ .testMode →
    ∃ k r, drawn s k
      ∧ exec .keyGenerated s = .next { s with
        free := s.free + 1
        prov := { s.prov with keys := { s.prov.keys with
          rot := if s.prov.rcpt.signQ = [] then .programming else .waiting, next := some k, record := r } } }
      ∧ (s.prov.rcpt.signQ ≠ [] → r = s.prov.keys.record)
      ∧ (s.prov.rcpt.signQ = [] → r.take 24 = leBytes 2 s.prov.keys.keygen.toNat ++ leBytes 2 (s.prov.keys.keygen + 1).toNat ++ [0, 0, 0, 0]
          ++ leBytes 8 s.fixed.ident.serial.toNat ++ leBytes 8 s.gc.toNat))
  ∧ (∀ (k : BitVec 384) (s : State), s.prov.keys.rot = .programming → s.prov.keys.next = some k →
    let rec_ := s.prov.keys.record
    ∃ t, exec .keyrt s = .next t
      ∧ t.prov = { s.prov with keys := { s.prov.keys with keygen := s.prov.keys.keygen + 1, rot := .idle, next := none, record := [] } }
      ∧ t.fixed = { s.fixed with
          otp := { s.fixed.otp with keys := s.fixed.otp.keys ++ [k], trans := s.fixed.otp.trans ++ [rec_] }
          ident := { s.fixed.ident with trans := s.fixed.ident.trans ++ [rec_] } }
      ∧ t.ledger = (s.log 0x0802 0xFFFF none (leBytes 2 s.prov.keys.keygen.toNat ++ leBytes 2 (s.prov.keys.keygen + 1).toNat)).ledger
      ∧ t = { s with fixed := t.fixed, prov := t.prov, ledger := t.ledger, evRings := t.evRings })
  ∧ (∀ s : State, s.prov.keys.gen = true → s.boot ≠ .testMode → s.boot ≠ .otpLoad →
    ∃ k, drawn s k ∧ exec .keyGeneration s = .next { s with
      free := s.free + 1, fixed := { s.fixed with otp := { s.fixed.otp with keys := [k] } }
      prov := { s.prov with keys := { s.prov.keys with keygen := 0, gen := false, need := false } }
      boot := if s.boot = .tsync ∧ s.tb.state ≠ .notAligned then .ready else s.boot })
  ∧ ∀ s : State, s.prov.keys.gen = true → s.prov.keys.began + 50000000 ≤ s.tb.tclk →
    ∃ t, exec .keyGenerationTimeout s = .next t ∧ t.ft.unit = .offline ∧ t.prov.keys.gen = false
      ∧ t.boot = (if s.boot = .tsync ∧ s.tb.state ≠ .notAligned then .ready else s.boot)
      ∧ t.prov = { s.prov with keys := { s.prov.keys with gen := false } } ∧ t.ft = { s.ft with unit := .offline, cause := t.ft.cause }
      ∧ t = { s with ft := t.ft, prov := t.prov, boot := t.boot, free := t.free }

/-! ### Management -/

/-- A request is malformed, and is answered with abort 0xA009, when its length is not 72 bytes, VERSION is not 1, OP is reserved, RESP,
STATUS or a reserved bit is nonzero, or LEN exceeds 56. It is not processed further, and its response echoes the fields as they
arrived (R349); it counts as served, as an abort and as a violation (R355, R357, log 59). On both paths, and on the management port for a request that is
served in the cycle in which it comes as well as for one that has waited in the queue (R353); one of the driver is served at the end of a cycle in
which none of the operator waits (R346, log 59). A partner that is limited gets 0xA00C for
every request, which counts as an abort and as limited alone (R356, R357). -/
def Obligations.MalformedRequestsAreAborted : Prop :=
  let malformed (frame : List Byte) : Prop :=
    let b (i : Nat) : Nat := (frame.getD i 0).toNat
    frame.length ≠ 72 ∨ b 0 ≠ 1 ∨ (b 1 ≠ 1 ∧ b 1 ≠ 2 ∧ b 1 ≠ 3) ∨ 128 ≤ b 7 ∨ b 7 % 64 ≠ 0 ∨ b 15 ≠ 0 ∨ 56 < b 14
  let aborted (frame resp : List Byte) : Prop := resp.length = 72 ∧ (∀ i : Nat, i < 7 → resp.getD i 0 = frame.getD i 0)
    ∧ resp.getD 7 0 = 0x80 ∧ resp.getD 12 0 = frame.getD 12 0 ∧ resp.getD 13 0 = frame.getD 13 0
    ∧ resp.getD 14 0 = 2 ∧ resp.getD 15 0 = 1 ∧ resp.getD 16 0 = 0x09 ∧ resp.getD 17 0 = 0xA0
  let counted (s t : State) : Prop := t = { s with mg := t.mg, ledger := t.ledger, evRings := t.evRings, out := t.out }
    ∧ t.mg = { s.mg with
        partners := t.mg.partners, served := satAdd s.mg.served 1, aborts := satAdd s.mg.aborts 1
        violations := satAdd s.mg.violations 1, taken := t.mg.taken }
  (∀ (c : Instr) (eid : Byte) (frame : List Byte) (s : State),
    c = .frameRead eid frame ∨ c = .frameWrite eid frame ∨ c = .frameCancel eid frame →
    s.boot = .ready → (s.partner (some eid)).limited = false → s.mg.taken = false → s.mg.queue = [] → malformed frame →
    ∃ t resp, exec c s = .next t ∧ t.out = { s.out with mg := s.out.mg ++ [(some eid, resp)] } ∧ aborted frame resp ∧ counted s t
      ∧ t.mg.taken = true)
  ∧ (∀ (frame : List Byte) (fs : List (List Byte)) (s : State), s.pending = [] → s.boot = .ready → s.mg.queue = [] →
    s.mg.asked = frame :: fs → (s.partner none).limited = false → malformed frame →
    ∃ t, step s = .next t ∧ t.out.mg = s.out.mg ++ [(none, t.mg.resp)] ∧ aborted frame t.mg.resp
      ∧ t.mg = { s.mg with
          partners := t.mg.partners, served := satAdd s.mg.served 1, aborts := satAdd s.mg.aborts 1
          violations := satAdd s.mg.violations 1, asked := fs, ready := true, resp := t.mg.resp, taken := true })
  ∧ (∀ (eid : Byte) (frame : List Byte) (qs : List (Byte × List Byte)) (s : State), s.pending = [] → s.boot = .ready →
    s.mg.queue = (eid, frame) :: qs → (s.partner (some eid)).limited = false → malformed frame →
    ∃ t resp, step s = .next t ∧ t.out.mg = s.out.mg ++ [(some eid, resp)] ∧ aborted frame resp ∧ t.mg.queue = qs ∧ t.mg.taken = true
      ∧ t.mg.served = satAdd s.mg.served 1 ∧ t.mg.aborts = satAdd s.mg.aborts 1 ∧ t.mg.violations = satAdd s.mg.violations 1)
  ∧ (∀ (c : Instr) (eid : Byte) (frame : List Byte) (s : State),
    c = .frameRead eid frame ∨ c = .frameWrite eid frame ∨ c = .frameCancel eid frame →
    s.boot = .ready → (s.partner (some eid)).limited = true → s.mg.taken = false → s.mg.queue = [] →
    exec c s = .next { s with
      mg := { s.mg with aborts := satAdd s.mg.aborts 1, limited := satAdd s.mg.limited 1, taken := true }
      out := { s.out with mg := s.out.mg ++ [(some eid, (Request.ofBytes (padTo 72 frame)).abort 0xA00C)] } })
  ∧ ∀ (frame : List Byte) (fs : List (List Byte)) (s : State), s.pending = [] → s.boot = .ready → s.mg.queue = [] →
    s.mg.asked = frame :: fs → (s.partner none).limited = true →
    let resp := (Request.ofBytes (padTo 72 frame)).abort 0xA00C
    ∃ t, step s = .next t ∧ t.out.mg = s.out.mg ++ [(none, resp)]
      ∧ t.mg = { s.mg with
          aborts := satAdd s.mg.aborts 1, limited := satAdd s.mg.limited 1, asked := fs, ready := true, resp := resp, taken := true }

/-- Requests of the management port. FRAME_READ: a well-formed SEG 0 READ is answered with the first 56 bytes of the item's value, or its abort
code (R350). FRAME_WRITE: a WRITE of one segment whose bytes are TOTAL long is applied and acknowledged, or refused with the code of its
first failing check and without effect on the item (R345, R351). FRAME_CANCEL closes its transaction (R352). Others wait, up to 8, and one
that finds the queue full is answered with 0xA00C (R353). That the first request of a cycle is served at once, and that those that wait are taken one in a
cycle, at a step on an empty queue of commands, is the model's choice (logs 3 and 59), which meets that accesses are served one at a time (R346). -/
def Obligations.FramesAreServed : Prop :=
  (∀ (eid : Byte) (frame : List Byte) (s : State), s.boot = .ready → (s.partner (some eid)).limited = false →
    s.mg.taken = false → s.mg.queue = [] →
    let q := Request.ofBytes frame
    q.malformed frame.length = false →
    let answers (t : State) (resp : List Byte) : Prop := t.out = { s.out with mg := s.out.mg ++ [(some eid, resp)] }
    (q.op = 1 → q.seg = 0 →
      let r := s.odRead .operator s.ep.cur.strict q.index.toNat q.sub.toNat
      ∃ t, exec (.frameRead eid frame) s = .next t
        ∧ answers t (if r.2.1 = 0 then q.respond (decide (r.2.2.length ≤ 56)) r.2.2.length 0 (r.2.2.take 56) else q.abort r.2.1)
        ∧ t = { s with mg := t.mg, out := t.out })
    ∧ (q.op = 2 → q.seg = 0 → q.last = true → (q.payload.take q.len).length = q.total →
      ∃ ps, (∀ p ∈ ps, p.eid ≠ some eid → p ∈ s.mg.partners) ∧
        (let u : State := { s with mg := { s.mg with partners := ps, taken := true } }
         let r := u.odWrite .operator q.index.toNat q.sub.toNat (q.payload.take q.len)
         ∃ t, exec (.frameWrite eid frame) s = .next t
           ∧ t.out = { r.1.out with mg := r.1.out.mg ++ [(some eid, if r.2 = 0 then q.respond false 0 0 [] else q.abort r.2)] }
           ∧ t = { r.1 with mg := { r.1.mg with served := t.mg.served, aborts := t.mg.aborts }, out := t.out }
           ∧ t.mg.served = satAdd r.1.mg.served 1 ∧ t.mg.aborts = (if r.2 = 0 then r.1.mg.aborts else satAdd r.1.mg.aborts 1)
           ∧ (r.2 ≠ 0 → r.2 ≠ 0xA00D → r.2 ≠ 0xA00F → r.1 = u)))
    ∧ (q.op = 3 → ∃ t, exec (.frameCancel eid frame) s = .next t ∧ answers t (q.respond false 0 0 [])
        ∧ (∀ x ∈ (t.partner (some eid)).open_, x.tid ≠ q.tid)
        ∧ t = { s with mg := t.mg, out := t.out }))
  ∧ (∀ (c : Instr) (eid : Byte) (frame : List Byte) (s : State),
    c = .frameRead eid frame ∨ c = .frameWrite eid frame ∨ c = .frameCancel eid frame → s.boot ≠ .otpLoad →
    s.mg.taken = true ∨ s.mg.queue ≠ [] →
    (s.mg.queue.length < 8 → exec c s = .next { s with mg := { s.mg with queue := s.mg.queue ++ [(eid, frame)] } })
    ∧ (8 ≤ s.mg.queue.length → exec c s = .next { s with
        mg := { s.mg with aborts := satAdd s.mg.aborts 1, limited := satAdd s.mg.limited 1 }
        out := { s.out with mg := s.out.mg ++ [(some eid, (Request.ofBytes (padTo 72 frame)).abort 0xA00C)] } }))
  ∧ ∀ (q : Byte × List Byte) (qs : List (Byte × List Byte)) (s : State), s.pending = [] → s.mg.queue = q :: qs →
    ∃ t resp, step s = .next t ∧ t.mg.queue = qs ∧ t.mg.taken = true ∧ resp.length = 72
      ∧ t.out.mg = s.out.mg ++ [(some q.1, resp)]

/-- The driver window and the management timers (R352, R354, R356). DOORBELL: a value of 1 submits REQ and sets BUSY; at the end of a
cycle in which no request of the operator waits, the frame is served and its response stands ready (R346, log 59). RELEASE clears both. DRIVER_WINDOW_WRITE: a word of REQ is written while BUSY is clear, and discarded and counted while it is set. A read gives STATUS
at 0x04C, the response from 0x080 and zero elsewhere (Table 13.7). TRANSACTION_TIMEOUT: a transaction without a segment for 100 ms closes.
RATE_WINDOW: a new second's window lifts every limit. While a unit is held in reset no access has an effect (R434, log 91). -/
def Obligations.DriverWindowAndTimers : Prop :=
  (∀ s : State, s.boot ≠ .otpLoad → s.mg.busy = false →
    exec (.doorbell 1) s = .next { s with mg := { s.mg with busy := true, asked := s.mg.asked ++ [s.mg.req] } })
  ∧ (∀ (f : List Byte) (fs : List (List Byte)) (s : State), s.pending = [] → s.mg.queue = [] → s.mg.asked = f :: fs →
    ∃ t, step s = .next t ∧ t.mg.asked = fs ∧ t.mg.taken = true ∧ t.mg.ready = true ∧ t.mg.busy = s.mg.busy ∧ t.mg.resp.length = 72
      ∧ t.out.mg = s.out.mg ++ [(none, t.mg.resp)] ∧ t.mg.req = s.mg.req)
  ∧ (∀ s : State, s.boot ≠ .otpLoad → exec (.release 1) s = .next { s with mg := { s.mg with busy := false, ready := false } })
  ∧ (∀ (c : Instr) (s : State), s.boot = .otpLoad →
      (∃ eid frame, c = .frameRead eid frame ∨ c = .frameWrite eid frame ∨ c = .frameCancel eid frame)
      ∨ (∃ v o, c = .doorbell v ∨ c = .release v ∨ c = .driverWindowWrite o v) ∨ (∃ path, c = .statementRead path) →
      exec c s = .next s)
  ∧ (∀ (offset : BitVec 10) (value : W32) (s : State), s.boot ≠ .otpLoad → offset.toNat < 18 → s.mg.req.length = 72 →
      (s.mg.busy = false → ∃ t, exec (.driverWindowWrite offset value) s = .next t
        ∧ (∀ i : Nat, i < 72 → t.mg.req.getD i 0 = if 4 * offset.toNat ≤ i ∧ i < 4 * offset.toNat + 4 then
            (value >>> (8 * (i - 4 * offset.toNat))).setWidth 8 else s.mg.req.getD i 0)
        ∧ t = { s with mg := { s.mg with req := t.mg.req } })
      ∧ (s.mg.busy = true → ∃ t, exec (.driverWindowWrite offset value) s = .next t ∧ t.mg.req = s.mg.req
        ∧ t.mg.discards = satAdd s.mg.discards 1 ∧ t.mg.violations = satAdd s.mg.violations 1 ∧ t.mg.busy = true
        ∧ t = { s with mg := t.mg, ledger := t.ledger, evRings := t.evRings }))
  ∧ (∀ (offset : BitVec 10) (s : State), s.driverWindowRead offset =
      if s.boot = .otpLoad then 0
      else if offset.toNat = 0x13 then BitVec.ofNat 32 (s.mg.busy.toNat + 2 * s.mg.ready.toNat)
      else if 0x20 ≤ offset.toNat ∧ offset.toNat < 0x32 then BitVec.ofNat 32 (leAt s.mg.resp (4 * (offset.toNat - 0x20)) 4) else 0)
  ∧ (∀ s : State, ∃ t, exec .transactionTimeout s = .next t
      ∧ (∀ p ∈ t.mg.partners, ∀ x ∈ p.open_, s.gc.toNat < x.gc.toNat + 100000000)
      ∧ t = { s with mg := { s.mg with partners := t.mg.partners, timeouts := t.mg.timeouts } })
  ∧ ∀ s : State, s.mg.window < s.gc.toNat / 1000000000 →
    exec .rateWindow s = .next { s with mg := { s.mg with
      window := s.gc.toNat / 1000000000, partners := s.mg.partners.map fun p => { p with violations := 0, limited := false } } }

/-- Accepted writes of dictionary items outside thermal halt (R260, R345, R373, R375, R256, R307, R411, R420). OD_WRITE: the lock mask; SWITCH_GC_WRITE: a switch GC later than
the view, which arms the schedule; DISARM: of an armed schedule, with no slot waiting, which withdraws it; ROTATE: a rotation, which begins
key generation; RECEIPT_RELEASE: of a receipt that has its notice; ROLL_RECORD_WRITE: the base of an unused disabled roll, exactly as a `ROLLSET` with that base, at once or when the
older entries that its box meets are gone; COUNTER_CLEAR: of the activity counters; and EVENT_RING_ENABLE: of an
event ring, which starts it empty at the next Ledger entry. Each answers with no abort and changes nothing else but the management counters. -/
def Obligations.DictionaryWritesApply : Prop :=
  ∀ s : State, s.boot = .ready → s.pw.state ≠ .halt →
    let done (t u : State) : Prop := t = { u with
      mg := { u.mg with served := satAdd u.mg.served 1 }, out := { u.out with od := u.out.od ++ [(.operator, 0)] } }
    (∀ v : W32, v.toNat < 128 → ∃ t, exec (.odWrite .operator 0x3100 1 (leBytes 4 v.toNat)) s = .next t
      ∧ done t { s with mg := { s.mg with lockMask := v } })
    ∧ (∀ v : W64, (s.ep.armed = true → s.gc.toNat < s.ep.switchGc.toNat) → s.ep.pendEpoch ≠ s.ep.curEpoch →
      s.ep.pendEpoch ≠ s.ep.prevEpoch → s.gc.toNat < v.toNat →
      ∃ t, exec (.switchGcWrite .operator (leBytes 8 v.toNat)) s = .next t
        ∧ done t { s with ep := { s.ep with switchGc := v, armed := true } })
    ∧ (s.ep.armed = true → s.gc.toNat < s.ep.switchGc.toNat → (∀ x a y, Waiting.unit x a y ∉ s.stream.waiting) →
      ∃ t, exec (.disarm .operator [1]) s = .next t ∧ done t { s with ep := { s.ep with armed := false } })
    ∧ (s.prov.keys.rot = .idle → s.fixed.otp.keys ≠ [] → s.prov.keys.keygen ≠ 15 →
      ∃ t, exec (.rotate .operator [1]) s = .next t
        ∧ done t { s with prov := { s.prov with keys := { s.prov.keys with rot := .generating } } })
    ∧ (∀ e : Receipt, s.prov.rcpt.entry? e.rseq = some e → e.status = .noticed →
      ∃ t, exec (.receiptRelease .operator (leBytes 8 e.rseq.toNat)) s = .next t
        ∧ done t { s with prov := { s.prov with rcpt := { s.prov.rcpt with entries := s.prov.rcpt.entries.filter fun x => x.rseq != e.rseq } } })
    ∧ (∀ (i : BitVec 4) (v : W32), let r := s.roll i.toNat
      let new := r.set r.enable r.overwrite v r.slotb r.nslot
      let held := s.escrow.entries.any fun e => new.boxes.any fun b => b.hazard e.box
      r.enable = false → s.rollBusy i.toNat = false → s.escrow.sets = [] → v.toNat % 64 = 0 →
      ∃ t, exec (.rollRecordWrite .operator i 2 (leBytes 4 v.toNat)) s = .next t
        ∧ (held = false → t.roll i.toNat = new ∧ (∀ k : Nat, k ≠ i.toNat → t.roll k = s.roll k)
          ∧ done t { s with rolls := t.rolls, stream := { s.stream with claims := s.stream.claims.filter fun x => x.roll != i.toNat } })
        ∧ (held = true → done t { s with escrow := { s.escrow with sets := [(i.toNat, new, s.escrow.entries.map fun e => e.tag)] } }))
    ∧ (∃ t, exec (.counterClear .operator [1]) s = .next t ∧ (∀ k : Nat, k < 22 → vecGet t.act k 1 = 0) ∧ done t { s with act := t.act })
    ∧ (s.mg.selRing.operator.toNat < 64 → let r := vecGet s.evRings s.mg.selRing.operator.toNat .default
      r.enable = false → ∃ t, exec (.eventRingEnable .operator [1]) s = .next t
        ∧ vecGet t.evRings s.mg.selRing.operator.toNat .default = { r with enable := true, wr := 0, rd := 0, dropped := 0, next := s.ledger.tail }
        ∧ (∀ k : Nat, k ≠ s.mg.selRing.operator.toNat → vecGet t.evRings k .default = vecGet s.evRings k .default)
        ∧ done t { s with evRings := t.evRings })

/-- STATEMENT_READ: reading 0x9000:01 captures a Statement into the path's own buffer with its GC and changes nothing else in the unit but the management counters (R359, R363,
R364). Event rings (R410, R411, R431). EVENT_POST: the copy that goes next is presented for the slot of its ring's write index, or dropped where the ring is full under policy
0. EVENT_WRITE_DONE: the completion of a write advances the write index or counts the record as dropped. -/
def Obligations.StatementsAndEventRings : Prop :=
  (∀ (path : Path) (s : State), s.boot = .ready →
    ∃ t, exec (.statementRead path) s = .next t
      ∧ t.mg = { s.mg with
          stmts := s.mg.stmts.set path (s.statement (if path = .tenant then some s.tn.active else none), s.gc)
          served := satAdd s.mg.served 1 }
      ∧ t = { s with mg := t.mg, out := { s.out with od := s.out.od ++ [(path, 0)] } })
  ∧ (∀ (n : Nat) (e : LEntry) (s : State), s.nextCopy = some (n, e) → n < 64 → s.evOut.length < 16 → (∀ w ∈ s.evOut, w.1 ≠ n) →
    let r := vecGet s.evRings n .default
    ∃ t, exec .eventPost s = .next t
      ∧ (∀ k : Nat, k ≠ n → vecGet t.evRings k .default = vecGet s.evRings k .default)
      ∧ (if r.wr - r.rd = r.size ∧ r.policy = false then
          vecGet t.evRings n .default = { r with next := e.seq + 1, dropped := satAdd r.dropped 1 } ∧ t = { s with evRings := t.evRings }
        else
          let w := (n, r.base + BitVec.ofNat 64 (32 * (r.wr.toNat % r.size.toNat)), e.bytes)
          vecGet t.evRings n .default = { r with next := e.seq + 1 }
            ∧ t = { s with evRings := t.evRings, evOut := s.evOut ++ [w], out := { s.out with ev := s.out.ev ++ [w] } }))
  ∧ ∀ (failed : Bool) (w : Nat × W64 × List Byte) (rest : List (Nat × W64 × List Byte)) (s : State), s.evOut = w :: rest → w.1 < 64 →
    let r := vecGet s.evRings w.1 .default
    ∃ t, exec (.eventWriteDone failed) s = .next t
      ∧ vecGet t.evRings w.1 .default = (if failed then { r with dropped := satAdd r.dropped 1 } else { r with wr := r.wr + 1 })
      ∧ (∀ k : Nat, k ≠ w.1 → vecGet t.evRings k .default = vecGet s.evRings k .default)
      ∧ t = { s with evRings := t.evRings, evOut := rest }

/-! ### Start-up, warm reset and the test port -/

/-- Start-up (R436 to R440, R442, R444). OTP_LOAD takes straps, identity and trims, asks for power and lets the rings train: a ring is down until the links of the
unit's own position and of the next have come up (log 41). An uncorrectable word among the trims gives the sensors offset 0 and gain 1.0 (log 92). MBIST leaves every store zero; a clean ROM_CHECK and a clean
LANE_SELF_TEST lead on to TSYNC, and the first SYNC_PULSE then makes the unit ready with Q and V at the count; no check made before it counts for a sweep
that ends after it (R395, log 40). -/
def Obligations.StartUpReachesReady : Prop :=
  (∀ (straps : Straps) (s : State), s.boot = .otpLoad → s.fixed.otp.synd = [] → straps.testMode = false →
    ∃ t, exec (.otpLoad straps) s = .next t ∧ t.boot = .grant ∧ t.fixed.straps = straps
      ∧ t.fixed.otp = s.fixed.otp ∧ t.fixed.spadMiB = s.fixed.spadMiB
      ∧ t.fixed.ident.serial = BitVec.ofNat 64 (leNat ((upTo 8).map fun i => sparseGet 0 s.fixed.otp.bytes i))
      ∧ t.pw = { s.pw with greq := true } ∧ t.prov.keys.gen = s.fixed.otp.keys.isEmpty ∧ t.prov.keys.need = s.fixed.otp.keys.isEmpty
      ∧ t.ft.unit = s.ft.unit ∧ t.prov.rcpt = s.prov.rcpt
      ∧ (let half (a : Nat) : W16 := BitVec.ofNat 16 (leNat ((upTo 2).map fun i => sparseGet 0 s.fixed.otp.bytes (a + i)))
         t.fixed.trims = {
           sensor0 := (half 0x50, half 0x52), sensor1 := (half 0x54, half 0x56)
           energy := (upTo 9).map fun k =>
             BitVec.ofNat 32 (leNat ((upTo 4).map fun i => sparseGet 0 s.fixed.otp.bytes (0x60 + 4 * k + i))) })
      ∧ (∀ c, t.link c = { s.link c with ringDown := [t.position c, (t.position c + 1) % if c = .die then 16 else 4] })
      ∧ t = { s with boot := t.boot, fixed := t.fixed, pw := t.pw, prov := t.prov, ft := t.ft, links := t.links })
  ∧ (∀ (straps : Straps) (w : Nat) (x : Byte) (s : State), s.boot = .otpLoad → (w, x) ∈ s.fixed.otp.synd → (classify x).bad = true →
    0x50 ≤ 8 * w → 8 * w < 0x100 →
    ∃ t, exec (.otpLoad straps) s = .next t ∧ t.fixed.trims.sensor0 = (0, 0x8000) ∧ t.fixed.trims.sensor1 = (0, 0x8000))
  ∧ (∀ s : State, s.boot = .mbist → s.pw.state ≠ .halt → s.fixed.straps.testMode = false →
    ∃ t, exec (.mbist { words := [], lanes := [], array := none }) s = .next t ∧ t.boot = .romCheck ∧ t.spad.mem = [] ∧ t.spad.synd = []
      ∧ t.st = { s.st with till := [], tillSynd := [], tillBad := [], rowTab := [], rowSynd := [], rowBad := [], curveSynd := [] }
      ∧ t.ft = { s.ft with tillFail := [] } ∧ t = { s with boot := t.boot, spad := t.spad, st := t.st, ft := t.ft, setBuf := [] })
  ∧ (∀ s : State, s.boot = .romCheck → s.pw.state ≠ .halt →
    exec (.romCheck []) s = .next { s with boot := .laneTest, ft := { s.ft with romGc := s.gc, romPasses := satAdd s.ft.romPasses 1 } })
  ∧ (∀ s : State, s.boot = .laneTest → s.pw.state ≠ .halt → s.ft.tillFail = [] →
    ∃ t, exec (.laneSelfTest []) s = .next t ∧ t.boot = .tsync
      ∧ (∀ g : Nat, g < 8 → t.ft.group g = if (s.ft.group g).st = .full then { s.ft.group g with spareBad := false } else s.ft.group g)
      ∧ t = { s with boot := t.boot, ft := { s.ft with groups := t.ft.groups } })
  ∧ ∀ (n : Gc) (s : State), s.boot = .tsync → s.tb.state = .notAligned → s.prov.keys.need = false → s.pw.state ≠ .halt →
    (∀ k, (s.link k).trained < 64 ∧ (s.link k).rxTrain < 64) →
    ∃ t, exec (.syncPulse n) s = .next t ∧ t.boot = .ready ∧ t.tb.q = n ∧ t.tb.v = n ∧ t.tb.state = .aligned ∧ t.tb.lastSync = n
      ∧ t = { s with boot := t.boot, tb := t.tb, spad := t.spad, pw := t.pw
                     ft := { s.ft with step := n.toNat / 128000, ran := t.ft.ran, groups := s.ft.groups.map fun g => { g with cover := 0 } } }

/-- WARM_RESET abandons every command, entry, claim and lane store of the context, leaves the view unaligned and invalidates unconfirmed receipts, while the Ledger, the receipts'
records, the epochs, the active context, the counters, the memory until its clear and the dictionary settings stay (R435, Table 17.8). WARM_START, its release, starts the clear of the
scratchpad, with a grant asked for first where the lanes sleep (R441). What stays of the parts that
Table 17.8 does not name, and that the wait for the next pulse begins anew, is log 62; that a sweep of the checkers begins anew is log 40. -/
def Obligations.WarmResetAbandonsCommands : Prop :=
  (∀ s : State, s.boot.warmable = true →
    ∃ t, exec .warmReset s = .next t ∧ t.boot = .warmHeld ∧ t.stream.inflight = [] ∧ t.stream.waiting = [] ∧ t.stream.refused = []
      ∧ t.stream.claims = [] ∧ t.stream.acc = none
      ∧ t.escrow = { s.escrow with entries := [], engines := [], order := [], sets := [] } ∧ t.regs = State.reset.regs ∧ t.rolls = State.reset.rolls
      ∧ t.st.curves = State.reset.st.curves ∧ t.st.amax = State.reset.st.amax ∧ t.st.assays = State.reset.st.assays
      ∧ t.tb = { s.tb with state := .notAligned, lastSync := 0, gap := 0 } ∧ t.spad.mem = s.spad.mem
      ∧ t.ft = { s.ft with recovery := none, tallyTags := [], groups := s.ft.groups.map fun g => { g with clean := true, cover := 0 } }
      ∧ t.prov.cur.live = false ∧ t.prov.prev.live = false
      ∧ (∀ e ∈ t.prov.rcpt.entries, e.confirmed = true ∨ e.reason.isSome)
      ∧ (t.prov.rcpt.entries.map fun e => (e.rseq, e.record)) = (s.prov.rcpt.entries.map fun e => (e.rseq, e.record))
      ∧ t = { s with boot := t.boot, stream := t.stream, escrow := t.escrow, regs := t.regs, rolls := t.rolls, st := t.st, tb := t.tb
                     spad := t.spad, prov := t.prov, ft := t.ft })
  ∧ ∀ (straps : Straps) (s : State), s.boot = .warmHeld → (s.pw.state = .run ∨ s.pw.state = .sleep) →
    ∃ t, exec (.warmStart straps) s = .next t
      ∧ t.boot = (if s.pw.state = .sleep then .warmPower else .warmClear)
      ∧ t.pw = { s.pw with greq := s.pw.greq || s.pw.state == .sleep }
      ∧ t.spad = { s.spad with clearing := some .warm, ptr := Vector.replicate 64 0 }
      ∧ t.fixed = { s.fixed with straps := { straps with testMode := s.fixed.straps.testMode } }
      ∧ t = { s with boot := t.boot, pw := t.pw, spad := t.spad, fixed := t.fixed }

/-- The test port (R445, R446). TEST_LOGIC_RESET: TST_TRST_N resets the instruction register alone; IDCODE selects the identification register, whose fixed bits are revision 0x1, part
0x0256 and 1, and shifts it out, zeros while the unit is held in reset (R434); BYPASS and every undefined instruction stand in the register and change nothing else; IJTAG_ACCESS: outside test mode an instrument that only test
mode reaches shifts nothing out and changes nothing; in test mode an MBIST run zero-fills the arrays and an array access may change its own place alone, what it leaves and
what the instruments shift out being free. That the reset selects IDCODE, and the manufacturer's code, are the model's (log 8). -/
def Obligations.TestPortCommands : Prop :=
  (∀ s : State, exec .testLogicReset s = .next { s with fixed := { s.fixed with ir := 0x01 } })
  ∧ (∀ s : State, ∃ v : W32, exec .idcode s = .next { s with fixed := { s.fixed with ir := 0x01 }, out := { s.out with
      tdo := s.out.tdo ++ [if s.boot = .otpLoad then 0 else v] } }
      ∧ v.extractLsb' 28 4 = 0x1 ∧ v.extractLsb' 12 16 = 0x0256 ∧ v.extractLsb' 0 1 = 1)
  ∧ (∀ (ir : Byte) (s : State), ir ≠ 0x01 → ir ≠ 0x10 → exec (.bypass ir) s = .next { s with fixed := { s.fixed with ir := ir } })
  ∧ (∀ (i : Instrument) (s : State), s.boot ≠ .testMode → restricted i = true →
      exec (.ijtagAccess i) s = .next { s with fixed := { s.fixed with ir := 0x10 } })
  ∧ (∀ (i : Instrument) (s : State), s.boot = .testMode → i = .scanChain ∨ i = .romRead → ∃ w, exec (.ijtagAccess i) s = .next { s with
      fixed := { s.fixed with ir := 0x10 }, free := s.free + 1, out := { s.out with tdo := s.out.tdo ++ [w] } })
  ∧ (∀ s : State, s.boot = .testMode → ∃ t w, exec (.ijtagAccess .mbistControl) s = .next t ∧ t.spad.mem = [] ∧ t.spad.synd = []
      ∧ t = { s with
          fixed := { s.fixed with ir := 0x10 }, free := s.free + 1, out := { s.out with tdo := s.out.tdo ++ [w] }, spad := t.spad, setBuf := []
          st := { s.st with till := [], tillSynd := [], tillBad := [], rowTab := [], rowSynd := [], rowBad := [], curveSynd := [] } })
  ∧ (∀ (a : Nat) (s : State), s.boot = .testMode → ∃ t w, exec (.ijtagAccess (.dataArray a)) s = .next t
      ∧ t.spad = { s.spad with mem := t.spad.mem } ∧ (∀ b, b ≠ a → Memory.read t.spad.mem b = Memory.read s.spad.mem b)
      ∧ (s.spadBytes ≤ a → t.spad = s.spad) ∧ t.st = { s.st with rowTab := t.st.rowTab, till := t.st.till }
      ∧ (a < s.spadBytes → t.st = s.st)
      ∧ t = { s with
          fixed := { s.fixed with ir := 0x10 }, free := s.free + 2, out := { s.out with tdo := s.out.tdo ++ [w] }, spad := t.spad, st := t.st })
  ∧ (∀ (a : Nat) (bits : Byte) (s : State), s.boot = .testMode → otpManufacture a = true → s.fixed.straps.otpLock = false →
      ∃ t, exec (.ijtagAccess (.otpProgram a bits)) s = .next t
        ∧ (∀ b, b ≠ a → sparseGet 0 t.fixed.otp.bytes b = sparseGet 0 s.fixed.otp.bytes b)
        ∧ (bits ≠ 0 → sparseGet 0 t.fixed.otp.bytes a = sparseGet 0 s.fixed.otp.bytes a ||| bits)
        ∧ t = { s with fixed := { s.fixed with ir := 0x10, otp := { s.fixed.otp with bytes := t.fixed.otp.bytes } } })
  ∧ ∀ (i : Instrument) (s : State), restricted i = false → ∃ ws, exec (.ijtagAccess i) s =
      .next { s with fixed := { s.fixed with ir := 0x10 }, out := { s.out with tdo := s.out.tdo ++ ws } } ∧ ws ≠ []
      ∧ (s.boot = .otpLoad → ∀ w ∈ ws, w = 0)
end

