-- ==== Sys2Proof/Laws/Memory.lean ====
section
/-! SUPPORT. The laws of the sparse stores: every operation keeps their canonical form, a read after a write gives the value
written, a write leaves every other place alone, and equal contents are equal data. -/
namespace Sys2Proof.Machine
open Sys2Proof

theorem sparseFrom_mono {β : Type} [DecidableEq β] {d : β} {lo hi : Nat} {m : List (Nat × β)} (h : lo ≤ hi)
    (w : sparseFrom d hi m = true) : sparseFrom d lo m = true := by
  cases m with
  | nil => rfl
  | cons c r =>
    simp only [sparseFrom, Bool.and_eq_true, decide_eq_true_eq] at w ⊢
    exact ⟨⟨h.trans w.1.1, w.1.2⟩, w.2⟩

/-- A write keeps the canonical form. -/
theorem sparseFrom_set {β : Type} [DecidableEq β] {d : β} {lo : Nat} {m : List (Nat × β)} (a : Nat) (b : β) (h : lo ≤ a)
    (w : sparseFrom d lo m = true) : sparseFrom d lo (sparseSet d m a b) = true := by
  induction m generalizing lo with
  | nil => by_cases e : b = d <;> simp [sparseSet, sparseFrom, e, h]
  | cons c r ih =>
    obtain ⟨x, v⟩ := c
    simp only [sparseFrom, Bool.and_eq_true, decide_eq_true_eq] at w
    obtain ⟨⟨hx, hv⟩, hr⟩ := w
    by_cases h1 : a < x
    · by_cases e : b = d <;> simp [sparseSet, sparseFrom, h1, e, h, hx, hv, hr, Nat.succ_le_of_lt h1]
    · by_cases h2 : a = x
      · by_cases e : b = d
        · simp only [sparseSet, h2, e, if_true, if_false, lt_irrefl]
          exact sparseFrom_mono (hx.trans (Nat.le_succ x)) hr
        · subst h2
          simp [sparseSet, sparseFrom, e, hx, hr]
      · have h3 : x + 1 ≤ a := by omega
        simp [sparseSet, sparseFrom, h1, h2, hx, hv, ih h3 hr]

/-- Below the first listed address every read gives the default value. -/
theorem sparseGet_below {β : Type} [DecidableEq β] {d : β} {lo : Nat} {m : List (Nat × β)} (w : sparseFrom d lo m = true)
    {a : Nat} (h : a < lo) : sparseGet d m a = d := by
  induction m generalizing lo with
  | nil => rfl
  | cons c r ih =>
    simp only [sparseFrom, Bool.and_eq_true, decide_eq_true_eq] at w
    have : c.1 ≠ a := by omega
    simp only [sparseGet, if_neg this]
    exact ih w.2 (by omega)

/-- A read after a write: the value written, or what stood there. -/
theorem sparseGet_set {β : Type} [DecidableEq β] {d : β} {lo : Nat} {m : List (Nat × β)} (w : sparseFrom d lo m = true)
    (a : Nat) (b : β) (x : Nat) : sparseGet d (sparseSet d m a b) x = if x = a then b else sparseGet d m x := by
  induction m generalizing lo with
  | nil =>
    by_cases f : x = a
    · by_cases e : b = d <;> simp [sparseSet, sparseGet, e, f]
    · by_cases e : b = d <;> simp [sparseSet, sparseGet, e, f, Ne.symm f]
  | cons c r ih =>
    obtain ⟨y, v⟩ := c
    simp only [sparseFrom, Bool.and_eq_true, decide_eq_true_eq] at w
    have below : ∀ z, z < y + 1 → sparseGet d r z = d := fun z hz => sparseGet_below w.2 hz
    by_cases h1 : a < y
    · by_cases e : b = d
      · subst e
        by_cases f : x = a
        · subst f
          have : y ≠ x := by omega
          simp [sparseSet, h1, sparseGet, this, below x (by omega)]
        · simp [sparseSet, h1, f]
      · by_cases f : x = a
        · subst f; simp [sparseSet, h1, e, sparseGet]
        · simp [sparseSet, h1, e, sparseGet, f, Ne.symm f]
    · by_cases h2 : a = y
      · subst h2
        by_cases e : b = d
        · subst e
          by_cases f : x = a
          · subst f; simp [sparseSet, below x (by omega)]
          · simp [sparseSet, sparseGet, f, Ne.symm f]
        · by_cases f : x = a
          · subst f; simp [sparseSet, e, sparseGet]
          · simp [sparseSet, e, sparseGet, f, Ne.symm f]
      · by_cases f : y = x
        · subst f; simp [sparseSet, h1, h2, sparseGet, Ne.symm h2]
        · simp [sparseSet, h1, h2, sparseGet, f, ih w.2]

/-- Two stores in canonical form that read alike at every address are the same data. -/
theorem sparse_ext {β : Type} [DecidableEq β] {d : β} {lo : Nat} {m n : List (Nat × β)} (wm : sparseFrom d lo m = true)
    (wn : sparseFrom d lo n = true) (h : ∀ a, sparseGet d m a = sparseGet d n a) : m = n := by
  induction m generalizing lo n with
  | nil =>
    cases n with
    | nil => rfl
    | cons c r =>
      simp only [sparseFrom, Bool.and_eq_true, decide_eq_true_eq] at wn
      have := h c.1
      simp [sparseGet] at this
      exact absurd this.symm wn.1.2
  | cons c r ih =>
    obtain ⟨x, v⟩ := c
    cases n with
    | nil =>
      simp only [sparseFrom, Bool.and_eq_true, decide_eq_true_eq] at wm
      have := h x
      simp [sparseGet] at this
      exact absurd this wm.1.2
    | cons e t =>
      obtain ⟨y, u⟩ := e
      simp only [sparseFrom, Bool.and_eq_true, decide_eq_true_eq] at wm wn
      obtain ⟨⟨-, hv⟩, hr⟩ := wm
      obtain ⟨⟨-, hu⟩, ht⟩ := wn
      have key : x = y := by
        rcases lt_trichotomy x y with l | l | l
        · have := h x
          have ne : y ≠ x := by omega
          simp [sparseGet, ne, sparseGet_below ht (show x < y + 1 by omega)] at this
          exact absurd this hv
        · exact l
        · have := h y
          have ne : x ≠ y := by omega
          simp [sparseGet, ne, sparseGet_below hr (show y < x + 1 by omega)] at this
          exact absurd this.symm hu
      subst key
      have hvu : v = u := by have := h x; simpa [sparseGet] using this
      subst hvu
      have : r = t := ih hr ht fun a => by
        by_cases e : x = a
        · subst e
          rw [sparseGet_below hr (Nat.lt_succ_self x), sparseGet_below ht (Nat.lt_succ_self x)]
        · have := h a; simpa [sparseGet, e] using this
      rw [this]

/-- Leaving entries out keeps the canonical form. -/
theorem sparseFrom_filter {β : Type} [DecidableEq β] {d : β} {lo : Nat} {m : List (Nat × β)} (p : Nat × β → Bool)
    (w : sparseFrom d lo m = true) : sparseFrom d lo (m.filter p) = true := by
  induction m generalizing lo with
  | nil => rfl
  | cons c r ih =>
    simp only [sparseFrom, Bool.and_eq_true, decide_eq_true_eq] at w
    by_cases e : p c
    · simp [List.filter, e, sparseFrom, w.1.1, w.1.2, ih w.2]
    · simp [List.filter, e]
      exact ih (sparseFrom_mono (by omega) w.2)

/-! ### The scratchpad's memory -/

theorem Memory.wf_nil : Memory.wf [] = true := rfl

theorem Memory.wf_write {m : List Host.Cell} (a : Nat) (b : Byte) (w : Memory.wf m = true) :
    Memory.wf (Memory.write m a b) = true := sparseFrom_set a b (Nat.zero_le a) w

theorem Memory.wf_writeN {m : List Host.Cell} (a : Nat) (bs : List Byte) (w : Memory.wf m = true) :
    Memory.wf (Memory.writeN m a bs) = true := by
  induction bs generalizing m a with
  | nil => exact w
  | cons b bs ih => exact ih (a + 1) (Memory.wf_write a b w)

theorem Memory.wf_clear {m : List Host.Cell} (lo hi : Nat) (w : Memory.wf m = true) :
    Memory.wf (Memory.clear m lo hi) = true := sparseFrom_filter _ w

theorem Memory.read_write {m : List Host.Cell} (w : Memory.wf m = true) (a : Nat) (b : Byte) (x : Nat) :
    Memory.read (Memory.write m a b) x = if x = a then b else Memory.read m x := sparseGet_set w a b x

/-- A byte string written stands where it was written, and nowhere else. -/
theorem Memory.read_writeN {m : List Host.Cell} (w : Memory.wf m = true) (a : Nat) (bs : List Byte) (x : Nat) :
    Memory.read (Memory.writeN m a bs) x
      = if a ≤ x ∧ x < a + bs.length then bs.getD (x - a) 0 else Memory.read m x := by
  induction bs generalizing m a with
  | nil =>
    have : ¬(a ≤ x ∧ x < a + ([] : List Byte).length) := by simp only [List.length_nil]; omega
    simp only [Memory.writeN, if_neg this]
  | cons b bs ih =>
    simp only [Memory.writeN]
    rw [ih (Memory.wf_write a b w), Memory.read_write w]
    by_cases e : x = a
    · subst e
      simp
    · by_cases h : a + 1 ≤ x ∧ x < a + 1 + bs.length
      · have h2 : a ≤ x ∧ x < a + (b :: bs).length := by simp only [List.length_cons]; omega
        obtain ⟨k, hk⟩ : ∃ k, x - a = k + 1 := ⟨x - a - 1, by omega⟩
        have h3 : x - (a + 1) = k := by omega
        simp only [if_pos h, if_pos h2, hk, h3, List.getD_cons_succ]
      · have h2 : ¬(a ≤ x ∧ x < a + (b :: bs).length) := by simp only [List.length_cons]; omega
        simp only [if_neg h, if_neg h2, if_neg e]


/-- Two memories in canonical form that read alike are equal. -/
theorem Memory.ext {m n : List Host.Cell} (wm : Memory.wf m = true) (wn : Memory.wf n = true)
    (h : ∀ a, Memory.read m a = Memory.read n a) : m = n := sparse_ext wm wn h

end Sys2Proof.Machine
end

