-- ==== Sys2Proof/Laws/State.lean ====
section
/-! SUPPORT. What each update of the state leaves in each field. -/
namespace Sys2Proof.Machine
open Sys2Proof

variable (s : State)

@[simp] theorem State.modSpad_fixed (f : Spad → Spad) : (s.modSpad f).fixed = s.fixed := rfl
@[simp] theorem State.modSpad_boot (f : Spad → Spad) : (s.modSpad f).boot = s.boot := rfl
@[simp] theorem State.modSpad_tb (f : Spad → Spad) : (s.modSpad f).tb = s.tb := rfl
@[simp] theorem State.modSpad_ep (f : Spad → Spad) : (s.modSpad f).ep = s.ep := rfl
@[simp] theorem State.modSpad_regs (f : Spad → Spad) : (s.modSpad f).regs = s.regs := rfl
@[simp] theorem State.modSpad_st (f : Spad → Spad) : (s.modSpad f).st = s.st := rfl
@[simp] theorem State.modSpad_spad (f : Spad → Spad) : (s.modSpad f).spad = f s.spad := rfl
@[simp] theorem State.modSpad_escrow (f : Spad → Spad) : (s.modSpad f).escrow = s.escrow := rfl
@[simp] theorem State.modSpad_rolls (f : Spad → Spad) : (s.modSpad f).rolls = s.rolls := rfl
@[simp] theorem State.modSpad_stream (f : Spad → Spad) : (s.modSpad f).stream = s.stream := rfl
@[simp] theorem State.modSpad_prov (f : Spad → Spad) : (s.modSpad f).prov = s.prov := rfl
@[simp] theorem State.modSpad_ledger (f : Spad → Spad) : (s.modSpad f).ledger = s.ledger := rfl
@[simp] theorem State.modSpad_evRings (f : Spad → Spad) : (s.modSpad f).evRings = s.evRings := rfl
@[simp] theorem State.modSpad_evOut (f : Spad → Spad) : (s.modSpad f).evOut = s.evOut := rfl
@[simp] theorem State.modSpad_mg (f : Spad → Spad) : (s.modSpad f).mg = s.mg := rfl
@[simp] theorem State.modSpad_pw (f : Spad → Spad) : (s.modSpad f).pw = s.pw := rfl
@[simp] theorem State.modSpad_tn (f : Spad → Spad) : (s.modSpad f).tn = s.tn := rfl
@[simp] theorem State.modSpad_ft (f : Spad → Spad) : (s.modSpad f).ft = s.ft := rfl
@[simp] theorem State.modSpad_act (f : Spad → Spad) : (s.modSpad f).act = s.act := rfl
@[simp] theorem State.modSpad_links (f : Spad → Spad) : (s.modSpad f).links = s.links := rfl
@[simp] theorem State.modSpad_setBuf (f : Spad → Spad) : (s.modSpad f).setBuf = s.setBuf := rfl
@[simp] theorem State.modSpad_free (f : Spad → Spad) : (s.modSpad f).free = s.free := rfl
@[simp] theorem State.modSpad_out (f : Spad → Spad) : (s.modSpad f).out = s.out := rfl
@[simp] theorem State.modSpad_pending (f : Spad → Spad) : (s.modSpad f).pending = s.pending := rfl

@[simp] theorem State.modHealth_fixed (f : SpadHealth → SpadHealth) : (s.modHealth f).fixed = s.fixed := rfl
@[simp] theorem State.modHealth_boot (f : SpadHealth → SpadHealth) : (s.modHealth f).boot = s.boot := rfl
@[simp] theorem State.modHealth_tb (f : SpadHealth → SpadHealth) : (s.modHealth f).tb = s.tb := rfl
@[simp] theorem State.modHealth_ep (f : SpadHealth → SpadHealth) : (s.modHealth f).ep = s.ep := rfl
@[simp] theorem State.modHealth_regs (f : SpadHealth → SpadHealth) : (s.modHealth f).regs = s.regs := rfl
@[simp] theorem State.modHealth_st (f : SpadHealth → SpadHealth) : (s.modHealth f).st = s.st := rfl
@[simp] theorem State.modHealth_spad (f : SpadHealth → SpadHealth) : (s.modHealth f).spad = { s.spad with health := f s.spad.health } := rfl
@[simp] theorem State.modHealth_escrow (f : SpadHealth → SpadHealth) : (s.modHealth f).escrow = s.escrow := rfl
@[simp] theorem State.modHealth_rolls (f : SpadHealth → SpadHealth) : (s.modHealth f).rolls = s.rolls := rfl
@[simp] theorem State.modHealth_stream (f : SpadHealth → SpadHealth) : (s.modHealth f).stream = s.stream := rfl
@[simp] theorem State.modHealth_prov (f : SpadHealth → SpadHealth) : (s.modHealth f).prov = s.prov := rfl
@[simp] theorem State.modHealth_ledger (f : SpadHealth → SpadHealth) : (s.modHealth f).ledger = s.ledger := rfl
@[simp] theorem State.modHealth_evRings (f : SpadHealth → SpadHealth) : (s.modHealth f).evRings = s.evRings := rfl
@[simp] theorem State.modHealth_evOut (f : SpadHealth → SpadHealth) : (s.modHealth f).evOut = s.evOut := rfl
@[simp] theorem State.modHealth_mg (f : SpadHealth → SpadHealth) : (s.modHealth f).mg = s.mg := rfl
@[simp] theorem State.modHealth_pw (f : SpadHealth → SpadHealth) : (s.modHealth f).pw = s.pw := rfl
@[simp] theorem State.modHealth_tn (f : SpadHealth → SpadHealth) : (s.modHealth f).tn = s.tn := rfl
@[simp] theorem State.modHealth_ft (f : SpadHealth → SpadHealth) : (s.modHealth f).ft = s.ft := rfl
@[simp] theorem State.modHealth_act (f : SpadHealth → SpadHealth) : (s.modHealth f).act = s.act := rfl
@[simp] theorem State.modHealth_links (f : SpadHealth → SpadHealth) : (s.modHealth f).links = s.links := rfl
@[simp] theorem State.modHealth_setBuf (f : SpadHealth → SpadHealth) : (s.modHealth f).setBuf = s.setBuf := rfl
@[simp] theorem State.modHealth_free (f : SpadHealth → SpadHealth) : (s.modHealth f).free = s.free := rfl
@[simp] theorem State.modHealth_out (f : SpadHealth → SpadHealth) : (s.modHealth f).out = s.out := rfl
@[simp] theorem State.modHealth_pending (f : SpadHealth → SpadHealth) : (s.modHealth f).pending = s.pending := rfl

@[simp] theorem State.modStream_fixed (f : Stream → Stream) : (s.modStream f).fixed = s.fixed := rfl
@[simp] theorem State.modStream_boot (f : Stream → Stream) : (s.modStream f).boot = s.boot := rfl
@[simp] theorem State.modStream_tb (f : Stream → Stream) : (s.modStream f).tb = s.tb := rfl
@[simp] theorem State.modStream_ep (f : Stream → Stream) : (s.modStream f).ep = s.ep := rfl
@[simp] theorem State.modStream_regs (f : Stream → Stream) : (s.modStream f).regs = s.regs := rfl
@[simp] theorem State.modStream_st (f : Stream → Stream) : (s.modStream f).st = s.st := rfl
@[simp] theorem State.modStream_spad (f : Stream → Stream) : (s.modStream f).spad = s.spad := rfl
@[simp] theorem State.modStream_escrow (f : Stream → Stream) : (s.modStream f).escrow = s.escrow := rfl
@[simp] theorem State.modStream_rolls (f : Stream → Stream) : (s.modStream f).rolls = s.rolls := rfl
@[simp] theorem State.modStream_stream (f : Stream → Stream) : (s.modStream f).stream = f s.stream := rfl
@[simp] theorem State.modStream_prov (f : Stream → Stream) : (s.modStream f).prov = s.prov := rfl
@[simp] theorem State.modStream_ledger (f : Stream → Stream) : (s.modStream f).ledger = s.ledger := rfl
@[simp] theorem State.modStream_evRings (f : Stream → Stream) : (s.modStream f).evRings = s.evRings := rfl
@[simp] theorem State.modStream_evOut (f : Stream → Stream) : (s.modStream f).evOut = s.evOut := rfl
@[simp] theorem State.modStream_mg (f : Stream → Stream) : (s.modStream f).mg = s.mg := rfl
@[simp] theorem State.modStream_pw (f : Stream → Stream) : (s.modStream f).pw = s.pw := rfl
@[simp] theorem State.modStream_tn (f : Stream → Stream) : (s.modStream f).tn = s.tn := rfl
@[simp] theorem State.modStream_ft (f : Stream → Stream) : (s.modStream f).ft = s.ft := rfl
@[simp] theorem State.modStream_act (f : Stream → Stream) : (s.modStream f).act = s.act := rfl
@[simp] theorem State.modStream_links (f : Stream → Stream) : (s.modStream f).links = s.links := rfl
@[simp] theorem State.modStream_setBuf (f : Stream → Stream) : (s.modStream f).setBuf = s.setBuf := rfl
@[simp] theorem State.modStream_free (f : Stream → Stream) : (s.modStream f).free = s.free := rfl
@[simp] theorem State.modStream_out (f : Stream → Stream) : (s.modStream f).out = s.out := rfl
@[simp] theorem State.modStream_pending (f : Stream → Stream) : (s.modStream f).pending = s.pending := rfl

@[simp] theorem State.modSt_fixed (f : Stores → Stores) : (s.modSt f).fixed = s.fixed := rfl
@[simp] theorem State.modSt_boot (f : Stores → Stores) : (s.modSt f).boot = s.boot := rfl
@[simp] theorem State.modSt_tb (f : Stores → Stores) : (s.modSt f).tb = s.tb := rfl
@[simp] theorem State.modSt_ep (f : Stores → Stores) : (s.modSt f).ep = s.ep := rfl
@[simp] theorem State.modSt_regs (f : Stores → Stores) : (s.modSt f).regs = s.regs := rfl
@[simp] theorem State.modSt_st (f : Stores → Stores) : (s.modSt f).st = f s.st := rfl
@[simp] theorem State.modSt_spad (f : Stores → Stores) : (s.modSt f).spad = s.spad := rfl
@[simp] theorem State.modSt_escrow (f : Stores → Stores) : (s.modSt f).escrow = s.escrow := rfl
@[simp] theorem State.modSt_rolls (f : Stores → Stores) : (s.modSt f).rolls = s.rolls := rfl
@[simp] theorem State.modSt_stream (f : Stores → Stores) : (s.modSt f).stream = s.stream := rfl
@[simp] theorem State.modSt_prov (f : Stores → Stores) : (s.modSt f).prov = s.prov := rfl
@[simp] theorem State.modSt_ledger (f : Stores → Stores) : (s.modSt f).ledger = s.ledger := rfl
@[simp] theorem State.modSt_evRings (f : Stores → Stores) : (s.modSt f).evRings = s.evRings := rfl
@[simp] theorem State.modSt_evOut (f : Stores → Stores) : (s.modSt f).evOut = s.evOut := rfl
@[simp] theorem State.modSt_mg (f : Stores → Stores) : (s.modSt f).mg = s.mg := rfl
@[simp] theorem State.modSt_pw (f : Stores → Stores) : (s.modSt f).pw = s.pw := rfl
@[simp] theorem State.modSt_tn (f : Stores → Stores) : (s.modSt f).tn = s.tn := rfl
@[simp] theorem State.modSt_ft (f : Stores → Stores) : (s.modSt f).ft = s.ft := rfl
@[simp] theorem State.modSt_act (f : Stores → Stores) : (s.modSt f).act = s.act := rfl
@[simp] theorem State.modSt_links (f : Stores → Stores) : (s.modSt f).links = s.links := rfl
@[simp] theorem State.modSt_setBuf (f : Stores → Stores) : (s.modSt f).setBuf = s.setBuf := rfl
@[simp] theorem State.modSt_free (f : Stores → Stores) : (s.modSt f).free = s.free := rfl
@[simp] theorem State.modSt_out (f : Stores → Stores) : (s.modSt f).out = s.out := rfl
@[simp] theorem State.modSt_pending (f : Stores → Stores) : (s.modSt f).pending = s.pending := rfl

@[simp] theorem State.modEscrow_fixed (f : Escrow → Escrow) : (s.modEscrow f).fixed = s.fixed := rfl
@[simp] theorem State.modEscrow_boot (f : Escrow → Escrow) : (s.modEscrow f).boot = s.boot := rfl
@[simp] theorem State.modEscrow_tb (f : Escrow → Escrow) : (s.modEscrow f).tb = s.tb := rfl
@[simp] theorem State.modEscrow_ep (f : Escrow → Escrow) : (s.modEscrow f).ep = s.ep := rfl
@[simp] theorem State.modEscrow_regs (f : Escrow → Escrow) : (s.modEscrow f).regs = s.regs := rfl
@[simp] theorem State.modEscrow_st (f : Escrow → Escrow) : (s.modEscrow f).st = s.st := rfl
@[simp] theorem State.modEscrow_spad (f : Escrow → Escrow) : (s.modEscrow f).spad = s.spad := rfl
@[simp] theorem State.modEscrow_escrow (f : Escrow → Escrow) : (s.modEscrow f).escrow = f s.escrow := rfl
@[simp] theorem State.modEscrow_rolls (f : Escrow → Escrow) : (s.modEscrow f).rolls = s.rolls := rfl
@[simp] theorem State.modEscrow_stream (f : Escrow → Escrow) : (s.modEscrow f).stream = s.stream := rfl
@[simp] theorem State.modEscrow_prov (f : Escrow → Escrow) : (s.modEscrow f).prov = s.prov := rfl
@[simp] theorem State.modEscrow_ledger (f : Escrow → Escrow) : (s.modEscrow f).ledger = s.ledger := rfl
@[simp] theorem State.modEscrow_evRings (f : Escrow → Escrow) : (s.modEscrow f).evRings = s.evRings := rfl
@[simp] theorem State.modEscrow_evOut (f : Escrow → Escrow) : (s.modEscrow f).evOut = s.evOut := rfl
@[simp] theorem State.modEscrow_mg (f : Escrow → Escrow) : (s.modEscrow f).mg = s.mg := rfl
@[simp] theorem State.modEscrow_pw (f : Escrow → Escrow) : (s.modEscrow f).pw = s.pw := rfl
@[simp] theorem State.modEscrow_tn (f : Escrow → Escrow) : (s.modEscrow f).tn = s.tn := rfl
@[simp] theorem State.modEscrow_ft (f : Escrow → Escrow) : (s.modEscrow f).ft = s.ft := rfl
@[simp] theorem State.modEscrow_act (f : Escrow → Escrow) : (s.modEscrow f).act = s.act := rfl
@[simp] theorem State.modEscrow_links (f : Escrow → Escrow) : (s.modEscrow f).links = s.links := rfl
@[simp] theorem State.modEscrow_setBuf (f : Escrow → Escrow) : (s.modEscrow f).setBuf = s.setBuf := rfl
@[simp] theorem State.modEscrow_free (f : Escrow → Escrow) : (s.modEscrow f).free = s.free := rfl
@[simp] theorem State.modEscrow_out (f : Escrow → Escrow) : (s.modEscrow f).out = s.out := rfl
@[simp] theorem State.modEscrow_pending (f : Escrow → Escrow) : (s.modEscrow f).pending = s.pending := rfl

@[simp] theorem State.modOut_fixed (f : Outputs → Outputs) : (s.modOut f).fixed = s.fixed := rfl
@[simp] theorem State.modOut_boot (f : Outputs → Outputs) : (s.modOut f).boot = s.boot := rfl
@[simp] theorem State.modOut_tb (f : Outputs → Outputs) : (s.modOut f).tb = s.tb := rfl
@[simp] theorem State.modOut_ep (f : Outputs → Outputs) : (s.modOut f).ep = s.ep := rfl
@[simp] theorem State.modOut_regs (f : Outputs → Outputs) : (s.modOut f).regs = s.regs := rfl
@[simp] theorem State.modOut_st (f : Outputs → Outputs) : (s.modOut f).st = s.st := rfl
@[simp] theorem State.modOut_spad (f : Outputs → Outputs) : (s.modOut f).spad = s.spad := rfl
@[simp] theorem State.modOut_escrow (f : Outputs → Outputs) : (s.modOut f).escrow = s.escrow := rfl
@[simp] theorem State.modOut_rolls (f : Outputs → Outputs) : (s.modOut f).rolls = s.rolls := rfl
@[simp] theorem State.modOut_stream (f : Outputs → Outputs) : (s.modOut f).stream = s.stream := rfl
@[simp] theorem State.modOut_prov (f : Outputs → Outputs) : (s.modOut f).prov = s.prov := rfl
@[simp] theorem State.modOut_ledger (f : Outputs → Outputs) : (s.modOut f).ledger = s.ledger := rfl
@[simp] theorem State.modOut_evRings (f : Outputs → Outputs) : (s.modOut f).evRings = s.evRings := rfl
@[simp] theorem State.modOut_evOut (f : Outputs → Outputs) : (s.modOut f).evOut = s.evOut := rfl
@[simp] theorem State.modOut_mg (f : Outputs → Outputs) : (s.modOut f).mg = s.mg := rfl
@[simp] theorem State.modOut_pw (f : Outputs → Outputs) : (s.modOut f).pw = s.pw := rfl
@[simp] theorem State.modOut_tn (f : Outputs → Outputs) : (s.modOut f).tn = s.tn := rfl
@[simp] theorem State.modOut_ft (f : Outputs → Outputs) : (s.modOut f).ft = s.ft := rfl
@[simp] theorem State.modOut_act (f : Outputs → Outputs) : (s.modOut f).act = s.act := rfl
@[simp] theorem State.modOut_links (f : Outputs → Outputs) : (s.modOut f).links = s.links := rfl
@[simp] theorem State.modOut_setBuf (f : Outputs → Outputs) : (s.modOut f).setBuf = s.setBuf := rfl
@[simp] theorem State.modOut_free (f : Outputs → Outputs) : (s.modOut f).free = s.free := rfl
@[simp] theorem State.modOut_out (f : Outputs → Outputs) : (s.modOut f).out = f s.out := rfl
@[simp] theorem State.modOut_pending (f : Outputs → Outputs) : (s.modOut f).pending = s.pending := rfl

@[simp] theorem State.modFt_fixed (f : Faults → Faults) : (s.modFt f).fixed = s.fixed := rfl
@[simp] theorem State.modFt_boot (f : Faults → Faults) : (s.modFt f).boot = s.boot := rfl
@[simp] theorem State.modFt_tb (f : Faults → Faults) : (s.modFt f).tb = s.tb := rfl
@[simp] theorem State.modFt_ep (f : Faults → Faults) : (s.modFt f).ep = s.ep := rfl
@[simp] theorem State.modFt_regs (f : Faults → Faults) : (s.modFt f).regs = s.regs := rfl
@[simp] theorem State.modFt_st (f : Faults → Faults) : (s.modFt f).st = s.st := rfl
@[simp] theorem State.modFt_spad (f : Faults → Faults) : (s.modFt f).spad = s.spad := rfl
@[simp] theorem State.modFt_escrow (f : Faults → Faults) : (s.modFt f).escrow = s.escrow := rfl
@[simp] theorem State.modFt_rolls (f : Faults → Faults) : (s.modFt f).rolls = s.rolls := rfl
@[simp] theorem State.modFt_stream (f : Faults → Faults) : (s.modFt f).stream = s.stream := rfl
@[simp] theorem State.modFt_prov (f : Faults → Faults) : (s.modFt f).prov = s.prov := rfl
@[simp] theorem State.modFt_ledger (f : Faults → Faults) : (s.modFt f).ledger = s.ledger := rfl
@[simp] theorem State.modFt_evRings (f : Faults → Faults) : (s.modFt f).evRings = s.evRings := rfl
@[simp] theorem State.modFt_evOut (f : Faults → Faults) : (s.modFt f).evOut = s.evOut := rfl
@[simp] theorem State.modFt_mg (f : Faults → Faults) : (s.modFt f).mg = s.mg := rfl
@[simp] theorem State.modFt_pw (f : Faults → Faults) : (s.modFt f).pw = s.pw := rfl
@[simp] theorem State.modFt_tn (f : Faults → Faults) : (s.modFt f).tn = s.tn := rfl
@[simp] theorem State.modFt_ft (f : Faults → Faults) : (s.modFt f).ft = f s.ft := rfl
@[simp] theorem State.modFt_act (f : Faults → Faults) : (s.modFt f).act = s.act := rfl
@[simp] theorem State.modFt_links (f : Faults → Faults) : (s.modFt f).links = s.links := rfl
@[simp] theorem State.modFt_setBuf (f : Faults → Faults) : (s.modFt f).setBuf = s.setBuf := rfl
@[simp] theorem State.modFt_free (f : Faults → Faults) : (s.modFt f).free = s.free := rfl
@[simp] theorem State.modFt_out (f : Faults → Faults) : (s.modFt f).out = s.out := rfl
@[simp] theorem State.modFt_pending (f : Faults → Faults) : (s.modFt f).pending = s.pending := rfl

@[simp] theorem State.modPw_fixed (f : Power → Power) : (s.modPw f).fixed = s.fixed := rfl
@[simp] theorem State.modPw_boot (f : Power → Power) : (s.modPw f).boot = s.boot := rfl
@[simp] theorem State.modPw_tb (f : Power → Power) : (s.modPw f).tb = s.tb := rfl
@[simp] theorem State.modPw_ep (f : Power → Power) : (s.modPw f).ep = s.ep := rfl
@[simp] theorem State.modPw_regs (f : Power → Power) : (s.modPw f).regs = s.regs := rfl
@[simp] theorem State.modPw_st (f : Power → Power) : (s.modPw f).st = s.st := rfl
@[simp] theorem State.modPw_spad (f : Power → Power) : (s.modPw f).spad = s.spad := rfl
@[simp] theorem State.modPw_escrow (f : Power → Power) : (s.modPw f).escrow = s.escrow := rfl
@[simp] theorem State.modPw_rolls (f : Power → Power) : (s.modPw f).rolls = s.rolls := rfl
@[simp] theorem State.modPw_stream (f : Power → Power) : (s.modPw f).stream = s.stream := rfl
@[simp] theorem State.modPw_prov (f : Power → Power) : (s.modPw f).prov = s.prov := rfl
@[simp] theorem State.modPw_ledger (f : Power → Power) : (s.modPw f).ledger = s.ledger := rfl
@[simp] theorem State.modPw_evRings (f : Power → Power) : (s.modPw f).evRings = s.evRings := rfl
@[simp] theorem State.modPw_evOut (f : Power → Power) : (s.modPw f).evOut = s.evOut := rfl
@[simp] theorem State.modPw_mg (f : Power → Power) : (s.modPw f).mg = s.mg := rfl
@[simp] theorem State.modPw_pw (f : Power → Power) : (s.modPw f).pw = f s.pw := rfl
@[simp] theorem State.modPw_tn (f : Power → Power) : (s.modPw f).tn = s.tn := rfl
@[simp] theorem State.modPw_ft (f : Power → Power) : (s.modPw f).ft = s.ft := rfl
@[simp] theorem State.modPw_act (f : Power → Power) : (s.modPw f).act = s.act := rfl
@[simp] theorem State.modPw_links (f : Power → Power) : (s.modPw f).links = s.links := rfl
@[simp] theorem State.modPw_setBuf (f : Power → Power) : (s.modPw f).setBuf = s.setBuf := rfl
@[simp] theorem State.modPw_free (f : Power → Power) : (s.modPw f).free = s.free := rfl
@[simp] theorem State.modPw_out (f : Power → Power) : (s.modPw f).out = s.out := rfl
@[simp] theorem State.modPw_pending (f : Power → Power) : (s.modPw f).pending = s.pending := rfl

@[simp] theorem State.modTb_fixed (f : TimeBase → TimeBase) : (s.modTb f).fixed = s.fixed := rfl
@[simp] theorem State.modTb_boot (f : TimeBase → TimeBase) : (s.modTb f).boot = s.boot := rfl
@[simp] theorem State.modTb_tb (f : TimeBase → TimeBase) : (s.modTb f).tb = f s.tb := rfl
@[simp] theorem State.modTb_ep (f : TimeBase → TimeBase) : (s.modTb f).ep = s.ep := rfl
@[simp] theorem State.modTb_regs (f : TimeBase → TimeBase) : (s.modTb f).regs = s.regs := rfl
@[simp] theorem State.modTb_st (f : TimeBase → TimeBase) : (s.modTb f).st = s.st := rfl
@[simp] theorem State.modTb_spad (f : TimeBase → TimeBase) : (s.modTb f).spad = s.spad := rfl
@[simp] theorem State.modTb_escrow (f : TimeBase → TimeBase) : (s.modTb f).escrow = s.escrow := rfl
@[simp] theorem State.modTb_rolls (f : TimeBase → TimeBase) : (s.modTb f).rolls = s.rolls := rfl
@[simp] theorem State.modTb_stream (f : TimeBase → TimeBase) : (s.modTb f).stream = s.stream := rfl
@[simp] theorem State.modTb_prov (f : TimeBase → TimeBase) : (s.modTb f).prov = s.prov := rfl
@[simp] theorem State.modTb_ledger (f : TimeBase → TimeBase) : (s.modTb f).ledger = s.ledger := rfl
@[simp] theorem State.modTb_evRings (f : TimeBase → TimeBase) : (s.modTb f).evRings = s.evRings := rfl
@[simp] theorem State.modTb_evOut (f : TimeBase → TimeBase) : (s.modTb f).evOut = s.evOut := rfl
@[simp] theorem State.modTb_mg (f : TimeBase → TimeBase) : (s.modTb f).mg = s.mg := rfl
@[simp] theorem State.modTb_pw (f : TimeBase → TimeBase) : (s.modTb f).pw = s.pw := rfl
@[simp] theorem State.modTb_tn (f : TimeBase → TimeBase) : (s.modTb f).tn = s.tn := rfl
@[simp] theorem State.modTb_ft (f : TimeBase → TimeBase) : (s.modTb f).ft = s.ft := rfl
@[simp] theorem State.modTb_act (f : TimeBase → TimeBase) : (s.modTb f).act = s.act := rfl
@[simp] theorem State.modTb_links (f : TimeBase → TimeBase) : (s.modTb f).links = s.links := rfl
@[simp] theorem State.modTb_setBuf (f : TimeBase → TimeBase) : (s.modTb f).setBuf = s.setBuf := rfl
@[simp] theorem State.modTb_free (f : TimeBase → TimeBase) : (s.modTb f).free = s.free := rfl
@[simp] theorem State.modTb_out (f : TimeBase → TimeBase) : (s.modTb f).out = s.out := rfl
@[simp] theorem State.modTb_pending (f : TimeBase → TimeBase) : (s.modTb f).pending = s.pending := rfl

@[simp] theorem State.modProv_fixed (f : Proving → Proving) : (s.modProv f).fixed = s.fixed := rfl
@[simp] theorem State.modProv_boot (f : Proving → Proving) : (s.modProv f).boot = s.boot := rfl
@[simp] theorem State.modProv_tb (f : Proving → Proving) : (s.modProv f).tb = s.tb := rfl
@[simp] theorem State.modProv_ep (f : Proving → Proving) : (s.modProv f).ep = s.ep := rfl
@[simp] theorem State.modProv_regs (f : Proving → Proving) : (s.modProv f).regs = s.regs := rfl
@[simp] theorem State.modProv_st (f : Proving → Proving) : (s.modProv f).st = s.st := rfl
@[simp] theorem State.modProv_spad (f : Proving → Proving) : (s.modProv f).spad = s.spad := rfl
@[simp] theorem State.modProv_escrow (f : Proving → Proving) : (s.modProv f).escrow = s.escrow := rfl
@[simp] theorem State.modProv_rolls (f : Proving → Proving) : (s.modProv f).rolls = s.rolls := rfl
@[simp] theorem State.modProv_stream (f : Proving → Proving) : (s.modProv f).stream = s.stream := rfl
@[simp] theorem State.modProv_prov (f : Proving → Proving) : (s.modProv f).prov = f s.prov := rfl
@[simp] theorem State.modProv_ledger (f : Proving → Proving) : (s.modProv f).ledger = s.ledger := rfl
@[simp] theorem State.modProv_evRings (f : Proving → Proving) : (s.modProv f).evRings = s.evRings := rfl
@[simp] theorem State.modProv_evOut (f : Proving → Proving) : (s.modProv f).evOut = s.evOut := rfl
@[simp] theorem State.modProv_mg (f : Proving → Proving) : (s.modProv f).mg = s.mg := rfl
@[simp] theorem State.modProv_pw (f : Proving → Proving) : (s.modProv f).pw = s.pw := rfl
@[simp] theorem State.modProv_tn (f : Proving → Proving) : (s.modProv f).tn = s.tn := rfl
@[simp] theorem State.modProv_ft (f : Proving → Proving) : (s.modProv f).ft = s.ft := rfl
@[simp] theorem State.modProv_act (f : Proving → Proving) : (s.modProv f).act = s.act := rfl
@[simp] theorem State.modProv_links (f : Proving → Proving) : (s.modProv f).links = s.links := rfl
@[simp] theorem State.modProv_setBuf (f : Proving → Proving) : (s.modProv f).setBuf = s.setBuf := rfl
@[simp] theorem State.modProv_free (f : Proving → Proving) : (s.modProv f).free = s.free := rfl
@[simp] theorem State.modProv_out (f : Proving → Proving) : (s.modProv f).out = s.out := rfl
@[simp] theorem State.modProv_pending (f : Proving → Proving) : (s.modProv f).pending = s.pending := rfl

@[simp] theorem State.modRcpt_fixed (f : Receipts → Receipts) : (s.modRcpt f).fixed = s.fixed := rfl
@[simp] theorem State.modRcpt_boot (f : Receipts → Receipts) : (s.modRcpt f).boot = s.boot := rfl
@[simp] theorem State.modRcpt_tb (f : Receipts → Receipts) : (s.modRcpt f).tb = s.tb := rfl
@[simp] theorem State.modRcpt_ep (f : Receipts → Receipts) : (s.modRcpt f).ep = s.ep := rfl
@[simp] theorem State.modRcpt_regs (f : Receipts → Receipts) : (s.modRcpt f).regs = s.regs := rfl
@[simp] theorem State.modRcpt_st (f : Receipts → Receipts) : (s.modRcpt f).st = s.st := rfl
@[simp] theorem State.modRcpt_spad (f : Receipts → Receipts) : (s.modRcpt f).spad = s.spad := rfl
@[simp] theorem State.modRcpt_escrow (f : Receipts → Receipts) : (s.modRcpt f).escrow = s.escrow := rfl
@[simp] theorem State.modRcpt_rolls (f : Receipts → Receipts) : (s.modRcpt f).rolls = s.rolls := rfl
@[simp] theorem State.modRcpt_stream (f : Receipts → Receipts) : (s.modRcpt f).stream = s.stream := rfl
@[simp] theorem State.modRcpt_prov (f : Receipts → Receipts) : (s.modRcpt f).prov = { s.prov with rcpt := f s.prov.rcpt } := rfl
@[simp] theorem State.modRcpt_ledger (f : Receipts → Receipts) : (s.modRcpt f).ledger = s.ledger := rfl
@[simp] theorem State.modRcpt_evRings (f : Receipts → Receipts) : (s.modRcpt f).evRings = s.evRings := rfl
@[simp] theorem State.modRcpt_evOut (f : Receipts → Receipts) : (s.modRcpt f).evOut = s.evOut := rfl
@[simp] theorem State.modRcpt_mg (f : Receipts → Receipts) : (s.modRcpt f).mg = s.mg := rfl
@[simp] theorem State.modRcpt_pw (f : Receipts → Receipts) : (s.modRcpt f).pw = s.pw := rfl
@[simp] theorem State.modRcpt_tn (f : Receipts → Receipts) : (s.modRcpt f).tn = s.tn := rfl
@[simp] theorem State.modRcpt_ft (f : Receipts → Receipts) : (s.modRcpt f).ft = s.ft := rfl
@[simp] theorem State.modRcpt_act (f : Receipts → Receipts) : (s.modRcpt f).act = s.act := rfl
@[simp] theorem State.modRcpt_links (f : Receipts → Receipts) : (s.modRcpt f).links = s.links := rfl
@[simp] theorem State.modRcpt_setBuf (f : Receipts → Receipts) : (s.modRcpt f).setBuf = s.setBuf := rfl
@[simp] theorem State.modRcpt_free (f : Receipts → Receipts) : (s.modRcpt f).free = s.free := rfl
@[simp] theorem State.modRcpt_out (f : Receipts → Receipts) : (s.modRcpt f).out = s.out := rfl
@[simp] theorem State.modRcpt_pending (f : Receipts → Receipts) : (s.modRcpt f).pending = s.pending := rfl

@[simp] theorem State.modMg_fixed (f : Mgmt → Mgmt) : (s.modMg f).fixed = s.fixed := rfl
@[simp] theorem State.modMg_boot (f : Mgmt → Mgmt) : (s.modMg f).boot = s.boot := rfl
@[simp] theorem State.modMg_tb (f : Mgmt → Mgmt) : (s.modMg f).tb = s.tb := rfl
@[simp] theorem State.modMg_ep (f : Mgmt → Mgmt) : (s.modMg f).ep = s.ep := rfl
@[simp] theorem State.modMg_regs (f : Mgmt → Mgmt) : (s.modMg f).regs = s.regs := rfl
@[simp] theorem State.modMg_st (f : Mgmt → Mgmt) : (s.modMg f).st = s.st := rfl
@[simp] theorem State.modMg_spad (f : Mgmt → Mgmt) : (s.modMg f).spad = s.spad := rfl
@[simp] theorem State.modMg_escrow (f : Mgmt → Mgmt) : (s.modMg f).escrow = s.escrow := rfl
@[simp] theorem State.modMg_rolls (f : Mgmt → Mgmt) : (s.modMg f).rolls = s.rolls := rfl
@[simp] theorem State.modMg_stream (f : Mgmt → Mgmt) : (s.modMg f).stream = s.stream := rfl
@[simp] theorem State.modMg_prov (f : Mgmt → Mgmt) : (s.modMg f).prov = s.prov := rfl
@[simp] theorem State.modMg_ledger (f : Mgmt → Mgmt) : (s.modMg f).ledger = s.ledger := rfl
@[simp] theorem State.modMg_evRings (f : Mgmt → Mgmt) : (s.modMg f).evRings = s.evRings := rfl
@[simp] theorem State.modMg_evOut (f : Mgmt → Mgmt) : (s.modMg f).evOut = s.evOut := rfl
@[simp] theorem State.modMg_mg (f : Mgmt → Mgmt) : (s.modMg f).mg = f s.mg := rfl
@[simp] theorem State.modMg_pw (f : Mgmt → Mgmt) : (s.modMg f).pw = s.pw := rfl
@[simp] theorem State.modMg_tn (f : Mgmt → Mgmt) : (s.modMg f).tn = s.tn := rfl
@[simp] theorem State.modMg_ft (f : Mgmt → Mgmt) : (s.modMg f).ft = s.ft := rfl
@[simp] theorem State.modMg_act (f : Mgmt → Mgmt) : (s.modMg f).act = s.act := rfl
@[simp] theorem State.modMg_links (f : Mgmt → Mgmt) : (s.modMg f).links = s.links := rfl
@[simp] theorem State.modMg_setBuf (f : Mgmt → Mgmt) : (s.modMg f).setBuf = s.setBuf := rfl
@[simp] theorem State.modMg_free (f : Mgmt → Mgmt) : (s.modMg f).free = s.free := rfl
@[simp] theorem State.modMg_out (f : Mgmt → Mgmt) : (s.modMg f).out = s.out := rfl
@[simp] theorem State.modMg_pending (f : Mgmt → Mgmt) : (s.modMg f).pending = s.pending := rfl

@[simp] theorem State.modTn_fixed (f : Tenants → Tenants) : (s.modTn f).fixed = s.fixed := rfl
@[simp] theorem State.modTn_boot (f : Tenants → Tenants) : (s.modTn f).boot = s.boot := rfl
@[simp] theorem State.modTn_tb (f : Tenants → Tenants) : (s.modTn f).tb = s.tb := rfl
@[simp] theorem State.modTn_ep (f : Tenants → Tenants) : (s.modTn f).ep = s.ep := rfl
@[simp] theorem State.modTn_regs (f : Tenants → Tenants) : (s.modTn f).regs = s.regs := rfl
@[simp] theorem State.modTn_st (f : Tenants → Tenants) : (s.modTn f).st = s.st := rfl
@[simp] theorem State.modTn_spad (f : Tenants → Tenants) : (s.modTn f).spad = s.spad := rfl
@[simp] theorem State.modTn_escrow (f : Tenants → Tenants) : (s.modTn f).escrow = s.escrow := rfl
@[simp] theorem State.modTn_rolls (f : Tenants → Tenants) : (s.modTn f).rolls = s.rolls := rfl
@[simp] theorem State.modTn_stream (f : Tenants → Tenants) : (s.modTn f).stream = s.stream := rfl
@[simp] theorem State.modTn_prov (f : Tenants → Tenants) : (s.modTn f).prov = s.prov := rfl
@[simp] theorem State.modTn_ledger (f : Tenants → Tenants) : (s.modTn f).ledger = s.ledger := rfl
@[simp] theorem State.modTn_evRings (f : Tenants → Tenants) : (s.modTn f).evRings = s.evRings := rfl
@[simp] theorem State.modTn_evOut (f : Tenants → Tenants) : (s.modTn f).evOut = s.evOut := rfl
@[simp] theorem State.modTn_mg (f : Tenants → Tenants) : (s.modTn f).mg = s.mg := rfl
@[simp] theorem State.modTn_pw (f : Tenants → Tenants) : (s.modTn f).pw = s.pw := rfl
@[simp] theorem State.modTn_tn (f : Tenants → Tenants) : (s.modTn f).tn = f s.tn := rfl
@[simp] theorem State.modTn_ft (f : Tenants → Tenants) : (s.modTn f).ft = s.ft := rfl
@[simp] theorem State.modTn_act (f : Tenants → Tenants) : (s.modTn f).act = s.act := rfl
@[simp] theorem State.modTn_links (f : Tenants → Tenants) : (s.modTn f).links = s.links := rfl
@[simp] theorem State.modTn_setBuf (f : Tenants → Tenants) : (s.modTn f).setBuf = s.setBuf := rfl
@[simp] theorem State.modTn_free (f : Tenants → Tenants) : (s.modTn f).free = s.free := rfl
@[simp] theorem State.modTn_out (f : Tenants → Tenants) : (s.modTn f).out = s.out := rfl
@[simp] theorem State.modTn_pending (f : Tenants → Tenants) : (s.modTn f).pending = s.pending := rfl

@[simp] theorem State.bump_fixed (i k : Nat) : (s.bump i k).fixed = s.fixed := rfl
@[simp] theorem State.bump_boot (i k : Nat) : (s.bump i k).boot = s.boot := rfl
@[simp] theorem State.bump_tb (i k : Nat) : (s.bump i k).tb = s.tb := rfl
@[simp] theorem State.bump_ep (i k : Nat) : (s.bump i k).ep = s.ep := rfl
@[simp] theorem State.bump_regs (i k : Nat) : (s.bump i k).regs = s.regs := rfl
@[simp] theorem State.bump_st (i k : Nat) : (s.bump i k).st = s.st := rfl
@[simp] theorem State.bump_spad (i k : Nat) : (s.bump i k).spad = s.spad := rfl
@[simp] theorem State.bump_escrow (i k : Nat) : (s.bump i k).escrow = s.escrow := rfl
@[simp] theorem State.bump_rolls (i k : Nat) : (s.bump i k).rolls = s.rolls := rfl
@[simp] theorem State.bump_stream (i k : Nat) : (s.bump i k).stream = s.stream := rfl
@[simp] theorem State.bump_prov (i k : Nat) : (s.bump i k).prov = s.prov := rfl
@[simp] theorem State.bump_ledger (i k : Nat) : (s.bump i k).ledger = s.ledger := rfl
@[simp] theorem State.bump_evRings (i k : Nat) : (s.bump i k).evRings = s.evRings := rfl
@[simp] theorem State.bump_evOut (i k : Nat) : (s.bump i k).evOut = s.evOut := rfl
@[simp] theorem State.bump_mg (i k : Nat) : (s.bump i k).mg = s.mg := rfl
@[simp] theorem State.bump_pw (i k : Nat) : (s.bump i k).pw = s.pw := rfl
@[simp] theorem State.bump_tn (i k : Nat) : (s.bump i k).tn = s.tn := rfl
@[simp] theorem State.bump_ft (i k : Nat) : (s.bump i k).ft = s.ft := rfl
@[simp] theorem State.bump_act (i k : Nat) : (s.bump i k).act = vecModify s.act i fun v => satAdd v k := rfl
@[simp] theorem State.bump_links (i k : Nat) : (s.bump i k).links = s.links := rfl
@[simp] theorem State.bump_setBuf (i k : Nat) : (s.bump i k).setBuf = s.setBuf := rfl
@[simp] theorem State.bump_free (i k : Nat) : (s.bump i k).free = s.free := rfl
@[simp] theorem State.bump_out (i k : Nat) : (s.bump i k).out = s.out := rfl
@[simp] theorem State.bump_pending (i k : Nat) : (s.bump i k).pending = s.pending := rfl

@[simp] theorem State.setLink_fixed (c : Scope) (l : Link) : (s.setLink c l).fixed = s.fixed := by cases c <;> rfl
@[simp] theorem State.setLink_boot (c : Scope) (l : Link) : (s.setLink c l).boot = s.boot := by cases c <;> rfl
@[simp] theorem State.setLink_tb (c : Scope) (l : Link) : (s.setLink c l).tb = s.tb := by cases c <;> rfl
@[simp] theorem State.setLink_ep (c : Scope) (l : Link) : (s.setLink c l).ep = s.ep := by cases c <;> rfl
@[simp] theorem State.setLink_regs (c : Scope) (l : Link) : (s.setLink c l).regs = s.regs := by cases c <;> rfl
@[simp] theorem State.setLink_st (c : Scope) (l : Link) : (s.setLink c l).st = s.st := by cases c <;> rfl
@[simp] theorem State.setLink_spad (c : Scope) (l : Link) : (s.setLink c l).spad = s.spad := by cases c <;> rfl
@[simp] theorem State.setLink_escrow (c : Scope) (l : Link) : (s.setLink c l).escrow = s.escrow := by cases c <;> rfl
@[simp] theorem State.setLink_rolls (c : Scope) (l : Link) : (s.setLink c l).rolls = s.rolls := by cases c <;> rfl
@[simp] theorem State.setLink_stream (c : Scope) (l : Link) : (s.setLink c l).stream = s.stream := by cases c <;> rfl
@[simp] theorem State.setLink_prov (c : Scope) (l : Link) : (s.setLink c l).prov = s.prov := by cases c <;> rfl
@[simp] theorem State.setLink_ledger (c : Scope) (l : Link) : (s.setLink c l).ledger = s.ledger := by cases c <;> rfl
@[simp] theorem State.setLink_evRings (c : Scope) (l : Link) : (s.setLink c l).evRings = s.evRings := by cases c <;> rfl
@[simp] theorem State.setLink_evOut (c : Scope) (l : Link) : (s.setLink c l).evOut = s.evOut := by cases c <;> rfl
@[simp] theorem State.setLink_mg (c : Scope) (l : Link) : (s.setLink c l).mg = s.mg := by cases c <;> rfl
@[simp] theorem State.setLink_pw (c : Scope) (l : Link) : (s.setLink c l).pw = s.pw := by cases c <;> rfl
@[simp] theorem State.setLink_tn (c : Scope) (l : Link) : (s.setLink c l).tn = s.tn := by cases c <;> rfl
@[simp] theorem State.setLink_ft (c : Scope) (l : Link) : (s.setLink c l).ft = s.ft := by cases c <;> rfl
@[simp] theorem State.setLink_act (c : Scope) (l : Link) : (s.setLink c l).act = s.act := by cases c <;> rfl
@[simp] theorem State.setLink_setBuf (c : Scope) (l : Link) : (s.setLink c l).setBuf = s.setBuf := by cases c <;> rfl
@[simp] theorem State.setLink_free (c : Scope) (l : Link) : (s.setLink c l).free = s.free := by cases c <;> rfl
@[simp] theorem State.setLink_out (c : Scope) (l : Link) : (s.setLink c l).out = s.out := by cases c <;> rfl
@[simp] theorem State.setLink_pending (c : Scope) (l : Link) : (s.setLink c l).pending = s.pending := by cases c <;> rfl

@[simp] theorem State.modLink_fixed (c : Scope) (f : Link → Link) : (s.modLink c f).fixed = s.fixed := by cases c <;> rfl
@[simp] theorem State.modLink_boot (c : Scope) (f : Link → Link) : (s.modLink c f).boot = s.boot := by cases c <;> rfl
@[simp] theorem State.modLink_tb (c : Scope) (f : Link → Link) : (s.modLink c f).tb = s.tb := by cases c <;> rfl
@[simp] theorem State.modLink_ep (c : Scope) (f : Link → Link) : (s.modLink c f).ep = s.ep := by cases c <;> rfl
@[simp] theorem State.modLink_regs (c : Scope) (f : Link → Link) : (s.modLink c f).regs = s.regs := by cases c <;> rfl
@[simp] theorem State.modLink_st (c : Scope) (f : Link → Link) : (s.modLink c f).st = s.st := by cases c <;> rfl
@[simp] theorem State.modLink_spad (c : Scope) (f : Link → Link) : (s.modLink c f).spad = s.spad := by cases c <;> rfl
@[simp] theorem State.modLink_escrow (c : Scope) (f : Link → Link) : (s.modLink c f).escrow = s.escrow := by cases c <;> rfl
@[simp] theorem State.modLink_rolls (c : Scope) (f : Link → Link) : (s.modLink c f).rolls = s.rolls := by cases c <;> rfl
@[simp] theorem State.modLink_stream (c : Scope) (f : Link → Link) : (s.modLink c f).stream = s.stream := by cases c <;> rfl
@[simp] theorem State.modLink_prov (c : Scope) (f : Link → Link) : (s.modLink c f).prov = s.prov := by cases c <;> rfl
@[simp] theorem State.modLink_ledger (c : Scope) (f : Link → Link) : (s.modLink c f).ledger = s.ledger := by cases c <;> rfl
@[simp] theorem State.modLink_evRings (c : Scope) (f : Link → Link) : (s.modLink c f).evRings = s.evRings := by cases c <;> rfl
@[simp] theorem State.modLink_evOut (c : Scope) (f : Link → Link) : (s.modLink c f).evOut = s.evOut := by cases c <;> rfl
@[simp] theorem State.modLink_mg (c : Scope) (f : Link → Link) : (s.modLink c f).mg = s.mg := by cases c <;> rfl
@[simp] theorem State.modLink_pw (c : Scope) (f : Link → Link) : (s.modLink c f).pw = s.pw := by cases c <;> rfl
@[simp] theorem State.modLink_tn (c : Scope) (f : Link → Link) : (s.modLink c f).tn = s.tn := by cases c <;> rfl
@[simp] theorem State.modLink_ft (c : Scope) (f : Link → Link) : (s.modLink c f).ft = s.ft := by cases c <;> rfl
@[simp] theorem State.modLink_act (c : Scope) (f : Link → Link) : (s.modLink c f).act = s.act := by cases c <;> rfl
@[simp] theorem State.modLink_setBuf (c : Scope) (f : Link → Link) : (s.modLink c f).setBuf = s.setBuf := by cases c <;> rfl
@[simp] theorem State.modLink_free (c : Scope) (f : Link → Link) : (s.modLink c f).free = s.free := by cases c <;> rfl
@[simp] theorem State.modLink_out (c : Scope) (f : Link → Link) : (s.modLink c f).out = s.out := by cases c <;> rfl
@[simp] theorem State.modLink_pending (c : Scope) (f : Link → Link) : (s.modLink c f).pending = s.pending := by cases c <;> rfl

@[simp] theorem State.link_setLink (c : Scope) (l : Link) : (s.setLink c l).link c = l := by cases c <;> rfl
@[simp] theorem State.link_modLink (c : Scope) (f : Link → Link) : (s.modLink c f).link c = f (s.link c) := by cases c <;> rfl

@[simp] theorem State.modInflight_fixed (t : W16) (f : Inflight → Inflight) : (s.modInflight t f).fixed = s.fixed := rfl
@[simp] theorem State.modInflight_boot (t : W16) (f : Inflight → Inflight) : (s.modInflight t f).boot = s.boot := rfl
@[simp] theorem State.modInflight_tb (t : W16) (f : Inflight → Inflight) : (s.modInflight t f).tb = s.tb := rfl
@[simp] theorem State.modInflight_ep (t : W16) (f : Inflight → Inflight) : (s.modInflight t f).ep = s.ep := rfl
@[simp] theorem State.modInflight_regs (t : W16) (f : Inflight → Inflight) : (s.modInflight t f).regs = s.regs := rfl
@[simp] theorem State.modInflight_st (t : W16) (f : Inflight → Inflight) : (s.modInflight t f).st = s.st := rfl
@[simp] theorem State.modInflight_spad (t : W16) (f : Inflight → Inflight) : (s.modInflight t f).spad = s.spad := rfl
@[simp] theorem State.modInflight_escrow (t : W16) (f : Inflight → Inflight) : (s.modInflight t f).escrow = s.escrow := rfl
@[simp] theorem State.modInflight_rolls (t : W16) (f : Inflight → Inflight) : (s.modInflight t f).rolls = s.rolls := rfl
@[simp] theorem State.modInflight_stream (t : W16) (f : Inflight → Inflight) : (s.modInflight t f).stream
    = { s.stream with inflight := updateFirst (fun c => (c.slot.words.headD 0).setWidth 16 == t) f s.stream.inflight } := rfl
@[simp] theorem State.modInflight_prov (t : W16) (f : Inflight → Inflight) : (s.modInflight t f).prov = s.prov := rfl
@[simp] theorem State.modInflight_ledger (t : W16) (f : Inflight → Inflight) : (s.modInflight t f).ledger = s.ledger := rfl
@[simp] theorem State.modInflight_evRings (t : W16) (f : Inflight → Inflight) : (s.modInflight t f).evRings = s.evRings := rfl
@[simp] theorem State.modInflight_evOut (t : W16) (f : Inflight → Inflight) : (s.modInflight t f).evOut = s.evOut := rfl
@[simp] theorem State.modInflight_mg (t : W16) (f : Inflight → Inflight) : (s.modInflight t f).mg = s.mg := rfl
@[simp] theorem State.modInflight_pw (t : W16) (f : Inflight → Inflight) : (s.modInflight t f).pw = s.pw := rfl
@[simp] theorem State.modInflight_tn (t : W16) (f : Inflight → Inflight) : (s.modInflight t f).tn = s.tn := rfl
@[simp] theorem State.modInflight_ft (t : W16) (f : Inflight → Inflight) : (s.modInflight t f).ft = s.ft := rfl
@[simp] theorem State.modInflight_act (t : W16) (f : Inflight → Inflight) : (s.modInflight t f).act = s.act := rfl
@[simp] theorem State.modInflight_links (t : W16) (f : Inflight → Inflight) : (s.modInflight t f).links = s.links := rfl
@[simp] theorem State.modInflight_setBuf (t : W16) (f : Inflight → Inflight) : (s.modInflight t f).setBuf = s.setBuf := rfl
@[simp] theorem State.modInflight_free (t : W16) (f : Inflight → Inflight) : (s.modInflight t f).free = s.free := rfl
@[simp] theorem State.modInflight_out (t : W16) (f : Inflight → Inflight) : (s.modInflight t f).out = s.out := rfl
@[simp] theorem State.modInflight_pending (t : W16) (f : Inflight → Inflight) : (s.modInflight t f).pending = s.pending := rfl

@[simp] theorem State.log_fixed (code tag : W16) (ctx : Option (BitVec 3)) (d : List Byte) : (s.log code tag ctx d).fixed = s.fixed := rfl
@[simp] theorem State.log_boot (code tag : W16) (ctx : Option (BitVec 3)) (d : List Byte) : (s.log code tag ctx d).boot = s.boot := rfl
@[simp] theorem State.log_tb (code tag : W16) (ctx : Option (BitVec 3)) (d : List Byte) : (s.log code tag ctx d).tb = s.tb := rfl
@[simp] theorem State.log_ep (code tag : W16) (ctx : Option (BitVec 3)) (d : List Byte) : (s.log code tag ctx d).ep = s.ep := rfl
@[simp] theorem State.log_regs (code tag : W16) (ctx : Option (BitVec 3)) (d : List Byte) : (s.log code tag ctx d).regs = s.regs := rfl
@[simp] theorem State.log_st (code tag : W16) (ctx : Option (BitVec 3)) (d : List Byte) : (s.log code tag ctx d).st = s.st := rfl
@[simp] theorem State.log_spad (code tag : W16) (ctx : Option (BitVec 3)) (d : List Byte) : (s.log code tag ctx d).spad = s.spad := rfl
@[simp] theorem State.log_escrow (code tag : W16) (ctx : Option (BitVec 3)) (d : List Byte) : (s.log code tag ctx d).escrow = s.escrow := rfl
@[simp] theorem State.log_rolls (code tag : W16) (ctx : Option (BitVec 3)) (d : List Byte) : (s.log code tag ctx d).rolls = s.rolls := rfl
@[simp] theorem State.log_stream (code tag : W16) (ctx : Option (BitVec 3)) (d : List Byte) : (s.log code tag ctx d).stream = s.stream := rfl
@[simp] theorem State.log_prov (code tag : W16) (ctx : Option (BitVec 3)) (d : List Byte) : (s.log code tag ctx d).prov = s.prov := rfl
@[simp] theorem State.log_evOut (code tag : W16) (ctx : Option (BitVec 3)) (d : List Byte) : (s.log code tag ctx d).evOut = s.evOut := rfl
@[simp] theorem State.log_mg (code tag : W16) (ctx : Option (BitVec 3)) (d : List Byte) : (s.log code tag ctx d).mg = s.mg := rfl
@[simp] theorem State.log_pw (code tag : W16) (ctx : Option (BitVec 3)) (d : List Byte) : (s.log code tag ctx d).pw = s.pw := rfl
@[simp] theorem State.log_tn (code tag : W16) (ctx : Option (BitVec 3)) (d : List Byte) : (s.log code tag ctx d).tn = s.tn := rfl
@[simp] theorem State.log_ft (code tag : W16) (ctx : Option (BitVec 3)) (d : List Byte) : (s.log code tag ctx d).ft = s.ft := rfl
@[simp] theorem State.log_act (code tag : W16) (ctx : Option (BitVec 3)) (d : List Byte) : (s.log code tag ctx d).act = s.act := rfl
@[simp] theorem State.log_links (code tag : W16) (ctx : Option (BitVec 3)) (d : List Byte) : (s.log code tag ctx d).links = s.links := rfl
@[simp] theorem State.log_setBuf (code tag : W16) (ctx : Option (BitVec 3)) (d : List Byte) : (s.log code tag ctx d).setBuf = s.setBuf := rfl
@[simp] theorem State.log_free (code tag : W16) (ctx : Option (BitVec 3)) (d : List Byte) : (s.log code tag ctx d).free = s.free := rfl
@[simp] theorem State.log_out (code tag : W16) (ctx : Option (BitVec 3)) (d : List Byte) : (s.log code tag ctx d).out = s.out := rfl
@[simp] theorem State.log_pending (code tag : W16) (ctx : Option (BitVec 3)) (d : List Byte) : (s.log code tag ctx d).pending = s.pending := rfl

@[simp] theorem State.cycleLog_fixed (t s : State) : (t.cycleLog s).fixed = t.fixed := rfl
@[simp] theorem State.cycleLog_boot (t s : State) : (t.cycleLog s).boot = t.boot := rfl
@[simp] theorem State.cycleLog_tb (t s : State) : (t.cycleLog s).tb = t.tb := rfl
@[simp] theorem State.cycleLog_ep (t s : State) : (t.cycleLog s).ep = t.ep := rfl
@[simp] theorem State.cycleLog_regs (t s : State) : (t.cycleLog s).regs = t.regs := rfl
@[simp] theorem State.cycleLog_st (t s : State) : (t.cycleLog s).st = t.st := rfl
@[simp] theorem State.cycleLog_spad (t s : State) : (t.cycleLog s).spad = t.spad := rfl
@[simp] theorem State.cycleLog_escrow (t s : State) : (t.cycleLog s).escrow = t.escrow := rfl
@[simp] theorem State.cycleLog_rolls (t s : State) : (t.cycleLog s).rolls = t.rolls := rfl
@[simp] theorem State.cycleLog_stream (t s : State) : (t.cycleLog s).stream = t.stream := rfl
@[simp] theorem State.cycleLog_prov (t s : State) : (t.cycleLog s).prov = t.prov := rfl
@[simp] theorem State.cycleLog_evOut (t s : State) : (t.cycleLog s).evOut = t.evOut := rfl
@[simp] theorem State.cycleLog_mg (t s : State) : (t.cycleLog s).mg = t.mg := rfl
@[simp] theorem State.cycleLog_pw (t s : State) : (t.cycleLog s).pw = t.pw := rfl
@[simp] theorem State.cycleLog_tn (t s : State) : (t.cycleLog s).tn = t.tn := rfl
@[simp] theorem State.cycleLog_ft (t s : State) : (t.cycleLog s).ft = t.ft := rfl
@[simp] theorem State.cycleLog_act (t s : State) : (t.cycleLog s).act = t.act := rfl
@[simp] theorem State.cycleLog_links (t s : State) : (t.cycleLog s).links = t.links := rfl
@[simp] theorem State.cycleLog_setBuf (t s : State) : (t.cycleLog s).setBuf = t.setBuf := rfl
@[simp] theorem State.cycleLog_free (t s : State) : (t.cycleLog s).free = t.free := rfl
@[simp] theorem State.cycleLog_out (t s : State) : (t.cycleLog s).out = t.out := rfl
@[simp] theorem State.cycleLog_pending (t s : State) : (t.cycleLog s).pending = t.pending := rfl
@[simp] theorem State.cycleLog_evRings (t s : State) : (t.cycleLog s).evRings = t.evRings := rfl

theorem LEntry.insert_length (e : LEntry) (es : List LEntry) : (e.insert es).length = es.length + 1 := by
  induction es with
  | nil => rfl
  | cons f fs ih => unfold LEntry.insert; split <;> simp [ih]

theorem byCode_length (es : List LEntry) : (byCode es).length = es.length := by
  induction es with
  | nil => rfl
  | cons e es ih => simp [byCode, LEntry.insert_length, ih]

theorem Ledger.inOrder_length (l : Ledger) (w : W32) : (l.inOrder w).entries.length = l.entries.length := by
  unfold Ledger.inOrder
  extract_lets n
  split
  · rfl
  · simp [byCode_length]

/-- A step that logs one entry leaves it as it is (R407). -/
theorem Ledger.inOrder_one (l : Ledger) (w : W32) (h : (l.tail - w).toNat ≤ 1) : l.inOrder w = l := by
  unfold Ledger.inOrder
  exact if_pos (Nat.le_trans (Nat.min_le_left _ _) h)

/-- A step that logs nothing leaves the Ledger as it is. -/
theorem State.cycleLog_same (t s : State) (h : t.ledger = s.ledger) : t.cycleLog s = t := by
  unfold State.cycleLog; rw [Ledger.inOrder_one _ _ (by simp [h])]

theorem State.cycleLog_log (t s : State) (code tag : W16) (ctx : Option (BitVec 3)) (d : List Byte)
    (h : t.ledger = (s.log code tag ctx d).ledger) : t.cycleLog s = t := by
  unfold State.cycleLog
  rw [Ledger.inOrder_one _ _ (by simp [h, State.log])]

theorem keepLast_snoc {α : Type} (n : Nat) (xs : List α) (x : α) : keepLast (n + 1) (xs ++ [x]) = keepLast n xs ++ [x] := by
  simp [keepLast]

/-- Two new entries at the end stand as they were logged when their codes do not fall. -/
theorem Ledger.inOrder_two (l : Ledger) (w : W32) (as : List LEntry) (a b : LEntry) (he : l.entries = as ++ [a, b]) (ht : l.tail = w + 1 + 1)
    (ha : a.seq = w) (hb : b.seq = w + 1) (h : a.code.toNat ≤ b.code.toNat) : l.inOrder w = l := by
  obtain ⟨es, tail, x⟩ := l
  subst he ht
  obtain ⟨g, c, t, k, q, d⟩ := a
  obtain ⟨g', c', t', k', q', d'⟩ := b
  subst ha hb
  have e : ∀ v : W32, ((v + 1 + 1) - v).toNat = 2 := fun v => by
    rw [show (v + 1 + 1 : W32) - v = 2 by bv_omega]; rfl
  have m (as : List LEntry) (a b : LEntry) : min 2 (as ++ [a, b]).length = 2 := by simp
  simp only at h
  simp only [Ledger.inOrder, e, m]
  simp [byCode, LEntry.insert, h]
  bv_omega

/-- Two entries of a step stand as they were logged when their codes do not fall (R407). -/
theorem State.cycleLog_log_log (s : State) (code tag code' tag' : W16) (ctx ctx' : Option (BitVec 3)) (d d' : List Byte)
    (h : code.toNat ≤ code'.toNat) :
    ((s.log code tag ctx d).log code' tag' ctx' d').cycleLog s = (s.log code tag ctx d).log code' tag' ctx' d' := by
  unfold State.cycleLog
  rw [Ledger.inOrder_two _ _ (keepLast 4094 (keepLast 4095 s.ledger.entries)) ⟨s.gc, code, tag, ctx, s.ledger.tail, padTo 16 d⟩
    ⟨s.gc, code', tag', ctx', s.ledger.tail + 1, padTo 16 d'⟩ ?_ rfl rfl rfl h]
  simp only [State.log, keepLast_snoc]
  simp [State.gc]

@[simp] theorem State.logLimited_fixed (src : LimitSource) (code tag : W16) (ctx : Option (BitVec 3)) (d : W32 → List Byte) :
    (s.logLimited src code tag ctx d).fixed = s.fixed := by
  simp only [State.logLimited]; split <;> rfl
@[simp] theorem State.logLimited_boot (src : LimitSource) (code tag : W16) (ctx : Option (BitVec 3)) (d : W32 → List Byte) :
    (s.logLimited src code tag ctx d).boot = s.boot := by
  simp only [State.logLimited]; split <;> rfl
@[simp] theorem State.logLimited_tb (src : LimitSource) (code tag : W16) (ctx : Option (BitVec 3)) (d : W32 → List Byte) :
    (s.logLimited src code tag ctx d).tb = s.tb := by
  simp only [State.logLimited]; split <;> rfl
@[simp] theorem State.logLimited_ep (src : LimitSource) (code tag : W16) (ctx : Option (BitVec 3)) (d : W32 → List Byte) :
    (s.logLimited src code tag ctx d).ep = s.ep := by
  simp only [State.logLimited]; split <;> rfl
@[simp] theorem State.logLimited_regs (src : LimitSource) (code tag : W16) (ctx : Option (BitVec 3)) (d : W32 → List Byte) :
    (s.logLimited src code tag ctx d).regs = s.regs := by
  simp only [State.logLimited]; split <;> rfl
@[simp] theorem State.logLimited_st (src : LimitSource) (code tag : W16) (ctx : Option (BitVec 3)) (d : W32 → List Byte) :
    (s.logLimited src code tag ctx d).st = s.st := by
  simp only [State.logLimited]; split <;> rfl
@[simp] theorem State.logLimited_spad (src : LimitSource) (code tag : W16) (ctx : Option (BitVec 3)) (d : W32 → List Byte) :
    (s.logLimited src code tag ctx d).spad = s.spad := by
  simp only [State.logLimited]; split <;> rfl
@[simp] theorem State.logLimited_escrow (src : LimitSource) (code tag : W16) (ctx : Option (BitVec 3)) (d : W32 → List Byte) :
    (s.logLimited src code tag ctx d).escrow = s.escrow := by
  simp only [State.logLimited]; split <;> rfl
@[simp] theorem State.logLimited_rolls (src : LimitSource) (code tag : W16) (ctx : Option (BitVec 3)) (d : W32 → List Byte) :
    (s.logLimited src code tag ctx d).rolls = s.rolls := by
  simp only [State.logLimited]; split <;> rfl
@[simp] theorem State.logLimited_stream (src : LimitSource) (code tag : W16) (ctx : Option (BitVec 3)) (d : W32 → List Byte) :
    (s.logLimited src code tag ctx d).stream = s.stream := by
  simp only [State.logLimited]; split <;> rfl
@[simp] theorem State.logLimited_prov (src : LimitSource) (code tag : W16) (ctx : Option (BitVec 3)) (d : W32 → List Byte) :
    (s.logLimited src code tag ctx d).prov = s.prov := by
  simp only [State.logLimited]; split <;> rfl
@[simp] theorem State.logLimited_evOut (src : LimitSource) (code tag : W16) (ctx : Option (BitVec 3)) (d : W32 → List Byte) :
    (s.logLimited src code tag ctx d).evOut = s.evOut := by
  simp only [State.logLimited]; split <;> rfl
@[simp] theorem State.logLimited_mg (src : LimitSource) (code tag : W16) (ctx : Option (BitVec 3)) (d : W32 → List Byte) :
    (s.logLimited src code tag ctx d).mg = s.mg := by
  simp only [State.logLimited]; split <;> rfl
@[simp] theorem State.logLimited_pw (src : LimitSource) (code tag : W16) (ctx : Option (BitVec 3)) (d : W32 → List Byte) :
    (s.logLimited src code tag ctx d).pw = s.pw := by
  simp only [State.logLimited]; split <;> rfl
@[simp] theorem State.logLimited_tn (src : LimitSource) (code tag : W16) (ctx : Option (BitVec 3)) (d : W32 → List Byte) :
    (s.logLimited src code tag ctx d).tn = s.tn := by
  simp only [State.logLimited]; split <;> rfl
@[simp] theorem State.logLimited_ft (src : LimitSource) (code tag : W16) (ctx : Option (BitVec 3)) (d : W32 → List Byte) :
    (s.logLimited src code tag ctx d).ft = s.ft := by
  simp only [State.logLimited]; split <;> rfl
@[simp] theorem State.logLimited_act (src : LimitSource) (code tag : W16) (ctx : Option (BitVec 3)) (d : W32 → List Byte) :
    (s.logLimited src code tag ctx d).act = s.act := by
  simp only [State.logLimited]; split <;> rfl
@[simp] theorem State.logLimited_links (src : LimitSource) (code tag : W16) (ctx : Option (BitVec 3)) (d : W32 → List Byte) :
    (s.logLimited src code tag ctx d).links = s.links := by
  simp only [State.logLimited]; split <;> rfl
@[simp] theorem State.logLimited_setBuf (src : LimitSource) (code tag : W16) (ctx : Option (BitVec 3)) (d : W32 → List Byte) :
    (s.logLimited src code tag ctx d).setBuf = s.setBuf := by
  simp only [State.logLimited]; split <;> rfl
@[simp] theorem State.logLimited_free (src : LimitSource) (code tag : W16) (ctx : Option (BitVec 3)) (d : W32 → List Byte) :
    (s.logLimited src code tag ctx d).free = s.free := by
  simp only [State.logLimited]; split <;> rfl
@[simp] theorem State.logLimited_out (src : LimitSource) (code tag : W16) (ctx : Option (BitVec 3)) (d : W32 → List Byte) :
    (s.logLimited src code tag ctx d).out = s.out := by
  simp only [State.logLimited]; split <;> rfl
@[simp] theorem State.logLimited_pending (src : LimitSource) (code tag : W16) (ctx : Option (BitVec 3)) (d : W32 → List Byte) :
    (s.logLimited src code tag ctx d).pending = s.pending := by
  simp only [State.logLimited]; split <;> rfl

@[simp] theorem State.note_fixed (f : Summary → Summary) : (s.note f).fixed = s.fixed := rfl
@[simp] theorem State.note_boot (f : Summary → Summary) : (s.note f).boot = s.boot := rfl
@[simp] theorem State.note_tb (f : Summary → Summary) : (s.note f).tb = s.tb := rfl
@[simp] theorem State.note_ep (f : Summary → Summary) : (s.note f).ep = s.ep := rfl
@[simp] theorem State.note_regs (f : Summary → Summary) : (s.note f).regs = s.regs := rfl
@[simp] theorem State.note_st (f : Summary → Summary) : (s.note f).st = s.st := rfl
@[simp] theorem State.note_spad (f : Summary → Summary) : (s.note f).spad = s.spad := rfl
@[simp] theorem State.note_escrow (f : Summary → Summary) : (s.note f).escrow = s.escrow := rfl
@[simp] theorem State.note_rolls (f : Summary → Summary) : (s.note f).rolls = s.rolls := rfl
@[simp] theorem State.note_stream (f : Summary → Summary) : (s.note f).stream = s.stream := rfl
@[simp] theorem State.note_ledger (f : Summary → Summary) : (s.note f).ledger = s.ledger := rfl
@[simp] theorem State.note_evRings (f : Summary → Summary) : (s.note f).evRings = s.evRings := rfl
@[simp] theorem State.note_evOut (f : Summary → Summary) : (s.note f).evOut = s.evOut := rfl
@[simp] theorem State.note_mg (f : Summary → Summary) : (s.note f).mg = s.mg := rfl
@[simp] theorem State.note_pw (f : Summary → Summary) : (s.note f).pw = s.pw := rfl
@[simp] theorem State.note_tn (f : Summary → Summary) : (s.note f).tn = s.tn := rfl
@[simp] theorem State.note_ft (f : Summary → Summary) : (s.note f).ft = s.ft := rfl
@[simp] theorem State.note_act (f : Summary → Summary) : (s.note f).act = s.act := rfl
@[simp] theorem State.note_links (f : Summary → Summary) : (s.note f).links = s.links := rfl
@[simp] theorem State.note_setBuf (f : Summary → Summary) : (s.note f).setBuf = s.setBuf := rfl
@[simp] theorem State.note_free (f : Summary → Summary) : (s.note f).free = s.free := rfl
@[simp] theorem State.note_out (f : Summary → Summary) : (s.note f).out = s.out := rfl
@[simp] theorem State.note_pending (f : Summary → Summary) : (s.note f).pending = s.pending := rfl

@[simp] theorem State.noteEpoch_fixed (e : W16) (f : Summary → Summary) : (s.noteEpoch e f).fixed = s.fixed := by
  simp only [State.noteEpoch]; split <;> rfl
@[simp] theorem State.noteEpoch_boot (e : W16) (f : Summary → Summary) : (s.noteEpoch e f).boot = s.boot := by
  simp only [State.noteEpoch]; split <;> rfl
@[simp] theorem State.noteEpoch_tb (e : W16) (f : Summary → Summary) : (s.noteEpoch e f).tb = s.tb := by
  simp only [State.noteEpoch]; split <;> rfl
@[simp] theorem State.noteEpoch_ep (e : W16) (f : Summary → Summary) : (s.noteEpoch e f).ep = s.ep := by
  simp only [State.noteEpoch]; split <;> rfl
@[simp] theorem State.noteEpoch_regs (e : W16) (f : Summary → Summary) : (s.noteEpoch e f).regs = s.regs := by
  simp only [State.noteEpoch]; split <;> rfl
@[simp] theorem State.noteEpoch_st (e : W16) (f : Summary → Summary) : (s.noteEpoch e f).st = s.st := by
  simp only [State.noteEpoch]; split <;> rfl
@[simp] theorem State.noteEpoch_spad (e : W16) (f : Summary → Summary) : (s.noteEpoch e f).spad = s.spad := by
  simp only [State.noteEpoch]; split <;> rfl
@[simp] theorem State.noteEpoch_escrow (e : W16) (f : Summary → Summary) : (s.noteEpoch e f).escrow = s.escrow := by
  simp only [State.noteEpoch]; split <;> rfl
@[simp] theorem State.noteEpoch_rolls (e : W16) (f : Summary → Summary) : (s.noteEpoch e f).rolls = s.rolls := by
  simp only [State.noteEpoch]; split <;> rfl
@[simp] theorem State.noteEpoch_stream (e : W16) (f : Summary → Summary) : (s.noteEpoch e f).stream = s.stream := by
  simp only [State.noteEpoch]; split <;> rfl
@[simp] theorem State.noteEpoch_ledger (e : W16) (f : Summary → Summary) : (s.noteEpoch e f).ledger = s.ledger := by
  simp only [State.noteEpoch]; split <;> rfl
@[simp] theorem State.noteEpoch_evRings (e : W16) (f : Summary → Summary) : (s.noteEpoch e f).evRings = s.evRings := by
  simp only [State.noteEpoch]; split <;> rfl
@[simp] theorem State.noteEpoch_evOut (e : W16) (f : Summary → Summary) : (s.noteEpoch e f).evOut = s.evOut := by
  simp only [State.noteEpoch]; split <;> rfl
@[simp] theorem State.noteEpoch_mg (e : W16) (f : Summary → Summary) : (s.noteEpoch e f).mg = s.mg := by
  simp only [State.noteEpoch]; split <;> rfl
@[simp] theorem State.noteEpoch_pw (e : W16) (f : Summary → Summary) : (s.noteEpoch e f).pw = s.pw := by
  simp only [State.noteEpoch]; split <;> rfl
@[simp] theorem State.noteEpoch_tn (e : W16) (f : Summary → Summary) : (s.noteEpoch e f).tn = s.tn := by
  simp only [State.noteEpoch]; split <;> rfl
@[simp] theorem State.noteEpoch_ft (e : W16) (f : Summary → Summary) : (s.noteEpoch e f).ft = s.ft := by
  simp only [State.noteEpoch]; split <;> rfl
@[simp] theorem State.noteEpoch_act (e : W16) (f : Summary → Summary) : (s.noteEpoch e f).act = s.act := by
  simp only [State.noteEpoch]; split <;> rfl
@[simp] theorem State.noteEpoch_links (e : W16) (f : Summary → Summary) : (s.noteEpoch e f).links = s.links := by
  simp only [State.noteEpoch]; split <;> rfl
@[simp] theorem State.noteEpoch_setBuf (e : W16) (f : Summary → Summary) : (s.noteEpoch e f).setBuf = s.setBuf := by
  simp only [State.noteEpoch]; split <;> rfl
@[simp] theorem State.noteEpoch_free (e : W16) (f : Summary → Summary) : (s.noteEpoch e f).free = s.free := by
  simp only [State.noteEpoch]; split <;> rfl
@[simp] theorem State.noteEpoch_out (e : W16) (f : Summary → Summary) : (s.noteEpoch e f).out = s.out := by
  simp only [State.noteEpoch]; split <;> rfl
@[simp] theorem State.noteEpoch_pending (e : W16) (f : Summary → Summary) : (s.noteEpoch e f).pending = s.pending := by
  simp only [State.noteEpoch]; split <;> rfl

/-- The Ledger holds at most 4,096 entries after an entry (R407). -/
theorem State.log_length (code tag : W16) (ctx : Option (BitVec 3)) (d : List Byte) :
    (s.log code tag ctx d).ledger.entries.length ≤ 4096 := by
  simp only [State.log, keepLast, List.length_reverse, List.length_take]; omega

theorem keepLast_suffix {α : Type} (n : Nat) (xs : List α) : keepLast n xs <:+ xs := by
  have := List.take_prefix n xs.reverse
  rwa [← List.reverse_suffix, List.reverse_reverse] at this

/-- A new entry stands last (R407). -/
theorem State.log_getLast? (code tag : W16) (ctx : Option (BitVec 3)) (d : List Byte) :
    (s.log code tag ctx d).ledger.entries.getLast?
      = some { gc := s.gc, code := code, tag := tag, ctx := ctx, seq := s.ledger.tail, detail := padTo 16 d } := by
  have h : ∀ e : LEntry, (keepLast 4096 (s.ledger.entries ++ [e])).getLast? = some e := by
    intro e
    simp [keepLast]
  exact h _

end Sys2Proof.Machine
end

