-- ==== Sys2Proof/Laws/Keeps.lean ====
section
/-! SUPPORT. What every operation of the unit keeps: the queue, the size of the scratchpad, the count of free values drawn,
and the invariant. -/
namespace Sys2Proof.Machine
open Sys2Proof

/-- `t` keeps what no operation may break in `s`. -/
structure Keeps (s t : State) : Prop where
  pending : t.pending = s.pending
  size    : t.fixed.spadMiB = s.fixed.spadMiB
  free    : s.free ≤ t.free
  inv     : s.inv = true → t.inv = true

theorem Keeps.refl (s : State) : Keeps s s := ⟨rfl, rfl, le_refl _, id⟩

theorem Keeps.trans {s t u : State} (h : Keeps s t) (k : Keeps t u) : Keeps s u :=
  ⟨k.pending.trans h.pending, k.size.trans h.size, h.free.trans k.free, k.inv ∘ h.inv⟩

/-- The invariant, spelled out. -/
theorem State.inv_iff (s : State) : s.inv = true ↔ Memory.wf s.spad.mem = true ∧ sparseFrom 0 0 s.spad.synd = true
    ∧ sparseFrom 0 0 s.st.till = true ∧ Memory.wf s.st.rowTab = true ∧ s.ledger.entries.length ≤ 4096
    ∧ s.stream.inflight.length ≤ 32 ∧ s.escrow.entries.length ≤ 48 ∧ entriesApart s.escrow.entries = true := by
  simp [State.inv, State.canonical, and_assoc]

/-- An update of other fields; commands may leave the unit. -/
theorem Keeps.frame {z s t : State} (h : Keeps z s) (e1 : t.pending = s.pending) (e2 : t.fixed.spadMiB = s.fixed.spadMiB)
    (e3 : t.free = s.free) (e4 : t.spad.mem = s.spad.mem) (e5 : t.spad.synd = s.spad.synd) (e6 : t.st.till = s.st.till)
    (e7 : t.st.rowTab = s.st.rowTab) (e8 : t.ledger.entries = s.ledger.entries) (e9 : t.escrow.entries = s.escrow.entries)
    (e10 : t.stream.inflight.length ≤ s.stream.inflight.length) : Keeps z t :=
  h.trans ⟨e1, e2, by rw [e3], by
    simp only [State.inv_iff, e4, e5, e6, e7, e8, e9]
    exact fun ⟨a, b, c, d, e, f, g⟩ => ⟨a, b, c, d, e, le_trans e10 f, g⟩⟩

theorem Keeps.ite {z a b : State} {c : Prop} [Decidable c] (h : Keeps z a) (k : Keeps z b) : Keeps z (if c then a else b) := by
  split <;> assumption

theorem Keeps.foldl {α : Type} {z : State} {f : State → α → State} (k : ∀ s x, Keeps z s → Keeps z (f s x)) {s : State}
    (h : Keeps z s) (xs : List α) : Keeps z (xs.foldl f s) := by
  induction xs generalizing s with
  | nil => exact h
  | cons x xs ih => exact ih (k s x h)

theorem Keeps.draw {z s : State} (h : Keeps z s) (n : Nat) : Keeps z { s with free := s.free + n } :=
  h.trans ⟨rfl, rfl, Nat.le_add_right _ _, id⟩

/-- The parts of `Keeps` for an update of the scratchpad that keeps its stores canonical. -/
theorem Keeps.spad {z s : State} (h : Keeps z s) {p : Spad} (wm : Memory.wf s.spad.mem = true → Memory.wf p.mem = true)
    (ws : sparseFrom 0 0 s.spad.synd = true → sparseFrom 0 0 p.synd = true) : Keeps z { s with spad := p } :=
  h.trans ⟨rfl, rfl, le_refl _, by simp only [State.inv_iff]; exact fun ⟨a, b, c⟩ => ⟨wm a, ws b, c⟩⟩

theorem Keeps.stores {z s : State} (h : Keeps z s) {p : Stores} (wt : sparseFrom 0 0 s.st.till = true → sparseFrom 0 0 p.till = true)
    (wr : Memory.wf s.st.rowTab = true → Memory.wf p.rowTab = true) : Keeps z { s with st := p } :=
  h.trans ⟨rfl, rfl, le_refl _, by simp only [State.inv_iff]; exact fun ⟨a, b, c, d, e⟩ => ⟨a, b, wt c, wr d, e⟩⟩

/-- An update of the escrow that keeps its entries few and apart. -/
theorem Keeps.escrow {z s : State} (h : Keeps z s) {e : Escrow}
    (w : s.escrow.entries.length ≤ 48 ∧ entriesApart s.escrow.entries = true →
      e.entries.length ≤ 48 ∧ entriesApart e.entries = true) : Keeps z { s with escrow := e } :=
  h.trans ⟨rfl, rfl, le_refl _, by
    simp only [State.inv_iff]; exact fun ⟨a, b, c, d, e, f, g⟩ => ⟨a, b, c, d, e, f, w g⟩⟩

/-- An update of the stream that leaves at most 32 commands between issue and retirement (R360). -/
theorem Keeps.stream {z s : State} (h : Keeps z s) {p : Stream} (w : s.stream.inflight.length ≤ 32 → p.inflight.length ≤ 32) :
    Keeps z { s with stream := p } :=
  h.trans ⟨rfl, rfl, le_refl _, by
    simp only [State.inv_iff]; exact fun ⟨a, b, c, d, e, f, g⟩ => ⟨a, b, c, d, e, w f, g⟩⟩

theorem State.log_keeps {z s : State} (h : Keeps z s) (code tag : W16) (ctx : Option (BitVec 3)) (d : List Byte) :
    Keeps z (s.log code tag ctx d) :=
  h.trans ⟨rfl, rfl, le_refl _, by
    simp only [State.inv_iff, State.log_spad, State.log_st, State.log_stream, State.log_escrow]
    exact fun ⟨a, b, c, e, _, f⟩ => ⟨a, b, c, e, s.log_length code tag ctx d, f⟩⟩

theorem State.cycleLog_keeps {z t : State} (h : Keeps z t) (s : State) : Keeps z (t.cycleLog s) :=
  h.trans ⟨rfl, rfl, le_refl _, by
    simp only [State.inv_iff, State.cycleLog, Ledger.inOrder_length]
    exact id⟩

/-! ### Escrow entries (R286, R288, R290) -/

theorem entriesApart_iff (es : List Entry) :
    entriesApart es = true ↔ ∀ e ∈ es, ∀ f ∈ es, e.tag = f.tag ∨ e.box.hazard f.box = false := by
  simp [entriesApart]

theorem Box.hazard_comm (a b : Box) : a.hazard b = b.hazard a := by
  simp only [Box.hazard, Box.overlaps, Bool.or_comm a.write, Bool.and_comm (decide (a.lo ≤ b.hi))]

/-- Entries that leave keep the rest apart. -/
theorem entriesApart_filter {es : List Entry} (h : es.length ≤ 48 ∧ entriesApart es = true) (p : Entry → Bool) :
    (es.filter p).length ≤ 48 ∧ entriesApart (es.filter p) = true := by
  refine ⟨le_trans (List.length_filter_le _ _) h.1, ?_⟩
  rw [entriesApart_iff] at h ⊢
  exact fun e he f hf => h.2 e (List.mem_of_mem_filter he) f (List.mem_of_mem_filter hf)

/-- A command whose boxes escrow does not hold enters them apart from every older one's. -/
theorem State.enter_keeps {z s : State} (h : Keeps z s) (tag : W16) (engine : BitVec 3) (bs : List Box)
    (w : s.escrowHolds bs = false) : Keeps z (s.enter tag engine bs) := by
  unfold State.enter State.modEscrow
  refine h.escrow fun ⟨n, a⟩ => ?_
  dsimp only
  simp only [State.escrowHolds, State.blocker, Bool.and_eq_false_iff, Bool.not_eq_false', Bool.or_eq_false_iff,
    decide_eq_false_iff_not, Option.isSome_eq_false_iff, Option.isNone_iff_eq_none, List.find?_eq_none] at w
  rcases w with w | ⟨⟨w, -⟩, k⟩
  · have e : bs = [] := by simpa using w
    subst e; simpa using ⟨n, a⟩
  · refine ⟨by simp; omega, ?_⟩
    rw [entriesApart_iff] at a ⊢
    have old : ∀ e ∈ s.escrow.entries, ∀ b ∈ bs, b.hazard e.box = false := fun e he b hb => by
      have := w e he
      simp only [List.any_eq_true, not_exists, not_and, Bool.not_eq_true] at this
      exact this b hb
    intro e he f hf
    simp only [List.mem_append, List.mem_map] at he hf
    rcases he with he | ⟨b, hb, rfl⟩ <;> rcases hf with hf | ⟨c, hc, rfl⟩
    · exact a e he f hf
    · right; rw [Box.hazard_comm]; exact old e he c hc
    · right; exact old f hf b hb
    · left; rfl

end Sys2Proof.Machine
end

