-- ==== Sys2Proof/Laws/KeepsLanes.lean ====
section
/-! SUPPORT. What the shared operations, rolls, scratchpad words, reads, writes and beats keep: one lemma per operation. -/
namespace Sys2Proof.Machine
open Sys2Proof

/-! ### Ops -/

theorem State.modProv_keeps {z s : State} (h : Keeps z s) (f : Proving → Proving) : Keeps z (s.modProv f) :=
  h.frame rfl rfl rfl rfl rfl rfl rfl rfl rfl (le_refl _)

theorem State.modFt_keeps {z s : State} (h : Keeps z s) (f : Faults → Faults) : Keeps z (s.modFt f) :=
  h.frame rfl rfl rfl rfl rfl rfl rfl rfl rfl (le_refl _)

theorem State.bump_keeps {z s : State} (h : Keeps z s) (i k : Nat) : Keeps z (s.bump i k) :=
  h.frame rfl rfl rfl rfl rfl rfl rfl rfl rfl (le_refl _)

theorem State.modEscrow_keeps {z s : State} (h : Keeps z s) (f : Escrow → Escrow)
    (hf : (f s.escrow).entries = s.escrow.entries) : Keeps z (s.modEscrow f) :=
  h.frame rfl rfl rfl rfl rfl rfl rfl rfl hf (le_refl _)

theorem State.modStream_keeps {z s : State} (h : Keeps z s) (f : Stream → Stream)
    (hf : (f s.stream).inflight.length ≤ s.stream.inflight.length) : Keeps z (s.modStream f) :=
  h.frame rfl rfl rfl rfl rfl rfl rfl rfl rfl hf

@[simp] theorem length_updateFirst {α : Type} (p : α → Bool) (f : α → α) (xs : List α) :
    (updateFirst p f xs).length = xs.length := by
  induction xs with
  | nil => rfl
  | cons x xs ih => simp only [updateFirst]; split <;> simp [ih]

theorem State.logLimited_keeps {z s : State} (h : Keeps z s) (src : LimitSource) (code tag : W16) (ctx : Option (BitVec 3))
    (d : W32 → List Byte) : Keeps z (s.logLimited src code tag ctx d) := by
  have e : (s.ledger.limit src s.gc).2.2.entries = s.ledger.entries := rfl
  have k : Keeps z { s with ledger := (s.ledger.limit src s.gc).2.2 } := h.frame rfl rfl rfl rfl rfl rfl rfl e rfl (le_refl _)
  unfold State.logLimited
  dsimp only
  split
  · exact State.log_keeps k _ _ _ _
  · exact k

theorem State.modInflight_keeps {z s : State} (h : Keeps z s) (t : W16) (f : Inflight → Inflight) :
    Keeps z (s.modInflight t f) :=
  State.modStream_keeps h _ (le_of_eq (length_updateFirst _ _ _))

theorem State.modSt_keeps {z s : State} (h : Keeps z s) (f : Stores → Stores)
    (wt : ∀ p : Stores, sparseFrom 0 0 p.till = true → sparseFrom 0 0 (f p).till = true)
    (wr : ∀ p : Stores, Memory.wf p.rowTab = true → Memory.wf (f p).rowTab = true) : Keeps z (s.modSt f) :=
  h.stores (wt _) (wr _)

theorem State.modMg_keeps {z s : State} (h : Keeps z s) (f : Mgmt → Mgmt) : Keeps z (s.modMg f) :=
  h.frame rfl rfl rfl rfl rfl rfl rfl rfl rfl (le_refl _)

theorem State.modPw_keeps {z s : State} (h : Keeps z s) (f : Power → Power) : Keeps z (s.modPw f) :=
  h.frame rfl rfl rfl rfl rfl rfl rfl rfl rfl (le_refl _)

theorem State.modHealth_keeps {z s : State} (h : Keeps z s) (f : SpadHealth → SpadHealth) : Keeps z (s.modHealth f) :=
  h.frame rfl rfl rfl rfl rfl rfl rfl rfl rfl (le_refl _)

theorem State.modTb_keeps {z s : State} (h : Keeps z s) (f : TimeBase → TimeBase) : Keeps z (s.modTb f) :=
  h.frame rfl rfl rfl rfl rfl rfl rfl rfl rfl (le_refl _)

theorem State.modRcpt_keeps {z s : State} (h : Keeps z s) (f : Receipts → Receipts) : Keeps z (s.modRcpt f) :=
  h.frame rfl rfl rfl rfl rfl rfl rfl rfl rfl (le_refl _)

theorem State.note_keeps {z s : State} (h : Keeps z s) (f : Summary → Summary) : Keeps z (s.note f) :=
  h.frame rfl rfl rfl rfl rfl rfl rfl rfl rfl (le_refl _)

theorem State.modSpad_keeps {z s : State} (h : Keeps z s) (f : Spad → Spad)
    (wm : ∀ p : Spad, Memory.wf p.mem = true → Memory.wf (f p).mem = true)
    (ws : ∀ p : Spad, sparseFrom 0 0 p.synd = true → sparseFrom 0 0 (f p).synd = true) : Keeps z (s.modSpad f) :=
  h.spad (wm _) (ws _)

theorem State.modTn_keeps {z s : State} (h : Keeps z s) (f : Tenants → Tenants) : Keeps z (s.modTn f) :=
  h.frame rfl rfl rfl rfl rfl rfl rfl rfl rfl (le_refl _)

theorem State.setLink_keeps {z s : State} (h : Keeps z s) (c : Scope) (l : Link) : Keeps z (s.setLink c l) := by
  cases c <;> exact h.frame rfl rfl rfl rfl rfl rfl rfl rfl rfl (le_refl _)

theorem State.modLink_keeps {z s : State} (h : Keeps z s) (c : Scope) (f : Link → Link) : Keeps z (s.modLink c f) :=
  State.setLink_keeps h c _

theorem State.noteEpoch_keeps {z s : State} (h : Keeps z s) (e : W16) (f : Summary → Summary) : Keeps z (s.noteEpoch e f) := by
  unfold State.noteEpoch
  split <;> exact h.frame rfl rfl rfl rfl rfl rfl rfl rfl rfl (le_refl _)

theorem State.modOut_keeps {z s : State} (h : Keeps z s) (f : Outputs → Outputs) : Keeps z (s.modOut f) :=
  h.frame rfl rfl rfl rfl rfl rfl rfl rfl rfl (le_refl _)

/-! ### Scratch -/

theorem Spad.fixWord_mem {p : Spad} (w : Nat) (h : Memory.wf p.mem = true) : Memory.wf (p.fixWord w).mem = true := by
  unfold Spad.fixWord
  split
  · exact Memory.wf_write _ _ h
  · exact h
  · exact h

theorem Spad.fixWord_synd {p : Spad} (w : Nat) (h : sparseFrom 0 0 p.synd = true) :
    sparseFrom 0 0 (p.fixWord w).synd = true := by
  unfold Spad.fixWord
  split
  · exact sparseFrom_set _ _ (Nat.zero_le _) h
  · exact sparseFrom_set _ _ (Nat.zero_le _) h
  · exact h

/-- Masked writes keep the canonical form. -/
theorem mergeBytes_wf {m : List Host.Cell} (ws : List (Nat × Byte × Byte)) (h : Memory.wf m = true) :
    Memory.wf (mergeBytes m ws) = true := by
  induction ws generalizing m with
  | nil => exact h
  | cons c r ih => exact ih (Memory.wf_write _ _ h)

theorem sparseFrom_foldl {β : Type} [DecidableEq β] {d : β} (v : β) (ws : List Nat) (m : List (Nat × β))
    (h : sparseFrom d 0 m = true) : sparseFrom d 0 (ws.foldl (fun m w => sparseSet d m w v) m) = true := by
  induction ws generalizing m with
  | nil => exact h
  | cons w ws ih => exact ih _ (sparseFrom_set _ _ (Nat.zero_le _) h)

theorem State.lastError_keeps {z s : State} (h : Keeps z s) (w : Nat) (syn : Byte) :
    Keeps z (State.lastError s w syn) := by
  unfold State.lastError
  try dsimp only
  iterate 3 all_goals try first
    | with_reducible exact h
    | with_reducible apply State.modHealth_keeps

theorem State.uncorrectable_keeps {z s : State} (h : Keeps z s) (w : Nat) (syn : Byte) (poisonNow : Bool) :
    Keeps z (State.uncorrectable s w syn poisonNow) := by
  unfold State.uncorrectable
  try dsimp only
  iterate 6 all_goals try first
    | with_reducible exact h
    | with_reducible apply State.modHealth_keeps
    | with_reducible apply State.lastError_keeps
    | with_reducible apply State.modSpad_keeps
    | with_reducible apply Keeps.ite
    | exact fun _ w => w
    | exact fun _ w => Memory.wf_write _ _ w

theorem State.corrected_keeps {z s : State} (h : Keeps z s) (tag : W16) (ctx : Option (BitVec 3)) (w : Nat) (syn : Byte) :
    Keeps z (State.corrected s tag ctx w syn) := by
  unfold State.corrected
  try dsimp only
  iterate 6 all_goals try first
    | with_reducible exact h
    | with_reducible apply State.modHealth_keeps
    | with_reducible apply State.note_keeps
    | with_reducible apply State.lastError_keeps
    | with_reducible apply State.logLimited_keeps

theorem State.logEccue_keeps {z s : State} (h : Keeps z s) (tag : W16) (ctx : Option (BitVec 3)) (detail : List Byte) :
    Keeps z (State.logEccue s tag ctx detail) := by
  unfold State.logEccue
  try dsimp only
  iterate 12 all_goals try first
    | with_reducible exact h
    | with_reducible apply State.note_keeps
    | with_reducible apply State.log_keeps

theorem State.prepareWord_keeps {z s : State} (h : Keeps z s) (port : Nat) (tag : W16) (ctx : Option (BitVec 3)) (ws : List (Nat × Byte × Byte)) (w : Nat) :
    Keeps z (State.prepareWord s port tag ctx ws w) := by
  unfold State.prepareWord
  try dsimp only
  iterate 12 all_goals try first
    | with_reducible exact h
    | with_reducible apply State.modSpad_keeps
    | with_reducible apply State.logEccue_keeps
    | with_reducible apply State.uncorrectable_keeps
    | with_reducible apply State.corrected_keeps
    | with_reducible apply Keeps.ite
    | exact fun _ w => w
    | exact fun _ w => Memory.wf_write _ _ w
    | exact fun _ w => Memory.wf_writeN _ _ w
    | exact fun _ w => sparseFrom_set _ _ (Nat.zero_le _) w
    | exact fun _ w => Spad.fixWord_mem _ w
    | exact fun _ w => Spad.fixWord_synd _ w
    | exact fun _ w => mergeBytes_wf _ w
    | exact fun _ _ => rfl
    | exact fun _ _ => sparseFrom_foldl _ _ _ rfl
    | exact fun _ w => till_foldl _ w
    | split

theorem State.prepareWords_keeps {z s : State} (h : Keeps z s) (port : Nat) (tag : W16) (ctx : Option (BitVec 3)) (ws : List (Nat × Byte × Byte)) (x5 : List Nat) :
    Keeps z (State.prepareWords s port tag ctx ws x5) := by
  induction x5 generalizing s port tag ctx ws with
  | nil =>
    unfold State.prepareWords
    try dsimp only
    iterate 6 all_goals try first
      | with_reducible exact h
  | cons a r ih =>
    unfold State.prepareWords
    try dsimp only
    iterate 6 all_goals try first
      | with_reducible exact h
      | with_reducible apply ih
      | with_reducible apply State.prepareWord_keeps
      | with_reducible apply Keeps.ite

theorem Spad.written_synd (p : Spad) (ws : List Nat) : (if p.wb.isEmpty then p else p.cancelWb ws).synd = p.synd := by
  split <;> rfl

theorem State.writeBytes_keeps {z s : State} (h : Keeps z s) (port : Nat) (tag : W16) (ctx : Option (BitVec 3)) (ws : List (Nat × Byte × Byte)) :
    Keeps z (State.writeBytes s port tag ctx ws) := by
  unfold State.writeBytes
  refine State.modSpad_keeps (Keeps.ite h (State.prepareWords_keeps h _ _ _ _ _)) _ (fun _ w => mergeBytes_wf _ w) fun p w => ?_
  dsimp only
  rw [Spad.written_synd]; exact w

theorem State.queueWb_keeps {z s : State} (h : Keeps z s) (w : Nat) (syn : Byte) :
    Keeps z (State.queueWb s w syn) := by
  unfold State.queueWb
  try dsimp only
  iterate 3 all_goals try first
    | with_reducible exact h
    | with_reducible apply State.modSpad_keeps
    | with_reducible apply Keeps.ite
    | exact fun _ w => w
    | (intro _ w; split <;> exact w)

theorem State.scrubWord_keeps {z s : State} (h : Keeps z s) (w : Nat) :
    Keeps z (State.scrubWord s w) := by
  unfold State.scrubWord
  try dsimp only
  iterate 12 all_goals try first
    | with_reducible exact h
    | with_reducible apply State.logEccue_keeps
    | with_reducible apply State.uncorrectable_keeps
    | with_reducible apply State.queueWb_keeps
    | with_reducible apply State.corrected_keeps
    | with_reducible apply Keeps.ite
    | exact fun _ w => w
    | exact fun _ w => Memory.wf_write _ _ w
    | exact fun _ w => Memory.wf_writeN _ _ w
    | exact fun _ w => sparseFrom_set _ _ (Nat.zero_le _) w
    | exact fun _ w => Spad.fixWord_mem _ w
    | exact fun _ w => Spad.fixWord_synd _ w
    | exact fun _ w => mergeBytes_wf _ w
    | exact fun _ _ => rfl
    | exact fun _ _ => sparseFrom_foldl _ _ _ rfl
    | exact fun _ w => till_foldl _ w
    | split

theorem State.scrubWords_keeps {z s : State} (h : Keeps z s) (x1 : List Nat) :
    Keeps z (State.scrubWords s x1) := by
  induction x1 generalizing s  with
  | nil =>
    unfold State.scrubWords
    try dsimp only
    iterate 3 all_goals try first
      | with_reducible exact h
  | cons a r ih =>
    unfold State.scrubWords
    try dsimp only
    iterate 3 all_goals try first
      | with_reducible exact h
      | with_reducible apply ih
      | with_reducible apply State.scrubWord_keeps

theorem State.clearScratchpad_keeps {z s : State} (h : Keeps z s) (failed : List Nat) :
    Keeps z (State.clearScratchpad s failed) := by
  unfold State.clearScratchpad
  exact State.modSpad_keeps h _ (fun _ _ => rfl) fun _ _ => sparseFrom_foldl _ _ _ rfl

theorem State.checkWord_keeps {z s : State} (h : Keeps z s) (tag : W16) (ctx : Option (BitVec 3)) (w : Nat) :
    Keeps z (State.checkWord s tag ctx w).1 := by
  unfold State.checkWord
  try dsimp only
  iterate 6 all_goals try first
    | with_reducible exact h
    | with_reducible apply State.uncorrectable_keeps
    | with_reducible apply State.queueWb_keeps
    | with_reducible apply State.corrected_keeps
    | with_reducible apply Keeps.ite
    | split

theorem State.checkWords_keeps {z s : State} (h : Keeps z s) (tag : W16) (ctx : Option (BitVec 3)) (x3 : List Nat) :
    Keeps z (State.checkWords s tag ctx x3).1 := by
  induction x3 generalizing s tag ctx with
  | nil =>
    unfold State.checkWords
    try dsimp only
    iterate 6 all_goals try first
      | with_reducible exact h
  | cons a r ih =>
    unfold State.checkWords
    try dsimp only
    iterate 6 all_goals try first
      | with_reducible exact h
      | with_reducible apply ih
      | with_reducible apply State.checkWord_keeps
      | with_reducible apply Keeps.ite
      | split

theorem State.advanceScrub_keeps {z s : State} (h : Keeps z s) (bank : Nat) :
    Keeps z (State.advanceScrub s bank) := by
  unfold State.advanceScrub
  try dsimp only
  iterate 12 all_goals try first
    | with_reducible exact h
    | with_reducible apply State.modHealth_keeps
    | with_reducible apply State.modSpad_keeps
    | with_reducible apply Keeps.ite
    | exact fun _ w => w

theorem State.advanceScrubs_keeps {z s : State} (h : Keeps z s) (x1 : List Nat) :
    Keeps z (State.advanceScrubs s x1) := by
  induction x1 generalizing s  with
  | nil =>
    unfold State.advanceScrubs
    try dsimp only
    iterate 12 all_goals try first
      | with_reducible exact h
  | cons a r ih =>
    unfold State.advanceScrubs
    try dsimp only
    iterate 12 all_goals try first
      | with_reducible exact h
      | with_reducible apply ih
      | with_reducible apply State.advanceScrub_keeps

theorem State.scrubBanks_keeps {z s : State} (h : Keeps z s) (banks : List Nat) : Keeps z (State.scrubBanks s banks) :=
  State.advanceScrubs_keeps (State.scrubWords_keeps h _) _

theorem State.settleCode_keeps {z s : State} (h : Keeps z s) (n key : Nat) (x : Syndrome) : Keeps z (State.settleCode s n key x) := by
  unfold State.settleCode
  refine State.modSt_keeps h _ (fun p w => ?_) fun p w => ?_ <;> dsimp only <;> split_ifs <;> dsimp only <;> (try exact w) <;>
    (split <;> first | exact w | exact sparseFrom_set _ _ (Nat.zero_le _) w | exact Memory.wf_write _ _ w)

theorem State.codeEvent_keeps {z s : State} (h : Keeps z s) (n : Nat) (addr : Nat) (tag : W16) (ctx : Option (BitVec 3)) (syn : Byte) (x : Syndrome) :
    Keeps z (State.codeEvent s n addr tag ctx syn x) := by
  unfold State.codeEvent
  try dsimp only
  iterate 12 all_goals try first
    | with_reducible exact h
    | with_reducible apply State.logLimited_keeps
    | with_reducible apply State.note_keeps
    | with_reducible apply State.modFt_keeps
    | with_reducible apply Keeps.ite

theorem State.readCodes_keeps {z s : State} (h : Keeps z s) (n : Nat) (tag : W16) (ctx : Option (BitVec 3)) (places : List Nat) (x5 : List (Nat × Byte)) :
    Keeps z (State.readCodes s n tag ctx places x5) := by
  induction x5 generalizing s n tag ctx places with
  | nil =>
    unfold State.readCodes
    try dsimp only
    iterate 12 all_goals try first
      | with_reducible exact h
  | cons a r ih =>
    unfold State.readCodes
    try dsimp only
    iterate 12 all_goals try first
      | with_reducible exact h
      | with_reducible apply ih
      | with_reducible apply State.codeEvent_keeps
      | with_reducible apply State.settleCode_keeps
      | with_reducible apply Keeps.ite

theorem State.readStructure_keeps {z s : State} (h : Keeps z s) (n : Nat) (tag : W16) (ctx : Option (BitVec 3)) (places : List Nat) :
    Keeps z (State.readStructure s n tag ctx places) := by
  unfold State.readStructure
  try dsimp only
  iterate 12 all_goals try first
    | with_reducible exact h
    | with_reducible apply State.readCodes_keeps
    | with_reducible apply Keeps.ite

theorem State.dropSteals_keeps {z s : State} (h : Keeps z s)  :
    Keeps z (State.dropSteals s) := by
  unfold State.dropSteals
  try dsimp only
  iterate 12 all_goals try first
    | with_reducible exact h
    | with_reducible apply State.modSpad_keeps
    | with_reducible apply Keeps.ite
    | exact fun _ w => w

theorem State.noteLongest_keeps {z s : State} (h : Keeps z s)  :
    Keeps z (State.noteLongest s) := by
  unfold State.noteLongest
  try dsimp only
  iterate 12 all_goals try first
    | with_reducible exact h
    | with_reducible apply State.modHealth_keeps

/-! ### Rolls -/

theorem State.modRoll_keeps {z s : State} (h : Keeps z s) (i : Nat) (f : Roll → Roll) : Keeps z (s.modRoll i f) :=
  h.frame rfl rfl rfl rfl rfl rfl rfl rfl rfl (le_refl _)

theorem State.settleTail_keeps {z s : State} (h : Keeps z s) (i : Nat) :
    Keeps z (State.settleTail s i) := by
  unfold State.settleTail
  try dsimp only
  iterate 12 all_goals try first
    | with_reducible exact h
    | with_reducible apply State.modRoll_keeps

theorem State.dropClaims_keeps {z s : State} (h : Keeps z s) (tag : W16) :
    Keeps z (State.dropClaims s tag) := by
  unfold State.dropClaims
  try dsimp only
  iterate 12 all_goals try first
    | with_reducible exact h
    | with_reducible apply State.modStream_keeps
    | with_reducible apply State.settleTail_keeps
    | exact le_refl _
    | with_reducible apply Keeps.ite
    | (with_reducible refine Keeps.foldl ?_ ?_ _; intro _ _ h)

theorem State.claim_keeps {z s : State} (h : Keeps z s) (tag : W16) (roll : Nat) (produce : Bool) (n : Nat) :
    Keeps z (State.claim s tag roll produce n) := by
  unfold State.claim
  try dsimp only
  iterate 3 all_goals try first
    | with_reducible exact h
    | with_reducible apply State.modRoll_keeps
    | with_reducible apply State.modStream_keeps
    | exact le_refl _

theorem State.modClaim_keeps {z s : State} (h : Keeps z s) (c : Claim) (f : Claim → Claim) :
    Keeps z (State.modClaim s c f) := by
  unfold State.modClaim
  try dsimp only
  iterate 3 all_goals try first
    | with_reducible exact h
    | with_reducible apply State.modStream_keeps
    | exact le_refl _

theorem State.dropSlot_keeps {z s t : State} (h : Keeps z s) {i : Nat} (e : s.dropSlot i = some t) : Keeps z t := by
  unfold State.dropSlot at e
  dsimp only at e
  split at e
  · cases e
  · cases e
    exact State.logLimited_keeps (State.modRoll_keeps h _ _) _ _ _ _ _

theorem State.publish_keeps {z s : State} (h : Keeps z s) (i : Nat) :
    Keeps z (State.publish s i) := by
  unfold State.publish
  try dsimp only
  iterate 6 all_goals try first
    | with_reducible exact h
    | with_reducible apply State.modRoll_keeps
    | with_reducible apply State.modStream_keeps
    | exact le_refl _
    | with_reducible apply Keeps.ite

theorem State.moveSlot_keeps {z s : State} (h : Keeps z s) (i : Nat) (seq : W32) (p : Nat) :
    Keeps z (State.moveSlot s i seq p) := by
  unfold State.moveSlot
  try dsimp only
  iterate 12 all_goals try first
    | with_reducible exact h
    | with_reducible apply State.modRoll_keeps

theorem State.acquire_keeps {z s t : State} (h : Keeps z s) {c : Claim} (e : s.acquire c = some t) : Keeps z t := by
  unfold State.acquire at e
  dsimp only at e
  split at e
  · cases e
  split at e
  · split at e <;> cases e
    exact State.modClaim_keeps h _ _
  split at e
  · split at e <;> cases e
    exact State.modClaim_keeps h _ _
  split at e
  · cases e
    exact State.modClaim_keeps (State.moveSlot_keeps h _ _ _) _ _
  · obtain ⟨u, hu, k⟩ := Option.bind_eq_some_iff.mp e
    obtain ⟨p, -, rfl⟩ := Option.map_eq_some_iff.mp k
    exact State.modClaim_keeps (State.moveSlot_keeps (State.dropSlot_keeps h hu) _ _ _) _ _

theorem State.complete_keeps {z s : State} (h : Keeps z s) (c : Claim) (k : Nat) :
    Keeps z (State.complete s c k) := by
  unfold State.complete
  try dsimp only
  iterate 6 all_goals try first
    | with_reducible exact h
    | with_reducible apply State.publish_keeps
    | with_reducible apply State.modClaim_keeps
    | with_reducible apply Keeps.ite

theorem State.setRoll_keeps {z s : State} (h : Keeps z s) (i : Nat) (r : Roll) :
    Keeps z (State.setRoll s i r) := by
  unfold State.setRoll
  try dsimp only
  iterate 12 all_goals try first
    | with_reducible exact h
    | with_reducible apply State.modStream_keeps
    | with_reducible apply State.modRoll_keeps
    | exact le_refl _

/-! ### Fetch -/

theorem State.acquireUpTo_keeps {z s : State} (h : Keeps z s) (c : Claim) (n : Nat) (x3 : Nat) :
    Keeps z (State.acquireUpTo s c n x3).1 := by
  induction x3 generalizing s c n with
  | zero =>
    unfold State.acquireUpTo
    try dsimp only
    iterate 6 all_goals try first
      | with_reducible exact h
  | succ n ih =>
    unfold State.acquireUpTo
    try dsimp only
    iterate 6 all_goals try first
      | with_reducible exact h
      | with_reducible apply ih
      | refine State.acquire_keeps ?_ (by assumption)
      | with_reducible apply State.modClaim_keeps
      | with_reducible apply Keeps.ite
      | split

theorem State.setLines_keeps {z s : State} (h : Keeps z s) (line : Nat) (bs : List Byte) :
    Keeps z (State.setLines s line bs) := by
  unfold State.setLines
  try dsimp only
  iterate 3 all_goals try first
    | with_reducible exact h
    | with_reducible apply State.modSt_keeps
    | with_reducible apply Keeps.ite
    | exact fun _ w => w
    | exact fun _ w => Memory.wf_write _ _ w
    | exact fun _ w => Memory.wf_writeN _ _ w

theorem State.storeRow_keeps {z s : State} (h : Keeps z s) (line : Nat) (r : RowSt) :
    Keeps z (State.storeRow s line r) := by
  unfold State.storeRow
  try dsimp only
  iterate 3 all_goals try first
    | with_reducible exact h
    | with_reducible apply State.setLines_keeps

theorem State.acquireAll_keeps {z s : State} (h : Keeps z s) (x1 : List (Claim × Nat)) :
    Keeps z (State.acquireAll s x1).1 := by
  induction x1 generalizing s  with
  | nil =>
    unfold State.acquireAll
    try dsimp only
    iterate 6 all_goals try first
      | with_reducible exact h
  | cons a r ih =>
    unfold State.acquireAll
    try dsimp only
    iterate 6 all_goals try first
      | with_reducible exact h
      | with_reducible apply ih
      | with_reducible apply State.acquireUpTo_keeps
      | with_reducible apply Keeps.ite
      | split

/-! ### Flow -/

theorem till_foldl {m : List (Nat × W32)} (ws : List Wr) (h : sparseFrom 0 0 m = true) :
    sparseFrom 0 0 (ws.foldl (fun t w => match w with | .till e l v => sparseSet 0 t (256 * e + l) v | _ => t) m) = true := by
  induction ws generalizing m with
  | nil => exact h
  | cons w ws ih =>
    refine ih ?_
    dsimp only
    split
    · exact sparseFrom_set _ _ (Nat.zero_le _) h
    · exact h

theorem State.doWrites_keeps {z s : State} (h : Keeps z s) (tag : W16) (ws : List Wr) :
    Keeps z (State.doWrites s tag ws) := by
  unfold State.doWrites
  try dsimp only
  iterate 3 all_goals try first
    | with_reducible exact h
    | with_reducible apply State.writeBytes_keeps
    | with_reducible apply State.modSt_keeps
    | with_reducible apply Keeps.ite
    | exact fun _ w => w
    | exact fun _ w => Memory.wf_write _ _ w
    | exact fun _ w => Memory.wf_writeN _ _ w
    | exact fun _ w => sparseFrom_set _ _ (Nat.zero_le _) w
    | exact fun _ w => Spad.fixWord_mem _ w
    | exact fun _ w => Spad.fixWord_synd _ w
    | exact fun _ w => mergeBytes_wf _ w
    | exact fun _ _ => rfl
    | exact fun _ _ => sparseFrom_foldl _ _ _ rfl
    | exact fun _ w => till_foldl _ w

/-! ### Beats -/

theorem State.dropAcc_keeps {z s : State} (h : Keeps z s) (tag : W16) :
    Keeps z (State.dropAcc s tag) := by
  unfold State.dropAcc
  try dsimp only
  iterate 12 all_goals try first
    | with_reducible exact h
    | with_reducible apply State.modStream_keeps
    | exact le_refl _
    | with_reducible apply Keeps.ite

theorem Keeps.boot {z s : State} (h : Keeps z s) (b : Boot) : Keeps z { s with boot := b } :=
  h.frame rfl rfl rfl rfl rfl rfl rfl rfl rfl (le_refl _)

theorem BeatAcc.run_st (a : BeatAcc) (x : Flow) (r : Option RowSt) (o : OutRun) (pos : Nat) : (a.run x r o pos).1.st = a.st :=
  rfl

theorem BeatAcc.runs_st (a : BeatAcc) (x : Flow) (r : Option RowSt) (pos : Nat) (os : List OutRun) :
    (a.runs x r pos os).1.st = a.st := by
  induction os generalizing a r with
  | nil => rfl
  | cons o os ih => exact ih _ _

theorem BeatAcc.packRow_st (a : BeatAcc) (x : Flow) (row : Nat) (keeps : List Bool) : (a.packRow x row keeps).st = a.st := rfl

theorem BeatAcc.segment_keeps {z : State} {a : BeatAcc} (h : Keeps z a.st) (x : Flow) (b : Beat) (sg : Seg) :
    Keeps z (a.segment x b sg).st := by
  unfold BeatAcc.segment
  extract_lets m es first i r o stage c0 c a1 t a3
  have e : Keeps z t.1.st := by
    have : t.1.st = (a.st.bump 14 o.precise).bump 16 o.added := BeatAcc.runs_st _ _ _ _ _
    rw [this]; exact State.bump_keeps (State.bump_keeps h _ _) _ _
  have k : Keeps z a3.st := by
    simp only [a3]
    split
    · exact State.storeRow_keeps e _ _
    · exact e
  split
  · rw [BeatAcc.packRow_st]; exact k
  · exact k

theorem BeatAcc.segments_keeps {z : State} {a : BeatAcc} (h : Keeps z a.st) (x : Flow) (b : Beat) (sgs : List Seg) :
    Keeps z (a.segments x b sgs).st := by
  induction sgs generalizing a with
  | nil => exact h
  | cons sg sgs ih => exact ih (BeatAcc.segment_keeps h x b sg)

theorem BeatAcc.mergeBeat_keeps {z : State} {a : BeatAcc} (h : Keeps z a.st) (m : Cmd) (row : Nat) :
    Keeps z (a.mergeBeat m row).st := by
  unfold BeatAcc.mergeBeat
  dsimp only
  split
  · exact h
  · exact State.bump_keeps h _ _

theorem State.failAfter_keeps {z s : State} (h : Keeps z s) (c : Inflight) (code : W16) (detail : List Byte) :
    Keeps z (State.failAfter s c code detail) := by
  unfold State.failAfter
  try dsimp only
  iterate 12 all_goals try first
    | with_reducible exact h
    | with_reducible apply State.modInflight_keeps
    | with_reducible apply State.dropAcc_keeps
    | with_reducible apply State.log_keeps

theorem State.readOrFail_keeps {z s : State} (h : Keeps z s) (c : Inflight) (ws : List Nat) :
    Keeps z (State.readOrFail s c ws).1 := by
  unfold State.readOrFail
  try dsimp only
  iterate 12 all_goals try first
    | with_reducible exact h
    | with_reducible apply State.checkWords_keeps
    | with_reducible apply State.failAfter_keeps
    | with_reducible apply Keeps.ite
    | exact fun _ w => w
    | exact fun _ w => Memory.wf_write _ _ w
    | exact fun _ w => Memory.wf_writeN _ _ w
    | exact fun _ w => sparseFrom_set _ _ (Nat.zero_le _) w
    | exact fun _ w => Spad.fixWord_mem _ w
    | exact fun _ w => Spad.fixWord_synd _ w
    | exact fun _ w => mergeBytes_wf _ w
    | exact fun _ _ => rfl
    | exact fun _ _ => sparseFrom_foldl _ _ _ rfl
    | exact fun _ w => till_foldl _ w
    | split

theorem State.readStores_keeps {z s : State} (h : Keeps z s) (c : Inflight) (m : Cmd) (es : List Nat) (ls : List Nat) :
    Keeps z (State.readStores s c m es ls).1 := by
  unfold State.readStores
  try dsimp only
  iterate 12 all_goals try first
    | with_reducible exact h
    | with_reducible apply State.readStructure_keeps

theorem State.readInputs_keeps {z s : State} (h : Keeps z s) (c : Inflight) (m : Cmd) (ws : List Nat) (es : List Nat) (ls : List Nat) :
    Keeps z (State.readInputs s c m ws es ls).1 := by
  unfold State.readInputs
  try dsimp only
  iterate 12 all_goals try first
    | with_reducible exact h
    | with_reducible apply State.readOrFail_keeps
    | with_reducible apply State.readStores_keeps
    | with_reducible apply State.failAfter_keeps
    | with_reducible apply Keeps.ite
    | exact fun _ w => w
    | exact fun _ w => Memory.wf_write _ _ w
    | exact fun _ w => Memory.wf_writeN _ _ w
    | exact fun _ w => sparseFrom_set _ _ (Nat.zero_le _) w
    | exact fun _ w => Spad.fixWord_mem _ w
    | exact fun _ w => Spad.fixWord_synd _ w
    | exact fun _ w => mergeBytes_wf _ w
    | exact fun _ _ => rfl
    | exact fun _ _ => sparseFrom_foldl _ _ _ rfl
    | exact fun _ w => till_foldl _ w
    | split

theorem State.emptyRow_keeps {z s : State} (h : Keeps z s) (c : Inflight) (m : Cmd) (r : Nat) :
    Keeps z (State.emptyRow s c m r) := by
  unfold State.emptyRow
  try dsimp only
  iterate 12 all_goals try first
    | with_reducible exact h
    | with_reducible apply State.readInputs_keeps
    | with_reducible apply State.failAfter_keeps
    | with_reducible apply State.storeRow_keeps
    | with_reducible apply State.modInflight_keeps
    | with_reducible apply Keeps.ite

theorem State.failBank_keeps {z s : State} (h : Keeps z s) (c : Inflight) (k : Conflict) :
    Keeps z (State.failBank s c k) := by
  unfold State.failBank
  try dsimp only
  iterate 12 all_goals try first
    | with_reducible exact h
    | with_reducible apply State.modHealth_keeps
    | with_reducible apply State.modInflight_keeps
    | with_reducible apply State.failAfter_keeps

theorem State.readBeat_keeps {z s : State} (h : Keeps z s) (c : Inflight) (m : Cmd) (g : Geo) (b : Nat) :
    Keeps z (State.readBeat s c m g b) := by
  unfold State.readBeat
  try dsimp only
  iterate 26 all_goals try first
    | with_reducible exact h
    | with_reducible apply State.readInputs_keeps
    | with_reducible apply State.failAfter_keeps
    | with_reducible apply State.bump_keeps
    | with_reducible apply State.modStream_keeps
    | with_reducible apply State.modInflight_keeps
    | with_reducible apply State.modHealth_keeps
    | exact le_refl _
    | with_reducible apply Keeps.ite
    | exact fun _ w => w
    | exact fun _ w => Memory.wf_write _ _ w
    | exact fun _ w => Memory.wf_writeN _ _ w
    | exact fun _ w => sparseFrom_set _ _ (Nat.zero_le _) w
    | exact fun _ w => Spad.fixWord_mem _ w
    | exact fun _ w => Spad.fixWord_synd _ w
    | exact fun _ w => mergeBytes_wf _ w
    | exact fun _ _ => rfl
    | exact fun _ _ => sparseFrom_foldl _ _ _ rfl
    | exact fun _ w => till_foldl _ w
    | split

theorem State.beatReadStart.go_keeps {z s : State} (h : Keeps z s) (c : Inflight) (m : Cmd) (g : Geo) (b : Nat) :
    Keeps z (State.beatReadStart.go s c m g b) := by
  unfold State.beatReadStart.go
  try dsimp only
  iterate 6 all_goals try first
    | with_reducible exact h
    | with_reducible apply State.acquireAll_keeps
    | with_reducible apply State.readBeat_keeps
    | with_reducible apply Keeps.ite

theorem State.beatReadStart_keeps {z s : State} (h : Keeps z s) :
    Keeps z (State.beatReadStart s) := by
  unfold State.beatReadStart
  try dsimp only
  iterate 6 all_goals try first
    | with_reducible exact h
    | with_reducible apply State.failBank_keeps
    | with_reducible apply State.beatReadStart.go_keeps
    | with_reducible apply Keeps.ite
    | split

theorem State.rollProgress_keeps {z s : State} (h : Keeps z s) (tag : W16) :
    Keeps z (State.rollProgress s tag) := by
  unfold State.rollProgress
  try dsimp only
  iterate 6 all_goals try first
    | with_reducible exact h
    | with_reducible exact Keeps.draw h 1
    | with_reducible apply BeatAcc.segments_keeps
    | with_reducible apply BeatAcc.mergeBeat_keeps
    | with_reducible apply State.complete_keeps
    | with_reducible apply Keeps.ite
    | (with_reducible refine Keeps.foldl ?_ ?_ _; intro _ _ h)
    | exact fun _ w => w
    | split

theorem State.commitBeat_keeps {z s : State} (h : Keeps z s) (tag : W16) (ws : List Wr) :
    Keeps z (State.commitBeat s tag ws) := by
  unfold State.commitBeat
  try dsimp only
  iterate 12 all_goals try first
    | with_reducible exact h
    | with_reducible apply State.rollProgress_keeps
    | with_reducible apply State.doWrites_keeps
    | with_reducible apply State.modInflight_keeps
    | with_reducible apply Keeps.ite
    | exact fun _ w => w
    | exact fun _ w => Memory.wf_write _ _ w
    | exact fun _ w => Memory.wf_writeN _ _ w
    | exact fun _ w => sparseFrom_set _ _ (Nat.zero_le _) w
    | exact fun _ w => Spad.fixWord_mem _ w
    | exact fun _ w => Spad.fixWord_synd _ w
    | exact fun _ w => mergeBytes_wf _ w
    | exact fun _ _ => rfl
    | exact fun _ _ => sparseFrom_foldl _ _ _ rfl
    | exact fun _ w => till_foldl _ w
    | split

theorem State.finishRow_keeps {z s : State} (h : Keeps z s) (c : Inflight) (m : Cmd) :
    Keeps z (State.finishRow s c m) := by
  unfold State.finishRow
  try dsimp only
  iterate 6 all_goals try first
    | with_reducible exact h
    | with_reducible exact Keeps.draw h 1
    | with_reducible apply BeatAcc.segments_keeps
    | with_reducible apply BeatAcc.mergeBeat_keeps
    | with_reducible apply State.bump_keeps
    | with_reducible apply State.commitBeat_keeps
    | with_reducible apply State.modInflight_keeps
    | with_reducible apply State.storeRow_keeps

theorem State.rowResult_keeps {z s : State} (h : Keeps z s)  :
    Keeps z (State.rowResult s) := by
  unfold State.rowResult
  try dsimp only
  iterate 12 all_goals try first
    | with_reducible exact h
    | with_reducible apply State.failBank_keeps
    | with_reducible apply State.readOrFail_keeps
    | with_reducible apply State.commitBeat_keeps
    | with_reducible apply State.modInflight_keeps
    | with_reducible apply State.emptyRow_keeps
    | with_reducible apply State.finishRow_keeps
    | with_reducible apply Keeps.ite
    | exact fun _ w => w
    | exact fun _ w => Memory.wf_write _ _ w
    | exact fun _ w => Memory.wf_writeN _ _ w
    | exact fun _ w => sparseFrom_set _ _ (Nat.zero_le _) w
    | exact fun _ w => Spad.fixWord_mem _ w
    | exact fun _ w => Spad.fixWord_synd _ w
    | exact fun _ w => mergeBytes_wf _ w
    | exact fun _ _ => rfl
    | exact fun _ _ => sparseFrom_foldl _ _ _ rfl
    | exact fun _ w => till_foldl _ w
    | split

theorem State.countBeat_keeps {z s : State} (h : Keeps z s) (m : Cmd) (c : Inflight) (b : Beat) (hard : Nat) (back : Bool) :
    Keeps z (State.countBeat s m c b hard back) := by
  unfold State.countBeat
  try dsimp only
  iterate 12 all_goals try first
    | with_reducible exact h
    | with_reducible apply State.bump_keeps

theorem State.writeConflict_keeps {z s : State} (h : Keeps z s) (c : Inflight) (b : Nat) :
    Keeps z (State.writeConflict s c b) := by
  unfold State.writeConflict
  try dsimp only
  iterate 12 all_goals try first
    | with_reducible exact h
    | with_reducible apply State.failBank_keeps
    | with_reducible apply Keeps.ite
    | exact fun _ w => w
    | exact fun _ w => Memory.wf_write _ _ w
    | exact fun _ w => Memory.wf_writeN _ _ w
    | exact fun _ w => sparseFrom_set _ _ (Nat.zero_le _) w
    | exact fun _ w => Spad.fixWord_mem _ w
    | exact fun _ w => Spad.fixWord_synd _ w
    | exact fun _ w => mergeBytes_wf _ w
    | exact fun _ _ => rfl
    | exact fun _ _ => sparseFrom_foldl _ _ _ rfl
    | exact fun _ w => till_foldl _ w
    | split

theorem State.writeBeat_keeps {z s : State} (h : Keeps z s) (c0 : Inflight) : Keeps z (s.writeBeat c0) := by
  unfold State.writeBeat
  split
  · exact h
  extract_lets m s1 c x a0 a s2 s3
  have h1 : Keeps z a0.st := State.writeConflict_keeps h _ _
  have h2 : Keeps z a.st := by
    simp only [a]
    split
    · exact BeatAcc.mergeBeat_keeps h1 _ _
    · exact BeatAcc.segments_keeps h1 _ _ _
  have h3 : Keeps z s3 := State.countBeat_keeps (Keeps.ite h2 (State.modOut_keeps h2 _)) _ _ _ _ _
  exact Keeps.ite (State.commitBeat_keeps (State.modInflight_keeps h3 _ _) _ _) (State.modInflight_keeps h3 _ _)

theorem State.beatWriteComplete_keeps {z s : State} (h : Keeps z s) :
    Keeps z (State.beatWriteComplete s) := by
  unfold State.beatWriteComplete
  split
  · exact h
  split
  · exact h
  exact State.writeBeat_keeps h _

theorem State.hardCaseResolution_keeps {z s : State} (h : Keeps z s) :
    Keeps z (State.hardCaseResolution s) := by
  unfold State.hardCaseResolution
  split
  · exact h
  split
  · exact h
  split
  · exact h
  · exact Keeps.ite (State.commitBeat_keeps (State.modInflight_keeps h _ _) _ _) (State.modInflight_keeps h _ _)

end Sys2Proof.Machine
end

