-- ==== Sys2Proof/Laws/KeepsRings.lean ====
section
/-! SUPPORT. What receipts, keys and the settlement rings keep: one lemma per operation. -/
namespace Sys2Proof.Machine
open Sys2Proof

/-! ### Receipt -/

theorem State.setDigest_keeps {z s : State} (h : Keeps z s) (epoch : W16) (d : Digest) :
    Keeps z (State.setDigest s epoch d) := by
  unfold State.setDigest
  try dsimp only
  iterate 3 all_goals try first
    | with_reducible exact h
    | with_reducible apply State.modProv_keeps

theorem State.openRange_keeps {z s : State} (h : Keeps z s) (epoch : W16) :
    Keeps z (State.openRange s epoch) := by
  unfold State.openRange
  try dsimp only
  iterate 3 all_goals try first
    | with_reducible exact h
    | with_reducible apply State.setDigest_keeps
    | with_reducible apply Keeps.ite

theorem State.sealNow_keeps {z s : State} (h : Keeps z s) (epoch : W16) (amask : Nat) (rstd : Bool) :
    Keeps z (State.sealNow s epoch amask rstd).1 := by
  unfold State.sealNow
  try dsimp only
  iterate 6 all_goals try first
    | with_reducible exact h
    | with_reducible apply State.openRange_keeps
    | with_reducible apply State.modRcpt_keeps
    | with_reducible apply State.modProv_keeps
    | with_reducible apply State.setDigest_keeps
    | with_reducible apply Keeps.ite

theorem State.receive_keeps {z s : State} (h : Keeps z s) (x : Slot) :
    Keeps z (State.receive s x) := by
  unfold State.receive
  try dsimp only
  iterate 6 all_goals try first
    | with_reducible exact h
    | with_reducible apply State.openRange_keeps
    | with_reducible apply State.setDigest_keeps
    | with_reducible apply Keeps.ite

theorem State.invalidate_keeps {z s : State} (h : Keeps z s) (reason : Nat) (p : Receipt → Bool) :
    Keeps z (State.invalidate s reason p) := by
  unfold State.invalidate
  try dsimp only
  iterate 3 all_goals try first
    | with_reducible exact h
    | with_reducible apply State.modRcpt_keeps

theorem State.invalidateAll_keeps {z s : State} (h : Keeps z s) (reason : Nat) :
    Keeps z (State.invalidateAll s reason) := by
  unfold State.invalidateAll
  try dsimp only
  iterate 6 all_goals try first
    | with_reducible exact h
    | with_reducible apply State.modRcpt_keeps
    | with_reducible apply State.invalidate_keeps
    | with_reducible apply Keeps.ite

theorem State.drawKey_keeps {z s : State} (h : Keeps z s) :
    Keeps z (State.drawKey s).2 := Keeps.draw h 1

theorem State.drained_keeps {z s : State} (h : Keeps z s)  :
    Keeps z (State.drained s) := by
  unfold State.drained
  try dsimp only
  iterate 12 all_goals try first
    | with_reducible exact h
    | with_reducible apply State.modProv_keeps
    | with_reducible apply Keeps.ite
    | exact fun _ w => w
    | exact fun _ w => Memory.wf_write _ _ w
    | exact fun _ w => Memory.wf_writeN _ _ w
    | exact fun _ w => sparseFrom_set _ _ (Nat.zero_le _) w
    | exact fun _ w => Spad.fixWord_mem _ w
    | exact fun _ w => Spad.fixWord_synd _ w
    | exact fun _ w => mergeBytes_wf _ w
    | exact fun _ _ => rfl
    | exact fun _ _ => sparseFrom_foldl _ _ _ rfl
    | exact fun _ w => till_foldl _ w
    | split

theorem State.signatureComplete_keeps {z s : State} (h : Keeps z s) :
    Keeps z (State.signatureComplete s) := by
  unfold State.signatureComplete
  try dsimp only
  iterate 12 all_goals try first
    | with_reducible exact h
    | with_reducible apply State.modRcpt_keeps
    | with_reducible apply State.drained_keeps
    | with_reducible apply State.log_keeps
    | with_reducible apply Keeps.ite
    | split

theorem State.receiptWindowTest_keeps {z s : State} (h : Keeps z s) :
    Keeps z (State.receiptWindowTest s) := by
  unfold State.receiptWindowTest
  try dsimp only
  iterate 3 all_goals try first
    | with_reducible exact h
    | with_reducible apply State.modRcpt_keeps
    | with_reducible apply Keeps.ite

theorem State.keyrt_keeps {z s : State} (h : Keeps z s) :
    Keeps z (State.keyrt s) := by
  unfold State.keyrt
  try dsimp only
  iterate 6 all_goals try first
    | with_reducible exact h
    | with_reducible apply State.modProv_keeps
    | with_reducible apply State.log_keeps
    | with_reducible apply Keeps.ite
    | exact fun _ w => w
    | split
    | (refine Keeps.frame h rfl ?_ rfl rfl rfl rfl rfl rfl rfl (le_refl _); dsimp only; done)

theorem State.noticeSigned_keeps {z s : State} (h : Keeps z s) :
    Keeps z (State.noticeSigned s) := by
  unfold State.noticeSigned
  try dsimp only
  iterate 12 all_goals try first
    | with_reducible exact h
    | with_reducible apply State.modRcpt_keeps
    | with_reducible apply State.log_keeps
    | with_reducible apply Keeps.ite
    | split

theorem State.keyGenerated_keeps {z s : State} (h : Keeps z s) :
    Keeps z (State.keyGenerated s) := by
  unfold State.keyGenerated
  try dsimp only
  iterate 6 all_goals try first
    | with_reducible exact h
    | with_reducible apply State.drawKey_keeps
    | with_reducible apply State.drained_keeps
    | with_reducible apply State.modProv_keeps
    | with_reducible apply Keeps.ite

theorem State.expose_keeps {z s : State} (h : Keeps z s) (e : Gc) (reason : Nat) :
    Keeps z (State.expose s e reason) := by
  unfold State.expose
  try dsimp only
  iterate 3 all_goals try first
    | with_reducible exact h
    | with_reducible apply State.modRcpt_keeps
    | with_reducible apply State.invalidate_keeps

theorem State.countEpold_keeps {z s : State} (h : Keeps z s) :
    Keeps z (State.countEpold s) := by
  unfold State.countEpold
  try dsimp only
  iterate 3 all_goals try first
    | with_reducible exact h
    | with_reducible apply State.modProv_keeps

/-! ### Link -/

theorem State.resend_keeps {z s : State} (h : Keeps z s) (c : Scope) :
    Keeps z (State.resend s c) := by
  unfold State.resend
  try dsimp only
  iterate 3 all_goals try first
    | with_reducible exact h
    | with_reducible apply State.modOut_keeps
    | with_reducible apply State.modLink_keeps

theorem State.send_keeps {z s : State} (h : Keeps z s) (c : Scope) (fs : List Flit) :
    Keeps z (State.send s c fs) := by
  unfold State.send
  try dsimp only
  iterate 3 all_goals try first
    | with_reducible exact h
    | with_reducible apply State.transmit_keeps
    | with_reducible apply State.modLink_keeps

theorem State.driveWord_keeps {z s : State} (h : Keeps z s) (c : Scope) (w : W16) : Keeps z (s.driveWord c w) :=
  State.modOut_keeps (State.modLink_keeps h _ _) _

theorem State.ack_keeps {z s : State} (h : Keeps z s) (c : Scope) (nak : Bool) (seq : Byte) : Keeps z (s.ack c nak seq) :=
  State.driveWord_keeps h _ _

theorem State.ackIdle_keeps {z s : State} (h : Keeps z s) (c : Scope) : Keeps z (s.ackIdle c) := State.driveWord_keeps h _ _

theorem State.portCycle_keeps {z s : State} (h : Keeps z s) (c : Scope) : Keeps z (s.portCycle c) := by
  unfold State.portCycle
  refine Keeps.ite (State.modOut_keeps h _) (Keeps.ite h ?_)
  exact State.modOut_keeps (State.setLink_keeps (Keeps.ite h (State.ackIdle_keeps h _)) _ _) _

theorem State.ringCycle_keeps {z s : State} (h : Keeps z s)  :
    Keeps z (State.ringCycle s) := by
  unfold State.ringCycle
  try dsimp only
  iterate 12 all_goals try first
    | with_reducible exact h
    | with_reducible apply State.portCycle_keeps

/-! ### Settle -/

theorem State.dropRecord_keeps {z s : State} (h : Keeps z s) (c : Inflight) (m : Cmd) (type : Nat) (src : Nat) (row : Nat) :
    Keeps z (State.dropRecord s c m type src row) := by
  unfold State.dropRecord
  try dsimp only
  iterate 3 all_goals try first
    | with_reducible exact h
    | with_reducible apply Keeps.ite
    | exact fun _ w => w
    | split
    | (refine Keeps.frame h rfl ?_ rfl rfl rfl rfl rfl rfl rfl (le_refl _); dsimp only; done)

theorem State.discard_keeps {z s : State} (h : Keeps z s) (scope : Scope) (tenant : BitVec 3) (sid : W16) :
    Keeps z (State.discard s scope tenant sid) := by
  unfold State.discard
  try dsimp only
  iterate 3 all_goals try first
    | with_reducible exact h
    | with_reducible apply Keeps.ite
    | exact fun _ w => w
    | split
    | (refine Keeps.frame h rfl ?_ rfl rfl rfl rfl rfl rfl rfl (le_refl _); dsimp only; done)

theorem State.abortOwn_keeps {z s : State} (h : Keeps z s) (c : Inflight) (code : W16) :
    Keeps z (State.abortOwn s c code) := by
  unfold State.abortOwn
  try dsimp only
  iterate 3 all_goals try first
    | with_reducible exact h
    | with_reducible apply State.discard_keeps
    | with_reducible apply State.modInflight_keeps

theorem State.abortSettle_keeps {z s : State} (h : Keeps z s) (c : Inflight) (code : W16) (row : Nat) (detail : List Byte) :
    Keeps z (State.abortSettle s c code row detail) := by
  unfold State.abortSettle
  try dsimp only
  iterate 6 all_goals try first
    | with_reducible exact h
    | with_reducible apply State.send_keeps
    | with_reducible apply State.abortOwn_keeps
    | with_reducible apply State.log_keeps

theorem State.mismatch_keeps {z s : State} (h : Keeps z s) (c : Inflight) (row : Nat) (pos : Nat) :
    Keeps z (State.mismatch s c row pos) := by
  unfold State.mismatch
  try dsimp only
  iterate 3 all_goals try first
    | with_reducible exact h
    | with_reducible apply State.abortSettle_keeps

theorem State.badFlit_keeps {z s t : State} (h : Keeps z s) {c : Inflight} {m : Cmd} {f : Flit} (e : s.badFlit c m f = some t) :
    Keeps z t := by
  unfold State.badFlit at e
  split at e
  · cases e; exact State.abortSettle_keeps h _ _ _ _
  · split at e
    · cases e; exact State.mismatch_keeps h _ _ _
    · cases e

theorem State.sourceRow_keeps {z s : State} (h : Keeps z s) (c : Inflight) (m : Cmd) (r : Nat) :
    Keeps z (State.sourceRow s c m r).1 := by
  unfold State.sourceRow
  try dsimp only
  iterate 12 all_goals try first
    | with_reducible exact h
    | with_reducible apply State.checkWords_keeps
    | with_reducible apply State.readStructure_keeps
    | with_reducible apply Keeps.ite
    | exact fun _ w => w
    | exact fun _ w => Memory.wf_write _ _ w
    | exact fun _ w => Memory.wf_writeN _ _ w
    | exact fun _ w => sparseFrom_set _ _ (Nat.zero_le _) w
    | exact fun _ w => Spad.fixWord_mem _ w
    | exact fun _ w => Spad.fixWord_synd _ w
    | exact fun _ w => mergeBytes_wf _ w
    | exact fun _ _ => rfl
    | exact fun _ _ => sparseFrom_foldl _ _ _ rfl
    | exact fun _ w => till_foldl _ w
    | split

theorem State.place_keeps {z s : State} (h : Keeps z s) (c : Inflight) (m : Cmd) (r : Nat) (bs : List Byte) (ma : W32) :
    Keeps z (State.place s c m r bs ma) := by
  unfold State.place
  try dsimp only
  iterate 12 all_goals try first
    | with_reducible exact h
    | with_reducible apply State.bump_keeps
    | with_reducible apply State.modInflight_keeps
    | with_reducible apply State.doWrites_keeps
    | with_reducible apply State.storeRow_keeps
    | with_reducible apply Keeps.ite

theorem State.finalRow_keeps {z s : State} (h : Keeps z s) (c : Inflight) (m : Cmd) (r : Nat) (own : RowSt) (bs : List Byte) :
    Keeps z (State.finalRow s c m r own bs) := by
  unfold State.finalRow
  try dsimp only
  iterate 3 all_goals try first
    | with_reducible exact h
    | with_reducible apply State.place_keeps
    | with_reducible apply State.send_keeps

theorem State.strictStep_keeps {z s : State} (h : Keeps z s) (c : Inflight) (m : Cmd) (r : Nat) (own : RowSt) :
    Keeps z (State.strictStep s c m r own) := by
  unfold State.strictStep
  try dsimp only
  iterate 12 all_goals try first
    | with_reducible exact h
    | with_reducible apply State.send_keeps
    | with_reducible apply State.modInflight_keeps
    | with_reducible apply State.dropRecord_keeps
    | with_reducible apply State.mismatch_keeps
    | with_reducible apply State.finalRow_keeps
    | with_reducible apply Keeps.ite
    | split

theorem State.fastPart_keeps {z s : State} (h : Keeps z s) (c : Inflight) (m : Cmd) (r : Nat) (own : RowSt) (src : Nat) :
    Keeps z (State.fastPart s c m r own src).1 := by
  unfold State.fastPart
  try dsimp only
  iterate 6 all_goals try first
    | with_reducible exact h
    | with_reducible apply State.dropRecord_keeps
    | with_reducible apply State.mismatch_keeps
    | with_reducible apply State.modInflight_keeps
    | with_reducible apply Keeps.ite
    | split

theorem State.fastMerge_keeps {z s : State} (h : Keeps z s) (c : Inflight) (m : Cmd) (r : Nat) (own : RowSt) (x5 : List Nat) :
    Keeps z (State.fastMerge s c m r own x5) := by
  induction x5 generalizing s c m r own with
  | nil =>
    unfold State.fastMerge
    try dsimp only
    iterate 6 all_goals try first
      | with_reducible exact h
  | cons a r ih =>
    unfold State.fastMerge
    try dsimp only
    iterate 6 all_goals try first
      | with_reducible exact h
      | with_reducible apply ih
      | with_reducible apply State.fastPart_keeps
      | with_reducible apply Keeps.ite

theorem State.fastStep_keeps {z s : State} (h : Keeps z s) (c : Inflight) (m : Cmd) (r : Nat) (own : RowSt) :
    Keeps z (State.fastStep s c m r own) := by
  unfold State.fastStep
  try dsimp only
  iterate 12 all_goals try first
    | with_reducible exact h
    | with_reducible apply State.send_keeps
    | with_reducible apply State.modInflight_keeps
    | with_reducible apply State.fastMerge_keeps
    | with_reducible apply State.finalRow_keeps
    | with_reducible apply Keeps.ite
    | split

theorem State.readBuffer_keeps {z s : State} (h : Keeps z s) (c : Inflight) (m : Cmd) (row : Nat) :
    Keeps z (State.readBuffer s c m row) := by
  unfold State.readBuffer
  extract_lets bad t
  have k : Keeps z t := Keeps.foldl (fun _ b k => Keeps.foldl (fun _ e k => State.codeEvent_keeps k _ _ _ _ _ _) k b.synd) h bad
  exact Keeps.ite k (Keeps.frame k rfl rfl rfl rfl rfl rfl rfl rfl rfl (le_refl _))

theorem State.gatherRow_keeps {z s : State} (h : Keeps z s) (c : Inflight) (m : Cmd) (r : Nat) :
    Keeps z (State.gatherRow s c m r) := by
  unfold State.gatherRow
  try dsimp only
  iterate 12 all_goals try first
    | with_reducible exact h
    | with_reducible apply State.dropRecord_keeps
    | with_reducible apply State.mismatch_keeps
    | with_reducible apply State.place_keeps
    | with_reducible apply State.sourceRow_keeps
    | with_reducible apply Keeps.ite
    | exact fun _ w => w
    | exact fun _ w => Memory.wf_write _ _ w
    | exact fun _ w => Memory.wf_writeN _ _ w
    | exact fun _ w => sparseFrom_set _ _ (Nat.zero_le _) w
    | exact fun _ w => Spad.fixWord_mem _ w
    | exact fun _ w => Spad.fixWord_synd _ w
    | exact fun _ w => mergeBytes_wf _ w
    | exact fun _ _ => rfl
    | exact fun _ _ => sparseFrom_foldl _ _ _ rfl
    | exact fun _ w => till_foldl _ w
    | split

theorem State.reduceRow_keeps {z s : State} (h : Keeps z s) (c : Inflight) (m : Cmd) (r : Nat) :
    Keeps z (State.reduceRow s c m r) := by
  unfold State.reduceRow
  try dsimp only
  iterate 12 all_goals try first
    | with_reducible exact h
    | with_reducible apply State.sourceRow_keeps
    | with_reducible apply State.abortSettle_keeps
    | with_reducible apply State.mismatch_keeps
    | with_reducible apply State.strictStep_keeps
    | with_reducible apply State.fastStep_keeps
    | with_reducible apply Keeps.ite
    | exact fun _ w => w
    | exact fun _ w => Memory.wf_write _ _ w
    | exact fun _ w => Memory.wf_writeN _ _ w
    | exact fun _ w => sparseFrom_set _ _ (Nat.zero_le _) w
    | exact fun _ w => Spad.fixWord_mem _ w
    | exact fun _ w => Spad.fixWord_synd _ w
    | exact fun _ w => mergeBytes_wf _ w
    | exact fun _ _ => rfl
    | exact fun _ _ => sparseFrom_foldl _ _ _ rfl
    | exact fun _ w => till_foldl _ w
    | split

theorem State.advanceRow_keeps {z s : State} (h : Keeps z s) (tag : W16) (r : Nat) :
    Keeps z (State.advanceRow s tag r) := by
  unfold State.advanceRow
  try dsimp only
  iterate 26 all_goals try first
    | with_reducible exact h
    | with_reducible apply State.modHealth_keeps
    | with_reducible apply State.abortSettle_keeps
    | with_reducible apply State.place_keeps
    | with_reducible apply State.readBuffer_keeps
    | with_reducible apply State.mismatch_keeps
    | with_reducible apply State.gatherRow_keeps
    | with_reducible apply State.reduceRow_keeps
    | with_reducible apply Keeps.ite
    | exact fun _ w => w
    | exact fun _ w => Memory.wf_write _ _ w
    | exact fun _ w => Memory.wf_writeN _ _ w
    | exact fun _ w => sparseFrom_set _ _ (Nat.zero_le _) w
    | exact fun _ w => Spad.fixWord_mem _ w
    | exact fun _ w => Spad.fixWord_synd _ w
    | exact fun _ w => mergeBytes_wf _ w
    | exact fun _ _ => rfl
    | exact fun _ _ => sparseFrom_foldl _ _ _ rfl
    | exact fun _ w => till_foldl _ w
    | split

theorem State.ringFalls_keeps {z s : State} (h : Keeps z s) (scope : Scope) :
    Keeps z (State.ringFalls s scope) := by
  unfold State.ringFalls
  try dsimp only
  iterate 6 all_goals try first
    | with_reducible exact h
    | with_reducible exact Keeps.draw h 1
    | with_reducible apply BeatAcc.segments_keeps
    | with_reducible apply BeatAcc.mergeBeat_keeps
    | with_reducible apply State.abortOwn_keeps
    | with_reducible apply State.log_keeps
    | with_reducible apply Keeps.ite
    | (with_reducible refine Keeps.foldl ?_ ?_ _; intro _ _ h)

theorem State.declareDown_keeps {z s : State} (h : Keeps z s) (c : Scope) :
    Keeps z (State.declareDown s c) := by
  unfold State.declareDown
  try dsimp only
  iterate 6 all_goals try first
    | with_reducible exact h
    | with_reducible apply State.modLink_keeps
    | with_reducible apply State.ringFalls_keeps
    | with_reducible apply State.log_keeps

theorem State.retry_keeps {z s : State} (h : Keeps z s) (c : Scope) :
    Keeps z (State.retry s c) := by
  unfold State.retry
  try dsimp only
  iterate 6 all_goals try first
    | with_reducible exact h
    | with_reducible apply State.resend_keeps
    | with_reducible apply State.declareDown_keeps
    | with_reducible apply Keeps.ite

theorem State.ackTimeout_keeps {z s : State} (h : Keeps z s) (c : Scope) :
    Keeps z (State.ackTimeout s c) := by
  unfold State.ackTimeout
  try dsimp only
  iterate 3 all_goals try first
    | with_reducible exact h
    | with_reducible apply State.retry_keeps
    | with_reducible apply Keeps.ite

theorem State.forward_keeps {z s : State} (h : Keeps z s) (c : Scope) (f : Flit) :
    Keeps z (State.forward s c f) := by
  unfold State.forward
  try dsimp only
  iterate 3 all_goals try first
    | with_reducible exact h
    | with_reducible apply State.send_keeps

theorem State.buffer_keeps {z s : State} (h : Keeps z s) (c : Scope) (b : List Byte) :
    Keeps z (State.buffer s c b) := by
  unfold State.buffer
  try dsimp only
  iterate 3 all_goals try first
    | with_reducible exact h
    | with_reducible apply Keeps.ite
    | exact fun _ w => w
    | split
    | (refine Keeps.frame h rfl ?_ rfl rfl rfl rfl rfl rfl rfl (le_refl _); dsimp only; done)

theorem State.takeFinal_keeps {z s : State} (h : Keeps z s) (c : Scope) (f : Flit) (b : List Byte) :
    Keeps z (State.takeFinal s c f b) := by
  unfold State.takeFinal
  try dsimp only
  iterate 12 all_goals try first
    | with_reducible exact h
    | with_reducible apply State.forward_keeps
    | refine State.badFlit_keeps ?_ (by assumption)
    | with_reducible apply State.modLink_keeps
    | with_reducible apply State.advanceRow_keeps
    | with_reducible apply State.buffer_keeps
    | with_reducible apply State.log_keeps
    | with_reducible apply Keeps.ite
    | split

theorem State.dropStale_keeps {z s : State} (h : Keeps z s) (x1 : List BufFlit) :
    Keeps z (State.dropStale s x1) := by
  induction x1 generalizing s  with
  | nil =>
    unfold State.dropStale
    try dsimp only
    iterate 6 all_goals try first
      | with_reducible exact h
  | cons a r ih =>
    unfold State.dropStale
    try dsimp only
    iterate 6 all_goals try first
      | with_reducible exact h
      | with_reducible apply ih
      | with_reducible apply State.discard_keeps
      | with_reducible apply State.log_keeps
      | with_reducible apply Keeps.ite

theorem State.settlementBufferTimeout_keeps {z s : State} (h : Keeps z s) :
    Keeps z (State.settlementBufferTimeout s) := by
  unfold State.settlementBufferTimeout
  try dsimp only
  iterate 3 all_goals try first
    | with_reducible exact h
    | with_reducible apply State.dropStale_keeps
    | with_reducible apply Keeps.ite

theorem State.rxUp_keeps {z s : State} (h : Keeps z s) (c : Scope) :
    Keeps z (State.rxUp s c) := by
  unfold State.rxUp
  try dsimp only
  iterate 12 all_goals try first
    | with_reducible exact h
    | with_reducible apply State.send_keeps
    | with_reducible apply State.modLink_keeps
    | with_reducible apply Keeps.ite

theorem State.txUp_keeps {z s : State} (h : Keeps z s) (c : Scope) :
    Keeps z (State.txUp s c) := by
  unfold State.txUp
  try dsimp only
  iterate 12 all_goals try first
    | with_reducible exact h
    | with_reducible apply State.modLink_keeps
    | with_reducible apply State.log_keeps
    | with_reducible apply Keeps.ite

theorem State.linkUp_keeps {z s : State} (h : Keeps z s) (c : Scope) :
    Keeps z (State.linkUp s c) := by
  unfold State.linkUp
  try dsimp only
  iterate 12 all_goals try first
    | with_reducible exact h
    | with_reducible apply State.rxUp_keeps
    | with_reducible apply State.txUp_keeps
    | with_reducible apply Keeps.ite

theorem State.partSend_keeps {z s : State} (h : Keeps z s) (tag : W16) (row : W16) :
    Keeps z (State.partSend s tag row) := by
  unfold State.partSend
  try dsimp only
  iterate 3 all_goals try first
    | with_reducible exact h
    | with_reducible apply State.advanceRow_keeps
    | with_reducible apply Keeps.ite

theorem State.reject_keeps {z s : State} (h : Keeps z s) (c : Scope) :
    Keeps z (State.reject s c) := by
  unfold State.reject
  try dsimp only
  iterate 12 all_goals try first
    | with_reducible exact h
    | with_reducible apply State.ack_keeps
    | with_reducible apply State.setLink_keeps
    | with_reducible apply Keeps.ite

theorem State.takeTrain_keeps {z s : State} (h : Keeps z s) (c : Scope) (seq : Byte) :
    Keeps z (State.takeTrain s c seq) := by
  unfold State.takeTrain
  try dsimp only
  iterate 12 all_goals try first
    | with_reducible exact h
    | with_reducible apply State.ack_keeps
    | with_reducible apply State.modLink_keeps
    | with_reducible apply State.send_keeps
    | with_reducible apply State.ringFalls_keeps
    | with_reducible apply Keeps.ite

theorem State.takePart_keeps {z s : State} (h : Keeps z s) (c : Scope) (f : Flit) (b : List Byte) :
    Keeps z (State.takePart s c f b) := by
  unfold State.takePart
  try dsimp only
  iterate 6 all_goals try first
    | with_reducible exact h
    | with_reducible apply State.buffer_keeps
    | with_reducible apply State.forward_keeps
    | refine State.badFlit_keeps ?_ (by assumption)
    | with_reducible apply State.advanceRow_keeps
    | with_reducible apply Keeps.ite
    | split

theorem State.takeAbort_keeps {z s : State} (h : Keeps z s) (c : Scope) (f : Flit) :
    Keeps z (State.takeAbort s c f) := by
  unfold State.takeAbort
  try dsimp only
  iterate 12 all_goals try first
    | with_reducible exact h
    | with_reducible apply State.modLink_keeps
    | with_reducible apply State.ringFalls_keeps
    | with_reducible apply State.forward_keeps
    | with_reducible apply State.abortOwn_keeps
    | with_reducible apply State.discard_keeps
    | with_reducible apply Keeps.ite
    | split

theorem State.breakTrain_keeps {z s : State} (h : Keeps z s) (c : Scope) :
    Keeps z (State.breakTrain s c) := by
  unfold State.breakTrain
  try dsimp only
  iterate 12 all_goals try first
    | with_reducible exact h
    | with_reducible apply State.modLink_keeps

theorem State.flitReceive_keeps {z s : State} (h : Keeps z s) (c : Scope) (flit : List Byte) :
    Keeps z (State.flitReceive s c flit) := by
  unfold State.flitReceive
  try dsimp only
  iterate 26 all_goals try first
    | with_reducible exact h
    | with_reducible apply State.reject_keeps
    | with_reducible apply State.breakTrain_keeps
    | with_reducible apply State.modLink_keeps
    | with_reducible apply State.takeTrain_keeps
    | with_reducible apply State.ackIdle_keeps
    | with_reducible apply State.setLink_keeps
    | with_reducible apply State.takePart_keeps
    | with_reducible apply State.takeFinal_keeps
    | with_reducible apply State.takeAbort_keeps
    | with_reducible apply State.ack_keeps
    | with_reducible apply State.log_keeps
    | with_reducible apply Keeps.ite
    | exact fun _ w => w
    | exact fun _ w => Memory.wf_write _ _ w
    | exact fun _ w => Memory.wf_writeN _ _ w
    | exact fun _ w => sparseFrom_set _ _ (Nat.zero_le _) w
    | exact fun _ w => Spad.fixWord_mem _ w
    | exact fun _ w => Spad.fixWord_synd _ w
    | exact fun _ w => mergeBytes_wf _ w
    | exact fun _ _ => rfl
    | exact fun _ _ => sparseFrom_foldl _ _ _ rfl
    | exact fun _ w => till_foldl _ w
    | split

theorem State.takeBuffered_keeps {z s : State} (h : Keeps z s) (tag : W16) (x2 : List BufFlit) :
    Keeps z (State.takeBuffered s tag x2) := by
  induction x2 generalizing s tag with
  | nil =>
    unfold State.takeBuffered
    try dsimp only
    iterate 12 all_goals try first
      | with_reducible exact h
  | cons a r ih =>
    unfold State.takeBuffered
    try dsimp only
    iterate 12 all_goals try first
      | with_reducible exact h
      | with_reducible apply ih
      | refine State.badFlit_keeps ?_ (by assumption)
      | with_reducible apply State.advanceRow_keeps
      | with_reducible apply Keeps.ite
      | split

theorem State.ackReceive_keeps {z s : State} (h : Keeps z s) (c : Scope) (w : W16) :
    Keeps z (State.ackReceive s c w) := by
  unfold State.ackReceive
  try dsimp only
  iterate 12 all_goals try first
    | with_reducible exact h
    | with_reducible apply State.setLink_keeps
    | with_reducible apply State.transmit_keeps
    | with_reducible apply State.retry_keeps
    | with_reducible apply State.log_keeps
    | with_reducible apply Keeps.ite

theorem State.voidSettle_keeps {z s : State} (h : Keeps z s) (c : Inflight) (m : Cmd) :
    Keeps z (State.voidSettle s c m) := by
  unfold State.voidSettle
  try dsimp only
  iterate 6 all_goals try first
    | with_reducible exact h
    | with_reducible apply State.setLines_keeps
    | with_reducible apply State.doWrites_keeps
    | with_reducible apply Keeps.ite
    | split

end Sys2Proof.Machine
end

