-- ==== Sys2Proof/Laws/KeepsStream.lean ====
section
/-! SUPPORT. What issue, the dictionary and retirement keep: one lemma per operation. -/
namespace Sys2Proof.Machine
open Sys2Proof

/-! ### Issue -/

theorem State.escrowWatchdog.settles_keeps {z s : State} (h : Keeps z s) (tag : W16) :
    Keeps z (State.escrowWatchdog.settles s tag) := by
  unfold State.escrowWatchdog.settles
  try dsimp only
  iterate 6 all_goals try first
    | with_reducible exact h
    | with_reducible apply State.abortSettle_keeps
    | with_reducible apply Keeps.ite
    | split

theorem State.claimAll_keeps {z s : State} (h : Keeps z s) (tag : W16) (x2 : List (Role × Desc × Bool)) :
    Keeps z (State.claimAll s tag x2) := by
  induction x2 generalizing s tag with
  | nil =>
    unfold State.claimAll
    try dsimp only
    iterate 3 all_goals try first
      | with_reducible exact h
  | cons a r ih =>
    unfold State.claimAll
    try dsimp only
    iterate 3 all_goals try first
      | with_reducible exact h
      | with_reducible apply ih
      | with_reducible apply State.claim_keeps

theorem State.clearContext_keeps {z s : State} (h : Keeps z s) : Keeps z s.clearContext :=
  h.trans ⟨rfl, rfl, le_refl _, by
    simp only [State.inv_iff, State.clearContext]
    exact fun ⟨a, b, c, _, e⟩ => ⟨a, b, c, rfl, e⟩⟩

theorem State.tenantClear_keeps {z s : State} (h : Keeps z s) : Keeps z s.tenantClear :=
  (State.clearContext_keeps h).frame (t := s.tenantClear) rfl rfl rfl rfl rfl rfl rfl rfl rfl (le_refl _)

theorem State.countRefusal_keeps {z s : State} (h : Keeps z s) :
    Keeps z (State.countRefusal s) := by
  unfold State.countRefusal
  try dsimp only
  iterate 3 all_goals try first
    | with_reducible exact h
    | with_reducible apply State.modEscrow_keeps
    | exact rfl

theorem State.push_keeps {z s : State} (h : Keeps z s) (c : Inflight) : Keeps z (State.push s c) :=
  h.stream (by
    dsimp only
    split
    · next r => intro _; simp only [List.length_append, List.length_singleton]; omega
    · exact id)

theorem State.refuse_keeps {z s : State} (h : Keeps z s) (x : Slot) (code : W16) (detail : List Byte) :
    Keeps z (State.refuse s x code detail) := by
  unfold State.refuse
  exact State.push_keeps (State.log_keeps (Keeps.ite (State.countEpold_keeps h) h) _ _ _ _) _

theorem State.escrowWatchdog_keeps {z s : State} (h : Keeps z s) (tag : W16) :
    Keeps z (State.escrowWatchdog s tag) := by
  unfold State.escrowWatchdog
  split
  · exact h
  split
  · split
    · exact State.refuse_keeps (State.modEscrow_keeps (State.countRefusal_keeps (State.modStream_keeps h _ (le_refl _))) _ rfl) _ _ _
    · exact State.escrowWatchdog.settles_keeps h _
  · split
    · exact State.modOut_keeps (State.log_keeps (State.modEscrow_keeps (State.countRefusal_keeps
        (State.modStream_keeps h _ (le_refl _))) _ rfl) _ _ _ _) _
    · exact State.escrowWatchdog.settles_keeps h _
  · exact State.escrowWatchdog.settles_keeps h _

theorem State.mintImage_keeps {z s : State} (h : Keeps z s) (c : Inflight) (m : Cmd) :
    Keeps z (State.mintImage s c m) := by
  unfold State.mintImage
  try dsimp only
  iterate 12 all_goals try first
    | with_reducible exact h
    | with_reducible apply State.readOrFail_keeps
    | with_reducible apply State.modInflight_keeps
    | with_reducible apply State.failAfter_keeps
    | with_reducible apply Keeps.ite

theorem State.onIssue_keeps {z s : State} (h : Keeps z s) (c : Inflight) (m : Cmd) :
    Keeps z (State.onIssue s c m) := by
  unfold State.onIssue
  try dsimp only
  iterate 6 all_goals try first
    | with_reducible exact h
    | with_reducible apply State.modInflight_keeps
    | with_reducible apply State.mintImage_keeps
    | with_reducible apply State.tenantClear_keeps
    | with_reducible apply State.sealNow_keeps
    | with_reducible apply State.takeBuffered_keeps
    | with_reducible apply Keeps.ite
    | exact fun _ w => w
    | split
    | (refine Keeps.frame h rfl ?_ rfl rfl rfl rfl rfl rfl rfl (le_refl _); dsimp only; done)



theorem State.issue_keeps {z s : State} (h : Keeps z s) (x : Slot) (m : Cmd) (arrived : Nat)
    (w : s.escrowHolds (m.boxes s.regs) = false) : Keeps z (State.issue s x m arrived) := by
  unfold State.issue
  extract_lets
  refine State.onIssue_keeps (State.push_keeps (State.claimAll_keeps (State.enter_keeps (State.modEscrow_keeps h _ ?_) _ _ _ ?_) _ _)
    _) _ _
  · rfl
  · exact w

theorem State.wake_keeps {z s : State} (h : Keeps z s) (x : Slot) :
    Keeps z (State.wake s x) := by
  unfold State.wake
  try dsimp only
  iterate 6 all_goals try first
    | with_reducible exact h
    | with_reducible apply State.modPw_keeps
    | with_reducible apply Keeps.ite
    | split

/-- What issues has nothing in escrow against it. -/
theorem State.decision_clear {s : State} {x : Slot} {m : Cmd} (e : s.decision x = .issue m) :
    s.escrowHolds (m.boxes s.regs) = false := by
  have hold (m : Cmd) (e : s.issueHold m = none) : s.escrowHolds (m.boxes s.regs) = false := by
    unfold State.issueHold at e
    simp only at e
    split_ifs at e <;> simp_all
  have e : s.verdict x = .issue m := by
    unfold State.decision at e
    split at e
    · cases e
    · exact e
  unfold State.verdict at e
  repeat' split at e
  all_goals first
    | cases e; done
    | (next r => cases e; exact hold _ r)

theorem State.attempt_keeps {z s : State} (h : Keeps z s) (x : Slot) (arrived : Nat) (since : Option (Nat × Nat)) (rest : List Waiting) :
    Keeps z (State.attempt s x arrived since rest) := by
  unfold State.attempt
  split
  · exact State.refuse_keeps (State.modEscrow_keeps (State.modStream_keeps h _ (le_refl _)) _ rfl) _ _ _
  · next e =>
    exact State.cycleLog_keeps (State.issue_keeps (State.modStream_keeps h _ (le_refl _)) _ _ _ (State.decision_clear (s := s) e)) _
  · exact State.wake_keeps (State.modStream_keeps h _ (le_refl _)) _

theorem State.wakeGated_keeps {z s : State} (h : Keeps z s) (x : Slot) :
    Keeps z (State.wakeGated s x) := by
  unfold State.wakeGated
  try dsimp only
  iterate 12 all_goals try first
    | with_reducible exact h
    | with_reducible apply State.modPw_keeps
    | with_reducible apply Keeps.ite

theorem State.issueAfterWait_keeps {z s : State} (h : Keeps z s)  :
    Keeps z (State.issueAfterWait s) := by
  unfold State.issueAfterWait
  try dsimp only
  iterate 12 all_goals try first
    | with_reducible exact h
    | with_reducible apply State.attempt_keeps
    | with_reducible apply State.wakeGated_keeps
    | with_reducible apply Keeps.ite
    | exact fun _ w => w
    | exact fun _ w => Memory.wf_write _ _ w
    | exact fun _ w => Memory.wf_writeN _ _ w
    | exact fun _ w => sparseFrom_set _ _ (Nat.zero_le _) w
    | exact fun _ w => Spad.fixWord_mem _ w
    | exact fun _ w => Spad.fixWord_synd _ w
    | exact fun _ w => mergeBytes_wf _ w
    | exact fun _ _ => rfl
    | exact fun _ _ => sparseFrom_foldl _ _ _ rfl
    | exact fun _ w => till_foldl _ w
    | split

theorem State.slotDropped_keeps {z s : State} (h : Keeps z s) :
    Keeps z (State.slotDropped s) := by
  unfold State.slotDropped
  try dsimp only
  iterate 3 all_goals try first
    | with_reducible exact h
    | with_reducible apply State.log_keeps
    | with_reducible apply Keeps.ite

theorem State.takeSlot_keeps {z s : State} (h : Keeps z s) (x : Slot) :
    Keeps z (State.takeSlot s x) := by
  unfold State.takeSlot
  try dsimp only
  iterate 12 all_goals try first
    | with_reducible exact h
    | with_reducible apply State.receive_keeps
    | with_reducible apply State.attempt_keeps
    | with_reducible apply State.wake_keeps
    | with_reducible apply State.modStream_keeps
    | exact le_refl _
    | with_reducible apply Keeps.ite

/-! ### Dict -/

theorem State.capture_keeps {z s : State} (h : Keeps z s) (path : Path) :
    Keeps z (State.capture s path) := by
  unfold State.capture
  try dsimp only
  iterate 3 all_goals try first
    | with_reducible exact h
    | with_reducible apply State.modMg_keeps

theorem State.disarm_keeps {z s : State} (h : Keeps z s) :
    Keeps z (State.disarm s) := by
  unfold State.disarm
  have k : Keeps z { s with ep := { s.ep with armed := false } } := h.frame rfl rfl rfl rfl rfl rfl rfl rfl rfl (le_refl _)
  dsimp only
  split
  · exact k
  · split
    · split
      · exact k
      · exact State.refuse_keeps (State.modStream_keeps (State.modEscrow_keeps k _ rfl) _ (le_refl _)) _ _ _
    · exact k

theorem State.endBreach_keeps {z s : State} (h : Keeps z s) :
    Keeps z (State.endBreach s) := by
  unfold State.endBreach
  try dsimp only
  iterate 6 all_goals try first
    | with_reducible exact h
    | with_reducible apply State.modPw_keeps
    | with_reducible apply State.modTn_keeps
    | with_reducible apply State.log_keeps
    | with_reducible apply Keeps.ite
    | split

theorem State.rollSetsDue_keeps {z s : State} (h : Keeps z s)  :
    Keeps z (State.rollSetsDue s) := by
  unfold State.rollSetsDue
  try dsimp only
  iterate 12 all_goals try first
    | with_reducible exact h
    | with_reducible apply State.modEscrow_keeps
    | with_reducible apply State.setRoll_keeps
    | exact rfl
    | with_reducible apply Keeps.ite
    | (with_reducible refine Keeps.foldl ?_ ?_ _; intro _ _ h)

theorem State.writeRoll_keeps {z s : State} (h : Keeps z s) (i : Nat) (sub : Nat) (v : Nat) :
    Keeps z (State.writeRoll s i sub v) := by
  unfold State.writeRoll
  try dsimp only
  iterate 12 all_goals try first
    | with_reducible exact h
    | with_reducible apply State.rollSetsDue_keeps
    | with_reducible apply State.modEscrow_keeps
    | exact rfl

theorem State.odApply_keeps {z s : State} (h : Keeps z s) (path : Path) (index : Nat) (sub : Nat) (v : Nat) :
    Keeps z (State.odApply s path index sub v) := by
  unfold State.odApply
  try dsimp only
  iterate 26 all_goals try first
    | with_reducible exact h
    | with_reducible apply State.modProv_keeps
    | with_reducible apply State.disarm_keeps
    | with_reducible apply State.modMg_keeps
    | with_reducible apply State.writeRoll_keeps
    | with_reducible apply State.modEscrow_keeps
    | with_reducible apply State.modPw_keeps
    | with_reducible apply State.modTn_keeps
    | with_reducible apply State.endBreach_keeps
    | with_reducible apply State.modRcpt_keeps
    | exact rfl
    | with_reducible apply Keeps.ite
    | (with_reducible refine Keeps.foldl ?_ ?_ _; intro _ _ h)
    | exact fun _ w => w
    | exact fun _ w => Memory.wf_write _ _ w
    | exact fun _ w => Memory.wf_writeN _ _ w
    | exact fun _ w => sparseFrom_set _ _ (Nat.zero_le _) w
    | exact fun _ w => Spad.fixWord_mem _ w
    | exact fun _ w => Spad.fixWord_synd _ w
    | exact fun _ w => mergeBytes_wf _ w
    | exact fun _ _ => rfl
    | exact fun _ _ => sparseFrom_foldl _ _ _ rfl
    | exact fun _ w => till_foldl _ w
    | (intro _ w; split <;> exact w)
    | split <;> exact fun w => w
    | split
    | (refine Keeps.frame h rfl ?_ rfl rfl rfl rfl rfl rfl rfl (le_refl _); dsimp only; done)

theorem State.odWrite_keeps {z s : State} (h : Keeps z s) (path : Path) (index : Nat) (sub : Nat) (value : List Byte) :
    Keeps z (State.odWrite s path index sub value).1 := by
  unfold State.odWrite
  try dsimp only
  iterate 6 all_goals try first
    | with_reducible exact h
    | with_reducible apply State.odApply_keeps
    | with_reducible apply State.modMg_keeps
    | with_reducible apply State.log_keeps
    | with_reducible apply Keeps.ite
    | split

theorem State.countAccess_keeps {z s : State} (h : Keeps z s) (abort : W16) :
    Keeps z (State.countAccess s abort) := by
  unfold State.countAccess
  try dsimp only
  iterate 3 all_goals try first
    | with_reducible exact h
    | with_reducible apply State.modMg_keeps

theorem State.odWriteRow_keeps {z s : State} (h : Keeps z s) (path : Path) (index : Nat) (sub : Nat) (value : List Byte) :
    Keeps z (State.odWriteRow s path index sub value) := by
  unfold State.odWriteRow
  try dsimp only
  iterate 6 all_goals try first
    | with_reducible exact h
    | with_reducible apply Keeps.ite
    | with_reducible apply State.odWrite_keeps
    | with_reducible apply State.modOut_keeps
    | with_reducible apply State.countAccess_keeps

theorem State.odRead_keeps {z s : State} (h : Keeps z s) (path : Path) (strict : Bool) (index : Nat) (sub : Nat) :
    Keeps z (State.odRead s path strict index sub).1 := by
  unfold State.odRead
  try dsimp only
  iterate 6 all_goals try first
    | with_reducible exact h
    | with_reducible apply State.capture_keeps
    | with_reducible apply Keeps.ite
    | split

theorem State.statementRead_keeps {z s : State} (h : Keeps z s) (path : Path) :
    Keeps z (State.statementRead s path) := by
  unfold State.statementRead
  try dsimp only
  iterate 6 all_goals try first
    | with_reducible exact h
    | with_reducible apply Keeps.ite
    | with_reducible apply State.odRead_keeps
    | with_reducible apply State.modOut_keeps
    | with_reducible apply State.countAccess_keeps

/-! ### Retire -/

/-- Entries that leave the escrow. -/
theorem State.modEscrow_filter_keeps {z s : State} (h : Keeps z s) (f : Escrow → Escrow) (p : Entry → Bool)
    (hf : (f s.escrow).entries = s.escrow.entries.filter p) : Keeps z (s.modEscrow f) :=
  h.escrow fun w => hf ▸ entriesApart_filter w p

theorem State.endHolds_keeps {z s : State} (h : Keeps z s) (tag : W16) : Keeps z (s.endHolds tag) :=
  State.modEscrow_filter_keeps h _ _ rfl

theorem State.leave_keeps {z s : State} (h : Keeps z s) (c : Inflight) (m : Cmd) :
    Keeps z (State.leave s c m) := by
  unfold State.leave
  extract_lets acc s1 s2 s3 s4 s5 s6 sb s7
  have k1 : Keeps z s1 := Keeps.ite h (Keeps.escrow (State.endHolds_keeps (State.dropClaims_keeps h _) _) id)
  have k3 : Keeps z s3 := Keeps.ite (State.noteEpoch_keeps k1 _ _)
    (State.noteEpoch_keeps (State.log_keeps (State.noteEpoch_keeps k1 _ _) _ _ _ _) _ _)
  have k4 : Keeps z s4 := k3.stream (by simp only [List.length_append, List.length_drop, List.length_take]; omega)
  have k6 : Keeps z s6 := State.modFt_keeps (State.modPw_keeps k4 _) _
  have kb : Keeps z sb := State.bump_keeps (State.bump_keeps k6 _ _) _ _
  have k7 : Keeps z s7 := Keeps.ite (Keeps.ite kb (State.modHealth_keeps kb _)) k6
  exact State.modOut_keeps (State.bump_keeps k7 _ _) _

theorem State.assayOp_keeps {z s : State} (h : Keeps z s) (c : Inflight) (m : Cmd) :
    Keeps z (State.assayOp s c m) := by
  unfold State.assayOp
  try dsimp only
  iterate 6 all_goals try first
    | with_reducible exact h
    | with_reducible apply State.modSt_keeps
    | with_reducible apply State.modInflight_keeps
    | with_reducible apply State.doWrites_keeps
    | with_reducible apply Keeps.ite
    | exact fun _ w => w
    | split

theorem State.refuseCfg_keeps {z s : State} (h : Keeps z s) (c : Inflight) (abort : W16) :
    Keeps z (State.refuseCfg s c abort) := by
  unfold State.refuseCfg
  try dsimp only
  iterate 3 all_goals try first
    | with_reducible exact h
    | with_reducible apply State.modInflight_keeps
    | with_reducible apply State.log_keeps

theorem State.cfgOp_keeps {z s : State} (h : Keeps z s) (c : Inflight) (m : Cmd) :
    Keeps z (State.cfgOp s c m) := by
  unfold State.cfgOp
  try dsimp only
  iterate 12 all_goals try first
    | with_reducible exact h
    | with_reducible apply State.modInflight_keeps
    | with_reducible apply State.countAccess_keeps
    | with_reducible apply State.readOrFail_keeps
    | with_reducible apply State.odWrite_keeps
    | with_reducible apply State.refuseCfg_keeps
    | with_reducible apply State.odRead_keeps
    | with_reducible apply State.doWrites_keeps
    | with_reducible apply Keeps.ite

theorem State.tenantSwitch_keeps {z s : State} (h : Keeps z s) (c : Inflight) (m : Cmd) :
    Keeps z (State.tenantSwitch s c m) := by
  unfold State.tenantSwitch
  try dsimp only
  iterate 6 all_goals try first
    | with_reducible exact h
    | with_reducible apply State.endBreach_keeps
    | with_reducible apply State.modTn_keeps
    | with_reducible apply State.modProv_keeps
    | with_reducible apply State.log_keeps

theorem State.lateStores_keeps {z s : State} (h : Keeps z s) (c : Inflight) :
    Keeps z (State.lateStores s c) := by
  unfold State.lateStores
  try dsimp only
  iterate 12 all_goals try first
    | with_reducible exact h
    | with_reducible apply State.doWrites_keeps
    | with_reducible apply Keeps.ite

theorem State.retireEffect_keeps {z s : State} (h : Keeps z s) (c : Inflight) (m : Cmd) :
    Keeps z (State.retireEffect s c m) := by
  unfold State.retireEffect
  try dsimp only
  iterate 12 all_goals try first
    | with_reducible exact h
    | with_reducible apply State.assayOp_keeps
    | with_reducible apply State.doWrites_keeps
    | with_reducible apply State.cfgOp_keeps
    | with_reducible apply State.tenantSwitch_keeps
    | with_reducible apply State.lateStores_keeps
    | with_reducible apply Keeps.ite
    | exact fun _ w => w
    | exact fun _ w => Memory.wf_write _ _ w
    | exact fun _ w => Memory.wf_writeN _ _ w
    | exact fun _ w => sparseFrom_set _ _ (Nat.zero_le _) w
    | exact fun _ w => Spad.fixWord_mem _ w
    | exact fun _ w => Spad.fixWord_synd _ w
    | exact fun _ w => mergeBytes_wf _ w
    | exact fun _ _ => rfl
    | exact fun _ _ => sparseFrom_foldl _ _ _ rfl
    | exact fun _ w => till_foldl _ w
    | split

theorem State.lastFault_keeps {z s : State} (h : Keeps z s) (c : Inflight) :
    Keeps z (State.lastFault s c) := by
  unfold State.lastFault
  try dsimp only
  iterate 12 all_goals try first
    | with_reducible exact h
    | with_reducible apply State.failBank_keeps
    | with_reducible apply State.failAfter_keeps
    | with_reducible apply Keeps.ite
    | exact fun _ w => w
    | exact fun _ w => Memory.wf_write _ _ w
    | exact fun _ w => Memory.wf_writeN _ _ w
    | exact fun _ w => sparseFrom_set _ _ (Nat.zero_le _) w
    | exact fun _ w => Spad.fixWord_mem _ w
    | exact fun _ w => Spad.fixWord_synd _ w
    | exact fun _ w => mergeBytes_wf _ w
    | exact fun _ _ => rfl
    | exact fun _ _ => sparseFrom_foldl _ _ _ rfl
    | exact fun _ w => till_foldl _ w
    | split

theorem State.rollSetEffect_keeps {z s : State} (h : Keeps z s)  :
    Keeps z (State.rollSetEffect s) := by
  unfold State.rollSetEffect
  try dsimp only
  iterate 12 all_goals try first
    | with_reducible exact h
    | with_reducible apply State.setRoll_keeps
    | with_reducible apply State.modInflight_keeps
    | with_reducible apply Keeps.ite
    | exact fun _ w => w
    | exact fun _ w => Memory.wf_write _ _ w
    | exact fun _ w => Memory.wf_writeN _ _ w
    | exact fun _ w => sparseFrom_set _ _ (Nat.zero_le _) w
    | exact fun _ w => Spad.fixWord_mem _ w
    | exact fun _ w => Spad.fixWord_synd _ w
    | exact fun _ w => mergeBytes_wf _ w
    | exact fun _ _ => rfl
    | exact fun _ _ => sparseFrom_foldl _ _ _ rfl
    | exact fun _ w => till_foldl _ w
    | split

theorem State.rollWatchdog_keeps {z s : State} (h : Keeps z s) (tag : W16) :
    Keeps z (State.rollWatchdog s tag) := by
  unfold State.rollWatchdog
  try dsimp only
  iterate 12 all_goals try first
    | with_reducible exact h
    | with_reducible apply State.modRoll_keeps
    | with_reducible apply State.modClaim_keeps
    | with_reducible apply State.failAfter_keeps
    | with_reducible apply State.modOut_keeps
    | with_reducible apply State.log_keeps
    | with_reducible apply Keeps.ite
    | split

theorem State.combine_keeps {z s : State} (h : Keeps z s) (c : Inflight) (m : Cmd) :
    Keeps z (State.combine s c m) := by
  unfold State.combine
  try dsimp only
  iterate 6 all_goals try first
    | with_reducible exact h
    | with_reducible apply State.modSt_keeps
    | with_reducible apply Keeps.ite
    | exact fun _ w => w

theorem State.readPre_keeps {z s : State} (h : Keeps z s) (c : Inflight) :
    Keeps z (State.readPre s c) := by
  unfold State.readPre
  try dsimp only
  iterate 12 all_goals try first
    | with_reducible exact h
    | with_reducible apply State.modInflight_keeps
    | with_reducible apply State.codeEvent_keeps
    | with_reducible apply Keeps.ite
    | (with_reducible refine Keeps.foldl ?_ ?_ _; intro _ _ h)

theorem State.failPre_keeps {z s : State} (h : Keeps z s) (c : Inflight) (e : Nat × Byte) :
    Keeps z (State.failPre s c e) := by
  unfold State.failPre
  try dsimp only
  iterate 12 all_goals try first
    | with_reducible exact h
    | with_reducible apply State.modInflight_keeps
    | with_reducible apply State.failAfter_keeps

theorem State.restartOne_keeps {z s : State} (h : Keeps z s) (y : Inflight) (n : Nat) : Keeps z (s.restartOne y n) := by
  unfold State.restartOne
  refine Keeps.ite (State.modInflight_keeps h _ _) ?_
  split
  · exact State.failPre_keeps h _ _
  · exact State.modInflight_keeps h _ _

theorem State.restartAll_keeps {z s : State} (h : Keeps z s) (young : List Inflight) (ask : Bool) :
    Keeps z (State.restartAll s young ask) := by
  unfold State.restartAll
  try dsimp only
  iterate 12 all_goals try first
    | with_reducible exact h
    | with_reducible apply State.restartOne_keeps
    | with_reducible apply State.modOut_keeps
    | with_reducible apply State.modStream_keeps
    | exact le_refl _
    | with_reducible apply Keeps.ite
    | (with_reducible refine Keeps.foldl ?_ ?_ _; intro _ _ h)

theorem State.restore_keeps {z s : State} (h : Keeps z s) (x1 : List Inflight) :
    Keeps z (State.restore s x1) := by
  induction x1 generalizing s  with
  | nil =>
    unfold State.restore
    try dsimp only
    iterate 12 all_goals try first
      | with_reducible exact h
  | cons a r ih =>
    unfold State.restore
    try dsimp only
    iterate 12 all_goals try first
      | with_reducible exact h
      | with_reducible apply ih
      | with_reducible apply State.modSt_keeps
      | with_reducible apply State.setLines_keeps
      | with_reducible apply Keeps.ite
      | (with_reducible refine Keeps.foldl ?_ ?_ _; intro _ _ h)
      | exact fun _ w => w

theorem State.readPres_keeps {z s : State} (h : Keeps z s) (cs : List Inflight) :
    Keeps z (State.readPres s cs).1 := by
  unfold State.readPres
  try dsimp only
  iterate 12 all_goals try first
    | with_reducible exact h
    | with_reducible apply State.readPre_keeps
    | with_reducible apply Keeps.ite
    | (with_reducible refine Keeps.foldl ?_ ?_ _; intro _ _ h)

theorem State.endBeats_keeps {z s : State} (h : Keeps z s) (y : Inflight) : Keeps z (s.endBeats y) := by
  unfold State.endBeats
  refine Keeps.ite h (Keeps.ite (State.modInflight_keeps h _ _) (Keeps.foldl (fun s _ h => ?_) h _))
  split
  · exact State.writeBeat_keeps h _
  · exact h

theorem State.undo_keeps {z s : State} (h : Keeps z s) (c : Inflight) (m : Cmd) : Keeps z (s.undo c m) := by
  have e (ys : List Inflight) : Keeps z (ys.foldl State.endBeats s) := Keeps.foldl (fun _ y h => State.endBeats_keeps h y) h ys
  unfold State.undo
  refine Keeps.ite ?_ (Keeps.ite h ?_)
  · exact State.restartAll_keeps (State.voidSettle_keeps (State.restore_keeps (State.readPres_keeps (e _) _) _) _ _) _ _
  · exact State.restartAll_keeps (State.restore_keeps (State.readPres_keeps (e _) _) _) _ _

theorem State.completeAll_keeps {z s : State} (h : Keeps z s) (c : Inflight) :
    Keeps z (State.completeAll s c) := by
  unfold State.completeAll
  try dsimp only
  iterate 3 all_goals try first
    | with_reducible exact h
    | with_reducible exact Keeps.draw h 1
    | with_reducible apply BeatAcc.segments_keeps
    | with_reducible apply BeatAcc.mergeBeat_keeps
    | with_reducible apply State.complete_keeps
    | with_reducible apply Keeps.ite
    | (with_reducible refine Keeps.foldl ?_ ?_ _; intro _ _ h)

theorem State.commandRetirement_keeps {z s : State} (h : Keeps z s)  :
    Keeps z (State.commandRetirement s) := by
  unfold State.commandRetirement
  try dsimp only
  iterate 12 all_goals try first
    | with_reducible exact h
    | with_reducible apply State.leave_keeps
    | with_reducible apply State.lastFault_keeps
    | with_reducible apply State.combine_keeps
    | with_reducible apply State.undo_keeps
    | with_reducible apply State.acquireAll_keeps
    | with_reducible apply State.retireEffect_keeps
    | with_reducible apply State.completeAll_keeps
    | with_reducible apply Keeps.ite
    | exact fun _ w => w
    | exact fun _ w => Memory.wf_write _ _ w
    | exact fun _ w => Memory.wf_writeN _ _ w
    | exact fun _ w => sparseFrom_set _ _ (Nat.zero_le _) w
    | exact fun _ w => Spad.fixWord_mem _ w
    | exact fun _ w => Spad.fixWord_synd _ w
    | exact fun _ w => mergeBytes_wf _ w
    | exact fun _ _ => rfl
    | exact fun _ _ => sparseFrom_foldl _ _ _ rfl
    | exact fun _ w => till_foldl _ w
    | split

theorem State.logClear_keeps {z s : State} (h : Keeps z s) (x1 : List Nat) :
    Keeps z (State.logClear s x1) := by
  induction x1 generalizing s  with
  | nil =>
    unfold State.logClear
    try dsimp only
    iterate 12 all_goals try first
      | with_reducible exact h
  | cons a r ih =>
    unfold State.logClear
    try dsimp only
    iterate 12 all_goals try first
      | with_reducible exact h
      | with_reducible apply ih
      | with_reducible apply State.logEccue_keeps

theorem State.scratchpadClearDone_keeps {z s : State} (h : Keeps z s) (failed : List Nat) :
    Keeps z (s.scratchpadClearDone failed) := by
  unfold State.scratchpadClearDone
  split
  · exact h
  · split
    · exact h
    · extract_lets bad s1 s2 s3
      have h1 : Keeps z s1 := State.modSpad_keeps (State.dropSteals_keeps (State.clearScratchpad_keeps (State.noteLongest_keeps h) _)) _
        (fun _ w => w) (fun _ w => w)
      have h2 : Keeps z s2 := State.modSt_keeps h1 _ (fun _ _ => rfl) (fun _ _ => rfl)
      have h3 : Keeps z s3 := State.logClear_keeps (State.modHealth_keeps h2 _) _
      split
      · exact Keeps.frame h3 rfl rfl rfl rfl rfl rfl rfl rfl rfl (le_refl _)
      · split
        · exact h3
        · exact State.modInflight_keeps h3 _ _

theorem State.accPresentation_keeps {z s : State} (h : Keeps z s) (beat : List (Option W32)) :
    Keeps z (State.accPresentation s beat) := by
  unfold State.accPresentation
  try dsimp only
  iterate 12 all_goals try first
    | with_reducible exact h
    | with_reducible apply State.bump_keeps
    | with_reducible apply State.modStream_keeps
    | exact le_refl _
    | with_reducible apply State.noteEpoch_keeps
    | with_reducible apply State.modInflight_keeps
    | with_reducible apply State.log_keeps
    | with_reducible apply Keeps.ite
    | split

theorem State.retireIfOldest_keeps {z s : State} (h : Keeps z s) (tag : W16) : Keeps z (s.retireIfOldest tag) :=
  Keeps.ite (State.commandRetirement_keeps h) h

theorem State.retireNow_keeps {z s : State} (h : Keeps z s) (tag : W16) : Keeps z (s.retireNow tag) :=
  State.retireIfOldest_keeps (State.endHolds_keeps (State.modInflight_keeps h _ _) _) _

theorem State.curveInstall_keeps {z s : State} (h : Keeps z s) : Keeps z (s.curveInstall) := by
  unfold State.curveInstall
  split
  · exact h
  · extract_lets m k img s1
    have h1 : Keeps z s1 := State.modSt_keeps h _ (fun _ w => w) (fun _ w => w)
    exact Keeps.ite h (State.retireNow_keeps (State.noteEpoch_keeps h1 _ _) _)

theorem State.curveSlotInvalidate_keeps {z s : State} (h : Keeps z s) : Keeps z (s.curveSlotInvalidate) := by
  unfold State.curveSlotInvalidate
  split
  · exact h
  · extract_lets ks s1
    have h1 : Keeps z s1 := State.modSt_keeps h _ (fun _ w => w) (fun _ w => w)
    exact Keeps.ite h (State.retireNow_keeps h1 _)

theorem State.waitgcRelease_keeps {z s : State} (h : Keeps z s)  :
    Keeps z (State.waitgcRelease s) := by
  unfold State.waitgcRelease
  try dsimp only
  iterate 12 all_goals try first
    | with_reducible exact h
    | with_reducible apply State.modInflight_keeps
    | with_reducible apply State.noteEpoch_keeps
    | with_reducible apply State.retireIfOldest_keeps
    | with_reducible apply State.log_keeps
    | with_reducible apply Keeps.ite
    | exact fun _ w => w
    | exact fun _ w => Memory.wf_write _ _ w
    | exact fun _ w => Memory.wf_writeN _ _ w
    | exact fun _ w => sparseFrom_set _ _ (Nat.zero_le _) w
    | exact fun _ w => Spad.fixWord_mem _ w
    | exact fun _ w => Spad.fixWord_synd _ w
    | exact fun _ w => mergeBytes_wf _ w
    | exact fun _ _ => rfl
    | exact fun _ _ => sparseFrom_foldl _ _ _ rfl
    | exact fun _ w => till_foldl _ w
    | split

theorem State.stopFaulted_keeps {z s : State} (h : Keeps z s) (tag : W16) : Keeps z (s.stopFaulted tag) :=
  Keeps.foldl (fun _ _ h => State.modInflight_keeps h _ _) h _

theorem State.startAgain_keeps {z s : State} (h : Keeps z s) (c : Inflight) : Keeps z (s.startAgain c) :=
  State.restartAll_keeps (State.restartOne_keeps (State.restore_keeps (State.readPres_keeps (State.stopFaulted_keeps h _) _) _) _ _) _ _

end Sys2Proof.Machine
end

