-- ==== Sys2Proof/Laws/KeepsPorts.lean ====
section
/-! SUPPORT. What the escrow port, the common side of the scratchpad, time, power, faults, management and resets keep: one lemma per operation. -/
namespace Sys2Proof.Machine
open Sys2Proof

/-! ### Ports -/

theorem State.spwAnswer_keeps {z s : State} (h : Keeps z s) (stat : BitVec 2) (data : List Byte) :
    Keeps z (State.spwAnswer s stat data) := by
  unfold State.spwAnswer
  try dsimp only
  iterate 3 all_goals try first
    | with_reducible exact h
    | with_reducible apply State.modOut_keeps

theorem State.claimEach_keeps {z s : State} (h : Keeps z s) (tag : W16) (x2 : List ClaimOp) :
    Keeps z (State.claimEach s tag x2).1 := by
  induction x2 generalizing s tag with
  | nil =>
    unfold State.claimEach
    try dsimp only
    iterate 3 all_goals try first
      | with_reducible exact h
  | cons a r ih =>
    unfold State.claimEach
    try dsimp only
    iterate 3 all_goals try first
      | with_reducible exact h
      | with_reducible apply ih
      | with_reducible apply State.claim_keeps

theorem State.answer_keeps {z s : State} (h : Keeps z s) (tag : W16) (roll : Bool) (a : Answer) (seqs : List W32) :
    Keeps z (State.answer s tag roll a seqs) := by
  unfold State.answer
  try dsimp only
  iterate 3 all_goals try first
    | with_reducible exact h
    | with_reducible apply State.modOut_keeps

theorem State.grantAcquire_keeps {z s : State} (h : Keeps z s) (tag : W16) :
    Keeps z (State.grantAcquire s tag) := by
  unfold State.grantAcquire
  try dsimp only
  iterate 6 all_goals try first
    | with_reducible exact h
    | refine State.acquire_keeps ?_ (by assumption)
    | with_reducible apply State.answer_keeps
    | with_reducible apply Keeps.ite
    | split

theorem State.escpv_keeps {z s : State} (h : Keeps z s) (tag : W16) (engine : Nat) (case : Nat) (addr : Nat) :
    Keeps z (State.escpv s tag engine case addr) := by
  unfold State.escpv
  try dsimp only
  iterate 3 all_goals try first
    | with_reducible exact h
    | with_reducible apply State.log_keeps

theorem State.refuseEscpv_keeps {z s : State} (h : Keeps z s) (tag : W16) (roll : Bool) (engine : Nat) (case : Nat) (addr : Nat) :
    Keeps z (State.refuseEscpv s tag roll engine case addr) := by
  unfold State.refuseEscpv
  try dsimp only
  iterate 3 all_goals try first
    | with_reducible exact h
    | with_reducible apply State.answer_keeps
    | with_reducible apply State.escpv_keeps

theorem State.rollAcquire_keeps {z s : State} (h : Keeps z s) (tag : W16) (roll : BitVec 4) (seq : W32) :
    Keeps z (State.rollAcquire s tag roll seq) := by
  unfold State.rollAcquire
  try dsimp only
  iterate 12 all_goals try first
    | with_reducible exact h
    | with_reducible apply State.refuseEscpv_keeps
    | refine State.acquire_keeps ?_ (by assumption)
    | with_reducible apply State.answer_keeps
    | with_reducible apply State.modClaim_keeps
    | with_reducible apply Keeps.ite
    | split

theorem State.portRead_keeps {z s : State} (h : Keeps z s) (port : Nat) (tag : W16) (addr : Nat) (n : Nat) :
    Keeps z (State.portRead s port tag addr n).1 := by
  unfold State.portRead
  try dsimp only
  iterate 12 all_goals try first
    | with_reducible exact h
    | with_reducible apply State.checkWords_keeps
    | with_reducible apply State.logEccue_keeps
    | with_reducible apply Keeps.ite
    | exact fun _ w => w
    | exact fun _ w => Memory.wf_write _ _ w
    | exact fun _ w => Memory.wf_writeN _ _ w
    | exact fun _ w => sparseFrom_set _ _ (Nat.zero_le _) w
    | exact fun _ w => Spad.fixWord_mem _ w
    | exact fun _ w => Spad.fixWord_synd _ w
    | exact fun _ w => mergeBytes_wf _ w
    | exact fun _ _ => rfl
    | exact fun _ _ => sparseFrom_foldl _ _ _ rfl
    | exact fun _ w => till_foldl _ w
    | split

theorem State.correctionWriteback_keeps {z s : State} (h : Keeps z s)  :
    Keeps z (State.correctionWriteback s) := by
  unfold State.correctionWriteback
  try dsimp only
  iterate 12 all_goals try first
    | with_reducible exact h
    | with_reducible apply State.modSpad_keeps
    | with_reducible apply State.logEccue_keeps
    | with_reducible apply State.uncorrectable_keeps
    | with_reducible apply Keeps.ite
    | exact fun _ w => w
    | exact fun _ w => Memory.wf_write _ _ w
    | exact fun _ w => Memory.wf_writeN _ _ w
    | exact fun _ w => sparseFrom_set _ _ (Nat.zero_le _) w
    | exact fun _ w => Spad.fixWord_mem _ w
    | exact fun _ w => Spad.fixWord_synd _ w
    | exact fun _ w => mergeBytes_wf _ w
    | exact fun _ _ => rfl
    | exact fun _ _ => sparseFrom_foldl _ _ _ rfl
    | exact fun _ w => till_foldl _ w
    | split

theorem State.retirementReport_keeps {z s : State} (h : Keeps z s) (tag : W16) :
    Keeps z (State.retirementReport s tag) := by
  unfold State.retirementReport
  try dsimp only
  iterate 6 all_goals try first
    | with_reducible exact h
    | (with_reducible apply State.modEscrow_filter_keeps; rotate_left; exact rfl)
    | with_reducible apply State.dropClaims_keeps
    | with_reducible apply State.escpv_keeps
    | with_reducible apply Keeps.ite

theorem State.spnAnswer_keeps {z s : State} (h : Keeps z s) (stat : BitVec 2) (data : W64) :
    Keeps z (State.spnAnswer s stat data) := by
  unfold State.spnAnswer
  try dsimp only
  iterate 3 all_goals try first
    | with_reducible exact h
    | with_reducible apply State.modOut_keeps

theorem State.grantDecl_keeps {z s : State} (h : Keeps z s) (tag : W16) (engine : BitVec 3) (boxes : List BoxOp) (claims : List ClaimOp) (arrived : Nat)
    (w : s.escrowHolds (boxesOf boxes) = false) : Keeps z (State.grantDecl s tag engine boxes claims arrived) := by
  unfold State.grantDecl
  extract_lets s1 s2 t
  have h1 : Keeps z s1 := State.modEscrow_keeps h _ rfl
  split
  · exact State.refuseEscpv_keeps h1 _ _ _ _ _
  split
  · exact State.refuseEscpv_keeps h1 _ _ _ _ _
  · refine State.answer_keeps (State.claimEach_keeps ?_ _ _) _ _ _ _
    exact State.modEscrow_keeps (State.enter_keeps h1 _ _ _ w) _ rfl

/-- A declaration that nothing holds stands in no hazard. -/
theorem State.declHeld_room {s : State} {boxes : List BoxOp} {claims : List ClaimOp} (e : s.declHeld boxes claims = none) :
    s.escrowHolds (boxesOf boxes) = false := by
  unfold State.declHeld at e
  split_ifs at e with _ _ k
  exact (Bool.not_eq_true _).mp k

theorem State.escrowDeclaration_keeps {z s : State} (h : Keeps z s) (tag : W16) (engine : BitVec 3) (boxes : List BoxOp) (claims : List ClaimOp) :
    Keeps z (State.escrowDeclaration s tag engine boxes claims) := by
  unfold State.escrowDeclaration
  extract_lets first
  split
  · exact h
  split
  · exact State.answer_keeps h _ _ _ _
  split
  · exact State.refuseEscpv_keeps h _ _ _ _ _
  split
  · exact State.answer_keeps (State.log_keeps h _ _ _ _) _ _ _ _
  split
  · exact State.refuseEscpv_keeps h _ _ _ _ _
  split
  · next e =>
    split at e
    · exact State.grantDecl_keeps h _ _ _ _ _ (State.declHeld_room e)
    · cases e
  · exact State.answer_keeps (State.modStream_keeps h _ (le_refl _)) _ _ _ _

theorem State.portRange_keeps {z s : State} (h : Keeps z s) (port : Nat) (tag : W16) (addr : Nat) :
    Keeps z (State.portRange s port tag addr) := by
  unfold State.portRange
  try dsimp only
  iterate 3 all_goals try first
    | with_reducible exact h
    | with_reducible apply State.log_keeps

theorem State.nAccess_keeps {z s : State} (h : Keeps z s) (write : Bool) (word : BitVec 24) (be : Byte) (data : W64) :
    Keeps z (State.nAccess s write word be data) := by
  unfold State.nAccess
  try dsimp only
  iterate 12 all_goals try first
    | with_reducible exact h
    | with_reducible apply State.modSpad_keeps
    | with_reducible apply State.spnAnswer_keeps
    | with_reducible apply State.portRange_keeps
    | with_reducible apply State.writeBytes_keeps
    | with_reducible apply State.portRead_keeps
    | with_reducible apply Keeps.ite
    | exact fun _ w => w
    | split

theorem State.grant_keeps {z s : State} (h : Keeps z s) (tag : W16) : Keeps z (State.grant s tag) := by
  unfold State.grant
  split
  · exact h
  split
  · split
    · split
      · exact State.answer_keeps (State.modEscrow_keeps (State.modStream_keeps h _ (le_refl _)) _ rfl) _ _ _ _
      split
      · next e => exact State.grantDecl_keeps (State.modStream_keeps h _ (le_refl _)) _ _ _ _ _ (State.declHeld_room (s := s) e)
      · exact State.modStream_keeps h _ (le_refl _)
    · exact State.grantAcquire_keeps h _
  · exact State.grantAcquire_keeps h _

theorem State.rollRelease_keeps {z s : State} (h : Keeps z s) (tag : W16) (roll : BitVec 4) (seq : W32) :
    Keeps z (State.rollRelease s tag roll seq) := by
  unfold State.rollRelease
  try dsimp only
  iterate 12 all_goals try first
    | with_reducible exact h
    | with_reducible apply State.refuseEscpv_keeps
    | with_reducible apply State.modClaim_keeps
    | with_reducible apply State.answer_keeps
    | with_reducible apply State.settleTail_keeps
    | with_reducible apply Keeps.ite
    | exact fun _ w => w
    | exact fun _ w => Memory.wf_write _ _ w
    | exact fun _ w => Memory.wf_writeN _ _ w
    | exact fun _ w => sparseFrom_set _ _ (Nat.zero_le _) w
    | exact fun _ w => Spad.fixWord_mem _ w
    | exact fun _ w => Spad.fixWord_synd _ w
    | exact fun _ w => mergeBytes_wf _ w
    | exact fun _ _ => rfl
    | exact fun _ _ => sparseFrom_foldl _ _ _ rfl
    | exact fun _ w => till_foldl _ w
    | split

theorem State.wAccess_keeps {z s : State} (h : Keeps z s) (write : Bool) (line : Nat) (tag : W16) (data : List Byte) :
    Keeps z (State.wAccess s write line tag data) := by
  unfold State.wAccess
  try dsimp only
  iterate 12 all_goals try first
    | with_reducible exact h
    | with_reducible apply State.modSpad_keeps
    | with_reducible apply State.spwAnswer_keeps
    | with_reducible apply State.portRange_keeps
    | with_reducible apply State.escpv_keeps
    | with_reducible apply State.writeBytes_keeps
    | with_reducible apply State.portRead_keeps
    | with_reducible apply Keeps.ite
    | exact fun _ w => w
    | exact fun _ w => Memory.wf_write _ _ w
    | exact fun _ w => Memory.wf_writeN _ _ w
    | exact fun _ w => sparseFrom_set _ _ (Nat.zero_le _) w
    | exact fun _ w => Spad.fixWord_mem _ w
    | exact fun _ w => Spad.fixWord_synd _ w
    | exact fun _ w => mergeBytes_wf _ w
    | exact fun _ _ => rfl
    | exact fun _ _ => sparseFrom_foldl _ _ _ rfl
    | exact fun _ w => till_foldl _ w
    | split

theorem State.forcedScrubSteal_keeps {z s : State} (h : Keeps z s) :
    Keeps z (State.forcedScrubSteal s) := by
  unfold State.forcedScrubSteal
  try dsimp only
  iterate 6 all_goals try first
    | with_reducible exact h
    | with_reducible apply State.modSpad_keeps
    | with_reducible apply State.scrubBanks_keeps
    | with_reducible apply State.modHealth_keeps
    | with_reducible apply Keeps.ite
    | exact fun _ w => w

theorem State.rollPublish_keeps {z s : State} (h : Keeps z s) (tag : W16) (roll : BitVec 4) (seq : W32) :
    Keeps z (State.rollPublish s tag roll seq) := by
  unfold State.rollPublish
  try dsimp only
  iterate 6 all_goals try first
    | with_reducible exact h
    | with_reducible apply State.refuseEscpv_keeps
    | with_reducible apply State.answer_keeps
    | with_reducible apply State.complete_keeps
    | with_reducible apply Keeps.ite
    | split

theorem State.guardedNRequest_keeps {z s : State} (h : Keeps z s) :
    Keeps z (State.guardedNRequest s) := by
  unfold State.guardedNRequest
  try dsimp only
  iterate 6 all_goals try first
    | with_reducible exact h
    | with_reducible apply State.modSpad_keeps
    | with_reducible apply Keeps.ite
    | exact fun _ w => w
    | split

theorem State.idleScrub_keeps {z s : State} (h : Keeps z s) (bank : Nat) :
    Keeps z (State.idleScrub s bank) := by
  unfold State.idleScrub
  try dsimp only
  iterate 12 all_goals try first
    | with_reducible exact h
    | with_reducible apply State.scrubBanks_keeps
    | with_reducible apply Keeps.ite

theorem State.rollReport_keeps {z s : State} (h : Keeps z s) (sop : BitVec 2) (tag : W16) (roll : BitVec 4) (seq : W32) :
    Keeps z (State.rollReport s sop tag roll seq) := by
  unfold State.rollReport
  try dsimp only
  iterate 12 all_goals try first
    | with_reducible exact h
    | with_reducible apply State.rollAcquire_keeps
    | with_reducible apply State.rollPublish_keeps
    | with_reducible apply State.rollRelease_keeps
    | with_reducible apply State.answer_keeps
    | with_reducible apply Keeps.ite
    | exact fun _ w => w
    | exact fun _ w => Memory.wf_write _ _ w
    | exact fun _ w => Memory.wf_writeN _ _ w
    | exact fun _ w => sparseFrom_set _ _ (Nat.zero_le _) w
    | exact fun _ w => Spad.fixWord_mem _ w
    | exact fun _ w => Spad.fixWord_synd _ w
    | exact fun _ w => mergeBytes_wf _ w
    | exact fun _ _ => rfl
    | exact fun _ _ => sparseFrom_foldl _ _ _ rfl
    | exact fun _ w => till_foldl _ w
    | split

/-! ### Time -/

theorem State.fclkChange_keeps {z s : State} (h : Keeps z s) (mhz : BitVec 12) :
    Keeps z (State.fclkChange s mhz) := by
  unfold State.fclkChange
  try dsimp only
  iterate 3 all_goals try first
    | with_reducible exact h
    | with_reducible apply State.modTb_keeps

theorem State.syncPulseMissing_keeps {z s : State} (h : Keeps z s) :
    Keeps z (State.syncPulseMissing s) := by
  unfold State.syncPulseMissing
  try dsimp only
  iterate 3 all_goals try first
    | with_reducible exact h
    | with_reducible apply State.modTb_keeps
    | with_reducible apply Keeps.ite

theorem State.pulse_keeps {z s : State} (h : Keeps z s) (count : Gc) :
    Keeps z (State.pulse s count) := by
  unfold State.pulse
  try dsimp only
  iterate 12 all_goals try first
    | with_reducible exact h
    | with_reducible apply State.modTb_keeps
    | with_reducible apply State.note_keeps
    | with_reducible apply State.log_keeps
    | with_reducible apply Keeps.ite

theorem State.tsync_keeps {z s : State} (h : Keeps z s) (count : Gc) : Keeps z (s.tsync count) := by
  unfold State.tsync
  extract_lets c s1 s2 s3 s4
  have h2 : Keeps z s2 := State.modSpad_keeps (State.modTb_keeps h _) _ (fun _ w => w) (fun _ w => w)
  have h4 : Keeps z s4 := State.modFt_keeps (State.modPw_keeps h2 _) _
  split
  · exact h4
  · exact Keeps.frame h4 rfl rfl rfl rfl rfl rfl rfl rfl rfl (le_refl _)

theorem State.syncPulse_keeps {z s : State} (h : Keeps z s) (count : Gc) :
    Keeps z (State.syncPulse s count) := by
  unfold State.syncPulse
  try dsimp only
  iterate 12 all_goals try first
    | with_reducible exact h
    | with_reducible apply State.modTb_keeps
    | with_reducible apply State.pulse_keeps
    | with_reducible apply State.tsync_keeps
    | with_reducible apply State.linkUp_keeps
    | with_reducible apply Keeps.ite

theorem State.receiveWaiting_keeps {z s : State} (h : Keeps z s) :
    Keeps z (State.receiveWaiting s) := by
  unfold State.receiveWaiting
  try dsimp only
  iterate 6 all_goals try first
    | with_reducible exact h
    | with_reducible apply State.receive_keeps
    | with_reducible apply Keeps.ite
    | split

theorem State.epochSwitch_keeps {z s : State} (h : Keeps z s) :
    Keeps z (State.epochSwitch s) := by
  unfold State.epochSwitch
  try dsimp only
  iterate 6 all_goals try first
    | with_reducible exact h
    | with_reducible apply State.receiveWaiting_keeps
    | with_reducible apply State.modProv_keeps
    | with_reducible apply Keeps.ite
    | exact fun _ w => w
    | split
    | (refine Keeps.frame h rfl ?_ rfl rfl rfl rfl rfl rfl rfl (le_refl _); dsimp only; done)

theorem State.frozenStateExit_keeps {z s : State} (h : Keeps z s) :
    Keeps z (State.frozenStateExit s) := by
  unfold State.frozenStateExit
  try dsimp only
  iterate 3 all_goals try first
    | with_reducible exact h
    | with_reducible apply State.modTb_keeps
    | with_reducible apply Keeps.ite

/-! ### Energy -/

theorem State.readSensors_keeps {z s : State} (h : Keeps z s) (t0 : W16) (t1 : W16) :
    Keeps z (State.readSensors s t0 t1) := by
  unfold State.readSensors
  try dsimp only
  iterate 6 all_goals try first
    | with_reducible exact h
    | with_reducible apply State.modPw_keeps
    | with_reducible apply State.log_keeps
    | with_reducible apply Keeps.ite

theorem State.pwGrant_keeps {z s : State} (h : Keeps z s) :
    Keeps z (State.pwGrant s) := by
  unfold State.pwGrant
  try dsimp only
  iterate 3 all_goals try first
    | with_reducible exact h
    | with_reducible apply State.modPw_keeps
    | with_reducible apply Keeps.ite

theorem State.idleTimeout_keeps {z s : State} (h : Keeps z s) :
    Keeps z (State.idleTimeout s) := by
  unfold State.idleTimeout
  try dsimp only
  iterate 6 all_goals try first
    | with_reducible exact h
    | with_reducible apply State.modPw_keeps
    | with_reducible apply Keeps.ite

theorem State.setBase_keeps {z s : State} (h : Keeps z s) :
    Keeps z (State.setBase s) := by
  unfold State.setBase
  try dsimp only
  iterate 6 all_goals try first
    | with_reducible exact h
    | with_reducible apply State.modPw_keeps
    | with_reducible apply State.logLimited_keeps
    | with_reducible apply Keeps.ite

theorem State.powerDownStep_keeps {z s : State} (h : Keeps z s) :
    Keeps z (State.powerDownStep s) := by
  unfold State.powerDownStep
  try dsimp only
  iterate 6 all_goals try first
    | with_reducible exact h
    | with_reducible apply State.modPw_keeps
    | with_reducible apply Keeps.ite
    | split

theorem State.enterHalt_keeps {z s : State} (h : Keeps z s) :
    Keeps z (State.enterHalt s) := by
  unfold State.enterHalt
  try dsimp only
  iterate 3 all_goals try first
    | with_reducible exact h
    | with_reducible apply State.modPw_keeps
    | with_reducible apply State.log_keeps

theorem State.leaveHalt_keeps {z s : State} (h : Keeps z s)  :
    Keeps z (State.leaveHalt s) := by
  unfold State.leaveHalt
  try dsimp only
  iterate 12 all_goals try first
    | with_reducible exact h
    | with_reducible apply State.dropSteals_keeps
    | with_reducible apply State.modPw_keeps
    | with_reducible apply State.log_keeps

theorem State.setThermal_keeps {z s : State} (h : Keeps z s) :
    Keeps z (State.setThermal s) := by
  unfold State.setThermal
  try dsimp only
  iterate 6 all_goals try first
    | with_reducible exact h
    | with_reducible apply State.enterHalt_keeps
    | with_reducible apply State.leaveHalt_keeps
    | with_reducible apply State.modPw_keeps

theorem State.startBreach_keeps {z s : State} (h : Keeps z s) (floor : Nat) (level : Nat) :
    Keeps z (State.startBreach s floor level) := by
  unfold State.startBreach
  try dsimp only
  iterate 3 all_goals try first
    | with_reducible exact h
    | with_reducible apply State.modPw_keeps
    | with_reducible apply State.log_keeps

theorem State.setIssue_keeps {z s : State} (h : Keeps z s) :
    Keeps z (State.setIssue s) := by
  unfold State.setIssue
  try dsimp only
  iterate 6 all_goals try first
    | with_reducible exact h
    | with_reducible apply State.modTn_keeps
    | with_reducible apply State.modPw_keeps
    | with_reducible apply State.endBreach_keeps
    | with_reducible apply State.startBreach_keeps
    | with_reducible apply Keeps.ite
    | split

theorem State.setHalt_keeps {z s : State} (h : Keeps z s) (was : Nat) :
    Keeps z (State.setHalt s was) := by
  unfold State.setHalt
  try dsimp only
  iterate 12 all_goals try first
    | with_reducible exact h
    | with_reducible apply State.enterHalt_keeps
    | with_reducible apply State.leaveHalt_keeps
    | with_reducible apply Keeps.ite

theorem State.telemetrySample_keeps {z s : State} (h : Keeps z s) (t0 t1 : W16) (level : BitVec 3) :
    Keeps z (s.telemetrySample t0 t1 level) := by
  unfold State.telemetrySample
  split
  · exact h
  · extract_lets at_ was s1 s2 x s3 d s4
    have h2 : Keeps z s2 := Keeps.ite (State.modPw_keeps h _) (State.modPw_keeps (State.modPw_keeps h _) _)
    have h3 : Keeps z s3 := State.setThermal_keeps (State.readSensors_keeps h2 _ _)
    have h4 : Keeps z s4 := State.modPw_keeps h3 _
    exact State.setIssue_keeps (State.setHalt_keeps (State.setBase_keeps (h4.draw 1)) _)

theorem State.laneGroupPowerStep_keeps {z s : State} (h : Keeps z s) :
    Keeps z (State.laneGroupPowerStep s) := by
  unfold State.laneGroupPowerStep
  try dsimp only
  iterate 12 all_goals try first
    | with_reducible exact h
    | with_reducible exact Keeps.draw h 1
    | with_reducible apply BeatAcc.segments_keeps
    | with_reducible apply BeatAcc.mergeBeat_keeps
    | with_reducible apply State.modPw_keeps
    | with_reducible apply Keeps.ite
    | exact fun _ w => w
    | split
    | with_reducible apply Keeps.boot

/-! ### Faults -/

theorem State.countResidue_keeps {z s : State} (h : Keeps z s) :
    Keeps z (State.countResidue s) := by
  unfold State.countResidue
  try dsimp only
  iterate 3 all_goals try first
    | with_reducible exact h
    | with_reducible apply State.modFt_keeps

theorem State.unitLoss_keeps {z s : State} (h : Keeps z s) (cause : Byte) :
    Keeps z (State.unitLoss s cause) := by
  unfold State.unitLoss
  split
  · exact h
  · exact State.invalidateAll_keeps (State.modStream_keeps (State.modFt_keeps (State.log_keeps h _ _ _ _) _) _
      (le_of_eq (List.length_map _))) _

theorem State.failFaild_keeps {z s : State} (h : Keeps z s) (c : Inflight) (detail : List Byte) :
    Keeps z (State.failFaild s c detail) := by
  unfold State.failFaild
  try dsimp only
  iterate 12 all_goals try first
    | with_reducible exact h
    | with_reducible apply State.modFt_keeps
    | with_reducible apply State.modInflight_keeps
    | with_reducible apply State.failAfter_keeps

theorem State.mergeResidue_keeps {z s : State} (h : Keeps z s) (tag : W16) :
    Keeps z (State.mergeResidue s tag) := by
  unfold State.mergeResidue
  try dsimp only
  iterate 12 all_goals try first
    | with_reducible exact h
    | with_reducible apply State.countResidue_keeps
    | with_reducible apply State.unitLoss_keeps
    | with_reducible apply State.failFaild_keeps
    | with_reducible apply State.modInflight_keeps
    | with_reducible apply State.modFt_keeps
    | with_reducible apply State.noteEpoch_keeps
    | with_reducible apply State.log_keeps
    | with_reducible apply Keeps.ite
    | exact fun _ w => w
    | exact fun _ w => Memory.wf_write _ _ w
    | exact fun _ w => Memory.wf_writeN _ _ w
    | exact fun _ w => sparseFrom_set _ _ (Nat.zero_le _) w
    | exact fun _ w => Spad.fixWord_mem _ w
    | exact fun _ w => Spad.fixWord_synd _ w
    | exact fun _ w => mergeBytes_wf _ w
    | exact fun _ _ => rfl
    | exact fun _ _ => sparseFrom_foldl _ _ _ rfl
    | exact fun _ w => till_foldl _ w
    | split

theorem State.suspect_keeps {z s : State} (h : Keeps z s) (x : Suspect) :
    Keeps z (State.suspect s x) := by
  unfold State.suspect
  try dsimp only
  iterate 3 all_goals try first
    | with_reducible exact h
    | with_reducible apply State.modFt_keeps

theorem State.replay_keeps {z s : State} (h : Keeps z s) (tag : W16) (group : Nat) (lane : Nat) (logged : Bool) :
    Keeps z (State.replay s tag group lane logged) := by
  unfold State.replay
  try dsimp only
  iterate 12 all_goals try first
    | with_reducible exact h
    | with_reducible apply State.failFaild_keeps
    | with_reducible apply State.readPre_keeps
    | with_reducible apply State.failPre_keeps
    | with_reducible apply State.modFt_keeps
    | with_reducible apply State.startAgain_keeps
    | with_reducible apply State.noteEpoch_keeps
    | with_reducible apply State.log_keeps
    | with_reducible apply Keeps.ite
    | exact fun _ w => w
    | exact fun _ w => Memory.wf_write _ _ w
    | exact fun _ w => Memory.wf_writeN _ _ w
    | exact fun _ w => sparseFrom_set _ _ (Nat.zero_le _) w
    | exact fun _ w => Spad.fixWord_mem _ w
    | exact fun _ w => Spad.fixWord_synd _ w
    | exact fun _ w => mergeBytes_wf _ w
    | exact fun _ _ => rfl
    | exact fun _ _ => sparseFrom_foldl _ _ _ rfl
    | exact fun _ w => till_foldl _ w
    | split

theorem State.sharedResidue_keeps {z s : State} (h : Keeps z s) (cause : Byte) :
    Keeps z (State.sharedResidue s cause) := by
  unfold State.sharedResidue
  try dsimp only
  iterate 6 all_goals try first
    | with_reducible exact h
    | with_reducible apply State.countResidue_keeps
    | with_reducible apply State.unitLoss_keeps
    | with_reducible apply State.replay_keeps
    | with_reducible apply State.modFt_keeps
    | with_reducible apply Keeps.ite
    | split

theorem State.residueMismatch_keeps {z s : State} (h : Keeps z s) (site : ResidueSite) :
    Keeps z (State.residueMismatch s site) := by
  unfold State.residueMismatch
  try dsimp only
  iterate 6 all_goals try first
    | with_reducible exact h
    | with_reducible apply State.suspect_keeps
    | with_reducible apply State.countResidue_keeps
    | with_reducible apply State.sharedResidue_keeps
    | with_reducible apply State.mergeResidue_keeps
    | with_reducible apply Keeps.ite
    | split

theorem State.modGroup_keeps {z s : State} (h : Keeps z s) (g : Nat) (f : Group → Group) :
    Keeps z (State.modGroup s g f) := by
  unfold State.modGroup
  try dsimp only
  iterate 3 all_goals try first
    | with_reducible exact h
    | with_reducible apply State.modFt_keeps

theorem State.loseGroup_keeps {z s : State} (h : Keeps z s) (g : Nat) (cause : Byte) (logCause : Byte) :
    Keeps z (State.loseGroup s g cause logCause) := by
  unfold State.loseGroup
  try dsimp only
  iterate 6 all_goals try first
    | with_reducible exact h
    | with_reducible apply State.unitLoss_keeps
    | with_reducible apply State.modGroup_keeps
    | with_reducible apply State.log_keeps
    | with_reducible apply Keeps.ite

theorem State.checkerRotationStep_keeps {z s : State} (h : Keeps z s) :
    Keeps z (State.checkerRotationStep s) := by
  unfold State.checkerRotationStep
  try dsimp only
  iterate 3 all_goals try first
    | with_reducible exact h
    | with_reducible apply State.modFt_keeps
    | with_reducible apply Keeps.ite

theorem State.logLane_keeps {z s : State} (h : Keeps z s) (x : Suspect) (lane : Nat) (outcome : Nat) :
    Keeps z (State.logLane s x lane outcome) := by
  unfold State.logLane
  try dsimp only
  iterate 3 all_goals try first
    | with_reducible exact h
    | with_reducible apply State.log_keeps

theorem State.logRom_keeps {z s : State} (h : Keeps z s) (rom : Nat) (kind : Nat) :
    Keeps z (State.logRom s rom kind) := by
  unfold State.logRom
  try dsimp only
  iterate 3 all_goals try first
    | with_reducible exact h
    | with_reducible apply State.log_keeps

theorem State.romFault_keeps {z s : State} (h : Keeps z s) (rom : Nat) (kind : Nat) :
    Keeps z (State.romFault s rom kind) := by
  unfold State.romFault
  try dsimp only
  iterate 12 all_goals try first
    | with_reducible exact h
    | with_reducible apply State.modGroup_keeps
    | with_reducible apply State.expose_keeps
    | with_reducible apply State.logRom_keeps
    | with_reducible apply State.unitLoss_keeps
    | with_reducible apply State.log_keeps
    | with_reducible apply Keeps.ite

theorem State.romScanPass_keeps {z s : State} (h : Keeps z s) (mismatch : Option Nat) :
    Keeps z (State.romScanPass s mismatch) := by
  unfold State.romScanPass
  try dsimp only
  iterate 6 all_goals try first
    | with_reducible exact h
    | with_reducible apply State.modFt_keeps
    | with_reducible apply State.romFault_keeps
    | with_reducible apply Keeps.ite
    | split

theorem State.takeSpare_keeps {z s : State} (h : Keeps z s) (x : Suspect) (remap : Nat) (cause : Byte) :
    Keeps z (State.takeSpare s x remap cause) := by
  unfold State.takeSpare
  try dsimp only
  iterate 6 all_goals try first
    | with_reducible exact h
    | with_reducible apply State.modGroup_keeps
    | with_reducible apply State.note_keeps
    | with_reducible apply State.modFt_keeps

theorem State.laneOutcome_keeps {z s : State} (h : Keeps z s) (x : Suspect) (laneOk : Bool) (checkerOk : Bool) :
    Keeps z (State.laneOutcome s x laneOk checkerOk).1 := by
  unfold State.laneOutcome
  try dsimp only
  iterate 12 all_goals try first
    | with_reducible exact h
    | with_reducible apply State.logLane_keeps
    | with_reducible apply State.takeSpare_keeps
    | with_reducible apply State.loseGroup_keeps
    | with_reducible apply State.modGroup_keeps
    | with_reducible apply Keeps.ite
    | split

theorem State.tableRomParity_keeps {z s : State} (h : Keeps z s) (rom : Nat) :
    Keeps z (State.tableRomParity s rom) := by
  unfold State.tableRomParity
  try dsimp only
  iterate 12 all_goals try first
    | with_reducible exact h
    | with_reducible apply State.modFt_keeps
    | with_reducible apply State.romFault_keeps
    | with_reducible apply State.replay_keeps
    | with_reducible apply Keeps.ite
    | split

theorem State.lockstepMismatch_keeps {z s : State} (h : Keeps z s) (signals : W32) :
    Keeps z (State.lockstepMismatch s signals) := by
  unfold State.lockstepMismatch
  try dsimp only
  iterate 6 all_goals try first
    | with_reducible exact h
    | with_reducible apply State.modFt_keeps
    | with_reducible apply State.unitLoss_keeps
    | with_reducible apply State.log_keeps
    | with_reducible apply Keeps.ite

theorem State.laneTestComplete_keeps {z s : State} (h : Keeps z s) (laneOk : Bool) (checkerOk : Bool) :
    Keeps z (State.laneTestComplete s laneOk checkerOk) := by
  unfold State.laneTestComplete
  try dsimp only
  iterate 12 all_goals try first
    | with_reducible exact h
    | with_reducible apply State.laneOutcome_keeps
    | with_reducible apply State.modFt_keeps
    | with_reducible apply State.replay_keeps
    | with_reducible apply Keeps.ite
    | split

theorem State.checkerMismatch_keeps {z s : State} (h : Keeps z s) (g : BitVec 3) :
    Keeps z (State.checkerMismatch s g) := by
  unfold State.checkerMismatch
  try dsimp only
  iterate 6 all_goals try first
    | with_reducible exact h
    | with_reducible apply State.modFt_keeps
    | with_reducible apply State.suspect_keeps
    | with_reducible apply State.modGroup_keeps
    | with_reducible apply State.expose_keeps
    | with_reducible apply Keeps.ite

/-! ### Frames -/

theorem State.modPartner_keeps {z s : State} (h : Keeps z s) (eid : Option Byte) (f : Partner → Partner) :
    Keeps z (State.modPartner s eid f) := by
  unfold State.modPartner
  try dsimp only
  iterate 3 all_goals try first
    | with_reducible exact h
    | with_reducible apply State.modMg_keeps

theorem State.applyWrite_keeps {z s : State} (h : Keeps z s) (eid : Option Byte) (q : Request) (bytes : List Byte) (total : Nat) (one : Bool) :
    Keeps z (State.applyWrite s eid q bytes total one).1 := by
  unfold State.applyWrite
  try dsimp only
  iterate 3 all_goals try first
    | with_reducible exact h
    | with_reducible apply State.odWrite_keeps

theorem State.serveWrite_keeps {z s : State} (h : Keeps z s) (eid : Option Byte) (q : Request) :
    Keeps z (State.serveWrite s eid q).1 := by
  unfold State.serveWrite
  try dsimp only
  iterate 6 all_goals try first
    | with_reducible exact h
    | with_reducible apply State.modPartner_keeps
    | with_reducible apply State.applyWrite_keeps
    | with_reducible apply Keeps.ite
    | split

theorem State.transactionTimeout_keeps {z s : State} (h : Keeps z s) :
    Keeps z (State.transactionTimeout s) := by
  unfold State.transactionTimeout
  try dsimp only
  iterate 3 all_goals try first
    | with_reducible exact h
    | with_reducible apply State.modMg_keeps

theorem State.modRing_keeps {z s : State} (h : Keeps z s) (n : Nat) (f : EvRing → EvRing) : Keeps z (s.modRing n f) :=
  h.frame rfl rfl rfl rfl rfl rfl rfl rfl rfl (le_refl _)

theorem State.violation_keeps {z s : State} (h : Keeps z s) (eid : Option Byte) (tid : W16) (code : W16) :
    Keeps z (State.violation s eid tid code) := by
  unfold State.violation
  try dsimp only
  iterate 6 all_goals try first
    | with_reducible exact h
    | with_reducible apply State.modMg_keeps
    | with_reducible apply State.modPartner_keeps
    | with_reducible apply State.log_keeps
    | with_reducible apply Keeps.ite

theorem State.discardWrite_keeps {z s : State} (h : Keeps z s) :
    Keeps z (State.discardWrite s) := by
  unfold State.discardWrite
  try dsimp only
  iterate 3 all_goals try first
    | with_reducible exact h
    | with_reducible apply State.violation_keeps
    | with_reducible apply State.modMg_keeps

theorem State.serveRead_keeps {z s : State} (h : Keeps z s) (eid : Option Byte) (q : Request) :
    Keeps z (State.serveRead s eid q).1 := by
  unfold State.serveRead
  try dsimp only
  iterate 6 all_goals try first
    | with_reducible exact h
    | with_reducible apply State.odRead_keeps
    | with_reducible apply State.modPartner_keeps
    | with_reducible apply Keeps.ite
    | split

theorem State.serve_keeps {z s : State} (h : Keeps z s) (eid : Option Byte) (frame : List Byte) :
    Keeps z (State.serve s eid frame).1 := by
  unfold State.serve
  try dsimp only
  iterate 12 all_goals try first
    | with_reducible exact h
    | with_reducible apply State.countAccess_keeps
    | with_reducible apply State.modMg_keeps
    | with_reducible apply State.violation_keeps
    | with_reducible apply State.serveRead_keeps
    | with_reducible apply State.serveWrite_keeps
    | with_reducible apply State.modPartner_keeps
    | with_reducible apply Keeps.ite
    | split

theorem State.doorbell_keeps {z s : State} (h : Keeps z s) (value : W32) : Keeps z (s.doorbell value) :=
  Keeps.ite h (Keeps.ite (State.discardWrite_keeps h) (Keeps.ite h (State.modMg_keeps h _)))

theorem State.eventWriteDone_keeps {z s : State} (h : Keeps z s) (failed : Bool) :
    Keeps z (State.eventWriteDone s failed) := by
  unfold State.eventWriteDone
  try dsimp only
  iterate 3 all_goals try first
    | with_reducible exact h
    | with_reducible apply State.modRing_keeps
    | with_reducible apply Keeps.ite
    | exact fun _ w => w
    | split
    | (refine Keeps.frame h rfl ?_ rfl rfl rfl rfl rfl rfl rfl (le_refl _); dsimp only; done)

theorem State.driverWindowWrite_keeps {z s : State} (h : Keeps z s) (offset : BitVec 10) (value : W32) :
    Keeps z (State.driverWindowWrite s offset value) := by
  unfold State.driverWindowWrite
  try dsimp only
  iterate 6 all_goals try first
    | with_reducible exact h
    | with_reducible apply State.discardWrite_keeps
    | with_reducible apply State.modMg_keeps
    | with_reducible apply Keeps.ite

theorem State.eventPost_keeps {z s : State} (h : Keeps z s) : Keeps z s.eventPost := by
  unfold State.eventPost
  split
  · exact h
  · extract_lets r w s1
    have h1 : Keeps z s1 := State.modRing_keeps h _ _
    split
    · exact h
    · split
      · exact State.modRing_keeps h _ _
      · refine State.modOut_keeps ?_ _
        exact Keeps.frame h1 rfl rfl rfl rfl rfl rfl rfl rfl rfl (le_refl _)

theorem State.answerFrame_keeps {z s : State} (h : Keeps z s) (eid : Byte) (frame : List Byte) :
    Keeps z (State.answerFrame s eid frame) := by
  unfold State.answerFrame
  try dsimp only
  iterate 12 all_goals try first
    | with_reducible exact h
    | with_reducible apply State.serve_keeps
    | with_reducible apply State.modOut_keeps

theorem State.answerDriver_keeps {z s : State} (h : Keeps z s) (frame : List Byte) : Keeps z (s.answerDriver frame) := by
  unfold State.answerDriver
  exact State.modOut_keeps (State.modMg_keeps (State.serve_keeps h _ _) _) _

theorem State.queueFullAnswer_keeps {z s : State} (h : Keeps z s) (eid : Byte) (frame : List Byte) :
    Keeps z (State.queueFullAnswer s eid frame) := by
  unfold State.queueFullAnswer
  try dsimp only
  iterate 12 all_goals try first
    | with_reducible exact h
    | with_reducible apply State.modOut_keeps
    | with_reducible apply State.modMg_keeps

theorem State.frame_keeps {z s : State} (h : Keeps z s) (eid : Byte) (frame : List Byte) :
    Keeps z (State.frame s eid frame) := by
  unfold State.frame
  try dsimp only
  iterate 12 all_goals try first
    | with_reducible exact h
    | with_reducible apply State.answerFrame_keeps
    | with_reducible apply State.modMg_keeps
    | with_reducible apply State.queueFullAnswer_keeps
    | with_reducible apply Keeps.ite

theorem State.frameRead_keeps {z s : State} (h : Keeps z s) (eid : Byte) (frame : List Byte) :
    Keeps z (State.frameRead s eid frame) := by
  unfold State.frameRead
  try dsimp only
  iterate 3 all_goals try first
    | with_reducible exact h
    | with_reducible apply State.frame_keeps

theorem State.frameWrite_keeps {z s : State} (h : Keeps z s) (eid : Byte) (frame : List Byte) :
    Keeps z (State.frameWrite s eid frame) := by
  unfold State.frameWrite
  try dsimp only
  iterate 3 all_goals try first
    | with_reducible exact h
    | with_reducible apply State.frame_keeps

theorem State.release_keeps {z s : State} (h : Keeps z s) (value : W32) :
    Keeps z (State.release s value) := by
  unfold State.release
  try dsimp only
  iterate 3 all_goals try first
    | with_reducible exact h
    | with_reducible apply State.modMg_keeps
    | with_reducible apply Keeps.ite

theorem State.frameCancel_keeps {z s : State} (h : Keeps z s) (eid : Byte) (frame : List Byte) :
    Keeps z (State.frameCancel s eid frame) := by
  unfold State.frameCancel
  try dsimp only
  iterate 3 all_goals try first
    | with_reducible exact h
    | with_reducible apply State.frame_keeps

theorem State.rateWindow_keeps {z s : State} (h : Keeps z s) :
    Keeps z (State.rateWindow s) := by
  unfold State.rateWindow
  try dsimp only
  iterate 3 all_goals try first
    | with_reducible exact h
    | with_reducible apply State.modMg_keeps
    | with_reducible apply Keeps.ite

/-! ### Boot -/

theorem Keeps.of {z s t : State} (h : Keeps z s) (e1 : t.pending = s.pending) (e2 : t.fixed.spadMiB = s.fixed.spadMiB)
    (e3 : s.free ≤ t.free) (e4 : t.spad.mem = s.spad.mem) (e5 : t.spad.synd = s.spad.synd) (e6 : t.st.till = s.st.till)
    (e7 : t.st.rowTab = s.st.rowTab) (e8 : t.ledger.entries = s.ledger.entries) (e9 : t.escrow = s.escrow)
    (e10 : t.stream = s.stream) : Keeps z t :=
  h.trans ⟨e1, e2, e3, by simp only [State.inv_iff, e4, e5, e6, e7, e8, e9, e10]; exact id⟩

theorem State.shiftOut_keeps {z s : State} (h : Keeps z s) (ws : List (BitVec 32)) :
    Keeps z (State.shiftOut s ws) := by
  unfold State.shiftOut
  try dsimp only
  iterate 3 all_goals try first
    | with_reducible exact h
    | with_reducible apply State.modOut_keeps

theorem State.zeroFill_keeps {z s : State} (h : Keeps z s) : Keeps z s.zeroFill := by
  have k : Keeps z { s.clearScratchpad [] with setBuf := [] } :=
    (State.clearScratchpad_keeps h []).frame rfl rfl rfl rfl rfl rfl rfl rfl rfl (le_refl _)
  exact State.modSt_keeps k _ (fun _ _ => rfl) (fun _ _ => rfl)

theorem State.testWrite_keeps {z s : State} (h : Keeps z s) (a : Nat) (w : W32) :
    Keeps z (State.testWrite s a w) := by
  unfold State.testWrite
  try dsimp only
  iterate 12 all_goals try first
    | with_reducible exact h
    | with_reducible apply State.modSpad_keeps
    | with_reducible apply State.modSt_keeps
    | with_reducible apply Keeps.ite
    | exact fun _ w => w
    | exact fun _ w => Memory.wf_write _ _ w
    | exact fun _ w => Memory.wf_writeN _ _ w
    | exact fun _ w => sparseFrom_set _ _ (Nat.zero_le _) w

theorem State.ijtagAccess_keeps {z s : State} (h : Keeps z s) (i : Instrument) : Keeps z (s.ijtagAccess i) := by
  unfold State.ijtagAccess
  extract_lets f t
  have k : Keeps z t := h.frame rfl rfl rfl rfl rfl rfl rfl rfl rfl (le_refl _)
  split
  · exact k
  split
  · split
    · exact k.frame rfl rfl rfl rfl rfl rfl rfl rfl rfl (le_refl _)
    · exact k
  · exact State.shiftOut_keeps (k.draw 1) _
  · exact State.shiftOut_keeps (k.draw 1) _
  · exact State.shiftOut_keeps ((State.zeroFill_keeps k).draw 1) _
  · exact State.testWrite_keeps (State.shiftOut_keeps (k.draw 2) _) _ _
  · exact State.shiftOut_keeps k _

theorem State.idcode_keeps {z s : State} (h : Keeps z s) :
    Keeps z (State.idcode s) := by
  unfold State.idcode
  try dsimp only
  iterate 3 all_goals try first
    | with_reducible exact h
    | with_reducible apply State.shiftOut_keeps
    | with_reducible apply Keeps.ite
    | exact fun _ w => w
    | split
    | (refine Keeps.frame h rfl ?_ rfl rfl rfl rfl rfl rfl rfl (le_refl _); dsimp only; done)

theorem State.keyGeneration_keeps {z s : State} (h : Keeps z s) : Keeps z s.keyGeneration := by
  unfold State.keyGeneration
  extract_lets k s1 f o s2 s3
  have h2 : Keeps z s2 := Keeps.frame (State.drawKey_keeps h) rfl rfl rfl rfl rfl rfl rfl rfl rfl (le_refl _)
  have h3 : Keeps z s3 := State.modProv_keeps h2 _
  split
  · exact h
  · exact Keeps.frame h3 rfl rfl rfl rfl rfl rfl rfl rfl rfl (le_refl _)

theorem State.bypass_keeps {z s : State} (h : Keeps z s) (ir : Byte) :
    Keeps z (State.bypass s ir) := by
  unfold State.bypass
  try dsimp only
  iterate 3 all_goals try first
    | with_reducible exact h
    | with_reducible apply Keeps.ite
    | exact fun _ w => w
    | split
    | (refine Keeps.frame h rfl ?_ rfl rfl rfl rfl rfl rfl rfl (le_refl _); dsimp only; done)

theorem State.warmReset_keeps {z s : State} (h : Keeps z s) : Keeps z s.warmReset := by
  unfold State.warmReset
  extract_lets s1 e p s2 s3 s4 s5
  have h2 : Keeps z s2 := by
    have k1 : Keeps z { s1 with escrow := { p with entries := [], engines := [], order := [], sets := [] } } :=
      (State.clearContext_keeps h).escrow fun _ => ⟨by simp, rfl⟩
    exact (k1.stream (p := { waiting := [], inflight := [], refused := [], lastTag := noTag, claims := [], acc := none, lastStart := none }) (by simp)).frame
      rfl rfl rfl rfl rfl rfl rfl rfl rfl (le_refl _)
  split
  · exact h
  · exact State.invalidateAll_keeps (State.modProv_keeps (State.modFt_keeps (State.modTb_keeps h2 _) _) _) _

theorem State.warmStart_keeps {z s : State} (h : Keeps z s) (straps : Straps) :
    Keeps z (State.warmStart s straps) := by
  unfold State.warmStart
  try dsimp only
  iterate 6 all_goals try first
    | with_reducible exact h
    | with_reducible exact Keeps.draw h 1
    | with_reducible apply BeatAcc.segments_keeps
    | with_reducible apply BeatAcc.mergeBeat_keeps
    | with_reducible apply State.modSpad_keeps
    | with_reducible apply State.modPw_keeps
    | with_reducible apply Keeps.ite
    | exact fun _ w => w
    | split
    | with_reducible apply Keeps.boot
    | (refine Keeps.frame h rfl ?_ rfl rfl rfl rfl rfl rfl rfl (le_refl _); dsimp only; done)

theorem State.offlineQuietly_keeps {z s : State} (h : Keeps z s) : Keeps z s.offlineQuietly :=
  Keeps.of h rfl rfl (Nat.le_succ _) rfl rfl rfl rfl rfl rfl rfl

theorem State.keyGenerationTimeout_keeps {z s : State} (h : Keeps z s) :
    Keeps z (State.keyGenerationTimeout s) := by
  unfold State.keyGenerationTimeout
  try dsimp only
  iterate 6 all_goals try first
    | with_reducible exact h
    | with_reducible exact Keeps.draw h 1
    | with_reducible apply BeatAcc.segments_keeps
    | with_reducible apply BeatAcc.mergeBeat_keeps
    | with_reducible apply State.offlineQuietly_keeps
    | with_reducible apply State.modProv_keeps
    | with_reducible apply Keeps.ite
    | exact fun _ w => w
    | split
    | with_reducible apply Keeps.boot

theorem State.startLoss_keeps {z s : State} (h : Keeps z s) (g : Nat) (cause : Byte) (logCause : Byte) :
    Keeps z (State.startLoss s g cause logCause) := by
  unfold State.startLoss
  try dsimp only
  iterate 3 all_goals try first
    | with_reducible exact h
    | with_reducible apply State.loseGroup_keeps
    | with_reducible apply Keeps.ite

theorem State.romFailures_keeps {z s : State} (h : Keeps z s) (x1 : List Nat) :
    Keeps z (State.romFailures s x1) := by
  induction x1 generalizing s  with
  | nil =>
    unfold State.romFailures
    try dsimp only
    iterate 6 all_goals try first
      | with_reducible exact h
  | cons a r ih =>
    unfold State.romFailures
    try dsimp only
    iterate 6 all_goals try first
      | with_reducible exact h
      | with_reducible apply ih
      | with_reducible apply State.startLoss_keeps
      | with_reducible apply State.unitLoss_keeps
      | with_reducible apply Keeps.ite

theorem State.testGroup_keeps {z s : State} (h : Keeps z s) (failed : List (Nat × Nat)) (g : Nat) :
    Keeps z (State.testGroup s failed g) := by
  unfold State.testGroup
  try dsimp only
  iterate 6 all_goals try first
    | with_reducible exact h
    | with_reducible apply State.loseGroup_keeps
    | with_reducible apply State.modGroup_keeps
    | with_reducible apply State.modFt_keeps
    | with_reducible apply Keeps.ite
    | split

theorem State.testGroups_keeps {z s : State} (h : Keeps z s) (failed : List (Nat × Nat)) (x2 : List Nat) :
    Keeps z (State.testGroups s failed x2) := by
  induction x2 generalizing s failed with
  | nil =>
    unfold State.testGroups
    try dsimp only
    iterate 3 all_goals try first
      | with_reducible exact h
  | cons a r ih =>
    unfold State.testGroups
    try dsimp only
    iterate 3 all_goals try first
      | with_reducible exact h
      | with_reducible apply ih
      | with_reducible apply State.testGroup_keeps

theorem State.otpLoad_keeps {z s : State} (h : Keeps z s) (straps : Straps) : Keeps z (s.otpLoad straps) := by
  unfold State.otpLoad
  split
  · exact h
  · extract_lets o bad fx s1 s2 first s3 s4 train s5
    have h1 : Keeps z s1 := h.frame rfl rfl rfl rfl rfl rfl rfl rfl rfl (le_refl _)
    have h3 : Keeps z s3 := State.modProv_keeps (State.modFt_keeps h1 _) _
    have h4 : Keeps z s4 := Keeps.ite (State.offlineQuietly_keeps h3) h3
    have h5 : Keeps z s5 := State.modLink_keeps (State.modLink_keeps h4 _ _) _ _
    split
    · exact h5.frame rfl rfl rfl rfl rfl rfl rfl rfl rfl (le_refl _)
    · refine State.modPw_keeps ?_ _
      exact h5.frame rfl rfl rfl rfl rfl rfl rfl rfl rfl (le_refl _)

theorem State.poisonWords_keeps {z s : State} (h : Keeps z s) (x1 : List Nat) :
    Keeps z (State.poisonWords s x1) := by
  induction x1 generalizing s  with
  | nil =>
    unfold State.poisonWords
    try dsimp only
    iterate 6 all_goals try first
      | with_reducible exact h
  | cons a r ih =>
    unfold State.poisonWords
    try dsimp only
    iterate 6 all_goals try first
      | with_reducible exact h
      | with_reducible apply ih
      | with_reducible apply State.modHealth_keeps
      | with_reducible apply State.modSpad_keeps
      | with_reducible apply State.log_keeps
      | with_reducible apply Keeps.ite
      | exact fun _ w => w
      | exact fun _ w => Memory.wf_write _ _ w

theorem State.mbist_keeps {z s : State} (h : Keeps z s) (r : MbistReport) : Keeps z (s.mbist r) := by
  unfold State.mbist
  split
  · exact h
  · extract_lets s1 s2 s3
    have h2 : Keeps z s2 := State.modFt_keeps (State.poisonWords_keeps (State.zeroFill_keeps h) _) _
    have h3 : Keeps z s3 := by
      simp only [s3]
      split
      · exact State.unitLoss_keeps h2 _
      · exact h2
    exact h3.frame rfl rfl rfl rfl rfl rfl rfl rfl rfl (le_refl _)

theorem State.coldReset_keeps {z s : State} (h : Keeps z s) : Keeps z s.coldReset :=
  h.trans ⟨rfl, rfl, le_refl _, fun _ => rfl⟩

theorem State.laneSelfTest_keeps {z s : State} (h : Keeps z s) (failed : List (Nat × Nat)) :
    Keeps z (State.laneSelfTest s failed) := by
  unfold State.laneSelfTest
  try dsimp only
  iterate 6 all_goals try first
    | with_reducible exact h
    | with_reducible exact Keeps.draw h 1
    | with_reducible apply BeatAcc.segments_keeps
    | with_reducible apply BeatAcc.mergeBeat_keeps
    | with_reducible apply State.testGroups_keeps
    | with_reducible apply State.modFt_keeps
    | with_reducible apply Keeps.ite
    | exact fun _ w => w
    | split
    | with_reducible apply Keeps.boot

theorem State.testLogicReset_keeps {z s : State} (h : Keeps z s) :
    Keeps z (State.testLogicReset s) := by
  unfold State.testLogicReset
  try dsimp only
  iterate 3 all_goals try first
    | with_reducible exact h
    | with_reducible apply Keeps.ite
    | exact fun _ w => w
    | split
    | (refine Keeps.frame h rfl ?_ rfl rfl rfl rfl rfl rfl rfl (le_refl _); dsimp only; done)

theorem State.romCheck_keeps {z s : State} (h : Keeps z s) (failed : List Nat) :
    Keeps z (State.romCheck s failed) := by
  unfold State.romCheck
  try dsimp only
  iterate 12 all_goals try first
    | with_reducible exact h
    | with_reducible exact Keeps.draw h 1
    | with_reducible apply BeatAcc.segments_keeps
    | with_reducible apply BeatAcc.mergeBeat_keeps
    | with_reducible apply State.romFailures_keeps
    | with_reducible apply State.modFt_keeps
    | with_reducible apply Keeps.ite
    | exact fun _ w => w
    | split
    | with_reducible apply Keeps.boot

/-! ### Tick -/

theorem State.nextRequest_keeps {z s : State} (h : Keeps z s) : Keeps z s.nextRequest := by
  unfold State.nextRequest
  split
  · exact State.answerFrame_keeps (State.modMg_keeps h _) _ _
  · exact State.answerDriver_keeps (State.modMg_keeps h _) _
  · exact State.modMg_keeps h _

theorem State.countCycles_keeps {z s : State} (h : Keeps z s) (n : Nat) : Keeps z (s.countCycles n) :=
  Keeps.foldl (fun _ _ h => State.bump_keeps h _ _) h _

theorem State.tick_keeps {z s : State} (h : Keeps z s) : Keeps z s.tick := by
  unfold State.tick
  extract_lets t n s1 s2
  have h1 : Keeps z s1 := State.modTb_keeps (State.countCycles_keeps h _) _
  have h2 : Keeps z s2 := Keeps.ite h1 (State.modFt_keeps h1 _)
  exact State.nextRequest_keeps (State.rollSetsDue_keeps (State.ringCycle_keeps h2))

end Sys2Proof.Machine
end

