-- ==== Sys2Proof/Laws/Slots.lean ====
section
/-! SUPPORT. What issue does to a slot: the digest alone before the decision, then one command more in flight, a refused one, or a
slot that waits. -/
namespace Sys2Proof.Machine
open Sys2Proof

/-! ### Vectors, registers, records -/

theorem vecGet_vecModify {α : Type} {n : Nat} (v : Vector α n) (i j : Nat) (f : α → α) (d : α) :
    vecGet (vecModify v i f) j d = if i = j then (if j < n then f (vecGet v j d) else d) else vecGet v j d := by
  simp only [vecGet, vecModify]
  by_cases hi : i < n <;> by_cases hj : j < n <;> by_cases hij : i = j <;> simp [hi, hj, hij]

theorem statusByte_lt (c : Inflight) : c.statusByte < 256 := by
  unfold Inflight.statusByte Flags.mask
  generalize c.flags = f
  rcases f with ⟨a, b, c1, d, e⟩
  cases a <;> cases b <;> cases c1 <;> cases d <;> cases e <;> cases c.xund <;> cases c.xovr <;> cases c.pivx <;> decide

/-- The fields of a completion record, the last in the highest bits (Table 12.15). -/
theorem completionRecord_fields (tag fault : W16) (st rp : Nat) (ep : W16) (d0 d1 : W32) (h1 : st < 256) (h2 : rp < 256) :
    completionRecord tag fault st rp ep d0 d1 = d1 ++ d0 ++ ep ++ BitVec.ofNat 8 rp ++ BitVec.ofNat 8 st ++ fault ++ tag := by
  apply BitVec.eq_of_toNat_eq
  have a1 := tag.isLt; have a2 := fault.isLt; have a3 := ep.isLt; have a4 := d0.isLt; have a5 := d1.isLt
  have e : (d1 ++ d0 ++ ep ++ BitVec.ofNat 8 rp ++ BitVec.ofNat 8 st ++ fault ++ tag).toNat
      = ((((((d1.toNat * 2^32 + d0.toNat) * 2^16 + ep.toNat) * 2^8 + rp) * 2^8 + st) * 2^16 + fault.toNat) * 2^16 + tag.toNat) := by
    simp only [BitVec.toNat_append, BitVec.toNat_ofNat]
    rw [Nat.mod_eq_of_lt (show st < 2^8 by omega), Nat.mod_eq_of_lt (show rp < 2^8 by omega)]
    rw [← Nat.shiftLeft_add_eq_or_of_lt a4, ← Nat.shiftLeft_add_eq_or_of_lt a3,
      ← Nat.shiftLeft_add_eq_or_of_lt (show rp < 2^8 by omega), ← Nat.shiftLeft_add_eq_or_of_lt (show st < 2^8 by omega),
      ← Nat.shiftLeft_add_eq_or_of_lt a2, ← Nat.shiftLeft_add_eq_or_of_lt a1]
    simp only [Nat.shiftLeft_eq]
  rw [e]; unfold completionRecord; rw [BitVec.toNat_ofNat, Nat.mod_eq_of_lt (by omega)]; omega

/-- The first word of a slot is its OPCODE above the row's 26 bits (R309). -/
theorem slotOf_words (n : BitVec 6) (o : SlotOps) :
    slotOf n.toNat o = { words := (n ++ o.head) :: o.rest, epoch := o.epoch, tenant := o.tenant, priv := o.priv } := by
  have : BitVec.ofNat 32 (n.toNat * 2^26 + o.head.toNat) = n ++ o.head := by
    apply BitVec.eq_of_toNat_eq
    have h1 := n.isLt; have h2 := o.head.isLt
    rw [BitVec.toNat_append, BitVec.toNat_ofNat, ← Nat.shiftLeft_add_eq_or_of_lt h2]
    rw [Nat.shiftLeft_eq]
    apply Nat.mod_eq_of_lt; omega
  have h2 : slotOf n.toNat o =
      { words := BitVec.ofNat 32 (n.toNat * 2^26 + o.head.toNat) :: o.rest, epoch := o.epoch, tenant := o.tenant, priv := o.priv } := rfl
  rw [h2, this]

/-! ### Taking a slot -/

/-- The state with other digest contexts. -/
abbrev State.withDigests (s : State) (c p : Digest) : State := { s with prov := { s.prov with cur := c, prev := p } }

theorem receive_digests (s : State) (x : Slot) : ∃ c p, s.receive x = s.withDigests c p := by
  have hset : ∀ (s : State) e d, ∃ c p, s.setDigest e d = s.withDigests c p := by
    intro s e d
    by_cases h : e == s.ep.curEpoch
    · exact ⟨d, s.prov.prev, by simp [State.setDigest, State.modProv, h]⟩
    · exact ⟨s.prov.cur, d, by simp [State.setDigest, State.modProv, h]⟩
  unfold State.receive State.openRange
  split
  · split
    · split
      · exact ⟨s.prov.cur, s.prov.prev, rfl⟩
      · exact hset _ _ _
    · split
      · exact hset _ _ _
      · obtain ⟨c, p, e⟩ := hset s x.epoch (.begin s.gc s.rangeTenant x.epoch)
        rw [e]
        exact hset (s.withDigests c p) x.epoch (((s.withDigests c p).digest x.epoch).take x)
  · exact ⟨s.prov.cur, s.prov.prev, rfl⟩

theorem noteEpoch_digests (s : State) (e : W16) (f : Summary → Summary) : ∃ c p, s.noteEpoch e f = s.withDigests c p := by
  unfold State.noteEpoch; split <;> exact ⟨_, _, rfl⟩

section
variable (s : State) (x : Slot) (c p : Digest) (m : Cmd) (ms : ModeSet)

theorem headAfter_digests (l : Nat) (xs) : headAfter (s.withDigests c p) l xs = headAfter s l xs := by
  induction xs with
  | nil => rfl
  | cons y ys ih =>
    have h : (s.withDigests c p).headAt l = s.headAt l := rfl
    simp only [headAfter, ih, h]

theorem headLeft_digests (b sl) : (s.withDigests c p).headLeft b sl = s.headLeft b sl := headAfter_digests s c p _ _

theorem assayAfter_digests (l : Nat) (xs) : assayAfter (s.withDigests c p) l xs = assayAfter s l xs := by
  induction xs with
  | nil => rfl
  | cons y ys ih => simp only [assayAfter, ih]

theorem assayLeft_digests (a) : (s.withDigests c p).assayLeft a = s.assayLeft a := assayAfter_digests s c p _ _

theorem curveAfter_digests (l : Nat) (xs) : curveAfter (s.withDigests c p) l xs = curveAfter s l xs := by
  induction xs with
  | nil => rfl
  | cons y ys ih => simp only [curveAfter, ih]

theorem slotsVerdict_digests (b : Bool) (n r) : slotsVerdict (s.withDigests c p) m b r n = slotsVerdict s m b r n := by
  induction n generalizing r with
  | zero => rfl
  | succ n ih => simp only [slotsVerdict, ih, headLeft_digests]

theorem commandOk_digests (b) : commandOk (s.withDigests c p) m b = commandOk s m b := by
  unfold commandOk; simp only []; rfl

theorem check5_digests : check5 (s.withDigests c p) m ms = check5 s m ms := by
  unfold check5; simp only [commandOk_digests, assayLeft_digests, slotsVerdict_digests]; rfl

theorem check9_digests : check9 (s.withDigests c p) m = check9 s m := by
  unfold check9; simp only [curveAfter_digests]

theorem checkCmd_digests : checkCmd (s.withDigests c p) m ms = checkCmd s m ms := by
  unfold checkCmd; rw [check5_digests, check9_digests]; rfl

theorem checkSlot_digests : checkSlot (s.withDigests c p) x = checkSlot s x := by
  unfold checkSlot; simp only [checkCmd_digests]; rfl

theorem verdict_digests : (s.withDigests c p).verdict x = s.verdict x := by
  unfold State.verdict; simp only [checkSlot_digests]; rfl

/-- The decision on a slot does not look at the digests. -/
theorem decision_digests : (s.withDigests c p).decision x = s.decision x := by
  unfold State.decision; rw [verdict_digests]; rfl

end

theorem running_of (s : State) (h1 : s.boot = .ready) (h2 : s.pw.state ≠ .halt) : s.running = true := by
  simp [State.running, State.fclkRuns, h1, h2]

/-- A slot that comes while nothing waits is digested and tried at once. -/
theorem takeSlot_attempt (s : State) (x : Slot) (h1 : s.boot = .ready) (h2 : s.pw.state ≠ .halt) (h3 : s.stream.waiting = []) :
    ∃ c p, s.takeSlot x = (s.withDigests c p).attempt x s.tb.cycle none []
      ∧ (s.withDigests c p).decision x = s.decision x := by
  obtain ⟨c, p, e⟩ := receive_digests s x
  refine ⟨c, p, ?_, decision_digests s x c p⟩
  have hr : s.cmdReady = true := by simp [State.cmdReady, State.running, State.fclkRuns, h1, h2, State.waitingSlot, h3]
  unfold State.takeSlot
  rw [hr, e]
  simp [h3]

/-! ### Issue, refusal, waiting -/

theorem claimAll_frame (tag : W16) (xs : List (Role × Desc × Bool)) : ∀ s : State, ∃ r cl,
    s.claimAll tag xs = { s with rolls := r, stream := { s.stream with claims := cl } }
      ∧ (xs = [] → r = s.rolls ∧ cl = s.stream.claims) := by
  induction xs with
  | nil => intro s; exact ⟨s.rolls, s.stream.claims, rfl, fun _ => ⟨rfl, rfl⟩⟩
  | cons x xs ih =>
    intro s
    obtain ⟨r, cl, e, -⟩ := ih (s.claim tag x.2.1.slot x.2.2 (x.2.1.slotsTaken (s.roll x.2.1.slot).slotb.toNat))
    exact ⟨r, cl, by rw [State.claimAll, e]; rfl, by simp⟩

/-- With room between issue and retirement a command joins the others there. -/
theorem push_room (s : State) (c : Inflight) (w : s.stream.inflight.length < 32) :
    s.push c = { s with stream := { s.stream with inflight := s.stream.inflight ++ [c] } } := by
  simp only [State.push, State.modStream, if_pos w]

/-- Issue puts one command with its captures behind the others and enters its boxes; then the command's own effect of that
cycle follows. -/
theorem issue_spec (s : State) (x : Slot) (m : Cmd) (a : Nat) (w : s.stream.inflight.length < 32) : ∃ (u : State) (d : Inflight),
    s.issue x m a = u.onIssue d m
      ∧ u.stream.inflight = s.stream.inflight ++ [d] ∧ d.slot = x ∧ d.modes = s.modesOf x.epoch ∧ d.regs = s.regs
      ∧ d.started = 0 ∧ d.beats = [] ∧ d.left = (m.geo s.regs).beats ∧ d.issued = s.tb.cycle ∧ d.limit = s.escrow.watchdog.toNat
      ∧ d.fault = none ∧ d.ready = false ∧ d.data = [] ∧ d.d0 = 0 ∧ d.d1 = 0
      ∧ u.stream.acc = s.stream.acc ∧ u.stream.lastTag = s.stream.lastTag ∧ u.stream.waiting = s.stream.waiting
      ∧ u.escrow.entries = s.escrow.entries ++
          (m.boxes s.regs).map (fun b => { tag := x.tag, engine := 0, write := b.write, lo := b.lo, hi := b.hi })
      ∧ u.escrow.engines = s.escrow.engines ∧ u.escrow.refusals = s.escrow.refusals
      ∧ u.escrow.waited = satAdd s.escrow.waited (s.tb.cycle - a)
      ∧ (m.rollOps = [] → u.rolls = s.rolls ∧ u.stream.claims = s.stream.claims)
      ∧ u = { s with stream := u.stream, escrow := u.escrow, rolls := u.rolls } := by
  unfold State.issue
  simp only []
  obtain ⟨r, cl, e2, e3⟩ := claimAll_frame x.tag m.rollOps
    ((s.modEscrow fun e => { e with waited := satAdd e.waited (s.tb.cycle - a) }).enter x.tag 0
      (m.boxes (s.modEscrow fun e => { e with waited := satAdd e.waited (s.tb.cycle - a) }).regs))
  rw [e2]
  by_cases ho : m.op = .settle <;> simp only [ho, if_true, if_false] <;>
    (refine ⟨_, _, rfl, ?_⟩
     rw [push_room _ _ (by exact w)]
     exact ⟨rfl, rfl, rfl, rfl, rfl, rfl, rfl, rfl, rfl, rfl, rfl, rfl, rfl, rfl, rfl, rfl, rfl, rfl, rfl, rfl, rfl, fun h => e3 h, rfl⟩)

/-- A refused slot stands in flight with its fault, takes no entry and is logged. -/
theorem refuse_frame (s : State) (x : Slot) (code : W16) (detail : List Byte) (w : s.stream.inflight.length < 32) : ∃ p d,
    s.refuse x code detail = { s with
        stream := { s.stream with inflight := s.stream.inflight ++ [d] }, prov := p
        ledger := (s.log code x.tag (some x.tenant) detail).ledger, evRings := (s.log code x.tag (some x.tenant) detail).evRings }
      ∧ p.rcpt = s.prov.rcpt ∧ p.keys = s.prov.keys
      ∧ d.slot = x ∧ d.fault = some code ∧ d.ready = true ∧ d.beats = [] ∧ d.left = 0 := by
  unfold State.refuse
  split <;> (dsimp only; rw [push_room _ _ (by exact w)]; exact ⟨_, _, rfl, rfl, rfl, rfl, rfl, rfl, rfl, rfl⟩)

/-- The wake of the lanes changes the power state or asks for a grant, and nothing at all in RUN. -/
theorem wake_frame (s : State) (x : Slot) : ∃ p, s.wake x = { s with pw := p }
    ∧ p = { s.pw with state := p.state, greq := p.greq } ∧ (s.pw.state = .run → p = s.pw) := by
  have key : ∀ b : Bool, ∃ p, (if !b then s else match s.pw.state with
      | .sleep => s.modPw fun p => { p with greq := true }
      | _ => s) = { s with pw := p } ∧ p = { s.pw with state := p.state, greq := p.greq } ∧ (s.pw.state = .run → p = s.pw) := by
    intro b
    cases b
    · exact ⟨s.pw, rfl, rfl, fun _ => rfl⟩
    · simp only [Bool.not_true, Bool.false_eq_true, if_false]
      cases h : s.pw.state
      all_goals first | exact ⟨s.pw, rfl, rfl, fun _ => rfl⟩ | exact ⟨_, rfl, rfl, fun k => by simp at k⟩
  exact key _

/-! ### Commands in flight by their tags -/

/-- What exempts a wait from the watchdog's count touches no issue. -/
theorem decision_issue (s : State) (x : Slot) (m : Cmd) : s.decision x = .issue m ↔ s.verdict x = .issue m := by
  unfold State.decision
  split
  · rename_i e; rw [e]; simp
  · rfl

/-- A slot that may issue has a tag that no command in flight has (R313). -/
theorem issue_tag_new (s : State) (x : Slot) (m : Cmd) (h : s.decision x = .issue m) : s.inflight? x.tag = none := by
  have hc : checkSlot s x = .ok := by
    rw [decision_issue, State.verdict] at h
    split at h; · cases h
    split at h; · cases h
    split at h; · cases h
    split at h; · cases h
    split at h
    · cases h
    · cases h
    · assumption
  have h1 : check1 s x = true := by
    by_contra hn
    simp only [checkSlot, Bool.not_eq_true] at hc hn
    rw [hn] at hc; simp [Verdict.illcm] at hc
  unfold check1 at h1
  have : s.tagBusy x.tag = false := by simp_all
  unfold State.tagBusy at this
  have := (Bool.or_eq_false_iff.mp this).1
  rw [State.inflight?, List.find?_eq_none]
  rw [List.any_eq_false] at this
  exact fun c hc => this c (List.mem_append_left _ hc)

/-- An update by tag of a list whose last command is the only one with the tag changes that command. -/
theorem updateFirst_last (s : State) (tag : W16) (d : Inflight) (f : Inflight → Inflight) (hn : s.inflight? tag = none)
    (hd : d.tag = tag) :
    updateFirst (fun c : Inflight => (c.slot.words.headD 0).setWidth 16 == tag) f (s.stream.inflight ++ [d])
      = s.stream.inflight ++ [f d] := by
  unfold State.inflight? at hn
  rw [List.find?_eq_none] at hn
  generalize s.stream.inflight = l at hn ⊢
  induction l with
  | nil =>
    have : ((d.slot.words.headD 0).setWidth 16 == tag) = true := by subst hd; exact beq_self_eq_true d.tag
    simp only [List.nil_append, updateFirst, this, if_true]
  | cons y ys ih =>
    have hy := hn y List.mem_cons_self
    have : ((y.slot.words.headD 0).setWidth 16 == tag) = false := Bool.eq_false_iff.mpr hy
    simp only [List.cons_append, updateFirst, this, Bool.false_eq_true, if_false, List.cons.injEq, true_and]
    exact ih fun z hz => hn z (List.mem_cons_of_mem _ hz)

theorem inflight?_head (s : State) (c : Inflight) (rest : List Inflight) (h : s.stream.inflight = c :: rest) :
    s.inflight? c.tag = some c := by
  simp [State.inflight?, h]

/-- With no failing word, no read of the scratchpad faults. -/
theorem checkWords_clean (s : State) (tag : W16) (ctx) (ws : List Nat) (h : s.spad.synd = []) : s.checkWords tag ctx ws = (s, none) := by
  cases ws <;> simp [State.checkWords, h]

end Sys2Proof.Machine
end

