-- ==== Sys2Proof/Tests/Slice0.lean ====
section
/-! SUPPORT. Tests on small states: what the worked examples of the manual give, an ill-formed command for each check of
WellFormed, and a state that meets the hypotheses of each obligation. -/
set_option Elab.async false
namespace Sys2Proof.Tests
open Sys2Proof Sys2Proof.Machine Sys2Proof.Claims

/-! ### Slots written out from Tables 12.1 and 12.4 -/

/-- The four words of a 128-bit item, bits [31:0] first (R309). -/
def item128 (n : Nat) : List W32 := (upTo 4).map fun i => BitVec.ofNat 32 (n / 2 ^ (32 * i))

/-- A scratchpad descriptor without a length register. -/
def spadDesc (fmt addr cols rows rstride : Nat) : List W32 :=
  item128 (fmt * 2 ^ 121 + addr * 2 ^ 84 + cols * 2 ^ 64 + rows * 2 ^ 48 + rstride * 2 ^ 24)

/-- An accumulator descriptor in `F32`. -/
def accDesc (cols rows : Nat) : List W32 := item128 (1 * 2 ^ 125 + cols * 2 ^ 64 + rows * 2 ^ 48)

/-- A descriptor of kind none. -/
def noDesc : List W32 := item128 (6 * 2 ^ 125)

/-- A slot of the current epoch and of context 0 with `count` descriptors and, where `cw`, a chain word. -/
def slotOf (count : Nat) (cw : Bool) (tag : Nat) (rest : List W32) : SlotOps :=
  { head := BitVec.ofNat 26 (count * 2 ^ 23 + cw.toNat * 2 ^ 22 + tag), rest := rest, epoch := 0, tenant := 0, priv := false }

/-- RSX [115] OPEN, [114] LD, [113] CLOSE (Table 12.9). -/
def bOPEN : Nat := 2 ^ 115
def bLD : Nat := 2 ^ 114
def bCLOSE : Nat := 2 ^ 113
def tapX : Nat := 2 ^ 35

def xF32 : List W32 := spadDesc 0 0x1000 8 2 64
def outF32 : List W32 := spadDesc 0 0x2000 8 2 64
def resU8 : List W32 := spadDesc 8 0x3000 32 2 64
def rsU8 : List W32 := spadDesc 8 0x4000 128 2 128

/-- The worked example of Table 12.11 without the assay fold. -/
def fnOps : SlotOps := slotOf 2 true 0x42
  ([0x00000000, 0x00040020, 0x00001000, 0x04000100] ++ [0x00000000, 0x00040020, 0x40001000, 0x04000200]
    ++ [0x00013800, 0x0D000000, 0x00000000, 0x00000000])

def slots : List Instr :=
  [.fn fnOps,
   .cvt (slotOf 2 false 1 (xF32 ++ outF32)),
   .red (slotOf 2 true 1 (xF32 ++ resU8 ++ item128 (bOPEN + bCLOSE + 1 * 2 ^ 105 + tapX))),
   .scan (slotOf 3 true 1 (xF32 ++ outF32 ++ resU8 ++ item128 (bOPEN + bCLOSE + 0xB * 2 ^ 105 + tapX))),
   .sel (slotOf 3 true 1 (xF32 ++ spadDesc 0 0x2000 2 2 64 ++ spadDesc 0xA 0x3000 2 2 64
     ++ item128 (bOPEN + bCLOSE + 0xA * 2 ^ 105 + 1 * 2 ^ 99 + tapX))),
   .smxa (slotOf 1 true 1 (xF32 ++ item128 bOPEN)),
   .smxn (slotOf 3 true 1 (xF32 ++ outF32 ++ rsU8 ++ item128 bLD)),
   .aresScore (slotOf 2 true 1 (accDesc 8 2 ++ outF32 ++ item128 bOPEN)),
   .aresRescale (slotOf 3 true 1 (accDesc 8 2 ++ accDesc 8 2 ++ rsU8 ++ item128 (bLD + 1 * 2 ^ 103))),
   .aresFinal (slotOf 3 true 1 (accDesc 8 2 ++ outF32 ++ rsU8 ++ item128 (bLD + 2 * 2 ^ 103))),
   .normWhole (slotOf 5 true 1 (xF32 ++ noDesc ++ noDesc ++ outF32 ++ resU8 ++ item128 (bOPEN + bCLOSE))),
   .normSum1 (slotOf 1 true 1 (xF32 ++ item128 (bOPEN + 1 * 2 ^ 106))),
   .normSum2 (slotOf 2 true 1 (xF32 ++ rsU8 ++ item128 (bLD + 2 * 2 ^ 106))),
   .normApply (slotOf 5 true 1 (xF32 ++ noDesc ++ noDesc ++ outF32 ++ rsU8 ++ item128 (bLD + 3 * 2 ^ 106))),
   .xentStats (slotOf 2 true 1 (xF32 ++ spadDesc 0xA 0x2000 1 2 64 ++ item128 (2 ^ 51))),
   .xentGrad (slotOf 3 true 1 (xF32 ++ outF32 ++ rsU8 ++ item128 (2 ^ 50 + 2 ^ 39))),
   .rope (slotOf 3 true 1 (xF32 ++ outF32 ++ spadDesc 0xA 0x3000 1 2 64 ++ item128 (0x11 * 2 ^ 56 + 2 ^ 35))),
   .optAdamw (slotOf 4 true 1 (spadDesc 0 0x1000 8 6 64 ++ spadDesc 0 0x2000 8 2 64 ++ spadDesc 0 0x3000 8 6 64
     ++ spadDesc 0 0x4000 8 1 64 ++ item128 (1 * 2 ^ 64))),
   .optMomentumSgd (slotOf 4 true 1 (spadDesc 0 0x1000 8 4 64 ++ spadDesc 0 0x2000 8 2 64 ++ spadDesc 0 0x3000 8 4 64
     ++ spadDesc 0 0x4000 8 1 64 ++ item128 (1 * 2 ^ 62))),
   .merge (slotOf 3 true 1 (spadDesc 8 0x1000 128 2 128 ++ spadDesc 8 0x2000 128 2 128 ++ spadDesc 8 0x3000 128 2 128 ++ item128 0)),
   .settle (slotOf 0 true 1 (item128 (1 * 2 ^ 80 + 1 * 2 ^ 64 + 1 * 2 ^ 44 + 3))),
   .mint (slotOf 1 true 1 (spadDesc 8 0x1000 128 1 0 ++ item128 5)),
   .fnsync (slotOf 0 true 1 (item128 0x21)),
   .rollset (slotOf 0 true 1 (item128 (0x8000 * 2 ^ 96 + 64 * 2 ^ 64 + 4 * 2 ^ 48 + 3 * 16 + 1))),
   .setlen (slotOf 0 true 1 (item128 (7 * 2 ^ 96 + 9 * 2 ^ 64 + 1 * 2 ^ 8 + 4 * 16 + 2))),
   .assayOpen (slotOf 0 true 1 (item128 (0 * 2 ^ 16 + 6))),
   .assayClose (slotOf 0 true 1 (item128 (1 * 2 ^ 16 + 6))),
   .assayRead (slotOf 1 true 1 (spadDesc 8 0x1000 32 1 0 ++ item128 (2 * 2 ^ 16 + 6))),
   .assayFold (slotOf 1 true 1 (xF32 ++ item128 (3 * 2 ^ 16 + 4 * 2 ^ 19))),
   .assayAmread (slotOf 1 true 1 (spadDesc 8 0x1000 16 1 0 ++ item128 (4 * 2 ^ 16 + 6))),
   .assayAmclr (slotOf 0 true 1 (item128 (5 * 2 ^ 16 + 6))),
   .sealing (slotOf 1 true 1 (spadDesc 8 0x1000 256 1 0 ++ item128 0)),
   .cfgRead (slotOf 1 true 1 (spadDesc 8 0x1000 2 1 0 ++ item128 (2 * 2 ^ 32 + 1 * 2 ^ 16 + 0x1000))),
   .cfgWrite (slotOf 0 true 1 (item128 (4096 * 2 ^ 64 + 4 * 2 ^ 32 + 2 ^ 25 + 2 ^ 24 + 2 * 2 ^ 16 + 0x5000))),
   .waitgc (slotOf 0 true 1 (item128 5)),
   .stmt (slotOf 1 false 1 (spadDesc 8 0x1000 4096 1 0)),
   .tenant { slotOf 0 true 1 (item128 0) with priv := true }]

/-! ### A unit that has started -/

/-- Reset but for the step of start-up: ready, lanes running, aligned, rings up, assay 4 open, context 0 enabled. -/
def base : State :=
  { State.reset with
    boot := .ready
    pw := { State.reset.pw with state := .run }
    tb := { State.reset.tb with state := .aligned }
    st := { State.reset.st with assays := vecModify State.reset.st.assays 4 fun a => { a with st := .opened } }
    tn := { State.reset.tn with enable := Vector.replicate 8 true }
    links := ({ Link.default with st := .up, down := false, ringDown := [] }, { Link.default with st := .up, down := false, ringDown := [] }) }

/-- No steal and no telemetry sample is due for long. -/
def calm : State := { base with spad := { base.spad with nextSteal := 0x10000000000 }, pw := { base.pw with nextSample := 0x10000000000 } }

/-- Whether a slot issues, as a command of which `p` holds. -/
def issuesAs (s : State) (c : Instr) (p : Cmd → Bool) : Bool :=
  match slotRow c with
  | some x => (match s.decision x with | .issue m => p m | _ => false)
  | none => false

/-- The state after commands that complete. -/
def go : List Instr → State → State
  | [], s => s
  | c :: cs, s => match exec c s with | .next t => go cs t | _ => s

/-- The oldest command in flight. -/
def one (s : State) : Inflight := s.stream.inflight.headD (Inflight.new ⟨[], 0, 0, false⟩ s.ep.cur s.regs 0 0 0)

/-- `plain`, and no claims at all. -/
def plainB (s : State) (c : Inflight) : Bool :=
  c.beats.isEmpty && c.hard.isEmpty && c.conflict.isNone && c.badRow.isNone && c.accpv == 0 && s.stream.claims.isEmpty

/-- Bytes in the scratchpad. -/
def withBytes (s : State) (bs : List (Nat × Byte)) : State := { s with spad := { s.spad with mem := bs } }

/-! ### Ill-formed commands: one for each check of WellFormed -/

def longSlot : SlotOps := slotOf 5 true 1 (List.replicate 25 0)
def badPhase : SlotOps := slotOf 0 true 1 (item128 (3 * 2 ^ 103 + 2 ^ 63 + 7 * 2 ^ 16 + 2 ^ 24))

theorem test_longSlotRefused : wellFormed (.fn longSlot) = false := by decide
theorem test_aresPhaseRefused : (wellFormed (.aresScore badPhase) || wellFormed (.aresRescale badPhase)
    || wellFormed (.aresFinal badPhase)) = false := by decide
theorem test_normPhaseRefused : wellFormed (.normApply (slotOf 0 true 1 (item128 0))) = false := by decide
theorem test_xentPhaseRefused : wellFormed (.xentGrad (slotOf 0 true 1 (item128 0))) = false := by decide
theorem test_optAlgRefused : (wellFormed (.optAdamw badPhase) || wellFormed (.optMomentumSgd badPhase)) = false := by decide
theorem test_assayOpRefused : wellFormed (.assayOpen badPhase) = false := by decide
theorem test_cfgDirRefused : wellFormed (.cfgRead badPhase) = false := by decide
theorem test_definedOpcodeRefused : wellFormed (.reservedOpcode 0x01 (slotOf 0 false 1 [])) = false := by decide
theorem test_longPresentationRefused : wellFormed (.accPresentation (List.replicate 257 none)) = false := by decide +kernel
theorem test_manyBoxesRefused : wellFormed (.escrowDeclaration 1 1 (List.replicate 16 ⟨false, 1, 0⟩) []) = false := by decide
theorem test_manyClaimsRefused : wellFormed (.escrowDeclaration 1 1 [] (List.replicate 4 ⟨1, true, 0⟩)) = false := by decide
theorem test_shortWideWriteRefused : wellFormed (.wAccess true 0 1 [0]) = false := by decide
theorem test_readWithDataRefused : wellFormed (.wAccess false 0 1 [0]) = false := by decide
theorem test_shortFlitRefused : wellFormed (.flitReceive .die []) = false := by decide
theorem test_oddPulseRefused : wellFormed (.syncPulse 1) = false := by decide
theorem test_slowClockRefused : (wellFormed (.fclkChange 599) || wellFormed (.fclkChange 2001)) = false := by decide
theorem test_laneRefused : (wellFormed (.residueMismatch (.lane 8 0)) || wellFormed (.residueMismatch (.lane 0 32))) = false := by decide
theorem test_parityRomRefused : wellFormed (.tableRomParity 9) = false := by decide
theorem test_scanRomRefused : wellFormed (.romScanPass (some 9)) = false := by decide
theorem test_mbistLaneRefused : wellFormed (.mbist ⟨[], [(0, 32)], none⟩) = false := by decide
theorem test_checkedRomRefused : wellFormed (.romCheck [9]) = false := by decide
theorem test_testedLaneRefused : wellFormed (.laneSelfTest [(0, 34)]) = false := by decide
theorem test_frameRowsRefused : (wellFormed (.frameRead 1 [1, 2]) || wellFormed (.frameWrite 1 [1, 1])
    || wellFormed (.frameCancel 1 [1, 1])) = false := by decide
theorem test_tenantPathRefused : wellFormed (.odWrite .tenant 0x3100 1 []) = false := by decide
theorem test_bypassRefused : wellFormed (.bypass 0x01) = false := by decide

/-! ### Worked examples of the manual -/

/-- Every row of the command port has a well-formed slot that issues. -/
theorem test_everySlotIssues : (slots.all fun c => wellFormed c && issuesAs base c fun _ => true) = true := by decide +kernel

/-- The `FN` of chapter 12: its boxes and its 64 beats. -/
theorem test_fnBoxesAndBeats : issuesAs base (.fn fnOps) (fun m =>
    m.boxes base.regs == [⟨false, 0x4000, 0x41FF⟩, ⟨true, 0x8010, 0x820F⟩] && (m.geo base.regs).beats == 64
      && m.rc.func == 0x0D && m.rc.amsel == 3 && m.tag == 0x42) = true := by decide +kernel

/-- The `Y8A` element of chapter 1. -/
theorem test_y8aDecodes : decodeBlock .y8a 0x5B 0x7C 0x3FC00000 = (0x40840000, {}) := by decide +kernel

/-- The ties into `Y16` of chapter 2. -/
theorem test_y16Ties : ((convert .y16 false .rne 0 (f32Val 0x3F808000)).code, (convert .y16 false .rne 0 (f32Val 0x3F818000)).code,
    (convert .y16 false .rto 0 (f32Val 0x3F818000)).code, (convert .y16 false .rup 0 (f32Val 0x3F818000)).code,
    (convert .y16 false .sr 0x7FFFFFFF (f32Val 0x3F818000)).code, (convert .y16 false .sr 0x80000000 (f32Val 0x3F818000)).code)
    = (0x3F80, 0x3F82, 0x3F81, 0x3F82, 0x3F82, 0x3F81) := by decide +kernel

/-- The `Y8A` overflow threshold of chapter 2. -/
theorem test_y8aThreshold : ((convert .y8a false .rne 0 (f32Val 0x43E80000)).code, (convert .y8a false .rup 0 (f32Val 0x43F7FFFF)).code,
    convert .y8a false .rne 0 (f32Val 0x43F80000), (convert .y8a true .rne 0 (f32Val 0x43F80000)).code)
    = (0x7E, 0x7F, { code := 0x7F, fl := { ov := true, nx := true }, vanish := false, sat := true }, 0x80) := by decide +kernel

/-- The block exponents of the outlier block of chapter 2. -/
theorem test_blockExponents : (blockExp .y8a 65536, blockExp .y8b 65536, blockExp .y8a 496) = (8, 0, 1) := by decide +kernel

/-- R55: under RNE −0.5 gives 0 in `U8` with NX alone, and −0.6 gives 0 with IV. -/
theorem test_u8Rounds : ((convert .u8 false .rne 0 (.fin (-1 / 2))).fl, (convert .u8 false .rne 0 (.fin (-3 / 5))).fl)
    = (({ nx := true } : Flags), ({ iv := true } : Flags)) := by decide +kernel

/-- A `CVT` of one `F32` row into `F32` copies it, and completes with NX clear. -/
def cvtS : SlotOps := slotOf 2 false 1 (spadDesc 0 0x1000 2 1 8 ++ spadDesc 0 0x2000 2 1 8)
def cvtBytes : List (Nat × Byte) := [(0x1002, 0x80), (0x1003, 0x3F), (0x1005, 0x12)]
theorem test_cvtCopies : (let t := go [.cvt cvtS, .beatReadStart, .beatWriteComplete, .commandRetirement] (withBytes base cvtBytes)
    ((upTo 8).map fun i => Memory.read t.spad.mem (0x2000 + i), t.out.cpl))
    = ([0, 0, 0x80, 0x3F, 0, 0x12, 0, 0], [record 1 0 0 0 0 0 0]) := by decide +kernel

/-- Top-4 of the row of chapter 6: 3.0, NaN, 5.0, +∞, 5.0, −0, +0, −7.0. -/
def selS : SlotOps := slotOf 3 true 1 (spadDesc 0 0x1000 8 1 64 ++ spadDesc 2 0x2000 4 1 64 ++ spadDesc 0xA 0x3040 4 1 64
  ++ item128 (bOPEN + bCLOSE + 0xA * 2 ^ 105 + 3 * 2 ^ 99 + tapX))
def selBytes : List (Nat × Byte) :=
  [(0x1002, 0x40), (0x1003, 0x40), (0x1006, 0xC0), (0x1007, 0x7F), (0x100A, 0xA0), (0x100B, 0x40), (0x100E, 0x80), (0x100F, 0x7F),
   (0x1012, 0xA0), (0x1013, 0x40), (0x1017, 0x80), (0x101E, 0xE0), (0x101F, 0xC0)]
theorem test_topFour : (let t := go [.sel selS, .beatReadStart, .beatWriteComplete, .rowResult] (withBytes base selBytes)
    ((upTo 4).map fun i => leAt ((upTo 16).map fun j => Memory.read t.spad.mem (0x3040 + j)) (4 * i) 4,
     (upTo 4).map fun i => leAt ((upTo 8).map fun j => Memory.read t.spad.mem (0x2000 + j)) (2 * i) 2))
    = ([1, 3, 2, 4], [0x7FC0, 0x7F80, 0x40A0, 0x40A0]) := by decide +kernel

/-- `SETLEN` of the list above: LEN2 := 9, then GT := GT + 7 with OPB clear sets it. -/
theorem test_setlen : (let t := go [.setlen (slotOf 0 true 1 (item128 (7 * 2 ^ 96 + 9 * 2 ^ 64 + 4 * 16 + 2)))] base
    (vecGet t.regs.len 2 0, t.regs.gt)) = (9, 7) := by decide +kernel

/-- The request header of the worked example of chapter 13 is a READ of 0x1101:01, SEG 0. -/
def readKey : List Byte := padTo 72 [0x01, 0x01, 0x23, 0x01, 0x01, 0x11, 0x01]
theorem test_requestHeader : (let q := Request.ofBytes readKey
    (q.op, q.tid, q.index, q.sub, q.seg, q.malformed 72)) = (1, 0x0123, 0x1101, 1, 0, false) := by decide +kernel
/-- Its response: 97 bytes of value, 56 of them in the first segment, not LAST. -/
theorem test_responseHeader : ((Request.ofBytes readKey).segment (List.replicate 97 4)).take 16
    = [0x01, 0x01, 0x23, 0x01, 0x01, 0x11, 0x01, 0x80, 0x61, 0, 0, 0, 0, 0, 0x38, 0] := by decide +kernel

/-- CRC-32C of the nine digits, the check value of the Castagnoli code. -/
theorem test_crc32c : crc32c (ascii "123456789") = 0xE3069283 := by decide +kernel

/-- SHA-384 of "abc" (FIPS 180-4). -/
theorem test_sha384 : (sha384 (ascii "abc")).take 8 = [0xCB, 0x00, 0x75, 0x3F, 0x45, 0xA3, 0x5E, 0x8B] := by decide +kernel

/-! ### States and operands that meet the hypotheses of the obligations -/

def halted : State := { base with pw := { base.pw with state := .halt } }

theorem witness_StepRunsFrontCommand :
    ({ base with pending := [.doorbell 1, .idcode] } : State).pending = .doorbell 1 :: [.idcode] := rfl

/-- A running unit whose links are idle, one in thermal halt, one with a frozen view, one in reset. -/
theorem witness_IdleStepIsOneTclkCycle : ([base, halted, { base with tb := { base.tb with state := .frozen, q := 2, v := 2 } }].all fun s =>
    decide (s.pending = [] ∧ s.escrow.sets = [] ∧ s.mg.queue = [] ∧ s.mg.asked = [])) = true
    ∧ halted.pw.state = .halt ∧ base.pw.state ≠ .halt ∧ (2 : Nat) < (2 + base.tb.inc.setWidth 64 : W64).toNat
    ∧ State.reset.boot = .otpLoad ∧ base.boot ≠ .otpLoad ∧ halted.boot ≠ .otpLoad
    ∧ (base.link .die).down = false ∧ (State.reset.link .die).down = true := by decide +kernel

theorem witness_CommandsAnswerAndKeepQueue : ((599 : BitVec 12).toNat < 600) ∧ (2000 < (2001 : BitVec 12).toNat)
    ∧ (∃ t, exec (.fclkChange 600) base = .next t) ∧ (600 ≤ (2000 : BitVec 12).toNat ∧ (2000 : BitVec 12).toNat ≤ 2000) :=
  ⟨by decide, by decide, ⟨_, rfl⟩, by decide⟩

theorem witness_EveryStepKeepsInvariant : base.inv = true ∧ ∃ t, step base = .next t := ⟨by decide +kernel, ⟨_, rfl⟩⟩

theorem witness_EveryStepKeepsQueueSizes : base.bounded = true ∧ ∃ t, step base = .next t := ⟨by decide +kernel, ⟨_, rfl⟩⟩

theorem witness_StoppedUnitKeepsState : (slotRow (.fn fnOps)).isSome = true ∧ State.reset.boot ≠ .ready ∧ halted.pw.state = .halt
    ∧ fclkDriven .commandRetirement := ⟨by decide, by decide, by decide, trivial⟩

/-- A slot that issues at once, and the same slot after a wait. -/
def waits (x : Slot) (since : Option (Nat × Nat)) : State :=
  { base with stream := { base.stream with waiting := [.unit x 0 since] } }
def cvtX : Slot := slotWith 0x02 cvtS
def decidesIssue (s : State) (x : Slot) : Bool := match s.decision x with | .issue m => decide (m.op ∉ actsAtIssue) | _ => false
/-- A `SETTLE` of two rows between positions 0 and 1, whose row 1 belongs to position 1. -/
def settleS : SlotOps := slotOf 0 true 2 (item128 (1 * 2 ^ 80 + 2 * 2 ^ 64 + 2 * 2 ^ 44 + 3))
theorem witness_SlotIssues : atHead base ∧ issuesAs base (.cvt cvtS) (fun m => decide (m.op ∉ actsAtIssue ∧ m.op ≠ .settle)) = true
    ∧ issuesAs base (.settle settleS) (fun m => decide (m.op ∉ actsAtIssue)) = true ∧ base.setBuf = []
    ∧ started (waits cvtX none) ∧ decidesIssue (waits cvtX none) cvtX = true
    ∧ (let s := waits cvtX none
       let g : State := { s with pw := { s.pw with state := .gated } }
       let u : State := { g with pw := { g.pw with state := if g.pw.state = .gated ∧ g.waitCode cvtX = 11 then .run else g.pw.state } }
       started g ∧ decidesIssue u cvtX = true) := by
  refine ⟨by decide, by decide +kernel, by decide +kernel, by decide, by decide, by decide +kernel, by decide +kernel⟩

/-- 32 commands in flight. -/
def full : State := { base with stream := { base.stream with
  inflight := List.replicate 32 (Inflight.new (slotWith 0x17 (slotOf 0 true 2 (item128 5))) base.ep.cur base.regs 0 0 0) } }

/-- TAG 0xFFFF is reserved (R313); and a slot that has waited out a count of 0. -/
theorem witness_SlotFaultsAtIssue : atHead base ∧ Op.ofCode (0x19 : BitVec 6).toNat = none ∧ base.ft.unit ≠ .offline ∧ base.streamHeld = false
    ∧ base.stream.inflight = []
    ∧ base.decision (slotWith 0x02 (slotOf 2 false 0xFFFF (xF32 ++ outF32))) = .fault 0x0106 (illcmDetail 1 0xFF 0 0xFF)
    ∧ (waits cvtX (some (0, 0))).stream.waiting = [.unit cvtX 0 (some (0, 0))] ∧ 0 ≤ base.tb.live - 0
    ∧ base.switches = false
    ∧ base.stream.inflight.length < 32 ∧ full.stream.inflight.length = 32 := by
  refine ⟨by decide, by decide, by decide, by decide, by decide, by decide +kernel, rfl, by decide, by decide, by decide, by decide⟩

/-- A slot behind a `WAITGC`, one that gated lanes hold, and one behind 32 commands. -/
theorem witness_SlotWaits : (go [.waitgc (slotOf 0 true 2 (item128 5))] base).decision cvtX = .hold .uncounted
    ∧ ({ base with pw := { base.pw with state := .gated } } : State).decision cvtX = .hold .wake
    ∧ (match ({ base with stream := { base.stream with waiting := [.decl 7 1 [] [] 0 none] } } : State).stream.waiting with
       | [.decl ..] => true | _ => false) = true := by
  refine ⟨by decide +kernel, by decide +kernel, by decide⟩

theorem witness_AtMost32CommandsInFlight : atHead full ∧ full.stream.inflight.length = 32 ∧ full.inv = true
    ∧ (slotRow (.cvt cvtS)).isSome = true := ⟨by decide, by decide, by decide +kernel, by decide⟩

theorem witness_SetlenAndStmtActAtIssue :
    issuesAs base (.setlen (slotOf 0 true 1 (item128 (7 * 2 ^ 96 + 9 * 2 ^ 64 + 2 ^ 8 + 4 * 16 + 2)))) (fun m => m.op == .setlen) = true
    ∧ issuesAs base (.stmt (slotOf 1 false 1 (spadDesc 8 0x1000 4096 1 0))) (fun m => m.op == .stmt) = true :=
  ⟨by decide +kernel, by decide +kernel⟩

theorem witness_SealQueuesReceipt :
    issuesAs base (.sealing (slotOf 1 true 1 (spadDesc 8 0x1000 256 1 0 ++ item128 0))) (fun m => m.op == .sealing) = true := by decide +kernel

/-- An image of one segment that R122 accepts, and one of zeros that it refuses. -/
def image0 : List Byte := [1, 0, 0, 0, 1, 0] ++ List.replicate 74 0
def image : List Byte := image0.take 60 ++ leBytes 4 (crc32c image0).toNat ++ image0.drop 64
def mintS : SlotOps := slotOf 1 true 1 (spadDesc 8 0x1000 80 1 0 ++ item128 5)
def tenantS : SlotOps := { slotOf 0 true 1 (item128 1) with priv := true }
theorem witness_TenantClearsAtIssue : issuesAs base (.tenant tenantS) (fun m => m.op == .tenant) = true := by decide +kernel

theorem witness_CurvesClearedBetweenContexts : atHead base ∧ base.boot.warmable = true
    ∧ issuesAs base (.tenant tenantS) (fun m => m.op == .tenant) = true := ⟨by decide, by decide, by decide +kernel⟩

/-- A `CVT` whose one beat waits to start. -/
def reading : State := go [.cvt cvtS] base
/-- `ARES` SCORE with the accumulator presentation it waits for; and a first beat of `OPT`. -/
def presented : State :=
  let s := go [.aresScore (slotOf 2 true 1 (accDesc 8 2 ++ outF32 ++ item128 bOPEN))] base
  { s with stream := { s.stream with acc := some (List.replicate 16 (some 0)) } }
def optimising : State :=
  go [.optAdamw (slotOf 4 true 1 (spadDesc 0 0x1000 8 6 64 ++ spadDesc 0 0x2200 8 2 64 ++ spadDesc 0 0x3400 8 6 64
    ++ spadDesc 0 0x4600 8 1 64 ++ item128 (1 * 2 ^ 64)))] (withBytes base [(0x460E, 0x80), (0x460F, 0x3F)])
theorem witness_BeatStartsReading : ([reading, presented, optimising].all fun s =>
    let c := one s
    let m := c.cmd
    let g := m.geo c.regs
    let fresh := ((m.get .x).kind == .acc || (m.get .y).kind == .acc) && (g.pass c.started == 0 || !m.staged g)
    let rows := ((g.segs c.started).filter fun sg => g.startsRow c.started sg).map fun sg => sg.row
    decide (started s ∧ s.pw.state = .run ∧ s.nextBeat = some c ∧ s.inflight? c.tag = some c ∧ s.issueCycle = true
      ∧ s.stopped c.tag = false ∧ c.conflict = none ∧ s.beatHeld c m g c.started = false ∧ s.stream.claims = [] ∧ (fresh = true → s.stream.acc ≠ none)
      ∧ (s.acquireAll (s.slotsNeeded c m g c.started)).2 = true
      ∧ s.spad.synd = [] ∧ s.st.tillSynd = [] ∧ s.st.rowSynd = [] ∧ s.st.curveSynd = [] ∧ s.st.tillBad = [] ∧ s.st.rowBad = []
      ∧ m.curveSlot = none ∧ (m.op = .opt → hpBad m.rc.alg m.rc.step (s.latchOf c m).1 = none) 
      ∧ badRecord c m ((s.rowIns c m g c.started).filter fun x => rows.contains x.row) = none)) = true
    ∧ (one optimising).cmd.op = .opt ∧ ((one presented).cmd.get .x).kind = .acc := by decide +kernel

/-- The same `CVT` with its beat read; and with a beat that waits for the precise pipe, of one lane group and of two. -/
def writing : State := go [.cvt cvtS, .beatReadStart] (withBytes base cvtBytes)
def hardOne (groups : Byte) : HardBeat := { idx := 0, writes := [], groups := groups }
def hardState (groups : Byte) : State :=
  { writing with stream := { writing.stream with inflight := [{ one writing with beats := [], hard := [hardOne groups] }] } }
theorem witness_BeatCompletesItsWrites : (let s := writing
    let c := one s
    started s ∧ (s.stream.inflight.find? fun c => !c.beats.isEmpty) = some c ∧ s.inflight? c.tag = some c ∧ s.stopped c.tag = false
      ∧ s.queueFull = false ∧ c.conflict = none ∧ s.spad.synd = []
      ∧ (match c.beats with
        | b :: rest => (BeatAcc.segments { st := s, c := { c with beats := rest, since := s.tb.cycle }, ws := [], back := [], hard := 0, n := 0 }
            (s.flow c c.cmd) b ((c.cmd.geo c.regs).segs b.idx)).hard == 0
        | [] => false) = true)
    ∧ ([1, 6].all fun k => let s := hardState k
       let c := one s
       decide (started s ∧ (s.stream.inflight.find? fun c => !c.hard.isEmpty) = some c ∧ c.hard = [hardOne k]
         ∧ s.inflight? c.tag = some c ∧ s.stopped c.tag = false ∧ c.conflict = none ∧ c.muted = false ∧ s.spad.synd = [])) = true
    ∧ (1 &&& ((1 : Byte) - 1)) = 0 ∧ (6 &&& ((6 : Byte) - 1)) = 4
    ∧ (let c : Inflight := { one writing with fault := some 0x0307, muted := true }
       let s : State := { writing with stream := { writing.stream with inflight := [c] } }
       started s ∧ (s.stream.inflight.find? fun c => !c.beats.isEmpty) = some c ∧ s.inflight? c.tag = some c ∧ c.conflict = none
         ∧ s.stopped c.tag = false ∧ s.queueFull = false) := by
  decide +kernel

/-- A `RED` of one row whose beat is written. -/
def redS : SlotOps := slotOf 2 true 1 (spadDesc 0 0x1000 2 1 8 ++ spadDesc 8 0x3000 32 1 64 ++ item128 (bOPEN + bCLOSE + 2 ^ 105 + tapX))
def reduced : State := go [.red redS, .beatReadStart, .beatWriteComplete] (withBytes base cvtBytes)
/-- The same over rows of length 0, and a `CVT` that expands a row of length 0. -/
def emptyRows (fmt addr rows rstride : Nat) : List W32 := item128 (fmt * 2 ^ 121 + 2 ^ 118 + addr * 2 ^ 84 + rows * 2 ^ 48 + rstride * 2 ^ 24)
def emptied : State :=
  go [.red (slotOf 2 true 1 (emptyRows 0 0x1000 1 8 ++ spadDesc 8 0x3000 32 1 64 ++ item128 (bOPEN + bCLOSE + 2 ^ 105 + tapX)))] base
def expanding : State :=
  go [.cvt (slotOf 3 true 1 (emptyRows 0 0x1000 1 8 ++ spadDesc 0 0x2000 4 1 64 ++ spadDesc 8 0x3000 4 1 64
    ++ item128 (2 ^ 33 + 3 * 2 ^ 31)))] base
def clash : Conflict := { beat := 0, descA := 0, descB := 1, bank := 0, read := true, lines := [] }
theorem witness_RowResultIsWritten : ([reduced, emptied].all fun s =>
    let c := one s
    let u := s.emptyRow c c.cmd c.rowsDone
    decide (started s ∧ (s.stream.inflight.find? fun c => s.rowReady c) = some c ∧ c.cmd.op.rows = true ∧ s.spad.synd = []
      ∧ (u.inflight? c.tag).isSome = true ∧ (one u).tag = c.tag ∧ (one u).fault = none ∧ (one u).conflict = none ∧ c.conflict = none
      ∧ (one u).muted = false)) = true
    ∧ ((one emptied).cmd.geo base.regs).c = 0
    ∧ (let s := expanding
       let c := one s
       started s ∧ (s.stream.inflight.find? fun c => s.rowReady c) = some c ∧ s.inflight? c.tag = some c ∧ c.cmd.op.rows = false
         ∧ c.conflict = none ∧ c.muted = false ∧ s.spad.synd = [])
    ∧ (let c : Inflight := { one emptied with conflict := some clash }
       let s : State := { emptied with stream := { emptied.stream with inflight := [c] } }
       started s ∧ (s.stream.inflight.find? fun c => s.rowReady c) = some c ∧ s.inflight? c.tag = some c ∧ c.total = 0) := by decide +kernel

theorem witness_RankingAndExtremes : (Val.fin 1 ≠ .fin 0) ∧ ranksAbove (.fin 2) (.fin 1) = true ∧ ranksAbove (.fin 1) (.zero false) = true
    ∧ (0 : Rat) < 1 ∧ (-1 : Rat) < 0 := by decide +kernel

theorem witness_FormatCodesRoundTrip : 0x8000 < 2 ^ Fmt.y16.bits ∧ codeVal .y16 0x8000 ≠ .nan := by decide +kernel

/-- The largest number of `F16`, and the smallest of `Y8S`. -/
theorem witness_RoundingIsCorrect : Fmt.f16.isInt = false ∧ rabs 65504 ≤ Fmt.f16.maxQ ∧ Fmt.y8s.isInt = false
    ∧ rabs (pow2 (-127)) ≤ Fmt.y8s.maxQ ∧ pow2 (-127) ≠ 0 := by decide +kernel

theorem witness_IntegerConversionSaturates : Fmt.u8.isInt = true ∧ ((Fmt.u8.range.1 : Int) : Rat) - 1 / 2 ≤ -1 / 2
    ∧ (255 : Rat) < ((Fmt.u8.range.2 : Int) : Rat) + 1 / 2 := by decide +kernel

/-- A command refused at issue; and one that faulted later. -/
def refusedState : State := go [.cvt (slotOf 2 false 0xFFFF (xF32 ++ outF32))] base
def faulted : State := { reading with stream := { reading.stream with inflight := [{ one reading with fault := some 0x0103 }] } }
theorem witness_FaultedCommandsRetire : (let c := one refusedState
    started refusedState ∧ refusedState.stream.inflight = [c] ∧ c.fault = some 0x0106 ∧ c.ready = true ∧ refusedState.stopped c.tag = false)
    ∧ (let s := faulted
       let c := one s
       started s ∧ s.stream.inflight = [c] ∧ c.fault = some 0x0103 ∧ c.ready = false ∧ s.stopped c.tag = false ∧ c.beats = []
         ∧ c.hard = [] ∧ c.pre = [] ∧ c.cmd.op ≠ .settle) := by decide +kernel

def writtenState : State := go [.cvt cvtS, .beatReadStart, .beatWriteComplete] (withBytes base cvtBytes)
theorem witness_ElementCommandRetires : (let s := writtenState
    let c := one s
    started s ∧ s.stream.inflight = [c] ∧ c.fault = none ∧ s.stopped c.tag = false ∧ c.beats = [] ∧ c.hard = [] ∧ s.rowReady c = false
      ∧ c.started = c.total ∧ c.cmd.rowSteps c.regs ≤ c.rowsDone ∧ c.conflict = none ∧ c.badRow = none ∧ c.cmd.elements = true
      ∧ c.cmd.op ≠ .assay ∧ (s.acquireAll (s.allSlots c)).2 = true ∧ c.writes = [] ∧ s.spad.synd = [] ∧ s.stream.claims = []) := by
  decide +kernel

/-- One state for each operation of `ASSAY` that has no beats. -/
theorem witness_AssayCommandsRetire : ([0, 1, 2, 4, 5].all fun p =>
    let d : List W32 := if p = 2 then spadDesc 8 0x1000 32 1 0 else if p = 4 then spadDesc 8 0x1000 16 1 0 else []
    let s := go [.assayOpen (slotOf (d.length / 4) true 1 (d ++ item128 (p * 2 ^ 16 + 6)))] base
    let c := one s
    decide (started s ∧ s.stream.inflight = [c] ∧ c.fault = none ∧ c.cmd.op = .assay ∧ bitsOf c.cmd.chain 18 16 = p
      ∧ s.stopped c.tag = false ∧ plainB s c = true ∧ c.started = c.total
      ∧ s.spad.synd = [] ∧ c.cmd.rc.aen = false ∧ c.cmd.rc.amen = false)) = true := by decide +kernel

/-- A `SETLEN`, a `MINT`, `FNSYNC` or `ROLLSET` that has taken effect, a `SEAL`, an `STMT` and a `TENANT` whose clear is done. -/
theorem witness_UnitCommandsRetire : ([Instr.setlen (slotOf 0 true 1 (item128 2)), .fnsync (slotOf 0 true 1 (item128 0x21)),
    .rollset (slotOf 0 true 1 (item128 (0x8000 * 2 ^ 96 + 64 * 2 ^ 64 + 4 * 2 ^ 48 + 3 * 16 + 1))),
    .sealing (slotOf 1 true 1 (spadDesc 8 0x1000 256 1 0 ++ item128 0)), .stmt (slotOf 1 false 1 (spadDesc 8 0x1000 4096 1 0)),
    .tenant { slotOf 0 true 1 (item128 1) with priv := true }].all fun i =>
    let u := go [i] base
    let c : Inflight := { one u with ready := true }
    let s : State := { u with stream := { u.stream with inflight := [c] } }
    decide (started s ∧ c.fault = none ∧ s.stopped c.tag = false ∧ plainB s c = true ∧ c.writes = [] ∧ c.started = c.total
      ∧ c.cmd.rowSteps c.regs ≤ c.rowsDone ∧ s.rowReady c = false ∧ c.cmd.rc.aen = false ∧ c.cmd.rc.amen = false ∧ s.spad.synd = []
      ∧ s.pw.breach = none ∧ c.cmd.op ∈ [Op.setlen, .fnsync, .rollset, .sealing, .stmt, .tenant])) = true := by decide +kernel

/-- An accepted write (0x8200:05), one that the tenant path may not make (0x5000:02), and a read of 0x1000:01. -/
def cfgW (index sub len : Nat) : Instr :=
  .cfgWrite (slotOf 0 true 1 (item128 (4096 * 2 ^ 64 + len * 2 ^ 32 + 2 ^ 25 + 2 ^ 24 + sub * 2 ^ 16 + index)))
def cfgR : Instr := .cfgRead (slotOf 1 true 1 (spadDesc 8 0x1000 2 1 0 ++ item128 (2 * 2 ^ 32 + 1 * 2 ^ 16 + 0x1000)))
theorem witness_CfgRetires : ([cfgW 0x8200 5 8, cfgW 0x5000 2 4, cfgR].all fun i =>
    let s := go [i] base
    let c := one s
    decide (started s ∧ s.stream.inflight = [c] ∧ c.fault = none ∧ c.ready = false ∧ c.flags = {} ∧ c.replays = 0 ∧ c.cmd.op = .cfg
      ∧ s.stopped c.tag = false ∧ plainB s c = true ∧ c.started = c.total ∧ s.spad.synd = [] ∧ s.mg.queue = [] ∧ s.mg.asked = []
      ∧ s.stream.claims = [] ∧ c.cmd.rc.aen = false ∧ c.cmd.rc.amen = false ∧ c.xund = false ∧ c.xovr = false ∧ c.pivx = false)) = true
    ∧ (base.odWrite .tenant 0x8200 5 (leBytes 8 4096)).2 = 0 ∧ (base.odWrite .tenant 0x5000 2 (leBytes 4 4096)).2 = 0xA008 := by
  decide +kernel

/-- A staged `MINT` and an `FNSYNC`, as the oldest command and behind another. -/
def minted : State := { base with stream := { base.stream with
  inflight := [{ Inflight.new (slotWith 0x10 mintS) base.ep.cur base.regs 0 0 0 with
    data := image }] } }
def synced : State := go [.fnsync (slotOf 0 true 1 (item128 0x21))] base
theorem witness_CurveSlotsChange : (base.spad.synd = []
    ∧ issuesAs base (.mint mintS) (fun m => m.op == .mint && (m.get .img).f == .u8 && !(m.get .img).trn
        && (m.get .img).len base.regs == 80) = true
    ∧ imageOk image 80 = true ∧ imageOk (List.replicate 80 0) 80 = false)
    ∧ (let c := one minted
    started minted ∧ minted.awaiting .mint = some c ∧ minted.inflight? c.tag = some c ∧ minted.curveFree c.tag (c.cmd.chain % 16) = true)
    ∧ (let c := one synced
       started synced ∧ synced.awaiting .fnsync = some c ∧ synced.inflight? c.tag = some c
         ∧ ∀ k ∈ maskBits (bitsOf c.cmd.chain 15 0), synced.curveFree c.tag k = true)
    ∧ ([minted, synced].all fun s => let c := one s
       decide (s.stream.inflight = [c] ∧ s.stopped c.tag = false ∧ plainB s c = true ∧ c.writes = [])) = true
    ∧ (let s := go [.cvt cvtS, .fnsync (slotOf 0 true 2 (item128 0x21))] base
       let c := s.stream.inflight.getD 1 (one s)
       started s ∧ s.awaiting .fnsync = some c ∧ s.inflight? c.tag = some c ∧ s.stream.inflight.head? ≠ some c
         ∧ s.curveFree c.tag 0 = true ∧ s.curveFree c.tag 5 = true) := by decide +kernel

def rollSetting : State :=
  go [.rollset (slotOf 0 true 1 (item128 (0x8000 * 2 ^ 96 + 64 * 2 ^ 64 + 4 * 2 ^ 48 + 3 * 16 + 1)))] base
def behind : State := go [.cvt cvtS, .waitgc (slotOf 0 true 2 (item128 0))] calm
def waitingGc : State := go [.waitgc (slotOf 0 true 1 (item128 0))] calm
theorem witness_RollSetAndWaitgcTakeEffect : (let c := one rollSetting
    started rollSetting ∧ rollSetting.awaiting .rollset = some c ∧ rollSetting.inflight? c.tag = some c
      ∧ rollSetting.rollUsed c.tag (bitsOf c.cmd.chain 7 4) = false)
    ∧ (let c := one waitingGc
       started waitingGc ∧ waitingGc.tb.state ≠ .notAligned ∧ waitingGc.awaiting .waitgc = some c ∧ waitingGc.inflight? c.tag = some c
         ∧ waitingGc.behind (bitsOf c.cmd.chain 63 0) 6 = false ∧ bitsOf c.cmd.chain 63 0 ≤ waitingGc.gc.toNat ∧ waitingGc.stream.inflight = [c] ∧ waitingGc.stopped c.tag = false
         ∧ plainB waitingGc c = true ∧ c.writes = [])
    ∧ (let s := behind
       let c := s.stream.inflight.getD 1 (one s)
       started s ∧ s.awaiting .waitgc = some c ∧ s.inflight? c.tag = some c ∧ s.stream.inflight.head? ≠ some c
         ∧ s.behind 0 6 = false) := by decide +kernel

def clearingFor (who : ClearFor) (b : Boot) : State := { base with boot := b, spad := { base.spad with clearing := some who } }
theorem witness_ScratchpadIsCleared : (clearingFor .warm .warmClear).spad.clearing = some .warm
    ∧ (clearingFor .tenant .ready).spad.clearing = some .tenant ∧ (clearingFor .tenant .ready).pw.state ≠ .halt := by decide

/-- `ARES` SCORE waits for accumulator rows of 8 elements, two in a beat of 16: a beat within them, one of no element, and one
with an element outside. -/
def scoring : State := go [.aresScore (slotOf 2 true 1 (accDesc 8 2 ++ outF32 ++ item128 bOPEN))] base
theorem witness_AccPresentationIsTaken : (let s := scoring
    let c := one s
    started s ∧ s.stream.acc = none ∧ (s.stream.inflight.findSome? fun c => c.accBeat.map fun b => (c, b)) = some (c, 0)
      ∧ s.stopped c.tag = false ∧ s.inflight? c.tag = some c
      ∧ (∃ g ∈ (c.cmd.geo c.regs).segs 0, g.pos ≤ 0 ∧ 0 < g.pos + g.len)
      ∧ ∀ g ∈ (c.cmd.geo c.regs).segs 0, ¬(g.pos ≤ 20 ∧ 20 < g.pos + g.len)) := by decide +kernel

/-- The unit at a moment of the view. -/
def atGc (n : Nat) : State := { calm with tb := { base.tb with v := BitVec.ofNat 64 n } }

def writeBox : BoxOp := { write := true, hi := 7, lo := 0 }
theorem witness_DeclarationsAreAnswered : started base ∧ base.ft.unit ≠ .offline ∧ base.tagTaken 7 = false
    ∧ 64 * writeBox.hi.toNat < base.spadBytes ∧ base.meetsRoll none 0 511 = false ∧ base.stream.waiting = []
    ∧ base.declHeld [writeBox] [] = none ∧ base.badClaim [] = none
    ∧ (go [.waitgc (slotOf 0 true 2 (item128 5))] base).declHeld [writeBox] [] ≠ none
    ∧ base.badClaim [⟨3, true, 0⟩] ≠ none ∧ base.declHeld [writeBox] [⟨3, true, 0⟩] = none
    ∧ base.spadBytes ≤ 64 * ({ write := true, hi := 0xFFFFFF, lo := 0 } : BoxOp).hi.toNat
    ∧ (let s := { base with rolls := vecModify base.rolls 3 fun r => { r with enable := true, st := .active, nslot := 2, slotb := 64 } }
       s.meetsRoll none 0 511 = true)
    ∧ 10 < (List.replicate 11 writeBox).length ∧ ({ write := true, hi := 0, lo := 1 } : BoxOp).hi.toNat < 1 := by decide +kernel

/-- Roll 3 with two slots; command 7 of engine 1 produces into it, command 8 consumes one published slot. -/
def rolling (hseq : W32) (cs : List Claim) : State :=
  { base with
    rolls := vecModify base.rolls 3 fun r => { r with
      enable := true, st := .active, base := 0x8000, slotb := 64, nslot := 2, hseq := hseq, rhead := 1, rtail := 1 }
    escrow := { base.escrow with engines := [⟨7, 1⟩, ⟨8, 2⟩] }, stream := { base.stream with claims := cs } }
def producer : Claim := { tag := 7, roll := 3, produce := true, first := 0, n := 1, acquired := 0, done := 0, since := none }
def consumer : Claim := { producer with tag := 8, produce := false }
def declared : State := go [.escrowDeclaration 7 1 [writeBox] []] calm
def queued : State := { base with stream := { base.stream with waiting := [.decl 7 1 [writeBox] [] 0 none] } }
theorem witness_GrantsAndReports : started queued ∧ queued.ft.unit ≠ .offline ∧ queued.declHeld [writeBox] [] = none
    ∧ queued.badClaim [] = none ∧ queued.rollBox [writeBox] = none
    ∧ (let s := { queued with rolls := vecModify queued.rolls 3 fun r => { r with enable := true, st := .active, nslot := 2, slotb := 64 } }
       s.declHeld [writeBox] [] = none ∧ s.rollBox [writeBox] ≠ none)
    ∧ queued.badClaim [⟨3, true, 0⟩] ≠ none ∧ queued.declHeld [writeBox] [⟨3, true, 0⟩] = none
    ∧ (let x := { producer with since := some 0 }
       let s := rolling 0 [x]
       (s.stream.claims.find? fun c => c.tag == 7 && c.since.isSome && (s.escrow.engines.any fun e => e.tag == 7)) = some x
         ∧ (s.roll 3).st = .active ∧ (s.roll 3).overwrite = false ∧ (x.seq x.acquired - (s.roll 3).tseq).toInt < (s.roll 3).nslot.toNat)
    ∧ (∃ e ∈ declared.escrow.engines, e.tag = 7) ∧ (∀ e ∈ base.escrow.engines, e.tag ≠ 7) := by decide +kernel

/-- A producer whose slot is free, one whose slots are all taken, a consumer of a published slot and of one that is not; one that publishes,
one that releases; and a claim that has waited for one slot. -/
theorem witness_RollReportsMoveSlots :
    let asks (r : Roll) (x : Claim) : Bool := decide (x.acquired < x.n) && x.since.isNone && (0 : W32) == x.seq x.acquired && r.enable
    let fills (x : Claim) : Bool := x.produce && decide (x.done < x.acquired) && (0 : W32) == x.seq x.done
    let frees (r : Roll) (x : Claim) : Bool := !x.produce && decide (x.done < x.n) && (0 : W32) == x.seq x.done
      && (decide (x.done < x.acquired) || r.published 0)
    (let s := rolling 0 [producer]
     started s ∧ (s.roll 3).enable = true ∧ (s.roll 3).st = .active ∧ s.engineClaim 7 3 (asks (s.roll 3)) = some producer
      ∧ (0 - (s.roll 3).tseq).toInt < (s.roll 3).nslot.toNat ∧ s.engineClaim 9 3 (asks (s.roll 3)) = none)
    ∧ (let s := rolling 0 [producer]
       let r := { s.roll 3 with overwrite := true }
       (r.settle s.stream.claims 3 0).isSome)
    ∧ (let s := { rolling 0 [producer] with rolls := vecModify (rolling 0 [producer]).rolls 3 fun r => { r with tseq := 0xFFFFFFFE } }
       s.engineClaim 7 3 (asks (s.roll 3)) = some producer ∧ ¬ (0 - (s.roll 3).tseq).toInt < (s.roll 3).nslot.toNat)
    ∧ (rolling 1 [consumer]).engineClaim 8 3 (asks ((rolling 1 [consumer]).roll 3)) = some consumer
    ∧ 0 < (((rolling 1 [consumer]).roll 3).hseq - 0).toInt ∧ ¬ 0 < (((rolling 0 [consumer]).roll 3).hseq - 0).toInt
    ∧ (rolling 0 [consumer]).engineClaim 8 3 (asks ((rolling 0 [consumer]).roll 3)) = some consumer
    ∧ (rolling 0 [{ producer with acquired := 1 }]).engineClaim 7 3 fills = some { producer with acquired := 1 }
    ∧ (rolling 1 [{ consumer with acquired := 1 }]).engineClaim 8 3 (frees ((rolling 1 []).roll 3)) = some { consumer with acquired := 1 }
    ∧ (let s := { rolling 3 [{ producer with first := 3 }] with rolls := vecModify (rolling 3 []).rolls 3 fun r =>
         { r with overwrite := true, nslot := 3, rhead := 4, rtail := 0 } }
       let r := s.roll 3
       s.engineClaim 7 3 (fun x => decide (x.acquired < x.n) && x.since.isNone && (3 : W32) == x.seq x.acquired) = some { producer with first := 3 }
         ∧ ¬ (3 - r.tseq).toInt < r.nslot.toNat ∧ r.oldestUnheld (r.heldSlots s.stream.claims 3) (r.nslot.toNat + 1) r.tseq = some 0
         ∧ (({ r with tseq := 1, rtail := 1, dropped := satAdd r.dropped 1 } : Roll).settle s.stream.claims 3 3).isSome = true)
    ∧ faulted.inflight? (one faulted).tag = some (one faulted) ∧ (one faulted).fault ≠ none
    ∧ (let s := { rolling 0 [{ producer with since := some 0 }] with tb := { base.tb with cycle := 2000000 } }
       s.escrow.rollWatchdog.toNat ≤ s.tb.cycle - 0 ∧ s.inflight? 7 = none) := by decide +kernel

/-- Column 7 of Table 10.1 is data bit 0: word 5 shows it, and a write-back is queued. -/
def correcting : State := { base with spad := { base.spad with nextSteal := 1000, synd := [(5, 7)], wb := [(5, 7)], mem := [(40, 1)] } }
theorem witness_ScratchpadAccesses : (started declared ∧ declared.spad.clearing = none ∧ declared.guardedIn 0 = false
    ∧ declared.bankTaken 0 64 = false ∧ base.bankTaken 0 64 = true ∧ declared.spad.synd = [] ∧ Memory.wf declared.spad.mem = true
    ∧ 512 ≤ declared.spadBytes ∧ declared.declared true 0 7 = true ∧ declared.declared false 0 7 = false
    ∧ declared.spadBytes < 64 * (0x1FFFFF : BitVec 21).toNat + 512)
    ∧ (started calm ∧ calm.spad.clearing = none ∧ calm.bankTaken 0 1 = false ∧ calm.wServed (bankOfWord 0) = false ∧ calm.spad.synd = []
    ∧ calm.bankTaken 0xFFFFFF 1 = false ∧ calm.wServed (bankOfWord 0xFFFFFF) = false ∧ Memory.wf calm.spad.mem = true
    ∧ base.bankTaken 5 1 = true ∧ base.spad.nWait = none ∧ 8 * (0 : BitVec 24).toNat + 8 ≤ base.spadBytes
    ∧ base.spadBytes < 8 * (0xFFFFFF : BitVec 24).toNat + 8 ∧ (clearingFor .tenant .ready).spad.clearing ≠ none
    ∧ (clearingFor .tenant .ready).spad.nWait = none ∧ 32 ≤ 40 - 8) := by decide +kernel

theorem witness_ScrubVisitsAndCorrections : started base ∧ base.spad.clearing = none ∧ base.spad.wb = [] ∧ base.spad.nWait = none
    ∧ base.spad.synd = [] ∧ base.tb.state ≠ .notAligned ∧ base.spad.nextSteal.toNat ≤ base.gc.toNat ∧ base.stealDue = true
    ∧ base.behind base.spad.nextSteal.toNat 3 = false ∧ calm.stealDue = false ∧ calm.wServed 0 = false ∧ correcting.stealDue = false
    ∧ correcting.spad.syndrome 5 = 7 ∧ classify 7 = .dataBit 0 ∧ sparseFrom 0 0 correcting.spad.synd = true
    ∧ Memory.wf correcting.spad.mem = true := by decide +kernel

/-- A `SETTLE` of two closed sums, in a strict epoch and in a fast one. -/
def strictBase : State := { base with ep := { base.ep with cur := { base.ep.cur with strict := true } } }
def twoSums : SlotOps := slotOf 2 true 1 (spadDesc 0 0x1000 2 2 8 ++ spadDesc 8 0x3000 32 2 64 ++ item128 (bOPEN + bCLOSE + 2 ^ 105 + tapX))
def settling (s : State) : State :=
  go [.red twoSums, .beatReadStart, .beatWriteComplete, .rowResult, .rowResult, .commandRetirement, .settle settleS] s
theorem witness_ParticipantsSendTheirParts : ([base, strictBase].all fun b =>
    let s := settling b
    let c := one s
    let m := c.cmd
    decide (started s ∧ s.inflight? c.tag = some c ∧ c.fault = none ∧ c.conflict = none ∧ m.op = .settle ∧ 1 < m.settleRows
      ∧ s.spad.synd = [] ∧ s.st.rowSynd = [] ∧ s.setBuf = []
      ∧ (c.row? 1).settled = false ∧ (c.row? 1).sent = false ∧ s.sourceReady c m 1 = true
      ∧ sourceOk c m (s.sourceRow c m 1).2.2 = true ∧ c.modes.strict = b.ep.cur.strict
      ∧ (if c.modes.strict then s.position m.scope = m.after (m.owner 1) else s.position m.scope ≠ m.owner 1))) = true := by decide +kernel

/-- The flits of a row's record from a position, as they stand in the settlement buffer. -/
def record? (s : State) (type src row : Nat) : List BufFlit :=
  let c := one s
  (c.flits c.cmd type src 0 row (s.sourceRow c c.cmd row).2.2.bytes).map fun f => { scope := c.cmd.scope, flit := f.bytes 0, at_ := 0, synd := [] }
def with? (s : State) (type src row : Nat) : State := { s with setBuf := record? s type src row }
/-- Three participants. -/
def settle3 : SlotOps := slotOf 0 true 2 (item128 (1 * 2 ^ 80 + 2 * 2 ^ 64 + 2 * 2 ^ 44 + 7))
def threeParts : State := { settling base with stream := { (settling base).stream with inflight := (go [.settle settle3] base).stream.inflight } }
def awaits (s : State) (row src : Nat) (strict : Bool) : Bool :=
  let c := one s
  let m := c.cmd
  let w := c.row? row
  let own := (s.sourceRow c m row).2.2
  decide (started s ∧ s.inflight? c.tag = some c ∧ c.fault = none ∧ c.conflict = none ∧ m.op = .settle ∧ row < m.settleRows
    ∧ row < c.settle.length ∧ w.settled = false ∧ w.final = none ∧ s.spad.synd = [] ∧ s.st.rowSynd = [] ∧ (∀ b ∈ s.setBuf, b.synd = [])
    ∧ c.modes.strict = strict ∧ s.sourceReady c m row = true ∧ sourceOk c m own = true ∧ s.placeHeld c m row = false
    ∧ src ∈ m.parties ∧ src ∉ w.merged)
def merges (s : State) (row src : Nat) : Bool :=
  let c := one s
  match s.bufRecord c c.cmd tPART src row with
  | some bs => (mergeRows (s.sourceRow c c.cmd row).2.2 (RowSt.ofBytes bs) c.slot.epoch).isSome
  | none => false
/-- A fast owner with the last part and with one of two, a strict one, and a participant that the settled record has reached. -/
theorem witness_SettlementsComplete :
    (let s := with? (settling base) tPART 1 0
     awaits s 0 1 false = true ∧ merges s 0 1 = true ∧ s.arrivals (one s) (one s).cmd 0 = [1] ∧ s.position (one s).cmd.scope = (one s).cmd.owner 0
       ∧ (one s).cmd.parties.length ≤ 0 + 2 ∧ ((one s).row? 0).sent = false)
    ∧ (let s := with? threeParts tPART 1 0
       awaits s 0 1 false = true ∧ merges s 0 1 = true ∧ s.arrivals (one s) (one s).cmd 0 = [1] ∧ 0 + 2 < (one s).cmd.parties.length)
    ∧ (let s := with? (settling strictBase) tPART 1 0
       awaits s 0 1 true = true ∧ merges s 0 1 = true ∧ (one s).cmd.before 0 = 1 ∧ (one s).cmd.after 0 ≠ 0)
    ∧ (let s := with? (go [.partSend (one (settling base)).tag 1] (settling base)) tFINAL 1 1
       awaits s 1 1 false = true ∧ ((one s).row? 1).sent = true ∧ (one s).cmd.owner 1 = 1
         ∧ (s.bufRecord (one s) (one s).cmd tFINAL 1 1).isSome = true)
    ∧ (let s := settling base
       let f := (record? s tPART 1 0).headD ⟨.cluster, [], 0, []⟩
       let g := Flit.ofBytes f.flit
       f.flit.length = 80 ∧ crc32c (f.flit.take 76) = BitVec.ofNat 32 (leAt f.flit 76 4) ∧ f.flit.getD 65 0 = (s.link f.scope).rxSeq
         ∧ (f.flit.getD 67 0).getLsbD 7 = false ∧ g.type = tPART ∧ g.dst = s.position f.scope ∧ s.setBuf = []
         ∧ s.settle? f.scope g.tenant g.sid = some (one s) ∧ (s.badFlit (one s) (one s).cmd g).isNone = true)
    ∧ (let u := settling base
       let c : Inflight := { one u with settle := (one u).settle.map fun w => { w with settled := true } }
       let s : State := { u with stream := { u.stream with inflight := [c] } }
       started s ∧ c.fault = none ∧ c.cmd.op = .settle ∧ s.stopped c.tag = false ∧ plainB s c = true ∧ c.writes = [] ∧ s.rowReady c = false
         ∧ c.cmd.rc.aen = false ∧ c.cmd.rc.amen = false ∧ (∀ w ∈ c.settle, w.settled = true) ∧ s.unacked c c.cmd = false) := by
  refine ⟨by decide +kernel, by decide +kernel, by decide +kernel, by decide +kernel, by decide +kernel, by decide +kernel⟩

/-- A `SETTLE` without a source state, and one whose part does not match; one that has waited out its count; an ABORT flit and the two notices. -/
def sourceless : State := go [.settle settleS] base
def abortFlit (f : Flit) : Bool :=
  let b := f.bytes 0
  let g := Flit.ofBytes b
  decide (b.length = 80 ∧ crc32c (b.take 76) = BitVec.ofNat 32 (leAt b 76 4) ∧ b.getD 65 0 = (base.link .cluster).rxSeq
    ∧ (b.getD 67 0).getLsbD 7 = false ∧ g.type = tABORT)
theorem witness_AbortsEndSettlements :
    (let s := sourceless
     let c := one s
     started s ∧ s.inflight? c.tag = some c ∧ c.fault = none ∧ c.conflict = none ∧ c.cmd.op = .settle ∧ 1 < c.cmd.settleRows
       ∧ s.sourceReady c c.cmd 1 = true ∧ s.setBuf = [] ∧ sourceOk c c.cmd (s.sourceRow c c.cmd 1).2.2 = false
       ∧ (c.row? 1).settled = false ∧ (c.row? 1).sent = false ∧ (c.row? 1).final = none)
    ∧ (let u := settling strictBase
       let c := one u
       let s : State := { u with setBuf := (c.flits c.cmd tPART 1 0 0 (List.replicate 256 0)).map fun f => ⟨c.cmd.scope, f.bytes 0, 0, []⟩ }
       awaits s 0 1 true = true ∧ (s.bufRecord c c.cmd tPART (c.cmd.before 0) 0).isSome = true
         ∧ (match s.bufRecord c c.cmd tPART 1 0 with
            | some bs => (mergeRows (RowSt.ofBytes bs) (s.sourceRow c c.cmd 0).2.2 c.slot.epoch).isNone | none => false) = true
         ∧ s.position c.cmd.scope ≠ c.cmd.after (c.cmd.owner 0))
    ∧ (let s := sourceless
       let c := one s
       s.stream.waiting = [] ∧ c.ready = false ∧ c.limit ≤ ({ s.tb with cycle := c.issued + c.limit } : TimeBase).cycle - c.issued)
    ∧ (abortFlit (.abort 0x0106 0 1 0 0 0 2) && abortFlit (.abort 0x0106 0 0 0 0 0 2) && abortFlit (.notice true 2) && abortFlit (.notice false 2)) = true
    ∧ base.position .cluster = 0 ∧ base.boot ≠ .otpLoad ∧ base.stream.inflight = [] ∧ (base.settle? .cluster 0 0).isNone = true
    ∧ sourceless.settle? (one sourceless).cmd.scope 0 0 = some (one sourceless)
    ∧ (let c : Inflight := { one sourceless with fault := some 0x0106 }
       let s : State := { sourceless with stream := { sourceless.stream with inflight := [c] } }
       started s ∧ c.cmd.op = .settle ∧ c.ready = false ∧ s.stopped c.tag = false ∧ c.beats = [] ∧ c.hard = []
         ∧ Memory.wf s.st.rowTab = true) := by
  refine ⟨by decide +kernel, by decide +kernel, by decide +kernel, by decide +kernel, by decide, by decide, by decide, by decide +kernel,
    by decide +kernel, by decide +kernel⟩

def idle : Flit := { payload := List.replicate 64 0, strict := false, tenant := 0, type := tIDLE, src := 0, dst := 0, slot := 0
                     bcast := false, part := 0, sid := 0, epoch := 0, row := 0, nrows := 0 }
/-- A `PART` for position 2 and one for this unit, of a `SETTLE` that has not come; a full buffer; a link whose last word was a NAK. -/
def part (dst : Nat) : List Byte := Flit.bytes { idle with type := tPART, src := 1, dst := dst } 0
def buffered : State := { base with setBuf := List.replicate 256 ⟨.die, part 0, 0, []⟩ }
def naked : State := { base with links := ({ base.links.1 with nakSent := true }, base.links.2) }
/-- A ring whose unit's own upstream link is down. -/
def ringDown : State := { base with links := ({ base.links.1 with ringDown := [0], st := .down }, base.links.2) }
def goodFlit (s : State) (b : List Byte) (type : Nat) (seq : Byte) (reserved : Bool) : Bool :=
  decide (b.length = 80 ∧ crc32c (b.take 76) = BitVec.ofNat 32 (leAt b 76 4) ∧ (Flit.ofBytes b).type = type ∧ b.getD 65 0 = seq
    ∧ (b.getD 67 0).getLsbD 7 = reserved ∧ s.boot ≠ .otpLoad ∧ s.pw.state ≠ .halt)
theorem witness_FlitsAreTaken : (goodFlit base (idle.bytes 0) tIDLE 0 false
      && goodFlit naked (idle.bytes 3) tIDLE 3 false && goodFlit base (({ idle with type := 5 } : Flit).bytes 0) 5 0 false
      && goodFlit base (({ idle with slot := 8 } : Flit).bytes 0) tIDLE 0 true
      && goodFlit base (({ idle with type := tTRAIN } : Flit).bytes 9) tTRAIN 9 false
      && goodFlit base (({ idle with type := tTRAIN, slot := 8 } : Flit).bytes 9) tTRAIN 9 true
      && goodFlit base (({ idle with type := tFINAL } : Flit).bytes 0) tFINAL 0 false
      && goodFlit base (part 2) tPART 0 false && goodFlit base (part 0) tPART 0 false) = true
    ∧ crc32c ((List.replicate 80 (0 : Byte)).take 76) ≠ BitVec.ofNat 32 (leAt (List.replicate 80 0) 76 4)
    ∧ (base.link .cluster).rxSeq = 0 ∧ (base.link .cluster).nakSent = false ∧ naked.links.1.nakSent = true
    ∧ ringDown.position .cluster ∈ (ringDown.link .cluster).ringDown ∧ base.position .cluster ∉ (base.link .cluster).ringDown
    ∧ base.stream.inflight = [] ∧ (base.settle? .cluster 0 0).isNone = true
    ∧ (Flit.ofBytes (part 2)).dst = 2 ∧ (Flit.ofBytes (part 0)).dst = 0 ∧ base.position .cluster = 0
    ∧ base.setBuf.length < 256 ∧ 256 ≤ buffered.setBuf.length := by decide +kernel

/-- A link with one unacknowledged flit that has been quiet for a time, after some retries, and a buffered flit of no `SETTLE`. -/
def sending (quiet consec : Nat) : State :=
  { base with
    links := ({ base.links.1 with replay := [idle.bytes 0], next := 1, txSeq := 1, quiet := quiet, consec := consec }, base.links.2)
    setBuf := [⟨.cluster, idle.bytes 0, 0, []⟩], escrow := { base.escrow with watchdog := 0 } }
theorem witness_RingTimersAndAcknowledgements : ([ackWord false false 0, ackWord false true 0, ackWord true false 0, ackWord false false 5,
      ackWord false false 0 false].all fun w => ackParity w == w.getLsbD 13) = true
    ∧ (ackWord false false 0 false).getLsbD 8 = false ∧ (ackWord false false 0).getLsbD 8 = true ∧ (ackWord false true 0).getLsbD 14 = true
    ∧ (ackWord true false 0).getLsbD 15 = true ∧ (ackWord false false 0).getLsbD 15 = false
    ∧ ((sending 9 0).link .cluster).covered 0 = 1 ∧ ((sending 9 0).link .cluster).covered 5 = 0 ∧ ((sending 9 3).link .cluster).consec = 3
    ∧ ((sending 9 0).link .cluster).down = false ∧ (State.reset.link .cluster).down = true
    ∧ ((sending 512 7).link .cluster).hold = false ∧ ((sending 512 7).link .cluster).replay ≠ [] ∧ (sending 512 7).stream.inflight = []
    ∧ (sending 9 0).boot ≠ .otpLoad ∧ (sending 9 0).pw.state ≠ .halt
    ∧ (sending 9 0).escrow.watchdog.toNat ≤ (sending 9 0).tb.cycle - 0 := by decide +kernel

theorem witness_FlitBytesRoundTrip : idle.payload.length = 64 ∧ idle.type < 16 ∧ idle.src < 16 ∧ idle.dst < 16 ∧ idle.slot < 8
    ∧ idle.part < 8 := by decide

/-- A pulse ahead of the view, and one behind it; a missing pulse; a frozen view that Q has passed. -/
theorem witness_SyncPulsesKeepTime : (atGc 5).tb.state ≠ .notAligned ∧ (∀ k, (base.link k).trained < 64 ∧ (base.link k).rxTrain < 64)
    ∧ (atGc 5).tb.v.toNat ≤ 1000000 ∧ ((0 : Gc).toNat < (atGc 5).tb.v.toNat) ∧ (600 : BitVec 12).toNat = 600
    ∧ ({ base.tb with q := 1500000 } : TimeBase).lastSync.toNat + 1500000 + 1000000 * base.tb.gap ≤ 1500000
    ∧ base.fixed.straps.testMode = false ∧ base.boot ≠ .otpLoad ∧ base.pw.state ≠ .halt
    ∧ 64 ≤ ({ Link.default with trained := 64 } : Link).trained ∧ Link.default.down = true ∧ Link.default.rxTrain < 64
    ∧ 64 ≤ ({ Link.default with rxTrain := 64 } : Link).rxTrain ∧ Link.default.trained < 64 := by
  refine ⟨by decide +kernel, fun k => by cases k <;> decide, by decide +kernel⟩

def switching : State := { calm with ep := { base.ep with armed := true, pendEpoch := 1 } }
theorem witness_EpochsAtResetsAndSwitches : started switching ∧ switching.tb.state ≠ .notAligned ∧ switching.ep.armed = true
    ∧ switching.ep.switchGc.toNat ≤ switching.gc.toNat ∧ switching.previousHeld = false
    ∧ switching.behind switching.ep.switchGc.toNat 1 = false ∧ base.behind (128000 * (base.ft.step + 1)) 4 = true
    ∧ (one (go [.tenant tenantS] base)).cmd.op = .tenant := by decide +kernel

/-- A sample that is due, with both sensors in range, with one, and with none. -/
def sampling (thermal : Nat) : State := { calm with pw := { calm.pw with nextSample := 0, thermal := thermal } }
theorem witness_TelemetrySetsIssueLevel : (sampling 100).boot ≠ .otpLoad ∧ (sampling 100).tb.state ≠ .notAligned
    ∧ (sampling 100).pw.nextSample.toNat ≤ (sampling 100).gc.toNat
    ∧ (sampling 100).pw.nextSample.toNat + (sampling 100).pw.set.period.toNat < 2 ^ 64 ∧ 0 < (sampling 100).pw.set.period.toNat
    ∧ (sampling 100).behind (sampling 100).pw.nextSample.toNat 5 = false ∧ 0 ∈ [0, 25, 50, 75, 100] ∧ State.reset.pw.thermal = 100
    ∧ sensorValid (1840 : W16).toInt 0 = true ∧ sensorValid (2401 : W16).toInt 0 = false := by decide +kernel

/-- A sample at 115 °C halts, and one below 112 °C leaves the halt at the 25 % level (Table 14.7). -/
theorem test_thermalSteps : (thermalStep 0 1840, thermalStep 4 1792, thermalStep 4 1791, thermalStep 0 1599) = (4, 4, 3, 0) := by decide +kernel

/-- An idle unit, one whose groups power down, one that asks for a grant, and one that powers up. -/
def powered (f : Power → Power) : State := { base with pw := f base.pw }
theorem witness_PowerStepsInOrder :
    (let s : State := { base with tb := { base.tb with cycle := 1000 } }
     started s ∧ s.pw.state = .run ∧ s.stream.inflight = [] ∧ s.stream.waiting = [] ∧ s.pw.eff.delay.toNat ≤ s.tb.cycle - s.pw.idleSince)
    ∧ (powered fun p => { p with state := .sleep, down := some (7, 0) }).pw.down = some (7, 0)
    ∧ (powered fun p => { p with greq := true }).pw.greq = true
    ∧ (powered fun p => { p with grant := some 0, nextGroup := 3 }).pw.nextGroup < 8
    ∧ (powered fun p => { p with grant := some 0, nextGroup := 8 }).pw.state ≠ .halt
    ∧ (powered fun p => { p with grant := some 0, nextGroup := 3 }).behind 0 2 = false := by decide +kernel

/-- A cold start that has its grant, and a warm one, neither of them aligned. -/
def powersUp (b : Boot) (k : Nat) : State :=
  { base with
    boot := b, tb := { base.tb with state := .notAligned, tclk := 2000 }
    pw := { base.pw with state := .waking, grant := some 900, nextGroup := k } }
theorem witness_PowerStepsInOrder_startUp :
    (∀ k ∈ [0, 8], (powersUp .grant k).stepClock = 2000 ∧ (powersUp .grant k).pw.state ≠ .halt ∧ (powersUp .grant k).behind 900 2 = false)
    ∧ (∀ k ∈ [0, 8], let s : State := { powersUp .warmPower k with tb := { (powersUp .warmPower k).tb with v := 1000 } }
        s.stepClock = 1000 ∧ s.behind 900 2 = false) ∧ (900 : Gc).toNat ≤ 1000 := by decide +kernel

theorem witness_MismatchesStopAndTest : (let s := writing
    started s ∧ s.pw.state = .run ∧ s.ft.unit ≠ .offline ∧ s.ft.recovery = none ∧ (s.ft.group 3).st ≠ .disabled
      ∧ (s.stream.inflight.find? fun c => !c.beats.isEmpty) = some (one s)) := by decide +kernel

/-- Lane 5 of group 3 under test, for no command and for a `CVT`. -/
def testing (s : State) (tag : Option W16) : State :=
  let r : Recovery := { tag := tag, suspects := [{ group := 3, lane := 5, checker := false }], last := (3, 5), logged := false }
  { s with ft := { s.ft with recovery := some r } }
theorem witness_LaneTestSettlesLane : (let s := testing base none
    started s ∧ s.ft.unit ≠ .offline ∧ (s.ft.group 3).st = .full ∧ (s.ft.group 3).spareBad = false ∧ (s.ft.group 3).transients = [])
    ∧ (let s := testing reading (some 1)
       let c := one s
       started s ∧ c.tag = 1 ∧ s.stream.inflight = [c] ∧ c.fault = none ∧ c.replays.toNat < 2 ∧ c.pre = [] ∧ c.preSynd = []
         ∧ c.takesAcc = false) := by decide +kernel

theorem witness_ChecksRomsAndLockstep : ((atGc 128000).boot = .ready ∧ (atGc 128000).tb.state ≠ .notAligned
    ∧ (atGc 128000).ft.step < (atGc 128000).gc.toNat / 128000 ∧ (atGc 128000).behind (128000 * ((atGc 128000).ft.step + 1)) 4 = false)
    ∧ base.boot = .ready ∧ base.pw.state = .run ∧ base.ft.unit ≠ .offline ∧ (base.ft.group 3).st ≠ .disabled
    ∧ base.ft.otherLost 3 = false ∧ (∀ c ∈ base.stream.inflight, c.beats = []) := by decide +kernel

/-- A unit with a key and one receipt: queued for signing, signed and checked, and queued for its notice. -/
def receipt (st : RcptStatus) : Receipt :=
  { rseq := 1, tenant := 0, gcSeal := 0, gcStart := 0, deadline := 0, record := [], sig := [], notice := [], nsig := [], status := st
    reason := none, confirmed := false }
def receipts (st : RcptStatus) (sq nq : List W64) : State :=
  { base with
    fixed := { base.fixed with otp := { base.fixed.otp with keys := [1] } }
    ft := { base.ft with romGc := 1, groups := Vector.replicate 8 { Group.default with lastCheck := Vector.replicate 32 1 } }
    prov := { base.prov with rcpt := { base.prov.rcpt with entries := [receipt st], signQ := sq, noticeQ := nq } } }
/-- Three receipts in the store: the second goes through its states. -/
def threeReceipts (st : RcptStatus) (why : Option (Nat × Gc)) (sq nq : List W64) : State :=
  let s := receipts st sq nq
  { s with
    spad := calm.spad, pw := calm.pw
    prov := { s.prov with rcpt := { s.prov.rcpt with
      entries := [{ receipt .queued with rseq := 9 }, { receipt st with reason := why }, { receipt .queued with rseq := 2 }] } } }
theorem witness_ReceiptsAreSignedAndConfirmed : (threeReceipts .queued none [1, 2] []).signs = true ∧ base.prov.keys.rot = .idle
    ∧ (threeReceipts .queued none [1, 2] []).prov.rcpt.signQ = [1, 2] ∧ (threeReceipts .queued none [1, 2] []).prov.rcpt.noticeTurn = false
    ∧ (∀ x ∈ (threeReceipts .queued none [1, 2] []).prov.rcpt.entries, x.status = .signed → x.reason = none)
    ∧ (threeReceipts .signed none [] []).checkedSince 0 = true ∧ (threeReceipts .signed none [] []).behind 0 7 = false
    ∧ (threeReceipts .signed none [] []).boot = .ready ∧ (threeReceipts .signed none [] []).pw.state = .run
    ∧ (threeReceipts .signed none [] []).tb.state ≠ .notAligned ∧ (0 : Gc).toNat ≤ (threeReceipts .signed none [] []).gc.toNat
    ∧ ((threeReceipts .signed none [] []).prov.rcpt.entries.map fun e => e.rseq).Nodup
    ∧ (threeReceipts .noticeQueued none [] [1]).prov.rcpt.noticeQ = [1] ∧ (threeReceipts .noticeQueued none [] [1]).signs = true
    ∧ (threeReceipts .noticeQueued (some (1, 5)) [] [1]).prov.rcpt.signQ = [] := by decide +kernel

def keyed (f : Keys → Keys) : State := { base with prov := { base.prov with keys := f base.prov.keys } }
theorem witness_KeysAreMadeAndRotated : (keyed fun k => { k with rot := .generating }).prov.keys.rot = .generating
    ∧ base.prov.rcpt.signQ = [] ∧ (receipts .queued [1] []).prov.rcpt.signQ ≠ []
    ∧ (keyed fun k => { k with rot := .programming, next := some 7 }).prov.keys.next = some 7
    ∧ (keyed fun k => { k with gen := true }).prov.keys.gen = true ∧ base.boot ≠ .testMode ∧ base.boot ≠ .otpLoad
    ∧ base.prov.keys.began + 50000000 ≤ ({ base.tb with tclk := 50000000 } : TimeBase).tclk := by decide +kernel

/-- Frames that break R349 in each way, and the driver's empty request. -/
def limiting (eid : Option Byte) : State := { base with mg := { base.mg with partners := [{ Partner.new eid with limited := true }] } }
theorem witness_MalformedRequestsAreAborted : ((limiting (some 9)).partner (some 9)).limited = true
    ∧ ((limiting none).partner none).limited = true ∧ ({ base with mg := { base.mg with queue := [(9, [])] } } : State).pending = []
    ∧ ({ limiting none with mg := { (limiting none).mg with asked := [[]] } } : State).mg.queue = []
    ∧ base.boot = .ready ∧ (base.partner (some 9)).limited = false ∧ (base.partner none).limited = false
    ∧ base.mg.taken = false ∧ base.mg.queue = [] ∧ base.mg.busy = false ∧ ([[], padTo 72 [2, 1], padTo 72 [1, 4], padTo 72 [1, 1, 0, 0, 0, 0, 0, 0x80], padTo 72 [1, 1, 0, 0, 0, 0, 0, 1],
      padTo 72 [1, 1, 0, 0, 0, 0, 0, 0, 0, 0, 0, 0, 0, 0, 0, 1], padTo 72 [1, 1, 0, 0, 0, 0, 0, 0, 0, 0, 0, 0, 0, 0, 57], base.mg.req].all
      fun f => (Request.ofBytes (padTo 72 f)).malformed f.length) = true := by decide +kernel

/-- A READ; a WRITE of the lock mask in one segment; a CANCEL. -/
def writeMask : List Byte := padTo 72 ([1, 2, 0, 0, 0, 0x31, 1, 0x40, 4, 0, 0, 0, 0, 0, 4, 0] ++ [0x7F, 0, 0, 0])
def queuedFrames (n : Nat) : State := { base with mg := { base.mg with queue := List.replicate n (1, readKey) } }
theorem witness_FramesAreServed : base.boot = .ready ∧ (base.partner (some 9)).limited = false ∧ base.mg.taken = false ∧ base.mg.queue = []
    ∧ (Request.ofBytes readKey).malformed 72 = false ∧ (Request.ofBytes readKey).op = 1 ∧ (Request.ofBytes readKey).seg = 0
    ∧ (let q := Request.ofBytes writeMask
       q.malformed 72 = false ∧ q.op = 2 ∧ q.seg = 0 ∧ q.last = true ∧ (q.payload.take q.len).length = q.total
         ∧ (base.odWrite .operator q.index.toNat q.sub.toNat (q.payload.take q.len)).2 = 0
         ∧ (base.odWrite .operator q.index.toNat 2 (q.payload.take q.len)).2 = 0xA004)
    ∧ (Request.ofBytes (padTo 72 [1, 3])).op = 3 ∧ (Request.ofBytes (padTo 72 [1, 3])).malformed 72 = false
    ∧ (queuedFrames 7).mg.queue ≠ [] ∧ (queuedFrames 7).mg.queue.length < 8 ∧ 8 ≤ (queuedFrames 8).mg.queue.length
    ∧ (queuedFrames 7).pending = [] := by decide +kernel

theorem witness_DriverWindowAndTimers : base.mg.busy = false ∧ base.boot ≠ .otpLoad ∧ State.reset.boot = .otpLoad ∧ base.mg.req.length = 72 ∧ (3 : BitVec 10).toNat < 18
    ∧ (go [.doorbell 1] base).mg.busy = true ∧ (go [.doorbell 1] base).mg.req.length = 72
    ∧ (go [.doorbell 1] base).mg.asked = [base.mg.req] ∧ (go [.doorbell 1] base).mg.queue = [] ∧ (go [.doorbell 1] base).pending = []
    ∧ (atGc 1000000000).mg.window < (atGc 1000000000).gc.toNat / 1000000000 := by decide +kernel

theorem witness_DictionaryWritesApply : base.boot = .ready ∧ base.pw.state ≠ .halt ∧ (127 : W32).toNat < 128
    ∧ (let s : State := { base with ep := { base.ep with pendEpoch := 1, armed := true, switchGc := 9 } }
       s.gc.toNat < s.ep.switchGc.toNat ∧ s.ep.pendEpoch ≠ s.ep.curEpoch ∧ s.ep.pendEpoch ≠ s.ep.prevEpoch ∧ s.gc.toNat < 10)
    ∧ (receipts .noticed [] []).fixed.otp.keys ≠ [] ∧ base.prov.keys.keygen ≠ 15 ∧ base.prov.keys.rot = .idle
    ∧ (receipts .noticed [] []).prov.rcpt.entry? 1 = some (receipt .noticed)
    ∧ (base.roll 3).enable = false ∧ base.rollBusy 3 = false ∧ base.escrow.sets = [] ∧ (0x8000 : W32).toNat % 64 = 0
    ∧ base.mg.selRing.operator.toNat < 64
    ∧ (vecGet base.evRings base.mg.selRing.operator.toNat .default).enable = false := by decide +kernel

/-- An event ring that selects every group and context, and a Ledger with one entry; full, and not. -/
def posting (wr : W32) : State :=
  let s := base.log 0x0106 1 (some 0) []
  { s with evRings := vecModify s.evRings 2 fun r => { r with enable := true, size := 64, wr := wr, groups := 0xFFFF, ctxs := 0xFF } }
def copied : LEntry := (posting 0).ledger.entries.headD ⟨0, 0, 0, none, 0, []⟩
theorem witness_StatementsAndEventRings : base.boot = .ready ∧ (posting 0).nextCopy = some (2, copied) ∧ (posting 64).nextCopy = some (2, copied)
    ∧ (posting 0).evOut.length < 16 ∧ (posting 0).evOut = [] ∧ (vecGet (posting 64).evRings 2 .default).policy = false
    ∧ (go [.eventPost] (posting 0)).evOut = [(2, 0, copied.bytes)] := by decide +kernel

def cold (b : Boot) : State := { State.reset with boot := b }
theorem witness_StartUpReachesReady : (cold .otpLoad).fixed.otp.synd = [] ∧ (cold .mbist).pw.state ≠ .halt
    ∧ (cold .mbist).fixed.straps.testMode = false ∧ (cold .laneTest).ft.tillFail = [] ∧ ((cold .laneTest).ft.group 0).st = .full
    ∧ (cold .tsync).tb.state = .notAligned ∧ (cold .tsync).prov.keys.need = false
    ∧ ((cold .tsync).link .cluster).trained < 64 ∧ ((cold .tsync).link .die).rxTrain < 64
    ∧ (classify 0xFF).bad = true ∧ 0x50 ≤ 8 * 10 ∧ 8 * 10 < 0x100 := by decide +kernel

theorem witness_WarmResetAbandonsCommands : base.boot.warmable = true ∧ (cold .warmHeld).pw.state = .sleep
    ∧ ({ base with boot := .warmHeld } : State).pw.state = .run := by decide +kernel

theorem witness_TestPortCommands : (cold .testMode).boot = .testMode ∧ otpManufacture 5 = true ∧ (cold .testMode).fixed.straps.otpLock = false
    ∧ base.boot ≠ .testMode ∧ restricted .scanChain = true ∧ restricted .laneMap = false
    ∧ (0xFF : Byte) ≠ 0x01 ∧ (0xFF : Byte) ≠ 0x10 := by decide

end Sys2Proof.Tests
end

section
/-! The curve slots between contexts (R132): what `TENANT`, warm reset and cold reset leave in them. -/
namespace Sys2Proof.Machine
open Sys2Proof Sys2Proof.Claims

/-- Every curve slot is empty, with the defaults of Table 5.2. -/
def State.CurvesEmpty (s : State) : Prop := s.st.curves = Vector.replicate 16 Curve.default

theorem vecGet_replicate {α : Type} {n k : Nat} (x d : α) (h : k < n) : vecGet (Vector.replicate n x) k d = x := by
  simp [vecGet, h]

/-- In a state with empty slots, a read of any of the 16 gives the record of defaults, whatever a read out of range would give. -/
theorem State.CurvesEmpty.vecGet_curves {s : State} (h : s.CurvesEmpty) {k : Nat} (hk : k < 16) (d : Curve) :
    vecGet s.st.curves k d = Curve.default := by
  rw [h, vecGet_replicate _ _ hk]

/-! ### The operations that empty the slots -/

theorem State.clearContext_curvesEmpty (s : State) : s.clearContext.CurvesEmpty := rfl

theorem State.tenantClear_curvesEmpty (s : State) : s.tenantClear.CurvesEmpty := s.clearContext_curvesEmpty

theorem State.coldReset_curvesEmpty (s : State) : s.coldReset.CurvesEmpty := rfl

/-- Invalidating receipts changes no store (R254). -/
@[simp] theorem State.invalidateAll_st (s : State) (reason : Nat) : (s.invalidateAll reason).st = s.st := by
  unfold State.invalidateAll
  split <;> rfl

/-- A warm reset that takes effect leaves in the stores what the clear of the context leaves there (R435). -/
theorem State.warmReset_st {s : State} (h : s.boot.warmable = true) : s.warmReset.st = s.clearContext.st := by
  simp [State.warmReset, h]

theorem State.warmReset_curvesEmpty {s : State} (h : s.boot.warmable = true) : s.warmReset.CurvesEmpty := by
  rw [State.CurvesEmpty, State.warmReset_st h]
  exact s.clearContext_curvesEmpty

/-! ### `TENANT` from its slot to its effect at issue -/

/-- The last act of issue is the command's own effect of that cycle. -/
theorem State.issue_onIssue (s : State) (x : Slot) (m : Cmd) (arrived : Nat) :
    ∃ (u : State) (c : Inflight), s.issue x m arrived = u.onIssue c m := ⟨_, _, rfl⟩

theorem State.onIssue_tenant (s : State) (c : Inflight) {m : Cmd} (h : m.op = .tenant) : s.onIssue c m = s.tenantClear := by
  simp only [State.onIssue, h]

theorem State.issue_tenant_curvesEmpty (s : State) (x : Slot) {m : Cmd} (arrived : Nat) (h : m.op = .tenant) :
    (s.issue x m arrived).CurvesEmpty := by
  obtain ⟨u, c, e⟩ := s.issue_onIssue x m arrived
  rw [e, u.onIssue_tenant c h]
  exact u.tenantClear_curvesEmpty

/-- An attempt that issues is the issue with the slot gone from the waiting list; the order of the Ledger alone is settled after it. -/
theorem State.attempt_issue {s : State} {x : Slot} {m : Cmd} (h : s.decision x = .issue m) (arrived : Nat)
    (since : Option (Nat × Nat)) (rest : List Waiting) :
    s.attempt x arrived since rest = ((s.modStream fun st => { st with waiting := rest }).issue x m arrived).cycleLog s := by
  simp only [State.attempt, h]

/-- A `TENANT` that comes to the head of the stream and issues empties the curve slots in that cycle (R388). -/
theorem State.takeSlot_tenant_curvesEmpty {s : State} {x : Slot} {m : Cmd} (hs : atHead s) (hd : s.decision x = .issue m)
    (hm : m.op = .tenant) : (s.takeSlot x).CurvesEmpty := by
  obtain ⟨hboot, hpower, hwaiting⟩ := hs
  obtain ⟨c, p, htake, hsame⟩ := takeSlot_attempt s x hboot hpower hwaiting
  rw [htake, State.attempt_issue (hsame.trans hd), State.CurvesEmpty, State.cycleLog_st]
  exact State.issue_tenant_curvesEmpty _ x s.tb.cycle hm

/-! ### The obligation -/

/-- Settles O16: `TENANT` and warm reset reach the slots through the clear of the context, cold reset through the reset values. -/
theorem curvesClearedBetweenContexts : Obligations.CurvesClearedBetweenContexts := by
  unfold Obligations.CurvesClearedBetweenContexts
  refine ⟨fun o m s hs hd hm => ⟨s.takeSlot (slotWith 0x3F o), ?_, fun k hk => ?_⟩,
    fun s h => ⟨s.warmReset, rfl, fun k hk => ?_⟩, fun s => ⟨s.coldReset, rfl, fun k hk => ?_⟩⟩
  · have hslot : slotOf 0x3F o = slotWith 0x3F o := slotOf_words 0x3F o
    rw [← hslot]
    rfl
  · exact (State.takeSlot_tenant_curvesEmpty hs hd hm).vecGet_curves hk _
  · exact (State.warmReset_curvesEmpty h).vecGet_curves hk _
  · exact s.coldReset_curvesEmpty.vecGet_curves hk _

end Sys2Proof.Machine
end

section
/-! Commands between issue and retirement (R360): what every command and every TCLK cycle keeps, the wait of a slot behind 32
commands, and the in-flight list of the Statement. -/
namespace Sys2Proof.Machine
open Sys2Proof Sys2Proof.Claims

/-! ### Every step keeps the invariant -/

/-- A slot row takes its slot and does nothing else in its step; the rows that offer none drop out. -/
theorem exec_slotRow {c : Instr} {x : Slot} (h : slotRow c = some x) (s : State) : exec c s = .next (s.takeSlot x) := by
  have hslot (n : BitVec 6) (o : SlotOps) : slotWith n o = slotOf n.toNat o := (slotOf_words n o).symm
  cases c
  all_goals cases h
  all_goals
    rw [hslot]
    rfl

/-- Every state in which an outcome completes keeps what no operation may break in `s`. -/
def CompletionKeeps (s : State) (r : Host.Outcome State Fault Refusal) : Prop := ∀ t, r = .next t → Keeps s t

theorem Keeps.completion {s u : State} (h : Keeps s u) : CompletionKeeps s (.next u) := by
  rintro t ⟨⟩
  exact h

theorem fault_completionKeeps (s : State) (f : Fault) : CompletionKeeps s (.fault f) := by
  rintro t ⟨⟩

/-- What completes as an operation followed by the order of the Ledger of its cycle (R407). -/
theorem Keeps.cycleLog_completion {s u : State} (h : Keeps s u) : CompletionKeeps s (.next (u.cycleLog s)) :=
  (State.cycleLog_keeps h s).completion

/-- Every command keeps the queue, the size of the scratchpad, the count of free values drawn and the invariant: the slot rows by
`takeSlot`, every other row by its own operation. -/
theorem exec_completionKeeps (c : Instr) (s : State) : CompletionKeeps s (exec c s) := by
  have k : Keeps s s := .refl s
  cases hslot : slotRow c with
  | some x =>
    rw [exec_slotRow hslot]
    exact (State.takeSlot_keeps k x).completion
  | none =>
    cases c with
    | slotDropped => exact (State.slotDropped_keeps k).completion
    | issueAfterWait => exact (State.issueAfterWait_keeps k).completion
    | escrowWatchdog => exact (State.escrowWatchdog_keeps k _).completion
    | beatReadStart => exact (State.beatReadStart_keeps k).cycleLog_completion
    | beatWriteComplete => exact (State.beatWriteComplete_keeps k).cycleLog_completion
    | hardCaseResolution => exact (State.hardCaseResolution_keeps k).cycleLog_completion
    | rowResult => exact (State.rowResult_keeps k).cycleLog_completion
    | commandRetirement => exact (State.commandRetirement_keeps k).cycleLog_completion
    | curveInstall => exact (State.curveInstall_keeps k).completion
    | curveSlotInvalidate => exact (State.curveSlotInvalidate_keeps k).completion
    | rollSetEffect => exact (State.rollSetEffect_keeps k).completion
    | accPresentation => exact (State.accPresentation_keeps k _).completion
    | escrowDeclaration => exact (State.escrowDeclaration_keeps k _ _ _ _).completion
    | grant => exact (State.grant_keeps k _).completion
    | retirementReport => exact (State.retirementReport_keeps k _).completion
    | rollAcquire | rollPublish | rollRelease => exact (State.rollReport_keeps k _ _ _ _).completion
    | rollWatchdog => exact (State.rollWatchdog_keeps k _).completion
    | wAccess => exact (State.wAccess_keeps k _ _ _ _).cycleLog_completion
    | nAccess => exact (State.nAccess_keeps k _ _ _ _).completion
    | guardedNRequest => exact (State.guardedNRequest_keeps k).completion
    | forcedScrubSteal => exact (State.forcedScrubSteal_keeps k).cycleLog_completion
    | idleScrub => exact (State.idleScrub_keeps k _).cycleLog_completion
    | correctionWriteback => exact (State.correctionWriteback_keeps k).completion
    | scratchpadClearDone => exact (State.scratchpadClearDone_keeps k _).completion
    | partSend => exact (State.partSend_keeps k _ _).cycleLog_completion
    | flitReceive => exact (State.flitReceive_keeps k _ _).cycleLog_completion
    | ackReceive => exact (State.ackReceive_keeps k _ _).completion
    | ackTimeout => exact (State.ackTimeout_keeps k _).completion
    | settlementBufferTimeout => exact (State.settlementBufferTimeout_keeps k).completion
    | syncPulse => exact (State.syncPulse_keeps k _).cycleLog_completion
    | syncPulseMissing => exact (State.syncPulseMissing_keeps k).completion
    | fclkChange mhz =>
      change CompletionKeeps s (if fclkAllowed mhz then _ else _)
      split
      · exact (State.fclkChange_keeps k mhz).completion
      · exact fault_completionKeeps s _
    | epochSwitch => exact (State.epochSwitch_keeps k).completion
    | waitgcRelease => exact (State.waitgcRelease_keeps k).completion
    | checkerRotationStep => exact (State.checkerRotationStep_keeps k).completion
    | telemetrySample => exact (State.telemetrySample_keeps k _ _ _).cycleLog_completion
    | receiptWindowTest => exact (State.receiptWindowTest_keeps k).completion
    | idleTimeout => exact (State.idleTimeout_keeps k).completion
    | pwGrant => exact (State.pwGrant_keeps k).completion
    | laneGroupPowerStep => exact (State.laneGroupPowerStep_keeps k).completion
    | residueMismatch => exact (State.residueMismatch_keeps k _).completion
    | checkerMismatch => exact (State.checkerMismatch_keeps k _).completion
    | laneTestComplete => exact (State.laneTestComplete_keeps k _ _).cycleLog_completion
    | tableRomParity => exact (State.tableRomParity_keeps k _).cycleLog_completion
    | romScanPass => exact (State.romScanPass_keeps k _).cycleLog_completion
    | lockstepMismatch => exact (State.lockstepMismatch_keeps k _).completion
    | signatureComplete => exact (State.signatureComplete_keeps k).completion
    | noticeSigned => exact (State.noticeSigned_keeps k).completion
    | frameRead => exact (State.frameRead_keeps k _ _).completion
    | frameWrite => exact (State.frameWrite_keeps k _ _).completion
    | frameCancel => exact (State.frameCancel_keeps k _ _).completion
    | transactionTimeout => exact (State.transactionTimeout_keeps k).completion
    | rateWindow => exact (State.rateWindow_keeps k).completion
    | doorbell => exact (State.doorbell_keeps k _).completion
    | release => exact (State.release_keeps k _).completion
    | driverWindowWrite => exact (State.driverWindowWrite_keeps k _ _).completion
    | odWrite | switchGcWrite | disarm | rotate | receiptRelease | rollRecordWrite | counterClear | eventRingEnable =>
      exact (State.odWriteRow_keeps k _ _ _ _).completion
    | keyGenerated => exact (State.keyGenerated_keeps k).completion
    | keyrt => exact (State.keyrt_keeps k).completion
    | statementRead => exact (State.statementRead_keeps k _).completion
    | eventPost => exact (State.eventPost_keeps k).completion
    | eventWriteDone => exact (State.eventWriteDone_keeps k _).completion
    | coldReset => exact (State.coldReset_keeps k).completion
    | otpLoad => exact (State.otpLoad_keeps k _).completion
    | mbist => exact (State.mbist_keeps k _).cycleLog_completion
    | romCheck => exact (State.romCheck_keeps k _).cycleLog_completion
    | laneSelfTest => exact (State.laneSelfTest_keeps k _).cycleLog_completion
    | keyGeneration => exact (State.keyGeneration_keeps k).completion
    | keyGenerationTimeout => exact (State.keyGenerationTimeout_keeps k).completion
    | warmReset => exact (State.warmReset_keeps k).completion
    | warmStart => exact (State.warmStart_keeps k _).completion
    | testLogicReset => exact (State.testLogicReset_keeps k).completion
    | idcode => exact (State.idcode_keeps k).completion
    | bypass => exact (State.bypass_keeps k _).completion
    | ijtagAccess => exact (State.ijtagAccess_keeps k _).completion
    | frozenStateExit => exact (State.frozenStateExit_keeps k).completion
    | powerDownStep => exact (State.powerDownStep_keeps k).completion
    | _ => simp [slotRow] at hslot

/-- Every step keeps the invariant: a TCLK cycle where no command waits, the command at the front of the queue otherwise. -/
theorem step_keeps_inv {s t : State} (hinv : s.inv = true) (hstep : step s = .next t) : t.inv = true := by
  unfold step at hstep
  split at hstep
  · obtain rfl := Host.Outcome.next.inj hstep
    exact (State.tick_keeps (.refl s)).inv hinv
  · next c rest _ => exact (exec_completionKeeps c { s with pending := rest } t hstep).inv hinv

theorem State.inflight_le_of_inv {s : State} (h : s.inv = true) : s.stream.inflight.length ≤ 32 := by
  obtain ⟨-, -, -, -, -, hinflight, -⟩ := s.inv_iff.mp h
  exact hinflight

/-! ### The wait behind 32 commands -/

/-- No slot leaves issue while 32 commands stand between issue and retirement (R360). -/
theorem State.decision_full {s : State} (h : 32 ≤ s.stream.inflight.length) (x : Slot) : ∃ w, s.decision x = .hold w := by
  have hv : ∃ w, s.verdict x = .hold w := by
    by_cases hswitch : (s.switches && !s.oldEpoch x.epoch) = true
    · exact ⟨.uncounted, by rw [State.verdict, if_pos hswitch]⟩
    · exact ⟨.counted, by rw [State.verdict, if_neg hswitch, if_pos h]⟩
  obtain ⟨w, hw⟩ := hv
  exact ⟨s.exempt x w, by simp only [State.decision, hw]⟩

/-- An attempt that is held leaves the slot at the head of the waiting list and changes nothing else of the stream. -/
theorem State.attempt_hold_stream {s : State} {x : Slot} {w : Hold} (h : s.decision x = .hold w) (arrived : Nat)
    (since : Option (Nat × Nat)) (rest : List Waiting) :
    (s.attempt x arrived since rest).stream = { s.stream with waiting := .unit x arrived (s.waitStart w since) :: rest } := by
  simp only [State.attempt, h]
  obtain ⟨p, hwake, -, -⟩ := wake_frame (s.modStream fun st => { st with waiting := .unit x arrived (s.waitStart w since) :: rest }) x
  rw [hwake]
  rfl

/-- A slot that comes to the head of the stream and is held waits there. -/
theorem State.takeSlot_hold_stream {s : State} {x : Slot} {w : Hold} (hs : atHead s) (h : s.decision x = .hold w) :
    ∃ since, (s.takeSlot x).stream = { s.stream with waiting := [.unit x s.tb.cycle since] } := by
  obtain ⟨hboot, hpower, hwaiting⟩ := hs
  obtain ⟨c, p, htake, hsame⟩ := takeSlot_attempt s x hboot hpower hwaiting
  exact ⟨_, by rw [htake, State.attempt_hold_stream (hsame.trans h)]⟩

/-- A slot that waits behind 32 commands shows ISSUE, 0x0A. -/
theorem State.waitCode_full {s : State} {x y : Slot} {arrived : Nat} {since : Option (Nat × Nat)} {rest : List Waiting}
    (hwait : s.stream.waiting = .unit y arrived since :: rest) (h : 32 ≤ s.stream.inflight.length) : s.waitCode x = 10 := by
  simp [State.waitCode, hwait, h]

/-! ### The in-flight list of the Statement (Table 13.9) -/

theorem length_leBytes (n v : Nat) : (leBytes n v).length = n := by
  induction n generalizing v with
  | zero => rfl
  | succ n ih => simp [leBytes, ih]

theorem slice_add (bs : List Byte) (a b n : Nat) : slice bs (a + b) n = slice (bs.drop a) b n := by
  simp [slice, List.drop_drop]

/-- In a concatenation of entries of `m` bytes each, entry `k` stands at byte `m * k`. -/
theorem slice_flatten_append {m : Nat} {xss : List (List Byte)} (hlen : ∀ x ∈ xss, x.length = m) (rest : List Byte) {k : Nat}
    {x : List Byte} (hk : xss[k]? = some x) : slice (xss.flatten ++ rest) (m * k) m = x := by
  induction xss generalizing k with
  | nil => simp at hk
  | cons y ys ih =>
    have hy : y.length = m := hlen y List.mem_cons_self
    rw [List.flatten_cons, List.append_assoc]
    cases k with
    | zero =>
      obtain rfl : y = x := by simpa using hk
      simp [slice, ← hy]
    | succ k =>
      rw [Nat.mul_succ, Nat.add_comm, slice_add, ← hy, List.drop_left, hy]
      exact ih (fun z hz => hlen z (List.mem_cons_of_mem _ hz)) (by simpa using hk)

/-- A list of `n` places holds each of its entries at its place, while there are no more entries than places. -/
theorem slice_fillTo_append {m n : Nat} {xss : List (List Byte)} (hlen : ∀ x ∈ xss, x.length = m) (hn : xss.length ≤ n)
    (fill rest : List Byte) {k : Nat} {x : List Byte} (hk : xss[k]? = some x) :
    slice (fillTo n fill xss ++ rest) (m * k) m = x := by
  rw [fillTo, List.take_of_length_le hn, List.append_assoc]
  exact slice_flatten_append hlen _ hk

/-- Byte 28 of a Statement counts the commands in flight. -/
theorem State.statement_count (s : State) (only : Option (BitVec 3)) :
    (s.statement only).getD 28 0 = BitVec.ofNat 8 s.stream.inflight.length := by
  unfold State.statement State.statementBody
  simp only [List.append_assoc]
  rfl

/-- From byte 64 on a Statement lists the tags of the commands in flight. -/
theorem State.statement_drop_tags (s : State) (only : Option (BitVec 3)) : ∃ rest, (s.statement only).drop 64
    = fillTo 32 [0xFF, 0xFF] (s.stream.inflight.map fun c => leBytes 2 c.tag.toNat) ++ rest := by
  unfold State.statement State.statementBody
  simp only [List.append_assoc]
  exact ⟨_, rfl⟩

/-- While at most 32 commands are in flight, the list gives the tag of each. -/
theorem State.statement_tag {s : State} (hs : s.stream.inflight.length ≤ 32) (only : Option (BitVec 3)) {k : Nat} {c : Inflight}
    (hk : s.stream.inflight[k]? = some c) : slice (s.statement only) (64 + 2 * k) 2 = leBytes 2 c.tag.toNat := by
  obtain ⟨rest, hdrop⟩ := s.statement_drop_tags only
  rw [slice_add, hdrop]
  refine slice_fillTo_append ?_ (by simpa using hs) _ rest (by simp [hk])
  intro x hx
  obtain ⟨d, -, rfl⟩ := List.mem_map.mp hx
  exact length_leBytes 2 _

/-! ### The obligation -/

/-- Settles O12: the bound is part of the invariant that every step keeps; at 32 commands issue holds every slot; and the list of the
Statement has 32 places. -/
theorem atMost32CommandsInFlight : Obligations.AtMost32CommandsInFlight := by
  unfold Obligations.AtMost32CommandsInFlight
  refine ⟨fun s t hinv hstep => State.inflight_le_of_inv (step_keeps_inv hinv hstep), fun c x s hrow hs hfull => ?_,
    fun only s hinv => ⟨s.statement_count only, fun k c hk => State.statement_tag (State.inflight_le_of_inv hinv) only hk⟩⟩
  obtain ⟨w, hhold⟩ := State.decision_full hfull.ge x
  obtain ⟨since, hstream⟩ := State.takeSlot_hold_stream hs hhold
  refine ⟨s.takeSlot x, since, exec_slotRow hrow s, hstream, ?_⟩
  have hwaiting : (s.takeSlot x).stream.waiting = [.unit x s.tb.cycle since] := by rw [hstream]
  have hinflight : (s.takeSlot x).stream.inflight = s.stream.inflight := by rw [hstream]
  exact State.waitCode_full hwaiting (by rw [hinflight, hfull])

end Sys2Proof.Machine
end

section
/-! The machine as a whole: what every command answers and keeps, the invariant, reset. -/
namespace Sys2Proof.Machine
open Sys2Proof Sys2Proof.Claims

/-- Settles O1: a step looks at the front of the queue alone. -/
theorem stepRunsFrontCommand : Obligations.StepRunsFrontCommand := by
  unfold Obligations.StepRunsFrontCommand
  intro c rest s hpending
  simp only [step, hpending]

/-- FCLK in range has its effect. -/
theorem exec_fclkChange_allowed {f : BitVec 12} (s : State) (h : fclkAllowed f = true) :
    exec (.fclkChange f) s = .next (s.fclkChange f) := by
  change (if fclkAllowed f then _ else _) = _
  rw [if_pos h]

/-- FCLK out of range breaks what the integrator keeps to (R432). -/
theorem exec_fclkChange_broken {f : BitVec 12} (s : State) (h : fclkAllowed f = false) :
    exec (.fclkChange f) s = .fault (.brokenObligation "R432") := by
  change (if fclkAllowed f then _ else _) = _
  rw [if_neg (by simp [h])]

/-- Every command but an FCLK out of range answers a next state. -/
theorem exec_answers (c : Instr) (s : State) (h : ∀ f, c = .fclkChange f → fclkAllowed f = true) : ∃ t, exec c s = .next t := by
  cases c with
  | fclkChange f => exact ⟨_, exec_fclkChange_allowed s (h f rfl)⟩
  | _ => exact ⟨_, rfl⟩

/-- Settles O3: totality by the rows, the frame by what every operation keeps. -/
theorem commandsAnswerAndKeepQueue : Obligations.CommandsAnswerAndKeepQueue := by
  unfold Obligations.CommandsAnswerAndKeepQueue
  refine ⟨⟨fun f s h => exec_fclkChange_broken s ?_, fun c s h => exec_answers c s fun f hf => ?_⟩, fun c s t h => ?_⟩
  · simp only [fclkAllowed, Bool.and_eq_false_iff, decide_eq_false_iff_not]
    omega
  · simpa [fclkAllowed] using h f hf
  · obtain ⟨hpending, hsize, hfree, -⟩ := exec_completionKeeps c s t h
    exact ⟨hpending, hsize, hfree⟩

/-- Settles O4: each command keeps the invariant, and so does a TCLK cycle. -/
theorem everyStepKeepsInvariant : Obligations.EveryStepKeepsInvariant := by
  unfold Obligations.EveryStepKeepsInvariant
  exact fun s t => step_keeps_inv

/-- Settles O5: right after reset every store and queue is empty. -/
theorem resetMeetsInvariant : Obligations.ResetMeetsInvariant := by
  unfold Obligations.ResetMeetsInvariant
  exact ⟨rfl, rfl⟩

/-- Settles O8: a cold reset rebuilds the state from the design's size and the OTP. -/
theorem coldResetKeepsOnlyOtp : Obligations.ColdResetKeepsOnlyOtp := by
  unfold Obligations.ColdResetKeepsOnlyOtp
  refine ⟨fun s => rfl, rfl, rfl, rfl, rfl, rfl, rfl, fun k hk => ?_, rfl, rfl, rfl, fun k hk => ?_, fun k hk => ?_,
    rfl, rfl, rfl, rfl, rfl, rfl, rfl, rfl, rfl, rfl⟩
  · exact vecGet_replicate _ _ hk
  · have hcurve : vecGet State.reset.st.curves k .default = Curve.default := vecGet_replicate _ _ hk
    have hroll : State.reset.roll k = Roll.default := vecGet_replicate _ _ hk
    rw [hcurve, hroll]
    exact ⟨vecGet_replicate _ _ hk, rfl, rfl, rfl⟩
  · exact vecGet_replicate _ _ hk

end Sys2Proof.Machine
end

section
/-! The test port (R445, R446), and what a write leaves at the other places of a store. -/
namespace Sys2Proof.Machine
open Sys2Proof Sys2Proof.Claims

/-! ### Writes to a sparse store in any form -/

/-- A write leaves every other place alone, whether the store is in canonical form or not. -/
theorem sparseGet_sparseSet_of_ne {β : Type} [DecidableEq β] (d : β) (m : List (Nat × β)) {a b : Nat} (v : β) (h : b ≠ a) :
    sparseGet d (sparseSet d m a v) b = sparseGet d m b := by
  induction m with
  | nil =>
    rw [sparseSet]
    split
    · rfl
    · simp [sparseGet, h.symm]
  | cons c r ih =>
    obtain ⟨x, w⟩ := c
    rw [sparseSet]
    split
    · split
      · rfl
      · simp [sparseGet, h.symm]
    · split
      · next _ hx =>
        subst hx
        split <;> simp [sparseGet, h.symm]
      · simp only [sparseGet, ih]

/-- A value other than the default stands where it was written, whatever the form of the store. -/
theorem sparseGet_sparseSet_self {β : Type} [DecidableEq β] (d : β) (m : List (Nat × β)) (a : Nat) {v : β} (h : v ≠ d) :
    sparseGet d (sparseSet d m a v) a = v := by
  induction m with
  | nil => simp [sparseSet, sparseGet, h]
  | cons c r ih =>
    obtain ⟨x, w⟩ := c
    rw [sparseSet]
    split
    · simp [sparseGet]
    · split
      · simp [sparseGet]
      · next _ hx => simp [sparseGet, Ne.symm hx, ih]

theorem Memory.read_write_of_ne (m : List Host.Cell) {a b : Nat} (v : Byte) (h : b ≠ a) :
    Memory.read (Memory.write m a v) b = Memory.read m b := sparseGet_sparseSet_of_ne 0 m v h

/-- Programming bits into a byte of the OTP sets them there (R442). -/
theorem sparseGet_sparseSet_or (m : List (Nat × Byte)) (a : Nat) {bits : Byte} (h : bits ≠ 0) :
    sparseGet 0 (sparseSet 0 m a (sparseGet 0 m a ||| bits)) a = sparseGet 0 m a ||| bits := by
  refine sparseGet_sparseSet_self 0 m a fun hzero => h ?_
  exact (BitVec.or_eq_zero_iff.mp hzero).2

/-! ### The identification register -/

theorem idcodeValue_toNat : idcodeValue.toNat = 0x10000000 + 0x0256 * 4096 + Config.jep106.toNat * 2 + 1 := by
  have hcode := Config.jep106.isLt
  rw [idcodeValue, BitVec.toNat_ofNat]
  omega

/-- The revision, part number and fixed lowest bit of the identification register, whatever the manufacturer's code (R445). -/
theorem idcodeValue_fields : idcodeValue.extractLsb' 28 4 = 0x1 ∧ idcodeValue.extractLsb' 12 16 = 0x0256
    ∧ idcodeValue.extractLsb' 0 1 = 1 := by
  have hcode := Config.jep106.isLt
  have field (lo n v : Nat) (h : idcodeValue.toNat / 2 ^ lo % 2 ^ n = v) : idcodeValue.extractLsb' lo n = BitVec.ofNat n v := by
    apply BitVec.eq_of_toNat_eq
    rw [BitVec.extractLsb'_toNat, Nat.shiftRight_eq_div_pow, BitVec.toNat_ofNat, ← h, Nat.mod_mod]
  rw [idcodeValue_toNat] at field
  exact ⟨field 28 4 1 (by omega), field 12 16 0x0256 (by omega), field 0 1 1 (by omega)⟩

/-! ### Accesses over the test network -/

/-- An instrument that only test mode reaches does nothing outside it (R446). -/
theorem State.ijtagAccess_restricted {s : State} {i : Instrument} (hboot : s.boot ≠ .testMode) (hi : restricted i = true) :
    s.ijtagAccess i = { s with fixed := { s.fixed with ir := 0x10 } } := by
  simp [State.ijtagAccess, hi, hboot]

/-- The words that an unrestricted instrument shifts out: some, and zeros while the unit is held in reset (R434). -/
theorem State.ijtagAccess_open {s : State} {i : Instrument} (hi : restricted i = false) :
    s.ijtagAccess i = ({ s with fixed := { s.fixed with ir := 0x10 } } : State).shiftOut (s.instrument i) := by
  cases i with
  | sensors | powerState | laneMap | scrubCounters | keyArea => rfl
  | _ => simp [restricted] at hi

theorem State.instrument_ne_nil {s : State} {i : Instrument} (hi : restricted i = false) : s.instrument i ≠ [] := by
  cases i with
  | sensors | powerState | scrubCounters | keyArea => exact List.cons_ne_nil _ _
  | laneMap =>
    intro h
    have hlength := congrArg List.length h
    simp [State.instrument] at hlength
  | _ => simp [restricted] at hi

/-- What shifts out besides the words themselves. -/
theorem State.shiftOut_eq (s : State) (ws : List (BitVec 32)) :
    s.shiftOut ws = { s with out := { s.out with tdo := s.out.tdo ++ if s.held then ws.map fun _ => 0 else ws } } := rfl

theorem State.held_of_ne {s : State} (h : s.boot ≠ .otpLoad) : s.held = false := by
  simp [State.held, h]

/-- An access to a data array in test mode writes its byte of the scratchpad, or above its size a place of the row-state table or the Till. -/
theorem State.testWrite_cases (s : State) (a : Nat) (w : W32) :
    (a < s.spadBytes ∧ s.testWrite a w = s.modSpad fun p => { p with mem := Memory.write p.mem a (w.setWidth 8) })
      ∨ s.spadBytes ≤ a ∧ ∃ rows till, s.testWrite a w = { s with st := { s.st with rowTab := rows, till := till } } := by
  unfold State.testWrite
  dsimp only
  by_cases h : a < s.spadBytes
  · exact .inl ⟨h, if_pos h⟩
  · rw [if_neg h]
    refine .inr ⟨not_lt.mp h, ?_⟩
    generalize a - s.spadBytes = b
    split
    · exact ⟨_, s.st.till, rfl⟩
    · split
      · exact ⟨s.st.rowTab, _, rfl⟩
      · exact ⟨s.st.rowTab, s.st.till, rfl⟩

/-- An access to a data array changes nothing but its own place. -/
theorem State.testWrite_frame (s : State) (a : Nat) (w : W32) :
    let t := s.testWrite a w
    t.spad = { s.spad with mem := t.spad.mem } ∧ (∀ b, b ≠ a → Memory.read t.spad.mem b = Memory.read s.spad.mem b)
      ∧ (s.spadBytes ≤ a → t.spad = s.spad) ∧ t.st = { s.st with rowTab := t.st.rowTab, till := t.st.till }
      ∧ (a < s.spadBytes → t.st = s.st) ∧ t = { s with spad := t.spad, st := t.st } := by
  intro t
  obtain ⟨ha, ht⟩ | ⟨ha, rows, till, ht⟩ := s.testWrite_cases a w
  · rw [show t = _ from ht]
    exact ⟨rfl, fun b hb => Memory.read_write_of_ne _ _ hb, fun h => absurd ha (not_lt.mpr h), rfl, fun _ => rfl, rfl⟩
  · rw [show t = _ from ht]
    exact ⟨rfl, fun _ _ => rfl, fun _ => rfl, rfl, fun h => absurd ha (not_le.mpr h), rfl⟩

/-- Settles O60, instrument by instrument. -/
theorem testPortCommands : Obligations.TestPortCommands := by
  unfold Obligations.TestPortCommands
  refine ⟨fun s => rfl, fun s => ⟨idcodeValue, ?_, idcodeValue_fields⟩, fun ir s h1 h2 => ?_, fun i s hboot hi => ?_,
    fun i s hboot hi => ?_, fun s hboot => ?_, fun a s hboot => ?_, fun a bits s hboot ha hlock => ?_, fun i s hi => ?_⟩
  · change Host.Outcome.next s.idcode = _
    rw [State.idcode, State.shiftOut_eq]
    by_cases h : s.boot = .otpLoad <;> simp [State.held, h]
  · change Host.Outcome.next (s.bypass ir) = _
    rw [State.bypass, if_neg (not_or.mpr ⟨h1, h2⟩)]
  · change Host.Outcome.next (s.ijtagAccess i) = _
    rw [State.ijtagAccess_restricted hboot hi]
  · refine ⟨Config.testData s.free, ?_⟩
    change Host.Outcome.next (s.ijtagAccess i) = _
    rcases hi with rfl | rfl <;> simp [State.ijtagAccess, restricted, State.shiftOut_eq, State.held, hboot]
  · refine ⟨s.ijtagAccess .mbistControl, Config.testData s.free, rfl, ?_⟩
    simp [State.ijtagAccess, restricted, State.shiftOut_eq, State.held, hboot, State.zeroFill, State.clearScratchpad,
      State.modSpad, State.modSt]
  · refine ⟨s.ijtagAccess (.dataArray a), Config.testData s.free, rfl, ?_⟩
    let u : State := { s with
      fixed := { s.fixed with ir := 0x10 }, free := s.free + 2
      out := { s.out with tdo := s.out.tdo ++ [Config.testData s.free] } }
    have haccess : s.ijtagAccess (.dataArray a) = u.testWrite a (Config.testData (s.free + 1)) := by
      simp [u, State.ijtagAccess, restricted, State.shiftOut_eq, State.held, hboot]
    rw [haccess]
    exact u.testWrite_frame a _
  · refine ⟨s.ijtagAccess (.otpProgram a bits), rfl, ?_⟩
    have haccess : s.ijtagAccess (.otpProgram a bits) = { s with fixed := { s.fixed with
        ir := 0x10, otp := { s.fixed.otp with
          bytes := sparseSet 0 s.fixed.otp.bytes a (sparseGet 0 s.fixed.otp.bytes a ||| bits) } } } := by
      simp [State.ijtagAccess, restricted, hboot, ha, hlock]
    rw [haccess]
    exact ⟨fun b hb => sparseGet_sparseSet_of_ne 0 _ _ hb, fun h => sparseGet_sparseSet_or _ a h, rfl⟩
  · change ∃ ws, Host.Outcome.next (s.ijtagAccess i) = _ ∧ _
    rw [State.ijtagAccess_open hi, State.shiftOut_eq]
    refine ⟨_, rfl, ?_, fun hboot w hw => ?_⟩
    · split
      · simpa using State.instrument_ne_nil hi
      · exact State.instrument_ne_nil hi
    · rw [if_pos (by simp [State.held, hboot])] at hw
      obtain ⟨-, -, rfl⟩ := List.mem_map.mp hw
      rfl

end Sys2Proof.Machine
end

section
/-! Gating, sleep, grants and the power steps of the lane groups (R378, R380 to R382). -/
namespace Sys2Proof.Machine
open Sys2Proof Sys2Proof.Claims

theorem State.fclkRuns_of {s : State} (h : s.pw.state ≠ .halt) : s.fclkRuns = true := by
  simp [State.fclkRuns, h]

/-- A unit that has started and whose clock runs is running. -/
theorem State.running_of_started {s : State} (h : started s) : s.running = true := running_of s h.1 h.2

/-- No unit slot waits at issue exactly when the waiting list holds none. -/
theorem State.waitingSlot_eq_none {s : State} : s.waitingSlot = none ↔ ∀ x a y, Waiting.unit x a y ∉ s.stream.waiting := by
  rw [State.waitingSlot, List.findSome?_eq_none_iff]
  refine ⟨fun h x a y hmem => by simpa using h _ hmem, fun h w hw => ?_⟩
  cases w with
  | unit x a y => exact absurd hw (h x a y)
  | decl => rfl

theorem State.idle_of {s : State} (hempty : s.stream.inflight = []) (hwait : ∀ x a y, Waiting.unit x a y ∉ s.stream.waiting) :
    s.idle = true := by
  simp [State.idle, hempty, State.waitingSlot_eq_none.mpr hwait]

/-! ### The step timer (R380) -/

theorem State.stepClock_aligned {s : State} (h : s.tb.state ≠ .notAligned) : s.stepClock = s.gc.toNat := by
  simp [State.stepClock, h]

theorem State.stepClock_warm {s : State} (h : s.boot.cold = false) : s.stepClock = s.gc.toNat := by
  simp [State.stepClock, h]

theorem State.stepClock_cold {s : State} (h : s.boot.cold = true) (htime : s.tb.state = .notAligned) : s.stepClock = s.tb.tclk := by
  simp [State.stepClock, h, htime]

/-! ### The steps -/

/-- An idle unit gates or goes to sleep once its delay has passed. -/
theorem State.idleTimeout_idle {s : State} (hs : started s) (hrun : s.pw.state = .run) (hidle : s.idle = true)
    (hdelay : s.pw.eff.delay.toNat ≤ s.tb.cycle - s.pw.idleSince) :
    s.idleTimeout = { s with pw :=
      if s.pw.eff.sleep then { s.pw with state := .sleep, down := some (7, BitVec.ofNat 64 s.stepClock), ustep := s.pw.stagger.toNat }
      else { s.pw with state := .gated } } := by
  rw [State.idleTimeout, if_pos (by simp [State.running_of_started hs, hrun, hidle, hdelay])]
  split <;> rfl

/-- The next group goes down once its step is due. -/
theorem State.powerDownStep_due {s : State} {g : Nat} {u : Gc} (hsleep : s.pw.state = .sleep) (hdown : s.pw.down = some (g, u))
    (hdue : u.toNat ≤ s.stepClock) : s.powerDownStep = { s with pw := { s.pw with
      on := s.pw.on &&& ~~~((1 : Byte) <<< g), down := if g = 0 then none else some (g - 1, u + BitVec.ofNat 64 s.pw.ustep) } } := by
  simp only [State.powerDownStep, hdown]
  rw [if_neg (by simp [hsleep, not_lt.mpr hdue])]
  rfl

theorem State.pwGrant_asked {s : State} (h : s.pw.greq = true) : s.pwGrant = { s with pw := { s.pw with
      greq := false, state := if s.pw.state = .halt then .halt else .waking
      before := if s.pw.state = .halt then .waking else s.pw.before
      ustep := s.pw.stagger.toNat, grant := some (BitVec.ofNat 64 s.stepClock), nextGroup := 0, down := none } } := by
  rw [State.pwGrant, if_neg (by simp [h])]
  rfl

/-- A power step whose time has come, and that no other event precedes, powers the next group or ends the waking. -/
theorem State.laneGroupPowerStep_due {s : State} {u : Gc} (hpower : s.pw.state ≠ .halt) (hgrant : s.pw.grant = some u)
    (hdue : u.toNat ≤ s.stepClock) (hfirst : s.behind u.toNat 2 = false) :
    s.laneGroupPowerStep = if s.pw.nextGroup < 8 then { s with pw := { s.pw with
        on := if (s.ft.group s.pw.nextGroup).st = .disabled then s.pw.on else s.pw.on ||| ((1 : Byte) <<< s.pw.nextGroup)
        nextGroup := s.pw.nextGroup + 1, grant := some (u + BitVec.ofNat 64 s.pw.ustep) } }
      else { s with
        pw := { s.pw with grant := none, state := .run, idleSince := s.tb.cycle }
        boot := if s.boot = .grant then .mbist else if s.boot = .warmPower then .warmClear else s.boot } := by
  simp only [State.laneGroupPowerStep, hgrant]
  rw [if_neg (by simp [State.fclkRuns_of hpower, not_lt.mpr hdue, hfirst])]
  rfl

/-- Settles O47: each step under the condition that lets it happen. -/
theorem powerStepsInOrder : Obligations.PowerStepsInOrder := by
  unfold Obligations.PowerStepsInOrder
  refine ⟨fun s => ⟨State.stepClock_aligned, fun h => State.stepClock_warm (by rw [h]; rfl),
      fun htime h => State.stepClock_cold (by rw [h]; rfl) htime⟩,
    fun s hs hrun hempty hwait hdelay => ?_, fun g u s hsleep hdown hdue => ?_, fun s h => ?_,
    fun u s hpower hgrant hdue hfirst => ⟨fun h => ?_, fun h => ?_⟩⟩
  · exact congrArg _ (State.idleTimeout_idle hs hrun (State.idle_of hempty hwait) hdelay)
  · exact congrArg _ (State.powerDownStep_due hsleep hdown hdue)
  · exact congrArg _ (State.pwGrant_asked h)
  · refine congrArg _ ((State.laneGroupPowerStep_due hpower hgrant hdue hfirst).trans ?_)
    rw [if_pos h]
  · refine congrArg _ ((State.laneGroupPowerStep_due hpower hgrant hdue hfirst).trans ?_)
    rw [if_neg (not_lt.mpr h)]

end Sys2Proof.Machine
end

section
/-! Resets and start-up (R434 to R444), and the keys (R258, R260, R438). -/
namespace Sys2Proof.Machine
open Sys2Proof Sys2Proof.Claims

/-! ### What queueing a notice leaves of a receipt -/

/-- A property of receipts that does not look at their status. -/
def StatusBlind {α : Type} (f : Receipt → α) : Prop := ∀ (e : Receipt) (st : RcptStatus), f { e with status := st } = f e

/-- An update of the first element with a property leaves the image under a function that the update does not touch. -/
theorem map_updateFirst {α β : Type} {p : α → Bool} {g : α → α} {f : α → β} (h : ∀ x, f (g x) = f x) (xs : List α) :
    (updateFirst p g xs).map f = xs.map f := by
  induction xs with
  | nil => rfl
  | cons x xs ih =>
    rw [updateFirst]
    split <;> simp [h, ih]

theorem Receipts.queueNotices_map {α : Type} {f : Receipt → α} (h : StatusBlind f) (es : List Receipt) (r : Receipts) :
    (r.queueNotices es).entries.map f = r.entries.map f := by
  induction es generalizing r with
  | nil => rfl
  | cons e es ih =>
    rw [Receipts.queueNotices, ih]
    split
    · exact map_updateFirst (fun x => h x _) _
    · rfl

theorem Receipts.settled_map {α : Type} {f : Receipt → α} (h : StatusBlind f) (r : Receipts) :
    r.settled.entries.map f = r.entries.map f := r.queueNotices_map h _

/-- What holds of every receipt whatever its status holds of every receipt after the notices are queued. -/
theorem Receipts.forall_settled {P : Receipt → Prop} (h : StatusBlind P) {r : Receipts} (hr : ∀ e ∈ r.entries, P e) :
    ∀ e ∈ r.settled.entries, P e := by
  intro e he
  have hmem : P e ∈ r.settled.entries.map P := List.mem_map_of_mem he
  rw [r.settled_map h] at hmem
  obtain ⟨e0, he0, heq⟩ := List.mem_map.mp hmem
  exact heq ▸ hr e0 he0

/-! ### Receipts after an invalidation -/

theorem State.invalidate_eq (s : State) (reason : Nat) (p : Receipt → Bool) :
    s.invalidate reason p = { s with prov := { s.prov with rcpt := (s.invalidate reason p).prov.rcpt } } := rfl

/-- The receipts that an invalidation strikes, before their notices are queued. -/
def Receipts.struck (r : Receipts) (reason : Nat) (gc : Gc) (p : Receipt → Bool) : Receipts :=
  { r with entries := r.entries.map fun e => if e.reason.isNone && !e.confirmed && p e then { e with reason := some (reason, gc) } else e }

theorem State.invalidate_rcpt (s : State) (reason : Nat) (p : Receipt → Bool) :
    (s.invalidate reason p).prov.rcpt = (s.prov.rcpt.struck reason s.gc p).settled := rfl

/-- After every unconfirmed receipt is struck, each is confirmed or has its reason. -/
theorem Receipts.struck_all (r : Receipts) (reason : Nat) (gc : Gc) :
    ∀ e ∈ (r.struck reason gc fun _ => true).settled.entries, e.confirmed = true ∨ e.reason.isSome := by
  refine Receipts.forall_settled (fun e st => rfl) fun e he => ?_
  obtain ⟨x, -, rfl⟩ := List.mem_map.mp he
  cases hr : x.reason <;> cases hc : x.confirmed <;> simp [hr, hc]

/-- An invalidation keeps every receipt's number and record. -/
theorem Receipts.struck_records (r : Receipts) (reason : Nat) (gc : Gc) (p : Receipt → Bool) :
    ((r.struck reason gc p).settled.entries.map fun e => (e.rseq, e.record)) = r.entries.map fun e => (e.rseq, e.record) := by
  rw [Receipts.settled_map (fun e st => rfl)]
  simp only [Receipts.struck, List.map_map]
  refine List.map_congr_left fun e _ => ?_
  simp only [Function.comp]
  split <;> rfl

/-! ### Warm reset and its release -/

/-- The unit as WARM_RESET leaves it before the receipts are struck. -/
def State.abandoned (s : State) : State :=
  let t := s.clearContext
  { t with
    boot := .warmHeld
    stream := { waiting := [], inflight := [], refused := [], lastTag := noTag, claims := [], acc := none, lastStart := none }
    escrow := { t.escrow with entries := [], engines := [], order := [], sets := [] }
    spad := { t.spad with clearing := none, nWait := none }
    tb := { t.tb with state := .notAligned, lastSync := 0, gap := 0 }
    ft := { t.ft with recovery := none, tallyTags := [], groups := t.ft.groups.map fun g => { g with clean := true, cover := 0 } }
    prov := { t.prov with keys := { t.prov.keys with rot := .idle, next := none, record := [] } } }

theorem State.warmReset_eq {s : State} (h : s.boot.warmable = true) : s.warmReset = s.abandoned.invalidateAll 4 := by
  rw [State.warmReset, if_neg (by simp [h])]
  rfl

/-- Settles O59. -/
theorem warmResetAbandonsCommands : Obligations.WarmResetAbandonsCommands := by
  unfold Obligations.WarmResetAbandonsCommands
  refine ⟨fun s h => ⟨s.warmReset, rfl, ?_⟩, fun straps s hboot hpower => ⟨s.warmStart straps, rfl, ?_⟩⟩
  · rw [State.warmReset_eq h]
    exact ⟨rfl, rfl, rfl, rfl, rfl, rfl, rfl, rfl, rfl, rfl, rfl, rfl, rfl, rfl, rfl, rfl, rfl,
      Receipts.struck_all _ _ _, Receipts.struck_records _ _ _ _, rfl⟩
  · rcases hpower with h | h
    · have hawake : s.pw.state ≠ .sleep := by simp [h]
      have hunder : s.pw.under = .run := by simp [Power.under, h]
      simp [State.warmStart, hboot, hunder, State.modSpad, beq_false_of_ne hawake, hawake]
    · have hunder : s.pw.under = .sleep := by simp [Power.under, h]
      have hasleep : (s.pw.state == .sleep) = true := by rw [h]; rfl
      simp only [hasleep, Bool.or_true]
      simp [State.warmStart, hboot, hunder, h, State.modSpad, State.modPw]

/-! ### Keys -/

/-- The key drawn is one more than the accepted draw, which stays below the order of the curve. -/
theorem State.drawKey_toNat (s : State) : s.drawKey.1.toNat = (Config.keyDraw s.free).val + 1 := by
  have hdraw := (Config.keyDraw s.free).isLt
  have hfit : (Config.keyDraw s.free).val + 1 < 2 ^ 192 * 2 ^ 192 := by omega
  exact Nat.mod_eq_of_lt (hfit.trans_eq (pow_add 2 192 192).symm)

/-- The first 24 bytes of a transition record: both generations, the serial number and the time (R260). -/
theorem State.transition_head (s : State) (k : BitVec 384) (rest : List Byte) :
    (s.transition k ++ rest).take 24 = leBytes 2 s.prov.keys.keygen.toNat ++ leBytes 2 (s.prov.keys.keygen + 1).toNat ++ [0, 0, 0, 0]
      ++ leBytes 8 s.fixed.ident.serial.toNat ++ leBytes 8 s.gc.toNat := by
  rw [State.transition, List.append_assoc, List.append_assoc]
  exact List.take_left' (by simp [length_leBytes])

/-- Once the signing queue is empty, the record of a waiting key is formed and signed with the old key (R260). -/
theorem State.drained_empty {s : State} {k : BitVec 384} (hnext : s.prov.keys.next = some k) (hrot : s.prov.keys.rot = .waiting)
    (hempty : s.prov.rcpt.signQ = []) : s.drained = { s with prov := { s.prov with keys := { s.prov.keys with
      rot := .programming, record := s.transition k ++ ecdsaSign s.key (s.transition k) } } } := by
  simp [State.drained, hnext, hrot, hempty, State.modProv]

/-- While receipts wait to be signed, a rotation waits. -/
theorem State.drained_queue {s : State} (h : s.prov.rcpt.signQ ≠ []) : s.drained = s := by
  unfold State.drained
  split
  · exact if_neg fun hboth => h (List.isEmpty_iff.mp hboth.2)
  · rfl

/-- A rotation's key is drawn, and the rotation waits or goes on to program the OTP. -/
theorem State.keyGenerated_eq {s : State} (hrot : s.prov.keys.rot = .generating) (hboot : s.boot ≠ .testMode) :
    let k := s.drawKey.1
    let t := s.transition k
    s.keyGenerated = { s with
      free := s.free + 1
      prov := { s.prov with keys := { s.prov.keys with
        rot := if s.prov.rcpt.signQ = [] then .programming else .waiting, next := some k
        record := if s.prov.rcpt.signQ = [] then t ++ ecdsaSign s.key t else s.prov.keys.record } } } := by
  intro k t
  rw [State.keyGenerated, if_pos ⟨hrot, hboot⟩]
  by_cases hempty : s.prov.rcpt.signQ = []
  · rw [if_pos hempty, if_pos hempty]
    exact State.drained_empty (k := k) rfl rfl hempty
  · rw [if_neg hempty, if_neg hempty]
    exact State.drained_queue hempty

theorem State.keyGeneration_eq {s : State} (hgen : s.prov.keys.gen = true) (hboot : s.boot ≠ .testMode) (hheld : s.boot ≠ .otpLoad) :
    s.keyGeneration = { s with
      free := s.free + 1, fixed := { s.fixed with otp := { s.fixed.otp with keys := [s.drawKey.1] } }
      prov := { s.prov with keys := { s.prov.keys with keygen := 0, gen := false, need := false } }
      boot := if s.boot = .tsync ∧ s.tb.state ≠ .notAligned then .ready else s.boot } := by
  rw [State.keyGeneration, if_neg (by simp [hgen, hboot, hheld])]
  rfl

/-- Settles O52. -/
theorem keysAreMadeAndRotated : Obligations.KeysAreMadeAndRotated := by
  unfold Obligations.KeysAreMadeAndRotated
  refine ⟨fun s hrot hboot => ⟨s.drawKey.1, _, s.drawKey_toNat, congrArg _ (State.keyGenerated_eq hrot hboot), fun h => if_neg h, fun h => ?_⟩,
    fun k s hrot hnext => ⟨s.keyrt, rfl, ?_⟩, 
    fun s hgen hboot hheld => ⟨s.drawKey.1, s.drawKey_toNat, congrArg _ (State.keyGeneration_eq hgen hboot hheld)⟩,
    fun s hgen hlate => ⟨s.keyGenerationTimeout, rfl, ?_⟩⟩
  · rw [if_pos h]
    exact s.transition_head _ _
  · simp only [State.keyrt, hrot, hnext]
    exact ⟨rfl, rfl, rfl, rfl⟩
  · rw [State.keyGenerationTimeout, if_neg (by simp [hgen, hlate])]
    exact ⟨rfl, rfl, rfl, rfl, rfl, rfl⟩

end Sys2Proof.Machine
end

section
/-! Sync pulses, the frozen view and start-up (R365 to R369, R428, R433, R436 to R442). -/
namespace Sys2Proof.Machine
open Sys2Proof Sys2Proof.Claims

/-! ### Links at a sync pulse (R231) -/

theorem State.link_setLink_of_ne {c k : Scope} (s : State) (l : Link) (h : k ≠ c) : (s.setLink c l).link k = s.link k := by
  cases c <;> cases k
  case cluster.die | die.cluster => rfl
  all_goals exact absurd rfl h

theorem State.position_setLink (s : State) (c k : Scope) (l : Link) : (s.setLink c l).position k = s.position k := by
  cases c <;> rfl

@[simp] theorem State.link_log (s : State) (code tag : W16) (ctx : Option (BitVec 3)) (d : List Byte) (k : Scope) :
    (s.log code tag ctx d).link k = s.link k := rfl

/-- A link neither of whose ends has trained stays as it is. -/
theorem State.linkUp_untrained {s : State} {c : Scope} (h : (s.link c).trained < 64 ∧ (s.link c).rxTrain < 64) : s.linkUp c = s := by
  obtain ⟨htx, hrx⟩ := h
  have htxUp : s.txUp c = s := by
    rw [State.txUp]
    exact if_neg fun hup => absurd hup.2 (not_le.mpr htx)
  rw [State.linkUp, htxUp, State.rxUp]
  simp [not_le.mpr hrx]

/-- A link resumes without touching the other one. -/
theorem State.linkUp_link_of_ne (s : State) {c k : Scope} (h : k ≠ c) : (s.linkUp c).link k = s.link k := by
  have htx : (s.txUp c).link k = s.link k := by
    unfold State.txUp
    dsimp only
    split
    · split <;> simp [State.modLink, State.link_setLink_of_ne, h]
    · rfl
  have hrx (u : State) : (u.rxUp c).link k = u.link k := by
    unfold State.rxUp
    dsimp only
    split
    · simp [State.modLink, State.send, State.link_setLink_of_ne, h]
    · rfl
  unfold State.linkUp
  split
  · rfl
  · rw [hrx, htx]

/-- The transmitting end of a link after a sync pulse. -/
def Link.txResumed (l : Link) : Link :=
  if l.down ∧ 64 ≤ l.trained then
    { l with down := false, declared := false, returns := if l.declared then satAdd l.returns 1 else l.returns, txSeq := 0, replay := []
             next := 0, consec := 0, hold := false, trained := 0, quiet := 0 }.settleState
  else l

/-- The receiving end of a link at position `me` after a sync pulse. -/
def Link.rxResumed (me : Nat) (l : Link) : Link :=
  if 64 ≤ l.rxTrain then
    let u := { l with rxSeq := 0, nakSent := false, rxTrain := 0, ringDown := l.ringDown.filter (· != me) }.settleState
    { u with queue := u.queue ++ [(Flit.notice false me).bytes 0] }
  else l

theorem Link.txResumed_rxTrain (l : Link) : l.txResumed.rxTrain = l.rxTrain := by
  unfold Link.txResumed
  split <;> rfl

theorem Link.rxResumed_untrained {l : Link} (me : Nat) (h : l.rxTrain < 64) : l.rxResumed me = l := if_neg (not_le.mpr h)

theorem State.txUp_link (s : State) (c : Scope) : (s.txUp c).link c = (s.link c).txResumed := by
  unfold State.txUp Link.txResumed
  dsimp only
  split
  · by_cases hdeclared : (s.link c).declared = true <;> simp [State.modLink, hdeclared]
  · rfl

theorem State.txUp_fixed (s : State) (c : Scope) : (s.txUp c).fixed = s.fixed := by
  unfold State.txUp
  dsimp only
  split
  · split <;> simp
  · rfl

theorem State.rxUp_link (s : State) (c : Scope) : (s.rxUp c).link c = (s.link c).rxResumed (s.position c) := by
  unfold State.rxUp Link.rxResumed
  dsimp only
  split
  · simp [State.modLink, State.send]
  · rfl

theorem State.rxUp_fixed (s : State) (c : Scope) : (s.rxUp c).fixed = s.fixed := by
  unfold State.rxUp
  dsimp only
  split
  · simp [State.send]
  · rfl

theorem State.position_of_fixed {s t : State} (h : t.fixed = s.fixed) (c : Scope) : t.position c = s.position c := by
  simp [State.position, State.ringPos, h]

theorem State.linkUp_fixed (s : State) (c : Scope) : (s.linkUp c).fixed = s.fixed := by
  unfold State.linkUp
  split
  · rfl
  · rw [State.rxUp_fixed, State.txUp_fixed]

/-- Both ends of a link after a sync pulse outside test mode. -/
theorem State.linkUp_link {s : State} (c : Scope) (h : s.fixed.straps.testMode = false) :
    (s.linkUp c).link c = ((s.link c).txResumed).rxResumed (s.position c) := by
  rw [State.linkUp, if_neg (by simp [h]), State.rxUp_link, State.txUp_link, State.position_of_fixed (s.txUp_fixed c)]

theorem State.linkUp_links_testMode {s : State} (c : Scope) (h : s.fixed.straps.testMode = true) : (s.linkUp c).links = s.links := by
  rw [State.linkUp, if_pos h]

/-! ### A sync pulse -/

/-- The time base of a pulse with a count: Q takes it, and the waits that count from a pulse begin anew. -/
def TimeBase.pulsed (t : TimeBase) (n : Gc) : TimeBase :=
  { t with q := n, lastSync := n, gap := 0, realign := false, syncAt := t.cycle }

/-- The unit after a pulse, before its links resume. -/
def State.pulseTaken (s : State) (n : Gc) : State :=
  let s := s.modTb fun t => t.pulsed n
  if s.tb.state ≠ .notAligned then s.pulse n
  else if s.boot = .tsync ∨ s.boot = .warmTsync then s.tsync n
  else s.modTb fun t => { t with v := if t.v.toNat < n.toNat then n else t.v }

theorem State.syncPulse_eq (s : State) (n : Gc) : s.syncPulse n =
    if (s.pulseTaken n).ringWorks then ((s.pulseTaken n).linkUp .cluster).linkUp .die else s.pulseTaken n := rfl

/-- What a pulse of an aligned unit may change: the time base, the Ledger and the open digest ranges. -/
theorem State.pulse_frame (s : State) (n : Gc) :
    let t := s.pulse n
    t = { s with tb := t.tb, ledger := t.ledger, evRings := t.evRings, prov := t.prov } := by
  intro t
  simp only [t, State.pulse]
  split
  · split <;> rfl
  · split
    · rfl
    · split <;> rfl

theorem State.tsync_frame (s : State) (n : Gc) :
    let t := s.tsync n
    t = { s with boot := t.boot, tb := t.tb, spad := t.spad, pw := t.pw, ft := t.ft } ∧ t.pw.state = s.pw.state
      ∧ (t.boot = s.boot ∨ t.boot = .ready) := by
  intro t
  simp only [t, State.tsync]
  split
  · exact ⟨rfl, rfl, .inl rfl⟩
  · exact ⟨rfl, rfl, .inr rfl⟩

/-- A pulse leaves the rings to what follows it. -/
theorem State.pulseTaken_rings (s : State) (n : Gc) :
    let t := s.pulseTaken n
    t.links = s.links ∧ t.fixed = s.fixed ∧ t.pw.state = s.pw.state ∧ (s.boot ≠ .otpLoad → t.boot ≠ .otpLoad) := by
  intro t
  simp only [t, State.pulseTaken]
  split
  · rw [State.pulse_frame]
    exact ⟨rfl, rfl, rfl, id⟩
  · split
    · obtain ⟨hframe, hstate, hboot⟩ := (s.modTb fun t => t.pulsed n).tsync_frame n
      refine ⟨by rw [hframe]; rfl, by rw [hframe]; rfl, hstate, fun h => ?_⟩
      rcases hboot with e | e <;> rw [e]
      · exact h
      · exact Boot.noConfusion
    · exact ⟨rfl, rfl, rfl, id⟩

theorem State.link_of_links {s t : State} (h : t.links = s.links) (c : Scope) : t.link c = s.link c := by
  cases c <;> simp [State.link, h]

/-- A pulse to a unit none of whose links has trained changes nothing else than the time part does. -/
theorem State.syncPulse_untrained {s : State} (n : Gc) (h : ∀ k, (s.link k).trained < 64 ∧ (s.link k).rxTrain < 64) :
    s.syncPulse n = s.pulseTaken n := by
  have hlinks := (s.pulseTaken_rings n).1
  have hlink (k : Scope) : ((s.pulseTaken n).link k).trained < 64 ∧ ((s.pulseTaken n).link k).rxTrain < 64 := by
    rw [State.link_of_links hlinks]
    exact h k
  rw [State.syncPulse_eq, State.linkUp_untrained (hlink .cluster), State.linkUp_untrained (hlink .die), ite_self]

/-- Each link of a working ring port after a pulse outside test mode. -/
theorem State.syncPulse_link {s : State} (n : Gc) (c : Scope) (hmode : s.fixed.straps.testMode = false) (hboot : s.boot ≠ .otpLoad)
    (hpower : s.pw.state ≠ .halt) : (s.syncPulse n).link c = ((s.link c).txResumed).rxResumed (s.position c) := by
  obtain ⟨hlinks, hfixed, hstate, hloaded⟩ := s.pulseTaken_rings n
  have hworks : (s.pulseTaken n).ringWorks = true := by
    simp [State.ringWorks, State.fclkRuns, hstate, hpower, hloaded hboot]
  rw [State.syncPulse_eq, if_pos hworks]
  have hmode' : (s.pulseTaken n).fixed.straps.testMode = false := by rw [hfixed, hmode]
  cases c with
  | cluster =>
    rw [State.linkUp_link_of_ne _ (by decide), State.linkUp_link _ hmode', State.link_of_links hlinks, State.position_of_fixed hfixed]
  | die =>
    rw [State.linkUp_link _ (by rw [State.linkUp_fixed, hmode']), State.linkUp_link_of_ne _ (by decide), State.link_of_links hlinks,
      State.position_of_fixed ((State.linkUp_fixed _ _).trans hfixed)]

theorem State.syncPulse_testMode {s : State} (n : Gc) (hmode : s.fixed.straps.testMode = true) : (s.syncPulse n).links = s.links := by
  obtain ⟨hlinks, hfixed, -, -⟩ := s.pulseTaken_rings n
  have hmode' : (s.pulseTaken n).fixed.straps.testMode = true := by rw [hfixed, hmode]
  rw [State.syncPulse_eq]
  split
  · rw [State.linkUp_links_testMode _ (by rw [State.linkUp_fixed, hmode']), State.linkUp_links_testMode _ hmode', hlinks]
  · exact hlinks

/-- A pulse whose count is not behind the view (Table 14.1): a step within the increment, a counted step, or a jump that is logged. -/
theorem State.pulse_forward {s : State} {n : Gc} {j : Nat} (h : s.gc.toNat ≤ n.toNat) (hj : n.toNat - s.gc.toNat = j) :
    let t := s.pulse n
    t.tb = { s.tb with
        v := n, state := if s.tb.state = .frozen ∧ n = s.tb.v then .frozen else .aligned
        fwdSteps := if s.tb.inc.toNat < j ∧ j ≤ 1000000 then satAdd s.tb.fwdSteps 1 else s.tb.fwdSteps
        fwdJumps := if s.tb.inc.toNat < j ∧ 1000000 < j then satAdd s.tb.fwdJumps 1 else s.tb.fwdJumps }
      ∧ t.ledger = if 1000000 < j then (s.log cTBJMP noTag none (leBytes 8 s.gc.toNat ++ leBytes 8 n.toNat)).ledger else s.ledger := by
  intro t
  have hview : (n.toNat = s.gc.toNat) ↔ n = s.tb.v := BitVec.toNat_inj
  simp only [t, State.pulse, if_neg (not_lt.mpr h), hview, hj]
  by_cases hsmall : j ≤ s.tb.inc.toNat
  · have hlarge : ¬ s.tb.inc.toNat < j := not_lt.mpr hsmall
    have hjump : ¬ 1000000 < j := by omega
    simp only [if_pos hsmall, hlarge, hjump, false_and, if_false]
    exact ⟨rfl, rfl⟩
  · have hlarge : s.tb.inc.toNat < j := not_le.mp hsmall
    by_cases hstep : j ≤ 1000000
    · have hjump : ¬ 1000000 < j := not_lt.mpr hstep
      simp only [if_neg hsmall, hlarge, hstep, hjump, true_and, if_true, if_false]
      exact ⟨rfl, rfl⟩
    · have hjump : 1000000 < j := not_le.mp hstep
      simp only [if_neg hsmall, hlarge, hstep, hjump, true_and, if_true, if_false]
      exact ⟨rfl, rfl⟩

/-- A pulse whose count is behind the view freezes it; a new episode is counted and logged (R367). -/
theorem State.pulse_backward {s : State} {n : Gc} (h : n.toNat < s.gc.toNat) :
    let t := s.pulse n
    t.tb = { s.tb with
        state := .frozen
        backEpisodes := if s.tb.state = .frozen then s.tb.backEpisodes else satAdd s.tb.backEpisodes 1
        largestBack := if s.tb.largestBack.toNat < s.gc.toNat - n.toNat then BitVec.ofNat 64 (s.gc.toNat - n.toNat) else s.tb.largestBack }
      ∧ t.ledger = if s.tb.state = .frozen then s.ledger
          else (s.log cTBJMP noTag none (leBytes 8 s.gc.toNat ++ leBytes 8 n.toNat)).ledger := by
  intro t
  simp only [t, State.pulse, if_pos h]
  by_cases hfrozen : s.tb.state = .frozen
  · rw [if_pos hfrozen, if_pos hfrozen, if_pos hfrozen, ← hfrozen]
    exact ⟨rfl, rfl⟩
  · rw [if_neg hfrozen, if_neg hfrozen, if_neg hfrozen]
    exact ⟨rfl, rfl⟩

/-- A step that has logged at most one entry keeps the order in which the Ledger stands. -/
theorem State.cycleLog_atMostOne {t s : State} {p : Prop} [Decidable p] {code tag : W16} {ctx : Option (BitVec 3)} {d : List Byte}
    (h : t.ledger = if p then (s.log code tag ctx d).ledger else s.ledger) : t.cycleLog s = t := by
  split at h
  · exact State.cycleLog_log t s code tag ctx d h
  · exact State.cycleLog_same t s h

theorem State.cycleLog_atMostOne' {t s : State} {p : Prop} [Decidable p] {code tag : W16} {ctx : Option (BitVec 3)} {d : List Byte}
    (h : t.ledger = if p then s.ledger else (s.log code tag ctx d).ledger) : t.cycleLog s = t := by
  refine State.cycleLog_atMostOne (p := ¬ p) (code := code) (tag := tag) (ctx := ctx) (d := d) ?_
  rw [h, ite_not]

theorem exec_syncPulse (n : Gc) (s : State) : exec (.syncPulse n) s = .next ((s.syncPulse n).cycleLog s) := rfl

/-- A pulse to an aligned unit none of whose links has trained. -/
theorem State.syncPulse_aligned {s : State} (n : Gc) (haligned : s.tb.state ≠ .notAligned)
    (h : ∀ k, (s.link k).trained < 64 ∧ (s.link k).rxTrain < 64) : s.syncPulse n = (s.modTb fun t => t.pulsed n).pulse n := by
  rw [State.syncPulse_untrained n h]
  exact if_pos haligned

theorem State.cycleLog_link (t s : State) (c : Scope) : (t.cycleLog s).link c = t.link c := rfl

/-- Settles O44. -/
theorem syncPulsesKeepTime : Obligations.SyncPulsesKeepTime := by
  unfold Obligations.SyncPulsesKeepTime
  refine ⟨fun n s haligned h => ⟨fun hn => ⟨s.syncPulse n, ?_⟩, fun hn => ⟨s.syncPulse n, ?_⟩⟩, fun s haligned hgap => ?_,
    fun s hfrozen hpassed => ?_,
    fun n c s hmode hboot hpower => ⟨fun hdown htrained hrx => ⟨_, exec_syncPulse n s, ?_⟩, fun htx hrx => ⟨_, exec_syncPulse n s, ?_⟩⟩,
    fun n s hmode => ⟨_, exec_syncPulse n s, ?_⟩, fun f s hlow hhigh => exec_fclkChange_allowed s (by simp [fclkAllowed, hlow, hhigh])⟩
  · obtain ⟨htb, hledger⟩ := (s.modTb fun t => t.pulsed n).pulse_forward hn rfl
    have hframe := (s.modTb fun t => t.pulsed n).pulse_frame n
    rw [exec_syncPulse, State.syncPulse_aligned n haligned h]
    refine ⟨congrArg _ (State.cycleLog_atMostOne hledger), htb, hledger, hframe⟩
  · obtain ⟨htb, hledger⟩ := (s.modTb fun t => t.pulsed n).pulse_backward hn
    have hframe := (s.modTb fun t => t.pulsed n).pulse_frame n
    rw [exec_syncPulse, State.syncPulse_aligned n haligned h]
    exact ⟨congrArg _ (State.cycleLog_atMostOne' hledger), htb, hledger, hframe⟩
  · exact congrArg _ (if_neg (not_or.mpr ⟨haligned, not_lt.mpr hgap⟩))
  · exact congrArg _ (if_pos ⟨hfrozen, hpassed⟩)
  · rw [State.cycleLog_link, State.syncPulse_link n c hmode hboot hpower,
      Link.rxResumed_untrained _ ((Link.txResumed_rxTrain _).trans_lt hrx), Link.txResumed, if_pos ⟨hdown, htrained⟩]
    simp [Link.settleState]
  · have hsame : (s.link c).txResumed = s.link c := if_neg fun hup => by
      rcases htx with h | h
      · simp [h] at hup
      · omega
    rw [State.cycleLog_link, State.syncPulse_link n c hmode hboot hpower, hsame, Link.rxResumed, if_pos hrx]
    simp [Link.settleState, bne]
  · exact State.syncPulse_testMode n hmode

/-! ### The steps of start-up -/

/-- With every word clean, a byte of the OTP is read as it stands. -/
theorem Otp.byte_clean {o : Otp} (h : o.synd = []) (a : Nat) : o.byte a = sparseGet 0 o.bytes a := by
  simp [Otp.byte, h, sparseGet, classify]

theorem Otp.range_clean {o : Otp} (h : o.synd = []) (a n : Nat) : o.range a n = (upTo n).map fun i => sparseGet 0 o.bytes (a + i) := by
  simp [Otp.range, Otp.byte_clean h]

theorem Otp.words_clean {o : Otp} (h : o.synd = []) (p : Syndrome → Bool) : o.words p = [] := by
  simp [Otp.words, h]

/-- The unit after OTP_LOAD took straps, identity and trims and before the rings and the grant: what is read and counted. -/
theorem State.otpLoad_clean {s : State} {straps : Straps} (hboot : s.boot = .otpLoad) (hclean : s.fixed.otp.synd = [])
    (hmode : straps.testMode = false) :
    let t := s.otpLoad straps
    t.boot = .grant ∧ t.fixed.straps = straps ∧ t.fixed.otp = s.fixed.otp ∧ t.fixed.spadMiB = s.fixed.spadMiB
      ∧ t.fixed.ident.serial = BitVec.ofNat 64 (leNat (s.fixed.otp.range 0 8)) ∧ t.fixed.trims = s.fixed.otp.trims
      ∧ t.pw = { s.pw with greq := true } ∧ t.prov.keys.gen = s.fixed.otp.keys.isEmpty ∧ t.prov.keys.need = s.fixed.otp.keys.isEmpty
      ∧ t.ft.unit = s.ft.unit ∧ t.prov.rcpt = s.prov.rcpt
      ∧ (∀ c, t.link c = { s.link c with ringDown := [t.position c, (t.position c + 1) % if c = .die then 16 else 4] })
      ∧ t = { s with boot := t.boot, fixed := t.fixed, pw := t.pw, prov := t.prov, ft := t.ft, links := t.links } := by
  intro t
  simp only [t, State.otpLoad, hboot, ne_eq, not_true_eq_false, if_false, Otp.words_clean hclean, List.any_nil, Bool.false_eq_true, hmode,
    Bool.not_false, Bool.and_true]
  refine ⟨rfl, rfl, rfl, rfl, rfl, rfl, rfl, rfl, rfl, rfl, rfl, fun c => ?_, rfl⟩
  cases c <;> rfl

/-- An uncorrectable word among the trims leaves the sensors as they are (R444). -/
theorem Otp.trims_bad {o : Otp} {w : Nat} {x : Byte} (hmem : (w, x) ∈ o.synd) (hbad : (classify x).bad = true) (hlow : 0x50 ≤ 8 * w)
    (hhigh : 8 * w < 0x100) : o.trims.sensor0 = (0, 0x8000) ∧ o.trims.sensor1 = (0, 0x8000) := by
  have hword : w ∈ o.words Syndrome.bad :=
    List.mem_map.mpr ⟨(w, x), List.mem_filter.mpr ⟨hmem, by simp [hbad]; omega⟩, rfl⟩
  have hany : ((o.words Syndrome.bad).any fun w => decide (0x50 ≤ 8 * w) && decide (8 * w < 0x100)) = true :=
    List.any_eq_true.mpr ⟨w, hword, by simp [hlow, hhigh]⟩
  rw [Otp.trims, if_pos hany]
  exact ⟨rfl, rfl⟩

theorem Otp.trims_clean {o : Otp} (h : o.synd = []) :
    let half (a : Nat) : W16 := BitVec.ofNat 16 (leNat ((upTo 2).map fun i => sparseGet 0 o.bytes (a + i)))
    o.trims = {
      sensor0 := (half 0x50, half 0x52), sensor1 := (half 0x54, half 0x56)
      energy := (upTo 9).map fun k => BitVec.ofNat 32 (leNat ((upTo 4).map fun i => sparseGet 0 o.bytes (0x60 + 4 * k + i))) } := by
  simp [Otp.trims, Otp.words_clean h, Otp.range_clean h]

/-- OTP_LOAD takes the trims of the OTP, whatever it finds there. -/
theorem State.otpLoad_trims {s : State} (straps : Straps) (hboot : s.boot = .otpLoad) :
    (s.otpLoad straps).fixed.trims = s.fixed.otp.trims := by
  simp only [State.otpLoad, hboot, ne_eq, not_true_eq_false, if_false]
  split <;> split <;> rfl

/-- A group as a start-up test without a failing lane leaves it: the spare of a full group is sound. -/
def Group.passed (x : Group) : Group := if x.st = .full then { x with spareBad := false } else x

theorem Group.passed_passed (x : Group) : x.passed.passed = x.passed := by
  by_cases h : x.st = .full <;> simp [Group.passed, h]

theorem vecGet_vecModify_of_ne {α : Type} {n i j : Nat} (v : Vector α n) (f : α → α) (d : α) (h : i ≠ j) :
    vecGet (vecModify v i f) j d = vecGet v j d := by
  rw [vecGet_vecModify, if_neg h]

theorem vecGet_vecModify_self {α : Type} {n i : Nat} (v : Vector α n) (f : α → α) (d : α) (h : i < n) :
    vecGet (vecModify v i f) i d = f (vecGet v i d) := by
  rw [vecGet_vecModify, if_pos rfl, if_pos h]

/-- A group without a failing lane is full and sound, or stays as it was. -/
theorem State.testGroup_pass (s : State) (g : Nat) : ∃ gs, s.testGroup [] g = { s with ft := { s.ft with groups := gs } }
    ∧ ∀ k : Nat, k < 8 → vecGet gs k .default = if k = g then (s.ft.group k).passed else s.ft.group k := by
  have hgroup : (s.ft.group g).st ≠ .full → ∀ k : Nat, k < 8 →
      vecGet s.ft.groups k .default = if k = g then (s.ft.group k).passed else s.ft.group k := by
    rintro h k -
    split
    · next hk => rw [hk, Group.passed, if_neg h]; rfl
    · rfl
  unfold State.testGroup
  simp only [List.filter_nil, List.map_nil, List.contains_nil, Bool.false_and, List.filter_false, List.isEmpty_nil, Bool.not_false,
    Bool.and_true, if_true]
  cases hst : (s.ft.group g).st with
  | full =>
    refine ⟨_, rfl, fun k hk => ?_⟩
    by_cases h : k = g
    · subst h
      rw [if_pos rfl, vecGet_vecModify_self _ _ _ hk, Group.passed, if_pos hst]
      rfl
    · rw [if_neg h, vecGet_vecModify_of_ne _ _ _ (Ne.symm h)]
      rfl
  | spare | disabled => exact ⟨s.ft.groups, rfl, hgroup (by simp [hst])⟩

theorem State.testGroups_pass (s : State) (gs : List Nat) : ∃ xs, s.testGroups [] gs = { s with ft := { s.ft with groups := xs } }
    ∧ ∀ k : Nat, k < 8 → vecGet xs k .default = if k ∈ gs then (s.ft.group k).passed else s.ft.group k := by
  induction gs generalizing s with
  | nil => exact ⟨s.ft.groups, rfl, fun k _ => by simp; rfl⟩
  | cons g gs ih =>
    obtain ⟨ys, hfirst, hys⟩ := s.testGroup_pass g
    obtain ⟨xs, hrest, hxs⟩ := ih (s.testGroup [] g)
    refine ⟨xs, by rw [State.testGroups, hrest, hfirst], fun k hk => ?_⟩
    have hgroup : (s.testGroup [] g).ft.group k = vecGet ys k .default := by rw [hfirst]; rfl
    rw [hxs k hk, hgroup, hys k hk]
    by_cases hg : k = g <;> by_cases hmem : k ∈ gs <;> simp [hg, hmem, Group.passed_passed]

/-- TSYNC of a unit that waits for no key makes it ready (R368). -/
theorem State.tsync_ready {s : State} (n : Gc) (h : s.prov.keys.need = false) :
    let t := s.tsync n
    t.boot = .ready ∧ t.tb = { s.tb with v := n, state := .aligned }
      ∧ t = { s with
          boot := t.boot, tb := t.tb, spad := t.spad, pw := t.pw
          ft := { s.ft with step := n.toNat / 128000, ran := t.ft.ran, groups := s.ft.groups.map fun g => { g with cover := 0 } } } := by
  intro t
  have ht : t = _ := if_neg (by simp [h])
  rw [ht]
  exact ⟨rfl, rfl, rfl⟩

/-- Settles O58. -/
theorem startUpReachesReady : Obligations.StartUpReachesReady := by
  unfold Obligations.StartUpReachesReady
  refine ⟨fun straps s hboot hclean hmode => ⟨_, rfl, ?_⟩, fun straps w x s hboot hmem hbad hlow hhigh => ⟨_, rfl, ?_⟩,
    fun s hboot hpower hmode => ?_, fun s hboot hpower => ?_, fun s hboot hpower hfail => ?_,
    fun n s hboot htime hneed hpower hlinks => ?_⟩
  · obtain ⟨hgrant, hstraps, hotp, hsize, hserial, htrims, hpw, hgen, hkey, hunit, hrcpt, hrings, hframe⟩ :=
      State.otpLoad_clean hboot hclean hmode
    refine ⟨hgrant, hstraps, hotp, hsize, ?_, hpw, hgen, hkey, hunit, hrcpt, htrims.trans (Otp.trims_clean hclean), hrings, hframe⟩
    rw [hserial, Otp.range_clean hclean]
    simp
  · rw [State.otpLoad_trims straps hboot]
    exact Otp.trims_bad hmem hbad hlow hhigh
  · refine ⟨s.mbist { words := [], lanes := [], array := none }, congrArg _ (State.cycleLog_same _ _ ?_), ?_⟩ <;>
      rw [State.mbist, if_neg (by simp [hboot, State.fclkRuns_of hpower])]
    · rfl
    · simp only [List.filter_nil, List.dedup_nil, State.poisonWords]
      refine ⟨if_neg (by simp [State.zeroFill, State.clearScratchpad, hmode]), rfl, rfl, rfl, rfl, rfl⟩
  · have hcheck : s.romCheck [] =
        { s with boot := .laneTest, ft := { s.ft with romGc := s.gc, romPasses := satAdd s.ft.romPasses 1 } } := by
      rw [State.romCheck, if_neg (by simp [hboot, State.fclkRuns_of hpower])]
      simp [hboot, State.romFailures, State.modFt]
    exact congrArg _ ((State.cycleLog_same _ _ (by rw [hcheck])).trans hcheck)
  · obtain ⟨gs, htest, hgs⟩ := s.testGroups_pass (upTo 8)
    have hself : s.laneSelfTest [] = { s with boot := .tsync, ft := { s.ft with groups := gs } } := by
      rw [State.laneSelfTest, if_neg (by simp [hboot, State.fclkRuns_of hpower]), hfail, List.append_nil, htest]
      simp [State.modFt, hboot, ← hfail]
    refine ⟨s.laneSelfTest [], congrArg _ (State.cycleLog_same _ _ (by rw [hself])), ?_⟩
    rw [hself]
    refine ⟨rfl, fun g hg => ?_, rfl⟩
    rw [show Faults.group _ g = vecGet gs g .default from rfl, hgs g hg, if_pos (by simpa [upTo] using hg), Group.passed]
  · have htake : s.pulseTaken n = (s.modTb fun t => t.pulsed n).tsync n := by
      rw [State.pulseTaken, if_neg (by simp [TimeBase.pulsed, htime])]
      exact if_pos (.inl hboot)
    obtain ⟨hready, htb, hframe⟩ := (s.modTb fun t => t.pulsed n).tsync_ready n hneed
    have hsync : s.syncPulse n = (s.modTb fun t => t.pulsed n).tsync n := (State.syncPulse_untrained n hlinks).trans htake
    refine ⟨s.syncPulse n, congrArg _ (State.cycleLog_same _ _ ?_), ?_⟩ <;> rw [hsync]
    · rw [hframe]
      rfl
    · refine ⟨hready, by rw [htb]; rfl, by rw [htb], by rw [htb], by rw [htb]; rfl, hframe⟩

end Sys2Proof.Machine
end

section
/-! The signing engine, receipt windows and exposure (R251 to R255). -/
namespace Sys2Proof.Machine
open Sys2Proof Sys2Proof.Claims

/-! ### The length of a digest (FIPS 180-4) -/

theorem shaRound_length {st : List W64} (h : st.length = 8) (k w : W64) : (shaRound st k w).length = 8 := by
  unfold shaRound
  split
  · rfl
  · exact h

theorem shaRounds_length {st : List W64} (h : st.length = 8) (ks ws : List W64) : (shaRounds st ks ws).length = 8 := by
  induction ks generalizing st ws with
  | nil => simpa [shaRounds] using h
  | cons k ks ih =>
    cases ws with
    | nil => simpa [shaRounds] using h
    | cons w ws => exact ih (shaRound_length h k w) ws

theorem addWords_length (as bs : List W64) : (addWords as bs).length = min as.length bs.length := by
  induction as generalizing bs with
  | nil => simp [addWords]
  | cons a as ih => cases bs <;> simp [addWords, ih]

theorem shaBlock_length {st : List W64} (h : st.length = 8) (b : List Byte) : (shaBlock st b).length = 8 := by
  rw [shaBlock, addWords_length, shaRounds_length h, h]
  rfl

theorem shaBlocks_length (n : Nat) {st : List W64} (h : st.length = 8) (buf : List Byte) : (shaBlocks n st buf).1.length = 8 := by
  induction n generalizing st buf with
  | zero => exact h
  | succ n ih => exact ih (shaBlock_length h _) _

theorem length_beBytes (n v : Nat) : (beBytes n v).length = n := by
  simp [beBytes, length_leBytes]

theorem Sha.finish_length {x : Sha} (h : x.h.length = 8) : x.finish.length = 48 := by
  have hblocks (tail : List Byte) : (shaBlocks (tail.length / 128) x.h tail).1.length = 8 := shaBlocks_length _ h tail
  simp only [Sha.finish, List.length_flatten, List.map_map, Function.comp_def, length_beBytes, List.map_const', List.sum_replicate,
    List.length_take, hblocks]
  rfl

theorem length_sha384 (bs : List Byte) : (sha384 bs).length = 48 := Sha.finish_length (shaBlocks_length _ rfl _)

/-! ### Fields of a concatenation of bytes -/

theorem slice_append_of_le {as : List Byte} {a : Nat} (h : as.length ≤ a) (bs : List Byte) (n : Nat) :
    slice (as ++ bs) a n = slice bs (a - as.length) n := by
  rw [slice, List.drop_append, List.drop_of_length_le h, List.nil_append, slice]

theorem slice_append_zero {as : List Byte} {n : Nat} (h : as.length = n) (bs : List Byte) : slice (as ++ bs) 0 n = as := by
  simp [slice, ← h]

/-- The fields of a notice (Table 9.8). -/
theorem State.noticeOf_fields (s : State) (e : Receipt) : let n := s.noticeOf e
    n.take 2 = [0x01, if e.reason.isSome then 2 else 1] ∧ slice n 24 8 = leBytes 8 s.gc.toNat ∧ slice n 16 8 = leBytes 8 e.rseq.toNat
      ∧ slice n 32 48 = sha384 e.record ∧ slice n 2 2 = leBytes 2 ((e.reason.map fun r => r.1).getD 0)
      ∧ slice n 80 8 = leBytes 8 ((e.reason.map fun r => r.2.toNat).getD 0) := by
  intro n
  have hn : n = [0x01, if e.reason.isSome then 2 else 1] ++ (leBytes 2 ((e.reason.map fun r => r.1).getD 0)
      ++ (leBytes 2 s.prov.keys.keygen.toNat ++ [0, 0] ++ leBytes 8 s.fixed.ident.serial.toNat
      ++ (leBytes 8 e.rseq.toNat ++ (leBytes 8 s.gc.toNat ++ (sha384 e.record
      ++ (leBytes 8 ((e.reason.map fun r => r.2.toNat).getD 0) ++ List.replicate 8 0)))))) := by
    simp only [n, State.noticeOf, List.append_assoc]
  rw [hn]
  refine ⟨rfl, ?_, ?_, ?_, ?_, ?_⟩ <;>
    simp only [slice_append_of_le, slice_append_zero, List.length_append, List.length_cons, List.length_nil, length_leBytes, length_sha384,
      Nat.reduceAdd, Nat.reduceLeDiff, Nat.reduceSub, le_refl, Nat.sub_self, Nat.zero_add]

/-! ### One receipt of the store -/

/-- The first element with a property, changed where it stands. -/
theorem updateFirst_append {α : Type} {p : α → Bool} {as : List α} (has : ∀ x ∈ as, p x = false) {e : α} (he : p e = true) (f : α → α)
    (bs : List α) : updateFirst p f (as ++ e :: bs) = as ++ f e :: bs := by
  induction as with
  | nil => simp [updateFirst, he]
  | cons a as ih =>
    obtain ⟨ha, has⟩ := List.forall_mem_cons.mp has
    simp [updateFirst, ha, ih has]

theorem Receipts.modEntry_append {r : Receipts} {as bs : List Receipt} {e : Receipt} {q : W64} (hr : r.entries = as ++ e :: bs)
    (he : e.rseq = q) (has : ∀ x ∈ as, x.rseq ≠ q) (f : Receipt → Receipt) :
    r.modEntry q f = { r with entries := as ++ f e :: bs } := by
  rw [Receipts.modEntry, hr, updateFirst_append (by simpa using has) (by simp [he])]

theorem Receipts.entry?_append {r : Receipts} {as bs : List Receipt} {e : Receipt} {q : W64} (hr : r.entries = as ++ e :: bs)
    (he : e.rseq = q) (has : ∀ x ∈ as, x.rseq ≠ q) : r.entry? q = some e := by
  rw [Receipts.entry?, hr, List.find?_append]
  simp [List.find?_eq_none.mpr (by simpa using has : ∀ x ∈ as, ¬(x.rseq == q) = true), he]

/-! ### The notice queue -/

/-- Queueing notices touches the entries and the notice queue alone. -/
theorem Receipts.queueNotices_frame (es : List Receipt) (r : Receipts) :
    r.queueNotices es = { r with entries := (r.queueNotices es).entries, noticeQ := (r.queueNotices es).noticeQ } := by
  induction es generalizing r with
  | nil => rfl
  | cons e es ih =>
    rw [Receipts.queueNotices, ih]
    split <;> rfl

theorem Receipts.settled_exposures (r : Receipts) : r.settled.exposures = r.exposures := by
  rw [Receipts.settled, Receipts.queueNotices_frame]

/-- A store without a signed receipt that has been struck has no notice to queue. -/
theorem Receipts.queueNotices_none (r : Receipts) {es : List Receipt} (h : ∀ e ∈ es, e.status = .signed → e.reason = none) :
    r.queueNotices es = r := by
  induction es with
  | nil => rfl
  | cons e es ih =>
    obtain ⟨he, hes⟩ := List.forall_mem_cons.mp h
    have hskip : (e.status == .signed && e.reason.isSome && decide (r.noticeQ.length < 64)) = false := by
      cases hst : e.status <;> simp_all
    rw [Receipts.queueNotices, hskip]
    exact ih hes

theorem Receipts.settled_none {r : Receipts} (h : ∀ e ∈ r.entries, e.status = .signed → e.reason = none) : r.settled = r :=
  r.queueNotices_none h

/-! ### Receipt windows (R253) -/

/-- The receipts whose window may close: signed, not struck, and due. -/
def Receipt.closes (due : Receipt → Bool) (e : Receipt) : Bool := e.status == .signed && e.reason.isNone && due e

/-- A receipt after the window test. -/
def Receipt.tested (due : Receipt → Bool) (e : Receipt) : Receipt := if e.closes due then { e with status := .noticeQueued } else e

theorem Receipt.tested_rseq (due : Receipt → Bool) (e : Receipt) : (e.tested due).rseq = e.rseq := by
  unfold Receipt.tested
  split <;> rfl

/-- With room for all, every window that may close does, and the notices follow in the order of the store. -/
theorem Receipts.closeWindows_eq (due : Receipt → Bool) (es : List Receipt) (as : List Receipt) (r : Receipts) (hr : r.entries = as ++ es)
    (hnodup : ((as ++ es).map fun e => e.rseq).Nodup) (hroom : r.noticeQ.length + (es.filter (Receipt.closes due)).length ≤ 64) :
    r.closeWindows due es = { r with
      entries := as ++ es.map (Receipt.tested due), noticeQ := r.noticeQ ++ (es.filter (Receipt.closes due)).map fun e => e.rseq } := by
  induction es generalizing as r with
  | nil => simp [Receipts.closeWindows, ← hr]
  | cons e es ih =>
    have has : ∀ x ∈ as, x.rseq ≠ e.rseq := by
      simp only [List.map_append, List.map_cons, List.nodup_append] at hnodup
      intro x hx
      exact hnodup.2.2 _ (List.mem_map_of_mem hx) _ List.mem_cons_self
    have hnodup' : ((as ++ [e.tested due] ++ es).map fun e => e.rseq).Nodup := by simpa [Receipt.tested_rseq] using hnodup
    rw [Receipts.closeWindows]
    by_cases hclose : e.closes due = true
    · have hlen : r.noticeQ.length + 1 + (es.filter (Receipt.closes due)).length ≤ 64 := by
        simp only [List.filter_cons, hclose, if_true, List.length_cons] at hroom
        omega
      have hcond : (e.status == .signed && e.reason.isNone && decide (r.noticeQ.length < 64) && due e) = true := by
        have hless : r.noticeQ.length < 64 := by omega
        simp only [Receipt.closes, Bool.and_eq_true] at hclose
        simp [hclose, hless]
      have htested : e.tested due = { e with status := .noticeQueued } := if_pos hclose
      rw [hcond, if_pos rfl, Receipts.modEntry_append hr rfl has, ← htested,
        ih (as ++ [e.tested due]) _ (by simp) hnodup' (by simpa using hlen)]
      simp [hclose]
    · have hcond : (e.status == .signed && e.reason.isNone && decide (r.noticeQ.length < 64) && due e) = false := by
        by_contra h
        rw [Bool.not_eq_false, Bool.and_eq_true, Bool.and_eq_true, Bool.and_eq_true] at h
        exact hclose (by simp [Receipt.closes, h])
      have htested : e.tested due = e := if_neg hclose
      rw [hcond, if_neg (by decide), ih (as ++ [e]) r (by simpa using hr) (by simpa [htested] using hnodup')
        (by simpa [List.filter_cons, hclose] using hroom)]
      simp [hclose, htested]

/-- The windows that are due now and that no other event precedes close, while the lanes run or wake. -/
theorem State.receiptWindowTest_run {s : State} (hrun : s.checksRun = true) (htime : s.tb.state ≠ .notAligned)
    (hnodup : (s.prov.rcpt.entries.map fun e => e.rseq).Nodup) (hsound : ∀ x ∈ s.prov.rcpt.entries, x.status = .signed → x.reason = none) :
    let due := fun e => s.windowDue e && !s.behind e.deadline.toNat 7
    let r := s.prov.rcpt
    r.noticeQ.length + (r.entries.filter (Receipt.closes due)).length ≤ 64 →
    s.receiptWindowTest = { s with prov := { s.prov with rcpt := { r with
      entries := r.entries.map (Receipt.tested due), noticeQ := r.noticeQ ++ (r.entries.filter (Receipt.closes due)).map fun e => e.rseq } } } := by
  intro due r hroom
  have hclosed := Receipts.closeWindows_eq due r.entries [] r rfl hnodup hroom
  have hsettled : (r.closeWindows due r.entries).settled = r.closeWindows due r.entries := by
    refine Receipts.settled_none fun e he => ?_
    rw [hclosed] at he
    obtain ⟨x, hx, rfl⟩ := List.mem_map.mp he
    unfold Receipt.tested
    split
    · simp
    · exact hsound x hx
  rw [State.receiptWindowTest, if_pos (by simp [hrun, htime])]
  change s.modRcpt (fun r => (r.closeWindows due r.entries).settled) = _
  rw [State.modRcpt, hsettled, hclosed]
  rfl

/-! ### The signing engine -/

theorem State.drained_idle {s : State} (h : s.prov.keys.rot = .idle) : s.drained = s := by
  unfold State.drained
  split
  · exact if_neg fun hboth => by simp [h] at hboth
  · rfl

/-- When one receipt changes and neither it nor another one waits for a notice of invalidation, none is queued. -/
theorem Receipts.settled_modEntry {r : Receipts} {as bs : List Receipt} {e : Receipt} {q : W64} {f : Receipt → Receipt}
    (hr : r.entries = as ++ e :: bs) (hq : e.rseq = q) (has : ∀ x ∈ as, x.rseq ≠ q)
    (he : (f e).status = .signed → (f e).reason = none) (hrest : ∀ x ∈ as ++ bs, x.status = .signed → x.reason = none) :
    (r.modEntry q f).settled = { r with entries := as ++ f e :: bs } := by
  rw [Receipts.modEntry_append hr hq has]
  refine Receipts.settled_none fun x hx => ?_
  rw [List.mem_append, List.mem_cons] at hx
  rcases hx with hx | rfl | hx
  · exact hrest x (List.mem_append_left _ hx)
  · exact he
  · exact hrest x (List.mem_append_right _ hx)

/-- The store after the receipt at the head of the signing queue has been signed. -/
theorem State.signatureComplete_eq {s : State} {q : W64} {qs : List W64} {as bs : List Receipt} {e : Receipt}
    (hsigns : s.signs = true) (hq : s.prov.rcpt.signQ = q :: qs) (hturn : s.prov.rcpt.noticeTurn = false ∨ s.prov.rcpt.noticeQ = [])
    (hr : s.prov.rcpt.entries = as ++ e :: bs) (he : e.rseq = q) (has : ∀ x ∈ as, x.rseq ≠ q) (hreason : e.reason = none)
    (hrest : ∀ x ∈ as ++ bs, x.status = .signed → x.reason = none) (hrot : s.prov.keys.rot = .idle) :
    s.signatureComplete = ({ s with prov := { s.prov with rcpt := { s.prov.rcpt with
        entries := as ++ { e with sig := ecdsaSign s.key e.record, status := .signed } :: bs, signQ := qs, noticeTurn := true } } } : State).log
      0x0901 0xFFFF (some e.tenant) (leBytes 8 q.toNat) := by
  have hfree : (s.prov.rcpt.noticeTurn && !s.prov.rcpt.noticeQ.isEmpty) = false := by rcases hturn with h | h <;> simp [h]
  simp only [State.signatureComplete, hq, hsigns, hfree, Receipts.entry?_append hr he has]
  rw [if_neg (by decide), State.modRcpt, Receipts.settled_modEntry (as := as) (bs := bs) (by exact hr) he has (fun _ => hreason) hrest,
    State.drained_idle (by exact hrot)]
  rfl

/-- The unit after the notice at the head of the notice queue has been formed and signed, before its entry is logged. -/
def State.noticeTaken (s : State) (as bs : List Receipt) (e : Receipt) (qs : List W64) (n : List Byte) : State :=
  { s with prov := { s.prov with rcpt := { s.prov.rcpt with
      entries := as ++ { e with notice := n, nsig := ecdsaSign s.key n, status := .noticed, confirmed := e.reason.isNone } :: bs
      noticeQ := qs, noticeTurn := false, lastConfirm := if e.reason = none then s.gc else s.prov.rcpt.lastConfirm } } }

theorem State.noticeSigned_eq {s : State} {q : W64} {qs : List W64} {as bs : List Receipt} {e : Receipt}
    (hsigns : s.signs = true) (hq : s.prov.rcpt.noticeQ = q :: qs) (hturn : s.prov.rcpt.noticeTurn = true ∨ s.prov.rcpt.signQ = [])
    (hr : s.prov.rcpt.entries = as ++ e :: bs) (he : e.rseq = q) (has : ∀ x ∈ as, x.rseq ≠ q)
    (hrest : ∀ x ∈ as ++ bs, x.status = .signed → x.reason = none) (hrot : s.prov.keys.rot ≠ .programming)
    (hwarm : (e.reason.map fun r => r.1) = some 4 → s.boot = .ready) :
    s.noticeSigned = match e.reason with
      | none => (s.noticeTaken as bs e qs (s.noticeOf e)).log 0x0902 0xFFFF (some e.tenant) (leBytes 8 q.toNat)
      | some r => (s.noticeTaken as bs e qs (s.noticeOf e)).log 0x0903 0xFFFF (some e.tenant) (leBytes 8 q.toNat ++ leBytes 2 r.1) := by
  have hfree : (!s.prov.rcpt.noticeTurn && !s.prov.rcpt.signQ.isEmpty) = false := by rcases hturn with h | h <;> simp [h]
  simp only [State.noticeSigned, hq, hsigns, hfree, Receipts.entry?_append hr he has]
  rw [if_neg (by simp [hrot]), if_neg (by simpa using hwarm), State.modRcpt,
    Receipts.settled_modEntry (as := as) (bs := bs) (by exact hr) he has (fun h => by simp at h) hrest]
  cases hreason : e.reason <;> simp [State.noticeTaken, hreason, cCONFM, cPROVX, noTag]

/-- Settles O51. -/
theorem receiptsAreSignedAndConfirmed : Obligations.ReceiptsAreSignedAndConfirmed := by
  unfold Obligations.ReceiptsAreSignedAndConfirmed
  refine ⟨?_, ?_, ?_⟩
  · intro e q qs as bs s r hsigns hq hturn hr he has hreason hrest hrot
    exact congrArg _ (State.signatureComplete_eq hsigns hq hturn hr he has hreason hrest hrot)
  · intro s r closes hboot htime hnodup hsound hroom
    have hchecks : s.checksRun = true ↔ s.pw.state = .run ∨ s.pw.state = .waking := by simp [State.checksRun, hboot]
    by_cases hrun : s.checksRun = true
    · have hcloses (x : Receipt) (hx : x ∈ r.entries) :
          x.closes (fun e => s.windowDue e && !s.behind e.deadline.toNat 7) = closes x := by
        by_cases hst : x.status = .signed
        · simp [Receipt.closes, closes, State.windowDue, hst, hsound x hx hst, Bool.and_assoc]
        · simp [Receipt.closes, closes, beq_false_of_ne hst]
      have hfilter : r.entries.filter (Receipt.closes fun e => s.windowDue e && !s.behind e.deadline.toNat 7) = r.entries.filter closes :=
        List.filter_congr hcloses
      have hmap : r.entries.map (Receipt.tested fun e => s.windowDue e && !s.behind e.deadline.toNat 7)
          = r.entries.map fun e => if closes e then { e with status := .noticeQueued } else e :=
        List.map_congr_left fun x hx => by simp [Receipt.tested, hcloses x hx]
      rw [if_pos (hchecks.mp hrun)]
      refine congrArg _ ((State.receiptWindowTest_run hrun htime hnodup hsound (by rw [hfilter]; exact hroom)).trans ?_)
      rw [hfilter, hmap]
    · rw [if_neg (mt hchecks.mpr hrun)]
      exact congrArg _ (if_neg (by simp [hrun]))
  · intro e q qs as bs s r hsigns hq hturn hr he has hrest hrot after head
    obtain ⟨hkind, hgc, hrseq, hrec, hk, hg⟩ := s.noticeOf_fields e
    rw [he] at hrseq
    refine ⟨fun hreason => ⟨s.noticeOf e, ?_, ?_⟩, fun k g hreason hwarm => ⟨s.noticeOf e, ?_, ?_, ?_⟩⟩
    · refine congrArg _ ((State.noticeSigned_eq hsigns hq hturn hr he has hrest hrot (by simp [hreason])).trans ?_)
      simp only [hreason]
      rfl
    · exact ⟨by simpa [hreason] using hkind, hgc, hrseq, hrec⟩
    · refine congrArg _ ((State.noticeSigned_eq hsigns hq hturn hr he has hrest hrot ?_).trans ?_)
      · exact fun h4 => hwarm.resolve_left (by simpa [hreason] using h4)
      · simp only [hreason]
        rfl
    · exact ⟨by simpa [hreason] using hkind, hgc, hrseq, hrec⟩
    · simp only [hreason, Option.map_some, Option.getD_some] at hk hg
      exact ⟨hk, hg⟩

end Sys2Proof.Machine
end

section
/-! Faults of the lanes, the shared logic and the table ROMs (R392 to R406). -/
namespace Sys2Proof.Machine
open Sys2Proof Sys2Proof.Claims

/-- Two states that agree in every field are the same. -/
theorem State.ext_fields {t u : State} (hfixed : t.fixed = u.fixed) (hboot : t.boot = u.boot) (htb : t.tb = u.tb) (hep : t.ep = u.ep)
    (hregs : t.regs = u.regs) (hst : t.st = u.st) (hspad : t.spad = u.spad) (hescrow : t.escrow = u.escrow) (hrolls : t.rolls = u.rolls)
    (hstream : t.stream = u.stream) (hprov : t.prov = u.prov) (hledger : t.ledger = u.ledger) (hevRings : t.evRings = u.evRings)
    (hevOut : t.evOut = u.evOut) (hmg : t.mg = u.mg) (hpw : t.pw = u.pw) (htn : t.tn = u.tn) (hft : t.ft = u.ft) (hact : t.act = u.act)
    (hlinks : t.links = u.links) (hsetBuf : t.setBuf = u.setBuf) (hfree : t.free = u.free) (hout : t.out = u.out)
    (hpending : t.pending = u.pending) : t = u := by
  cases t
  cases u
  simp_all

theorem vecGet_map {α : Type} {n : Nat} (v : Vector α n) (f : α → α) (i : Nat) (d : α) (h : i < n) :
    vecGet (v.map f) i d = f (vecGet v i d) := by
  simp [vecGet, h]

theorem Faults.group_modGroup_self (s : State) {g : Nat} (h : g < 8) (f : Group → Group) :
    (s.modGroup g f).ft.group g = f (s.ft.group g) := vecGet_vecModify_self _ _ _ h

theorem Faults.group_modGroup_of_ne (s : State) {g k : Nat} (h : k ≠ g) (f : Group → Group) :
    (s.modGroup g f).ft.group k = s.ft.group k := vecGet_vecModify_of_ne _ _ _ h.symm

/-! ### Detection (R393, R394, R396) -/

theorem State.lanesChecked_of {s : State} (hs : started s) (hrun : s.pw.state = .run) (hunit : s.ft.unit ≠ .offline) :
    s.lanesChecked = true := by
  simp [State.lanesChecked, State.running_of_started hs, hrun, hunit]

/-- The recovery that a first suspect opens for a command. -/
def Recovery.first (tag : Option W16) (x : Suspect) : Recovery :=
  { tag := tag, suspects := [x], last := (x.group, x.lane), logged := false }

/-- A first suspect opens a recovery. -/
theorem State.suspect_first {s : State} (h : s.ft.recovery = none) (x : Suspect) :
    s.suspect x = s.modFt fun f => 
      { f with recovery := some (.first (s.working.map fun c => c.tag) x) } := by
  simp only [State.suspect, h]
  rfl

theorem State.residueMismatch_lane {s : State} {g l : Nat} {c : Inflight} (hs : started s) (hrun : s.pw.state = .run)
    (hunit : s.ft.unit ≠ .offline) (hrec : s.ft.recovery = none) (hg : g < 8) (hl : l < 32) (hst : (s.ft.group g).st ≠ .disabled)
    (hc : s.working = some c) :
    s.residueMismatch (.lane g l) = { s with ft := { s.ft with
      residue := satAdd s.ft.residue 1
      recovery := some { tag := some c.tag, suspects := [{ group := g, lane := l, checker := false }], last := (g, l), logged := false } } } := by
  rw [State.residueMismatch, if_neg (by simp [State.lanesChecked_of hs hrun hunit])]
  dsimp only
  rw [if_pos ⟨hg, hl, hst, by simp [hc]⟩, State.suspect_first (by exact hrec)]
  rw [show s.countResidue.working = some c from hc]
  rfl

/-- An exposed interval is listed behind the others. -/
theorem State.expose_exposures (s : State) (e : Gc) (reason : Nat) :
    (s.expose e reason).prov.rcpt.exposures = s.prov.rcpt.exposures ++ [(e, s.gc, reason)] := Receipts.settled_exposures _

theorem State.expose_frame (s : State) (e : Gc) (reason : Nat) : s.expose e reason = { s with prov := (s.expose e reason).prov } := rfl

theorem State.expose_rest (s : State) (e : Gc) (reason : Nat) : (s.expose e reason).prov.cur = s.prov.cur
    ∧ (s.expose e reason).prov.prev = s.prov.prev ∧ (s.expose e reason).prov.keys = s.prov.keys := ⟨rfl, rfl, rfl⟩

/-- The state of the faults after the mismatch of a checker has put its lane under test. -/
def State.checkerSuspected (s : State) (g : Nat) : Faults :=
  { s.ft with
    mismatches := satAdd s.ft.mismatches 1, groups := vecModify s.ft.groups g fun x => { x with clean := false }
    recovery := some (.first (s.working.map fun c => c.tag) { group := g, lane := s.ft.step % 32, checker := true }) }

theorem State.checkerSuspected_group (s : State) {g : Nat} (h : g < 8) :
    (s.checkerSuspected g).group g = { s.ft.group g with clean := false } := vecGet_vecModify_self _ _ _ h

theorem State.checkerMismatch_eq {s : State} {g : BitVec 3} (hs : started s) (hrun : s.pw.state = .run) (hunit : s.ft.unit ≠ .offline)
    (hrec : s.ft.recovery = none) (hst : (s.ft.group g.toNat).st ≠ .disabled) :
    s.checkerMismatch g =
      ({ s with ft := s.checkerSuspected g.toNat } : State).expose (vecGet (s.ft.group g.toNat).lastCheck (s.ft.step % 32) 0) 1 := by
  have hlast : ((s.checkerSuspected g.toNat).group g.toNat).lastCheck = (s.ft.group g.toNat).lastCheck := by
    rw [s.checkerSuspected_group g.isLt]
  rw [State.checkerMismatch, if_neg (by simp [State.lanesChecked_of hs hrun hunit, hst]), ← hlast]
  dsimp only
  rw [State.suspect_first (by exact hrec)]
  rfl

/-- Settles O48. -/
theorem mismatchesStopAndTest : Obligations.MismatchesStopAndTest := by
  unfold Obligations.MismatchesStopAndTest
  refine ⟨fun g l c s hs hrun hunit hrec hg hl hst hc => congrArg _ (State.residueMismatch_lane hs hrun hunit hrec hg hl hst hc),
    fun g s hs hrun hunit hrec hst => ?_⟩
  have heq := State.checkerMismatch_eq hs hrun hunit hrec hst
  have hgroup := congrArg Group.clean (s.checkerSuspected_group g.isLt)
  have hlisted := State.expose_exposures { s with ft := s.checkerSuspected g.toNat }
    (vecGet (s.ft.group g.toNat).lastCheck (s.ft.step % 32) 0) 1
  obtain ⟨hcur, hprev, hkeys⟩ := State.expose_rest { s with ft := s.checkerSuspected g.toNat }
    (vecGet (s.ft.group g.toNat).lastCheck (s.ft.step % 32) 0) 1
  rw [State.expose_frame] at heq
  generalize (({ s with ft := s.checkerSuspected g.toNat } : State).expose _ 1).prov = p at heq hlisted hcur hprev hkeys
  exact ⟨{ s with ft := s.checkerSuspected g.toNat, prov := p },
    .first (s.working.map fun c => c.tag) { group := g.toNat, lane := s.ft.step % 32, checker := true }, congrArg _ heq, rfl, rfl, rfl, rfl, rfl, hgroup, hlisted, hcur, hprev, hkeys, rfl⟩

/-! ### The rotation of the checkers (R394, R395) -/

theorem Group.endWindow_lastCheck (x : Group) {lane l : Nat} (hl : l < 32) (gc : Gc) (ran : Bool) :
    vecGet (x.endWindow lane gc ran).lastCheck l 0 =
      if x.st ≠ .disabled ∧ x.clean = true ∧ ran = true ∧ l = lane then gc else vecGet x.lastCheck l 0 := by
  unfold Group.endWindow
  by_cases h : x.st ≠ .disabled ∧ x.clean = true ∧ ran = true
  · obtain ⟨hst, hclean, hran⟩ := h
    rw [if_pos ⟨hst, hclean, hran⟩, vecGet_vecModify, if_pos hl]
    by_cases hlane : l = lane
    · simp [hst, hclean, hran, hlane]
    · simp [hlane, Ne.symm hlane]
  · rw [if_neg h, if_neg fun hall => h ⟨hall.1, hall.2.1, hall.2.2.1⟩]

theorem Group.endWindow_rest (x : Group) (lane : Nat) (gc : Gc) (ran : Bool) :
    (x.endWindow lane gc ran).clean = true ∧ (x.endWindow lane gc ran).st = x.st ∧ (x.endWindow lane gc ran).remap = x.remap := by
  unfold Group.endWindow
  split
  · next h => exact ⟨h.2.1, rfl, rfl⟩
  · exact ⟨rfl, rfl, rfl⟩

/-- A group after a rotation step of the checkers that ends the window of a lane; `turn`: a sweep begins anew. -/
def Group.rotated (x : Group) (lane : Nat) (gc : Gc) (ran turn : Bool) : Group :=
  if turn then { x.endWindow lane gc ran with cover := 0 } else x.endWindow lane gc ran

theorem Group.rotated_lastCheck (x : Group) {lane l : Nat} (hl : l < 32) (gc : Gc) (ran turn : Bool) :
    vecGet (x.rotated lane gc ran turn).lastCheck l 0 =
      if x.st ≠ .disabled ∧ x.clean = true ∧ ran = true ∧ l = lane then gc else vecGet x.lastCheck l 0 := by
  rw [← x.endWindow_lastCheck hl, Group.rotated]
  split <;> rfl

theorem Group.rotated_rest (x : Group) (lane : Nat) (gc : Gc) (ran turn : Bool) :
    (x.rotated lane gc ran turn).clean = true ∧ (x.rotated lane gc ran turn).st = x.st ∧ (x.rotated lane gc ran turn).remap = x.remap := by
  have h := x.endWindow_rest lane gc ran
  unfold Group.rotated
  split <;> exact h

/-- A rotation step that is due and that no other event precedes. -/
theorem State.checkerRotationStep_due {s : State} (hboot : s.boot = .ready) (htime : s.tb.state ≠ .notAligned)
    (hdue : s.ft.step < s.gc.toNat / 128000) (hfirst : s.behind (128000 * (s.ft.step + 1)) 4 = false) : ∃ turn sweep : Bool,
    s.checkerRotationStep = s.modFt fun f => { f with
      groups := f.groups.map fun g => g.rotated (f.step % 32) s.gc f.ran turn, step := f.step + 1, ran := s.pw.state == .run
      sweepGc := if sweep then s.gc else f.sweepGc, sweeps := if sweep then satAdd f.sweeps 1 else f.sweeps } := by
  rw [State.checkerRotationStep, if_neg (by simp [hboot, htime, hdue, hfirst])]
  dsimp only
  generalize ((s.ft.step + 1) / 32 != s.ft.step / 32) = turn
  have hgroups : (if turn then (s.ft.groups.map fun g => g.endWindow (s.ft.step % 32) s.gc s.ft.ran).map fun g => { g with cover := 0 }
      else s.ft.groups.map fun g => g.endWindow (s.ft.step % 32) s.gc s.ft.ran)
        = s.ft.groups.map fun g => g.rotated (s.ft.step % 32) s.gc s.ft.ran turn := by
    cases turn
    · rfl
    · simp [Group.rotated, Function.comp_def]
  exact ⟨turn, _, by rw [hgroups]; rfl⟩

/-! ### Table ROMs and the lockstep (R401 to R403) -/

/-- A step whose entries are those two, in the order of their codes, keeps them as they were logged. -/
theorem State.cycleLog_two {t s : State} {code tag code' tag' : W16} {ctx ctx' : Option (BitVec 3)} {d d' : List Byte}
    (h : t.ledger = ((s.log code tag ctx d).log code' tag' ctx' d').ledger) (hle : code.toNat ≤ code'.toNat) : t.cycleLog s = t := by
  have hkeep := congrArg State.ledger (State.cycleLog_log_log s code tag code' tag' ctx ctx' d d' hle)
  rw [State.cycleLog, h]
  exact congrArg (fun l => { t with ledger := l }) (hkeep.trans h.symm)

/-- The unit after a group's ROM has failed while no other group is lost, before the interval is exposed. -/
def State.romLost (s : State) (g kind : Nat) : State :=
  ((s.modGroup g fun x => { x with st := .disabled, cause := 3 }).log cLGNAR noTag none [BitVec.ofNat 8 g, 1]).logRom g kind

theorem State.romFault_alone {s : State} {g : Nat} (hg : g < 8) (hother : s.ft.otherLost g = false) (kind : Nat) :
    s.romFault g kind = (s.romLost g kind).expose s.ft.romGc 2 := by
  have hlost : ¬(g = 8 ∨ s.ft.otherLost g = true) := by
    rintro (h | h)
    · omega
    · simp [hother] at h
  rw [State.romFault, if_neg hlost, if_neg hlost]
  rfl

theorem State.romInUse_of {s : State} {g : Nat} (hg : g < 8) (hst : (s.ft.group g).st ≠ .disabled) : s.romInUse g = true := by
  simp [State.romInUse, hg, hst]

theorem State.tableRomParity_alone {s : State} {g : Nat} (hs : started s) (hrun : s.pw.state = .run) (hunit : s.ft.unit ≠ .offline)
    (hg : g < 8) (hst : (s.ft.group g).st ≠ .disabled) (hother : s.ft.otherLost g = false) (hidle : s.working = none) :
    s.tableRomParity g = ((s.modFt fun f => { f with parity := satAdd f.parity 1 }).romLost g 0).expose s.ft.romGc 2 := by
  rw [State.tableRomParity, if_neg (by simp [State.running_of_started hs, hrun, hunit, State.romInUse_of hg hst])]
  dsimp only
  rw [show (s.modFt fun f => { f with parity := satAdd f.parity 1 }).working = none from hidle]
  exact State.romFault_alone (s := s.modFt fun f => { f with parity := satAdd f.parity 1 }) hg hother 0

theorem State.romScanPass_mismatch {s : State} {g : Nat} (hchecks : s.checksRun = true) (hunit : s.ft.unit ≠ .offline)
    (hg : g < 8) (hst : (s.ft.group g).st ≠ .disabled) (hother : s.ft.otherLost g = false) :
    s.romScanPass (some g) = ((s.modFt fun f => { f with scan := satAdd f.scan 1 }).romLost g 1).expose s.ft.romGc 2 := by
  rw [State.romScanPass, if_neg (by simp [hchecks]), if_neg (by simp [hunit, State.romInUse_of hg hst])]
  exact State.romFault_alone (s := s.modFt fun f => { f with scan := satAdd f.scan 1 }) hg hother 1

theorem State.romScanPass_clean {s : State} (hboot : s.boot = .ready) :
    s.romScanPass none = if s.pw.state = .run ∨ s.pw.state = .waking then
      { s with ft := { s.ft with romGc := s.gc, romPasses := satAdd s.ft.romPasses 1 } } else s := by
  have hchecks : s.checksRun = true ↔ s.pw.state = .run ∨ s.pw.state = .waking := by simp [State.checksRun, hboot]
  by_cases h : s.pw.state = .run ∨ s.pw.state = .waking
  · rw [if_pos h, State.romScanPass, if_neg (by simp [hchecks.mpr h])]
    rfl
  · rw [if_neg h, State.romScanPass, if_pos (by simpa [← hchecks] using h)]

/-- The unit after it has gone offline, before its receipts are struck. -/
def State.unitLost (s : State) (cause : Byte) : State :=
  (((s.log cUNITX noTag none [cause]).modFt fun f => { f with unit := .offline, cause := cause, recovery := none, tallyTags := [] }).modStream
    fun st => { st with acc := none, inflight := st.inflight.map fun c =>
      if c.refused || c.gone then c else { c.mute with fault := some cUNITX, detail := [cause], ready := false } })

theorem State.unitLoss_online {s : State} (h : s.ft.unit ≠ .offline) (cause : Byte) :
    s.unitLoss cause = (s.unitLost cause).invalidateAll 3 := by
  rw [State.unitLoss, if_neg h]
  rfl

theorem State.invalidateAll_frame (s : State) : s.invalidateAll 3 = { s with prov := (s.invalidateAll 3).prov } := rfl

theorem State.invalidateAll_exposures (s : State) :
    (s.invalidateAll 3).prov.rcpt.exposures = s.prov.rcpt.exposures ++ [(s.prov.rcpt.lastConfirm, s.gc, 3)] := Receipts.settled_exposures _

theorem State.invalidateAll_struck (s : State) (reason : Nat) :
    ∀ e ∈ (s.invalidateAll reason).prov.rcpt.entries, e.confirmed = true ∨ e.reason.isSome := by
  unfold State.invalidateAll
  split <;> exact Receipts.struck_all _ _ _

/-- The unit after a lockstep mismatch, before its receipts are struck. -/
def State.lockstepLost (s : State) (signals : W32) : State :=
  ((s.modFt fun f => { f with lockstep := satAdd f.lockstep 1 }).log cLOCKF noTag none (leBytes 4 signals.toNat)).unitLost 0

theorem State.lockstepMismatch_online {s : State} {signals : W32} (hs : started s) (hunit : s.ft.unit ≠ .offline) :
    s.lockstepMismatch signals = (s.lockstepLost signals).invalidateAll 3 := by
  rw [State.lockstepMismatch, if_neg (by simp [State.running_of_started hs, hunit])]
  exact State.unitLoss_online (by exact hunit) 0

theorem State.lockstepLost_ledger (s : State) (signals : W32) : (s.lockstepLost signals).ledger =
    ((s.log 0x0306 0xFFFF none (leBytes 4 signals.toNat)).log 0x0307 0xFFFF none [0]).ledger := rfl

theorem State.lockstepLost_stream (s : State) (signals : W32) : (s.lockstepLost signals).stream = { s.stream with
    acc := none
    inflight := s.stream.inflight.map fun c => if c.refused || c.gone then c else
      { c with fault := some 0x0307, detail := [0], ready := false, muted := true, gather := [], writes := [] } } := rfl

theorem State.lockstepLost_frame (s : State) (signals : W32) : s.lockstepLost signals = { s with
    ft := (s.lockstepLost signals).ft, stream := (s.lockstepLost signals).stream, ledger := (s.lockstepLost signals).ledger
    evRings := (s.lockstepLost signals).evRings } := by
  apply State.ext_fields <;> simp [State.lockstepLost, State.unitLost]

/-- What a table-ROM fault of a lone group leaves, for either way it is found. -/
theorem State.romLost_outcome {s u : State} {g : Nat} (kind : Nat) (f : Faults → Faults)
    (hgroups : (f s.ft).groups = s.ft.groups) (hgc : (f s.ft).romGc = s.ft.romGc)
    (h : u = ((s.modFt f).romLost g kind).expose s.ft.romGc 2) :
    u.cycleLog s = u ∧ u.ft = { f s.ft with groups := vecModify s.ft.groups g fun x => { x with st := .disabled, cause := 3 } }
      ∧ u.prov.rcpt.exposures = s.prov.rcpt.exposures ++ [(s.ft.romGc, s.gc, 2)]
      ∧ u.ledger = ((s.log 0x0302 0xFFFF none [BitVec.ofNat 8 g, 1]).log 0x0305 0xFFFF none
          ([BitVec.ofNat 8 g, BitVec.ofNat 8 kind, 0, 0, 0, 0, 0, 0] ++ leBytes 8 s.ft.romGc.toNat)).ledger
      ∧ u = { s with ft := u.ft, prov := u.prov, ledger := u.ledger, evRings := u.evRings } := by
  have hledger : u.ledger = ((s.log 0x0302 0xFFFF none [BitVec.ofNat 8 g, 1]).log 0x0305 0xFFFF none
      ([BitVec.ofNat 8 g, BitVec.ofNat 8 kind, 0, 0, 0, 0, 0, 0] ++ leBytes 8 s.ft.romGc.toNat)).ledger := by
    rw [h, ← hgc]
    rfl
  have hexpose := State.expose_exposures ((s.modFt f).romLost g kind) s.ft.romGc 2
  rw [State.expose_frame] at h
  generalize (((s.modFt f).romLost g kind).expose s.ft.romGc 2).prov = p at h hexpose
  refine ⟨State.cycleLog_two hledger (by decide), ?_, ?_, hledger, ?_⟩
  · rw [h, ← hgroups]
    rfl
  · rw [h]
    exact hexpose
  · rw [h]
    apply State.ext_fields <;> simp [State.romLost, State.logRom, State.modGroup]

/-- Settles O50. -/
theorem checksRomsAndLockstep : Obligations.ChecksRomsAndLockstep := by
  unfold Obligations.ChecksRomsAndLockstep
  refine ⟨fun s hboot htime hdue hfirst => ?_, fun s hboot => ?_, fun g s hboot hrun hunit hg hst hother hidle parity => ?_,
    fun signals s hs hunit => ?_⟩
  · obtain ⟨turn, sweep, heq⟩ := State.checkerRotationStep_due hboot htime hdue hfirst
    refine ⟨_, congrArg Host.Outcome.next heq, rfl, fun g hg l hl => ?_, fun g hg => ?_, ?_, rfl, rfl⟩
    · exact (congrArg (fun x : Group => vecGet x.lastCheck l 0) (vecGet_map _ _ g _ hg)).trans (Group.rotated_lastCheck _ hl _ _ _)
    · have hgroup := vecGet_map s.ft.groups (fun g => g.rotated (s.ft.step % 32) s.gc s.ft.ran turn) g .default hg
      have hrest := (s.ft.group g).rotated_rest (s.ft.step % 32) s.gc s.ft.ran turn
      rw [Faults.group, ← hgroup] at hrest
      exact hrest
    · cases sweep
      · exact Or.inl rfl
      · exact Or.inr ⟨rfl, rfl⟩
  · refine congrArg _ ((State.cycleLog_same _ _ ?_).trans (State.romScanPass_clean hboot))
    rw [State.romScanPass_clean hboot]
    split <;> rfl
  · have hworking : s.working = none := List.find?_eq_none.mpr fun c hc => by simp [hidle c hc]
    have hs : started s := ⟨hboot, by simp [hrun]⟩
    have hchecks : s.checksRun = true := by simp [State.checksRun, hboot, hrun]
    cases parity
    · obtain ⟨hcycle, hft, hexp, hledger, hframe⟩ := State.romLost_outcome 1 (fun f => { f with scan := satAdd f.scan 1 }) rfl rfl
        (State.romScanPass_mismatch hchecks hunit hg hst hother)
      refine ⟨s.romScanPass (some g), congrArg _ hcycle, ?_, fun k hk => ?_, by rw [hft]; rfl, by rw [hft]; rfl, hexp, hledger, hframe⟩
      · rw [hft]
        exact vecGet_vecModify_self _ _ _ hg
      · rw [hft]
        exact vecGet_vecModify_of_ne _ _ _ hk.symm
    · obtain ⟨hcycle, hft, hexp, hledger, hframe⟩ := State.romLost_outcome 0 (fun f => { f with parity := satAdd f.parity 1 }) rfl rfl
        (State.tableRomParity_alone hs hrun hunit hg hst hother hworking)
      refine ⟨s.tableRomParity g, congrArg _ hcycle, ?_, fun k hk => ?_, by rw [hft]; rfl, by rw [hft]; rfl, hexp, hledger, hframe⟩
      · rw [hft]
        exact vecGet_vecModify_self _ _ _ hg
      · rw [hft]
        exact vecGet_vecModify_of_ne _ _ _ hk.symm
  · have heq := State.lockstepMismatch_online (signals := signals) hs hunit
    have hexp := State.invalidateAll_exposures (s.lockstepLost signals)
    have hstruck := State.invalidateAll_struck (s.lockstepLost signals) 3
    rw [State.invalidateAll_frame] at heq
    have hft : (s.lockstepLost signals).ft =
        { s.ft with lockstep := satAdd s.ft.lockstep 1, unit := .offline, cause := 0, recovery := none, tallyTags := [] } := rfl
    have hledger := s.lockstepLost_ledger signals
    have hstream := s.lockstepLost_stream signals
    have hframe := s.lockstepLost_frame signals
    have htb : (s.lockstepLost signals).tb = s.tb := by simp [State.lockstepLost, State.unitLost]
    have hprov : (s.lockstepLost signals).prov = s.prov := by simp [State.lockstepLost, State.unitLost]
    generalize ((s.lockstepLost signals).invalidateAll 3).prov = p at heq hexp hstruck
    rw [hprov, State.gc, htb] at hexp
    generalize s.lockstepLost signals = u at heq hft hledger hstream hframe
    exact ⟨{ u with prov := p }, congrArg Host.Outcome.next heq, hft, hledger, hstream, hexp, hstruck,
      congrArg (fun t : State => { t with prov := p }) hframe⟩

/-! ### A replay of a `SETTLE` (R151, R399) -/

/-- A `SETTLE` in flight that has done nothing yet. -/
def settleInFlight : Inflight :=
  Inflight.new { words := [0x38000000], epoch := 0, tenant := 0, priv := false } .default { len := Vector.replicate 4 0, gt := 0, gh := 0, gw := 0 } 0 0 0

/-- A unit that runs with that `SETTLE` alone in flight, and whose first lane is under test on its account. -/
def settleSuspected : State :=
  let s := State.reset
  { s with
    boot := .ready, pw := { s.pw with state := .run }, stream := { s.stream with inflight := [settleInFlight] }
    ft := { s.ft with recovery := some (.first (some settleInFlight.tag) { group := 0, lane := 0, checker := false }) } }

theorem settleSuspected_replays :
    (settleSuspected.laneTestComplete true true).stream.inflight.map (fun c => c.replays) = [0] := by
  decide +kernel

/-- Refutes O49: a `SETTLE` that is replayed puts its rows back and counts no replay of its own. -/
theorem not_laneTestSettlesLane : ¬ Obligations.LaneTestSettlesLane := by
  unfold Obligations.LaneTestSettlesLane
  rintro ⟨-, h⟩
  obtain ⟨t, d, hexec, hstream, -, -, -, -, -, -, -, -, -, -, -, -, -, -, -, hreplays, -⟩ :=
    h 0 0 true settleInFlight settleSuspected ⟨rfl, by decide⟩ (by decide) (by decide) rfl rfl rfl rfl rfl (by decide) rfl rfl (by decide)
  have ht : (settleSuspected.laneTestComplete true true).cycleLog settleSuspected = t := by injection hexec
  have hinflight := settleSuspected_replays
  rw [← State.cycleLog_stream _ settleSuspected, ht, hstream] at hinflight
  simp [hreplays, settleInFlight, Inflight.new] at hinflight

end Sys2Proof.Machine
end

section
/-! Telemetry samples and the levels that they set (R383 to R385). -/
namespace Sys2Proof.Machine
open Sys2Proof Sys2Proof.Claims

/-! ### What the governor changes -/

/-- Between two states only the power, the tenants, the time of the next forced steal, the Ledger and the count of free values differ. -/
def Governs (s t : State) : Prop := ∃ pw tn gc ledger evRings free, t = { s with
  pw := pw, tn := tn, spad := { s.spad with nextSteal := gc }, ledger := ledger, evRings := evRings, free := free }

theorem Governs.refl (s : State) : Governs s s := ⟨s.pw, s.tn, s.spad.nextSteal, s.ledger, s.evRings, s.free, rfl⟩

theorem Governs.trans {s t u : State} (h : Governs s t) (h' : Governs t u) : Governs s u := by
  obtain ⟨_, _, _, _, _, _, rfl⟩ := h
  obtain ⟨pw, tn, gc, ledger, evRings, free, rfl⟩ := h'
  exact ⟨pw, tn, gc, ledger, evRings, free, rfl⟩

theorem Governs.eq {s t : State} (h : Governs s t) : t.spad = { s.spad with nextSteal := t.spad.nextSteal }
    ∧ t = { s with pw := t.pw, tn := t.tn, spad := t.spad, ledger := t.ledger, evRings := t.evRings, free := t.free } := by
  obtain ⟨_, _, _, _, _, _, rfl⟩ := h
  exact ⟨rfl, rfl⟩

theorem governs_modPw (s : State) (f : Power → Power) : Governs s (s.modPw f) :=
  ⟨f s.pw, s.tn, s.spad.nextSteal, s.ledger, s.evRings, s.free, rfl⟩

theorem governs_modTn (s : State) (f : Tenants → Tenants) : Governs s (s.modTn f) :=
  ⟨s.pw, f s.tn, s.spad.nextSteal, s.ledger, s.evRings, s.free, rfl⟩

theorem governs_log (s : State) (code tag : W16) (ctx : Option (BitVec 3)) (d : List Byte) : Governs s (s.log code tag ctx d) :=
  ⟨s.pw, s.tn, s.spad.nextSteal, (s.log code tag ctx d).ledger, (s.log code tag ctx d).evRings, s.free, rfl⟩

theorem governs_logLimited (s : State) (src : LimitSource) (code tag : W16) (ctx : Option (BitVec 3)) (d : W32 → List Byte) :
    Governs s (s.logLimited src code tag ctx d) := by
  have hledger (l : Ledger) : Governs s { s with ledger := l } := ⟨s.pw, s.tn, s.spad.nextSteal, l, s.evRings, s.free, rfl⟩
  rw [State.logLimited]
  split
  · exact (hledger _).trans (governs_log _ _ _ _ _)
  · exact hledger _

theorem governs_dropSteals (s : State) : Governs s s.dropSteals := by
  unfold State.dropSteals
  split
  · exact .refl s
  · exact ⟨s.pw, s.tn, _, s.ledger, s.evRings, s.free, rfl⟩

/-! ### The parts of a sample -/

/-- The power state after the sensors are read (R383). -/
def Power.sensed (p : Power) (t0 t1 : W16) : Power :=
  let n0 := if t0 = p.last.1 then p.same.1 + 1 else 0
  let n1 := if t1 = p.last.2 then p.same.2 + 1 else 0
  { p with
    sensor0 := milliCelsius t0.toInt, sensor1 := milliCelsius t1.toInt
    status := BitVec.ofNat 8 ((sensorValid t0.toInt n0).toNat + 2 * (sensorValid t1.toInt n1).toNat)
    last := (t0, t1), same := (n0, n1) }

theorem State.readSensors_spec (s : State) (t0 t1 : W16) :
    Governs s (s.readSensors t0 t1) ∧ (s.readSensors t0 t1).pw = s.pw.sensed t0 t1 ∧ (s.readSensors t0 t1).tn = s.tn
      ∧ (s.readSensors t0 t1).free = s.free ∧ (s.readSensors t0 t1).spad = s.spad := by
  simp only [State.readSensors]
  have hlog (b : Bool) (u : State) (d : List Byte) : Governs u (if b = true then u.log cTHRTL noTag none d else u)
      ∧ (if b = true then u.log cTHRTL noTag none d else u).pw = u.pw ∧ (if b = true then u.log cTHRTL noTag none d else u).tn = u.tn
      ∧ (if b = true then u.log cTHRTL noTag none d else u).free = u.free
      ∧ (if b = true then u.log cTHRTL noTag none d else u).spad = u.spad := by
    cases b
    · exact ⟨.refl u, rfl, rfl, rfl, rfl⟩
    · exact ⟨governs_log _ _ _ _ _, rfl, rfl, rfl, rfl⟩
  refine ⟨?_, ?_, ?_, ?_, ?_⟩
  · exact (((hlog _ s _).1).trans (hlog _ _ _).1).trans (governs_modPw _ _)
  · simp only [State.modPw_pw, (hlog _ _ _).2.1]
    rfl
  · simp only [State.modPw_tn, (hlog _ _ _).2.2.1]
  · simp only [State.modPw_free, (hlog _ _ _).2.2.2.1]
  · simp only [State.modPw_spad, (hlog _ _ _).2.2.2.2]

/-- The level L and its change (R385). -/
theorem State.setBase_spec (s : State) : Governs s s.setBase ∧ s.setBase.tn = s.tn ∧ s.setBase.free = s.free ∧ s.setBase.spad = s.spad
    ∧ s.setBase.tb = s.tb ∧ s.setBase.pw = { s.pw with base := min s.pw.thermal (min s.pw.lc s.pw.lp), changes := s.setBase.pw.changes } := by
  unfold State.setBase
  dsimp only
  split
  · next h => exact ⟨.refl s, rfl, rfl, rfl, rfl, by rw [h]⟩
  · exact ⟨(governs_modPw _ _).trans (governs_logLimited _ _ _ _ _ _), by simp, by simp, by simp, by simp, by simp⟩

/-- The thermal levels of Table 14.7, in percent. -/
def thermalLevels : List Nat := [0, 25, 50, 75, 100]

theorem levelStep_eq_four {l : Nat} (h : l ∈ thermalLevels) : levelStep l = 4 ↔ l = 0 := by
  simp only [thermalLevels, List.mem_cons, List.not_mem_nil, or_false] at h
  rcases h with rfl | rfl | rfl | rfl | rfl <;> decide

theorem State.enterHalt_spec (s : State) : Governs s s.enterHalt ∧ s.enterHalt.tn = s.tn ∧ s.enterHalt.free = s.free ∧ s.enterHalt.tb = s.tb
    ∧ s.enterHalt.pw = { s.pw with state := .halt, before := s.pw.state, halts := satAdd s.pw.halts 1, haltGc := s.gc } := by
  rw [State.enterHalt]
  refine ⟨(governs_modPw _ _).trans (governs_log _ _ _ _ _), ?_, ?_, ?_, ?_⟩
  · rw [State.log_tn, State.modPw_tn]
  · rw [State.log_free, State.modPw_free]
  · rw [State.log_tb, State.modPw_tb]
  · rw [State.log_pw, State.modPw_pw]

theorem State.leaveHalt_spec (s : State) : Governs s s.leaveHalt ∧ s.leaveHalt.tn = s.tn ∧ s.leaveHalt.free = s.free ∧ s.leaveHalt.tb = s.tb
    ∧ s.leaveHalt.pw = { s.pw with
        state := s.pw.before, timeHalted := satAdd s.pw.timeHalted (s.gc.toNat - s.pw.haltGc.toNat), grant := s.leaveHalt.pw.grant } := by
  have hdrop : s.dropSteals.pw = s.pw ∧ s.dropSteals.tn = s.tn ∧ s.dropSteals.free = s.free ∧ s.dropSteals.tb = s.tb := by
    unfold State.dropSteals
    split
    · exact ⟨rfl, rfl, rfl, rfl⟩
    · exact ⟨s.modSpad_pw _, s.modSpad_tn _, s.modSpad_free _, s.modSpad_tb _⟩
  obtain ⟨hpw, htn, hfree, htb⟩ := hdrop
  rw [State.leaveHalt]
  refine ⟨((governs_dropSteals s).trans (governs_modPw _ _)).trans (governs_log _ _ _ _ _), ?_, ?_, ?_, ?_⟩
  · rw [State.log_tn, State.modPw_tn, htn]
  · rw [State.log_free, State.modPw_free, hfree]
  · rw [State.log_tb, State.modPw_tb, htb]
  · rw [State.log_pw, State.modPw_pw, hpw, State.gc, State.gc, htb]

/-- A halt begins when the thermal level reaches its last step and ends when it leaves it (Table 14.7). -/
theorem State.setHalt_spec (s : State) {was : Nat} (hwas : was ∈ thermalLevels) (hnow : s.pw.thermal ∈ thermalLevels) :
    Governs s (s.setHalt was) ∧ (s.setHalt was).tn = s.tn ∧ (s.setHalt was).free = s.free ∧ (s.setHalt was).tb = s.tb
      ∧ (∃ state before halts gc time grant, (s.setHalt was).pw =
          { s.pw with state := state, before := before, halts := halts, haltGc := gc, timeHalted := time, grant := grant })
      ∧ (was ≠ 0 → s.pw.thermal = 0 → (s.setHalt was).pw =
          { s.pw with state := .halt, before := s.pw.state, halts := satAdd s.pw.halts 1, haltGc := s.gc })
      ∧ (was = 0 → s.pw.thermal ≠ 0 → (s.setHalt was).pw.state = s.pw.before
          ∧ (s.setHalt was).pw.timeHalted = satAdd s.pw.timeHalted (s.gc.toNat - s.pw.haltGc.toNat))
      ∧ ((was = 0 ↔ s.pw.thermal = 0) → s.setHalt was = s) := by
  have hhalt : s.setHalt was = if s.pw.thermal = 0 ∧ was ≠ 0 then s.enterHalt else if s.pw.thermal ≠ 0 ∧ was = 0 then s.leaveHalt else s := by
    simp only [State.setHalt, ne_eq, levelStep_eq_four hwas, levelStep_eq_four hnow]
  by_cases hw : was = 0 <;> by_cases hn : s.pw.thermal = 0
  · rw [hhalt, if_neg (by simp [hw]), if_neg (by simp [hn])]
    exact ⟨.refl s, rfl, rfl, rfl, ⟨_, _, _, _, _, _, rfl⟩, fun h => absurd hw h, fun _ h => absurd hn h, fun _ => rfl⟩
  · obtain ⟨hgov, htn, hfree, htb, hpw⟩ := s.leaveHalt_spec
    rw [hhalt, if_neg (by simp [hw]), if_pos ⟨hn, hw⟩]
    exact ⟨hgov, htn, hfree, htb, ⟨_, _, _, _, _, _, hpw⟩, fun h => absurd hw h, fun _ _ => by rw [hpw]; exact ⟨rfl, rfl⟩,
      fun h => absurd (h.mp hw) hn⟩
  · obtain ⟨hgov, htn, hfree, htb, hpw⟩ := s.enterHalt_spec
    rw [hhalt, if_pos ⟨hn, hw⟩]
    exact ⟨hgov, htn, hfree, htb, ⟨_, _, _, _, _, _, hpw⟩, fun _ _ => hpw, fun h => absurd h hw, fun h => absurd (h.mpr hn) hw⟩
  · rw [hhalt, if_neg (by simp [hn]), if_neg (by simp [hw])]
    exact ⟨.refl s, rfl, rfl, rfl, ⟨_, _, _, _, _, _, rfl⟩, fun _ h => absurd h hn, fun h => absurd h hw, fun _ => rfl⟩

/-- The issue level, ρ and the breach of the active context (R385). -/
theorem State.setIssue_spec (s : State) : let floor := vecGet s.tn.floor s.tn.active.toNat 0
    Governs s s.setIssue ∧ s.setIssue.free = s.free ∧ s.setIssue.spad = s.spad
      ∧ s.setIssue.pw = { s.pw with
          issue := if floor ≤ s.pw.base then min (vecGet s.tn.ceil s.tn.active.toNat 100) s.pw.base else s.pw.base
          breach := s.setIssue.pw.breach }
      ∧ (s.setIssue.pw.breach.isSome ↔ s.pw.base < floor)
      ∧ s.setIssue.tn.rho = if floor ≤ s.pw.base then 100 else 100 * s.pw.base / floor := by
  intro floor
  have hend (u : State) : Governs u u.endBreach ∧ u.endBreach.free = u.free ∧ u.endBreach.spad = u.spad
      ∧ u.endBreach.pw = { u.pw with breach := none } ∧ u.endBreach.tn.rho = u.tn.rho := by
    unfold State.endBreach
    split
    · next h => exact ⟨.refl u, rfl, rfl, by rw [← h], rfl⟩
    · exact ⟨((governs_modPw _ _).trans (governs_modTn _ _)).trans (governs_log _ _ _ _ _), by simp, by simp, by simp, by simp⟩
  unfold State.setIssue
  extract_lets c fl l ok level u
  have hu : Governs s u := (governs_modPw _ _).trans (governs_modTn _ _)
  by_cases hok : floor ≤ s.pw.base
  · have hok' : ok = true := decide_eq_true hok
    obtain ⟨hg, hfree, hspad, hpw, hrho⟩ := hend u
    rw [if_pos hok']
    refine ⟨hu.trans hg, hfree, hspad, ?_, ?_, ?_⟩
    · rw [hpw]
      simp only [u, level, hok', if_pos hok]
      rfl
    · rw [hpw]
      simpa using hok
    · rw [hrho]
      simp [u, hok', hok]
  · have hok' : ok = false := decide_eq_false hok
    rw [if_neg (by simp [hok'])]
    split
    · refine ⟨(hu.trans (governs_modPw _ _)).trans (governs_log _ _ _ _ _), by simp [State.startBreach, u], by simp [State.startBreach, u],
        ?_, ?_, ?_⟩
      · simp only [State.startBreach, State.log_pw, u, level, hok', if_neg hok]
        rfl
      · simpa [State.startBreach] using hok
      · simp [State.startBreach, u, hok', hok, l, fl, floor, c]
    · refine ⟨hu.trans (governs_modPw _ _), rfl, rfl, ?_, ?_, ?_⟩
      · simp only [State.modPw_pw, u, level, hok', if_neg hok]
        rfl
      · simpa using hok
      · simp [u, hok', hok, l, fl, floor, c]

/-! ### The thermal level (Table 14.7) -/

/-- The level of the highest threshold that a reading has reached. -/
def reachedLevel (x : Int) : Nat := if 1840 ≤ x then 0 else if 1760 ≤ x then 25 else if 1680 ≤ x then 50 else if 1600 ≤ x then 75 else 100

/-- The release point of a level. -/
def releasePoint (was : Nat) : Int := if was = 75 then 1552 else if was = 50 then 1632 else if was = 25 then 1712 else 1792

/-- The level after a sample with a valid reading. -/
def nextLevel (was : Nat) (x : Int) : Nat :=
  if reachedLevel x < was then reachedLevel x else if was < 100 ∧ x < releasePoint was then was + 25 else was

/-- The thresholds that a reading has reached are those of the steps down to its level. -/
theorem thermalUp_reached (x : Int) : stepLevel (thermalUp.filter fun u => decide (u ≤ x)).length = reachedLevel x
    ∧ (thermalUp.filter fun u => decide (u ≤ x)).length ≤ 4 := by
  unfold reachedLevel thermalUp
  by_cases h1 : 1840 ≤ x
  · simp [h1, show 1760 ≤ x by omega, show 1680 ≤ x by omega, show 1600 ≤ x by omega, stepLevel]
  by_cases h2 : 1760 ≤ x
  · simp [h1, h2, show 1680 ≤ x by omega, show 1600 ≤ x by omega, stepLevel]
  by_cases h3 : 1680 ≤ x
  · simp [h1, h2, h3, show 1600 ≤ x by omega, stepLevel]
  by_cases h4 : 1600 ≤ x <;> simp [h1, h2, h3, h4, stepLevel]

theorem thermalStep_level {was : Nat} (h : was ∈ thermalLevels) (x : Int) :
    stepLevel (thermalStep (levelStep was) x) = nextLevel was x := by
  obtain ⟨hreach, hle⟩ := thermalUp_reached x
  unfold thermalStep nextLevel
  dsimp only
  rw [← hreach]
  generalize (thermalUp.filter fun u => decide (u ≤ x)).length = r at hle
  simp only [thermalLevels, List.mem_cons, List.not_mem_nil, or_false] at h
  rcases h with rfl | rfl | rfl | rfl | rfl <;>
    simp only [levelStep, stepLevel, releasePoint, thermalRelease] <;> norm_num <;> split_ifs <;> omega

theorem stepLevel_mem {k : Nat} (h : k ≤ 4) : stepLevel k ∈ thermalLevels := by
  interval_cases k <;> decide

theorem thermalStep_le {now : Nat} (h : now ≤ 4) (x : Int) : thermalStep now x ≤ 4 := by
  obtain ⟨-, hle⟩ := thermalUp_reached x
  unfold thermalStep
  dsimp only
  split_ifs <;> omega

/-! ### A sample -/

/-- A reading is valid in range unless it has stood for 64 samples (R383). -/
theorem sensorValid_eq (t last : W16) (same : Nat) :
    sensorValid t.toInt (if t = last then same + 1 else 0) =
      decide (-640 ≤ t.toInt ∧ t.toInt ≤ 2400 ∧ (t.toInt ≠ last.toInt ∨ same < 63)) := by
  by_cases h : t = last
  · subst h
    have hsucc : same + 1 < 64 ↔ same < 63 := by omega
    simp [sensorValid, hsucc, Bool.and_assoc]
  · simp [sensorValid, h, BitVec.toInt_inj]

theorem statusBits (v0 v1 : Bool) : (BitVec.ofNat 8 (v0.toNat + 2 * v1.toNat)).getLsbD 0 = v0
    ∧ (BitVec.ofNat 8 (v0.toNat + 2 * v1.toNat)).getLsbD 1 = v1 := by
  cases v0 <;> cases v1 <;> decide

/-- The thermal level that two readings and their validity lead to. -/
def sampledLevel (was : Nat) (r0 r1 : Int) (v0 v1 : Bool) : Nat :=
  if v0 ∧ v1 then nextLevel was (max r0 r1) else if v0 then nextLevel was r0 else if v1 then nextLevel was r1 else min was 25

theorem State.setThermal_spec (s : State) {t0 t1 : W16} {v0 v1 : Bool} (hlast : s.pw.last = (t0, t1))
    (hstatus : s.pw.status = BitVec.ofNat 8 (v0.toNat + 2 * v1.toNat)) (hwas : s.pw.thermal ∈ thermalLevels) :
    s.setThermal = s.modPw (fun p => { p with thermal := sampledLevel s.pw.thermal t0.toInt t1.toInt v0 v1 })
      ∧ sampledLevel s.pw.thermal t0.toInt t1.toInt v0 v1 ∈ thermalLevels := by
  obtain ⟨hbit0, hbit1⟩ := statusBits v0 v1
  have hnow : levelStep s.pw.thermal ≤ 4 := by
    unfold levelStep
    omega
  have hnone : stepLevel (if levelStep s.pw.thermal = 4 then 4 else 3) = min s.pw.thermal 25 := by
    simp only [levelStep_eq_four hwas]
    simp only [thermalLevels, List.mem_cons, List.not_mem_nil, or_false] at hwas
    rcases hwas with h | h | h | h | h <;> simp [h, stepLevel]
  have hlevel : stepLevel (match s.hottest with
      | some t => thermalStep (levelStep s.pw.thermal) t
      | none => if levelStep s.pw.thermal = 4 then 4 else 3) = sampledLevel s.pw.thermal t0.toInt t1.toInt v0 v1 := by
    simp only [State.hottest, hstatus, hbit0, hbit1, hlast]
    clear hstatus hbit0 hbit1
    cases v0 <;> cases v1 <;> simp [sampledLevel, thermalStep_level hwas, hnone]
  refine ⟨?_, ?_⟩
  · rw [← hlevel]
    rfl
  · rw [← hlevel]
    refine stepLevel_mem ?_
    split
    · exact thermalStep_le hnow _
    · split <;> omega

theorem powerLevel_mem (energy : List W32) (draw cap : Nat) : powerLevel energy draw cap ∈ [25, 50, 75, 100] := by
  unfold powerLevel
  split
  · next l h =>
    have hmem := List.mem_of_find?_eq_some h
    simp only [List.mem_cons, List.not_mem_nil, or_false] at hmem ⊢
    omega
  · decide

/-- The next multiple of a period beyond a time. -/
theorem nextMultiple_spec {p n : Nat} (hp : 0 < p) : n < nextMultiple p (n + 1) ∧ nextMultiple p (n + 1) ≤ n + p ∧ nextMultiple p (n + 1) % p = 0 := by
  rw [nextMultiple, if_neg (by omega), show n + 1 + p - 1 = n + p by omega]
  have hdiv := Nat.div_add_mod (n + p) p
  have hmod := Nat.mod_lt (n + p) hp
  rw [Nat.mul_comm] at hdiv
  exact ⟨by omega, by omega, Nat.mul_mod_left _ _⟩

/-- The unit in a sample before its levels act: the settings written since the last one in force, the sensors read, the levels taken. -/
def State.sampled (s : State) (t0 t1 : W16) (level : BitVec 3) : State :=
  let u := (s.modPw fun p => { p with eff := p.set }).modPw fun p =>
    { p with nextSample := BitVec.ofNat 64 (nextMultiple p.eff.period.toNat (s.pw.nextSample.toNat + 1)) }
  let x := s.fixed.trims
  let u := (u.readSensors (trimmed x.sensor0 t0) (trimmed x.sensor1 t1)).setThermal
  let d := u.free
  let u := u.modPw fun p =>
    { p with lc := chipLevel level, lp := powerLevel x.energy d p.eff.cap.toNat, estimate := (Config.powerAt x.energy d p.issue).setWidth 16 }
  { u with free := u.free + 1 }

theorem State.telemetrySample_due {s : State} {t0 t1 : W16} {level : BitVec 3} (hboot : s.boot ≠ .otpLoad)
    (htime : s.tb.state ≠ .notAligned) (hdue : s.pw.nextSample.toNat ≤ s.gc.toNat) (hfirst : s.behind s.pw.nextSample.toNat 5 = false) :
    s.telemetrySample t0 t1 level = ((s.sampled t0 t1 level).setBase.setHalt s.pw.thermal).setIssue := by
  rw [State.telemetrySample, if_neg (by simp [hboot, htime, State.sampleDue, hdue, hfirst])]
  dsimp only
  rw [if_neg (by exact htime)]
  rfl

/-- What a sample has taken before its levels act. -/
theorem State.sampled_spec (s : State) (t0 t1 : W16) (level : BitVec 3) (hwas : s.pw.thermal ∈ thermalLevels) :
    let x := s.fixed.trims
    let a := trimmed x.sensor0 t0
    let b := trimmed x.sensor1 t1
    let n0 := if a = s.pw.last.1 then s.pw.same.1 + 1 else 0
    let n1 := if b = s.pw.last.2 then s.pw.same.2 + 1 else 0
    let u := s.sampled t0 t1 level
    Governs s u ∧ u.tn = s.tn ∧ u.free = s.free + 1 ∧ u.spad = s.spad ∧ u.pw.thermal ∈ thermalLevels
      ∧ ∃ lp estimate, lp ∈ [25, 50, 75, 100] ∧ u.pw = { s.pw.sensed a b with
          eff := s.pw.set, nextSample := BitVec.ofNat 64 (nextMultiple s.pw.set.period.toNat (s.pw.nextSample.toNat + 1))
          thermal := sampledLevel s.pw.thermal a.toInt b.toInt (sensorValid a.toInt n0) (sensorValid b.toInt n1)
          lc := chipLevel level, lp := lp, estimate := estimate } := by
  intro x a b n0 n1 u
  let w := (s.modPw fun p => { p with eff := p.set }).modPw fun p =>
    { p with nextSample := BitVec.ofNat 64 (nextMultiple p.eff.period.toNat (s.pw.nextSample.toNat + 1)) }
  have hw : Governs s w := (governs_modPw _ _).trans (governs_modPw _ _)
  obtain ⟨hread, hpw, htn, hfree, hspad⟩ := w.readSensors_spec a b
  have hthermal : (w.readSensors a b).pw.thermal = s.pw.thermal := by
    rw [hpw]
    rfl
  obtain ⟨hset, hmem⟩ := (w.readSensors a b).setThermal_spec (t0 := a) (t1 := b) (v0 := sensorValid a.toInt n0) (v1 := sensorValid b.toInt n1)
    (by rw [hpw]; rfl) (by rw [hpw]; rfl) (by rw [hthermal]; exact hwas)
  rw [hthermal] at hset hmem
  have hu : u = { ((w.readSensors a b).setThermal).modPw fun p => { p with
      lc := chipLevel level, lp := powerLevel x.energy (w.readSensors a b).setThermal.free p.eff.cap.toNat
      estimate := (Config.powerAt x.energy (w.readSensors a b).setThermal.free p.issue).setWidth 16 } with
    free := (w.readSensors a b).setThermal.free + 1 } := rfl
  have hfree' (v : State) (n : Nat) : Governs v { v with free := n } := ⟨v.pw, v.tn, v.spad.nextSteal, v.ledger, v.evRings, n, rfl⟩
  rw [hset] at hu
  refine ⟨?_, ?_, ?_, ?_, ?_, powerLevel x.energy s.free s.pw.set.cap.toNat, (Config.powerAt x.energy s.free s.pw.issue).setWidth 16, powerLevel_mem _ _ _, ?_⟩
  · rw [hu]
    exact (((hw.trans hread).trans (governs_modPw _ _)).trans (governs_modPw _ _)).trans (hfree' _ _)
  · rw [hu]
    simp only [State.modPw_tn, htn]
    rfl
  · rw [hu]
    simp only [State.modPw_free, hfree]
    rfl
  · rw [hu]
    simp only [State.modPw_spad, hspad]
    rfl
  · rw [hu]
    exact hmem
  · rw [hu]
    simp only [State.modPw_pw, State.modPw_free, hpw, hfree]
    rfl

theorem governs_cycleLog (s z : State) : Governs s (s.cycleLog z) :=
  ⟨s.pw, s.tn, s.spad.nextSteal, (s.cycleLog z).ledger, s.evRings, s.free, rfl⟩

theorem Governs.tb {s t : State} (h : Governs s t) : t.tb = s.tb := by
  obtain ⟨_, _, _, _, _, _, rfl⟩ := h
  rfl

/-- The levels, the halt and the breach of a sample in turn. -/
theorem State.levels_spec (u : State) {was : Nat} (hwas : was ∈ thermalLevels) (hthermal : u.pw.thermal ∈ thermalLevels) :
    let t := (u.setBase.setHalt was).setIssue
    let floor := vecGet u.tn.floor u.tn.active.toNat 0
    let base := min u.pw.thermal (min u.pw.lc u.pw.lp)
    Governs u t ∧ t.free = u.free
      ∧ (∃ state before halts gc time grant issue breach changes, t.pw = { u.pw with
          state := state, before := before, halts := halts, haltGc := gc, timeHalted := time, grant := grant, issue := issue
          breach := breach, base := base, changes := changes })
      ∧ (was ≠ 0 → u.pw.thermal = 0 → t.pw.state = .halt ∧ t.pw.before = u.pw.state ∧ t.pw.halts = satAdd u.pw.halts 1 ∧ t.pw.haltGc = u.gc)
      ∧ (was = 0 → u.pw.thermal ≠ 0 → t.pw.state = u.pw.before
          ∧ t.pw.timeHalted = satAdd u.pw.timeHalted (u.gc.toNat - u.pw.haltGc.toNat))
      ∧ ((was = 0 ↔ u.pw.thermal = 0) → t.pw.state = u.pw.state ∧ t.spad = u.spad)
      ∧ t.pw.issue = (if floor ≤ base then min (vecGet u.tn.ceil u.tn.active.toNat 100) base else base)
      ∧ t.tn.rho = (if floor ≤ base then 100 else 100 * base / floor) ∧ (t.pw.breach.isSome ↔ base < floor) := by
  intro t floor base
  obtain ⟨hgov1, htn1, hfree1, hspad1, htb1, hpw1⟩ := u.setBase_spec
  have hthermal1 : u.setBase.pw.thermal = u.pw.thermal := by rw [hpw1]
  obtain ⟨hgov2, htn2, hfree2, -, ⟨state, before, halts, gc, time, grant, hpw2⟩, henter, hleave, hsame⟩ :=
    u.setBase.setHalt_spec hwas (hthermal1 ▸ hthermal)
  obtain ⟨hgov3, hfree3, hspad3, hpw3, hbreach, hrho⟩ := (u.setBase.setHalt was).setIssue_spec
  have hbase : (u.setBase.setHalt was).pw.base = base := by
    rw [hpw2, hpw1]
  rw [htn2, htn1, hbase] at hpw3 hbreach hrho
  rw [hthermal1] at henter hleave hsame
  refine ⟨(hgov1.trans hgov2).trans hgov3, by rw [hfree3, hfree2, hfree1], ?_, fun hw hn => ?_, fun hw hn => ?_, fun h => ?_, ?_, hrho, hbreach⟩
  · refine ⟨state, before, halts, gc, time, grant, t.pw.issue, t.pw.breach, u.setBase.pw.changes, ?_⟩
    have hissue := congrArg Power.issue hpw3
    dsimp only at hissue
    rw [← hissue] at hpw3
    rw [hpw2, hpw1] at hpw3
    exact hpw3
  · rw [hpw3, henter hw hn, hpw1]
    exact ⟨rfl, rfl, rfl, by rw [State.gc, htb1]; rfl⟩
  · obtain ⟨hstate, htime⟩ := hleave hw hn
    have hgc : u.setBase.gc = u.gc := by rw [State.gc, htb1, State.gc]
    rw [hpw3]
    dsimp only
    rw [hstate, htime, hgc, hpw1]
    exact ⟨rfl, rfl⟩
  · rw [hpw3, hspad3, hsame h, hspad1, hpw1]
    exact ⟨rfl, rfl⟩
  · rw [hpw3]

/-- Settles O46: each part of the sample changes its own fields of the power state. -/
theorem telemetrySetsIssueLevel : Obligations.TelemetrySetsIssueLevel := by
  unfold Obligations.TelemetrySetsIssueLevel
  intro t0 t1 level s hboot htime hdue hfit hperiod hfirst hwas floor ceil r0 r1 valid v0 v1 was reached release next
  have hdue' := State.telemetrySample_due (t0 := t0) (t1 := t1) (level := level) hboot htime hdue hfirst
  obtain ⟨hgov, htn, hfree, hspad, hthermal, lp, estimate, hlp, hpw⟩ := s.sampled_spec t0 t1 level hwas
  generalize s.sampled t0 t1 level = u at hdue' hgov htn hfree hspad hthermal hpw
  obtain ⟨hgov2, hfree2, ⟨_, _, _, _, _, _, _, _, _, hpw2⟩, henter, hleave, hsame, hissue, hrho, hbreach⟩ := u.levels_spec hwas hthermal
  rw [← hdue'] at hgov2 hfree2 hpw2 henter hleave hsame hissue hrho hbreach
  have hgov3 := (hgov.trans hgov2).trans (governs_cycleLog _ s)
  have hgc : u.gc = s.gc := by rw [State.gc, hgov.tb, State.gc]
  obtain ⟨hspadFrame, hframe⟩ := hgov3.eq
  obtain ⟨hlate, hsoon, hmultiple⟩ := nextMultiple_spec (n := s.pw.nextSample.toNat) hperiod
  have hnextNat : (BitVec.ofNat 64 (nextMultiple s.pw.set.period.toNat (s.pw.nextSample.toNat + 1))).toNat
      = nextMultiple s.pw.set.period.toNat (s.pw.nextSample.toNat + 1) := Nat.mod_eq_of_lt (by omega)
  have hv0 : sensorValid r0 (if trimmed s.fixed.trims.sensor0 t0 = s.pw.last.1 then s.pw.same.1 + 1 else 0) = v0 := sensorValid_eq _ _ _
  have hv1 : sensorValid r1 (if trimmed s.fixed.trims.sensor1 t1 = s.pw.last.2 then s.pw.same.2 + 1 else 0) = v1 := sensorValid_eq _ _ _
  have hthermal2 : u.pw.thermal = sampledLevel s.pw.thermal r0 r1 v0 v1 := by
    rw [hpw, ← hv0, ← hv1]
  have hlc : u.pw.lc = chipLevel level := by rw [hpw]
  have hlp2 : u.pw.lp = lp := by rw [hpw]
  refine ⟨(s.telemetrySample t0 t1 level).cycleLog s, rfl, ?_⟩
  rw [State.cycleLog_pw, State.cycleLog_tn, State.cycleLog_free, State.cycleLog_spad]
  rw [State.cycleLog_pw, State.cycleLog_tn, State.cycleLog_free, State.cycleLog_spad] at hframe
  rw [State.cycleLog_spad] at hspadFrame
  generalize s.telemetrySample t0 t1 level = w at *
  have hnext : w.pw.nextSample.toNat = nextMultiple s.pw.set.period.toNat (s.pw.nextSample.toNat + 1) := by
    rw [hpw2, hpw]
    exact hnextNat
  have hbase : w.pw.base = min u.pw.thermal (min u.pw.lc u.pw.lp) := by rw [hpw2]
  have hthermal3 : w.pw.thermal = u.pw.thermal := by rw [hpw2]
  have hlc3 : w.pw.lc = u.pw.lc := by rw [hpw2]
  have hlp3 : w.pw.lp = u.pw.lp := by rw [hpw2]
  rw [htn, ← hbase] at hissue hrho hbreach
  have hentered (hw : was ≠ 0) (hn : w.pw.thermal = 0) :
      w.pw.state = .halt ∧ w.pw.before = s.pw.state ∧ w.pw.halts = satAdd s.pw.halts 1 ∧ w.pw.haltGc = s.gc := by
    have h := henter hw (hthermal3 ▸ hn)
    rw [hgc, hpw] at h
    exact h
  have hleft (hw : was = 0) (hn : w.pw.thermal ≠ 0) :
      w.pw.state = s.pw.before ∧ w.pw.timeHalted = satAdd s.pw.timeHalted (s.gc.toNat - s.pw.haltGc.toNat) := by
    have h := hleave hw (hthermal3 ▸ hn)
    rw [hgc, hpw] at h
    exact h
  have hkept (h : was = 0 ↔ w.pw.thermal = 0) : w.pw.state = s.pw.state ∧ w.spad = s.spad := by
    have h := hsame (hthermal3 ▸ h)
    rw [hspad, hpw] at h
    exact h
  refine ⟨by rw [hpw2, hpw], ?_, ?_, ?_, fun h => ?_, fun h => ?_, ?_, ?_, ?_, ?_, hentered, hleft, hkept, ?_, ?_, ?_, hissue, hrho, hbreach,
    by rw [hfree2, hfree], hspadFrame, hframe⟩
  · rw [hnext]
    exact hlate
  · rw [hnext]
    exact hsoon
  · rw [hnext]
    exact hmultiple
  · exact congrArg BitVec.toInt (if_pos h)
  · exact congrArg BitVec.toInt (if_pos h)
  · rw [hpw2, hpw]
    rfl
  · rw [hpw2, hpw]
    rfl
  · rw [← hv0, ← hv1, hpw2, hpw]
    rfl
  · rw [hthermal3, hthermal2]
    rfl
  · rw [hlc3, hlc]
    rfl
  · rw [hlp3, hlp2]
    exact hlp
  · rw [hbase, hthermal3, hlc3, hlp3]

end Sys2Proof.Machine
end

section
/-! What the operations of the lanes and the scratchpad leave alone. -/
namespace Sys2Proof.Machine
open Sys2Proof Sys2Proof.Claims

/-- The parts of the unit that no beat, access, fault or retirement of the lanes touches. -/
structure Outer where
  fixed   : Fixed
  boot    : Boot
  tb      : TimeBase
  ep      : Epochs
  regs    : Regs
  rcpt    : Receipts
  keys    : Keys
  evOut   : List (Nat × W64 × List Byte)
  mg      : Mgmt
  tn      : Tenants
  links   : Link × Link
  setBuf  : List BufFlit
  free    : Nat
  pending : List Instr

def State.outer (s : State) : Outer :=
  { fixed := s.fixed, boot := s.boot, tb := s.tb, ep := s.ep, regs := s.regs, rcpt := s.prov.rcpt, keys := s.prov.keys, evOut := s.evOut
    mg := s.mg, tn := s.tn, links := s.links, setBuf := s.setBuf, free := s.free, pending := s.pending }

section
variable (s : State)

@[simp] theorem State.modSpad_outer (f : Spad → Spad) : (s.modSpad f).outer = s.outer := by rw [State.modSpad]; rfl

@[simp] theorem State.modHealth_outer (f : SpadHealth → SpadHealth) : (s.modHealth f).outer = s.outer := by rw [State.modHealth]; rfl

@[simp] theorem State.modStream_outer (f : Stream → Stream) : (s.modStream f).outer = s.outer := by rw [State.modStream]; rfl

@[simp] theorem State.modSt_outer (f : Stores → Stores) : (s.modSt f).outer = s.outer := by rw [State.modSt]; rfl

@[simp] theorem State.modEscrow_outer (f : Escrow → Escrow) : (s.modEscrow f).outer = s.outer := by rw [State.modEscrow]; rfl

@[simp] theorem State.modOut_outer (f : Outputs → Outputs) : (s.modOut f).outer = s.outer := by rw [State.modOut]; rfl

@[simp] theorem State.modFt_outer (f : Faults → Faults) : (s.modFt f).outer = s.outer := by rw [State.modFt]; rfl

@[simp] theorem State.modPw_outer (f : Power → Power) : (s.modPw f).outer = s.outer := by rw [State.modPw]; rfl

@[simp] theorem State.bump_outer (i k : Nat) : (s.bump i k).outer = s.outer := by rw [State.bump]; rfl

@[simp] theorem State.modInflight_outer (t : W16) (f : Inflight → Inflight) : (s.modInflight t f).outer = s.outer := s.modStream_outer _
@[simp] theorem State.log_outer (code tag : W16) (ctx : Option (BitVec 3)) (d : List Byte) : (s.log code tag ctx d).outer = s.outer := by
  rw [State.log]; rfl

@[simp] theorem State.cycleLog_outer (t : State) : (s.cycleLog t).outer = s.outer := by rw [State.cycleLog]; rfl

@[simp] theorem State.note_outer (f : Summary → Summary) : (s.note f).outer = s.outer := by rw [State.note]; rfl
@[simp] theorem State.noteEpoch_outer (e : W16) (f : Summary → Summary) : (s.noteEpoch e f).outer = s.outer := by
  rw [State.noteEpoch]; split <;> rfl

@[simp] theorem State.logLimited_outer (src : LimitSource) (code tag : W16) (ctx : Option (BitVec 3)) (d : W32 → List Byte) :
    (s.logLimited src code tag ctx d).outer = s.outer := by
  rw [State.logLimited]
  split
  · rw [State.log_outer]; rfl
  · rfl

theorem foldl_outer {α : Type} {f : State → α → State} (h : ∀ s x, (f s x).outer = s.outer) (xs : List α) : (xs.foldl f s).outer = s.outer := by
  induction xs generalizing s with
  | nil => rfl
  | cons x xs ih => rw [List.foldl_cons, ih, h]

@[simp] theorem State.lastError_outer (w : Nat) (syn : Byte) : (State.lastError s w syn).outer = s.outer := by
  simp [State.lastError]

@[simp] theorem State.uncorrectable_outer (w : Nat) (syn : Byte) (poisonNow : Bool) : (State.uncorrectable s w syn poisonNow).outer = s.outer := by
  simp [State.uncorrectable, apply_ite State.outer]

@[simp] theorem State.corrected_outer (tag : W16) (ctx : Option (BitVec 3)) (w : Nat) (syn : Byte) :
    (State.corrected s tag ctx w syn).outer = s.outer := by
  simp [State.corrected]

@[simp] theorem State.logEccue_outer (tag : W16) (ctx : Option (BitVec 3)) (detail : List Byte) :
    (State.logEccue s tag ctx detail).outer = s.outer := by
  simp [State.logEccue]

@[simp] theorem State.prepareWord_outer (port : Nat) (tag : W16) (ctx : Option (BitVec 3)) (ws : List (Nat × Byte × Byte)) (w : Nat) :
    (State.prepareWord s port tag ctx ws w).outer = s.outer := by
  unfold State.prepareWord
  dsimp only
  repeat' split
  all_goals simp

@[simp] theorem State.prepareWords_outer (port : Nat) (tag : W16) (ctx : Option (BitVec 3)) (ws : List (Nat × Byte × Byte)) (words : List Nat) :
    (State.prepareWords s port tag ctx ws words).outer = s.outer := by
  induction words generalizing s with
  | nil => rfl
  | cons x xs ih => simp [State.prepareWords, ih, apply_ite State.outer]

@[simp] theorem State.writeBytes_outer (port : Nat) (tag : W16) (ctx : Option (BitVec 3)) (ws : List (Nat × Byte × Byte)) :
    (State.writeBytes s port tag ctx ws).outer = s.outer := by
  simp [State.writeBytes, apply_ite State.outer]

@[simp] theorem State.queueWb_outer (w : Nat) (syn : Byte) : (State.queueWb s w syn).outer = s.outer := by
  simp [State.queueWb]

@[simp] theorem State.scrubWord_outer (w : Nat) : (State.scrubWord s w).outer = s.outer := by
  unfold State.scrubWord
  dsimp only
  split <;> simp

@[simp] theorem State.scrubWords_outer (words : List Nat) : (State.scrubWords s words).outer = s.outer := by
  induction words generalizing s with
  | nil => rfl
  | cons x xs ih => simp [State.scrubWords, ih]

@[simp] theorem State.clearScratchpad_outer (failed : List Nat) : (State.clearScratchpad s failed).outer = s.outer := by
  simp [State.clearScratchpad]

@[simp] theorem State.checkWord_outer (tag : W16) (ctx : Option (BitVec 3)) (w : Nat) : (State.checkWord s tag ctx w).1.outer = s.outer := by
  unfold State.checkWord
  dsimp only
  split <;> simp

@[simp] theorem State.checkWords_outer (tag : W16) (ctx : Option (BitVec 3)) (words : List Nat) :
    (State.checkWords s tag ctx words).1.outer = s.outer := by
  induction words generalizing s with
  | nil => rfl
  | cons x xs ih =>
    unfold State.checkWords
    dsimp only
    repeat' split
    all_goals simp [ih]

@[simp] theorem State.advanceScrub_outer (bank : Nat) : (State.advanceScrub s bank).outer = s.outer := by
  simp [State.advanceScrub, apply_ite State.outer]

@[simp] theorem State.advanceScrubs_outer (banks : List Nat) : (State.advanceScrubs s banks).outer = s.outer := by
  induction banks generalizing s with
  | nil => rfl
  | cons x xs ih => simp [State.advanceScrubs, ih]

@[simp] theorem State.scrubBanks_outer (banks : List Nat) : (State.scrubBanks s banks).outer = s.outer := by
  simp [State.scrubBanks]

@[simp] theorem State.settleCode_outer (n key : Nat) (x : Syndrome) : (State.settleCode s n key x).outer = s.outer := by
  simp [State.settleCode]

@[simp] theorem State.codeEvent_outer (n : Nat) (addr : Nat) (tag : W16) (ctx : Option (BitVec 3)) (syn : Byte) (x : Syndrome) :
    (State.codeEvent s n addr tag ctx syn x).outer = s.outer := by
  simp [State.codeEvent, apply_ite State.outer]

@[simp] theorem State.readCodes_outer (n : Nat) (tag : W16) (ctx : Option (BitVec 3)) (places : List Nat) (codes : List (Nat × Byte)) :
    (State.readCodes s n tag ctx places codes).outer = s.outer := by
  induction codes generalizing s with
  | nil => rfl
  | cons x xs ih => simp [State.readCodes, ih, apply_ite State.outer]

@[simp] theorem State.readStructure_outer (n : Nat) (tag : W16) (ctx : Option (BitVec 3)) (places : List Nat) :
    (State.readStructure s n tag ctx places).outer = s.outer := by
  simp [State.readStructure, apply_ite State.outer]

@[simp] theorem State.dropSteals_outer : (State.dropSteals s).outer = s.outer := by
  simp [State.dropSteals, apply_ite State.outer]

@[simp] theorem State.noteLongest_outer : (State.noteLongest s).outer = s.outer := by
  simp [State.noteLongest]

@[simp] theorem State.modRoll_outer (i : Nat) (f : Roll → Roll) : (s.modRoll i f).outer = s.outer := by
  rw [State.modRoll]
  rfl

@[simp] theorem State.settleTail_outer (i : Nat) : (State.settleTail s i).outer = s.outer := by
  simp [State.settleTail]

@[simp] theorem State.dropClaims_outer (tag : W16) : (s.dropClaims tag).outer = s.outer := by
  rw [State.dropClaims]
  refine (foldl_outer _ (fun s c => ?_) _).trans (s.modStream_outer _)
  split <;> simp

@[simp] theorem State.claim_outer (tag : W16) (roll : Nat) (produce : Bool) (n : Nat) : (State.claim s tag roll produce n).outer = s.outer := by
  simp [State.claim]

@[simp] theorem State.modClaim_outer (c : Claim) (f : Claim → Claim) : (State.modClaim s c f).outer = s.outer := by
  simp [State.modClaim]

theorem State.dropSlot_outer {s t : State} {i : Nat} (h : s.dropSlot i = some t) : t.outer = s.outer := by
  unfold State.dropSlot at h
  dsimp only at h
  split at h
  · simp at h
  · obtain rfl := Option.some.inj h
    simp

@[simp] theorem State.publish_outer (i : Nat) : (State.publish s i).outer = s.outer := by
  simp [State.publish, apply_ite State.outer]

@[simp] theorem State.moveSlot_outer (i : Nat) (seq : W32) (p : Nat) : (State.moveSlot s i seq p).outer = s.outer := by
  simp [State.moveSlot]

theorem State.acquire_outer {s t : State} {c : Claim} (h : s.acquire c = some t) : t.outer = s.outer := by
  have htake (u : State) : (u.modClaim c fun c => { c with acquired := c.acquired + 1, since := none }).outer = u.outer := State.modClaim_outer _ _ _
  unfold State.acquire at h
  dsimp only at h
  split at h
  · exact absurd h (by simp)
  split at h
  · split at h
    · exact Option.some.inj h ▸ htake s
    · exact absurd h (by simp)
  split at h
  · split at h
    · exact Option.some.inj h ▸ htake s
    · exact absurd h (by simp)
  split at h
  · exact Option.some.inj h ▸ (htake _).trans (State.moveSlot_outer _ _ _ _)
  · obtain ⟨u, hu, hmap⟩ := Option.bind_eq_some_iff.mp h
    obtain ⟨p, -, rfl⟩ := Option.map_eq_some_iff.mp hmap
    exact ((htake _).trans (State.moveSlot_outer _ _ _ _)).trans (State.dropSlot_outer hu)

@[simp] theorem State.complete_outer (c : Claim) (k : Nat) : (State.complete s c k).outer = s.outer := by
  simp [State.complete, apply_ite State.outer]

@[simp] theorem State.setRoll_outer (i : Nat) (r : Roll) : (State.setRoll s i r).outer = s.outer := by
  simp [State.setRoll]

@[simp] theorem State.acquireUpTo_outer (c : Claim) (n : Nat) (f : Nat) : (State.acquireUpTo s c n f).1.outer = s.outer := by
  induction f generalizing s c with
  | zero => rfl
  | succ f ih =>
    rw [State.acquireUpTo]
    split
    · rfl
    · split
      · next t h => rw [ih, State.acquire_outer h]
      · split <;> simp

@[simp] theorem State.setLines_outer (line : Nat) (bs : List Byte) : (State.setLines s line bs).outer = s.outer := by
  simp [State.setLines]

@[simp] theorem State.storeRow_outer (line : Nat) (r : RowSt) : (State.storeRow s line r).outer = s.outer := by
  simp [State.storeRow]

@[simp] theorem State.acquireAll_outer (claims : List (Claim × Nat)) : (State.acquireAll s claims).1.outer = s.outer := by
  induction claims generalizing s with
  | nil => rfl
  | cons x xs ih =>
    rw [State.acquireAll]
    split <;> simp [ih]

@[simp] theorem State.doWrites_outer (tag : W16) (ws : List Wr) : (State.doWrites s tag ws).outer = s.outer := by
  simp [State.doWrites]

@[simp] theorem State.dropAcc_outer (tag : W16) : (State.dropAcc s tag).outer = s.outer := by
  simp [State.dropAcc, apply_ite State.outer]

@[simp] theorem State.failAfter_outer (c : Inflight) (code : W16) (detail : List Byte) : (State.failAfter s c code detail).outer = s.outer := by
  simp [State.failAfter]

@[simp] theorem State.readOrFail_outer (c : Inflight) (ws : List Nat) : (State.readOrFail s c ws).1.outer = s.outer := by
  unfold State.readOrFail
  dsimp only
  split <;> simp

@[simp] theorem State.readStores_outer (c : Inflight) (m : Cmd) (es : List Nat) (ls : List Nat) :
    (State.readStores s c m es ls).1.outer = s.outer := by
  simp [State.readStores]

@[simp] theorem State.readInputs_outer (c : Inflight) (m : Cmd) (ws : List Nat) (es : List Nat) (ls : List Nat) :
    (State.readInputs s c m ws es ls).1.outer = s.outer := by
  unfold State.readInputs
  dsimp only
  repeat' split
  all_goals simp

@[simp] theorem State.emptyRow_outer (c : Inflight) (m : Cmd) (r : Nat) : (State.emptyRow s c m r).outer = s.outer := by
  simp [State.emptyRow, apply_ite State.outer]

@[simp] theorem State.failBank_outer (c : Inflight) (k : Conflict) : (State.failBank s c k).outer = s.outer := by
  simp [State.failBank]

@[simp] theorem State.readBeat_outer (c : Inflight) (m : Cmd) (g : Geo) (b : Nat) : (State.readBeat s c m g b).outer = s.outer := by
  unfold State.readBeat
  dsimp only
  repeat' split
  all_goals simp

@[simp] theorem State.beatReadStart.go_outer (c : Inflight) (m : Cmd) (g : Geo) (b : Nat) : (State.beatReadStart.go s c m g b).outer = s.outer := by
  simp [State.beatReadStart.go, apply_ite State.outer]

@[simp] theorem State.beatReadStart_outer : (State.beatReadStart s).outer = s.outer := by
  unfold State.beatReadStart
  dsimp only
  repeat' split
  all_goals simp

@[simp] theorem State.rollProgress_outer (tag : W16) : (s.rollProgress tag).outer = s.outer := by
  unfold State.rollProgress
  split
  · rfl
  · exact foldl_outer _ (fun s x => by simp) _

@[simp] theorem State.commitBeat_outer (tag : W16) (ws : List Wr) : (State.commitBeat s tag ws).outer = s.outer := by
  unfold State.commitBeat
  split <;> simp [apply_ite State.outer]

@[simp] theorem State.finishRow_outer (c : Inflight) (m : Cmd) : (State.finishRow s c m).outer = s.outer := by
  simp [State.finishRow]

@[simp] theorem State.rowResult_outer : (State.rowResult s).outer = s.outer := by
  unfold State.rowResult
  dsimp only
  repeat' split
  all_goals simp

@[simp] theorem State.countBeat_outer (m : Cmd) (c : Inflight) (b : Beat) (hard : Nat) (back : Bool) :
    (State.countBeat s m c b hard back).outer = s.outer := by
  simp [State.countBeat]

@[simp] theorem State.writeConflict_outer (c : Inflight) (b : Nat) : (State.writeConflict s c b).outer = s.outer := by
  unfold State.writeConflict
  split <;> simp [apply_ite State.outer]

theorem BeatAcc.segment_outer (a : BeatAcc) (x : Flow) (b : Beat) (sg : Seg) : (a.segment x b sg).st.outer = a.st.outer := by
  unfold BeatAcc.segment
  extract_lets m es first i r o stage c0 c a1 t a3
  have hruns : t.1.st.outer = a.st.outer := by
    have hst : t.1.st = (a.st.bump 14 o.precise).bump 16 o.added := BeatAcc.runs_st _ _ _ _ _
    simp [hst]
  have hstored : a3.st.outer = a.st.outer := by
    simp only [a3]
    split
    · exact (State.storeRow_outer _ _ _).trans hruns
    · exact hruns
  split
  · rw [BeatAcc.packRow_st]
    exact hstored
  · exact hstored

theorem BeatAcc.segments_outer (a : BeatAcc) (x : Flow) (b : Beat) (sgs : List Seg) : (a.segments x b sgs).st.outer = a.st.outer := by
  induction sgs generalizing a with
  | nil => rfl
  | cons sg sgs ih => exact (ih _).trans (a.segment_outer x b sg)

theorem BeatAcc.mergeBeat_outer (a : BeatAcc) (m : Cmd) (row : Nat) : (a.mergeBeat m row).st.outer = a.st.outer := by
  unfold BeatAcc.mergeBeat
  dsimp only
  split
  · rfl
  · exact State.bump_outer _ _ _

@[simp] theorem State.writeBeat_outer (c : Inflight) : (s.writeBeat c).outer = s.outer := by
  unfold State.writeBeat
  split
  · rfl
  · next b rest _ =>
    extract_lets m u c x a0 a v w
    have ha : a.st.outer = s.outer := by
      simp only [a]
      split
      · exact (a0.mergeBeat_outer m b.idx).trans (State.writeConflict_outer _ _ _)
      · exact (a0.segments_outer x b _).trans (State.writeConflict_outer _ _ _)
    have hv : v.outer = s.outer := by
      simp only [v]
      split
      · exact ha
      · exact (State.modOut_outer _ _).trans ha
    split <;> simp [w, hv]

@[simp] theorem State.beatWriteComplete_outer : (State.beatWriteComplete s).outer = s.outer := by
  unfold State.beatWriteComplete
  split <;> simp [apply_ite State.outer]

@[simp] theorem State.hardCaseResolution_outer : (State.hardCaseResolution s).outer = s.outer := by
  unfold State.hardCaseResolution
  dsimp only
  repeat' split
  all_goals simp

@[simp] theorem State.setDigest_outer (epoch : W16) (d : Digest) : (s.setDigest epoch d).outer = s.outer := by
  unfold State.setDigest State.modProv
  split <;> rfl

@[simp] theorem State.openRange_outer (epoch : W16) : (State.openRange s epoch).outer = s.outer := by
  simp [State.openRange, apply_ite State.outer]

@[simp] theorem State.receive_outer (x : Slot) : (State.receive s x).outer = s.outer := by
  simp [State.receive, apply_ite State.outer]

@[simp] theorem State.countEpold_outer : s.countEpold.outer = s.outer := by
  rw [State.countEpold, State.modProv]
  rfl

@[simp] theorem State.sourceRow_outer (c : Inflight) (m : Cmd) (r : Nat) : (State.sourceRow s c m r).1.outer = s.outer := by
  unfold State.sourceRow
  split <;> simp

@[simp] theorem State.place_outer (c : Inflight) (m : Cmd) (r : Nat) (bs : List Byte) (ma : W32) : (State.place s c m r bs ma).outer = s.outer := by
  simp [State.place, apply_ite State.outer]

@[simp] theorem State.voidSettle_outer (c : Inflight) (m : Cmd) : (State.voidSettle s c m).outer = s.outer := by
  unfold State.voidSettle
  split <;> simp

@[simp] theorem State.claimAll_outer (tag : W16) (descs : List (Role × Desc × Bool)) : (State.claimAll s tag descs).outer = s.outer := by
  induction descs generalizing s with
  | nil => rfl
  | cons x xs ih => simp [State.claimAll, ih]

@[simp] theorem State.countRefusal_outer : (State.countRefusal s).outer = s.outer := by
  simp [State.countRefusal]

@[simp] theorem State.push_outer (c : Inflight) : (State.push s c).outer = s.outer := by
  simp [State.push]

@[simp] theorem State.refuse_outer (x : Slot) (code : W16) (detail : List Byte) : (State.refuse s x code detail).outer = s.outer := by
  simp [State.refuse, apply_ite State.outer]

@[simp] theorem State.mintImage_outer (c : Inflight) (m : Cmd) : (State.mintImage s c m).outer = s.outer := by
  simp [State.mintImage, apply_ite State.outer]

@[simp] theorem State.wake_outer (x : Slot) : (State.wake s x).outer = s.outer := by
  unfold State.wake
  dsimp only
  repeat' split
  all_goals simp

@[simp] theorem State.wakeGated_outer (x : Slot) : (State.wakeGated s x).outer = s.outer := by
  simp [State.wakeGated, apply_ite State.outer]

@[simp] theorem State.slotDropped_outer : (State.slotDropped s).outer = s.outer := by
  simp [State.slotDropped, apply_ite State.outer]

@[simp] theorem State.rollSetsDue_outer : s.rollSetsDue.outer = s.outer := by
  refine foldl_outer _ (fun s w => ?_) _
  split <;> simp

@[simp] theorem State.endHolds_outer (tag : W16) : (s.endHolds tag).outer = s.outer := by
  simp [State.endHolds]

@[simp] theorem State.leave_outer (c : Inflight) (m : Cmd) : (State.leave s c m).outer = s.outer := by
  simp [State.leave, apply_ite State.outer]

@[simp] theorem State.assayOp_outer (c : Inflight) (m : Cmd) : (State.assayOp s c m).outer = s.outer := by
  unfold State.assayOp
  split <;> simp

@[simp] theorem State.refuseCfg_outer (c : Inflight) (abort : W16) : (State.refuseCfg s c abort).outer = s.outer := by
  simp [State.refuseCfg]

@[simp] theorem State.lateStores_outer (c : Inflight) : (State.lateStores s c).outer = s.outer := by
  simp [State.lateStores, apply_ite State.outer]

@[simp] theorem State.lastFault_outer (c : Inflight) : (State.lastFault s c).outer = s.outer := by
  unfold State.lastFault
  repeat' split
  all_goals simp

@[simp] theorem State.rollSetEffect_outer : (State.rollSetEffect s).outer = s.outer := by
  unfold State.rollSetEffect
  split <;> simp [apply_ite State.outer]

@[simp] theorem State.rollWatchdog_outer (tag : W16) : (State.rollWatchdog s tag).outer = s.outer := by
  unfold State.rollWatchdog
  dsimp only
  repeat' split
  all_goals simp

@[simp] theorem State.combine_outer (c : Inflight) (m : Cmd) : (State.combine s c m).outer = s.outer := by
  simp [State.combine, apply_ite State.outer]

@[simp] theorem State.readPre_outer (c : Inflight) : (s.readPre c).outer = s.outer := by
  unfold State.readPre
  split
  · rfl
  · exact (State.modInflight_outer _ _ _).trans (foldl_outer _ (fun s e => by simp) _)

@[simp] theorem State.failPre_outer (c : Inflight) (e : Nat × Byte) : (State.failPre s c e).outer = s.outer := by
  simp [State.failPre]

@[simp] theorem State.restartOne_outer (y : Inflight) (n : Nat) : (s.restartOne y n).outer = s.outer := by
  unfold State.restartOne
  repeat' split
  all_goals simp

@[simp] theorem State.restartAll_outer (young : List Inflight) (ask : Bool) : (s.restartAll young ask).outer = s.outer := by
  have hfold := foldl_outer s (f := fun s y => s.restartOne y y.replays.toNat) (fun s y => by simp) young
  unfold State.restartAll
  dsimp only
  split <;> simp [hfold]

@[simp] theorem State.restore_outer (cs : List Inflight) : (s.restore cs).outer = s.outer := by
  induction cs with
  | nil => rfl
  | cons c cs ih =>
    refine (foldl_outer _ (fun s p => ?_) _).trans ih
    split <;> simp

@[simp] theorem State.readPres_outer (cs : List Inflight) : (s.readPres cs).1.outer = s.outer := foldl_outer _ (fun s c => by simp) _
@[simp] theorem State.endBeats_outer (y : Inflight) : (s.endBeats y).outer = s.outer := by
  unfold State.endBeats
  split
  · rfl
  · split
    · simp
    · refine foldl_outer _ (fun s b => ?_) _
      split <;> simp

@[simp] theorem State.undo_outer (c : Inflight) (m : Cmd) : (s.undo c m).outer = s.outer := by
  have hfold (young : List Inflight) : (young.foldl State.endBeats s).outer = s.outer := foldl_outer _ (fun s y => by simp) _
  unfold State.undo
  dsimp only
  repeat' split
  all_goals simp [hfold]

@[simp] theorem State.completeAll_outer (c : Inflight) : (s.completeAll c).outer = s.outer := foldl_outer _ (fun s x => by simp) _
@[simp] theorem State.logClear_outer (lines : List Nat) : (State.logClear s lines).outer = s.outer := by
  induction lines generalizing s with
  | nil => rfl
  | cons x xs ih => simp [State.logClear, ih]

@[simp] theorem State.accPresentation_outer (beat : List (Option W32)) : (State.accPresentation s beat).outer = s.outer := by
  unfold State.accPresentation
  split <;> simp [apply_ite State.outer]

@[simp] theorem State.stopFaulted_outer (tag : W16) : (s.stopFaulted tag).outer = s.outer := foldl_outer _ (fun s y => by simp) _
@[simp] theorem State.startAgain_outer (c : Inflight) : (s.startAgain c).outer = s.outer := by
  simp [State.startAgain]

@[simp] theorem State.spwAnswer_outer (stat : BitVec 2) (data : List Byte) : (State.spwAnswer s stat data).outer = s.outer := by
  simp [State.spwAnswer]

@[simp] theorem State.claimEach_outer (tag : W16) (claims : List ClaimOp) : (State.claimEach s tag claims).1.outer = s.outer := by
  induction claims generalizing s with
  | nil => rfl
  | cons x xs ih => simp [State.claimEach, ih]

@[simp] theorem State.answer_outer (tag : W16) (roll : Bool) (a : Answer) (seqs : List W32) : (State.answer s tag roll a seqs).outer = s.outer := by
  simp [State.answer]

@[simp] theorem State.grantAcquire_outer (tag : W16) : (s.grantAcquire tag).outer = s.outer := by
  unfold State.grantAcquire
  split
  · rfl
  · split
    · rfl
    · next h => exact (State.answer_outer _ _ _ _ _).trans (State.acquire_outer h)

@[simp] theorem State.escpv_outer (tag : W16) (engine : Nat) (case : Nat) (addr : Nat) : (State.escpv s tag engine case addr).outer = s.outer := by
  simp [State.escpv]

@[simp] theorem State.refuseEscpv_outer (tag : W16) (roll : Bool) (engine : Nat) (case : Nat) (addr : Nat) :
    (State.refuseEscpv s tag roll engine case addr).outer = s.outer := by
  simp [State.refuseEscpv]

@[simp] theorem State.rollAcquire_outer (tag : W16) (roll : BitVec 4) (seq : W32) : (s.rollAcquire tag roll seq).outer = s.outer := by
  unfold State.rollAcquire
  dsimp only
  split
  · rfl
  · split
    · simp
    · split
      · simp
      · split
        · next h => exact (State.answer_outer _ _ _ _ _).trans (State.acquire_outer h)
        · simp

@[simp] theorem State.portRead_outer (port : Nat) (tag : W16) (addr : Nat) (n : Nat) : (State.portRead s port tag addr n).1.outer = s.outer := by
  unfold State.portRead
  dsimp only
  split <;> simp

@[simp] theorem State.correctionWriteback_outer : (State.correctionWriteback s).outer = s.outer := by
  unfold State.correctionWriteback
  dsimp only
  repeat' split
  all_goals simp

@[simp] theorem State.retirementReport_outer (tag : W16) : (State.retirementReport s tag).outer = s.outer := by
  simp [State.retirementReport, apply_ite State.outer]

@[simp] theorem State.spnAnswer_outer (stat : BitVec 2) (data : W64) : (State.spnAnswer s stat data).outer = s.outer := by
  simp [State.spnAnswer]

@[simp] theorem State.grantDecl_outer (tag : W16) (engine : BitVec 3) (boxes : List BoxOp) (claims : List ClaimOp) (arrived : Nat) :
    (s.grantDecl tag engine boxes claims arrived).outer = s.outer := by
  unfold State.grantDecl
  dsimp only
  repeat' split
  all_goals simp [State.enter]

@[simp] theorem State.escrowDeclaration_outer (tag : W16) (engine : BitVec 3) (boxes : List BoxOp) (claims : List ClaimOp) :
    (s.escrowDeclaration tag engine boxes claims).outer = s.outer := by
  unfold State.escrowDeclaration
  dsimp only
  repeat' split
  all_goals simp

@[simp] theorem State.portRange_outer (port : Nat) (tag : W16) (addr : Nat) : (State.portRange s port tag addr).outer = s.outer := by
  simp [State.portRange]

@[simp] theorem State.nAccess_outer (write : Bool) (word : BitVec 24) (be : Byte) (data : W64) :
    (State.nAccess s write word be data).outer = s.outer := by
  unfold State.nAccess
  dsimp only
  repeat' split
  all_goals simp

@[simp] theorem State.grant_outer (tag : W16) : (State.grant s tag).outer = s.outer := by
  unfold State.grant
  repeat' split
  all_goals simp

@[simp] theorem State.rollRelease_outer (tag : W16) (roll : BitVec 4) (seq : W32) : (State.rollRelease s tag roll seq).outer = s.outer := by
  unfold State.rollRelease
  dsimp only
  repeat' split
  all_goals simp

@[simp] theorem State.wAccess_outer (write : Bool) (line : Nat) (tag : W16) (data : List Byte) :
    (State.wAccess s write line tag data).outer = s.outer := by
  unfold State.wAccess
  dsimp only
  repeat' split
  all_goals simp

@[simp] theorem State.forcedScrubSteal_outer : (State.forcedScrubSteal s).outer = s.outer := by
  unfold State.forcedScrubSteal
  dsimp only
  repeat' split
  all_goals simp

@[simp] theorem State.rollPublish_outer (tag : W16) (roll : BitVec 4) (seq : W32) : (State.rollPublish s tag roll seq).outer = s.outer := by
  unfold State.rollPublish
  dsimp only
  repeat' split
  all_goals simp

@[simp] theorem State.guardedNRequest_outer : (State.guardedNRequest s).outer = s.outer := by
  unfold State.guardedNRequest
  split <;> simp [apply_ite State.outer]

@[simp] theorem State.idleScrub_outer (bank : Nat) : (State.idleScrub s bank).outer = s.outer := by
  simp [State.idleScrub, apply_ite State.outer]

@[simp] theorem State.rollReport_outer (sop : BitVec 2) (tag : W16) (roll : BitVec 4) (seq : W32) :
    (State.rollReport s sop tag roll seq).outer = s.outer := by
  unfold State.rollReport
  split <;> simp [apply_ite State.outer]

@[simp] theorem State.receiveWaiting_outer : (State.receiveWaiting s).outer = s.outer := by
  unfold State.receiveWaiting
  split <;> simp [apply_ite State.outer]

@[simp] theorem State.readSensors_outer (t0 : W16) (t1 : W16) : (State.readSensors s t0 t1).outer = s.outer := by
  simp [State.readSensors, apply_ite State.outer]

@[simp] theorem State.pwGrant_outer : (State.pwGrant s).outer = s.outer := by
  simp [State.pwGrant, apply_ite State.outer]

@[simp] theorem State.idleTimeout_outer : (State.idleTimeout s).outer = s.outer := by
  simp [State.idleTimeout, apply_ite State.outer]

@[simp] theorem State.setBase_outer : (State.setBase s).outer = s.outer := by
  simp [State.setBase, apply_ite State.outer]

@[simp] theorem State.powerDownStep_outer : (State.powerDownStep s).outer = s.outer := by
  unfold State.powerDownStep
  split <;> simp [apply_ite State.outer]

@[simp] theorem State.enterHalt_outer : (State.enterHalt s).outer = s.outer := by
  simp [State.enterHalt]

@[simp] theorem State.leaveHalt_outer : (State.leaveHalt s).outer = s.outer := by
  simp [State.leaveHalt]

@[simp] theorem State.setThermal_outer : (State.setThermal s).outer = s.outer := by
  simp [State.setThermal]

@[simp] theorem State.startBreach_outer (floor : Nat) (level : Nat) : (State.startBreach s floor level).outer = s.outer := by
  simp [State.startBreach]

@[simp] theorem State.setHalt_outer (was : Nat) : (State.setHalt s was).outer = s.outer := by
  simp [State.setHalt, apply_ite State.outer]

@[simp] theorem State.countResidue_outer : (State.countResidue s).outer = s.outer := by
  simp [State.countResidue]

@[simp] theorem State.failFaild_outer (c : Inflight) (detail : List Byte) : (State.failFaild s c detail).outer = s.outer := by
  simp [State.failFaild]

@[simp] theorem State.suspect_outer (x : Suspect) : (State.suspect s x).outer = s.outer := by
  simp [State.suspect]

@[simp] theorem State.replay_outer (tag : W16) (group : Nat) (lane : Nat) (logged : Bool) :
    (State.replay s tag group lane logged).outer = s.outer := by
  unfold State.replay
  split <;> simp [apply_ite State.outer]

@[simp] theorem State.modGroup_outer (g : Nat) (f : Group → Group) : (State.modGroup s g f).outer = s.outer := by
  simp [State.modGroup]

@[simp] theorem State.checkerRotationStep_outer : (State.checkerRotationStep s).outer = s.outer := by
  simp [State.checkerRotationStep, apply_ite State.outer]

@[simp] theorem State.logLane_outer (x : Suspect) (lane : Nat) (outcome : Nat) : (State.logLane s x lane outcome).outer = s.outer := by
  simp [State.logLane]

@[simp] theorem State.logRom_outer (rom : Nat) (kind : Nat) : (State.logRom s rom kind).outer = s.outer := by
  simp [State.logRom]

@[simp] theorem State.takeSpare_outer (x : Suspect) (remap : Nat) (cause : Byte) : (State.takeSpare s x remap cause).outer = s.outer := by
  simp [State.takeSpare]

@[simp] theorem State.shiftOut_outer (ws : List (BitVec 32)) : (State.shiftOut s ws).outer = s.outer := by
  simp [State.shiftOut]

@[simp] theorem State.testWrite_outer (a : Nat) (w : W32) : (State.testWrite s a w).outer = s.outer := by
  simp [State.testWrite, apply_ite State.outer]

@[simp] theorem State.poisonWords_outer (words : List Nat) : (State.poisonWords s words).outer = s.outer := by
  induction words generalizing s with
  | nil => rfl
  | cons x xs ih => simp [State.poisonWords, ih]

@[simp] theorem State.countCycles_outer (n : Nat) : (s.countCycles n).outer = s.outer := foldl_outer _ (fun s x => by simp) _

end
end Sys2Proof.Machine
end

section
/-! What the link layer and the settlements leave alone, and the sizes that they keep. -/
namespace Sys2Proof.Machine
open Sys2Proof Sys2Proof.Claims

/-- The outer parts without the ring ports and the settlement buffer. -/
def State.base (s : State) : Outer := { s.outer with links := (.default, .default), setBuf := [] }

/-- A replay buffer holds at most 64 flits, those on the link among them (R228). -/
def Link.fits (l : Link) : Prop := l.replay.length ≤ 64 ∧ l.next ≤ l.replay.length

/-- The settlement buffer and the replay buffers keep to their sizes (R226, R228). -/
def State.ringsFit (s : State) : Prop := s.setBuf.length ≤ 256 ∧ s.links.1.fits ∧ s.links.2.fits

/-- `t` differs from `s` in nothing outside but its ring ports and its settlement buffer, which keep to their sizes. -/
structure Rings (s t : State) : Prop where
  base : t.base = s.base
  fits : s.ringsFit → t.ringsFit

namespace Rings
variable {z s t : State}

theorem refl (s : State) : Rings s s := ⟨rfl, id⟩

theorem trans (h : Rings z s) (k : Rings s t) : Rings z t := ⟨k.base.trans h.base, k.fits ∘ h.fits⟩

theorem of_outer (h : Rings z s) (e : t.outer = s.outer) : Rings z t :=
  ⟨(congrArg (fun o : Outer => { o with links := (.default, .default), setBuf := [] }) e).trans h.base, fun w => by
    have hb : t.setBuf = s.setBuf := congrArg Outer.setBuf e
    have hl : t.links = s.links := congrArg Outer.links e
    simpa only [State.ringsFit, hb, hl] using h.fits w⟩

theorem ite {a b : State} {p : Prop} [Decidable p] (h : p → Rings z a) (k : ¬ p → Rings z b) : Rings z (if p then a else b) := by
  split <;> rename_i hp
  · exact h hp
  · exact k hp

theorem foldl {α : Type} {f : State → α → State} (k : ∀ s x, Rings z s → Rings z (f s x)) (xs : List α) (h : Rings z s) :
    Rings z (xs.foldl f s) := by
  induction xs generalizing s with
  | nil => exact h
  | cons x xs ih => exact ih (k s x h)

/-- Another settlement buffer. -/
theorem withBuf (h : Rings z s) (b : List BufFlit) (k : s.setBuf.length ≤ 256 → b.length ≤ 256) : Rings z { s with setBuf := b } :=
  ⟨h.base, fun w => ⟨k (h.fits w).1, (h.fits w).2⟩⟩

/-- Another state of a link. -/
theorem setLink (h : Rings z s) (c : Scope) (l : Link) (k : (s.link c).fits → l.fits) : Rings z (s.setLink c l) := by
  refine ⟨h.base ▸ ?_, fun w => ?_⟩
  · cases c <;> rfl
  · obtain ⟨hb, h1, h2⟩ := h.fits w
    cases c
    · exact ⟨hb, k h1, h2⟩
    · exact ⟨hb, h1, k h2⟩

theorem modLink (h : Rings z s) (c : Scope) (f : Link → Link) (k : ∀ l, l.fits → (f l).fits) : Rings z (s.modLink c f) :=
  h.setLink c _ (k _)

/-! ### The link layer -/

theorem send (h : Rings z s) (c : Scope) (fs : List Flit) : Rings z (s.send c fs) := h.modLink c _ fun _ w => by exact w

theorem resend (h : Rings z s) (c : Scope) : Rings z (s.resend c) := h.modLink c _ fun _ w => ⟨w.1, Nat.zero_le _⟩

theorem driveWord (h : Rings z s) (c : Scope) (w : W16) : Rings z (s.driveWord c w) :=
  (h.modLink c _ fun _ w => by exact w).of_outer (State.modOut_outer _ _)

theorem ack (h : Rings z s) (c : Scope) (nak : Bool) (seq : Byte) : Rings z (s.ack c nak seq) := h.driveWord c _

theorem ackIdle (h : Rings z s) (c : Scope) : Rings z (s.ackIdle c) := h.driveWord c _

theorem fits_time {l : Link} (h : l.fits) : l.time.fits := by
  unfold Link.time
  split <;> exact h

theorem fits_settleState {l : Link} (h : l.fits) : l.settleState.fits := h

theorem fits_emit {l : Link} (h : l.fits) (me : Nat) : (l.emit me).1.fits := by
  obtain ⟨hr, hn⟩ := h
  unfold Link.emit
  dsimp only
  split
  · exact ⟨hr, hn⟩
  · split
    · next b e => exact ⟨hr, (List.getElem?_eq_some_iff.mp e).1⟩
    · split
      · exact ⟨hr, hn⟩
      · next k => exact ⟨by simp; omega, by simp; omega⟩

theorem portCycle (h : Rings z s) (c : Scope) : Rings z (s.portCycle c) := by
  unfold State.portCycle
  refine ite (fun _ => h.of_outer (State.modOut_outer _ _)) fun _ => ite (fun _ => h) fun _ => ?_
  refine Rings.of_outer (setLink (ite (fun _ => h) fun _ => h.ackIdle c) c _ fun w => ?_) (State.modOut_outer _ _)
  exact fits_emit (fits_time w) _

theorem ringCycle (h : Rings z s) : Rings z s.ringCycle := (h.portCycle .cluster).portCycle .die

/-! ### Settlements -/

/-- Flits leave the settlement buffer. -/
theorem filterBuf (h : Rings z s) (p : BufFlit → Bool) : Rings z { s with setBuf := s.setBuf.filter p } :=
  h.withBuf _ ((List.length_filter_le _ _).trans ·)

theorem discard (h : Rings z s) (c : Scope) (t : BitVec 3) (sid : W16) : Rings z (s.discard c t sid) := h.filterBuf _

theorem dropRecord (h : Rings z s) (c : Inflight) (m : Cmd) (type src row : Nat) : Rings z (s.dropRecord c m type src row) :=
  h.filterBuf _

theorem modInflight (h : Rings z s) (t : W16) (f : Inflight → Inflight) : Rings z (s.modInflight t f) :=
  h.of_outer (State.modInflight_outer _ _ _)

theorem log (h : Rings z s) (code tag : W16) (ctx : Option (BitVec 3)) (d : List Byte) : Rings z (s.log code tag ctx d) :=
  h.of_outer (State.log_outer _ _ _ _ _)

theorem abortOwn (h : Rings z s) (c : Inflight) (code : W16) : Rings z (s.abortOwn c code) := (h.modInflight _ _).discard _ _ _

theorem abortSettle (h : Rings z s) (c : Inflight) (code : W16) (row : Nat) (d : List Byte) : Rings z (s.abortSettle c code row d) :=
  ((h.log _ _ _ _).abortOwn c code).send _ _

theorem mismatch (h : Rings z s) (c : Inflight) (row pos : Nat) : Rings z (s.mismatch c row pos) := h.abortSettle _ _ _ _

theorem ringFalls (h : Rings z s) (c : Scope) : Rings z (s.ringFalls c) :=
  foldl (fun _ _ h => (h.log _ _ _ _).abortOwn _ _) _ h

theorem place (h : Rings z s) (c : Inflight) (m : Cmd) (r : Nat) (bs : List Byte) (ma : W32) : Rings z (s.place c m r bs ma) :=
  h.of_outer (State.place_outer ..)

theorem readBuffer (h : Rings z s) (c : Inflight) (m : Cmd) (row : Nat) : Rings z (s.readBuffer c m row) := by
  unfold State.readBuffer
  have k (bad : List BufFlit) : Rings z (bad.foldl (fun s b => b.synd.foldl (fun s e =>
      s.codeEvent 5 e.1 c.tag (some c.slot.tenant) e.2 (classify e.2)) s) s) :=
    h.of_outer (foldl_outer _ (fun s _ => foldl_outer s (fun s _ => State.codeEvent_outer ..) _) _)
  exact ite (fun _ => k _) fun _ => (k _).withBuf _ fun w => by rwa [List.length_map]

theorem finalRow (h : Rings z s) (c : Inflight) (m : Cmd) (r : Nat) (own : RowSt) (bs : List Byte) : Rings z (s.finalRow c m r own bs) :=
  (h.send _ _).place _ _ _ _ _

theorem strictStep (h : Rings z s) (c : Inflight) (m : Cmd) (r : Nat) (own : RowSt) : Rings z (s.strictStep c m r own) := by
  unfold State.strictStep
  dsimp only
  refine ite (fun _ => (h.send _ _).modInflight _ _) fun _ => ?_
  split
  · exact h
  · refine ite (fun _ => h) fun _ => ?_
    split
    · exact (h.dropRecord _ _ _ _ _).mismatch _ _ _
    · have k := (h.dropRecord c m tPART (m.before (s.position m.scope)) r).modInflight c.tag fun c => c.modRow r fun w => { w with sent := true }
      exact ite (fun _ => k.finalRow _ _ _ _ _) fun _ => (k.modInflight _ _).send _ _

theorem fastPart (h : Rings z s) (c : Inflight) (m : Cmd) (r : Nat) (own : RowSt) (src : Nat) :
    Rings z (s.fastPart c m r own src).1 := by
  unfold State.fastPart
  dsimp only
  split
  · exact h
  · have k := h.dropRecord c m tPART src r
    split
    · exact k
    · split
      · exact k.mismatch _ _ _
      · exact k.modInflight _ _

theorem fastMerge (h : Rings z s) (c : Inflight) (m : Cmd) (r : Nat) (own : RowSt) (srcs : List Nat) :
    Rings z (s.fastMerge c m r own srcs) := by
  induction srcs generalizing s with
  | nil => exact h
  | cons src rest ih => exact ite (fun _ => ih (h.fastPart c m r own src)) fun _ => h.fastPart c m r own src

theorem fastStep (h : Rings z s) (c : Inflight) (m : Cmd) (r : Nat) (own : RowSt) : Rings z (s.fastStep c m r own) := by
  unfold State.fastStep
  refine ite (fun _ => (h.send _ _).modInflight _ _) fun _ => ?_
  have k := h.fastMerge c m r own (s.arrivals c m r)
  dsimp only
  split
  · exact k
  · exact ite (fun _ => k) fun _ => (k.modInflight _ _).finalRow _ _ _ _ _

theorem sourceRow (h : Rings z s) (c : Inflight) (m : Cmd) (r : Nat) : Rings z (s.sourceRow c m r).1 :=
  h.of_outer (State.sourceRow_outer ..)

theorem reduceRow (h : Rings z s) (c : Inflight) (m : Cmd) (r : Nat) : Rings z (s.reduceRow c m r) := by
  unfold State.reduceRow
  refine ite (fun _ => h) fun _ => ?_
  have k := h.sourceRow c m r
  dsimp only
  split
  · exact k.abortSettle _ _ _ _
  · exact ite (fun _ => k.mismatch _ _ _) fun _ => ite (fun _ => k.strictStep _ _ _ _) fun _ => k.fastStep _ _ _ _

theorem gatherRow (h : Rings z s) (c : Inflight) (m : Cmd) (r : Nat) : Rings z (s.gatherRow c m r) := by
  unfold State.gatherRow
  dsimp only
  split
  · exact h
  · have k := h.dropRecord c m tFINAL (m.owner r) r
    exact ite (fun _ => h) fun _ => ite (fun _ => k.mismatch _ _ _) fun _ => k.place _ _ _ _ _

theorem advanceRow (h : Rings z s) (tag : W16) (r : Nat) : Rings z (s.advanceRow tag r) := by
  unfold State.advanceRow
  dsimp only
  split
  · exact h
  · next c _ =>
    refine ite (fun _ => h) fun _ => ite (fun _ => (h.abortSettle _ _ _ _).of_outer (State.modHealth_outer _ _)) fun _ => ?_
    split
    · exact ite (fun _ => h) fun _ => h.place _ _ _ _ _
    · have k := h.readBuffer c c.cmd r
      split
      · exact k.mismatch _ _ _
      · exact ite (fun _ => k.gatherRow _ _ _) fun _ => k.reduceRow _ _ _

theorem partSend (h : Rings z s) (tag row : W16) : Rings z (s.partSend tag row) := ite (fun _ => h.advanceRow _ _) fun _ => h

/-! ### Flits that are taken -/

theorem badFlit (h : Rings z s) (c : Inflight) (m : Cmd) (f : Flit) : ∀ t, s.badFlit c m f = some t → Rings z t := by
  intro t e
  unfold State.badFlit at e
  split at e
  · exact Option.some.inj e ▸ h.abortSettle _ _ _ _
  · split at e
    · exact Option.some.inj e ▸ h.mismatch _ _ _
    · cases e

/-- A payload joins a settlement buffer that has room. -/
theorem buffer (h : Rings z s) (c : Scope) (b : List Byte) (room : s.setBuf.length < 256) : Rings z (s.buffer c b) :=
  h.withBuf _ fun _ => by simp; omega

theorem forward (h : Rings z s) (c : Scope) (f : Flit) : Rings z (s.forward c f) := h.send _ _

theorem takePart (h : Rings z s) (c : Scope) (f : Flit) (b : List Byte) (room : f.dst = s.position c → s.setBuf.length < 256) :
    Rings z (s.takePart c f b) := by
  unfold State.takePart
  dsimp only
  split
  · exact ite (fun e => h.buffer _ _ (room (by simpa using e))) fun _ => h.forward _ _
  · next x _ =>
    split
    · next t e => exact ite (fun _ => h.badFlit _ _ _ _ e) fun _ => (h.badFlit _ _ _ _ e).forward _ _
    · exact ite (fun e => (h.buffer _ _ (room (by simpa using e))).advanceRow _ _) fun _ => h.forward _ _

theorem forward_setBuf (c : Scope) (f : Flit) : (s.forward c f).setBuf = s.setBuf := by cases c <;> rfl

theorem takeFinal (h : Rings z s) (c : Scope) (f : Flit) (b : List Byte)
    (room : f.src ≠ s.position c → (s.settle? c f.tenant f.sid).isSome → s.setBuf.length < 256) : Rings z (s.takeFinal c f b) := by
  unfold State.takeFinal
  refine ite (fun _ => h) fun ne => ?_
  split
  · exact h.forward _ _
  · next x hx =>
    split
    · next t e => exact (h.badFlit _ _ _ _ e).forward _ _
    · refine ite (fun _ => h.forward _ _) fun _ => ((h.forward c f).buffer _ _ ?_).advanceRow _ _
      rw [forward_setBuf]
      exact room ne (by rw [hx]; rfl)

theorem takeAbort (h : Rings z s) (c : Scope) (f : Flit) : Rings z (s.takeAbort c f) := by
  unfold State.takeAbort
  dsimp only
  refine ite (fun _ => ?_) fun _ => ite (fun _ => h) fun _ => ?_
  · have k := h.modLink c (fun l =>
      { l with ringDown := l.ringDown.filter (· != f.detector) ++ on (f.code == cCLRDN) f.detector }.settleState)
      fun _ w => fits_settleState w
    have k := ite (p := f.code = cCLRDN) (fun _ => k.ringFalls c) fun _ => k
    exact ite (fun _ => k) fun _ => k.forward _ _
  · refine Rings.forward ?_ _ _
    split
    · exact h.abortOwn _ _
    · exact h.discard _ _ _

theorem takeTrain (h : Rings z s) (c : Scope) (seq : Byte) : Rings z (s.takeTrain c seq) := by
  have k := (h.modLink c (fun l => { l with rxTrain := l.rxTrain + 1, recv := satAdd l.recv 1, nakSent := false }) fun _ w => by exact w).ack c false seq
  exact ite (fun _ => k) fun _ => ((k.modLink c _ fun _ w => by exact fits_settleState w).ringFalls c).send _ _

theorem reject (h : Rings z s) (c : Scope) : Rings z (s.reject c) :=
  ite (fun _ => h) fun _ => (h.setLink c _ fun w => by exact w).ack _ _ _

theorem breakTrain (h : Rings z s) (c : Scope) : Rings z (s.breakTrain c) := h.modLink c _ fun _ w => by exact w

theorem flitReceive (h : Rings z s) (c : Scope) (flit : List Byte) : Rings z (s.flitReceive c flit) := by
  unfold State.flitReceive
  dsimp only
  refine ite (fun _ => h) fun _ => ite (fun _ => ((h.modLink c _ fun _ w => by exact w).breakTrain c).reject c) fun _ =>
    ite (fun _ => h.breakTrain c) fun _ => ?_
  split
  · exact (((h.modLink c _ fun _ w => by exact w).breakTrain c).log _ _ _ _).reject c
  · have hb := h.breakTrain c
    refine ite (fun _ => h.takeTrain c _) fun _ => ite (fun _ => hb.ackIdle c) fun full => ?_
    generalize s.breakTrain c = u at hb full ⊢
    generalize Flit.ofBytes (padTo 80 flit) = f at full ⊢
    have k := hb.setLink c { u.link c with rxSeq := (u.link c).rxSeq + 1, nakSent := false, recv := satAdd (u.link c).recv 1 } fun w => w
    generalize hv : u.setLink c _ = v at k ⊢
    have hbuf : v.setBuf = u.setBuf := hv ▸ by cases c <;> rfl
    have hpos : v.position c = u.position c := hv ▸ by cases c <;> rfl
    have hset : v.settle? c f.tenant f.sid = u.settle? c f.tenant f.sid := hv ▸ by cases c <;> rfl
    have room : f.type = tPART ∧ f.dst = v.position c ∨
        f.type = tFINAL ∧ f.src ≠ v.position c ∧ (v.settle? c f.tenant f.sid).isSome → v.setBuf.length < 256 := by
      rw [hbuf, hpos, hset]
      intro hw
      by_contra ge
      exact full (by rcases hw with ⟨a, b⟩ | ⟨a, b, d⟩ <;> simp [State.bufferFull, Nat.not_lt.mp ge, *])
    refine Rings.ack ?_ c _ _
    refine ite (fun e => k.takePart _ _ _ fun w => room (.inl ⟨e, w⟩)) fun _ =>
      ite (fun e => k.takeFinal _ _ _ fun w x => room (.inr ⟨e, w, x⟩)) fun _ => ite (fun _ => k.takeAbort _ _) fun _ => k

/-! ### The transmitter's events -/

theorem declareDown (h : Rings z s) (c : Scope) : Rings z (s.declareDown c) :=
  ((h.modLink c _ fun _ _ => by exact ⟨Nat.zero_le _, Nat.le_refl _⟩).log _ _ _ _).ringFalls c

theorem retry (h : Rings z s) (c : Scope) : Rings z (s.retry c) := ite (fun _ => (h.resend c).declareDown c) fun _ => h.resend c

theorem ackReceive (h : Rings z s) (c : Scope) (w : W16) : Rings z (s.ackReceive c w) := by
  unfold State.ackReceive
  dsimp only
  have k := h.setLink c { s.link c with hold := w.getLsbD 14 } fun w => w
  refine ite (fun _ => h) fun _ => ite (fun _ => ite (fun _ => h.setLink c _ fun w => by exact w) fun _ => h) fun _ =>
    ite (fun _ => k) fun _ => ?_
  generalize (if w.getLsbD 15 = true then _ else _ : Nat) = n
  generalize hs : s.setLink c { s.link c with hold := w.getLsbD 14 } = u at k ⊢
  have hl : u.link c = { s.link c with hold := w.getLsbD 14 } := hs ▸ by cases c <;> rfl
  have k1 : Rings z (if 0 < n then u.setLink c { s.link c with
      hold := w.getLsbD 14, replay := (s.link c).replay.drop n, next := (s.link c).next - n, consec := 0, quiet := 0 } else u) :=
    ite (fun _ => k.setLink c _ fun w => by
      rw [hl] at w
      obtain ⟨h1, h2⟩ := w
      have h1 : (s.link c).replay.length ≤ 64 := h1
      have h2 : (s.link c).next ≤ (s.link c).replay.length := h2
      exact ⟨by simp; omega, by simp; omega⟩) fun _ => k
  have k2 (d : List Byte) (p : Prop) [Decidable p] := ite (p := p) (fun _ => k1.log cCLRTY noTag none d) fun _ => k1
  exact ite (fun _ => (k2 _ _).retry c) fun _ => k2 _ _

theorem ackTimeout (h : Rings z s) (c : Scope) : Rings z (s.ackTimeout c) := ite (fun _ => h) fun _ => h.retry c

theorem takeBuffered (h : Rings z s) (tag : W16) (bs : List BufFlit) : Rings z (s.takeBuffered tag bs) := by
  induction bs generalizing s with
  | nil => exact h
  | cons b bs ih =>
    unfold State.takeBuffered
    dsimp only
    split
    · exact h
    · refine ite (fun _ => h) fun _ => ite (fun _ => ih h) fun _ => ?_
      split
      · next e => exact h.badFlit _ _ _ _ e
      · exact ih (h.advanceRow _ _)

theorem dropStale (h : Rings z s) (bs : List BufFlit) : Rings z (s.dropStale bs) := by
  induction bs generalizing s with
  | nil => exact h
  | cons b bs ih => exact ite (fun _ => ih ((h.discard _ _ _).log _ _ _ _)) fun _ => ih h

theorem settlementBufferTimeout (h : Rings z s) : Rings z s.settlementBufferTimeout := ite (fun _ => h.dropStale _) fun _ => h

theorem txUp (h : Rings z s) (c : Scope) : Rings z (s.txUp c) := by
  have k := h.modLink c (fun l =>
      { l with down := false, declared := false, returns := if l.declared then satAdd l.returns 1 else l.returns, txSeq := 0, replay := []
               next := 0, consec := 0, hold := false, trained := 0, quiet := 0 }.settleState) fun _ _ => ⟨Nat.zero_le _, Nat.le_refl _⟩
  exact ite (fun _ => ite (fun _ => k.log _ _ _ _) fun _ => k) fun _ => h

theorem rxUp (h : Rings z s) (c : Scope) : Rings z (s.rxUp c) :=
  ite (fun _ => (h.modLink c _ fun _ w => by exact w).send _ _) fun _ => h

theorem linkUp (h : Rings z s) (c : Scope) : Rings z (s.linkUp c) := ite (fun _ => h) fun _ => (h.txUp c).rxUp c

theorem escrowWatchdog (h : Rings z s) (tag : W16) : Rings z (s.escrowWatchdog tag) := by
  have settles : Rings z (State.escrowWatchdog.settles s tag) := by
    unfold State.escrowWatchdog.settles
    split
    · exact h
    · exact ite (fun _ => h.abortSettle _ _ _ _) fun _ => h
  unfold State.escrowWatchdog
  dsimp only
  refine ite (fun _ => h) fun _ => ?_
  split
  · exact ite (fun _ => h.of_outer (by simp)) fun _ => settles
  · exact ite (fun _ => h.of_outer (by simp)) fun _ => settles
  · exact settles

end Rings
end Sys2Proof.Machine
end

section
/-! The epochs at resets, at `TENANT` and at a switch. -/
namespace Sys2Proof.Machine
open Sys2Proof Sys2Proof.Claims

/-! ### What leaves the epochs alone -/

theorem State.ep_of_outer {s t : State} (h : t.outer = s.outer) : t.ep = s.ep := congrArg Outer.ep h

theorem Rings.ep {s t : State} (h : Rings s t) : t.ep = s.ep := congrArg Outer.ep h.base

theorem State.setDigest_ep (s : State) (e : W16) (d : Digest) : (s.setDigest e d).ep = s.ep := ep_of_outer (by simp)

theorem State.sealNow_ep (s : State) (e : W16) (a : Nat) (r : Bool) : (s.sealNow e a r).1.ep = s.ep := by
  have hu := ep_of_outer (s.openRange_outer e)
  unfold State.sealNow
  dsimp only
  generalize s.openRange e = u at hu ⊢
  split
  · exact (State.setDigest_ep _ _ _).trans hu
  · exact hu

theorem State.onIssue_ep (s : State) (c : Inflight) (m : Cmd) : (s.onIssue c m).ep = s.ep := by
  unfold State.onIssue
  split
  · rfl
  · exact ep_of_outer (by simp)
  · exact ep_of_outer (by simp)
  · rfl
  · exact (ep_of_outer (State.modInflight_outer _ _ _)).trans (s.sealNow_ep _ _ _)
  · exact ((Rings.refl s).takeBuffered _ _).ep
  · rfl

theorem State.enter_outer (s : State) (t : W16) (n : BitVec 3) (bs : List Box) : (s.enter t n bs).outer = s.outer := by
  rw [State.enter, State.modEscrow_outer]

theorem State.issue_ep (s : State) (x : Slot) (m : Cmd) (a : Nat) : (s.issue x m a).ep = s.ep := by
  unfold State.issue
  refine (State.onIssue_ep _ _ _).trans (ep_of_outer ?_)
  simp [State.enter_outer]

theorem State.attempt_ep (s : State) (x : Slot) (a : Nat) (since : Option (Nat × Nat)) (rest : List Waiting) :
    (s.attempt x a since rest).ep = s.ep := by
  unfold State.attempt
  dsimp only
  split
  · exact ep_of_outer (by simp)
  · exact (ep_of_outer (State.cycleLog_outer _ _)).trans ((State.issue_ep _ _ _ _).trans rfl)
  · exact ep_of_outer (by simp)

theorem State.takeSlot_ep (s : State) (x : Slot) : (s.takeSlot x).ep = s.ep := by
  have hr := ep_of_outer (s.receive_outer x)
  unfold State.takeSlot
  dsimp only
  split
  · rfl
  · split
    · exact (State.attempt_ep _ _ _ _ _).trans hr
    · exact ep_of_outer (by simp)

theorem State.endBreach_ep (s : State) : s.endBreach.ep = s.ep := by
  unfold State.endBreach
  split
  · rfl
  · exact (ep_of_outer (State.log_outer ..)).trans rfl

theorem State.tenantSwitch_ep (s : State) (c : Inflight) (m : Cmd) : (s.tenantSwitch c m).ep = s.ep := by
  have h := s.endBreach_ep
  unfold State.tenantSwitch
  generalize s.endBreach = u at h ⊢
  dsimp only [State.modProv]
  exact (ep_of_outer (State.log_outer ..)).trans h

theorem State.warmReset_ep (s : State) : s.warmReset.ep = s.ep := by
  by_cases h : s.boot.warmable = true
  · rw [State.warmReset_eq h]
    rfl
  · rw [State.warmReset, if_pos (by simpa using h)]

/-- A `TENANT` that retires leaves the epochs as they are (R374). -/
theorem State.commandRetirement_ep (s : State) (c : Inflight) (rest : List Inflight) (h : s.stream.inflight = c :: rest)
    (ho : c.cmd.op = .tenant) : s.commandRetirement.ep = s.ep := by
  have hl := ep_of_outer (s.lastFault_outer c)
  have ht (s : State) (d : Inflight) : (s.retireEffect d c.cmd).ep = s.ep := by
    rw [State.retireEffect, ho]
    exact s.tenantSwitch_ep d c.cmd
  simp only [State.commandRetirement, h]
  generalize s.lastFault c = u at hl ⊢
  split
  · rfl
  · split
    · exact ep_of_outer (by simp)
    · split
      · exact (ep_of_outer (by simp)).trans hl
      · split
        · exact (ep_of_outer (by simp)).trans hl
        · refine (ep_of_outer ((State.leave_outer _ _ _).trans (State.combine_outer _ _ _))).trans ((ht _ _).trans ?_)
          exact (ep_of_outer (by simp)).trans hl

/-! ### Events that wait for another one -/

theorem State.epochSwitch_behind (s : State) (h : s.behind s.ep.switchGc.toNat 1 = true) : s.epochSwitch = s := by
  rw [State.epochSwitch, h, Bool.or_true, if_pos rfl]

theorem State.laneGroupPowerStep_behind (s : State) (u : Gc) (hu : s.pw.grant = some u) (h : s.behind u.toNat 2 = true) :
    s.laneGroupPowerStep = s := by
  simp [State.laneGroupPowerStep, hu, h]

theorem State.forcedScrubSteal_behind (s : State) (h : s.behind s.spad.nextSteal.toNat 3 = true) : s.forcedScrubSteal = s := by
  rw [State.forcedScrubSteal, if_pos (by simp [h])]

theorem State.checkerRotationStep_behind (s : State) (h : s.behind (128000 * (s.ft.step + 1)) 4 = true) :
    s.checkerRotationStep = s := by
  rw [State.checkerRotationStep, if_pos (by simp [h])]

theorem State.telemetrySample_behind (s : State) (t0 t1 : W16) (l : BitVec 3) (ha : s.tb.state ≠ .notAligned)
    (h : s.behind s.pw.nextSample.toNat 5 = true) : s.telemetrySample t0 t1 l = s := by
  rw [State.telemetrySample, if_pos (by simp [h, ha])]

theorem State.waitgcRelease_behind (s : State) (c : Inflight) (hc : s.awaiting .waitgc = some c)
    (h : s.behind c.cmd.waitTarget 6 = true) : s.waitgcRelease = s := by
  simp [State.waitgcRelease, hc, h]

/-! ### The switch -/

/-- The state in which the pending mode set has become current (R374). -/
def State.switched (s : State) : State :=
  { s with
    ep := { s.ep with
      prev := s.ep.cur, cur := s.ep.pend, prevEpoch := s.ep.curEpoch, curEpoch := s.ep.pendEpoch, armed := false, lastSwitch := s.gc }
    prov := { s.prov with prev := s.prov.cur, cur := .closed } }

theorem State.receiveWaiting_digests (s : State) : ∃ c p, s.receiveWaiting = s.withDigests c p := by
  unfold State.receiveWaiting
  split
  · split
    · exact receive_digests _ _
    · exact ⟨s.prov.cur, s.prov.prev, rfl⟩
  · exact ⟨s.prov.cur, s.prov.prev, rfl⟩

theorem State.epochSwitch_due (s : State) (hs : s.switches = true) (hb : s.behind s.ep.switchGc.toNat 1 = false) :
    s.epochSwitch = s.switched.receiveWaiting := by
  rw [State.epochSwitch, hs, hb, if_neg (by decide)]
  rfl

/-- Settles O45: `TENANT` works on the context alone, at issue and at retirement; each event that GC sets opens with the test
whether another goes before it. -/
theorem epochsAtResetsAndSwitches : Obligations.EpochsAtResetsAndSwitches := by
  refine ⟨fun s => ⟨_, rfl, rfl, rfl, rfl, rfl, rfl, rfl⟩, fun s => ?_, fun o s => ⟨_, rfl, s.takeSlot_ep _⟩, fun c rest s h ho => ?_, fun s ha => ?_, ?_⟩
  · exact ⟨_, rfl, s.warmReset_ep⟩
  · exact ⟨_, rfl, (State.ep_of_outer (State.cycleLog_outer _ _)).trans (s.commandRetirement_ep c rest h ho)⟩
  · refine ⟨fun h => congrArg Host.Outcome.next (s.epochSwitch_behind h), fun u hu h => congrArg Host.Outcome.next (s.laneGroupPowerStep_behind u hu h),
      fun h => ?_, fun h => congrArg Host.Outcome.next (s.checkerRotationStep_behind h), fun t0 t1 l h => ?_,
      fun c hc h => congrArg Host.Outcome.next (s.waitgcRelease_behind c hc h)⟩
    · exact congrArg Host.Outcome.next ((congrArg (State.cycleLog · s) (s.forcedScrubSteal_behind h)).trans (State.cycleLog_same s s rfl))
    · exact congrArg Host.Outcome.next ((congrArg (State.cycleLog · s) (s.telemetrySample_behind t0 t1 l ha h)).trans (State.cycleLog_same s s rfl))
  · intro s hr ha harm hgc hp hb
    have hs : s.switches = true := by simp [State.switches, State.due, running_of s hr.1 hr.2, ha, harm, hgc, hp]
    obtain ⟨c, p, hd⟩ := s.switched.receiveWaiting_digests
    refine ⟨s.switched.withDigests c p, congrArg Host.Outcome.next ((s.epochSwitch_due hs hb).trans hd), rfl, rfl, rfl, rfl⟩

end Sys2Proof.Machine
end

section
/-! The sizes of the unit's queues, kept by every command. -/
namespace Sys2Proof.Machine
open Sys2Proof Sys2Proof.Claims

/-- The store holds at most 128 receipts, the signing queue and the notice queue 64 each (R249, R252). -/
def Receipts.fits (r : Receipts) : Prop := r.entries.length ≤ 128 ∧ r.signQ.length ≤ 64 ∧ r.noticeQ.length ≤ 64

/-- Every queue keeps to its size. -/
def State.fitting (s : State) : Prop := s.ringsFit ∧ s.prov.rcpt.fits ∧ s.mg.queue.length ≤ 8 ∧ s.evOut.length ≤ 16

theorem State.bounded_iff (s : State) : s.bounded = true ↔ s.fitting := by
  simp only [State.bounded, State.fitting, State.ringsFit, Link.fits, Receipts.fits, Bool.and_eq_true, decide_eq_true_eq, and_assoc]

/-- The queues of the unit. -/
def State.queues (s : State) : List BufFlit × (Link × Link) × Receipts × List (Byte × List Byte) × List (Nat × W64 × List Byte) :=
  (s.setBuf, s.links, s.prov.rcpt, s.mg.queue, s.evOut)

theorem State.fitting_of_queues {s t : State} (h : t.queues = s.queues) (w : s.fitting) : t.fitting := by
  simp only [State.queues, Prod.mk.injEq] at h
  obtain ⟨h1, h2, h3, h4, h5⟩ := h
  simpa only [State.fitting, State.ringsFit, h1, h2, h3, h4, h5] using w

/-- What a state's queues keep to, `t` keeps to as well. -/
def Fits (s t : State) : Prop := s.fitting → t.fitting

namespace Fits
variable {z s t : State}

theorem refl (s : State) : Fits s s := id

theorem same (h : Fits z s) (e : t.queues = s.queues) : Fits z t := fun w => State.fitting_of_queues e (h w)

theorem of_outer (h : Fits z s) (e : t.outer = s.outer) : Fits z t := by
  refine h.same (congrArg (fun o : Outer => (o.setBuf, o.links, o.rcpt, o.mg.queue, o.evOut)) e)

theorem rings (h : Fits z s) (r : Rings s t) : Fits z t := fun w => by
  obtain ⟨hr, hq⟩ := h w
  have e := congrArg (fun o : Outer => (o.rcpt, o.mg.queue, o.evOut)) r.base
  simp only [State.base, State.outer, Prod.mk.injEq] at e
  obtain ⟨h1, h2, h3⟩ := e
  exact ⟨r.fits hr, by rwa [h1, h2, h3]⟩

theorem ite {a b : State} {p : Prop} [Decidable p] (h : p → Fits z a) (k : ¬ p → Fits z b) : Fits z (if p then a else b) := by
  split <;> rename_i hp
  · exact h hp
  · exact k hp

theorem log (h : Fits z s) (code tag : W16) (ctx : Option (BitVec 3)) (d : List Byte) : Fits z (s.log code tag ctx d) :=
  h.of_outer (State.log_outer _ _ _ _ _)

theorem cycleLog (h : Fits z s) (t : State) : Fits z (s.cycleLog t) := h.of_outer (State.cycleLog_outer _ _)

theorem modInflight (h : Fits z s) (t : W16) (f : Inflight → Inflight) : Fits z (s.modInflight t f) :=
  h.of_outer (State.modInflight_outer _ _ _)

theorem modFt (h : Fits z s) (f : Faults → Faults) : Fits z (s.modFt f) := h.of_outer (State.modFt_outer _ _)

theorem modPw (h : Fits z s) (f : Power → Power) : Fits z (s.modPw f) := h.of_outer (State.modPw_outer _ _)

theorem modOut (h : Fits z s) (f : Outputs → Outputs) : Fits z (s.modOut f) := h.of_outer (State.modOut_outer _ _)

theorem modTb (h : Fits z s) (f : TimeBase → TimeBase) : Fits z (s.modTb f) := h.same rfl

theorem modTn (h : Fits z s) (f : Tenants → Tenants) : Fits z (s.modTn f) := h.same rfl

theorem withBoot (h : Fits z s) (b : Boot) : Fits z { s with boot := b } := h.same rfl

/-- An update of the management port that leaves its queue no longer than it was. -/
theorem modMg (h : Fits z s) (f : Mgmt → Mgmt) (k : (f s.mg).queue.length ≤ s.mg.queue.length) : Fits z (s.modMg f) := fun w => by
  obtain ⟨h1, h2, h3, h4⟩ := h w
  exact ⟨h1, h2, k.trans h3, h4⟩

/-- An update of the receipts that keeps their sizes. -/
theorem modRcpt (h : Fits z s) (f : Receipts → Receipts) (k : s.prov.rcpt.fits → (f s.prov.rcpt).fits) : Fits z (s.modRcpt f) :=
  fun w => by
    obtain ⟨h1, h2, h3⟩ := h w
    exact ⟨h1, k h2, h3⟩

/-- An update of the keys and the digests. -/
theorem modProv (h : Fits z s) (f : Proving → Proving) (k : (f s.prov).rcpt = s.prov.rcpt) : Fits z (s.modProv f) := fun w => by
  obtain ⟨h1, h2, h3⟩ := h w
  exact ⟨h1, (congrArg Receipts.fits k).mpr h2, h3⟩

/-! ### Receipts and keys -/

theorem length_updateFirst {α : Type} (p : α → Bool) (f : α → α) (xs : List α) : (updateFirst p f xs).length = xs.length := by
  induction xs with
  | nil => rfl
  | cons x xs ih =>
    unfold updateFirst
    split
    · rfl
    · simp [ih]

theorem fits_modEntry {r : Receipts} (h : r.fits) (q : W64) (f : Receipt → Receipt) : (r.modEntry q f).fits := by
  obtain ⟨h1, h2, h3⟩ := h
  exact ⟨by rwa [Receipts.modEntry, length_updateFirst], h2, h3⟩

/-- A receipt whose notice finds room in the queue. -/
theorem fits_notice {r : Receipts} (h : r.fits) (room : r.noticeQ.length < 64) (q : W64) (f : Receipt → Receipt) :
    Receipts.fits { r.modEntry q f with noticeQ := r.noticeQ ++ [q] } := by
  obtain ⟨h1, h2, _⟩ := fits_modEntry h q f
  exact ⟨h1, h2, by simp; omega⟩

theorem fits_queueNotices {r : Receipts} (h : r.fits) (es : List Receipt) : (r.queueNotices es).fits := by
  induction es generalizing r with
  | nil => exact h
  | cons e es ih =>
    unfold Receipts.queueNotices
    split
    · next c =>
      simp only [Bool.and_eq_true, decide_eq_true_eq] at c
      exact ih (fits_notice h c.2 _ _)
    · exact ih h

theorem fits_settled {r : Receipts} (h : r.fits) : r.settled.fits := fits_queueNotices h _

theorem fits_closeWindows {r : Receipts} (h : r.fits) (due : Receipt → Bool) (es : List Receipt) : (r.closeWindows due es).fits := by
  induction es generalizing r with
  | nil => exact h
  | cons e es ih =>
    unfold Receipts.closeWindows
    split
    · next c =>
      simp only [Bool.and_eq_true, decide_eq_true_eq] at c
      exact ih (fits_notice h c.1.2 _ _)
    · exact ih h

theorem drained (h : Fits z s) : Fits z s.drained := by
  unfold State.drained
  split
  · exact ite (fun _ => h.modProv _ rfl) fun _ => h
  · exact h

theorem signatureComplete (h : Fits z s) : Fits z s.signatureComplete := by
  unfold State.signatureComplete
  dsimp only
  split
  · exact h
  · next q qs e =>
    have shorter (w : s.prov.rcpt.fits) : Receipts.fits { s.prov.rcpt with signQ := qs } :=
      ⟨w.1, by have := w.2.1; rw [e] at this; simp at this; dsimp only; omega, w.2.2⟩
    refine ite (fun _ => h) fun _ => ?_
    split
    · exact h.modRcpt _ shorter
    · exact ((h.modRcpt _ fun w => by exact fits_settled (fits_modEntry (shorter w) _ _)).log _ _ _ _).drained

theorem noticeSigned (h : Fits z s) : Fits z s.noticeSigned := by
  unfold State.noticeSigned
  dsimp only
  split
  · exact h
  · next q qs e =>
    have shorter (w : s.prov.rcpt.fits) : Receipts.fits { s.prov.rcpt with noticeQ := qs } :=
      ⟨w.1, w.2.1, by have := w.2.2; rw [e] at this; simp at this; dsimp only; omega⟩
    refine ite (fun _ => h) fun _ => ?_
    split
    · exact h.modRcpt _ shorter
    · next x _ =>
      refine ite (fun _ => h) fun _ => ?_
      split
      · exact (h.modRcpt _ fun w => by exact fits_settled (fits_modEntry (shorter w) _ _)).log _ _ _ _
      · exact (h.modRcpt _ fun w => by exact fits_settled (fits_modEntry (shorter w) _ _)).log _ _ _ _

theorem invalidate (h : Fits z s) (reason : Nat) (p : Receipt → Bool) : Fits z (s.invalidate reason p) :=
  h.modRcpt _ fun w => fits_settled ⟨by simpa using w.1, w.2⟩

theorem expose (h : Fits z s) (e : Gc) (reason : Nat) : Fits z (s.expose e reason) := (h.modRcpt _ fun w => by exact w).invalidate _ _

theorem invalidateAll (h : Fits z s) (reason : Nat) : Fits z (s.invalidateAll reason) :=
  (ite (fun _ => h.modRcpt _ fun w => by exact w) fun _ => h).invalidate _ _

theorem receiptWindowTest (h : Fits z s) : Fits z s.receiptWindowTest :=
  ite (fun _ => h.modRcpt _ fun w => fits_settled (fits_closeWindows w _ _)) fun _ => h

theorem keyGenerated (h : Fits z s) : Fits z s.keyGenerated :=
  ite (fun _ => drained (h.same rfl)) fun _ => h

theorem keyrt (h : Fits z s) : Fits z s.keyrt := by
  unfold State.keyrt
  split
  · refine log ?_ _ _ _ _
    exact h.same rfl
  · exact h

/-- A `SEAL` that does not wait finds room in the store and in the signing queue (R249). -/
theorem sealNow (h : Fits z s) (epoch : W16) (amask : Nat) (rstd : Bool) (room : s.sealWaits = false) :
    Fits z (s.sealNow epoch amask rstd).1 := by
  have ho := s.openRange_outer epoch
  have hr : (s.openRange epoch).prov.rcpt = s.prov.rcpt := congrArg Outer.rcpt ho
  have k := h.of_outer ho
  unfold State.sealNow
  dsimp only
  generalize s.openRange epoch = u at hr k ⊢
  simp only [State.sealWaits, Bool.or_eq_false_iff, decide_eq_false_iff_not, ← hr] at room
  obtain ⟨⟨⟨hq, he⟩, _⟩, _⟩ := room
  have k1 (e : Receipt) (q : W64) := k.modRcpt (fun r => { r with entries := r.entries ++ [e], signQ := r.signQ ++ [q], rseq := q })
    fun w => ⟨by simp; omega, by simp; omega, w.2.2⟩
  have k2 (e : Receipt) (q : W64) := modProv (k1 e q) (fun p => { p with epold := false, epoldCount := 0 }) rfl
  split
  · exact (k2 _ _).of_outer (State.setDigest_outer _ _ _)
  · exact k2 _ _

/-! ### Issue -/

theorem sealWaits_of_outer {s t : State} (h : t.outer = s.outer) : t.sealWaits = s.sealWaits := by
  have e := congrArg (fun o : Outer => (o.rcpt, o.keys)) h
  simp only [State.outer, Prod.mk.injEq] at e
  simp only [State.sealWaits, e]

theorem issueHold_of_decision {s : State} {x : Slot} {m : Cmd} (h : s.decision x = .issue m) : s.issueHold m = none := by
  rw [decision_issue, State.verdict] at h
  grind

/-- A `SEAL` issues only where it finds room (R249). -/
theorem room_of_decision {s : State} {x : Slot} {m : Cmd} (h : s.decision x = .issue m) (ho : m.op = .sealing) : s.sealWaits = false := by
  have k := issueHold_of_decision h
  by_contra hw
  rw [State.issueHold, if_neg (by simp [ho])] at k
  split at k
  · cases k
  · rw [if_pos ⟨ho, Bool.of_not_eq_false hw⟩] at k
    cases k

theorem clearContext (h : Fits z s) : Fits z s.clearContext := h.same rfl

theorem tenantClear (h : Fits z s) : Fits z s.tenantClear := fun w => by
  obtain ⟨⟨h1, h2⟩, h3⟩ := h w
  exact ⟨⟨(List.length_filter_le _ _).trans h1, h2⟩, h3⟩

theorem onIssue (h : Fits z s) (c : Inflight) (m : Cmd) (room : m.op = .sealing → s.sealWaits = false) : Fits z (s.onIssue c m) := by
  unfold State.onIssue
  split
  · exact h.same rfl
  · exact h.modInflight _ _
  · exact h.of_outer (State.mintImage_outer _ _ _)
  · exact h.tenantClear
  · next e => exact (h.sealNow _ _ _ (room e)).modInflight _ _
  · exact h.rings ((Rings.refl s).takeBuffered _ _)
  · exact h

theorem issue (h : Fits z s) (x : Slot) (m : Cmd) (a : Nat) (room : m.op = .sealing → s.sealWaits = false) : Fits z (s.issue x m a) := by
  unfold State.issue
  dsimp only
  generalize hu : State.push _ _ = u
  have e : u.outer = s.outer := by rw [← hu]; simp [State.enter_outer]
  exact onIssue (h.of_outer e) _ _ fun ho => (sealWaits_of_outer e).trans (room ho)

theorem attempt (h : Fits z s) (x : Slot) (a : Nat) (since : Option (Nat × Nat)) (rest : List Waiting) :
    Fits z (s.attempt x a since rest) := by
  unfold State.attempt
  dsimp only
  split
  · exact h.of_outer (by simp)
  · next m e =>
    refine cycleLog (issue (h.of_outer (State.modStream_outer _ _)) _ _ _ fun ho => ?_) _
    exact (sealWaits_of_outer (State.modStream_outer _ _)).trans (room_of_decision e ho)
  · exact h.of_outer (by simp)

theorem issueAfterWait (h : Fits z s) : Fits z s.issueAfterWait := by
  unfold State.issueAfterWait
  refine ite (fun _ => h) fun _ => ?_
  split
  · exact attempt (h.of_outer (State.wakeGated_outer _ _)) _ _ _ _
  · exact h

theorem takeSlot (h : Fits z s) (x : Slot) : Fits z (s.takeSlot x) := by
  have k := h.of_outer (s.receive_outer x)
  exact ite (fun _ => h) fun _ => ite (fun _ => k.attempt _ _ _ _) fun _ => k.of_outer (by simp)

/-! ### The dictionary -/

theorem endBreach (h : Fits z s) : Fits z s.endBreach := by
  unfold State.endBreach
  split
  · exact h
  · refine log ?_ _ _ _ _
    exact h.same rfl

theorem disarm (h : Fits z s) : Fits z s.disarm := by
  have k : Fits z { s with ep := { s.ep with armed := false } } := h.same rfl
  unfold State.disarm
  dsimp only
  split
  · exact k
  · split
    · exact ite (fun _ => k) fun _ => k.of_outer (by simp)
    · exact k

theorem writeRoll (h : Fits z s) (i sub v : Nat) : Fits z (s.writeRoll i sub v) :=
  h.of_outer ((State.rollSetsDue_outer _).trans (State.modEscrow_outer _ _))

theorem odApply (h : Fits z s) (path : Path) (index sub v : Nat) : Fits z (s.odApply path index sub v) := by
  unfold State.odApply
  refine ite (fun _ => h.modProv _ rfl) fun _ => ite (fun _ => ?_) fun _ => ite (fun _ => h.same rfl) fun _ =>
    ite (fun _ => h.modMg _ (by exact le_refl _)) fun _ => ite (fun _ => h.writeRoll _ _ _) fun _ =>
    ite (fun _ => h.of_outer (State.modEscrow_outer _ _)) fun _ => ite (fun _ => h.modPw _) fun _ => ite (fun _ => h.same rfl) fun _ =>
    ite (fun _ => ?_) fun _ => ite (fun _ => h.modMg _ (by exact le_refl _)) fun _ => ite (fun _ => ?_) fun _ =>
    ite (fun _ => ?_) fun _ => h
  · split
    · exact h.same rfl
    · exact h.same rfl
    · exact h.disarm
  · have k : Fits z (s.modTn fun t => t.write sub v) := h.modTn _
    exact ite (fun _ => k.endBreach) fun _ => k
  · exact ite (fun _ => h.modMg _ (by exact le_refl _)) fun _ => h.same rfl
  · exact ite (fun _ => h.modRcpt _ fun w => by exact ⟨(List.length_filter_le _ _).trans w.1, w.2⟩) fun _ =>
      h.modMg _ (by exact le_refl _)

theorem odWrite (h : Fits z s) (path : Path) (index sub : Nat) (v : List Byte) : Fits z (s.odWrite path index sub v).1 := by
  unfold State.odWrite
  dsimp only
  split
  · exact h
  · split
    · exact h.odApply _ _ _ _
    · split
      · exact h.modMg _ (by exact le_refl _)
      · split
        · exact h.log _ _ _ _
        · exact h

theorem odRead (h : Fits z s) (path : Path) (strict : Bool) (index sub : Nat) : Fits z (s.odRead path strict index sub).1 := by
  have k : Fits z (if index = 0x9000 ∧ sub = 1 then s.capture path else s) :=
    ite (fun _ => h.modMg _ (by exact le_refl _)) fun _ => h
  unfold State.odRead
  dsimp only
  split
  · exact h
  · split
    · exact h
    · split
      · exact k
      · exact k

theorem countAccess (h : Fits z s) (abort : W16) : Fits z (s.countAccess abort) := h.modMg _ (by exact le_refl _)

theorem odWriteRow (h : Fits z s) (path : Path) (index sub : Nat) (v : List Byte) : Fits z (s.odWriteRow path index sub v) :=
  ite (fun _ => h) fun _ => ((h.odWrite _ _ _ _).countAccess _).modOut _

theorem statementRead (h : Fits z s) (path : Path) : Fits z (s.statementRead path) :=
  ite (fun _ => h) fun _ => ((h.odRead _ _ _ _).countAccess _).modOut _

/-! ### Retirement -/

theorem cfgOp (h : Fits z s) (c : Inflight) (m : Cmd) : Fits z (s.cfgOp c m) := by
  have done (u : State) (k : Fits z u) (t : W16) (n : Nat) : Fits z ((u.countAccess 0).modInflight t fun c => { c with d0 := 0, d1 := BitVec.ofNat 32 n }) :=
    (k.countAccess 0).modInflight _ _
  have refused (u : State) (k : Fits z u) (e : W16) : Fits z ((u.countAccess e).refuseCfg c e) :=
    (k.countAccess e).of_outer (State.refuseCfg_outer _ _ _)
  unfold State.cfgOp
  dsimp only
  refine ite (fun _ => ?_) fun _ => ?_
  · have k (ws : List Nat) := h.of_outer (s.readOrFail_outer c ws)
    refine ite (fun _ => k _) fun _ => ite (fun _ => done _ ((k _).odWrite _ _ _ _) _ _) fun _ => refused _ ((k _).odWrite _ _ _ _) _
  · have k := h.odRead .tenant c.modes.strict (bitsOf m.chain 15 0) (bitsOf m.chain 23 16)
    exact ite (fun _ => done _ (k.of_outer (State.doWrites_outer _ _ _)) _ _) fun _ => refused _ k _

theorem tenantSwitch (h : Fits z s) (c : Inflight) (m : Cmd) : Fits z (s.tenantSwitch c m) := by
  unfold State.tenantSwitch
  refine modProv (log ?_ _ _ _ _) _ rfl
  exact h.endBreach.modTn _

theorem retireEffect (h : Fits z s) (c : Inflight) (m : Cmd) : Fits z (s.retireEffect c m) := by
  unfold State.retireEffect
  split
  · exact ite (fun _ => h) fun _ => h.of_outer (State.assayOp_outer _ _ _)
  · exact h.of_outer (State.doWrites_outer _ _ _)
  · exact h.of_outer (State.doWrites_outer _ _ _)
  · exact h.cfgOp _ _
  · exact h.tenantSwitch _ _
  · exact h.of_outer (State.lateStores_outer _ _)

theorem commandRetirement (h : Fits z s) : Fits z s.commandRetirement := by
  unfold State.commandRetirement
  dsimp only
  split
  · exact h
  · next c _ _ =>
    refine ite (fun _ => h) fun _ => ite (fun _ => h.of_outer (State.leave_outer _ _ _)) fun _ => ?_
    have k := h.of_outer (s.lastFault_outer c)
    generalize s.lastFault c = u at k ⊢
    refine ite (fun _ => k.of_outer (by simp)) fun _ => ?_
    have k2 (cs : List (Claim × Nat)) := k.of_outer (u.acquireAll_outer cs)
    refine ite (fun _ => k2 _) fun _ => ?_
    exact of_outer (retireEffect ((k2 _).of_outer (State.completeAll_outer _ _)) _ _)
      ((State.leave_outer _ _ _).trans (State.combine_outer _ _ _))

theorem retireIfOldest (h : Fits z s) (tag : W16) : Fits z (s.retireIfOldest tag) := ite (fun _ => h.commandRetirement) fun _ => h

theorem retireNow (h : Fits z s) (tag : W16) : Fits z (s.retireNow tag) :=
  retireIfOldest (of_outer (h.modInflight _ _) (State.endHolds_outer _ _)) _

theorem curveInstall (h : Fits z s) : Fits z s.curveInstall := by
  unfold State.curveInstall
  dsimp only
  split
  · exact h
  · exact ite (fun _ => h) fun _ => retireNow (h.of_outer (by simp)) _

theorem curveSlotInvalidate (h : Fits z s) : Fits z s.curveSlotInvalidate := by
  unfold State.curveSlotInvalidate
  dsimp only
  split
  · exact h
  · exact ite (fun _ => h) fun _ => retireNow (h.of_outer (by simp)) _

theorem waitgcRelease (h : Fits z s) : Fits z s.waitgcRelease := by
  unfold State.waitgcRelease
  dsimp only
  split
  · exact h
  · refine ite (fun _ => h) fun _ => retireIfOldest (ite (fun _ => ?_) fun _ => h.modInflight _ _) _
    exact of_outer (log (h.modInflight _ _) _ _ _ _) (State.noteEpoch_outer _ _ _)

theorem scratchpadClearDone (h : Fits z s) (failed : List Nat) : Fits z (s.scratchpadClearDone failed) := by
  unfold State.scratchpadClearDone
  dsimp only
  split
  · exact h
  · refine ite (fun _ => h) fun _ => ?_
    generalize hu : State.logClear _ _ = u
    have k : Fits z u := h.of_outer (by rw [← hu]; simp)
    split
    · exact k.withBoot _
    · split
      · exact k
      · exact k.modInflight _ _

/-! ### Time and power -/

theorem tsync (h : Fits z s) (count : Gc) : Fits z (s.tsync count) := by
  unfold State.tsync
  exact ite (fun _ => h.same rfl) fun _ => h.same rfl

theorem pulse (h : Fits z s) (count : Gc) : Fits z (s.pulse count) := by
  have note (u : State) (k : Fits z u) (code tag : W16) (ctx : Option (BitVec 3)) (d : List Byte) (f : Summary → Summary) :
      Fits z ((u.log code tag ctx d).note f) := (k.log _ _ _ _).of_outer (State.note_outer _ _)
  unfold State.pulse
  dsimp only
  refine ite (fun _ => modTb (ite (fun _ => h) fun _ => note _ (h.modTb _) _ _ _ _ _) _) fun _ => modTb ?_ _
  exact ite (fun _ => h) fun _ => ite (fun _ => h.modTb _) fun _ => note _ (h.modTb _) _ _ _ _ _

theorem syncPulse (h : Fits z s) (count : Gc) : Fits z (s.syncPulse count) := by
  unfold State.syncPulse
  dsimp only
  generalize hu : s.modTb _ = u
  have k : Fits z u := h.same (hu ▸ rfl)
  have k2 : Fits z (if u.tb.state ≠ .notAligned then u.pulse count
      else if u.boot = .tsync ∨ u.boot = .warmTsync then u.tsync count
      else u.modTb fun t => { t with v := if t.v.toNat < count.toNat then count else t.v }) :=
    ite (fun _ => k.pulse _) fun _ => ite (fun _ => k.tsync _) fun _ => k.modTb _
  exact ite (fun _ => k2.rings (((Rings.refl _).linkUp .cluster).linkUp .die)) fun _ => k2

theorem epochSwitch (h : Fits z s) : Fits z s.epochSwitch := by
  unfold State.epochSwitch
  refine ite (fun _ => h) fun _ => of_outer ?_ (State.receiveWaiting_outer _)
  exact h.same rfl

theorem setIssue (h : Fits z s) : Fits z s.setIssue := by
  unfold State.setIssue
  dsimp only
  generalize hu : State.modTn _ _ = u
  have k : Fits z u := h.same (hu ▸ rfl)
  refine ite (fun _ => k.endBreach) fun _ => ?_
  split
  · exact k.of_outer (State.startBreach_outer _ _ _)
  · exact k.modPw _

theorem telemetrySample (h : Fits z s) (t0 t1 : W16) (l : BitVec 3) : Fits z (s.telemetrySample t0 t1 l) := by
  unfold State.telemetrySample
  dsimp only
  refine ite (fun _ => h) fun _ => setIssue ?_
  generalize hu : State.setThermal _ = u
  have k : Fits z u := by
    rw [← hu]
    refine of_outer ?_ ((State.setThermal_outer _).trans (State.readSensors_outer _ _ _))
    exact ite (fun _ => h.modPw _) fun _ => (h.modPw _).modPw _
  refine of_outer ?_ ((State.setHalt_outer _ _).trans (State.setBase_outer _))
  exact k.same rfl

theorem laneGroupPowerStep (h : Fits z s) : Fits z s.laneGroupPowerStep := by
  unfold State.laneGroupPowerStep
  dsimp only
  split
  · exact h
  · exact ite (fun _ => h) fun _ => ite (fun _ => h.modPw _) fun _ => (h.modPw _).withBoot _

/-! ### Faults -/

theorem unitLoss (h : Fits z s) (cause : Byte) : Fits z (s.unitLoss cause) := by
  unfold State.unitLoss
  exact ite (fun _ => h) fun _ => (((h.log _ _ _ _).modFt _).of_outer (State.modStream_outer _ _)).invalidateAll _

theorem replay (h : Fits z s) (tag : W16) (group lane : Nat) (logged : Bool) : Fits z (s.replay tag group lane logged) :=
  h.of_outer (State.replay_outer _ _ _ _ _)

theorem sharedResidue (h : Fits z s) (cause : Byte) : Fits z (s.sharedResidue cause) := by
  have k := h.of_outer s.countResidue_outer
  unfold State.sharedResidue
  dsimp only
  split
  · exact h
  · exact ite (fun _ => k.unitLoss _) fun _ => (k.replay _ _ _ _).modFt _

theorem mergeResidue (h : Fits z s) (tag : W16) : Fits z (s.mergeResidue tag) := by
  have k := h.of_outer s.countResidue_outer
  unfold State.mergeResidue
  dsimp only
  split
  · exact h
  · refine ite (fun _ => h) fun _ => ite (fun _ => k.unitLoss _) fun _ => ite (fun _ => k.of_outer (State.failFaild_outer _ _ _)) fun _ => ?_
    exact k.of_outer (by simp)

theorem residueMismatch (h : Fits z s) (site : ResidueSite) : Fits z (s.residueMismatch site) := by
  unfold State.residueMismatch
  refine ite (fun _ => h) fun _ => ?_
  split
  · exact ite (fun _ => h.of_outer (by simp)) fun _ => h
  · exact h.sharedResidue _
  · exact h.sharedResidue _
  · exact h.mergeResidue _

theorem checkerMismatch (h : Fits z s) (g : BitVec 3) : Fits z (s.checkerMismatch g) := by
  unfold State.checkerMismatch
  exact ite (fun _ => h) fun _ => expose (h.of_outer (by simp)) _ _

theorem loseGroup (h : Fits z s) (g : Nat) (cause logCause : Byte) : Fits z (s.loseGroup g cause logCause) :=
  ite (fun _ => h.unitLoss _) fun _ => h.of_outer (by simp)

theorem laneOutcome (h : Fits z s) (x : Suspect) (a b : Bool) : Fits z (s.laneOutcome x a b).1 := by
  have logged (l o : Nat) := h.of_outer (s.logLane_outer x l o)
  have spare (u : State) (k : Fits z u) (r : Nat) (c : Byte) : Fits z (u.takeSpare x r c) := k.of_outer (State.takeSpare_outer _ _ _ _)
  unfold State.laneOutcome
  dsimp only
  split
  · exact h
  · split
    · split
      · exact spare _ (logged _ _) _ _
      · exact (logged _ _).loseGroup _ _ _
    · split
      · exact h.of_outer (by simp)
      · split
        · split
          · exact spare _ (logged _ _) _ _
          · exact (logged _ _).loseGroup _ _ _
        · exact logged _ _

theorem laneTestComplete (h : Fits z s) (a b : Bool) : Fits z (s.laneTestComplete a b) := by
  unfold State.laneTestComplete
  dsimp only
  split
  · exact h
  · split
    · exact h
    · next x _ _ =>
      have k := h.laneOutcome x a b
      refine ite (fun _ => h) fun _ => ite (fun _ => k) fun _ => ite (fun _ => ?_) fun _ => k.modFt _
      split
      · exact (k.modFt _).replay _ _ _ _
      · exact k.modFt _

theorem romFault (h : Fits z s) (rom kind : Nat) : Fits z (s.romFault rom kind) := by
  have k : Fits z (if rom = 8 ∨ s.ft.otherLost rom then s
      else (s.modGroup rom fun x => { x with st := .disabled, cause := 3 }).log cLGNAR noTag none [BitVec.ofNat 8 rom, 1]) :=
    ite (fun _ => h) fun _ => h.of_outer (by simp)
  have k2 := (k.of_outer (State.logRom_outer _ rom kind)).expose
  unfold State.romFault
  exact ite (fun _ => (k2 _ _).unitLoss _) fun _ => k2 _ _

theorem tableRomParity (h : Fits z s) (rom : Nat) : Fits z (s.tableRomParity rom) := by
  have k := (h.modFt fun f => { f with parity := satAdd f.parity 1 }).romFault rom 0
  unfold State.tableRomParity
  dsimp only
  refine ite (fun _ => h) fun _ => ?_
  split
  · exact ite (fun _ => k) fun _ => k.replay _ _ _ _
  · exact k

theorem romScanPass (h : Fits z s) (mismatch : Option Nat) : Fits z (s.romScanPass mismatch) := by
  unfold State.romScanPass
  refine ite (fun _ => h) fun _ => ?_
  split
  · exact h.modFt _
  · exact ite (fun _ => h) fun _ => (h.modFt _).romFault _ _

theorem lockstepMismatch (h : Fits z s) (signals : W32) : Fits z (s.lockstepMismatch signals) :=
  ite (fun _ => h) fun _ => ((h.modFt _).log _ _ _ _).unitLoss _

/-! ### The management port and the event rings -/

theorem modPartner (h : Fits z s) (eid : Option Byte) (f : Partner → Partner) : Fits z (s.modPartner eid f) :=
  h.modMg _ (by exact le_refl _)

theorem violation (h : Fits z s) (eid : Option Byte) (tid code : W16) : Fits z (s.violation eid tid code) := by
  unfold State.violation
  dsimp only
  have k (p : Partner → Partner) := ((h.modMg (fun m => { m with violations := satAdd m.violations 1 }) (le_refl _)).log cODABT noTag none
    (partnerDetail eid ++ leBytes 2 tid.toNat ++ leBytes 2 code.toNat)).modPartner eid p
  exact ite (fun _ => (k _).log _ _ _ _) fun _ => k _

theorem serveRead (h : Fits z s) (eid : Option Byte) (q : Request) : Fits z (s.serveRead eid q).1 := by
  unfold State.serveRead
  dsimp only
  split
  · have k := h.odRead (partnerPath eid) s.ep.cur.strict q.index.toNat q.sub.toNat
    split <;> exact k.modPartner _ _
  · split
    · exact h
    · split
      · split
        · exact h
        · exact h.modPartner _ _
      · split
        · exact h
        · exact h.modPartner _ _

theorem applyWrite (h : Fits z s) (eid : Option Byte) (q : Request) (bytes : List Byte) (total : Nat) (one : Bool) :
    Fits z (s.applyWrite eid q bytes total one).1 := h.odWrite _ _ _ _

theorem serveWrite (h : Fits z s) (eid : Option Byte) (q : Request) : Fits z (s.serveWrite eid q).1 := by
  unfold State.serveWrite
  dsimp only
  split
  · split
    · exact ((h.modPartner _ _).modPartner _ _).applyWrite _ _ _ _ _
    · exact h.modPartner _ _
  · split
    · exact h
    · split
      · exact (h.modPartner _ _).applyWrite _ _ _ _ _
      · exact h.modPartner _ _

theorem serve (h : Fits z s) (eid : Option Byte) (frame : List Byte) : Fits z (s.serve eid frame).1 := by
  unfold State.serve
  dsimp only
  split
  · exact h.countAccess _
  · split
    · exact h.modMg _ (by exact le_refl _)
    · split
      · exact (h.countAccess _).violation _ _ _
      · generalize Request.ofBytes (padTo 72 frame) = q
        have k : Fits z (if q.op = 1 then s.serveRead eid q else if q.op = 2 then s.serveWrite eid q
            else (s.modPartner eid fun p => p.close q.tid, 0, q.done)).1 := by
          split
          · exact h.serveRead _ _
          · split
            · exact h.serveWrite _ _
            · exact h.modPartner _ _
        exact ite (fun _ => (k.countAccess _).violation _ _ _) fun _ => k.countAccess _

theorem answerFrame (h : Fits z s) (eid : Byte) (frame : List Byte) : Fits z (s.answerFrame eid frame) := (h.serve _ _).modOut _

theorem answerDriver (h : Fits z s) (frame : List Byte) : Fits z (s.answerDriver frame) :=
  modOut (modMg (h.serve _ _) _ (by exact le_refl _)) _

/-- A frame waits only where the queue of 8 has room (R353). -/
theorem frame (h : Fits z s) (eid : Byte) (f : List Byte) : Fits z (s.frame eid f) := by
  unfold State.frame
  refine ite (fun _ => h) fun _ => ite (fun _ => (h.modMg _ (by exact le_refl _)).answerFrame _ _) fun _ => ite (fun room => ?_) fun _ => ?_
  · intro w
    obtain ⟨h1, h2, h3, h4⟩ := h w
    exact ⟨h1, h2, by simp [State.modMg]; omega, h4⟩
  · exact modOut (h.modMg _ (by exact le_refl _)) _

theorem discardWrite (h : Fits z s) : Fits z s.discardWrite := violation (h.modMg _ (by exact le_refl _)) _ _ _

theorem doorbell (h : Fits z s) (v : W32) : Fits z (s.doorbell v) :=
  ite (fun _ => h) fun _ => ite (fun _ => h.discardWrite) fun _ => ite (fun _ => h) fun _ => h.modMg _ (by exact le_refl _)

theorem release (h : Fits z s) (v : W32) : Fits z (s.release v) := ite (fun _ => h.modMg _ (by exact le_refl _)) fun _ => h

theorem driverWindowWrite (h : Fits z s) (o : BitVec 10) (v : W32) : Fits z (s.driverWindowWrite o v) :=
  ite (fun _ => h) fun _ => ite (fun _ => h.discardWrite) fun _ => h.modMg _ (by exact le_refl _)

theorem transactionTimeout (h : Fits z s) : Fits z s.transactionTimeout := h.modMg _ (by exact le_refl _)

theorem rateWindow (h : Fits z s) : Fits z s.rateWindow := ite (fun _ => h) fun _ => h.modMg _ (by exact le_refl _)

/-- An event is posted only where fewer than 16 writes stand open (R431). -/
theorem eventPost (h : Fits z s) : Fits z s.eventPost := by
  unfold State.eventPost
  dsimp only
  split
  · exact h
  · refine ite (fun _ => h) fun room => ite (fun _ => h.same rfl) fun _ => modOut ?_ _
    intro w
    obtain ⟨h1, h2, h3, h4⟩ := h w
    exact ⟨h1, h2, h3, by simp only [not_or] at room; simp [State.modRing]; omega⟩

theorem eventWriteDone (h : Fits z s) (failed : Bool) : Fits z (s.eventWriteDone failed) := by
  unfold State.eventWriteDone
  split
  · exact h
  · next e =>
    intro w
    obtain ⟨h1, h2, h3, h4⟩ := h w
    rw [e] at h4
    exact ⟨h1, h2, h3, by simp at h4; simp [State.modRing]; omega⟩

/-! ### Resets and start-up -/

theorem coldReset (s : State) : Fits s s.coldReset := fun _ => by
  simp [State.fitting, State.ringsFit, Receipts.fits, Link.fits, State.coldReset, State.cold, Link.default]

theorem offlineQuietly (h : Fits z s) : Fits z s.offlineQuietly := h.same rfl

theorem otpLoad (h : Fits z s) (straps : Straps) : Fits z (s.otpLoad straps) := by
  unfold State.otpLoad
  dsimp only
  refine ite (fun _ => h) fun _ => ?_
  generalize hu : State.modLink _ .die _ = u
  have k : Fits z u := by
    rw [← hu]
    refine rings ?_ (((Rings.refl _).modLink .cluster _ fun _ w => by exact w).modLink .die _ fun _ w => by exact w)
    exact ite (fun _ => offlineQuietly (h.same rfl)) fun _ => h.same rfl
  exact ite (fun _ => k.withBoot _) fun _ => (k.withBoot _).modPw _

theorem zeroFill (h : Fits z s) : Fits z s.zeroFill := by
  have k := h.of_outer (s.clearScratchpad_outer [])
  unfold State.zeroFill
  generalize s.clearScratchpad [] = u at k ⊢
  intro w
  obtain ⟨⟨_, h1⟩, h2⟩ := k w
  exact ⟨⟨Nat.zero_le _, h1⟩, h2⟩

theorem mbist (h : Fits z s) (r : MbistReport) : Fits z (s.mbist r) := by
  have k (ws : List Nat) := (h.zeroFill.of_outer (State.poisonWords_outer _ ws)).modFt fun f => { f with tillFail := r.lanes }
  unfold State.mbist
  dsimp only
  refine ite (fun _ => h) fun _ => withBoot ?_ _
  split
  · exact (k _).unitLoss _
  · exact k _

theorem startLoss (h : Fits z s) (g : Nat) (a b : Byte) : Fits z (s.startLoss g a b) := ite (fun _ => h) fun _ => h.loseGroup _ _ _

theorem romFailures (h : Fits z s) (rs : List Nat) : Fits z (s.romFailures rs) := by
  induction rs generalizing s with
  | nil => exact h
  | cons r rs ih => exact ih (ite (fun _ => h.startLoss _ _ _) fun _ => ite (fun _ => h.unitLoss _) fun _ => h)

theorem romCheck (h : Fits z s) (failed : List Nat) : Fits z (s.romCheck failed) := by
  unfold State.romCheck
  dsimp only
  have k := h.romFailures failed
  refine ite (fun _ => h) fun _ => withBoot ?_ _
  have k2 : Fits z (if failed.isEmpty then (s.romFailures failed).modFt fun f =>
      { f with romGc := (s.romFailures failed).gc, romPasses := satAdd f.romPasses 1 } else s.romFailures failed) :=
    ite (fun _ => k.modFt _) fun _ => k
  exact ite (fun _ => k2.modFt _) fun _ => k2

theorem testGroup (h : Fits z s) (failed : List (Nat × Nat)) (g : Nat) : Fits z (s.testGroup failed g) := by
  unfold State.testGroup
  dsimp only
  split
  · exact h
  · exact ite (fun _ => h) fun _ => h.loseGroup _ _ _
  · split
    · exact h.of_outer (by simp)
    · exact ite (fun _ => h.loseGroup _ _ _) fun _ => h.of_outer (by simp)
    · exact h.loseGroup _ _ _

theorem testGroups (h : Fits z s) (failed : List (Nat × Nat)) (gs : List Nat) : Fits z (s.testGroups failed gs) := by
  induction gs generalizing s with
  | nil => exact h
  | cons g gs ih => exact ih (h.testGroup _ _)

theorem laneSelfTest (h : Fits z s) (failed : List (Nat × Nat)) : Fits z (s.laneSelfTest failed) := by
  unfold State.laneSelfTest
  exact ite (fun _ => h) fun _ => withBoot (modFt (h.testGroups _ _) _) _

theorem keyGeneration (h : Fits z s) : Fits z s.keyGeneration := by
  unfold State.keyGeneration
  exact ite (fun _ => h) fun _ => h.same rfl

theorem keyGenerationTimeout (h : Fits z s) : Fits z s.keyGenerationTimeout := by
  unfold State.keyGenerationTimeout
  exact ite (fun _ => h) fun _ => h.same rfl

theorem warmReset (h : Fits z s) : Fits z s.warmReset := by
  unfold State.warmReset
  refine ite (fun _ => h) fun _ => invalidateAll ?_ _
  exact h.clearContext.same rfl

theorem warmStart (h : Fits z s) (straps : Straps) : Fits z (s.warmStart straps) := by
  unfold State.warmStart
  dsimp only
  refine ite (fun _ => h) fun _ => ?_
  split <;> exact h.same rfl

theorem ijtagAccess (h : Fits z s) (i : Instrument) : Fits z (s.ijtagAccess i) := by
  have k : Fits z { s with fixed := { s.fixed with ir := 0x10 } } := h.same rfl
  unfold State.ijtagAccess
  dsimp only
  refine ite (fun _ => k) fun _ => ?_
  split
  · exact ite (fun _ => k.same rfl) fun _ => k
  · exact k.same rfl
  · exact k.same rfl
  · exact k.zeroFill.same rfl
  · refine of_outer ?_ (State.testWrite_outer _ _ _)
    exact h.same rfl
  · exact k.same rfl

/-! ### Every command, and a cycle -/

theorem nextRequest (h : Fits z s) : Fits z s.nextRequest := by
  unfold State.nextRequest
  split
  · next e => exact answerFrame (h.modMg _ (by rw [e]; exact Nat.le_succ _)) _ _
  · next e => exact answerDriver (h.modMg _ (by exact le_refl _)) _
  · exact h.modMg _ (by exact le_refl _)

theorem tick (s : State) : Fits s s.tick := by
  unfold State.tick
  dsimp only
  refine nextRequest (of_outer (rings ?_ (Rings.refl _).ringCycle) (State.rollSetsDue_outer _))
  generalize hu : State.modTb _ _ = u
  have k : Fits s u := hu ▸ modTb ((refl s).of_outer (State.countCycles_outer _ _)) _
  exact ite (fun _ => k) fun _ => k.modFt _

end Fits

/-- Every command keeps the sizes of the queues. -/
theorem exec_fits (c : Instr) (s t : State) (h : exec c s = .next t) : Fits s t := by
  have r := Fits.refl s
  have g := Rings.refl s
  cases c
  case fclkChange mhz =>
    simp only [exec, execFclkChange] at h
    split at h
    · exact Host.Outcome.next.inj h ▸ r.modTb _
    · cases h
  all_goals
    obtain rfl := Host.Outcome.next.inj h
  case fn | cvt | red | scan | sel | smxa | smxn | aresScore | aresRescale | aresFinal | normWhole | normSum1 | normSum2 | normApply |
    xentStats | xentGrad | rope | optAdamw | optMomentumSgd | merge | settle | mint | fnsync | rollset | setlen | assayOpen | assayClose |
    assayRead | assayFold | assayAmread | assayAmclr | sealing | cfgRead | cfgWrite | waitgc | stmt | tenant |
    reservedOpcode => exact r.takeSlot _
  case issueAfterWait => exact r.issueAfterWait
  case escrowWatchdog tag => exact r.rings (g.escrowWatchdog tag)
  case commandRetirement => exact r.commandRetirement.cycleLog _
  case curveInstall => exact r.curveInstall
  case curveSlotInvalidate => exact r.curveSlotInvalidate
  case scratchpadClearDone failed => exact r.scratchpadClearDone failed
  case partSend tag row => exact (r.rings (g.partSend tag row)).cycleLog _
  case flitReceive c f => exact (r.rings (g.flitReceive c f)).cycleLog _
  case ackReceive c w => exact r.rings (g.ackReceive c w)
  case ackTimeout c => exact r.rings (g.ackTimeout c)
  case settlementBufferTimeout => exact r.rings g.settlementBufferTimeout
  case syncPulse count => exact (r.syncPulse count).cycleLog _
  case syncPulseMissing => exact Fits.ite (fun _ => r) fun _ => r.modTb _
  case epochSwitch => exact r.epochSwitch
  case waitgcRelease => exact r.waitgcRelease
  case telemetrySample t0 t1 l => exact (r.telemetrySample t0 t1 l).cycleLog _
  case receiptWindowTest => exact r.receiptWindowTest
  case laneGroupPowerStep => exact r.laneGroupPowerStep
  case residueMismatch site => exact r.residueMismatch site
  case checkerMismatch g => exact r.checkerMismatch g
  case laneTestComplete a b => exact (r.laneTestComplete a b).cycleLog _
  case tableRomParity rom => exact (r.tableRomParity rom).cycleLog _
  case romScanPass m => exact (r.romScanPass m).cycleLog _
  case lockstepMismatch signals => exact r.lockstepMismatch signals
  case signatureComplete => exact r.signatureComplete
  case noticeSigned => exact r.noticeSigned
  case frameRead e f => exact r.frame e f
  case frameWrite e f => exact r.frame e f
  case frameCancel e f => exact r.frame e f
  case transactionTimeout => exact r.transactionTimeout
  case rateWindow => exact r.rateWindow
  case doorbell v => exact r.doorbell v
  case release v => exact r.release v
  case driverWindowWrite o v => exact r.driverWindowWrite o v
  case odWrite p i sub v => exact r.odWriteRow p i.toNat sub.toNat v
  case switchGcWrite p v => exact r.odWriteRow p 0x3010 2 v
  case disarm p v => exact r.odWriteRow p 0x3010 6 v
  case rotate p v => exact r.odWriteRow p 0x1103 1 v
  case keyGenerated => exact r.keyGenerated
  case keyrt => exact r.keyrt
  case receiptRelease p v => exact r.odWriteRow p 0x8200 2 v
  case rollRecordWrite p i sub v => exact r.odWriteRow p _ _ v
  case counterClear p v => exact r.odWriteRow p _ _ v
  case eventRingEnable p v => exact r.odWriteRow p _ _ v
  case statementRead p => exact r.statementRead p
  case eventPost => exact r.eventPost
  case eventWriteDone failed => exact r.eventWriteDone failed
  case coldReset => exact Fits.coldReset s
  case otpLoad straps => exact r.otpLoad straps
  case mbist report => exact (r.mbist report).cycleLog _
  case romCheck failed => exact (r.romCheck failed).cycleLog _
  case laneSelfTest failed => exact (r.laneSelfTest failed).cycleLog _
  case keyGeneration => exact r.keyGeneration
  case keyGenerationTimeout => exact r.keyGenerationTimeout
  case warmReset => exact r.warmReset
  case warmStart straps => exact r.warmStart straps
  case testLogicReset => exact r.same rfl
  case idcode => exact r.same rfl
  case bypass ir => exact Fits.ite (fun _ => r) fun _ => r.same rfl
  case ijtagAccess i => exact r.ijtagAccess i
  case frozenStateExit => exact Fits.ite (fun _ => r.modTb _) fun _ => r
  case slotDropped => exact r.of_outer s.slotDropped_outer
  case beatReadStart => exact Fits.cycleLog (r.of_outer s.beatReadStart_outer) _
  case beatWriteComplete => exact Fits.cycleLog (r.of_outer s.beatWriteComplete_outer) _
  case hardCaseResolution => exact Fits.cycleLog (r.of_outer s.hardCaseResolution_outer) _
  case rowResult => exact Fits.cycleLog (r.of_outer s.rowResult_outer) _
  case rollSetEffect => exact r.of_outer s.rollSetEffect_outer
  case accPresentation beat => exact r.of_outer (s.accPresentation_outer beat)
  case escrowDeclaration tag engine boxes claims => exact r.of_outer (s.escrowDeclaration_outer tag engine boxes claims)
  case grant tag => exact r.of_outer (s.grant_outer tag)
  case retirementReport tag => exact r.of_outer (s.retirementReport_outer tag)
  case rollAcquire | rollPublish | rollRelease => exact r.of_outer (State.rollReport_outer ..)
  case rollWatchdog tag => exact r.of_outer (s.rollWatchdog_outer tag)
  case wAccess => exact Fits.cycleLog (r.of_outer (State.wAccess_outer ..)) _
  case nAccess => exact r.of_outer (State.nAccess_outer ..)
  case guardedNRequest => exact r.of_outer s.guardedNRequest_outer
  case forcedScrubSteal => exact Fits.cycleLog (r.of_outer s.forcedScrubSteal_outer) _
  case idleScrub => exact Fits.cycleLog (r.of_outer (State.idleScrub_outer ..)) _
  case correctionWriteback => exact r.of_outer s.correctionWriteback_outer
  case checkerRotationStep => exact r.of_outer s.checkerRotationStep_outer
  case idleTimeout => exact r.of_outer s.idleTimeout_outer
  case pwGrant => exact r.of_outer s.pwGrant_outer
  case powerDownStep => exact r.of_outer s.powerDownStep_outer

/-- Settles O6: a payload, flit, receipt, notice, request or event write joins a queue only where a test has found room for it. -/
theorem everyStepKeepsQueueSizes : Obligations.EveryStepKeepsQueueSizes := by
  unfold Obligations.EveryStepKeepsQueueSizes
  intro s t hb hs
  rw [State.bounded_iff] at hb ⊢
  unfold step at hs
  split at hs
  · exact Host.Outcome.next.inj hs ▸ Fits.tick s hb
  · exact exec_fits _ _ _ hs hb

end Sys2Proof.Machine
end

section
/-! A unit whose FCLK stands, or that takes no slot. -/
namespace Sys2Proof.Machine
open Sys2Proof Sys2Proof.Claims

/-- FCLK stands in thermal halt (R379). -/
structure Stands (s : State) : Prop where
  fclk : s.fclkRuns = false
  running : s.running = false
  rings : s.ringWorks = false
  checks : s.checksRun = false
  lanes : s.lanesChecked = false
  port : s.portReady = false
  esc : s.escReady = false

theorem stands_of_halt {s : State} (h : s.pw.state = .halt) : Stands s where
  fclk := by simp [State.fclkRuns, h]
  running := by simp [State.running, State.fclkRuns, h]
  rings := by simp [State.ringWorks, State.fclkRuns, h]
  checks := by simp [State.checksRun, h]
  lanes := by simp [State.lanesChecked, State.running, State.fclkRuns, h]
  port := by simp [State.portReady, State.running, State.fclkRuns, h]
  esc := by simp [State.escReady, State.running, State.fclkRuns, h]

theorem takeSlot_notReady (s : State) (x : Slot) (h : s.cmdReady = false) : s.takeSlot x = s := by
  rw [State.takeSlot, h, Bool.not_false, if_pos rfl]

theorem slotDropped_notReady (s : State) (h : s.cmdReady = false) : s.slotDropped = s := by
  rw [State.slotDropped, h, if_neg (by decide)]

/-- CMD_READY is low in a unit that has not started, is halted, or has a slot that waits (R423). -/
theorem cmdReady_low {s : State} (h : s.boot ≠ .ready ∨ s.pw.state = .halt ∨ ∃ x a y, Waiting.unit x a y ∈ s.stream.waiting) :
    s.cmdReady = false := by
  rcases h with h | h | ⟨x, a, y, h⟩
  · simp [State.cmdReady, State.running, h]
  · simp [State.cmdReady, (stands_of_halt h).running]
  · have : s.waitingSlot.isSome := by
      rw [State.waitingSlot, List.findSome?_isSome_iff]
      exact ⟨_, h, rfl⟩
    cases hw : s.waitingSlot
    · simp [hw] at this
    · simp [State.cmdReady, hw]

section
variable {s : State} (h : Stands s)
include h

theorem Stands.cmdReady : s.cmdReady = false := by simp [State.cmdReady, h.running]

theorem Stands.issueAfterWait : s.issueAfterWait = s := by
  simp [State.issueAfterWait, h.running]

theorem Stands.beatReadStart : s.beatReadStart = s := by
  unfold State.beatReadStart
  split <;> simp [h.running]

theorem Stands.beatWriteComplete : s.beatWriteComplete = s := by
  unfold State.beatWriteComplete
  split <;> simp [h.running]

theorem Stands.hardCaseResolution : s.hardCaseResolution = s := by
  unfold State.hardCaseResolution
  split <;> simp [h.running]

theorem Stands.rowResult : s.rowResult = s := by
  unfold State.rowResult
  split <;> simp [h.running]

theorem Stands.commandRetirement : s.commandRetirement = s := by
  unfold State.commandRetirement
  split <;> simp [h.running]

theorem Stands.curveInstall : s.curveInstall = s := by
  unfold State.curveInstall
  split <;> simp [h.running]

theorem Stands.curveSlotInvalidate : s.curveSlotInvalidate = s := by
  unfold State.curveSlotInvalidate
  split <;> simp [h.running]

theorem Stands.rollSetEffect : s.rollSetEffect = s := by
  unfold State.rollSetEffect
  split <;> simp [h.running]

theorem Stands.guardedNRequest : s.guardedNRequest = s := by
  unfold State.guardedNRequest
  split <;> simp [h.running]

theorem Stands.correctionWriteback : s.correctionWriteback = s := by
  unfold State.correctionWriteback
  split <;> simp [h.port]

theorem Stands.epochSwitch : s.epochSwitch = s := by
  simp [State.epochSwitch, State.switches, h.running]

theorem Stands.waitgcRelease : s.waitgcRelease = s := by
  unfold State.waitgcRelease
  split <;> simp [h.running]

theorem Stands.idleTimeout : s.idleTimeout = s := by
  simp [State.idleTimeout, h.running]

theorem Stands.laneGroupPowerStep : s.laneGroupPowerStep = s := by
  unfold State.laneGroupPowerStep
  split <;> simp [h.fclk]

theorem Stands.settlementBufferTimeout : s.settlementBufferTimeout = s := by
  simp [State.settlementBufferTimeout, h.rings]

theorem Stands.receiptWindowTest : s.receiptWindowTest = s := by
  simp [State.receiptWindowTest, h.checks]

theorem Stands.accPresentation (beat : List (Option W32)) : s.accPresentation beat = s := by
  unfold State.accPresentation
  split <;> simp [h.running]

theorem Stands.partSend (tag row : W16) : s.partSend tag row = s := by
  simp [State.partSend, h.running]

theorem Stands.escrowWatchdog (tag : W16) : s.escrowWatchdog tag = s := by
  simp [State.escrowWatchdog, h.running]

theorem Stands.rollWatchdog (tag : W16) : s.rollWatchdog tag = s := by
  unfold State.rollWatchdog
  dsimp only
  split <;> simp [h.running]

theorem Stands.scratchpadClearDone (failed : List Nat) : s.scratchpadClearDone failed = s := by
  unfold State.scratchpadClearDone
  split <;> simp [h.fclk]

theorem Stands.idleScrub (bank : Nat) : s.idleScrub bank = s := by
  simp [State.idleScrub, h.port]

theorem Stands.wAccess (write : Bool) (line : Nat) (tag : W16) (data : List Byte) : s.wAccess write line tag data = s := by
  simp [State.wAccess, h.port]

theorem Stands.nAccess (write : Bool) (word : BitVec 24) (be : Byte) (data : W64) : s.nAccess write word be data = s := by
  simp [State.nAccess, h.running, h.port]

theorem Stands.escrowDeclaration (tag : W16) (engine : BitVec 3) (boxes : List BoxOp) (claims : List ClaimOp) : s.escrowDeclaration tag engine boxes claims = s := by
  simp [State.escrowDeclaration, h.esc]

theorem Stands.grant (tag : W16) : s.grant tag = s := by
  simp [State.grant, h.running]

theorem Stands.retirementReport (tag : W16) : s.retirementReport tag = s := by
  simp [State.retirementReport, h.running]

theorem Stands.rollAcquire (tag : W16) (roll : BitVec 4) (seq : W32) : s.rollAcquire tag roll seq = s := by
  simp [State.rollAcquire, h.esc]

theorem Stands.rollPublish (tag : W16) (roll : BitVec 4) (seq : W32) : s.rollPublish tag roll seq = s := by
  simp [State.rollPublish, h.esc]

theorem Stands.rollRelease (tag : W16) (roll : BitVec 4) (seq : W32) : s.rollRelease tag roll seq = s := by
  simp [State.rollRelease, h.esc]

theorem Stands.flitReceive (c : Scope) (flit : List Byte) : s.flitReceive c flit = s := by
  simp [State.flitReceive, h.rings]

theorem Stands.ackReceive (c : Scope) (word : W16) : s.ackReceive c word = s := by
  simp [State.ackReceive, h.rings]

theorem Stands.ackTimeout (c : Scope) : s.ackTimeout c = s := by
  simp [State.ackTimeout, h.rings]

theorem Stands.residueMismatch (site : ResidueSite) : s.residueMismatch site = s := by
  simp [State.residueMismatch, h.lanes]

theorem Stands.checkerMismatch (g : BitVec 3) : s.checkerMismatch g = s := by
  simp [State.checkerMismatch, h.lanes]

theorem Stands.laneTestComplete (lane checker : Bool) : s.laneTestComplete lane checker = s := by
  unfold State.laneTestComplete
  split
  · rfl
  · split <;> simp [h.running, h.fclk]

theorem Stands.tableRomParity (rom : Nat) : s.tableRomParity rom = s := by
  simp [State.tableRomParity, h.running]

theorem Stands.romScanPass (mismatch : Option Nat) : s.romScanPass mismatch = s := by
  simp [State.romScanPass, h.checks]

theorem Stands.lockstepMismatch (signals : W32) : s.lockstepMismatch signals = s := by
  simp [State.lockstepMismatch, h.running]

theorem Stands.mbist (report : MbistReport) : s.mbist report = s := by
  simp [State.mbist, h.fclk]

theorem Stands.romCheck (failed : List Nat) : s.romCheck failed = s := by
  simp [State.romCheck, h.fclk]

theorem Stands.laneSelfTest (failed : List (Nat × Nat)) : s.laneSelfTest failed = s := by
  simp [State.laneSelfTest, h.fclk]

end

/-- A step that finds the state as it was leaves the entries of its cycle in order. -/
theorem next_cycleLog {s t : State} (h : t = s) : (.next (t.cycleLog s) : Host.Outcome State Fault Refusal) = .next s := by
  rw [h, State.cycleLog_same s s rfl]

theorem slot_notReady (c : Instr) (s : State) (hc : (slotRow c).isSome ∨ c = .slotDropped) (h : s.cmdReady = false) :
    exec c s = .next s := by
  rcases hc with hc | rfl
  · obtain ⟨x, hx⟩ := Option.isSome_iff_exists.mp hc
    rw [exec_slotRow hx, takeSlot_notReady s x h]
  · exact congrArg Host.Outcome.next (slotDropped_notReady s h)

/-- The steps that FCLK drives find a unit in thermal halt as it was. -/
theorem exec_stands (c : Instr) (s : State) (hc : fclkDriven c) (h : Stands s) : exec c s = .next s := by
  cases c
  case slotDropped => exact congrArg Host.Outcome.next (slotDropped_notReady s h.cmdReady)
  case issueAfterWait => exact congrArg Host.Outcome.next h.issueAfterWait
  case beatReadStart => exact next_cycleLog h.beatReadStart
  case beatWriteComplete => exact next_cycleLog h.beatWriteComplete
  case hardCaseResolution => exact next_cycleLog h.hardCaseResolution
  case rowResult => exact next_cycleLog h.rowResult
  case commandRetirement => exact next_cycleLog h.commandRetirement
  case curveInstall => exact congrArg Host.Outcome.next h.curveInstall
  case curveSlotInvalidate => exact congrArg Host.Outcome.next h.curveSlotInvalidate
  case rollSetEffect => exact congrArg Host.Outcome.next h.rollSetEffect
  case guardedNRequest => exact congrArg Host.Outcome.next h.guardedNRequest
  case correctionWriteback => exact congrArg Host.Outcome.next h.correctionWriteback
  case epochSwitch => exact congrArg Host.Outcome.next h.epochSwitch
  case waitgcRelease => exact congrArg Host.Outcome.next h.waitgcRelease
  case idleTimeout => exact congrArg Host.Outcome.next h.idleTimeout
  case laneGroupPowerStep => exact congrArg Host.Outcome.next h.laneGroupPowerStep
  case settlementBufferTimeout => exact congrArg Host.Outcome.next h.settlementBufferTimeout
  case receiptWindowTest => exact congrArg Host.Outcome.next h.receiptWindowTest
  case accPresentation => exact congrArg Host.Outcome.next (h.accPresentation _)
  case partSend => exact next_cycleLog (h.partSend _ _)
  case escrowWatchdog => exact congrArg Host.Outcome.next (h.escrowWatchdog _)
  case rollWatchdog => exact congrArg Host.Outcome.next (h.rollWatchdog _)
  case scratchpadClearDone => exact congrArg Host.Outcome.next (h.scratchpadClearDone _)
  case idleScrub => exact next_cycleLog (h.idleScrub _)
  case wAccess => exact next_cycleLog (h.wAccess _ _ _ _)
  case nAccess => exact congrArg Host.Outcome.next (h.nAccess _ _ _ _)
  case escrowDeclaration => exact congrArg Host.Outcome.next (h.escrowDeclaration _ _ _ _)
  case grant => exact congrArg Host.Outcome.next (h.grant _)
  case retirementReport => exact congrArg Host.Outcome.next (h.retirementReport _)
  case rollAcquire => exact congrArg Host.Outcome.next (h.rollAcquire _ _ _)
  case rollPublish => exact congrArg Host.Outcome.next (h.rollPublish _ _ _)
  case rollRelease => exact congrArg Host.Outcome.next (h.rollRelease _ _ _)
  case flitReceive => exact next_cycleLog (h.flitReceive _ _)
  case ackReceive => exact congrArg Host.Outcome.next (h.ackReceive _ _)
  case ackTimeout => exact congrArg Host.Outcome.next (h.ackTimeout _)
  case residueMismatch => exact congrArg Host.Outcome.next (h.residueMismatch _)
  case checkerMismatch => exact congrArg Host.Outcome.next (h.checkerMismatch _)
  case laneTestComplete => exact next_cycleLog (h.laneTestComplete _ _)
  case tableRomParity => exact next_cycleLog (h.tableRomParity _)
  case romScanPass => exact next_cycleLog (h.romScanPass _)
  case lockstepMismatch => exact congrArg Host.Outcome.next (h.lockstepMismatch _)
  case mbist => exact next_cycleLog (h.mbist _)
  case romCheck => exact next_cycleLog (h.romCheck _)
  case laneSelfTest => exact next_cycleLog (h.laneSelfTest _)
  all_goals exact hc.elim

/-- Settles O7: each of these steps opens with the test whether the unit runs. -/
theorem stoppedUnitKeepsState : Obligations.StoppedUnitKeepsState :=
  ⟨fun c s hc h => slot_notReady c s hc (cmdReady_low h), fun c s h hc => exec_stands c s hc (stands_of_halt h)⟩

end Sys2Proof.Machine
end

section
/-! A TCLK cycle on an empty queue. -/
namespace Sys2Proof.Machine
open Sys2Proof Sys2Proof.Claims

/-! ### The counters of the FCLK cycles -/

theorem toNat_satAdd {n : Nat} (a : BitVec n) (k : Nat) : (satAdd a k).toNat = min (a.toNat + k) (2 ^ n - 1) := by
  have h0 := Nat.two_pow_pos n
  rw [satAdd]
  split
  · rw [BitVec.toNat_allOnes]
    omega
  · rw [BitVec.toNat_ofNat, Nat.mod_eq_of_lt (by omega)]
    omega

theorem satAdd_satAdd {n : Nat} (a : BitVec n) (k m : Nat) : satAdd (satAdd a k) m = satAdd a (k + m) := by
  apply BitVec.eq_of_toNat_eq
  simp only [toNat_satAdd]
  omega

theorem satAdd_zero {n : Nat} (a : BitVec n) : satAdd a 0 = a := by
  have ha := a.isLt
  apply BitVec.eq_of_toNat_eq
  rw [toNat_satAdd]
  omega

/-- The state in the FCLK cycle `k` after the present one. -/
def State.atCycle (s : State) (k : Nat) : State := s.modTb fun t => { t with cycle := t.cycle + k }

theorem State.countCycles_frame (s : State) (n : Nat) : s.countCycles n = { s with act := (s.countCycles n).act } := by
  have h (xs : List Nat) (u : State) : xs.foldl (fun a i => a.bump (s.atCycle i).limiter 1) u
      = { u with act := (xs.foldl (fun a i => a.bump (s.atCycle i).limiter 1) u).act } := by
    induction xs generalizing u with
    | nil => rfl
    | cons x xs ih => rw [List.foldl_cons, ih]; rfl
  exact h _ s

/-- Each cycle counts under the limiter code of its own number (R419). -/
theorem State.countCycles_act (s : State) (n i : Nat) (hi : i < 22) : vecGet (s.countCycles n).act i 0
    = satAdd (vecGet s.act i 0) ((List.range n).filter fun k => (s.atCycle k).limiter == i).length := by
  have h (xs : List Nat) (u : State) : vecGet (xs.foldl (fun a i => a.bump (s.atCycle i).limiter 1) u).act i 0
      = satAdd (vecGet u.act i 0) (xs.filter fun k => (s.atCycle k).limiter == i).length := by
    induction xs generalizing u with
    | nil => exact (satAdd_zero _).symm
    | cons x xs ih =>
      rw [List.foldl_cons, ih, State.bump_act, vecGet_vecModify]
      by_cases e : (s.atCycle x).limiter = i
      · simp [e, hi, satAdd_satAdd, Nat.add_comm 1]
      · simp [e]
  exact h _ s

/-! ### The counts of time -/

theorem TimeBase.advance_cycle (t : TimeBase) :
    1000 * (t.advance true).cycle + (t.advance true).phase = 1000 * t.cycle + t.phase + t.fmhz.toNat := by
  simp only [TimeBase.advance, if_true]
  omega

theorem TimeBase.advance_v (t : TimeBase) (r : Bool) : (t.advance r).v.toNat = max t.v.toNat (t.advance r).q.toNat := by
  simp only [TimeBase.advance]
  split <;> omega

/-! ### The ring ports -/

theorem State.portCycle_otp (s : State) (c : Scope) (h : s.boot = .otpLoad) : s.portCycle c =
    { s with out := { s.out with flits := s.out.flits ++ [(c, List.replicate 80 0)], acks := s.out.acks ++ [(c, 0)] } } := by
  rw [State.portCycle, if_pos h]
  rfl

theorem State.portCycle_halt (s : State) (c : Scope) (hb : s.boot ≠ .otpLoad) (h : s.pw.state = .halt) : s.portCycle c = s := by
  simp [State.portCycle, hb, (stands_of_halt h).rings]

/-- The flit of a ring cycle as the transmitter's rules give it. -/
theorem oneFlit_emit (me : Nat) (l : Link) : oneFlit me l { (l.time.emit me).1 with worded := false } (l.time.emit me).2 := by
  have hq : l.time = { l with quiet := if l.hold = true ∨ l.replay = [] then l.quiet else l.quiet + 1 } := by
    unfold Link.time
    split <;> simp_all
  unfold oneFlit
  dsimp only
  rw [hq]
  by_cases hd : l.down = true
  · simp [hd, Link.emit]
  · rw [if_neg hd]
    by_cases hn : l.next < l.replay.length
    · simp [hd, hn, Link.emit]
    · rw [if_neg hn]
      have hg : l.replay[l.next]? = none := List.getElem?_eq_none (by omega)
      by_cases hf : l.hold = true ∨ 64 ≤ l.replay.length
      · simp [hd, hg, hf, Link.emit]
      · cases hq : l.queue <;> simp [hd, hg, hf, Link.emit]

/-- One port cycle of a link that works. -/
def State.afterPort (s : State) (c : Scope) : State :=
  let r := (s.link c).time.emit (s.position c)
  { s.setLink c { r.1 with worded := false } with
    out := { s.out with
      flits := s.out.flits ++ (r.2.map fun b => (c, b)).toList
      acks := s.out.acks ++ if (s.link c).worded then [] else [(c, ackWord false s.holds 0 false)] } }

theorem Link.emit_worded (l : Link) (me : Nat) (b : Bool) : 
    { ({ l with worded := b }.time.emit me).1 with worded := false } = { (l.time.emit me).1 with worded := false }
      ∧ ({ l with worded := b }.time.emit me).2 = (l.time.emit me).2 := by
  have ht : { l with worded := b }.time = { l.time with worded := b } := by
    unfold Link.time
    dsimp only
    split <;> rfl
  rw [ht]
  generalize l.time = u
  unfold Link.emit
  dsimp only
  split
  · exact ⟨rfl, rfl⟩
  · split
    · exact ⟨rfl, rfl⟩
    · split <;> exact ⟨rfl, rfl⟩

theorem State.portCycle_runs (s : State) (c : Scope) (hb : s.boot ≠ .otpLoad) (h : s.pw.state ≠ .halt) : s.portCycle c = s.afterPort c := by
  have hw : s.ringWorks = true := by simp [State.ringWorks, State.fclkRuns, hb, h]
  rw [State.portCycle, if_neg hb, hw, Bool.not_true, if_neg (by decide)]
  by_cases hd : (s.link c).worded = true
  · simp only [hd, if_true, State.afterPort]
    cases c <;> simp [State.modOut, State.setLink, State.link]
  · obtain ⟨e1, e2⟩ := (s.link c).emit_worded (s.position c) true
    have hl : (s.ackIdle c).link c = { s.link c with worded := true } := by cases c <;> rfl
    have hp : (s.ackIdle c).position c = s.position c := by cases c <;> rfl
    simp only [hd, Bool.false_eq_true, if_false, State.afterPort, hl, hp, e1, e2]
    cases c <;> rfl

theorem State.portCycle_frame (s : State) (c : Scope) :
    s.portCycle c = { s with links := (s.portCycle c).links, out := (s.portCycle c).out } := by
  by_cases hb : s.boot = .otpLoad
  · rw [State.portCycle_otp s c hb]
  · by_cases h : s.pw.state = .halt
    · rw [State.portCycle_halt s c hb h]
    · rw [State.portCycle_runs s c hb h]
      cases c <;> rfl

theorem State.ringCycle_frame (s : State) : s.ringCycle = { s with links := s.ringCycle.links, out := s.ringCycle.out } := by
  have h1 := s.portCycle_frame .cluster
  have h2 := (s.portCycle .cluster).portCycle_frame .die
  rw [State.ringCycle]
  generalize s.portCycle .cluster = u at h1 h2 ⊢
  generalize u.portCycle .die = v at h2 ⊢
  rw [h2, h1]

theorem State.ringCycle_otp (s : State) (h : s.boot = .otpLoad) : s.ringCycle =
    { s with out := { s.out with
        flits := s.out.flits ++ [(.cluster, List.replicate 80 0), (.die, List.replicate 80 0)]
        acks := s.out.acks ++ [(.cluster, 0), (.die, 0)] } } := by
  rw [State.ringCycle, State.portCycle_otp s .cluster h, State.portCycle_otp _ .die (by exact h)]
  simp

theorem State.ringCycle_halt (s : State) (hb : s.boot ≠ .otpLoad) (h : s.pw.state = .halt) : s.ringCycle = s := by
  rw [State.ringCycle, State.portCycle_halt s .cluster hb h, State.portCycle_halt s .die hb h]

/-- Each ring port has its cycle (R227, R428). -/
theorem State.ringCycle_runs (s : State) (hb : s.boot ≠ .otpLoad) (h : s.pw.state ≠ .halt) :
    let w := ackWord false s.holds 0 false
    ∃ a b, oneFlit (s.position .cluster) (s.link .cluster) (s.ringCycle.link .cluster) a
      ∧ oneFlit (s.position .die) (s.link .die) (s.ringCycle.link .die) b
      ∧ s.ringCycle.out = { s.out with
          flits := s.out.flits ++ (a.toList.map fun f => (Scope.cluster, f)) ++ b.toList.map fun f => (Scope.die, f)
          acks := s.out.acks ++ (if (s.link .cluster).worded then [] else [(.cluster, w)])
            ++ if (s.link .die).worded then [] else [(.die, w)] } := by
  have e : s.ringCycle = (s.afterPort .cluster).afterPort .die := by
    rw [State.ringCycle, State.portCycle_runs s .cluster hb h, State.portCycle_runs (s.afterPort .cluster) .die hb h]
  have toList_map {c : Scope} (o : Option (List Byte)) : (o.map fun b => (c, b)).toList = o.toList.map fun b => (c, b) := by
    cases o <;> rfl
  rw [e]
  refine ⟨((s.link .cluster).time.emit (s.position .cluster)).2, ((s.link .die).time.emit (s.position .die)).2,
    oneFlit_emit _ _, oneFlit_emit _ _, ?_⟩
  simp only [State.afterPort, toList_map]
  rfl

/-- The state of a TCLK cycle before its ring cycle. -/
def State.ticked (s : State) : State :=
  let t := s.tb.advance s.fclkRuns
  let n := t.cycle - s.tb.cycle
  { s with
    act := (s.countCycles n).act, tb := { t with live := t.live + s.liveCycles n }
    ft := { s.ft with ran := s.ft.ran && s.pw.state == .run } }

theorem State.tick_idle (s : State) (h1 : s.escrow.sets = []) (h2 : s.mg.queue = []) (h3 : s.mg.asked = []) :
    s.tick = { s.ticked with
      links := s.ticked.ringCycle.links, out := s.ticked.ringCycle.out, mg := { s.mg with taken := false } } := by
  have ht : s.tick = s.ticked.ringCycle.rollSetsDue.nextRequest := by
    unfold State.tick
    dsimp only
    rw [s.countCycles_frame]
    by_cases hr : s.pw.state = .run
    · simp [State.modTb, State.ticked, hr]
    · have hf : (s.pw.state == .run) = false := by simpa using hr
      simp [State.modTb, State.modFt, State.ticked, hr, hf]
  have hsets : s.ticked.ringCycle.rollSetsDue = s.ticked.ringCycle := by
    rw [State.rollSetsDue, s.ticked.ringCycle_frame]
    simp only [State.ticked, h1, List.foldl_nil]
  rw [ht, hsets, s.ticked.ringCycle_frame, State.nextRequest]
  simp [State.ticked, h2, h3, State.modMg]

/-- Settles O2: the counts advance first, then each ring port has its cycle; nothing waits to be served. -/
theorem idleStepIsOneTclkCycle : Obligations.IdleStepIsOneTclkCycle := by
  intro s hp h1 h2 h3 nth
  have ht := s.tick_idle h1 h2 h3
  refine ⟨s.tick, by rw [step, hp], ?_⟩
  rw [ht]
  refine ⟨rfl, TimeBase.advance_v s.tb s.fclkRuns, rfl, rfl, fun h => ?_, fun h => ?_, ⟨?_, fun i hi => s.countCycles_act ((s.tb.advance s.fclkRuns).cycle - s.tb.cycle) i hi⟩,
    fun h => ?_, fun hb h => ?_, fun hb h => ?_, rfl⟩
  · simp [State.ticked, TimeBase.advance, (stands_of_halt h).fclk]
  · have hr : s.fclkRuns = true := by simp [State.fclkRuns, h]
    simp only [State.ticked, hr]
    exact s.tb.advance_cycle
  · rfl
  · rw [s.ticked.ringCycle_otp h]
    exact ⟨rfl, rfl⟩
  · rw [s.ticked.ringCycle_halt hb h]
    exact ⟨rfl, rfl⟩
  · exact s.ticked.ringCycle_runs hb h

end Sys2Proof.Machine
end

section
/-! The bytes of a flit. -/
namespace Sys2Proof.Machine
open Sys2Proof Sys2Proof.Claims

theorem leNat_leBytes (n v : Nat) : leNat (leBytes n v) = v % 256 ^ n := by
  induction n generalizing v with
  | zero => simp [leBytes, leNat, Nat.mod_one]
  | succ n ih =>
    rw [leBytes, leNat, ih, Nat.pow_succ', Nat.mod_mul, BitVec.toNat_ofNat]

theorem leNat_leBytes_of_lt {n v : Nat} (h : v < 256 ^ n) : leNat (leBytes n v) = v := by
  rw [leNat_leBytes, Nat.mod_eq_of_lt h]

theorem padTo_of_length {n : Nat} {bs : List Byte} (h : bs.length = n) : padTo n bs = bs := by
  subst h
  simp [padTo]

/-- Bytes 64 to 67 of a flit, and its four numbers. -/
def Flit.head (f : Flit) (seq : Byte) : List Byte :=
  [BitVec.ofNat 8 (128 * f.strict.toNat + 16 * f.tenant.toNat + f.type), seq, BitVec.ofNat 8 (16 * f.dst + f.src),
    BitVec.ofNat 8 (16 * f.slot + 8 * f.bcast.toNat + f.part)]
    ++ leBytes 2 f.sid.toNat ++ leBytes 2 f.epoch.toNat ++ leBytes 2 f.row.toNat ++ leBytes 2 f.nrows.toNat

theorem Flit.bytes_eq {f : Flit} (h : f.payload.length = 64) (seq : Byte) :
    f.bytes seq = (f.payload ++ f.head seq) ++ leBytes 4 (crc32c (f.payload ++ f.head seq)).toNat := by
  simp only [Flit.bytes, Flit.head, padTo_of_length h, List.append_assoc]

theorem Flit.length_head (f : Flit) (seq : Byte) : (f.head seq).length = 12 := by simp [Flit.head, length_leBytes]

theorem leAt_append {as : List Byte} {a : Nat} (h : as.length ≤ a) (bs : List Byte) (n : Nat) :
    leAt (as ++ bs) a n = leAt bs (a - as.length) n := by rw [leAt, slice_append_of_le h, leAt]

theorem ofNat_leAt_two (b0 b1 : Byte) (v : W16) (h0 : b0 = BitVec.ofNat 8 v.toNat) (h1 : b1 = BitVec.ofNat 8 (v.toNat / 256)) :
    BitVec.ofNat 16 (leNat [b0, b1]) = v := by
  have hv := v.isLt
  subst h0 h1
  apply BitVec.eq_of_toNat_eq
  simp only [leNat, BitVec.toNat_ofNat]
  omega

/-- Settles O43: the fields stand in bytes of their own, each below the weight of the next. -/
theorem flitBytesRoundTrip : Obligations.FlitBytesRoundTrip := by
  intro f seq hp ht hs hd hl hq
  have hh := f.length_head seq
  have hb : (f.payload ++ f.head seq).length = 76 := by rw [List.length_append, hp, hh]
  rw [Flit.bytes_eq hp]
  have field (a n : Nat) (h1 : 64 ≤ a) (h2 : a + n ≤ 76) (c : List Byte) :
      leAt ((f.payload ++ f.head seq) ++ c) a n = leAt (f.head seq) (a - 64) n := by
    rw [List.append_assoc, leAt_append (by omega), hp, leAt, leAt, slice, slice, List.drop_append_of_le_length (by omega),
      List.take_append_of_le_length (by rw [List.length_drop, hh]; omega)]
  refine ⟨?_, by rw [List.length_append, hb, length_leBytes], ?_⟩
  · have hT := f.tenant.isLt
    have hS := f.strict.toNat_lt
    have hB := f.bcast.toNat_lt
    have e0 : leAt (f.head seq) 0 1 = 128 * f.strict.toNat + 16 * f.tenant.toNat + f.type := by
      simp [Flit.head, leAt, slice, leNat]
      omega
    have e2 : leAt (f.head seq) 2 1 = 16 * f.dst + f.src := by
      simp [Flit.head, leAt, slice, leNat]
      omega
    have e3 : leAt (f.head seq) 3 1 = 16 * f.slot + 8 * f.bcast.toNat + f.part := by
      simp [Flit.head, leAt, slice, leNat]
      omega
    have sid : BitVec.ofNat 16 (leAt (f.head seq) 4 2) = f.sid := ofNat_leAt_two _ _ _ rfl rfl
    have epoch : BitVec.ofNat 16 (leAt (f.head seq) 6 2) = f.epoch := ofNat_leAt_two _ _ _ rfl rfl
    have row : BitVec.ofNat 16 (leAt (f.head seq) 8 2) = f.row := ofNat_leAt_two _ _ _ rfl rfl
    have nrows : BitVec.ofNat 16 (leAt (f.head seq) 10 2) = f.nrows := ofNat_leAt_two _ _ _ rfl rfl
    have payload : slice (f.payload ++ f.head seq ++ leBytes 4 (crc32c (f.payload ++ f.head seq)).toNat) 0 64 = f.payload := by
      rw [List.append_assoc, slice_append_zero hp]
    have strict : (128 * f.strict.toNat + 16 * f.tenant.toNat + f.type).testBit 7 = f.strict := by
      rw [Nat.testBit_eq_decide_div_mod_eq]
      cases f.strict <;> simp <;> omega
    have tenant : BitVec.ofNat 3 ((128 * f.strict.toNat + 16 * f.tenant.toNat + f.type) / 16) = f.tenant := by
      apply BitVec.eq_of_toNat_eq
      rw [BitVec.toNat_ofNat]
      omega
    have bcast : (16 * f.slot + 8 * f.bcast.toNat + f.part).testBit 3 = f.bcast := by
      rw [Nat.testBit_eq_decide_div_mod_eq]
      cases f.bcast <;> simp <;> omega
    unfold Flit.ofBytes
    dsimp only
    rw [field 64 1 (by omega) (by omega), field 66 1 (by omega) (by omega), field 67 1 (by omega) (by omega), field 68 2 (by omega) (by omega),
      field 70 2 (by omega) (by omega), field 72 2 (by omega) (by omega), field 74 2 (by omega) (by omega), payload, padTo_of_length hp,
      e0, e2, e3, sid, epoch, row, nrows, strict, tenant, bcast]
    have numbers : (128 * f.strict.toNat + 16 * f.tenant.toNat + f.type) % 16 = f.type ∧ (16 * f.dst + f.src) % 16 = f.src
        ∧ (16 * f.dst + f.src) / 16 = f.dst ∧ (16 * f.slot + 8 * f.bcast.toNat + f.part) / 16 % 8 = f.slot
        ∧ (16 * f.slot + 8 * f.bcast.toNat + f.part) % 8 = f.part := by omega
    obtain ⟨n1, n2, n3, n4, n5⟩ := numbers
    rw [n1, n2, n3, n4, n5]
  · generalize f.payload ++ f.head seq = b at hb ⊢
    rw [List.take_append_of_le_length (by omega), List.take_of_length_le (by omega), leAt_append (by omega), hb, leAt, slice,
      Nat.sub_self, List.drop_zero, List.take_of_length_le (by rw [length_leBytes]),
      leNat_leBytes_of_lt (crc32c b).isLt, BitVec.ofNat_toNat, BitVec.setWidth_eq]

end Sys2Proof.Machine
end

section
/-! Acknowledgements, and the timers of the rings. -/
namespace Sys2Proof.Machine
open Sys2Proof Sys2Proof.Claims

@[simp] theorem State.setLink_setLink (s : State) (c : Scope) (a b : Link) : (s.setLink c a).setLink c b = s.setLink c b := by
  cases c <;> rfl

theorem State.setLink_self (s : State) (c : Scope) : s.setLink c (s.link c) = s := by cases c <;> rfl

theorem ringWorks_of {s : State} (hb : s.boot ≠ .otpLoad) (hp : s.pw.state ≠ .halt) : s.ringWorks = true := by
  simp [State.ringWorks, State.fclkRuns, hb, hp]

theorem scopeByte_eq (c : Scope) : scopeByte c = if c = .die then 1 else 0 := by cases c <;> rfl

/-- A ring that falls ends no settlement where none is in flight. -/
theorem State.ringFalls_none {s : State} (c : Scope) (h : ∀ x ∈ s.stream.inflight, x.cmd.op ≠ .settle) : s.ringFalls c = s := by
  rw [State.ringFalls, List.filter_eq_nil_iff.mpr fun x hx => by simp [h x hx], List.foldl_nil]

/-! ### One retry -/

/-- A link whose unacknowledged flits are to be sent again (R228). -/
def Link.again (l : Link) : Link := { l with retries := satAdd l.retries 1, consec := l.consec + 1, next := 0, quiet := 0 }

theorem State.retry_again {s : State} {c : Scope} (h : (s.link c).consec < 7) : s.retry c = s.setLink c (s.link c).again := by
  rw [State.retry, if_neg (by simp [State.resend]; omega)]
  rfl

/-- The eighth retry in a row declares the link down (R230). -/
theorem State.retry_down {s : State} {c : Scope} (h : 7 ≤ (s.link c).consec) (hs : ∀ x ∈ s.stream.inflight, x.cmd.op ≠ .settle) :
    s.retry c = (s.setLink c { (s.link c).again with
      down := true, declared := true, downs := satAdd (s.link c).downs 1, replay := [], queue := [], consec := 0, trained := 0
      st := if (s.link c).st = .training then .training else .down }).log cCLRDN noTag none [scopeByte c, 0] := by
  rw [State.retry, if_pos (by simp [State.resend]; omega), State.declareDown]
  dsimp only
  rw [State.ringFalls_none]
  · simp [State.resend, State.modLink, Link.settleState, Link.again]
  · simpa [State.resend] using hs

/-! ### ACK_RECEIVE -/

section
variable {s : State} {c : Scope} {w : W16} (hr : s.ringWorks = true) (hp : ackParity w = w.getLsbD 13)
include hr hp

/-- On a link that trains, acknowledged TRAIN flits count, and a NAK begins anew (R231). -/
theorem State.ackReceive_training (hd : (s.link c).down = true) (hv : w.getLsbD 8 = true) : s.ackReceive c w =
    s.setLink c { s.link c with trained := if w.getLsbD 15 then 0 else min 64 ((s.link c).trained + 1) } := by
  simp [State.ackReceive, hr, hp, hd, hv]

theorem State.ackReceive_hold (hd : (s.link c).down = false) (hv : w.getLsbD 8 = false) :
    s.ackReceive c w = s.setLink c { s.link c with hold := w.getLsbD 14 } := by
  unfold State.ackReceive
  dsimp only
  rw [if_neg (by rw [hr, hp]; simp), if_neg (by rw [hd]; decide), if_pos (by rw [hv]; rfl)]

/-- An acknowledgement that covers nothing sets HOLD alone. -/
theorem State.ackReceive_nothing (hd : (s.link c).down = false) (hn : w.getLsbD 15 = false)
    (h0 : (s.link c).covered (w.setWidth 8) = 0) : s.ackReceive c w = s.setLink c { s.link c with hold := w.getLsbD 14 } := by
  unfold State.ackReceive
  dsimp only
  rw [if_neg (by rw [hr, hp]; simp), if_neg (by rw [hd]; decide)]
  split
  · rfl
  · generalize hg : (if w.getLsbD 15 = true then Link.covered _ _ else Link.covered _ _) = m
    obtain rfl : 0 = m := h0.symm.trans ((if_neg (by rw [hn]; decide)).symm.trans hg)
    rw [if_neg (by rw [hn]; decide), if_neg (by simp), if_neg (by simp)]

/-- An acknowledgement frees the flits that it covers, and ends an episode of retries (R228). -/
theorem State.ackReceive_ack (hd : (s.link c).down = false) (hv : w.getLsbD 8 = true) (hn : w.getLsbD 15 = false) {n : Nat}
    (h : (s.link c).covered (w.setWidth 8) = n) (h0 : 0 < n) :
    let l := s.link c
    let u := s.setLink c { l with hold := w.getLsbD 14, replay := l.replay.drop n, next := l.next - n, consec := 0, quiet := 0 }
    s.ackReceive c w = if 0 < l.consec then u.log cCLRTY noTag none ([scopeByte c, 0, 0, 0] ++ leBytes 4 l.consec) else u := by
  intro l u
  unfold State.ackReceive
  dsimp only
  generalize hg : (if w.getLsbD 15 = true then Link.covered _ _ else Link.covered _ _) = m
  obtain rfl : n = m := h.symm.trans ((if_neg (by rw [hn]; decide)).symm.trans hg)
  rw [if_neg (by rw [hr, hp]; simp), if_neg (by rw [hd]; decide), if_neg (by rw [hv]; decide), if_neg (by rw [hn]; decide), if_pos h0,
    State.setLink_setLink]
  simp only [h0, true_and]
  rfl

/-- A NAK frees the flits before its own and sends the rest again (R228). -/
theorem State.ackReceive_nak (hd : (s.link c).down = false) (hv : w.getLsbD 8 = true) (hn : w.getLsbD 15 = true)
    (hc : (s.link c).consec = 0) {k : Nat} (h : (s.link c).covered (w.setWidth 8 - 1) = k) :
    s.ackReceive c w = s.setLink c { s.link c with
      hold := w.getLsbD 14, replay := (s.link c).replay.drop k, next := 0, quiet := 0, consec := 1
      retries := satAdd (s.link c).retries 1 } := by
  unfold State.ackReceive
  dsimp only
  generalize hg : (if w.getLsbD 15 = true then Link.covered _ _ else Link.covered _ _) = m
  obtain rfl : k = m := h.symm.trans ((if_pos hn).symm.trans hg)
  rw [if_neg (by rw [hr, hp]; simp), if_neg (by rw [hd]; decide), if_neg (by rw [hv]; decide), if_pos hn,
    if_neg (by rw [hc]; exact fun x => Nat.lt_irrefl 0 x.2), State.setLink_setLink]
  split
  · rw [State.retry_again (by simp), State.link_setLink, State.setLink_setLink]
    rfl
  · next h0 =>
    have hk : k = 0 := by omega
    rw [State.retry_again (by simp [hc]), State.link_setLink, State.setLink_setLink, hk, Link.again]
    simp only [hc, List.drop_zero, Nat.zero_add]

end

/-! ### SETTLEMENT_BUFFER_TIMEOUT -/

/-- Flits that have left the buffer, and those that have not waited long enough, change nothing. -/
theorem State.dropStale_none {u : State} (bs : List BufFlit)
    (h : ∀ x ∈ bs, x ∉ u.setBuf ∨ u.tb.cycle - x.at_ < u.escrow.watchdog.toNat) : u.dropStale bs = u := by
  induction bs with
  | nil => rfl
  | cons b bs ih =>
    have hb := h b List.mem_cons_self
    rw [State.dropStale]
    dsimp only
    rw [if_neg (by rcases hb with hb | hb <;> simp [hb]), ih fun x hx => h x (List.mem_cons_of_mem _ hx)]

theorem State.settlementBufferTimeout_first {s : State} {b : BufFlit} {rest : List BufFlit} (hr : s.ringWorks = true)
    (hbuf : s.setBuf = b :: rest) (hrest : ∀ x ∈ rest, x.hasKey b.scope (Flit.ofBytes b.flit).tenant (Flit.ofBytes b.flit).sid = true
      ∨ s.tb.cycle - x.at_ < s.escrow.watchdog.toNat)
    (hs : ∀ x ∈ s.stream.inflight, x.cmd.op ≠ .settle) (hb : s.escrow.watchdog.toNat ≤ s.tb.cycle - b.at_) :
    s.settlementBufferTimeout = (s.discard b.scope (Flit.ofBytes b.flit).tenant (Flit.ofBytes b.flit).sid).log cCLRPV noTag
      (some (Flit.ofBytes b.flit).tenant) ([scopeByte b.scope, 4] ++ leBytes 2 (Flit.ofBytes b.flit).sid.toNat) := by
  have held : (s.stream.inflight.any fun c => c.cmd.op == .settle && c.cmd.scope == b.scope
      && c.slot.tenant == (Flit.ofBytes b.flit).tenant && c.cmd.sid == (Flit.ofBytes b.flit).sid) = false := by
    rw [List.any_eq_false]
    intro x hx
    simp [hs x hx]
  rw [State.settlementBufferTimeout, if_pos hr, hbuf, State.dropStale]
  dsimp only
  rw [if_pos ⟨by simp [hbuf], by rw [held]; rfl, hb⟩, State.dropStale_none]
  intro x hx
  rcases hrest x hx with hk | hk
  · exact .inl (by simp [State.discard, hk])
  · exact .inr hk

theorem BufFlit.hasKey_self (b : BufFlit) : b.hasKey b.scope (Flit.ofBytes b.flit).tenant (Flit.ofBytes b.flit).sid = true := by
  simp [BufFlit.hasKey]

/-- Settles O42: an acknowledgement word by its VALID and NAK bits, and each timer by what it has counted. -/
theorem ringTimersAndAcknowledgements : Obligations.RingTimersAndAcknowledgements := by
  refine ⟨?_, ?_, ?_⟩
  · intro c w s hb hp l h n moved par
    have hr := ringWorks_of hb hp
    refine ⟨fun hd hv => congrArg Host.Outcome.next (State.ackReceive_hold hr par hd hv), fun hd _ hn h0 => congrArg Host.Outcome.next (State.ackReceive_nothing hr par hd hn h0),
      fun hd hv hn h0 hc => ?_, fun hd hv hn h0 hc => ?_,
      fun hd hv hn hc => congrArg Host.Outcome.next (State.ackReceive_nak hr par hd hv hn hc rfl),
      fun hd hv => congrArg Host.Outcome.next (State.ackReceive_training hr par hd hv)⟩
    · exact congrArg Host.Outcome.next ((State.ackReceive_ack hr par hd hv hn rfl h0).trans (if_neg fun x => Nat.ne_of_gt x hc))
    · rw [← scopeByte_eq]
      exact congrArg Host.Outcome.next ((State.ackReceive_ack hr par hd hv hn rfl h0).trans (if_pos hc))
  · intro c s hb hp l again hd hh hne
    have hr := ringWorks_of hb hp
    have hemp : (s.link c).replay.isEmpty = false := by simpa using hne
    have due (h : 512 ≤ l.quiet) : s.ackTimeout c = s.retry c := by
      rw [State.ackTimeout, if_neg (by simp only [l] at *; simp [hr, hd, hh, hemp, h])]
    refine ⟨fun hq => ?_, fun hq hc => ?_, fun hq hc hs => ?_⟩
    · exact congrArg Host.Outcome.next (if_pos (by simp only [l] at *; simp [hq]))
    · exact congrArg Host.Outcome.next ((due hq).trans (State.retry_again hc))
    · rw [← scopeByte_eq]
      exact congrArg Host.Outcome.next ((due hq).trans (State.retry_down hc hs))
  · intro b rest s hb hp hbuf f hrest hs hold
    refine ⟨_, congrArg Host.Outcome.next (State.settlementBufferTimeout_first (ringWorks_of hb hp) hbuf hrest hs hold), ?_, ?_, ?_⟩
    · simp [State.discard, hbuf, BufFlit.hasKey_self, f]
    · rw [scopeByte_eq]
      rfl
    · rfl

end Sys2Proof.Machine
end

section
/-! The flits that a ring port takes. -/
namespace Sys2Proof.Machine
open Sys2Proof Sys2Proof.Claims

/-- The state with a link changed and a word driven on its reverse lane. -/
def State.answered (s : State) (c : Scope) (l : Link) (w : W16) : State :=
  { s.setLink c { l with worded := true } with out := { s.out with acks := s.out.acks ++ [(c, w)] } }

theorem State.driveWord_setLink (s : State) (c : Scope) (l : Link) (w : W16) : (s.setLink c l).driveWord c w = s.answered c l w := by
  cases c <;> rfl

theorem State.ack_setLink (s : State) (c : Scope) (l : Link) (n : Bool) (q : Byte) :
    (s.setLink c l).ack c n q = s.answered c l (ackWord n s.holds q) := by
  cases c <;> rfl

@[simp] theorem State.modLink_setLink (s : State) (c : Scope) (l : Link) (f : Link → Link) :
    (s.setLink c l).modLink c f = s.setLink c (f l) := by
  cases c <;> rfl

theorem State.modLink_eq (s : State) (c : Scope) (f : Link → Link) : s.modLink c f = s.setLink c (f (s.link c)) := rfl

theorem State.answered_link (s : State) (c : Scope) (l : Link) (w : W16) : (s.answered c l w).link c = { l with worded := true } := by
  cases c <;> rfl

theorem State.answered_link_of_ne (s : State) {c k : Scope} (h : k ≠ c) (l : Link) (w : W16) : (s.answered c l w).link k = s.link k :=
  State.link_setLink_of_ne s _ h

theorem State.answered_frame (s : State) (c : Scope) (l : Link) (w : W16) :
    s.answered c l w = { s with links := (s.answered c l w).links, out := (s.answered c l w).out } := by
  cases c <;> rfl

/-- A rejected flit is answered by NAK once (R227). -/
theorem State.reject_setLink (s : State) (c : Scope) (l : Link) : (s.setLink c l).reject c =
    if l.nakSent then s.setLink c l else s.answered c { l with nakSent := true } (ackWord true s.holds l.rxSeq) := by
  rw [State.reject, State.link_setLink]
  split
  · rfl
  · rw [State.setLink_setLink, State.ack_setLink]

/-- Whether a flit of a `SETTLE` is as it should be does not hang on the state. -/
theorem State.badFlit_none_iff (s : State) (c : Inflight) (m : Cmd) (f : Flit) : s.badFlit c m f = none ↔
    f.epoch = c.slot.epoch ∧ f.nrows.toNat = m.settleRows ∧ f.row.toNat < f.nrows.toNat ∧ f.slot < m.settleQ := by
  unfold State.badFlit
  split
  · simp_all
  · split <;> simp_all <;> omega

/-- A NAK's link and word, as R227 gives them. -/
def Link.naks (l u : Link) : Link := { u with nakSent := true, worded := if l.nakSent then l.worded else true }

section
variable {c : Scope} {flit : List Byte} {s : State}
variable (hr : s.ringWorks = true) (hlen : flit.length = 80)
include hr hlen

theorem State.flitReceive_crc (hcrc : crc32c (flit.take 76) ≠ BitVec.ofNat 32 (leAt flit 76 4)) : s.flitReceive c flit =
    (s.setLink c { s.link c with rxTrain := 0, crcFail := satAdd (s.link c).crcFail 1 }).reject c := by
  rw [State.flitReceive, padTo_of_length hlen, hr]
  simp only [Bool.not_true, Bool.false_eq_true, if_false]
  rw [if_pos hcrc, State.breakTrain, State.modLink_eq s, State.modLink_setLink]

variable (hcrc : crc32c (flit.take 76) = BitVec.ofNat 32 (leAt flit 76 4))
include hcrc

theorem State.flitReceive_discard (ht : (Flit.ofBytes flit).type ≠ tTRAIN) (hq : flit.getD 65 0 ≠ (s.link c).rxSeq)
    (hn : (s.link c).nakSent = true) : s.flitReceive c flit = s.setLink c { s.link c with rxTrain := 0 } := by
  rw [State.flitReceive, padTo_of_length hlen, hr]
  simp only [Bool.not_true, Bool.false_eq_true, if_false]
  rw [if_neg (not_not.mpr hcrc), if_pos ⟨ht, hq, hn⟩]
  rfl

variable (hgo : (Flit.ofBytes flit).type ≠ tTRAIN → flit.getD 65 0 ≠ (s.link c).rxSeq → (s.link c).nakSent = false)
include hgo

theorem State.flitReceive_bad {k : Byte}
    (hk : s.badLink c (Flit.ofBytes flit) (flit.getD 65 0) ((flit.getD 67 0).getLsbD 7) = some k) : s.flitReceive c flit =
      ((s.setLink c { s.link c with rxTrain := 0, viol := satAdd (s.link c).viol 1 }).log cCLRPV noTag none [scopeByte c, k]).reject c := by
  rw [State.flitReceive, padTo_of_length hlen, hr]
  simp only [Bool.not_true, Bool.false_eq_true, if_false]
  rw [if_neg (not_not.mpr hcrc), if_neg (by rintro ⟨a, b, d⟩; simp [hgo a b] at d), hk]
  rw [State.breakTrain, State.modLink_eq s, State.modLink_setLink]

variable (hok : s.badLink c (Flit.ofBytes flit) (flit.getD 65 0) ((flit.getD 67 0).getLsbD 7) = none)
include hok

omit hgo in
theorem State.flitReceive_train (ht : (Flit.ofBytes flit).type = tTRAIN) : s.flitReceive c flit = s.takeTrain c (flit.getD 65 0) := by
  rw [State.flitReceive, padTo_of_length hlen, hr]
  simp only [Bool.not_true, Bool.false_eq_true, if_false]
  rw [if_neg (not_not.mpr hcrc), if_neg (fun a => a.1 ht), hok]
  simp only [ht, if_true]

variable (ht : (Flit.ofBytes flit).type ≠ tTRAIN)
include ht

theorem State.flitReceive_full (hf : s.bufferFull c (Flit.ofBytes flit) = true) :
    s.flitReceive c flit = (s.setLink c { s.link c with rxTrain := 0 }).ackIdle c := by
  have hf' : (s.breakTrain c).bufferFull c (Flit.ofBytes flit) = true := by rw [← hf]; cases c <;> rfl
  rw [State.flitReceive, padTo_of_length hlen, hr]
  simp only [Bool.not_true, Bool.false_eq_true, if_false]
  rw [if_neg (not_not.mpr hcrc), if_neg (by rintro ⟨a, b, d⟩; simp [hgo a b] at d), hok]
  simp only [ht, if_false, hf', if_true]
  rfl

/-- The link of a flit that is taken. -/
def Link.taken (l : Link) : Link := { l with rxTrain := 0, rxSeq := l.rxSeq + 1, nakSent := false, recv := satAdd l.recv 1 }

/-- What a port does with a flit that it takes, beside its link and its answer. -/
def State.takes (s : State) (c : Scope) (flit : List Byte) : State :=
  let f := Flit.ofBytes flit
  if f.type = tPART then s.takePart c f flit else if f.type = tFINAL then s.takeFinal c f flit
  else if f.type = tABORT then s.takeAbort c f else s

theorem State.flitReceive_taken (hf : s.bufferFull c (Flit.ofBytes flit) = false) : s.flitReceive c flit =
    ((s.setLink c (s.link c).taken).takes c flit).ack c false (flit.getD 65 0) := by
  have hf' : (s.breakTrain c).bufferFull c (Flit.ofBytes flit) = false := by rw [← hf]; cases c <;> rfl
  rw [State.flitReceive, padTo_of_length hlen, hr]
  simp only [Bool.not_true, Bool.false_eq_true, if_false]
  rw [if_neg (not_not.mpr hcrc), if_neg (by rintro ⟨a, b, d⟩; simp [hgo a b] at d), hok]
  simp only [ht, if_false, hf', Bool.false_eq_true]
  rw [State.breakTrain, State.link_modLink, State.modLink_eq s, State.setLink_setLink]
  rfl

end

theorem State.bufferFull_iff (s : State) (c : Scope) (f : Flit) : s.bufferFull c f = true ↔ 256 ≤ s.setBuf.length
    ∧ (f.type = tPART ∧ f.dst = s.position c
      ∨ f.type = tFINAL ∧ f.src ≠ s.position c ∧ (s.settle? c f.tenant f.sid).isSome = true) := by
  simp [State.bufferFull, and_assoc]

/-- A flit that needs no room in the settlement buffer. -/
theorem State.bufferFull_false {s : State} {c : Scope} {f : Flit} (hp : f.type = tPART → f.dst ≠ s.position c)
    (hf : f.type = tFINAL → f.src ≠ s.position c → s.settle? c f.tenant f.sid = none) : s.bufferFull c f = false := by
  rw [Bool.eq_false_iff, Ne, State.bufferFull_iff]
  rintro ⟨_, ⟨a, b⟩ | ⟨a, b, d⟩⟩
  · exact hp a b
  · simp [hf a b] at d

theorem State.unmatched_of_type {s : State} {c : Scope} {f : Flit} (h : f.type ≠ tFINAL) : s.unmatched c f = false := by
  simp [State.unmatched, h]

theorem State.unmatched_of_src {s : State} {c : Scope} {f : Flit} (h : f.src = s.position c) : s.unmatched c f = false := by
  simp [State.unmatched, h]

/-- A flit put into the buffer and answered. -/
theorem State.ack_buffer_spec (s : State) (c : Scope) (l : Link) (b : List Byte) (q : Byte) :
    let t := ((s.setLink c l).buffer c b).ack c false q
    t.link c = { l with worded := true } ∧ (∀ k, k ≠ c → t.link k = s.link k)
      ∧ t.setBuf = s.setBuf ++ [{ scope := c, flit := b, at_ := s.tb.cycle, synd := [] }]
      ∧ t.out = { s.out with acks := s.out.acks ++ [(c, ackWord false (decide (255 ≤ s.setBuf.length)) q)] }
      ∧ t = { s with links := t.links, out := t.out, setBuf := t.setBuf } := by
  have e : ((s.setLink c l).buffer c b).ack c false q = { s.answered c l (ackWord false (((s.setLink c l).buffer c b).holds) q) with
      setBuf := s.setBuf ++ [{ scope := c, flit := b, at_ := s.tb.cycle, synd := [] }] } := by
    cases c <;> rfl
  have hw : ((s.setLink c l).buffer c b).holds = decide (255 ≤ s.setBuf.length) := by
    rw [State.holds, State.buffer]
    simp
  rw [hw] at e
  rw [e]
  refine ⟨State.answered_link s c l (ackWord false (decide (255 ≤ s.setBuf.length)) q), fun k hk => State.answered_link_of_ne s hk l (ackWord false (decide (255 ≤ s.setBuf.length)) q), rfl, ?_, ?_⟩
  · cases c <;> rfl
  · cases c <;> rfl

/-- A flit of a known type, with no reserved bit and in sequence where it counts, that is no FINAL out of place has no fault. -/
theorem State.badLink_none {s : State} {c : Scope} {f : Flit} {seq : Byte} (hq : seq = (s.link c).rxSeq ∨ f.type = tTRAIN) (h4 : f.type ≤ 4)
    (hu : s.unmatched c f = false) : s.badLink c f seq false = none := by
  have : ¬ (seq ≠ (s.link c).rxSeq ∧ f.type ≠ tTRAIN) := by
    rintro ⟨a, b⟩
    exact hq.elim a b
  simp [State.badLink, this, Nat.not_lt.mpr h4, hu]

/-- The last word of a rejected flit: `u` is the state before, in which the link is `L`. -/
theorem State.reject_spec {s u : State} {c : Scope} {L : Link} (hl : u.link c = L) (hn : L.nakSent = (s.link c).nakSent)
    (hw : L.worded = (s.link c).worded) (hq : L.rxSeq = (s.link c).rxSeq) (ho : u.out = s.out) (hb : u.setBuf = s.setBuf) :
    (u.reject c).link c = (s.link c).naks L ∧ (∀ k, k ≠ c → (u.reject c).link k = u.link k)
      ∧ (if (s.link c).nakSent then (u.reject c).out = s.out
         else (u.reject c).out = { s.out with acks := s.out.acks ++ [(c, ackWord true s.holds (s.link c).rxSeq)] })
      ∧ u.reject c = { u with links := (u.reject c).links, out := (u.reject c).out } := by
  have e : u.reject c = if L.nakSent then u else u.answered c { L with nakSent := true } (ackWord true u.holds L.rxSeq) := by
    have := State.reject_setLink u c L
    rwa [← hl, State.setLink_self, hl] at this
  have hh : u.holds = s.holds := by rw [State.holds, State.holds, hb]
  rw [e]
  by_cases h : L.nakSent = true
  · rw [if_pos h, if_pos (hn ▸ h), hl, ho]
    refine ⟨?_, fun _ _ => rfl, rfl, by rw [← ho]⟩
    rw [Link.naks, if_pos (hn ▸ h), ← hw, ← h]
  · have h' : ¬ (s.link c).nakSent = true := hn ▸ h
    rw [if_neg h, if_neg h', State.answered_link]
    refine ⟨by simp [Link.naks, h'], fun k hk => State.answered_link_of_ne u hk _ _, ?_, State.answered_frame _ _ _ _⟩
    rw [hh, hq, ← ho]
    rfl

theorem State.modLink_answered (s : State) (c : Scope) (l : Link) (w : W16) (f : Link → Link) :
    (s.answered c l w).modLink c f
      = { s.setLink c (f { l with worded := true }) with out := { s.out with acks := s.out.acks ++ [(c, w)] } } := by
  cases c <;> rfl

/-- A TRAIN flit is counted and acknowledged (R230, R231). -/
theorem State.takeTrain_known {s : State} {c : Scope} (seq : Byte) (h : s.position c ∈ (s.link c).ringDown) : s.takeTrain c seq =
    s.answered c { s.link c with rxTrain := (s.link c).rxTrain + 1, recv := satAdd (s.link c).recv 1, nakSent := false }
      (ackWord false s.holds seq) := by
  rw [State.takeTrain, State.modLink_eq s, State.ack_setLink]
  dsimp only
  rw [if_pos (by rw [State.answered_link]; simpa using h)]

/-- The first TRAIN flit of a link that was up takes the ring down, with a notice (R230). -/
theorem State.takeTrain_first {s : State} {c : Scope} (seq : Byte) (h : s.position c ∉ (s.link c).ringDown)
    (hs : ∀ x ∈ s.stream.inflight, x.cmd.op ≠ .settle) : s.takeTrain c seq =
    s.answered c { s.link c with
        rxTrain := (s.link c).rxTrain + 1, recv := satAdd (s.link c).recv 1, nakSent := false
        ringDown := (s.link c).ringDown ++ [s.position c], st := if (s.link c).st = .training then .training else .down
        queue := (s.link c).queue ++ [(Flit.notice true (s.position c)).bytes 0] } (ackWord false s.holds seq) := by
  rw [State.takeTrain, State.modLink_eq s, State.ack_setLink]
  dsimp only
  rw [if_neg (by rw [State.answered_link]; simpa using h), State.modLink_answered, State.ringFalls_none _ (by simpa using hs)]
  cases c <;> simp [State.send, State.modLink, State.setLink, State.link, State.answered, Link.settleState]

/-! ### What is taken -/

section
variable {s : State} {c : Scope} {flit : List Byte}

/-- A PART for another unit goes on (R226). -/
theorem State.takes_part_other (l : Link) (ht : (Flit.ofBytes flit).type = tPART) (hd : (Flit.ofBytes flit).dst ≠ s.position c)
    (he : ∀ x, s.settle? c (Flit.ofBytes flit).tenant (Flit.ofBytes flit).sid = some x → s.badFlit x x.cmd (Flit.ofBytes flit) = none) :
    (s.setLink c l).takes c flit = s.setLink c { l with queue := l.queue ++ [(Flit.ofBytes flit).bytes 0] } := by
  have hpos : (s.setLink c l).position c = s.position c := State.position_setLink _ _ _ _
  have hset (t : BitVec 3) (i : W16) : (s.setLink c l).settle? c t i = s.settle? c t i := by cases c <;> rfl
  have hfwd (f : Flit) : (s.setLink c l).forward c f = s.setLink c { l with queue := l.queue ++ [f.bytes 0] } := by
    rw [State.forward, State.send, State.modLink_setLink]
    rfl
  have hmine : ((Flit.ofBytes flit).dst == (s.setLink c l).position c) = false := by simpa [hpos] using hd
  rw [State.takes]
  rw [if_pos ht, State.takePart]
  rw [hmine, hset]
  cases hx : s.settle? c (Flit.ofBytes flit).tenant (Flit.ofBytes flit).sid with
  | none => exact hfwd _
  | some x =>
    have hgood := (State.badFlit_none_iff (s.setLink c l) _ _ _).mpr ((State.badFlit_none_iff s _ _ _).mp (he x hx))
    simp only [hgood]
    exact hfwd _

/-- A PART whose `SETTLE` has not come waits in the buffer (R226). -/
theorem State.takes_part_early (l : Link) (ht : (Flit.ofBytes flit).type = tPART) (hd : (Flit.ofBytes flit).dst = s.position c)
    (hx : s.settle? c (Flit.ofBytes flit).tenant (Flit.ofBytes flit).sid = none) :
    (s.setLink c l).takes c flit = (s.setLink c l).buffer c flit := by
  have hpos : (s.setLink c l).position c = s.position c := State.position_setLink _ _ _ _
  have hset (t : BitVec 3) (i : W16) : (s.setLink c l).settle? c t i = s.settle? c t i := by cases c <;> rfl
  rw [State.takes]
  rw [if_pos ht, State.takePart]
  rw [hset, hx, hpos, hd, beq_self_eq_true]
  rfl

theorem State.takes_final_own (l : Link) (ht : (Flit.ofBytes flit).type = tFINAL) (hd : (Flit.ofBytes flit).src = s.position c) :
    (s.setLink c l).takes c flit = s.setLink c l := by
  have hne : (Flit.ofBytes flit).type ≠ tPART := by rw [ht]; decide
  rw [State.takes]
  rw [if_neg hne, if_pos ht, State.takeFinal, if_pos (by rw [hd, State.position_setLink])]

theorem State.takes_final_other (l : Link) (ht : (Flit.ofBytes flit).type = tFINAL) (hd : (Flit.ofBytes flit).src ≠ s.position c)
    (hx : s.settle? c (Flit.ofBytes flit).tenant (Flit.ofBytes flit).sid = none) :
    (s.setLink c l).takes c flit = s.setLink c { l with queue := l.queue ++ [(Flit.ofBytes flit).bytes 0] } := by
  have hset (t : BitVec 3) (i : W16) : (s.setLink c l).settle? c t i = s.settle? c t i := by cases c <;> rfl
  have hne : (Flit.ofBytes flit).type ≠ tPART := by rw [ht]; decide
  rw [State.takes]
  rw [if_neg hne, if_pos ht, State.takeFinal, if_neg (by rwa [State.position_setLink]), hset, hx]
  simp only [State.forward, State.send, State.modLink_setLink]
  rfl

theorem State.takes_idle (ht : (Flit.ofBytes flit).type = tIDLE) : s.takes c flit = s := by
  rw [State.takes]
  rw [if_neg (by rw [ht]; decide), if_neg (by rw [ht]; decide), if_neg (by rw [ht]; decide)]

end

/-- Settles O41: each case is one branch of FLIT_RECEIVE, the link and the word being those of `State.answered` or `State.reject`. -/
theorem flitsAreTaken : Obligations.FlitsAreTaken := by
  intro c flit s hb hp hlen l l1 naks f seq me reserved crcOk words nak inOrder expected taken passed counts answers
  have hr := ringWorks_of hb hp
  have answer {L : Link} {w : W16} (h : s.flitReceive c flit = s.answered c L w) : answers L w := by
    refine ⟨s.answered c L w, ?_, State.answered_link _ _ _ _, fun k hk => State.answered_link_of_ne s hk _ _, rfl, State.answered_frame _ _ _ _⟩
    exact congrArg Host.Outcome.next ((congrArg (State.cycleLog · s) h).trans (State.cycleLog_same _ _ (by cases c <;> rfl)))
  have count {k : Byte} (hcrc : crcOk) (hgo : f.type ≠ tTRAIN → seq ≠ l.rxSeq → l.nakSent = false) (hk : s.badLink c f seq reserved = some k) :
      counts k := by
    have e := State.flitReceive_bad hr hlen hcrc hgo hk
    generalize hu : State.log _ _ _ _ _ = u at e
    have hled : u.ledger = (s.log 0x0403 0xFFFF none [if c = .die then 1 else 0, k]).ledger := by
      rw [← scopeByte_eq, ← hu]
      cases c <;> rfl
    have hlink : u.link c = { l1 with viol := satAdd l.viol 1 } := by rw [← hu]; cases c <;> rfl
    have hother (j : Scope) (hj : j ≠ c) : u.link j = s.link j := by rw [← hu, State.link_log]; exact State.link_setLink_of_ne s _ hj
    have hfr : u = { s with links := u.links, ledger := u.ledger, evRings := u.evRings } := by rw [← hu]; cases c <;> rfl
    obtain ⟨h1, h2, h3, h4⟩ := State.reject_spec (s := s) hlink rfl rfl rfl (by rw [hfr]) (by rw [hfr])
    refine ⟨u.reject c, ?_, h1, fun j hj => (h2 j hj).trans (hother j hj), h3, ?_, ?_⟩
    · refine congrArg Host.Outcome.next ((congrArg (State.cycleLog · s) e).trans (State.cycleLog_log _ s 0x0403 0xFFFF none [if c = .die then 1 else 0, k] ?_))
      rw [h4]
      exact hled
    · rw [h4]
      exact hled
    · rw [h4]
      exact congrArg (fun x : State => { x with links := (u.reject c).links, out := (u.reject c).out }) hfr
  have good (hq : seq = l.rxSeq ∨ f.type = tTRAIN) (h4 : f.type ≤ 4) (hres : reserved = false) (hu : s.unmatched c f = false) :
      s.badLink c f seq reserved = none := by
    rw [hres]
    exact State.badLink_none hq h4 hu
  have train {u : State} (hcrc : crcOk) (ht : f.type = tTRAIN) (hres : reserved = false) (h : s.takeTrain c seq = u) :
      s.flitReceive c flit = u :=
    (State.flitReceive_train hr hlen hcrc (good (.inr ht) (by rw [ht]; decide) hres (State.unmatched_of_type (by rw [ht]; decide))) ht).trans h
  have take {u : State} (ho : inOrder) (h4 : f.type < tTRAIN) (hu : s.unmatched c f = false) (hf : s.bufferFull c f = false)
      (h : (s.setLink c l.taken).takes c flit = u) : s.flitReceive c flit = u.ack c false seq := by
    obtain ⟨hcrc, hq, hres⟩ := ho
    rw [State.flitReceive_taken hr hlen hcrc (fun _ x => absurd hq x) (good (.inl hq) (Nat.le_of_lt h4) hres hu) (Nat.ne_of_lt h4) hf]
    exact congrArg (State.ack · c false seq) h
  refine ⟨fun hcrc => ?_, fun hcrc ht hq hn => ?_, fun hcrc ht hq hn => ?_, fun hcrc h4 hq => ?_, fun hcrc h4 hq hres => ?_,
    fun hcrc ht hres hme => ?_, fun hcrc ht hres hme hs => ?_, fun ho ht => ?_, fun ho ht he hd => ?_, fun ho ht hx hd hroom => ?_,
    fun ho ht hd hfull => ?_, fun ho ht hd => ?_, fun ho ht hd hx => ?_⟩
  · have e := State.flitReceive_crc (c := c) hr hlen hcrc
    generalize hu : State.setLink _ _ _ = u at e
    have hlink : u.link c = { l1 with crcFail := satAdd l.crcFail 1 } := by rw [← hu]; cases c <;> rfl
    have hother (j : Scope) (hj : j ≠ c) : u.link j = s.link j := by rw [← hu]; exact State.link_setLink_of_ne s _ hj
    have hfr : u = { s with links := u.links } := by rw [← hu]; cases c <;> rfl
    obtain ⟨h1, h2, h3, h4⟩ := State.reject_spec (s := s) hlink rfl rfl rfl (by rw [hfr]) (by rw [hfr])
    refine ⟨u.reject c, ?_, h1, fun j hj => (h2 j hj).trans (hother j hj), h3, ?_⟩
    · refine congrArg Host.Outcome.next ((congrArg (State.cycleLog · s) e).trans (State.cycleLog_same _ _ ?_))
      rw [h4, hfr]
    · rw [h4]
      exact congrArg (fun x : State => { x with links := (u.reject c).links, out := (u.reject c).out }) hfr
  · exact congrArg Host.Outcome.next ((congrArg (State.cycleLog · s) (State.flitReceive_discard hr hlen hcrc ht hq hn)).trans
      (State.cycleLog_same _ _ (State.setLink_ledger _ _ _)))
  · refine count hcrc (fun _ _ => hn) ?_
    rw [State.badLink, if_pos ⟨hq, ht⟩]
  · refine count hcrc (fun _ x => absurd hq x) ?_
    rw [State.badLink, if_neg (fun x => x.1 hq), if_pos h4]
  · refine count hcrc (fun ht x => (hq.elim x ht).elim) ?_
    rw [State.badLink, if_neg (fun x => hq.elim x.1 x.2), if_neg (Nat.not_lt.mpr h4), if_pos hres]
  · exact answer (train hcrc ht hres (State.takeTrain_known seq hme))
  · exact answer (train hcrc ht hres (State.takeTrain_first seq hme hs))
  · have room := State.bufferFull_false (s := s) (c := c) (f := f) (fun x => by rw [ht] at x; cases x) (fun x => by rw [ht] at x; cases x)
    exact answer ((take ho (by rw [ht]; decide) (State.unmatched_of_type (by rw [ht]; decide)) room (State.takes_idle ht)).trans
      (State.ack_setLink _ _ _ _ _))
  · have room := State.bufferFull_false (s := s) (c := c) (f := f) (fun _ => hd) (fun x => by rw [ht] at x; cases x)
    exact answer ((take ho (by rw [ht]; decide) (State.unmatched_of_type (by rw [ht]; decide)) room (State.takes_part_other _ ht hd he)).trans
      (State.ack_setLink _ _ _ _ _))
  · have room : s.bufferFull c f = false := by
      rw [Bool.eq_false_iff, Ne, State.bufferFull_iff]
      omega
    have e := take ho (by rw [ht]; decide) (State.unmatched_of_type (by rw [ht]; decide)) room (State.takes_part_early _ ht hd hx)
    obtain ⟨hl, hk, hset, hout, hfr⟩ := State.ack_buffer_spec s c l.taken flit seq
    generalize ((s.setLink c l.taken).buffer c flit).ack c false seq = t at e hl hk hset hout hfr
    refine ⟨t, ?_, hl, hk, hset, hout, hfr⟩
    exact congrArg Host.Outcome.next ((congrArg (State.cycleLog · s) e).trans (State.cycleLog_same _ _ (by rw [hfr])))
  · obtain ⟨hcrc, hq, hres⟩ := ho
    have full : s.bufferFull c f = true := (State.bufferFull_iff _ _ _).mpr ⟨hfull, .inl ⟨ht, hd⟩⟩
    have e := State.flitReceive_full hr hlen hcrc (fun _ x => absurd hq x)
      (good (.inl hq) (by rw [ht]; decide) hres (State.unmatched_of_type (by rw [ht]; decide))) (by rw [ht]; decide) full
    refine answer (e.trans ((State.driveWord_setLink _ _ _ _).trans ?_))
    have hh : (s.setLink c { s.link c with rxTrain := 0 }).holds = true := by simpa [State.holds] using hfull
    rw [hh]
  · have room := State.bufferFull_false (s := s) (c := c) (f := f) (fun x => by rw [ht] at x; cases x) (fun _ x => absurd hd x)
    exact answer ((take ho (by rw [ht]; decide) (State.unmatched_of_src hd) room (State.takes_final_own _ ht hd)).trans
      (State.ack_setLink _ _ _ _ _))
  · have room := State.bufferFull_false (s := s) (c := c) (f := f) (fun x => by rw [ht] at x; cases x) (fun _ _ => hx)
    exact answer ((take ho (by rw [ht]; decide) (by simp [State.unmatched, hx]) room (State.takes_final_other _ ht hd hx)).trans
      (State.ack_setLink _ _ _ _ _))

end Sys2Proof.Machine
end

section
/-! One command in flight changed: what `modInflight` does to the stream. -/
namespace Sys2Proof.Machine
open Sys2Proof Sys2Proof.Claims

theorem find?_updateFirst_self {α : Type} (p : α → Bool) {f : α → α} (hf : ∀ x, p x = true → p (f x) = true) (xs : List α) :
    (updateFirst p f xs).find? p = (xs.find? p).map f := by
  induction xs with
  | nil => rfl
  | cons x xs ih =>
    by_cases h : p x = true
    · simp [updateFirst, h, hf]
    · simpa [updateFirst, h] using ih

theorem find?_updateFirst_of_disjoint {α : Type} {p q : α → Bool} {f : α → α} (hx : ∀ x, p x = true → q x = false)
    (hf : ∀ x, p x = true → q (f x) = false) (xs : List α) : (updateFirst p f xs).find? q = xs.find? q := by
  induction xs with
  | nil => rfl
  | cons x xs ih =>
    by_cases h : p x = true
    · simp [updateFirst, h, hx, hf]
    · simp [updateFirst, h, List.find?_cons, ih]

section
variable (s : State)

theorem State.tag_of_inflight? {s : State} {tag : W16} {c : Inflight} (h : s.inflight? tag = some c) : c.tag = tag := by
  simpa using List.find?_some h

theorem State.inflight?_modInflight {tag : W16} {f : Inflight → Inflight} (hf : ∀ c, (f c).slot = c.slot) :
    (s.modInflight tag f).inflight? tag = (s.inflight? tag).map f :=
  find?_updateFirst_self (fun c : Inflight => c.tag == tag) (fun x h => by simpa [Inflight.tag, hf] using h) s.stream.inflight

theorem State.inflight?_modInflight_of_ne {tag g : W16} (h : g ≠ tag) {f : Inflight → Inflight} (hf : ∀ c, (f c).slot = c.slot) :
    (s.modInflight tag f).inflight? g = s.inflight? g := by
  refine find?_updateFirst_of_disjoint (p := fun c : Inflight => c.tag == tag) (fun x hx => ?_) (fun x hx => ?_) s.stream.inflight
  · rw [beq_iff_eq] at hx
    simp [hx, Ne.symm h]
  · rw [beq_iff_eq] at hx
    simp only [Inflight.tag, hf, beq_eq_false_iff_ne]
    exact fun e => h (e.symm.trans hx)

theorem State.modInflight_modInflight (tag : W16) {f g : Inflight → Inflight} (hf : ∀ c, (f c).slot = c.slot) :
    (s.modInflight tag f).modInflight tag g = s.modInflight tag fun c => g (f c) := by
  have h (xs : List Inflight) (p : Slot → Bool) :
      updateFirst (fun c => p c.slot) g (updateFirst (fun c => p c.slot) f xs) = updateFirst (fun c => p c.slot) (fun c => g (f c)) xs := by
    induction xs with
    | nil => rfl
    | cons x xs ih => cases hx : p x.slot <;> simp [updateFirst, hx, hf, ih]
  simp only [State.modInflight, State.modStream]
  exact congrArg (fun l => { s with stream := { s.stream with inflight := l } }) (h s.stream.inflight fun x => x.tag == tag)

/-- A change of the command with a tag is a change of that command alone. -/
theorem State.onlyCommand_modInflight {s : State} {tag : W16} {c : Inflight} (h : s.inflight? tag = some c) {f : Inflight → Inflight}
    (hf : ∀ c, (f c).slot = c.slot) : onlyCommand s (s.modInflight tag f) tag (f c) := by
  refine ⟨rfl, length_updateFirst _ _ _, ?_, fun g hg => s.inflight?_modInflight_of_ne hg hf⟩
  rw [s.inflight?_modInflight hf, h]
  rfl

end

section
variable {s t u : State} {tag : W16} {c d : Inflight}

theorem State.inflight?_congr (h : t.stream = s.stream) (g : W16) : t.inflight? g = s.inflight? g := by
  rw [State.inflight?, h, State.inflight?]

/-- Whether one command alone has changed is seen in the stream. -/
theorem onlyCommand_congr (h : onlyCommand s t tag c) (hs : u.stream = s.stream) (ht : d = c) {v : State} (hv : v.stream = t.stream) :
    onlyCommand u v tag d := by
  obtain ⟨h1, h2, h3, h4⟩ := h
  subst ht
  refine ⟨by rw [hv, h1, hs], by rw [hv, hs, h2], (State.inflight?_congr hv _).trans h3, fun g hg => ?_⟩
  rw [State.inflight?_congr hv, State.inflight?_congr hs]
  exact h4 g hg

theorem onlyCommand_trans (h : onlyCommand s t tag c) (k : onlyCommand t u tag d) : onlyCommand s u tag d := by
  obtain ⟨h1, h2, _, h4⟩ := h
  obtain ⟨k1, k2, k3, k4⟩ := k
  refine ⟨?_, k2.trans h2, k3, fun g hg => (k4 g hg).trans (h4 g hg)⟩
  rw [k1, h1]

/-- Two changes of one command after another. -/
theorem onlyCommand_modInflight (h : onlyCommand s t tag c) {f : Inflight → Inflight} (hf : ∀ c, (f c).slot = c.slot) :
    onlyCommand s (t.modInflight tag f) tag (f c) :=
  onlyCommand_trans h (State.onlyCommand_modInflight h.2.2.1 hf)

end

@[simp] theorem State.send_stream (s : State) (c : Scope) (fs : List Flit) : (s.send c fs).stream = s.stream := by cases c <;> rfl

theorem State.send_link (s : State) (c : Scope) (fs : List Flit) :
    (s.send c fs).link c = { s.link c with queue := (s.link c).queue ++ fs.map fun f => f.bytes 0 } := State.link_setLink _ _ _

theorem State.send_link_of_ne (s : State) {c k : Scope} (h : k ≠ c) (fs : List Flit) : (s.send c fs).link k = s.link k :=
  State.link_setLink_of_ne s _ h

theorem State.send_frame (s : State) (c : Scope) (fs : List Flit) : s.send c fs = { s with links := (s.send c fs).links } := by
  cases c <;> rfl

end Sys2Proof.Machine
end

section
/-! The participants' side of a `SETTLE`. -/
namespace Sys2Proof.Machine
open Sys2Proof Sys2Proof.Claims

/-! ### Clean reads -/

theorem State.readStructure_clean {s : State} {n : Nat} (h : s.codeErrors n = []) (tag : W16) (ctx : Option (BitVec 3)) (places : List Nat) :
    s.readStructure n tag ctx places = s := by
  simp [State.readStructure, h]

theorem State.readBuffer_clean {s : State} (h : ∀ b ∈ s.setBuf, b.synd = []) (c : Inflight) (m : Cmd) (row : Nat) :
    s.readBuffer c m row = s := by
  have : (s.setBuf.filter fun b => b.ofRow c m row && !b.synd.isEmpty) = [] := by
    rw [List.filter_eq_nil_iff]
    intro b hb
    simp [h b hb]
  simp [State.readBuffer, this]

theorem State.bufferBad_clean {s : State} (h : ∀ b ∈ s.setBuf, b.synd = []) (c : Inflight) (m : Cmd) (row : Nat) :
    s.bufferBad c m row = none := by
  rw [State.bufferBad, Option.map_eq_none_iff, List.find?_eq_none]
  intro b hb
  simp [h b hb]

/-- A source read from clean stores changes nothing. -/
theorem State.sourceRow_clean {s : State} (hspad : s.spad.synd = []) (hrow : s.st.rowSynd = []) (c : Inflight) (m : Cmd) (r : Nat) :
    s.sourceRow c m r = (s, none, (s.sourceRow c m r).2.2) := by
  rw [State.sourceRow]
  split
  · dsimp only
    rw [checkWords_clean _ _ _ _ hspad]
  · dsimp only
    rw [State.readStructure_clean (n := 2) hrow]

/-! ### A row of a `SETTLE` -/

/-- The row of a participant that has sent its part. -/
def Inflight.passed (cycle r : Nat) (c : Inflight) : Inflight := { c.modRow r fun w => { w with sent := true } with since := cycle }

/-- A row of a `SETTLE` that can go on: its command is in flight with no fault and no conflict, and the row is not settled. -/
structure RowOpen (s : State) (c : Inflight) (r : Nat) : Prop where
  inflight : s.inflight? c.tag = some c
  fault : c.fault = none
  conflict : c.conflict = none
  op : c.cmd.op = .settle
  row : r < c.cmd.settleRows
  settled : (c.row? r).settled = false
  final : (c.row? r).final = none
  buffer : ∀ b ∈ s.setBuf, b.synd = []

section
variable {s : State} {c : Inflight} {m : Cmd} {r : Nat}

theorem State.advanceRow_open (h : RowOpen s c r) : s.advanceRow c.tag r =
    if (c.row? r).sent then s.gatherRow c c.cmd r else s.reduceRow c c.cmd r := by
  obtain ⟨h1, h2, h3, h4, h5, h6, h7, h8⟩ := h
  rw [State.advanceRow, h1]
  simp only [h2, h3, h4, h6, h7, Nat.not_le.mpr h5, Option.isSome_none, Bool.false_eq_true, ne_eq, not_true_eq_false, or_self, if_false]
  rw [State.readBuffer_clean h8, State.bufferBad_clean h8]

theorem State.partSend_open {row : W16} (hs : started s) (h : RowOpen s c row.toNat) : s.partSend c.tag row =
    if (c.row? row.toNat).sent then s.gatherRow c c.cmd row.toNat else s.reduceRow c c.cmd row.toNat := by
  rw [State.partSend, if_pos (running_of s hs.1 hs.2), State.advanceRow_open h]

/-- The reduce phase over clean stores. -/
theorem State.reduceRow_clean (hr : s.sourceReady c c.cmd r = true) (hspad : s.spad.synd = []) (hrow : s.st.rowSynd = []) :
    s.reduceRow c c.cmd r = let own := (s.sourceRow c c.cmd r).2.2
      if !sourceOk c c.cmd own then s.mismatch c r (s.position c.cmd.scope)
      else if c.modes.strict then s.strictStep c c.cmd r own else s.fastStep c c.cmd r own := by
  rw [State.reduceRow, State.sourceRow_clean hspad hrow, hr]
  rfl

/-- A strict participant that comes first after the owner sends its source (R214). -/
theorem State.strictStep_first (h : s.position m.scope = m.after (m.owner r)) (own : RowSt) : s.strictStep c m r own =
    (s.modInflight c.tag (Inflight.passed s.tb.cycle r)).send m.scope
      (c.flits m tPART (s.position m.scope) (m.after (s.position m.scope)) r own.bytes) := by
  rw [State.strictStep]
  dsimp only
  rw [if_pos h]
  cases m.scope <;> rfl

/-- A strict participant further on, or the owner, that has the record of the one before it (R214). -/
theorem State.strictStep_record (h : s.position m.scope ≠ m.after (m.owner r)) (own : RowSt) {bs : List Byte}
    (hb : s.bufRecord c m tPART (m.before (s.position m.scope)) r = some bs) (hh : s.position m.scope = m.owner r → s.placeHeld c m r = false) :
    s.strictStep c m r own =
      let u := s.dropRecord c m tPART (m.before (s.position m.scope)) r
      match mergeRows (RowSt.ofBytes bs) own c.slot.epoch with
      | none => u.mismatch c r (m.before (s.position m.scope))
      | some x =>
        if s.position m.scope = m.owner r then (u.modInflight c.tag fun c => c.modRow r fun w => { w with sent := true }).finalRow c m r own x.bytes
        else (u.modInflight c.tag (Inflight.passed s.tb.cycle r)).send m.scope
          (c.flits m tPART (s.position m.scope) (m.after (s.position m.scope)) r x.bytes) := by
  have hheld : ¬ (s.position m.scope = m.owner r ∧ s.placeHeld c m r = true) := by
    rintro ⟨a, b⟩
    simp [hh a] at b
  rw [State.strictStep]
  dsimp only
  rw [if_neg h, hb]
  dsimp only
  rw [if_neg hheld]
  cases mergeRows (RowSt.ofBytes bs) own c.slot.epoch with
  | none => rfl
  | some x =>
    dsimp only
    split
    · rfl
    · rw [State.modInflight_modInflight (f := fun c => c.modRow r fun w => { w with sent := true }) _ _ fun _ => rfl]
      rfl

/-- A fast participant sends its source to the owner (R214). -/
theorem State.fastStep_participant (h : s.position m.scope ≠ m.owner r) (own : RowSt) : s.fastStep c m r own =
    (s.modInflight c.tag (Inflight.passed s.tb.cycle r)).send m.scope
      (c.flits m tPART (s.position m.scope) (m.owner r) r own.bytes) := by
  rw [State.fastStep]
  dsimp only
  rw [if_pos h]
  cases m.scope <;> rfl

end

/-- A part sent: one command and one queue changed. -/
theorem State.sentPart_spec {s : State} {c : Inflight} (hin : s.inflight? c.tag = some c) (b : List BufFlit) {f : Inflight → Inflight}
    (hf : ∀ c, (f c).slot = c.slot) (k : Scope) (fs : List Flit) :
    let t := (State.modInflight { s with setBuf := b } c.tag f).send k fs
    onlyCommand s t c.tag (f c) ∧ t.link k = { s.link k with queue := (s.link k).queue ++ fs.map fun f => f.bytes 0 }
      ∧ (∀ j, j ≠ k → t.link j = s.link j) ∧ t = { s with stream := t.stream, links := t.links, setBuf := t.setBuf }
      ∧ t.setBuf = b ∧ t.ledger = s.ledger := by
  have h := State.onlyCommand_modInflight hin hf
  refine ⟨onlyCommand_congr h rfl rfl ?_, State.send_link _ _ _, fun j hj => State.send_link_of_ne _ hj _, ?_, ?_, ?_⟩
  · rw [State.send_stream]
    rfl
  · cases k <;> rfl
  · cases k <;> rfl
  · cases k <;> rfl

/-- Settles O38: a row that can go on takes the branch of `reduceRow` that its place among the participants gives it. -/
theorem participantsSendTheirParts : Obligations.ParticipantsSendTheirParts := by
  intro c row s m r me own hs hin hf hc hop hr hset hsent hfin hready hspad hrow hbuf hsrc first queued
  have hopen : RowOpen s c r := ⟨hin, hf, hc, hop, hr, hset, hfin, hbuf⟩
  have step : s.partSend c.tag row = if c.modes.strict then s.strictStep c m r own else s.fastStep c m r own := by
    rw [State.partSend_open hs hopen, if_neg (by simpa using hsent), State.reduceRow_clean hready hspad hrow]
    dsimp only
    rw [hsrc]
    rfl
  have done {t : State} (h : s.partSend c.tag row = t) (hl : t.ledger = s.ledger) : exec (.partSend c.tag row) s = .next t :=
    congrArg Host.Outcome.next ((congrArg (State.cycleLog · s) h).trans (State.cycleLog_same _ _ hl))
  refine ⟨fun hfirst => ?_, fun bs x hstrict hme hown hrec hmerge => ?_⟩
  · have e : s.partSend c.tag row = (s.modInflight c.tag (Inflight.passed s.tb.cycle r)).send m.scope
        (c.flits m tPART me (if c.modes.strict then m.after me else m.owner r) r own.bytes) := by
      rw [step]
      cases hstrict : c.modes.strict with
      | true => exact State.strictStep_first (by simpa [hstrict] using hfirst) own
      | false => exact State.fastStep_participant (by simpa [hstrict] using hfirst) own
    obtain ⟨h1, h2, h3, h4, h5, h6⟩ := State.sentPart_spec hin s.setBuf (f := Inflight.passed s.tb.cycle r) (fun _ => rfl) m.scope
      (c.flits m tPART me (if c.modes.strict then m.after me else m.owner r) r own.bytes)
    exact ⟨_, done e h6, ⟨h1, h2, h3, h4⟩, h5⟩
  · have e := step.trans ((if_pos hstrict).trans (State.strictStep_record (m := m) hme own hrec fun h => (hown h).elim))
    dsimp only at e
    rw [hmerge] at e
    replace e := e.trans (if_neg hown)
    obtain ⟨h1, h2, h3, h4, h5, h6⟩ := State.sentPart_spec hin (s.dropRecord c m tPART (m.before me) r).setBuf
      (f := Inflight.passed s.tb.cycle r) (fun _ => rfl) m.scope (c.flits m tPART me (m.after me) r x.bytes)
    exact ⟨_, done e h6, ⟨h1, h2, h3, h4⟩, h5⟩

end Sys2Proof.Machine
end

section
/-! What a retirement does: the command leaves, and everything else stays as its effect has left it. -/
namespace Sys2Proof.Machine
open Sys2Proof Sys2Proof.Claims

/-! ### Claims that go -/

/-- A state that differs in claims and rolls alone. -/
def State.withClaims (s : State) (cs : List Claim) (rs : Vector Roll 16) : State :=
  { s with stream := { s.stream with claims := cs }, rolls := rs }

theorem State.settleTail_withClaims (s : State) (i : Nat) : s.settleTail i = s.withClaims s.stream.claims (s.settleTail i).rolls := rfl

theorem State.foldl_settleTail (xs : List Claim) (s : State) :
    ∃ rs, xs.foldl (fun s c => if c.produce then s else s.settleTail c.roll) s = s.withClaims s.stream.claims rs := by
  induction xs generalizing s with
  | nil => exact ⟨s.rolls, rfl⟩
  | cons x xs ih =>
    rw [List.foldl_cons]
    cases x.produce with
    | true => exact ih s
    | false => exact ih (s.settleTail x.roll)

/-- The claims of a command as they leave (R301). -/
def State.claimsWithout (s : State) (tag : W16) : List Claim :=
  (s.stream.claims.filter fun c =>
      c.tag != tag || (c.produce && decide (c.n ≤ c.done) && seqBefore (s.roll c.roll).hseq (c.seq c.n))).map fun c =>
    if c.tag == tag then { c with tag := noTag } else c

theorem State.dropClaims_frame (s : State) (tag : W16) : ∃ rs, s.dropClaims tag = s.withClaims (s.claimsWithout tag) rs :=
  State.foldl_settleTail _ _

/-- A command without claims leaves none. -/
theorem State.dropClaims_none {s : State} {tag : W16} (h : ∀ x ∈ s.stream.claims, x.tag ≠ tag) : s.dropClaims tag = s := by
  have h1 : (s.stream.claims.filter fun c => c.tag == tag) = [] := List.filter_eq_nil_iff.mpr (by simpa using h)
  have h2 : s.claimsWithout tag = s.stream.claims := by
    rw [State.claimsWithout, List.filter_eq_self.mpr fun x hx => by simp [h x hx]]
    conv => rhs; rw [← List.map_id s.stream.claims]
    exact List.map_congr_left fun x hx => by simp [h x hx]
  have : s.dropClaims tag = ([] : List Claim).foldl (fun s c => if c.produce then s else s.settleTail c.roll)
      (s.modStream fun st => { st with claims := s.claimsWithout tag }) := by
    rw [← h1]
    rfl
  rw [this, h2]
  rfl

theorem State.mem_claimsWithout {s : State} {tag : W16} {x : Claim} (hx : x.tag ≠ tag) (hn : x.tag ≠ noTag) :
    x ∈ s.claimsWithout tag ↔ x ∈ s.stream.claims := by
  rw [State.claimsWithout, List.mem_map]
  constructor
  · rintro ⟨y, hy, e⟩
    by_cases ht : y.tag = tag
    · rw [if_pos (by simpa using ht)] at e
      exact absurd (by rw [← e]) hn
    · rw [if_neg (by simpa using ht)] at e
      exact e ▸ (List.mem_filter.mp hy).1
  · intro h
    exact ⟨x, List.mem_filter.mpr ⟨h, by simp [hx]⟩, by simp [hx]⟩

/-! ### The command leaves -/

/-- The state without a command's claims, holds and place, its fault noted in the digest's summary (R290, R301). -/
def State.freed (s : State) (c : Inflight) (cs : List Claim) (rs : Vector Roll 16) (cur prev : Digest) : State :=
  { s with
    stream := { s.stream with
      claims := cs, inflight := s.stream.inflight.drop 1 ++ s.stream.refused.take 1, refused := s.stream.refused.drop 1
      lastTag := if c.cmd.op = .tenant ∧ c.fault.isNone then noTag else c.tag }
    escrow := { s.escrow with
      entries := s.escrow.entries.filter fun e => e.tag != c.tag, order := s.escrow.order.filter fun g => g != c.tag }
    rolls := rs, prov := { s.prov with cur := cur, prev := prev }, pw := { s.pw with idleSince := s.tb.cycle }
    ft := { s.ft with tallyTags := s.ft.tallyTags.filter fun g => g != c.tag }
    ledger := (accNote s c).ledger, evRings := (accNote s c).evRings }

/-- The pieces of a command without beats, counted at its retirement. -/
def State.pieced (s : State) (c : Inflight) : State :=
  if c.total = 0 then (s.bump 17 c.pieces.1.length).bump 18 c.pieces.2.length else s

/-- The slips that a command without beats may add (log 48). -/
def State.slipped (s : State) (c : Inflight) : SpadHealth :=
  if c.total ≠ 0 ∨ c.pieces = ([], []) then s.spad.health
  else { s.spad.health with slips := satAdd s.spad.health.slips (Config.slips c.tag.toNat 0 s.tb.cycle) }

/-- The state without a command's claims and holds. -/
def State.unheld (s : State) (c : Inflight) (rs : Vector Roll 16) : State :=
  ((s.withClaims (s.claimsWithout c.tag) rs).endHolds c.tag).modEscrow fun e => { e with order := e.order.filter fun t => t != c.tag }

theorem State.leave_eq {s : State} {c : Inflight} (hr : c.refused = false) :
    ∃ rs cur prev, s.dropClaims c.tag = s.withClaims (s.claimsWithout c.tag) rs ∧ s.leave c c.cmd =
    { s.freed c (s.claimsWithout c.tag) rs cur prev with
      act := ((s.pieced c).bump 21 1).act, spad := { s.spad with health := s.slipped c }
      out := { s.out with cpl := s.out.cpl ++ [c.completion c.cmd], accRelease := s.out.accRelease + if c.takesAcc then 1 else 0 } } := by
  obtain ⟨rs, hrs⟩ := s.dropClaims_frame c.tag
  have note (u : State) (f : Summary → Summary) : ∃ a b, u.noteEpoch c.slot.epoch f = u.withDigests a b := noteEpoch_digests u _ f
  rw [State.leave]
  dsimp only
  rw [hr, hrs]
  generalize hn : State.noteEpoch _ _ _ = v
  obtain ⟨cur, prev, hv⟩ := note _ _
  rw [hv] at hn
  subst hn
  have noted : ∃ a b, (if c.accpv = 0 then (s.unheld c rs).withDigests cur prev
      else (((s.unheld c rs).withDigests cur prev).log cACCPV c.tag (some c.slot.tenant) (bv 4 c.accpv)).noteEpoch c.slot.epoch
        fun x => { x with accpv := true })
      = { (s.unheld c rs).withDigests a b with ledger := (accNote s c).ledger, evRings := (accNote s c).evRings } := by
    rw [accNote]
    split
    · exact ⟨cur, prev, rfl⟩
    · obtain ⟨a, b, e⟩ := note (((s.unheld c rs).withDigests cur prev).log cACCPV c.tag (some c.slot.tenant) (bv 4 c.accpv))
        fun x => { x with accpv := true }
      exact ⟨a, b, e.trans rfl⟩
  obtain ⟨a, b, noted⟩ := noted
  refine ⟨rs, a, b, rfl, ?_⟩
  rw [State.unheld] at noted
  simp only [Bool.false_eq_true, if_false]
  rw [noted]
  have hp : (c.pieces.1.isEmpty && c.pieces.2.isEmpty) = decide (c.pieces = ([], [])) := by
    rw [Bool.eq_iff_iff, decide_eq_true_iff, Bool.and_eq_true, List.isEmpty_iff, List.isEmpty_iff]
    exact ⟨fun h => Prod.ext h.1 h.2, fun h => by rw [h]; exact ⟨rfl, rfl⟩⟩
  rw [hp, State.pieced, State.slipped]
  by_cases ht : c.total = 0
  · by_cases hp : c.pieces = ([], [])
    · simp only [ht, hp, beq_self_eq_true, Bool.not_false, Bool.and_self, decide_true, if_true, or_true]
      apply State.ext_fields <;> simp [State.freed, State.withClaims, State.endHolds]
    · simp only [ht, hp, beq_self_eq_true, Bool.not_false, Bool.and_self, decide_false, Bool.false_eq_true, if_true, if_false, ne_eq,
        not_true_eq_false, or_self]
      apply State.ext_fields <;> simp [State.freed, State.withClaims, State.endHolds]
  · simp only [ht, beq_eq_false_iff_ne.mpr ht, Bool.and_false, Bool.false_eq_true, if_false, ne_eq, not_false_eq_true, true_or, if_true]
    apply State.ext_fields <;> simp [State.freed, State.withClaims, State.endHolds]

theorem completion_eq {c : Inflight} (hr : c.refused = false) : c.completion c.cmd =
    completes c (c.fault.getD 0) (if c.cmd.counts then c.vanish else c.d0) (if c.cmd.counts then c.satcnt else c.d1) := by
  rw [Inflight.completion, hr, completes, record]
  simp only [Bool.false_eq_true, if_false]
  rw [completionRecord_fields _ _ _ _ _ _ _ (statusByte_lt c) (Nat.lt_trans c.replays.isLt (by decide))]
  congr
  exact BitVec.eq_of_toNat_eq (by simp)

theorem State.accNote_stream (s : State) (c : Inflight) : (accNote s c).stream = s.stream := by
  rw [accNote]
  split <;> rfl

/-- A command that leaves departs (R290, R301). -/
theorem State.leave_departs (s z : State) {c : Inflight} (hr : c.refused = false) :
    departs s ((s.leave c c.cmd).cycleLog z) c (completes c (c.fault.getD 0) (if c.cmd.counts then c.vanish else c.d0)
      (if c.cmd.counts then c.satcnt else c.d1)) z := by
  obtain ⟨rs, cur, prev, hdrop, e⟩ := State.leave_eq (s := s) hr
  rw [← completion_eq hr, e]
  have hlast : (if c.cmd.op = .tenant ∧ c.fault.isNone = true then noTag else c.tag)
      = if c.cmd.op = .tenant ∧ c.fault = none then 0xFFFF else c.tag := if_congr (by simp) rfl rfl
  refine ⟨?_, fun h => ?_, fun x hx => ?_, rfl, rfl, rfl, rfl, rfl, rfl, rfl, rfl, ⟨rfl, ?_, fun h => ?_⟩, ?_⟩
  · rw [← hlast]
    rfl
  · have := hdrop.symm.trans (State.dropClaims_none h)
    have hcs : s.claimsWithout c.tag = s.stream.claims := congrArg (fun u : State => u.stream.claims) this
    have hrs : rs = s.rolls := congrArg State.rolls this
    exact ⟨hcs, hrs⟩
  · by_cases hn : x.tag = 0xFFFF
    · exact .inr hn
    · exact .inl (State.mem_claimsWithout hx hn)
  · simp only [State.cycleLog_spad, State.slipped]
    split <;> rfl
  · simp only [State.cycleLog_spad, State.slipped]
    rw [if_pos h]
  · rfl

/-! ### The retirement of the oldest command -/

theorem State.cycleLog_congr {s z : State} (t : State) (h : s.ledger = z.ledger) : t.cycleLog s = t.cycleLog z := by
  rw [State.cycleLog, h, State.cycleLog]

theorem refused_of_fault_none {c : Inflight} (h : c.fault = none) : c.refused = false := by simp [Inflight.refused, h]
theorem refused_of_not_ready {c : Inflight} (h : c.ready = false) : c.refused = false := by simp [Inflight.refused, h]

/-- A command without a fault that may retire, and no fault of which shows only now. -/
structure Retiring (s : State) (c : Inflight) (rest : List Inflight) : Prop where
  started : started s
  head : s.stream.inflight = c :: rest
  fault : c.fault = none
  ready : s.retireReady c c.cmd = true
  conflict : c.conflict = none ∨ c.total ≠ 0
  badRow : c.badRow = none

section
variable {s : State} {c : Inflight} {rest : List Inflight}

theorem State.lastFault_none (h : Retiring s c rest) : s.lastFault c = s := by
  rw [State.lastFault, h.fault]
  simp only [Option.isSome_none, Bool.false_eq_true, if_false, h.badRow]
  split
  · next hk => rw [if_neg (h.conflict.resolve_left (by simp [hk]))]
  · rfl

/-- The retirement of a command that meets no fault. -/
theorem State.commandRetirement_done (h : Retiring s c rest) (ha : (s.acquireAll (s.allSlots c)).2 = true) : s.commandRetirement =
    let u := ((s.acquireAll (s.allSlots c)).1.completeAll c).retireEffect c c.cmd
    let d := (u.inflight? c.tag).getD c
    (u.combine d c.cmd).leave d c.cmd := by
  rw [State.commandRetirement, h.head]
  dsimp only
  rw [running_of s h.started.1 h.started.2, h.ready, refused_of_fault_none h.fault, State.lastFault_none h,
    inflight?_head s c rest h.head, Option.getD_some, h.fault, ha]
  rfl

/-- A command without claims acquires and completes none. -/
theorem State.allSlots_none (h : ∀ x ∈ s.stream.claims, x.tag ≠ c.tag) : s.allSlots c = [] := by
  rw [State.allSlots, List.filter_eq_nil_iff.mpr (by simpa using h), List.map_nil]

theorem State.completeAll_none (h : ∀ x ∈ s.stream.claims, x.tag ≠ c.tag) : s.completeAll c = s := by
  rw [State.completeAll, List.filter_eq_nil_iff.mpr fun x hx => by simp [h x hx], List.foldl_nil]

theorem State.commandRetirement_plain (h : Retiring s c rest) (hc : ∀ x ∈ s.stream.claims, x.tag ≠ c.tag) : s.commandRetirement =
    let u := s.retireEffect c c.cmd
    let d := (u.inflight? c.tag).getD c
    (u.combine d c.cmd).leave d c.cmd := by
  have e := State.allSlots_none hc
  rw [State.commandRetirement_done h (by rw [e]; rfl), e]
  exact congrArg (fun w : State => let u := w.retireEffect c c.cmd
    let d := (u.inflight? c.tag).getD c
    (u.combine d c.cmd).leave d c.cmd) (State.completeAll_none hc)

theorem State.combine_none (s : State) (d : Inflight) {m : Cmd} (h1 : m.rc.aen = false) (h2 : m.rc.amen = false)
    (h3 : m.op = .assay → bitsOf m.chain 18 16 ≠ 3) : s.combine d m = s := by
  have : (m.op == .assay && bitsOf m.chain 18 16 == 3) = false := by
    rw [Bool.eq_false_iff]
    intro h
    simp only [Bool.and_eq_true, beq_iff_eq] at h
    exact h3 h.1 h.2
  rw [State.combine, h1, h2, this]
  simp

end

end Sys2Proof.Machine
end

section
/-! Writes over a scratchpad whose words are clean, and the retirement of a command that changes nothing else. -/
namespace Sys2Proof.Machine
open Sys2Proof Sys2Proof.Claims

/-! ### Sparse stores -/

/-- A write leaves every other place alone, also where the store is not in canonical form. -/
theorem sparseGet_set_of_ne {β : Type} [DecidableEq β] (d : β) (m : List (Nat × β)) {a x : Nat} (b : β) (h : x ≠ a) :
    sparseGet d (sparseSet d m a b) x = sparseGet d m x := by
  induction m with
  | nil => by_cases e : b = d <;> simp [sparseSet, sparseGet, e, h.symm]
  | cons c r ih =>
    obtain ⟨y, v⟩ := c
    by_cases h1 : a < y
    · by_cases e : b = d <;> simp [sparseSet, sparseGet, h1, e, h.symm]
    · by_cases h2 : a = y
      · subst h2
        by_cases e : b = d <;> simp [sparseSet, sparseGet, e, h.symm]
      · simp [sparseSet, sparseGet, h1, h2, ih]

theorem Memory.read_mergeBytes_of_ne (m : List Host.Cell) (ws : List (Nat × Byte × Byte)) {x : Nat} (h : ∀ w ∈ ws, w.1 ≠ x) :
    Memory.read (mergeBytes m ws) x = Memory.read m x := by
  induction ws generalizing m with
  | nil => rfl
  | cons w ws ih =>
    obtain ⟨a, mask, b⟩ := w
    rw [mergeBytes, ih _ fun w hw => h w (List.mem_cons_of_mem _ hw)]
    exact sparseGet_set_of_ne _ _ _ (h _ List.mem_cons_self).symm

/-- The Till after one write. -/
def tillWrite (t : List (Nat × W32)) : Wr → List (Nat × W32)
  | .till e l v => sparseSet 0 t (256 * e + l) v
  | _ => t

/-- Whether a write is of a Till cell. -/
def Wr.inCell (k : Nat) : Wr → Bool
  | .till e l _ => 256 * e + l == k
  | _ => false

/-- Till lanes written: those that no write names stay. -/
theorem sparseGet_tillWrites_of_ne (t : List (Nat × W32)) (ws : List Wr) {i : Nat}
    (h : ∀ w ∈ ws, ∀ e l v, w = Wr.till e l v → 256 * e + l ≠ i) : sparseGet 0 (ws.foldl tillWrite t) i = sparseGet 0 t i := by
  induction ws generalizing t with
  | nil => rfl
  | cons w ws ih =>
    rw [List.foldl_cons, ih _ fun w hw => h w (List.mem_cons_of_mem _ hw)]
    cases w with
    | till e l v => exact sparseGet_set_of_ne _ _ _ (h _ List.mem_cons_self e l v rfl).symm
    | mem a m b => rfl
    | acc p x => rfl

/-! ### Writes -/

section
variable {s : State} (tag : W16) (ws : List Wr)

/-- The stores of the lanes after writes. -/
def Stores.wrote (st : Stores) (ws : List Wr) : Stores :=
  { st with
    till := ws.foldl tillWrite st.till, tillSynd := st.tillSynd.filter fun x => !ws.any (Wr.inCell x.1)
    tillBad := st.tillBad.filter fun e => !coversEntry ws e }

/-- The scratchpad after masked bytes, over words that are clean (R274, R280). -/
def Spad.wrote (p : Spad) (ms : List (Nat × Byte × Byte)) : Spad :=
  { (if p.wb.isEmpty then p else p.cancelWb (touchedWords ms)) with mem := mergeBytes p.mem ms }

theorem State.writeBytes_clean (h : s.spad.synd = []) (port : Nat) (ctx : Option (BitVec 3)) (ms : List (Nat × Byte × Byte)) :
    s.writeBytes port tag ctx ms = { s with spad := s.spad.wrote ms } := by
  simp only [State.writeBytes, h, List.isEmpty_nil, if_true]
  rfl

theorem State.doWrites_clean (h : s.spad.synd = []) : s.doWrites tag ws =
    { s with spad := s.spad.wrote ((memWrites ws).filter fun x => decide (x.1 < s.spadBytes)), st := s.st.wrote ws } := by
  rw [State.doWrites, State.writeBytes_clean tag h]
  rfl

theorem Spad.wrote_frame (p : Spad) (ms : List (Nat × Byte × Byte)) :
    p.wrote ms = { p with mem := mergeBytes p.mem ms, wb := (p.wrote ms).wb } := by
  rw [Spad.wrote]
  split <;> rfl

theorem storesOnly_wrote (t : State) (h : t.spad = s.spad.wrote ((memWrites ws).filter fun x => decide (x.1 < s.spadBytes))) :
    storesOnly s t ws := by
  rw [Spad.wrote_frame] at h
  refine ⟨by rw [h], fun a ha => ?_⟩
  rw [h]
  exact Memory.read_mergeBytes_of_ne _ _ fun w hw => ha w (List.mem_filter.mp hw).1

end

/-! ### Retirements that change nothing else -/

section
variable {s : State} {c : Inflight} {rest : List Inflight}

/-- A command that counts no elements and leaves nothing to be done at its retirement. -/
theorem departs_alone (h : Retiring s c rest) (hc : ∀ x ∈ s.stream.claims, x.tag ≠ c.tag) (he : s.retireEffect c c.cmd = s)
    (h1 : c.cmd.rc.aen = false) (h2 : c.cmd.rc.amen = false) (h3 : c.cmd.op = .assay → bitsOf c.cmd.chain 18 16 ≠ 3)
    (hn : c.cmd.counts = false) :
    ∃ t, exec .commandRetirement s = .next t ∧ departs s t c (completes c 0 c.d0 c.d1) := by
  have e : s.commandRetirement = s.leave c c.cmd := by
    rw [State.commandRetirement_plain h hc]
    dsimp only
    rw [he, inflight?_head s c rest h.head, Option.getD_some, State.combine_none s c h1 h2 h3]
  have d := State.leave_departs s s (refused_of_fault_none h.fault)
  rw [hn, h.fault] at d
  exact ⟨_, congrArg (fun t : State => Host.Outcome.next (t.cycleLog s)) e, d⟩

/-- Whether a command without a fault has done what it had to do, but for its beats in flight (R335 to R338). -/
def State.finished (s : State) (c : Inflight) : Bool :=
  match c.cmd.op with
  | .settle => (c.settle.all fun r => r.settled) && !s.unacked c c.cmd
  | .mint | .fnsync | .rollset | .waitgc | .tenant => c.ready
  | _ => c.started == c.total && decide (c.cmd.rowSteps c.regs ≤ c.rowsDone)

/-- The conditions of a retirement whose command has no beats and no rows in flight. -/
theorem retireReady_of (hs : s.stopped c.tag = false) (hcfg : c.cmd.op = .cfg → s.accessWaits = false) (hb : c.beats = []) (hh : c.hard = [])
    (hr : s.rowReady c = false) (hf : c.fault = none) :
    s.retireReady c c.cmd = s.finished c := by
  have hw : (c.cmd.op == .cfg && c.fault.isNone && s.accessWaits) = false := by
    rw [Bool.eq_false_iff]
    intro h
    simp only [Bool.and_eq_true, beq_iff_eq] at h
    simp [hcfg h.1.1] at h
  rw [State.retireReady, hs, hw, refused_of_fault_none hf, hb, hh, hr, hf]
  simp only [Bool.not_false, Bool.true_and, Bool.false_or, List.isEmpty_nil, Option.isSome_none]
  rfl

end

end Sys2Proof.Machine
end

section
/-! The owner's side of a `SETTLE`, and its end. -/
namespace Sys2Proof.Machine
open Sys2Proof Sys2Proof.Claims

/-! ### A settled record takes its place -/

theorem commandOnly_of {u t : State} {tag : W16} {d : Inflight} (h : onlyCommand u t tag d) (hr : t.rolls = u.rolls) :
    commandOnly u t tag d := by
  obtain ⟨h1, h2, h3, h4⟩ := h
  refine ⟨?_, h2, h3, h4, fun _ => ⟨?_, hr⟩⟩
  · rw [h1]
  · rw [h1]

/-- A row stored, writes made and a command changed: what takes a settled record's place. -/
theorem State.stored_spec {u : State} {tag : W16} {e : Inflight} (hspad : u.spad.synd = []) (hin : u.inflight? tag = some e)
    (act : Vector W64 22) (line : Nat) (y : RowSt) (ws : List Wr) {g : Inflight → Inflight} (hg : ∀ c, (g c).slot = c.slot) :
    let t := ((State.storeRow { u with act := act } line y).doWrites tag ws).modInflight tag g
    storesOnly u t ws ∧ lanesOnly u t ws ∧ t.st.rowTab = (u.storeRow line y).st.rowTab ∧ commandOnly u t tag (g e)
      ∧ t = { u with stream := t.stream, st := t.st, spad := t.spad, act := t.act } := by
  intro t
  have hw := State.doWrites_clean (s := State.storeRow { u with act := act } line y) tag ws hspad
  have ht : t = State.modInflight { u with
      act := act, spad := u.spad.wrote ((memWrites ws).filter fun x => decide (x.1 < u.spadBytes)), st := (u.storeRow line y).st.wrote ws } tag g :=
    congrArg (State.modInflight · tag g) hw
  have hcmd := State.onlyCommand_modInflight hin hg
  refine ⟨storesOnly_wrote ws t (by rw [ht]; rfl), ⟨by rw [ht]; rfl, fun i hi => ?_⟩, by rw [ht]; rfl,
    commandOnly_of (onlyCommand_congr hcmd rfl rfl (by rw [ht]; rfl)) (by rw [ht]; rfl), by rw [ht]; rfl⟩
  rw [ht]
  exact sparseGet_tillWrites_of_ne _ ws hi

/-- A `SETTLE` whose row has been settled with a record, `y` being the state that it leaves. -/
def Inflight.settled (r : Nat) (bs : List Byte) (ma : W32) (y : RowSt) (cycle : Nat) (pre : List (Nat × List Byte)) (c : Inflight) : Inflight :=
  { c.modRow r fun w => { w with final := some (bs, ma), settled := true } with
    since := cycle, pre := c.pre ++ pre, flags := c.flags.or (Flags.ofMask (y.status.toNat % 32)) }

theorem State.place_takesPlace {u : State} {e : Inflight} (hspad : u.spad.synd = []) (hin : u.inflight? e.tag = some e) (r : Nat)
    (bs : List Byte) (ma : W32) : takesPlace u (u.place e e.cmd r bs ma) e r bs ma := by
  unfold takesPlace
  intro m x f ws l
  have hv : (if m.rc.close then u.bump 14 (x.closePrecise e.modes.inflim Config.closeLambda) else u) = { u with
      act := (if m.rc.close then u.bump 14 (x.closePrecise e.modes.inflim Config.closeLambda) else u).act } := by
    split <;> rfl
  have e1 : u.place e m r bs ma =
      (((if m.rc.close then u.bump 14 (x.closePrecise e.modes.inflim Config.closeLambda) else u).storeRow (e.dstLine m r) f.1).doWrites
        e.tag ws).modInflight e.tag (Inflight.settled r bs ma f.1
          (if m.rc.close then u.bump 14 (x.closePrecise e.modes.inflim Config.closeLambda) else u).tb.cycle
          ((upTo l.2).map fun i => (l.1 + i, u.rowLines (l.1 + i) 1))) := rfl
  rw [hv] at e1
  rw [e1]
  exact State.stored_spec hspad hin _ (e.dstLine m r) f.1 ws (g := Inflight.settled r bs ma f.1 u.tb.cycle _) fun _ => rfl

/-! ### The rows that a step of the owner changes -/

theorem listUpdate_getD_self {α : Type} (xs : List α) {i : Nat} (h : i < xs.length) (f : α → α) (d : α) :
    (listUpdate i f xs).getD i d = f (xs.getD i d) := by
  induction xs generalizing i with
  | nil => simp at h
  | cons x xs ih =>
    cases i with
    | zero => simp [listUpdate]
    | succ i => simpa [listUpdate] using ih (by simpa using h)

theorem Inflight.row?_modRow (c : Inflight) {r : Nat} (h : r < c.settle.length) (f : SettleRow → SettleRow) :
    (c.modRow r f).row? r = f (c.row? r) := listUpdate_getD_self _ h _ _

/-- A fast owner's row that has taken in a part. -/
def Inflight.merged (r : Nat) (x : RowSt) (src cycle : Nat) (c : Inflight) : Inflight :=
  { c.modRow r fun w => { w with record := x.bytes, merged := w.merged ++ [src] } with since := cycle }

section
variable {s : State} {c : Inflight} {m : Cmd} {r : Nat}

theorem takeWhile_updateFirst {α : Type} (p : α → Bool) (f : α → α) (hf : ∀ x, p x = true → p (f x) = true) (xs : List α) :
    (updateFirst p f xs).takeWhile (fun x => !p x) = xs.takeWhile fun x => !p x := by
  induction xs with
  | nil => rfl
  | cons x xs ih =>
    by_cases h : p x = true
    · simp [updateFirst, h, hf]
    · simp [updateFirst, h, ih]

theorem foldl_updateFirst {α : Type} (p : α → Bool) {f : α → α} {g : α → Nat} (h : ∀ x, g (f x) = g x) (xs : List α) (n : Nat) :
    (updateFirst p f xs).foldl (fun n x => n + g x) n = xs.foldl (fun n x => n + g x) n := by
  induction xs generalizing n with
  | nil => rfl
  | cons x xs ih =>
    by_cases hp : p x = true
    · simp [updateFirst, hp, h]
    · simp [updateFirst, hp, ih]

theorem State.olderThan_modInflight (s : State) (tag : W16) {f : Inflight → Inflight} (hf : ∀ c, (f c).slot = c.slot) :
    (s.modInflight tag f).olderThan tag = s.olderThan tag :=
  takeWhile_updateFirst (fun c : Inflight => c.tag == tag) f (fun x h => by simpa [Inflight.tag, hf] using h) s.stream.inflight

/-- What holds the place of a row does not hang on the rows of its own command. -/
theorem State.placeHeld_modInflight (s : State) {c d : Inflight} {f : Inflight → Inflight} (hf : ∀ c, (f c).slot = c.slot)
    (hp : ∀ c, (f c).pre = c.pre) (ht : d.tag = c.tag) (hl : d.dstLine m r = c.dstLine m r) (hm : d.modes = c.modes) :
    (s.modInflight c.tag f).placeHeld d m r = s.placeHeld c m r := by
  have h1 := s.olderThan_modInflight c.tag hf
  have h2 : (s.modInflight c.tag f).preFull (m.settleQ * slotLines c.modes.strict) = s.preFull (m.settleQ * slotLines c.modes.strict) := by
    rw [State.preFull, State.preFull]
    congr 3
    exact foldl_updateFirst (g := fun o : Inflight => o.pre.length) _ (fun x => by rw [hp]) _ _
  rw [State.placeHeld, State.placeHeld]
  simp only [ht, hl, hm, h1, h2]

/-- A fast owner to which one part has come whole (R214). -/
theorem State.fastStep_owner {own x : RowSt} {src : Nat} {bs : List Byte} (hme : s.position m.scope = m.owner r)
    (hin : s.inflight? c.tag = some c) (hf : c.fault = none) (hr : r < c.settle.length) (ha : s.arrivals c m r = [src])
    (hb : s.bufRecord c m tPART src r = some bs) (hp : src ∈ m.parties) (hm : src ∉ (c.row? r).merged)
    (hx : mergeRows (if (c.row? r).record = [] then own else RowSt.ofBytes (c.row? r).record) (RowSt.ofBytes bs) c.slot.epoch = some x) :
    s.fastStep c m r own =
      let g := Inflight.merged r x src s.tb.cycle
      let u := (s.dropRecord c m tPART src r).modInflight c.tag g
      if (c.row? r).merged.length + 2 < m.parties.length ∨ u.placeHeld (g c) m r then u
      else (u.modInflight c.tag fun c => c.modRow r fun w => { w with sent := true }).finalRow (g c) m r own x.bytes := by
  have hpart : s.fastPart c m r own src =
      ((s.dropRecord c m tPART src r).modInflight c.tag (Inflight.merged r x src s.tb.cycle), true) := by
    have hk : (((c.row? r).merged.contains src || !m.parties.contains src) = true) = False := by simp [hm, hp]
    rw [State.fastPart, hin, hb]
    simp only [Option.getD_some, hk, if_false, List.isEmpty_iff, hx]
    rfl
  have hlook : ((s.dropRecord c m tPART src r).modInflight c.tag (Inflight.merged r x src s.tb.cycle)).inflight? c.tag
      = some (Inflight.merged r x src s.tb.cycle c) := by
    rw [State.inflight?_modInflight (f := Inflight.merged r x src s.tb.cycle) _ fun _ => rfl]
    exact congrArg (Option.map _) hin
  have hrow : (Inflight.merged r x src s.tb.cycle c).row? r
      = { c.row? r with record := x.bytes, merged := (c.row? r).merged ++ [src] } := Inflight.row?_modRow c hr _
  rw [State.fastStep]
  dsimp only
  rw [if_neg (not_not.mpr hme), ha, State.fastMerge, hpart]
  simp only [if_true, State.fastMerge]
  rw [hlook]
  dsimp only
  rw [hrow]
  have hfault : (Inflight.merged r x src s.tb.cycle c).fault.isSome = false := congrArg Option.isSome hf
  simp only [hfault, Bool.false_eq_true, false_or, List.length_append, List.length_singleton]
  rfl

/-- The owner settles a row: FINAL flits wait to be sent, and the record takes its place. -/
theorem State.finalRow_settles {own : RowSt} {d : Inflight} (hspad : s.spad.synd = []) (hin : s.inflight? c.tag = some c) (b : List BufFlit)
    {f : Inflight → Inflight} (hf : ∀ c, (f c).slot = c.slot) (bs : List Byte)
    (hd : ∀ (u : State) (bs : List Byte), u.place d c.cmd r bs own.ma = u.place (f c) (f c).cmd r bs own.ma)
    (hl : ∀ me bs, d.flits c.cmd tFINAL me 0 r bs = c.flits c.cmd tFINAL me 0 r bs) (hslot : d.slot = c.slot) :
    let l := s.link c.cmd.scope
    let y : RowSt := { RowSt.ofBytes bs with ma := own.ma, epoch := c.slot.epoch, state := 1 }
    let me := s.position c.cmd.scope
    ∃ u, onlyCommand s u c.tag (f c)
      ∧ u.link c.cmd.scope = { l with queue := l.queue ++ (c.flits c.cmd tFINAL me 0 r y.bytes).map fun f => f.bytes 0 }
      ∧ (∀ k, k ≠ c.cmd.scope → u.link k = s.link k) ∧ u.setBuf = b
      ∧ u = { s with stream := u.stream, links := u.links, setBuf := u.setBuf }
      ∧ takesPlace u ((State.modInflight { s with setBuf := b } c.tag f).finalRow d c.cmd r own bs) (f c) r y.bytes own.ma := by
  intro l y me
  obtain ⟨h1, h2, h3, h4, h5, _⟩ := State.sentPart_spec hin b hf c.cmd.scope (c.flits c.cmd tFINAL me 0 r y.bytes)
  refine ⟨_, h1, h2, h3, h5, h4, ?_⟩
  have htag : (f c).tag = c.tag := congrArg Slot.tag (hf c)
  have e : (State.modInflight { s with setBuf := b } c.tag f).finalRow d c.cmd r own bs =
      (((State.modInflight { s with setBuf := b } c.tag f).send c.cmd.scope (c.flits c.cmd tFINAL me 0 r y.bytes)).place (f c) (f c).cmd r
        y.bytes own.ma) := by
    rw [State.finalRow, hl, hd, hslot]
    rfl
  rw [e]
  exact State.place_takesPlace (by rw [State.send_frame]; exact hspad) (by rw [htag]; exact h1.2.2.1) r y.bytes own.ma

/-- The source state of a row over clean stores. -/
theorem State.sourceRow_row (hspad : s.spad.synd = []) (hrow : s.st.rowSynd = []) : (s.sourceRow c m r).2.2 =
    if m.rc.ld then RowSt.ofBytes (s.spad.readRow (m.get .rs) none r ((m.get .rs).len c.regs))
    else s.loadRow (c.srcLine m r) (m.settleQ * slotLines c.modes.strict) := by
  rw [State.sourceRow]
  split
  · dsimp only
    rw [checkWords_clean _ _ _ _ hspad]
  · dsimp only
    rw [State.readStructure_clean (n := 2) hrow]

theorem State.gatherRow_whole {bs : List Byte} (hb : s.bufRecord c m tFINAL (m.owner r) r = some bs) (hh : s.placeHeld c m r = false)
    (hsrc : sourceOk c m (RowSt.ofBytes bs) = true) : s.gatherRow c m r =
      let u := s.dropRecord c m tFINAL (m.owner r) r
      u.place c m r bs (u.sourceRow c m r).2.2.ma := by
  rw [State.gatherRow]
  dsimp only
  rw [hb, hh]
  simp [hsrc]

theorem State.place_ledger {u t : State} {e : Inflight} {bs : List Byte} {ma : W32} (h : takesPlace u t e r bs ma) : t.ledger = u.ledger := by
  obtain ⟨_, _, _, _, h⟩ := h
  rw [h]

end

theorem Op.settle_counts {m : Cmd} (h : m.op = .settle) : m.counts = false := by
  simp [Cmd.counts, Cmd.elements, h, Op.rows]

theorem State.buffer_setLink (s : State) (c : Scope) (l : Link) (b : List Byte) : (s.setLink c l).buffer c b = { s.setLink c l with
    setBuf := (s.setLink c l).setBuf ++ [{ scope := c, flit := b, at_ := s.tb.cycle, synd := [] }] } := by
  cases c <;> rfl

/-- A PART for the unit's own `SETTLE` is buffered, and its row goes on. -/
theorem State.takes_part_own {s : State} {c : Scope} {flit : List Byte} {x : Inflight} (l : Link) (ht : (Flit.ofBytes flit).type = tPART)
    (hd : (Flit.ofBytes flit).dst = s.position c) (hx : s.settle? c (Flit.ofBytes flit).tenant (Flit.ofBytes flit).sid = some x)
    (hgood : s.badFlit x x.cmd (Flit.ofBytes flit) = none) :
    (s.setLink c l).takes c flit = ((s.setLink c l).buffer c flit).advanceRow x.tag (Flit.ofBytes flit).row.toNat := by
  have hpos : (s.setLink c l).position c = s.position c := State.position_setLink _ _ _ _
  have hset (t : BitVec 3) (i : W16) : (s.setLink c l).settle? c t i = s.settle? c t i := by cases c <;> rfl
  have hgood' := (State.badFlit_none_iff (s.setLink c l) _ _ _).mpr ((State.badFlit_none_iff s _ _ _).mp hgood)
  rw [State.takes]
  rw [if_pos ht, State.takePart]
  rw [hset, hx, hpos, hd, beq_self_eq_true]
  simp only [hgood', if_true]

theorem State.ack_cycleLog (u s : State) (c : Scope) (q : Byte) : (u.ack c false q).cycleLog s =
    { (u.cycleLog s).setLink c { (u.cycleLog s).link c with worded := true } with
      out := { (u.cycleLog s).out with acks := (u.cycleLog s).out.acks ++ [(c, ackWord false (u.cycleLog s).holds q)] } } := by
  cases c <;> rfl

/-- Settles O39: each case of PART_SEND is one branch of `advanceRow`, and the retirement is that of a command that leaves nothing to do. -/
theorem settlementsComplete : Obligations.SettlementsComplete := by
  refine ⟨?_, ?_, ?_⟩
  · intro c row s m r me w own l hs hin hf hc hop hr hlen hset hfin hspad hrow hbuf settles
    have hopen : RowOpen s c r := ⟨hin, hf, hc, hop, hr, hset, hfin, hbuf⟩
    have step {t : State} (h : (if w.sent then s.gatherRow c m r else s.reduceRow c m r) = t) (hl : t.ledger = s.ledger) :
        exec (.partSend c.tag row) s = .next t :=
      congrArg Host.Outcome.next ((congrArg (State.cycleLog · s) ((State.partSend_open hs hopen).trans h)).trans (State.cycleLog_same _ _ hl))
    have reduce (hsent : w.sent = false) (hready : s.sourceReady c m r = true) (hsrc : sourceOk c m own = true) :
        (if w.sent then s.gatherRow c m r else s.reduceRow c m r)
          = if c.modes.strict then s.strictStep c m r own else s.fastStep c m r own := by
      rw [if_neg (by simp [hsent]), State.reduceRow_clean hready hspad hrow]
      dsimp only
      rw [hsrc]
      rfl
    refine ⟨fun src bs x hfast hme hsent hready hsrc harr hrec hparty hmerged hmerge => ?_,
      fun bs x hstrict hme hnext hsent hready hsrc hrec hheld hmerge => ?_, fun bs hsent hrec hheld hsrc => ?_⟩
    · have e0 := State.fastStep_owner (m := m) (r := r) hme hin hf hlen harr hrec hparty hmerged hmerge
      have held : ((s.dropRecord c m tPART src r).modInflight c.tag (Inflight.merged r x src s.tb.cycle)).placeHeld
          (Inflight.merged r x src s.tb.cycle c) m r = s.placeHeld c m r :=
        State.placeHeld_modInflight (f := Inflight.merged r x src s.tb.cycle) (s.dropRecord c m tPART src r) (fun _ => rfl) (fun _ => rfl) rfl rfl rfl
      have fast : (if w.sent then s.gatherRow c m r else s.reduceRow c m r) = s.fastStep c m r own :=
        (reduce hsent hready hsrc).trans (if_neg (by simp [hfast]))
      dsimp only at e0
      rw [held] at e0
      intro d
      refine ⟨fun hmore => ?_, fun hall hheld => ?_⟩
      · rw [if_pos (.inl hmore)] at e0
        have hcmd := State.onlyCommand_modInflight hin (f := Inflight.merged r x src s.tb.cycle) fun _ => rfl
        exact ⟨_, step (fast.trans e0) rfl, onlyCommand_congr hcmd rfl rfl rfl, rfl, rfl⟩
      · have hno : ¬ ((c.row? r).merged.length + 2 < m.parties.length ∨ s.placeHeld c m r = true) := by
          rintro (a | a)
          · exact absurd hall (Nat.not_le.mpr a)
          · simp [hheld] at a
        rw [if_neg hno, State.modInflight_modInflight (f := Inflight.merged r x src s.tb.cycle) _ _ fun _ => rfl] at e0
        obtain ⟨u, h1, h2, h3, h4, h5, h6⟩ := State.finalRow_settles (own := own) (d := Inflight.merged r x src s.tb.cycle c) (r := r) hspad hin
          (s.dropRecord c m tPART src r).setBuf
          (f := fun c => (Inflight.merged r x src s.tb.cycle c).modRow r fun w => { w with sent := true }) (fun _ => rfl) x.bytes
          (fun _ _ => rfl) (fun _ _ => rfl) rfl
        exact ⟨_, step (fast.trans e0) ((State.place_ledger h6).trans (by rw [h5])), u, h1, h2, h3, h4, h5, h6⟩
    · have e := (reduce hsent hready hsrc).trans ((if_pos hstrict).trans
        (State.strictStep_record (m := m) (fun h => hnext (by rwa [← hme] at h)) own hrec fun _ => hheld))
      dsimp only at e
      rw [hmerge] at e
      replace e := e.trans (if_pos hme)
      obtain ⟨u, h1, h2, h3, h4, h5, h6⟩ := State.finalRow_settles (own := own) (d := c) (r := r) hspad hin
        (s.dropRecord c m tPART (m.before me) r).setBuf (f := fun c => c.modRow r fun w => { w with sent := true }) (fun _ => rfl) x.bytes
        (fun _ _ => rfl) (fun _ _ => rfl) rfl
      exact ⟨_, step e ((State.place_ledger h6).trans (by rw [h5])), u, h1, h2, h3, h4, h5, h6⟩
    · have e : (if w.sent then s.gatherRow c m r else s.reduceRow c m r) = _ :=
        (if_pos hsent).trans (State.gatherRow_whole hrec hheld hsrc)
      dsimp only at e
      have hown : ((s.dropRecord c m tFINAL (m.owner r) r).sourceRow c m r).2.2 = own :=
        (State.sourceRow_row (s := s.dropRecord c m tFINAL (m.owner r) r) hspad hrow).trans (State.sourceRow_row (s := s) hspad hrow).symm
      rw [hown] at e
      have h6 := State.place_takesPlace (u := s.dropRecord c m tFINAL (m.owner r) r) hspad hin r bs own.ma
      exact ⟨_, step e ((State.place_ledger h6).trans rfl), h6⟩
  · intro c flit x s hs hlen l f v hcrc hseq hres ht hd hroom hx hgood
    let z : State := { v with setBuf := v.setBuf ++ [{ scope := c, flit := flit, at_ := s.tb.cycle, synd := [] }] }
    have hz : (s.setLink c l.taken).buffer c flit = z := State.buffer_setLink s c l.taken flit
    have hrun : z.running = true := running_of z (by cases c <;> exact hs.1) (by cases c <;> exact hs.2)
    have hled : z.ledger = s.ledger := by cases c <;> rfl
    have hr := ringWorks_of (by rw [hs.1]; decide) hs.2
    have e := State.flitReceive_taken (s := s) (c := c) hr hlen hcrc (fun _ h => absurd hseq h)
      (by rw [hres]; exact State.badLink_none (.inl hseq) (by rw [ht]; decide) (State.unmatched_of_type (by rw [ht]; decide)))
      (by rw [ht]; decide) (by rw [Bool.eq_false_iff, Ne, State.bufferFull_iff]; omega)
    rw [State.takes_part_own _ ht hd hx hgood, hz, hseq] at e
    refine ⟨(z.advanceRow x.tag f.row.toNat).cycleLog z, ?_, ?_⟩
    · refine congrArg Host.Outcome.next (congrArg (State.cycleLog · z) ?_)
      exact if_pos hrun
    · refine congrArg Host.Outcome.next ((congrArg (State.cycleLog · s) e).trans ?_)
      rw [State.ack_cycleLog, State.cycleLog_congr _ hled.symm]
  · intro c rest s m hs hhead hf hop hst hplain hw hrow hen hmen hall hun
    obtain ⟨hb, hh, hconf, hbad, hacc, hclaims⟩ := hplain
    have hready : s.retireReady c m = true := by
      rw [retireReady_of hst (fun h => by rw [hop] at h; cases h) hb hh hrow hf, State.finished, hop]
      simp only [Bool.and_eq_true, List.all_eq_true, Bool.not_eq_true']
      exact ⟨hall, hun⟩
    refine departs_alone ⟨hs, hhead, hf, hready, .inl hconf, hbad⟩ hclaims ?_ hen hmen (fun h => by rw [hop] at h; cases h) (Op.settle_counts hop)
    rw [State.retireEffect, hop]
    simp [State.lateStores, hw]

end Sys2Proof.Machine
end

section
/-! What beats and restarts keep: the number of commands in flight, what waits at issue, and the form of the row-state table. -/
namespace Sys2Proof.Machine
open Sys2Proof Sys2Proof.Claims

/-! ### What the scratchpad's words leave alone -/

/-- The stream, the stores of the lanes, the rolls and the escrow: what no word of the scratchpad changes. -/
def State.core (s : State) : Stream × Stores × Vector Roll 16 × Escrow := (s.stream, s.st, s.rolls, s.escrow)

section
variable (s : State)

@[simp] theorem State.modSpad_core (f : Spad → Spad) : (s.modSpad f).core = s.core := rfl
@[simp] theorem State.modHealth_core (f : SpadHealth → SpadHealth) : (s.modHealth f).core = s.core := rfl
@[simp] theorem State.log_core (code tag : W16) (ctx : Option (BitVec 3)) (d : List Byte) : (s.log code tag ctx d).core = s.core := rfl
@[simp] theorem State.note_core (f : Summary → Summary) : (s.note f).core = s.core := rfl

@[simp] theorem State.logLimited_core (src : LimitSource) (code tag : W16) (ctx : Option (BitVec 3)) (d : W32 → List Byte) :
    (s.logLimited src code tag ctx d).core = s.core := by
  rw [State.logLimited]
  split <;> rfl

@[simp] theorem State.lastError_core (w : Nat) (syn : Byte) : (s.lastError w syn).core = s.core := rfl

@[simp] theorem State.uncorrectable_core (w : Nat) (syn : Byte) (now : Bool) : (s.uncorrectable w syn now).core = s.core := by
  simp [State.uncorrectable, apply_ite State.core]

@[simp] theorem State.corrected_core (tag : W16) (ctx : Option (BitVec 3)) (w : Nat) (syn : Byte) :
    (s.corrected tag ctx w syn).core = s.core := by
  simp [State.corrected]

@[simp] theorem State.logEccue_core (tag : W16) (ctx : Option (BitVec 3)) (d : List Byte) : (s.logEccue tag ctx d).core = s.core := rfl

@[simp] theorem State.prepareWord_core (port : Nat) (tag : W16) (ctx : Option (BitVec 3)) (ws : List (Nat × Byte × Byte)) (w : Nat) :
    (s.prepareWord port tag ctx ws w).core = s.core := by
  unfold State.prepareWord
  dsimp only
  split
  · rfl
  · split <;> simp

@[simp] theorem State.prepareWords_core (port : Nat) (tag : W16) (ctx : Option (BitVec 3)) (ws : List (Nat × Byte × Byte)) (words : List Nat) :
    (s.prepareWords port tag ctx ws words).core = s.core := by
  induction words generalizing s with
  | nil => rfl
  | cons x xs ih => simp [State.prepareWords, ih, apply_ite State.core]

@[simp] theorem State.writeBytes_core (port : Nat) (tag : W16) (ctx : Option (BitVec 3)) (ws : List (Nat × Byte × Byte)) :
    (s.writeBytes port tag ctx ws).core = s.core := by
  simp [State.writeBytes, apply_ite State.core]

end

/-! ### The commands afoot -/

/-- From `s` to `t` no command has come or gone, the row-state table keeps its canonical form, and of the stores of the lanes no other than
the Till and that table has changed. -/
structure Afoot (s t : State) : Prop where
  length : t.stream.inflight.length = s.stream.inflight.length
  waiting : t.stream.waiting = s.stream.waiting
  rowTab : Memory.wf s.st.rowTab = true → Memory.wf t.st.rowTab = true
  stores : t.st = { s.st with
    till := t.st.till, tillSynd := t.st.tillSynd, tillBad := t.st.tillBad
    rowTab := t.st.rowTab, rowSynd := t.st.rowSynd, rowBad := t.st.rowBad }

namespace Afoot
variable {z s t : State}

theorem refl (s : State) : Afoot s s := ⟨rfl, rfl, id, rfl⟩

theorem of_eq (h : Afoot z s) (hl : t.stream.inflight.length = s.stream.inflight.length) (hw : t.stream.waiting = s.stream.waiting)
    (hr : t.st = s.st) : Afoot z t :=
  ⟨hl.trans h.length, hw.trans h.waiting, fun w => hr ▸ h.rowTab w, by rw [hr]; exact h.stores⟩

theorem ite {a b : State} {p : Prop} [Decidable p] (h : p → Afoot z a) (k : ¬ p → Afoot z b) : Afoot z (if p then a else b) := by
  split
  · exact h ‹_›
  · exact k ‹_›

theorem foldl {α : Type} {f : State → α → State} (k : ∀ s x, Afoot z s → Afoot z (f s x)) (xs : List α) (h : Afoot z s) :
    Afoot z (xs.foldl f s) := by
  induction xs generalizing s with
  | nil => exact h
  | cons x xs ih => exact ih (k s x h)

theorem modInflight (h : Afoot z s) (t : W16) (f : Inflight → Inflight) : Afoot z (s.modInflight t f) :=
  h.of_eq (length_updateFirst _ _ _) rfl rfl

theorem log (h : Afoot z s) (code tag : W16) (ctx : Option (BitVec 3)) (d : List Byte) : Afoot z (s.log code tag ctx d) := h.of_eq rfl rfl rfl

theorem modHealth (h : Afoot z s) (f : SpadHealth → SpadHealth) : Afoot z (s.modHealth f) := h.of_eq rfl rfl rfl

theorem bump (h : Afoot z s) (i k : Nat) : Afoot z (s.bump i k) := h.of_eq rfl rfl rfl

theorem modOut (h : Afoot z s) (f : Outputs → Outputs) : Afoot z (s.modOut f) := h.of_eq rfl rfl rfl

/-- The Till and the row-state table changed. -/
theorem ofStores (h : Afoot z s) (hl : t.stream = s.stream) (hr : Memory.wf s.st.rowTab = true → Memory.wf t.st.rowTab = true)
    (hs : t.st = { s.st with
      till := t.st.till, tillSynd := t.st.tillSynd, tillBad := t.st.tillBad
      rowTab := t.st.rowTab, rowSynd := t.st.rowSynd, rowBad := t.st.rowBad }) : Afoot z t := by
  refine ⟨by rw [hl, h.length], by rw [hl, h.waiting], fun w => hr (h.rowTab w), ?_⟩
  have e := h.stores
  generalize s.st = x at hs e
  rw [hs, e]

theorem setLines (h : Afoot z s) (line : Nat) (bs : List Byte) : Afoot z (s.setLines line bs) :=
  h.ofStores rfl (fun w => Memory.wf_writeN _ _ w) rfl

theorem storeRow (h : Afoot z s) (line : Nat) (r : RowSt) : Afoot z (s.storeRow line r) := h.setLines _ _

theorem of_core (h : Afoot z s) (k : t.core = s.core) : Afoot z t := by
  obtain ⟨k1, k2, _⟩ := Prod.ext_iff.mp k |>.imp id fun k => Prod.ext_iff.mp k
  exact h.of_eq (congrArg (fun x : Stream => x.inflight.length) k1) (congrArg Stream.waiting k1) k2

/-! ### Beats -/

theorem doWrites (h : Afoot z s) (tag : W16) (ws : List Wr) : Afoot z (s.doWrites tag ws) := by
  have k := h.of_core (State.writeBytes_core s 0 tag (some s.tn.active) ((memWrites ws).filter fun x => decide (x.1 < s.spadBytes)))
  exact k.ofStores rfl id rfl

theorem dropAcc (h : Afoot z s) (tag : W16) : Afoot z (s.dropAcc tag) := ite (fun _ => h.of_eq rfl rfl rfl) fun _ => h

theorem failAfter (h : Afoot z s) (c : Inflight) (code : W16) (d : List Byte) : Afoot z (s.failAfter c code d) :=
  ((h.dropAcc _).modInflight _ _).log _ _ _ _

theorem failBank (h : Afoot z s) (c : Inflight) (k : Conflict) : Afoot z (s.failBank c k) :=
  ((h.failAfter _ _ _).modInflight _ _).modHealth _

theorem segment {a : BeatAcc} (h : Afoot z a.st) (x : Flow) (b : Beat) (sg : Seg) : Afoot z (a.segment x b sg).st := by
  unfold BeatAcc.segment
  extract_lets m es first i r o stage c0 c a1 t a3
  have e : Afoot z t.1.st := by
    have : t.1.st = (a.st.bump 14 o.precise).bump 16 o.added := BeatAcc.runs_st _ _ _ _ _
    rw [this]
    exact (h.bump _ _).bump _ _
  have k : Afoot z a3.st := by
    simp only [a3]
    split
    · exact e.storeRow _ _
    · exact e
  split
  · rw [BeatAcc.packRow_st]
    exact k
  · exact k

theorem segments {a : BeatAcc} (h : Afoot z a.st) (x : Flow) (b : Beat) (sgs : List Seg) : Afoot z (a.segments x b sgs).st := by
  induction sgs generalizing a with
  | nil => exact h
  | cons sg sgs ih => exact ih (h.segment x b sg)

theorem mergeBeat {a : BeatAcc} (h : Afoot z a.st) (m : Cmd) (row : Nat) : Afoot z (a.mergeBeat m row).st := by
  unfold BeatAcc.mergeBeat
  dsimp only
  split
  · exact h
  · exact h.bump _ _

theorem countBeat (h : Afoot z s) (m : Cmd) (c : Inflight) (b : Beat) (hard : Nat) (back : Bool) : Afoot z (s.countBeat m c b hard back) :=
  ((((h.bump _ _).bump _ _).bump _ _).bump _ _).bump _ _

theorem publish (h : Afoot z s) (i : Nat) : Afoot z (s.publish i) := ite (fun _ => h) fun _ => h.of_eq rfl rfl rfl

theorem complete (h : Afoot z s) (c : Claim) (k : Nat) : Afoot z (s.complete c k) :=
  ite (fun _ => h) fun _ => publish (s := s.modClaim c _) (h.of_eq rfl rfl rfl) _

theorem rollProgress (h : Afoot z s) (tag : W16) : Afoot z (s.rollProgress tag) := by
  unfold State.rollProgress
  split
  · exact h
  · exact foldl (fun _ _ k => k.complete _ _) _ h

theorem commitBeat (h : Afoot z s) (tag : W16) (ws : List Wr) : Afoot z (s.commitBeat tag ws) := by
  unfold State.commitBeat
  split
  · exact h
  · exact ite (fun _ => (h.modInflight _ _).doWrites _ _) fun _ => ((h.modInflight _ _).doWrites _ _).rollProgress _

theorem writeConflict (h : Afoot z s) (c : Inflight) (b : Nat) : Afoot z (s.writeConflict c b) := by
  unfold State.writeConflict
  split
  · exact ite (fun _ => h.failBank _ _) fun _ => h
  · exact h

theorem writeBeat (h : Afoot z s) (c : Inflight) : Afoot z (s.writeBeat c) := by
  unfold State.writeBeat
  split
  · exact h
  · extract_lets m s1 c x a0 a s2 s3
    have h1 : Afoot z a0.st := h.writeConflict _ _
    have h2 : Afoot z a.st := by
      simp only [a]
      split
      · exact h1.mergeBeat _ _
      · exact h1.segments _ _ _
    have h3 : Afoot z s3 := (ite (fun _ => h2) fun _ => h2.modOut _).countBeat _ _ _ _ _
    exact ite (fun _ => (h3.modInflight _ _).commitBeat _ _) fun _ => h3.modInflight _ _

/-! ### Restarts -/

theorem endBeats (h : Afoot z s) (y : Inflight) : Afoot z (s.endBeats y) := by
  unfold State.endBeats
  refine ite (fun _ => h) fun _ => ite (fun _ => h.modInflight _ _) fun _ => foldl (fun s _ k => ?_) _ h
  split
  · exact k.writeBeat _
  · exact k

theorem codeEvent (h : Afoot z s) (n addr : Nat) (tag : W16) (ctx : Option (BitVec 3)) (syn : Byte) (x : Syndrome) :
    Afoot z (s.codeEvent n addr tag ctx syn x) := by
  unfold State.codeEvent
  refine ite (fun _ => h.of_core ?_) fun _ => ite (fun _ => h.of_eq rfl rfl rfl) fun _ => h
  rw [State.logLimited_core]
  rfl

theorem readPre (h : Afoot z s) (c : Inflight) : Afoot z (s.readPre c) :=
  ite (fun _ => h) fun _ => (foldl (fun _ _ k => k.codeEvent _ _ _ _ _ _) _ h).modInflight _ _

theorem readPres (h : Afoot z s) (cs : List Inflight) : Afoot z (s.readPres cs).1 := foldl (fun _ c k => k.readPre c) _ h

theorem restore (h : Afoot z s) (cs : List Inflight) : Afoot z (s.restore cs) := by
  induction cs with
  | nil => exact h
  | cons c cs ih =>
    refine foldl (fun s p k => ?_) _ ih
    exact ite (fun _ => (k.setLines _ _).ofStores rfl id rfl) fun _ => k.setLines _ _

theorem failPre (h : Afoot z s) (c : Inflight) (e : Nat × Byte) : Afoot z (s.failPre c e) := (h.failAfter _ _ _).modInflight _ _

theorem restartOne (h : Afoot z s) (y : Inflight) (n : Nat) : Afoot z (s.restartOne y n) := by
  unfold State.restartOne
  refine ite (fun _ => h.modInflight _ _) fun _ => ?_
  split
  · exact h.failPre _ _
  · exact h.modInflight _ _

theorem restartAll (h : Afoot z s) (young : List Inflight) (ask : Bool) : Afoot z (s.restartAll young ask) := by
  unfold State.restartAll
  have k : Afoot z (young.foldl (fun s y => s.restartOne y y.replays.toNat) s) := foldl (fun _ _ k => k.restartOne _ _) _ h
  exact ite (fun _ => k.of_eq rfl rfl rfl) fun _ => k

theorem voidSettle (h : Afoot z s) (c : Inflight) (m : Cmd) : Afoot z (s.voidSettle c m) := by
  unfold State.voidSettle
  dsimp only
  split
  · exact h.setLines _ _
  · exact (h.setLines _ _).doWrites _ _

theorem undo (h : Afoot z s) (c : Inflight) (m : Cmd) : Afoot z (s.undo c m) := by
  have e (ys : List Inflight) : Afoot z (ys.foldl State.endBeats s) := foldl (fun _ y k => k.endBeats y) _ h
  unfold State.undo
  exact ite (fun _ => ((((e _).readPres _).restore _).voidSettle _ _).restartAll _ _) fun _ =>
    ite (fun _ => h) fun _ => (((e _).readPres _).restore _).restartAll _ _

end Afoot

end Sys2Proof.Machine
end

section
/-! Aborts of settlements, and ring notices. -/
namespace Sys2Proof.Machine
open Sys2Proof Sys2Proof.Claims

/-! ### The unit aborts a `SETTLE` of its own -/

theorem State.filter_dropRecord (s : State) (c : Inflight) (m : Cmd) (type src row : Nat) :
    (s.dropRecord c m type src row).setBuf.filter (fun b => !b.hasKey m.scope c.slot.tenant m.sid)
      = s.setBuf.filter fun b => !b.hasKey m.scope c.slot.tenant m.sid := by
  rw [State.dropRecord, List.filter_filter]
  refine List.filter_congr fun b _ => ?_
  cases b.hasKey m.scope c.slot.tenant m.sid <;> simp

/-- An abort that the unit finds itself (R217): one entry, the command's fault, the buffered flits, one flit to be sent. -/
theorem State.abortSettle_aborted {s u : State} {c : Inflight} (hin : s.inflight? c.tag = some c) {b : List BufFlit}
    (hu : u = { s with setBuf := b })
    (hb : b.filter (fun b => !b.hasKey c.cmd.scope c.slot.tenant c.cmd.sid)
      = s.setBuf.filter fun b => !b.hasKey c.cmd.scope c.slot.tenant c.cmd.sid) (code : W16) (row : Nat) (detail : List Byte) :
    aborted s (u.abortSettle c code row detail) c code row detail := by
  let f (c : Inflight) : Inflight := { c with fault := some code }
  let v : State := { (s.log code c.tag (some c.slot.tenant) detail).modInflight c.tag f with
    setBuf := s.setBuf.filter fun b => !b.hasKey c.cmd.scope c.slot.tenant c.cmd.sid }
  let fs : List Flit := [.abort code (BitVec.ofNat 16 row) (s.position c.cmd.scope) c.slot.tenant c.cmd.sid c.slot.epoch
    (BitVec.ofNat 16 c.cmd.settleRows)]
  have e : u.abortSettle c code row detail = v.send c.cmd.scope fs := by
    subst hu
    have : v = { (s.log code c.tag (some c.slot.tenant) detail).modInflight c.tag f with
      setBuf := b.filter fun b => !b.hasKey c.cmd.scope c.slot.tenant c.cmd.sid } := by rw [hb]
    rw [this]
    rfl
  have hcmd := State.onlyCommand_modInflight hin (f := f) fun _ => rfl
  have hframe := State.send_frame v c.cmd.scope fs
  rw [e]
  refine ⟨onlyCommand_congr hcmd rfl rfl (by rw [hframe]; rfl), ?_, State.send_link v _ fs, fun k hk => State.send_link_of_ne v hk fs, ?_, ?_⟩
  · rw [hframe]
  · rw [hframe]
    rfl
  · rw [hframe]
    rfl

/-- The same as the step that finds it logs it: its one entry stands as it was written. -/
theorem aborted_cycleLog {s t : State} {c : Inflight} {code : W16} {row : Nat} {detail : List Byte} (h : aborted s t c code row detail) :
    t.cycleLog s = t := by
  obtain ⟨_, _, _, _, hl, _⟩ := h
  exact State.cycleLog_log t s code c.tag (some c.slot.tenant) detail hl

/-! ### ABORT flits and notices -/

theorem State.ack_eq (u : State) (c : Scope) (q : Byte) : u.ack c false q = { u.setLink c { u.link c with worded := true } with
    out := { u.out with acks := u.out.acks ++ [(c, ackWord false u.holds q)] } } := by
  cases c <;> rfl

theorem State.ack_spec {u s : State} {c : Scope} {L : Link} (q : Byte) (hl : u.link c = L) (ho : u.out = s.out) :
    let t := u.ack c false q
    t.link c = { L with worded := true } ∧ t.out = { s.out with acks := s.out.acks ++ [(c, ackWord false t.holds q)] }
      ∧ t = { u with links := t.links, out := t.out } := by
  intro t
  have e : t = _ := State.ack_eq u c q
  rw [hl] at e
  refine ⟨?_, ?_, ?_⟩
  · rw [e]
    cases c <;> rfl
  · rw [← ho, e]
    cases c <;> rfl
  · rw [e]
    cases c <;> rfl

section
variable {s : State} {c : Scope} {f : Flit}

theorem State.takeAbort_own (h : ¬ (f.sid = 0xFFFF ∧ (f.code = cCLRDN ∨ f.code = 0))) (hd : f.detector = s.position c) :
    s.takeAbort c f = s := by
  rw [State.takeAbort]
  dsimp only
  rw [if_neg h, if_pos hd]

theorem State.takeAbort_none (h : ¬ (f.sid = 0xFFFF ∧ (f.code = cCLRDN ∨ f.code = 0))) (hd : f.detector ≠ s.position c)
    (hx : s.settle? c f.tenant f.sid = none) : s.takeAbort c f = (s.discard c f.tenant f.sid).forward c f := by
  rw [State.takeAbort]
  dsimp only
  rw [if_neg h, if_neg hd, hx]

theorem State.takes_abort {flit : List Byte} (l : Link) (ht : (Flit.ofBytes flit).type = tABORT) :
    (s.setLink c l).takes c flit = (s.setLink c l).takeAbort c (Flit.ofBytes flit) := by
  rw [State.takes]
  rw [if_neg (by rw [ht]; decide), if_neg (by rw [ht]; decide), if_pos ht]

/-- The unit's own `SETTLE` has the key that it was found by. -/
theorem State.settle?_key {t : BitVec 3} {i : W16} {x : Inflight} (h : s.settle? c t i = some x) :
    x.cmd.scope = c ∧ x.slot.tenant = t ∧ x.cmd.sid = i := by
  have := List.find?_some h
  simp only [Bool.and_eq_true, beq_iff_eq] at this
  exact ⟨this.1.1.2, this.1.2, this.2⟩

theorem State.takeAbort_settle {x : Inflight} (h : ¬ (f.sid = 0xFFFF ∧ (f.code = cCLRDN ∨ f.code = 0))) (hd : f.detector ≠ s.position c)
    (hx : s.settle? c f.tenant f.sid = some x) : s.takeAbort c f =
      ((s.modInflight x.tag fun c => { c with fault := some f.code }).discard c f.tenant f.sid).forward c f := by
  obtain ⟨h1, h2, h3⟩ := State.settle?_key hx
  rw [State.takeAbort]
  dsimp only
  rw [if_neg h, if_neg hd, hx]
  dsimp only
  rw [State.abortOwn, h1, h2, h3]

/-- The link as a notice leaves it. -/
def Link.heard (l : Link) (f : Flit) : Link :=
  Link.settleState { l with ringDown := (l.ringDown.filter (· != f.detector)) ++ on (f.code == cCLRDN) f.detector }

theorem Link.heard_eq (l : Link) (f : Flit) : l.heard f =
    let heard := (l.ringDown.filter fun p => p != f.detector) ++ if f.code = 0x0402 then [f.detector] else []
    { l with
      ringDown := heard, st := if l.down = false ∧ heard = [] then .up else if l.st = .training then .training else .down } := by
  have h : on (f.code == cCLRDN) f.detector = if f.code = 0x0402 then [f.detector] else [] := by
    by_cases hc : f.code = 0x0402 <;> simp [on, cCLRDN, hc]
  rw [Link.heard, Link.settleState, h]
  congr 1
  exact if_congr (by simp) rfl rfl

theorem State.forward_link (s : State) (c : Scope) (f : Flit) :
    (s.forward c f).link c = { s.link c with queue := (s.link c).queue ++ [f.bytes 0] } := State.send_link s c [f]

theorem State.forward_frame (s : State) (c : Scope) (f : Flit) : s.forward c f = { s with links := (s.forward c f).links } :=
  State.send_frame s c [f]

/-- A command changed, flits discarded and one passed on: what has changed. -/
theorem State.discarded_frame (s : State) (c : Scope) (l : Link) (tag : W16) (g : Inflight → Inflight) (t : BitVec 3) (i : W16) (f : Flit) :
    let u := (((s.setLink c l).modInflight tag g).discard c t i).forward c f
    u = { s with links := u.links, setBuf := u.setBuf, stream := u.stream } := by
  intro u
  have e : u = _ := State.forward_frame (((s.setLink c l).modInflight tag g).discard c t i) c f
  generalize u.links = ls at e
  rw [e]
  cases c <;> rfl

theorem State.takeAbort_notice (h : f.sid = 0xFFFF ∧ (f.code = cCLRDN ∨ f.code = 0)) (hs : ∀ x ∈ s.stream.inflight, x.cmd.op ≠ .settle) :
    s.takeAbort c f = if (s.position c + 1) % ringSize c = f.detector then s.setLink c ((s.link c).heard f)
      else (s.setLink c ((s.link c).heard f)).forward c f := by
  have hfall : (s.setLink c ((s.link c).heard f)).ringFalls c = s.setLink c ((s.link c).heard f) :=
    State.ringFalls_none c (by simpa using hs)
  rw [State.takeAbort]
  dsimp only
  rw [if_pos h, State.modLink_eq, ← Link.heard, hfall, ite_self]

end

/-! ### An aborted `SETTLE` retires -/

theorem State.dropAcc_st (s : State) (tag : W16) : (s.dropAcc tag).st = s.st := by
  rw [State.dropAcc]
  split <;> rfl

theorem State.failPre_st (s : State) (c : Inflight) (e : Nat × Byte) : (s.failPre c e).st = s.st := State.dropAcc_st _ _

theorem State.restartOne_st (s : State) (y : Inflight) (n : Nat) : (s.restartOne y n).st = s.st := by
  rw [State.restartOne]
  split
  · rfl
  · split
    · exact State.failPre_st _ _ _
    · rfl

theorem State.restartAll_st (s : State) (ys : List Inflight) (ask : Bool) : (s.restartAll ys ask).st = s.st := by
  have h (s : State) : (ys.foldl (fun s y => s.restartOne y y.replays.toNat) s).st = s.st := by
    induction ys generalizing s with
    | nil => rfl
    | cons y ys ih => exact (ih _).trans (State.restartOne_st s y _)
  rw [State.restartAll]
  split
  · exact h s
  · exact h s

theorem State.doWrites_rowTab (s : State) (tag : W16) (ws : List Wr) : (s.doWrites tag ws).st.rowTab = s.st.rowTab :=
  congrArg (fun x => x.2.1.rowTab) (State.writeBytes_core s 0 tag (some s.tn.active) ((memWrites ws).filter fun x => decide (x.1 < s.spadBytes)))

theorem State.voidSettle_rowTab (s : State) (c : Inflight) (m : Cmd) : (s.voidSettle c m).st.rowTab =
    Memory.writeN s.st.rowTab (128 * c.dstLine m 0) (List.replicate (128 * (m.settleQ * slotLines c.modes.strict) * m.settleRows) 0) := by
  rw [State.voidSettle]
  split
  · rfl
  · rw [State.doWrites_rowTab]
    rfl

/-- The destinations of an aborted `SETTLE` read as zero once it is undone (R217). -/
theorem State.undo_settle_reads {s : State} {c : Inflight} {m : Cmd} (hop : m.op = .settle) (hwf : Memory.wf s.st.rowTab = true) {a : Nat}
    (h1 : 128 * c.dstLine m 0 ≤ a) (h2 : a < 128 * (c.dstLine m 0 + m.settleQ * slotLines c.modes.strict * m.settleRows)) :
    Memory.read (s.undo c m).st.rowTab a = 0 := by
  have e (ys : List Inflight) : Afoot s (ys.foldl State.endBeats s) := Afoot.foldl (fun _ y k => k.endBeats y) _ (Afoot.refl s)
  rw [State.undo, if_pos hop, State.restartAll_st, State.voidSettle_rowTab, Memory.read_writeN ((((e _).readPres _).restore _).rowTab hwf)]
  have hlen : a < 128 * c.dstLine m 0 + 128 * (m.settleQ * slotLines c.modes.strict) * m.settleRows := by
    rwa [Nat.mul_assoc, ← Nat.mul_add]
  rw [List.length_replicate, if_pos ⟨h1, hlen⟩]
  rw [List.getD_eq_getElem?_getD, List.getElem?_replicate]
  split <;> rfl

/-- A command with a fault after issue that may retire. -/
structure Faulted (s : State) (c : Inflight) (rest : List Inflight) (k : W16) : Prop where
  started : started s
  head : s.stream.inflight = c :: rest
  fault : c.fault = some k
  ready : c.ready = false
  stopped : s.stopped c.tag = false
  beats : c.beats = []
  hard : c.hard = []

theorem State.commandRetirement_faulted {s : State} {c : Inflight} {rest : List Inflight} {k : W16} (h : Faulted s c rest k) :
    s.commandRetirement = ((s.undo c c.cmd).combine c c.cmd).leave c c.cmd := by
  have hrow : s.rowReady c = false := by simp [State.rowReady, h.fault]
  have hready : s.retireReady c c.cmd = true := by
    simp [State.retireReady, h.stopped, h.fault, h.beats, h.hard, hrow]
  have hlast : s.lastFault c = s := by simp [State.lastFault, h.fault]
  rw [State.commandRetirement, h.head]
  dsimp only
  rw [running_of s h.started.1 h.started.2, hready, refused_of_not_ready h.ready, hlast, inflight?_head s c rest h.head, Option.getD_some,
    h.fault]
  rfl

theorem State.combine_rowTab (s : State) (c : Inflight) (m : Cmd) : (s.combine c m).st.rowTab = s.st.rowTab := by
  rw [State.combine]
  split <;> split <;> rfl

/-- Settles O40: each abort is `State.abortSettle` from its own place, each ABORT flit one branch of `State.takeAbort`. -/
theorem abortsEndSettlements : Obligations.AbortsEndSettlements := by
  refine ⟨?_, ?_, ?_, ?_⟩
  · intro c row s m r me own hs hin hf hc hop hr hset hsent hfin hready hspad hrow hbuf
    have hopen : RowOpen s c r := ⟨hin, hf, hc, hop, hr, hset, hfin, hbuf⟩
    have e : s.partSend c.tag row = _ :=
      (State.partSend_open hs hopen).trans ((if_neg (by rw [show (c.row? row.toNat).sent = false from hsent]; decide)).trans (State.reduceRow_clean hready hspad hrow))
    have done {t : State} {k : W16} {row' : Nat} {d : List Byte} (h : s.partSend c.tag row = t) (ha : aborted s t c k row' d) :
        ∃ t, exec (.partSend c.tag row) s = .next t ∧ aborted s t c k row' d :=
      ⟨t, congrArg Host.Outcome.next ((congrArg (State.cycleLog · s) h).trans (aborted_cycleLog ha)), ha⟩
    refine ⟨fun hsrc => ?_, fun bs hsrc hstrict hme hheld hrec hmerge => ?_⟩
    · have e1 := e.trans (if_pos (by rw [show sourceOk c c.cmd (s.sourceRow c c.cmd row.toNat).2.2 = false from hsrc]; rfl))
      exact done e1 (State.abortSettle_aborted hin rfl rfl _ _ _)
    · have e1 := (e.trans (if_neg (by rw [show sourceOk c c.cmd (s.sourceRow c c.cmd row.toNat).2.2 = true from hsrc]; decide))).trans
        ((if_pos hstrict).trans (State.strictStep_record (m := m) hme own hrec hheld))
      dsimp only at e1
      rw [hmerge] at e1
      exact done e1 (State.abortSettle_aborted hin rfl (State.filter_dropRecord s c m tPART (m.before me) r) _ _ _)
  · intro c s hs hwait hin hop hf hr hlim
    have e : s.escrowWatchdog c.tag = s.abortSettle c cESCTO 0 (esctoDetail noTag true (s.tb.cycle - c.issued)) := by
      rw [State.escrowWatchdog, running_of s hs.1 hs.2, hwait]
      simp [State.escrowWatchdog.settles, hin, hop, hf, hr, hlim]
    exact ⟨_, congrArg Host.Outcome.next e, State.abortSettle_aborted hin rfl rfl _ _ _⟩
  · intro c flit s hb hp hlen l f me notice taken passed acked gone hcrc hseq hres ht
    have room := State.bufferFull_false (s := s) (c := c) (f := f) (fun x => by rw [ht] at x; cases x) (fun x => by rw [ht] at x; cases x)
    have e := State.flitReceive_taken (s := s) (c := c) (ringWorks_of hb hp) hlen hcrc (fun _ h => absurd hseq h)
      (by rw [hres]; exact State.badLink_none (.inl hseq) (by rw [ht]; decide) (State.unmatched_of_type (by rw [ht]; decide)))
      (by rw [ht]; decide) room
    rw [State.takes_abort _ ht, hseq] at e
    have done {u t : State} (h : (s.setLink c l.taken).takeAbort c f = u) (ht : u.ack c false l.rxSeq = t) (hl : t.ledger = s.ledger) :
        exec (.flitReceive c flit) s = .next t := by
      rw [h, ht] at e
      exact congrArg Host.Outcome.next ((congrArg (State.cycleLog · s) e).trans (State.cycleLog_same _ _ hl))
    have hset (t : BitVec 3) (i : W16) : (s.setLink c l.taken).settle? c t i = s.settle? c t i := by cases c <;> rfl
    have hpos : (s.setLink c l.taken).position c = me := State.position_setLink _ _ _ _
    have answer {u : State} {L : Link} (h : (s.setLink c l.taken).takeAbort c f = u) (hl : u.link c = L) (ho : u.out = s.out)
        (hfr : u = { s with links := u.links, setBuf := u.setBuf, stream := u.stream }) : ∃ t, exec (.flitReceive c flit) s = .next t
          ∧ t.link c = { L with worded := true } ∧ acked t ∧ t.setBuf = u.setBuf ∧ t.stream = u.stream
          ∧ t = { s with links := t.links, out := t.out, setBuf := t.setBuf, stream := t.stream } := by
      obtain ⟨h1, h2, h3⟩ := State.ack_spec l.rxSeq hl ho
      generalize hu : State.ack _ _ _ _ = t at h1 h2 h3
      have hfr' : t = { s with links := t.links, out := t.out, setBuf := t.setBuf, stream := t.stream } := by
        rw [h3, hfr]
      exact ⟨t, done h hu (by rw [hfr']), h1, h2, by rw [h3], by rw [h3], hfr'⟩
    clear e room done hcrc hseq hres ht
    clear_value f
    refine ⟨fun hn hd => ?_, fun hn hd hx => ?_, fun x hn hd hx hin => ?_, fun hn hs => ?_⟩
    · have e1 := State.takeAbort_own (s := s.setLink c l.taken) hn (by rw [hpos, hd])
      obtain ⟨t, h0, h1, h2, h3, h4, h5⟩ := answer e1 (State.link_setLink _ _ _) (by cases c <;> rfl) (by cases c <;> rfl)
      refine ⟨t, h0, h1, h2, ?_⟩
      rw [State.setLink_setBuf] at h3
      rw [State.setLink_stream] at h4
      rw [h3, h4] at h5
      exact h5
    · have e1 := State.takeAbort_none (s := s.setLink c l.taken) hn (by rwa [hpos]) (by rwa [hset])
      obtain ⟨t, h0, h1, h2, h3, h4, h5⟩ := answer e1 (State.forward_link _ _ _) (by cases c <;> rfl) (by cases c <;> rfl)
      refine ⟨t, h0, ?_, h2, h3.trans (by cases c <;> rfl), ?_⟩
      · rw [h1]
        cases c <;> rfl
      · have : t.stream = s.stream := h4.trans (by cases c <;> rfl)
        rw [this] at h5
        exact h5
    · have e1 := State.takeAbort_settle (s := s.setLink c l.taken) (x := x) hn (by rwa [hpos]) (by rwa [hset])
      obtain ⟨t, h0, h1, h2, h3, h4, h5⟩ := answer e1 (State.forward_link _ _ _) (by rw [State.forward_frame]; cases c <;> rfl)
        (State.discarded_frame s c l.taken x.tag _ _ _ f)
      refine ⟨t, h0, ?_, h2, h3.trans (by cases c <;> rfl), ?_, h5⟩
      · rw [h1]
        cases c <;> rfl
      · have hcmd := State.onlyCommand_modInflight hin (f := fun c => { c with fault := some f.code }) fun _ => rfl
        exact onlyCommand_congr hcmd rfl rfl (h4.trans (by cases c <;> rfl))
    · have e1 := State.takeAbort_notice (s := s.setLink c l.taken) (c := c) hn (by simpa using hs)
      rw [hpos, State.link_setLink, State.setLink_setLink] at e1
      have hheard := Link.heard_eq l.taken f
      generalize l.taken.heard f = L at e1 hheard
      intro heard
      by_cases hnext : (me + 1) % ringSize c = f.detector
      · rw [if_pos hnext] at e1
        obtain ⟨t, h0, h1, h2, h3, h4, h5⟩ := answer e1 (State.link_setLink _ _ _) (by cases c <;> rfl) (by cases c <;> rfl)
        refine ⟨t, h0, ?_, h2, ?_⟩
        · rw [h1, hheard, if_pos hnext]
          rfl
        · rw [State.setLink_setBuf] at h3
          rw [State.setLink_stream] at h4
          rw [h3, h4] at h5
          exact h5
      · rw [if_neg hnext] at e1
        have hframe := State.forward_frame (s.setLink c L) c f
        obtain ⟨t, h0, h1, h2, h3, h4, h5⟩ := answer e1 (State.forward_link _ _ _) (by rw [hframe]; cases c <;> rfl)
          (by rw [hframe]; cases c <;> rfl)
        refine ⟨t, h0, ?_, h2, ?_⟩
        · rw [h1, State.link_setLink, hheard, if_neg hnext]
          rfl
        · have hbuf : t.setBuf = s.setBuf := h3.trans (by rw [hframe]; cases c <;> rfl)
          have hstr : t.stream = s.stream := h4.trans (by rw [hframe]; cases c <;> rfl)
          rw [hbuf, hstr] at h5
          exact h5
  · intro c rest k s m hs hhead hf hop hr hst hbeats hhard hwf
    have e := State.commandRetirement_faulted ⟨hs, hhead, hf, hr, hst, hbeats, hhard⟩
    refine ⟨_, congrArg (fun t : State => Host.Outcome.next (t.cycleLog s)) e, fun a h1 h2 => ?_⟩
    obtain ⟨rs, cur, prev, _, hl⟩ := State.leave_eq (s := (s.undo c c.cmd).combine c c.cmd) (refused_of_not_ready hr)
    rw [hl]
    exact (congrArg (Memory.read · a) (State.combine_rowTab _ _ _)).trans (State.undo_settle_reads hop hwf h1 h2)

end Sys2Proof.Machine
end

section
/-! Commands with a fault, and element commands, retire. -/
namespace Sys2Proof.Machine
open Sys2Proof Sys2Proof.Claims

/-! ### Refused commands -/

/-- A command that was refused at issue leaves with its record alone. -/
theorem State.leave_refused {s : State} {c : Inflight} (hr : c.refused = true) : ∃ cur prev, s.leave c c.cmd =
    { s with
      stream := { s.stream with inflight := s.stream.inflight.drop 1 ++ s.stream.refused.take 1, refused := s.stream.refused.drop 1, lastTag := c.tag }
      prov := { s.prov with cur := cur, prev := prev }, pw := { s.pw with idleSince := s.tb.cycle }
      ft := { s.ft with tallyTags := s.ft.tallyTags.filter fun g => g != c.tag }, act := (s.bump 21 1).act
      out := { s.out with cpl := s.out.cpl ++ [c.completion c.cmd] }
      ledger := (accNote s c).ledger, evRings := (accNote s c).evRings } := by
  have note (u : State) (f : Summary → Summary) : ∃ a b, u.noteEpoch c.slot.epoch f = u.withDigests a b := noteEpoch_digests u _ f
  have hlast : ¬ (c.cmd.op = .tenant ∧ c.fault.isNone = true) := by
    rintro ⟨_, h⟩
    simp only [Inflight.refused, Bool.and_eq_true] at hr
    simp [Option.isNone_iff_eq_none.mp h] at hr
  rw [State.leave]
  dsimp only
  rw [hr]
  generalize hn : State.noteEpoch _ _ _ = v
  obtain ⟨cur, prev, hv⟩ := note _ _
  rw [hv] at hn
  subst hn
  have noted : ∃ a b, (if c.accpv = 0 then s.withDigests cur prev
      else ((s.withDigests cur prev).log cACCPV c.tag (some c.slot.tenant) (bv 4 c.accpv)).noteEpoch c.slot.epoch
        fun x => { x with accpv := true })
      = { s.withDigests a b with ledger := (accNote s c).ledger, evRings := (accNote s c).evRings } := by
    rw [accNote]
    split
    · exact ⟨cur, prev, rfl⟩
    · obtain ⟨a, b, e⟩ := note ((s.withDigests cur prev).log cACCPV c.tag (some c.slot.tenant) (bv 4 c.accpv)) fun x => { x with accpv := true }
      exact ⟨a, b, e.trans rfl⟩
  obtain ⟨a, b, noted⟩ := noted
  refine ⟨a, b, ?_⟩
  simp only [if_true, Bool.not_true, Bool.and_false, Bool.false_and, Bool.false_eq_true, if_false, if_neg hlast]
  rw [noted]
  apply State.ext_fields <;> simp

theorem completion_refused {c : Inflight} {k : W16} (hr : c.refused = true) (hf : c.fault = some k) :
    c.completion c.cmd = record c.tag k 0 0 c.slot.epoch 0 0 := by
  rw [Inflight.completion, hr, hf, if_pos rfl, record, completionRecord_fields _ _ _ _ _ _ _ (by decide) (by decide)]
  rfl

theorem accNote_cycleLog {s t : State} {c : Inflight} (h : t.ledger = (accNote s c).ledger) : t.cycleLog s = t := by
  rw [accNote] at h
  split at h
  · exact State.cycleLog_same _ _ h
  · exact State.cycleLog_log _ _ _ _ _ _ h

/-! ### Slots of rolls -/

/-- From `s` to `t` claims, rolls and what they log have changed, and nothing else. -/
def OnlySlots (s t : State) : Prop :=
  t = { s with stream := { s.stream with claims := t.stream.claims }, rolls := t.rolls, ledger := t.ledger, evRings := t.evRings }

namespace OnlySlots
variable {s t u : State}

theorem refl (s : State) : OnlySlots s s := rfl

theorem trans (h : OnlySlots s t) (k : OnlySlots t u) : OnlySlots s u := by
  unfold OnlySlots at *
  rw [k, h]

theorem modRoll (s : State) (i : Nat) (f : Roll → Roll) : OnlySlots s (s.modRoll i f) := rfl

theorem modClaim (s : State) (c : Claim) (f : Claim → Claim) : OnlySlots s (s.modClaim c f) := rfl

theorem logLimited (s : State) (src : LimitSource) (code tag : W16) (ctx : Option (BitVec 3)) (d : W32 → List Byte) :
    OnlySlots s (s.logLimited src code tag ctx d) := by
  rw [State.logLimited]
  split <;> rfl

theorem dropSlot {i : Nat} (h : s.dropSlot i = some t) : OnlySlots s t := by
  unfold State.dropSlot at h
  dsimp only at h
  split at h
  · cases h
  · cases h
    exact (modRoll s i _).trans (logLimited _ _ _ _ _ _)

theorem moveSlot (s : State) (i : Nat) (seq : W32) (p : Nat) : OnlySlots s (s.moveSlot i seq p) := modRoll _ _ _

theorem acquire {c : Claim} (h : s.acquire c = some t) : OnlySlots s t := by
  unfold State.acquire at h
  dsimp only at h
  split at h
  · cases h
  split at h
  · split at h
    · cases h
      exact modClaim _ _ _
    · cases h
  split at h
  · split at h
    · cases h
      exact modClaim _ _ _
    · cases h
  split at h
  · cases h
    exact (moveSlot _ _ _ _).trans (modClaim _ _ _)
  · rw [Option.bind_eq_some_iff] at h
    obtain ⟨u, hu, h⟩ := h
    rw [Option.map_eq_some_iff] at h
    obtain ⟨p, _, h⟩ := h
    cases h
    exact ((dropSlot hu).trans (moveSlot _ _ _ _)).trans (modClaim _ _ _)

theorem acquireUpTo (s : State) (c : Claim) (n f : Nat) : OnlySlots s (s.acquireUpTo c n f).1 := by
  induction f generalizing s c with
  | zero => exact refl s
  | succ f ih =>
    rw [State.acquireUpTo]
    split
    · exact refl s
    · split
      · next h => exact (acquire h).trans (ih _ _)
      · split
        · exact refl s
        · exact modClaim _ _ _

theorem acquireAll (s : State) (xs : List (Claim × Nat)) : OnlySlots s (s.acquireAll xs).1 := by
  induction xs generalizing s with
  | nil => exact refl s
  | cons x xs ih =>
    rw [State.acquireAll]
    split
    · exact (acquireUpTo _ _ _ _).trans (ih _)
    · exact acquireUpTo _ _ _ _

theorem publish (s : State) (i : Nat) : OnlySlots s (s.publish i) := by
  rw [State.publish]
  split <;> rfl

theorem complete (s : State) (c : Claim) (k : Nat) : OnlySlots s (s.complete c k) := by
  rw [State.complete]
  split
  · exact refl s
  · exact (modClaim _ _ _).trans (publish _ _)

theorem foldl {α : Type} {f : State → α → State} (h : ∀ s x, OnlySlots s (f s x)) (xs : List α) (s : State) : OnlySlots s (xs.foldl f s) := by
  induction xs generalizing s with
  | nil => exact refl s
  | cons x xs ih => exact (h s x).trans (ih _)

theorem completeAll (s : State) (c : Inflight) : OnlySlots s (s.completeAll c) := foldl (fun _ _ => complete _ _ _) _ _

end OnlySlots

/-! ### What is combined -/

section
variable (s : State) (c : Inflight) (m : Cmd)

/-- The amax register takes the command's partial, after the clear that it asks for (R65). -/
theorem State.combine_amax {j : Nat} (hj : j < 16) : vecGet (s.combine c m).st.amax j 0 =
    if m.rc.amen ∧ j = m.rc.amsel then amaxJoin (if m.rc.amclr then 0 else vecGet s.st.amax j 0) c.amax else vecGet s.st.amax j 0 := by
  have h (u : State) (hu : u.st.amax = s.st.amax) : vecGet (if m.rc.amen then
      u.modSt fun st => { st with amax := vecModify st.amax m.rc.amsel fun v => amaxJoin (if m.rc.amclr then 0 else v) c.amax } else u).st.amax j 0 =
      if m.rc.amen ∧ j = m.rc.amsel then amaxJoin (if m.rc.amclr then 0 else vecGet s.st.amax j 0) c.amax else vecGet s.st.amax j 0 := by
    cases hen : m.rc.amen with
    | false => simp [hu]
    | true =>
      simp only [if_true, State.modSt_st, vecGet_vecModify, hu, hj, true_and]
      by_cases hk : j = m.rc.amsel
      · simp [hk]
      · rw [if_neg (Ne.symm hk), if_neg hk]
  rw [State.combine]
  exact h _ (by split <;> rfl)

/-- The assay takes the partial of a command that has not faulted (R244). -/
theorem State.combine_assays (hf : c.fault = none) {k : Nat} (hk : k < 16) : vecGet (s.combine c m).st.assays k ⟨.idle, 0, 0⟩ =
    let a := vecGet s.st.assays k ⟨.idle, 0, 0⟩
    if (m.rc.aen ∨ m.op = .assay ∧ bitsOf m.chain 18 16 = 3) ∧ k = m.rc.aacc then
      { a with value := a.value ^^^ c.asValue, count := satAdd a.count c.asCount.toNat }
    else a := by
  have ham (u : State) : (if m.rc.amen then
      u.modSt fun st => { st with amax := vecModify st.amax m.rc.amsel fun v => amaxJoin (if m.rc.amclr then 0 else v) c.amax } else u).st.assays
      = u.st.assays := by
    split <;> rfl
  rw [State.combine, ham]
  have hc : (c.fault.isNone && (m.rc.aen || (m.op == .assay && bitsOf m.chain 18 16 == 3))) = true ↔
      (m.rc.aen = true ∨ m.op = .assay ∧ bitsOf m.chain 18 16 = 3) := by simp [hf]
  by_cases h : m.rc.aen = true ∨ m.op = .assay ∧ bitsOf m.chain 18 16 = 3
  · rw [if_pos (hc.mpr h), State.modSt_st]
    dsimp only
    rw [vecGet_vecModify]
    by_cases hk' : k = m.rc.aacc
    · rw [if_pos hk'.symm, if_pos hk, if_pos ⟨h, hk'⟩]
    · rw [if_neg (Ne.symm hk'), if_neg fun x => hk' x.2]
  · rw [if_neg (fun x => h (hc.mp x)), if_neg fun x => h x.1]

theorem State.combine_frame : s.combine c m = { s with
    st := { s.st with amax := (s.combine c m).st.amax, assays := (s.combine c m).st.assays } } := by
  rw [State.combine]
  split <;> split <;> rfl

theorem State.combine_frame_faulted (hf : c.fault ≠ none) : s.combine c m = { s with st := { s.st with amax := (s.combine c m).st.amax } } := by
  have : c.fault.isNone = false := by rw [Bool.eq_false_iff, Ne, Option.isNone_iff_eq_none]; exact hf
  rw [State.combine, this]
  simp only [Bool.false_and, Bool.false_eq_true, if_false]
  split <;> rfl

end

theorem State.leave_st (s : State) {c : Inflight} (hr : c.refused = false) : (s.leave c c.cmd).st = s.st := by
  obtain ⟨_, _, _, _, e⟩ := State.leave_eq (s := s) hr
  rw [e]
  rfl

/-- Settles O24: a refused command leaves with its record, another one after its updates are undone. -/
theorem faultedCommandsRetire : Obligations.FaultedCommandsRetire := by
  refine ⟨fun c rest k s hs hhead hf hr hst => ?_, fun c rest k s => ?_⟩
  · have href : c.refused = true := by simp [Inflight.refused, hf, hr]
    have e : s.commandRetirement = s.leave c c.cmd := by
      rw [State.commandRetirement, hhead]
      have hready : s.retireReady c c.cmd = true := by simp [State.retireReady, hst, href, hf]
      dsimp only
      rw [running_of s hs.1 hs.2, hready, href]
      rfl
    obtain ⟨cur, prev, hl⟩ := State.leave_refused (s := s) href
    rw [completion_refused href hf] at hl
    refine ⟨_, congrArg Host.Outcome.next ((congrArg (State.cycleLog · s) (e.trans hl)).trans (accNote_cycleLog (c := c) rfl)), ?_⟩
    rw [hhead]
    exact ⟨rfl, rfl, rfl, rfl, rfl, rfl, rfl, rfl, rfl⟩
  · intro m u hs hhead hf hr hst hb hh
    have e := State.commandRetirement_faulted ⟨hs, hhead, hf, hr, hst, hb, hh⟩
    have hafoot : Afoot s u := (Afoot.refl s).undo c m
    have hamax : u.st.amax = s.st.amax := by rw [hafoot.stores]
    have hst' : ((u.combine c m).leave c m).st = (u.combine c m).st := State.leave_st _ (refused_of_not_ready hr)
    have hd := State.leave_departs (u.combine c m) s (refused_of_not_ready hr)
    rw [hf] at hd
    refine ⟨_, congrArg (fun t : State => Host.Outcome.next (t.cycleLog s)) e, fun hp hop => ?_, hafoot.length, hafoot.waiting, fun j hj => ?_, ?_⟩
    · exact (if_neg hop).trans (if_pos (by rw [hp]; rfl))
    · rw [State.cycleLog_st, hst', State.combine_amax u c m hj, hamax]
    · intro v
      have hv : v = u.combine c m := by
        rw [State.combine_frame_faulted u c m (by simp [hf])]
        exact congrArg (fun x => { u with st := { u.st with amax := x } }) (congrArg Stores.amax hst')
      rw [hv]
      exact hd

/-- What the writes of memory alone leave of the stores of the lanes. -/
theorem Stores.wrote_mem (st : Stores) {ws : List Wr} (h : ∀ w ∈ ws, ∃ a n b, w = Wr.mem a n b) : st.wrote ws = st := by
  have h1 (t : List (Nat × W32)) : ws.foldl tillWrite t = t := by
    induction ws with
    | nil => rfl
    | cons w ws ih =>
      obtain ⟨a, n, b, rfl⟩ := h w List.mem_cons_self
      exact ih fun w hw => h w (List.mem_cons_of_mem _ hw)
  have none (f : Wr → Bool) (hf : ∀ a n b, f (.mem a n b) = false) : ws.any f = false := by
    rw [List.any_eq_false]
    intro w hw
    obtain ⟨a, n, b, rfl⟩ := h w hw
    simp [hf]
  have h2 (k : Nat) : ws.any (Wr.inCell k) = false := none _ fun _ _ _ => rfl
  have h3 (e : Nat) : coversEntry ws e = false := by
    rw [Bool.eq_false_iff]
    intro hall
    rw [coversEntry, List.all_eq_true] at hall
    have := hall 0 (by decide)
    rw [none _ fun _ _ _ => rfl] at this
    cases this
  rw [Stores.wrote]
  simp [h1, h2, h3]

/-- A command of elements does nothing at its retirement but store what it kept. -/
theorem State.retireEffect_elements (s : State) {c : Inflight} (h : c.cmd.elements = true) (ha : c.cmd.op = .assay → c.writes = []) :
    s.retireEffect c c.cmd = s.lateStores c := by
  unfold State.retireEffect
  split
  · next hop =>
    have : bitsOf c.cmd.chain 18 16 = 3 := by
      simpa [Cmd.elements, hop, Op.rows] using h
    simp [this, State.lateStores, ha hop]
  · next hop => simp [Cmd.elements, hop, Op.rows] at h
  · next hop => simp [Cmd.elements, hop, Op.rows] at h
  · next hop => simp [Cmd.elements, hop, Op.rows] at h
  · next hop => simp [Cmd.elements, hop, Op.rows] at h
  · rfl

/-- The late stores of a command (R449), over words that are clean where it has any. -/
theorem State.lateStores_spec {s : State} {c : Inflight} (h : c.writes = [] ∨ s.spad.synd = []) :
    ∃ p, s.lateStores c = { s with spad := p, st := s.st.wrote c.writes } ∧ ∀ t : State, t.spad = p → storesOnly s t c.writes := by
  by_cases hw : c.writes = []
  · refine ⟨s.spad, ?_, fun t ht => ?_⟩
    · rw [State.lateStores, hw, Stores.wrote_mem _ (by simp)]
      rfl
    · rw [hw]
      exact ⟨by rw [ht]; rfl, fun a _ => by rw [ht]⟩
  · have hsynd := h.resolve_left hw
    refine ⟨s.spad.wrote ((memWrites c.writes).filter fun x => decide (x.1 < s.spadBytes)), ?_, fun t ht => storesOnly_wrote _ _ ht⟩
    rw [State.lateStores, if_neg (by simpa using hw), State.doWrites_clean _ _ hsynd]

/-- A command of elements may retire once its beats and rows are done. -/
theorem State.finished_elements {s : State} {c : Inflight} (h : c.cmd.elements = true) (hs : c.started = c.total)
    (hr : c.cmd.rowSteps c.regs ≤ c.rowsDone) : s.finished c = true := by
  unfold State.finished
  split
  · next hop => simp [Cmd.elements, hop, Op.rows] at h
  · next hop => simp [Cmd.elements, hop, Op.rows] at h
  · next hop => simp [Cmd.elements, hop, Op.rows] at h
  · next hop => simp [Cmd.elements, hop, Op.rows] at h
  · next hop => simp [Cmd.elements, hop, Op.rows] at h
  · next hop => simp [Cmd.elements, hop, Op.rows] at h
  · simp [hs, hr]

/-- Settles O25: nothing but claims and rolls changes before the late stores, and the combined partials are the stores that it leaves. -/
theorem elementCommandRetires : Obligations.ElementCommandRetires := by
  intro c rest s m w hs hhead hf hst hb hh hrow hstart hrows hconf hbad hel hassay hacq hclean
  have hw : OnlySlots s w := (OnlySlots.acquireAll s _).trans (OnlySlots.completeAll _ c)
  have hwst : w.st = s.st := by rw [hw]
  have hwspad : w.spad = s.spad := by rw [hw]
  have hready : s.retireReady c m = true :=
    (retireReady_of hst (fun hop => by simp [m, Cmd.elements, hop, Op.rows] at hel) hb hh hrow hf).trans (State.finished_elements hel hstart hrows)
  obtain ⟨p, hlate, hstores⟩ := State.lateStores_spec (s := w) (c := c) (by rwa [hwspad])
  let x : State := { w with spad := p, st := w.st.wrote c.writes }
  have hin : x.inflight? c.tag = some c := by
    have h1 : w.stream.inflight = c :: rest := by rw [hw, hhead]
    exact inflight?_head x c rest h1
  have e : s.commandRetirement = (x.combine c m).leave c m := by
    rw [State.commandRetirement_done ⟨hs, hhead, hf, hready, .inl hconf, hbad⟩ hacq]
    dsimp only
    rw [State.retireEffect_elements _ hel hassay]
    change (let u := w.lateStores c
      let d := (u.inflight? c.tag).getD c
      (u.combine d m).leave d m) = _
    rw [hlate]
    dsimp only
    rw [hin]
    rfl
  have hr := refused_of_fault_none hf
  have hst' : ((x.combine c m).leave c m).st = (x.combine c m).st := State.leave_st _ hr
  have hd := State.leave_departs (x.combine c m) s hr
  rw [hf] at hd
  have hwrote : x.st.amax = s.st.amax ∧ x.st.assays = s.st.assays := by
    rw [← hwst]
    exact ⟨rfl, rfl⟩
  refine ⟨_, p, congrArg (fun t : State => Host.Outcome.next (t.cycleLog s)) e, fun hc => ?_, ?_, hwspad, hwst, ?_, fun k hk => ?_, fun k hk => ?_,
    fun hmem => ?_, ?_⟩
  · have e1 := State.allSlots_none hc
    exact (congrArg (fun l => (s.acquireAll l).1.completeAll c) e1).trans (State.completeAll_none hc)
  · rw [hw]
  · rw [hw]
  · rw [State.cycleLog_st, hst', State.combine_amax x c m hk, hwrote.1]
  · rw [State.cycleLog_st, hst', State.combine_assays x c m hf hk, hwrote.2]
    have hop : (m.op = .assay ∧ bitsOf m.chain 18 16 = 3) ↔ m.op = .assay :=
      ⟨And.left, fun h => ⟨h, by simpa [m, Cmd.elements, show c.cmd.op = .assay from h, Op.rows] using hel⟩⟩
    exact if_congr (by rw [hop]) rfl rfl
  · rw [State.cycleLog_st, hst', State.combine_frame]
    have : w.st.wrote c.writes = s.st := (Stores.wrote_mem _ hmem).trans hwst
    exact congrArg (fun z : Stores => { z with amax := (x.combine c m).st.amax, assays := (x.combine c m).st.assays }) this
  · intro v
    have hv : v = x.combine c m := by
      have hf := State.combine_frame x c m
      have hvst : v.st = (x.combine c m).st := hst'
      rw [hf]
      rw [hf] at hvst
      exact congrArg (fun z : Stores => { w with st := z, spad := p }) hvst
    rw [hv]
    exact ⟨hstores _ (by rw [State.combine_frame]), hd⟩

end Sys2Proof.Machine
end

section
/-! Retirements of `ASSAY` and of the commands of the unit. -/
namespace Sys2Proof.Machine
open Sys2Proof Sys2Proof.Claims

/-! ### A command whose completion values are given at its retirement -/

/-- The log of a command's `ACCPV` does not hang on the commands in flight. -/
theorem accNote_modInflight (u : State) (c : Inflight) (tag : W16) (f : Inflight → Inflight) :
    accNote (u.modInflight tag f) c = (accNote u c).modInflight tag f := by
  rw [accNote, accNote]
  split <;> rfl

/-- What the pieces of a command without beats count does not hang on the rest of the state. -/
theorem act_of_pieces {u w : State} (h : u.act = w.act) (total m n : Nat) :
    ((if total = 0 then (u.bump 17 m).bump 18 n else u).bump 21 1).act = ((if total = 0 then (w.bump 17 m).bump 18 n else w).bump 21 1).act := by
  split <;> simp [State.bump, h]

/-- What departs under its new values has departed. -/
theorem departs_of_values {u t z : State} {c : Inflight} {tag : W16} {f : Inflight → Inflight} {cpl : BitVec 128} (x y : W32)
    (hdrop : (u.modInflight tag f).stream.inflight.drop 1 = u.stream.inflight.drop 1)
    (h : departs (u.modInflight tag f) t { c with d0 := x, d1 := y } cpl z) : departs u t c cpl z := by
  obtain ⟨h1, h2, h3, h4, h5, h6, h7, h8, h9, h10, h11, h12, h13⟩ := h
  refine ⟨?_, h2, h3, h4, h5, h6, h7, h8, h9, ?_, ?_, ?_, ?_⟩
  · rw [hdrop] at h1
    exact h1
  · have e := accNote_modInflight u { c with d0 := x, d1 := y } tag f
    rw [e] at h10
    exact h10
  · have e := accNote_modInflight u { c with d0 := x, d1 := y } tag f
    rw [e] at h11
    exact h11
  · obtain ⟨ha, hb, hc⟩ := h12
    refine ⟨?_, hb, hc⟩
    exact ha.trans (act_of_pieces (u := u.modInflight tag f) (w := u) rfl c.total c.pieces.1.length c.pieces.2.length)
  · exact h13

/-- The oldest command changed. -/
theorem State.modInflight_head {u : State} {c : Inflight} {rest : List Inflight} (h : u.stream.inflight = c :: rest) (f : Inflight → Inflight) :
    (u.modInflight c.tag f).stream.inflight = f c :: rest := by
  rw [State.modInflight_stream]
  show updateFirst _ f u.stream.inflight = _
  rw [h, updateFirst, if_pos]
  simp [Inflight.tag, Slot.tag]

/-! ### `ASSAY` -/

theorem vecGet_foldl_vecModify {α : Type} {n : Nat} {f : α → α} (hf : ∀ a, f (f a) = f a) (d : α) {k : Nat} (hk : k < n) (ks : List Nat)
    (v : Vector α n) :
    vecGet (ks.foldl (fun v k => vecModify v k f) v) k d = if k ∈ ks then f (vecGet v k d) else vecGet v k d := by
  induction ks generalizing v with
  | nil => rfl
  | cons j ks ih =>
    rw [List.foldl_cons, ih, vecGet_vecModify]
    by_cases hj : j = k
    · subst hj
      by_cases hm : j ∈ ks <;> simp [hk, hf, hm]
    · simp [hj, Ne.symm hj]

theorem recordWrites_mem (x : Desc) (p : Option RollPlace) (r : Nat) (bs : List Byte) :
    ∀ w ∈ recordWrites x p r bs, ∃ a n b, w = Wr.mem a n b := by
  intro w hw
  obtain ⟨y, _, rfl⟩ := List.mem_map.mp hw
  exact ⟨_, _, _, rfl⟩

/-- A record stored changes the scratchpad alone. -/
theorem State.doWrites_record {s : State} (h : s.spad.synd = []) (tag : W16) (x : Desc) (bs : List Byte) :
    s.doWrites tag (recordWrites x none 0 bs) = { s with
      spad := s.spad.wrote ((memWrites (recordWrites x none 0 bs)).filter fun x => decide (x.1 < s.spadBytes)) } := by
  rw [State.doWrites_clean _ _ h, Stores.wrote_mem _ (recordWrites_mem _ _ _ _)]

section
variable {s : State} {c : Inflight} {rest : List Inflight}

/-- The retirement of a command that has nothing to combine: what it does in that cycle, and that it leaves. -/
theorem retirement_departs (h : Retiring s c rest) (hc : ∀ x ∈ s.stream.claims, x.tag ≠ c.tag) {u : State} {d : Inflight}
    (he : s.retireEffect c c.cmd = u) (hd : u.inflight? c.tag = some d) (hcmd : d.cmd = c.cmd) (hr : d.refused = false)
    (h1 : c.cmd.rc.aen = false) (h2 : c.cmd.rc.amen = false) (h3 : c.cmd.op = .assay → bitsOf c.cmd.chain 18 16 ≠ 3)
    (hn : c.cmd.counts = false) :
    ∃ t, exec .commandRetirement s = .next t ∧ t.st = u.st ∧ departs u t d (completes d (d.fault.getD 0) d.d0 d.d1) s := by
  have e : s.commandRetirement = u.leave d d.cmd := by
    rw [State.commandRetirement_plain h hc]
    dsimp only
    rw [he, hd, Option.getD_some, State.combine_none u d h1 h2 h3, hcmd]
  have hl := State.leave_departs u s hr
  rw [hcmd, hn] at hl
  refine ⟨_, congrArg (fun t : State => Host.Outcome.next (t.cycleLog s)) e, ?_, ?_⟩
  · rw [State.cycleLog_st, State.leave_st u hr]
  · rw [hcmd]
    exact hl

/-- One that gives its completion values in that cycle. -/
theorem retirement_departs_values (h : Retiring s c rest) (hc : ∀ x ∈ s.stream.claims, x.tag ≠ c.tag) {u : State} {l : List Inflight} (x y : W32)
    {d : Inflight} {f : Inflight → Inflight} (hu : u.stream.inflight = c :: l) (he : s.retireEffect c c.cmd = u.modInflight c.tag f)
    (hf : ∀ e, (f e).slot = e.slot) (hv : f c = { d with d0 := x, d1 := y })
    (hslot : d.slot = c.slot) (hmodes : d.modes = c.modes) (hr : d.refused = false)
    (h1 : c.cmd.rc.aen = false) (h2 : c.cmd.rc.amen = false) (h3 : c.cmd.op = .assay → bitsOf c.cmd.chain 18 16 ≠ 3)
    (hn : c.cmd.counts = false) :
    ∃ t, exec .commandRetirement s = .next t ∧ t.st = u.st ∧ departs u t d (completes d (d.fault.getD 0) x y) s := by
  have hin : (u.modInflight c.tag f).inflight? c.tag = some { d with d0 := x, d1 := y } := by
    rw [State.inflight?_modInflight _ hf, inflight?_head u c l hu, Option.map_some, hv]
  have hcmd : d.cmd = c.cmd := by rw [Inflight.cmd, Inflight.cmd, hslot, hmodes]
  obtain ⟨t, h4, h5, h6⟩ := retirement_departs h hc he hin hcmd hr h1 h2 h3 hn
  refine ⟨t, h4, h5, departs_of_values (c := d) x y ?_ h6⟩
  rw [State.modInflight_head hu f, hu]
  rfl

end

theorem Cmd.counts_false {m : Cmd} (h : m.op ∈ [Op.assay, .sealing, .stmt, .tenant, .cfg, .setlen, .mint, .fnsync, .rollset]) :
    m.counts = false := by
  simp only [List.mem_cons, List.not_mem_nil, or_false] at h
  rcases h with h | h | h | h | h | h | h | h | h <;> simp [Cmd.counts, Cmd.elements, h, Op.rows]

/-- An `ASSAY` has no row to step through. -/
theorem Cmd.rowSteps_assay {m : Cmd} (h : m.op = .assay) (r : Regs) : m.rowSteps r = 0 := by
  simp [Cmd.rowSteps, h, Op.rows]

/-- An `ASSAY` that its place in the stream lets retire. -/
theorem retiring_assay {s : State} {c : Inflight} {rest : List Inflight} (hs : started s) (hhead : s.stream.inflight = c :: rest)
    (hf : c.fault = none) (hop : c.cmd.op = .assay) (hst : s.stopped c.tag = false) (hp : Claims.plain s c) (hstart : c.started = c.total) :
    Retiring s c rest := by
  obtain ⟨hb, hh, hconf, hbad, _, _⟩ := hp
  have hrows : c.cmd.rowSteps c.regs = 0 := Cmd.rowSteps_assay hop _
  have hrow : s.rowReady c = false := by simp [State.rowReady, hrows]
  refine ⟨hs, hhead, hf, ?_, .inl hconf, hbad⟩
  rw [retireReady_of hst (by simp [hop]) hb hh hrow hf, State.finished, hop]
  simp [hstart, hrows]

/-- An `ASSAY` that stores what it reads, with the number of what it has read. -/
def State.assayRead (s : State) (c : Inflight) (ks : List Nat) (bs : List Byte) : State :=
  (s.doWrites c.tag (recordWrites (c.cmd.get .out) none 0 bs)).modInflight c.tag fun c => { c with d0 := BitVec.ofNat 32 ks.length }

/-- The retirement of an `ASSAY` that reads. -/
theorem assayRead_departs {s : State} {c : Inflight} {rest : List Inflight} (h : Retiring s c rest) (hp : Claims.plain s c) (hop : c.cmd.op = .assay)
    (h3 : bitsOf c.cmd.chain 18 16 ≠ 3) (hspad : s.spad.synd = []) (h1 : c.cmd.rc.aen = false) (h2 : c.cmd.rc.amen = false)
    {ks : List Nat} {bs : List Byte} (he : s.retireEffect c c.cmd = s.assayRead c ks bs) :
    ∃ t p, exec .commandRetirement s = .next t ∧ t.st = s.st ∧
      (let v : State := { s with spad := p }
       storesOnly s v (recordWrites (c.cmd.get .out) none 0 bs) ∧ departs v t c (completes c 0 (BitVec.ofNat 32 ks.length) c.d1)) := by
  obtain ⟨_, _, _, _, _, hclaims⟩ := hp
  have hu := State.doWrites_record hspad c.tag (c.cmd.get .out) bs
  generalize hp : s.spad.wrote _ = p at hu
  rw [State.assayRead, hu] at he
  obtain ⟨t, ht, hst, hd⟩ := retirement_departs_values (d := c) (u := { s with spad := p }) h hclaims (BitVec.ofNat 32 ks.length) c.d1
    (l := rest) h.head he (fun _ => rfl) rfl
    rfl rfl (refused_of_fault_none h.fault) h1 h2 (fun _ => h3) (Cmd.counts_false (by simp [hop]))
  rw [h.fault] at hd
  refine ⟨t, p, ht, hst, storesOnly_wrote _ _ hp.symm, ?_⟩
  exact hd

/-- An accumulator opened (Table 9.5). -/
def Assay.opening (_ : Assay) : Assay := ⟨.opened, 0, 0⟩

/-- An accumulator closed, where it is open. -/
def Assay.closing (a : Assay) : Assay := if a.st = .opened then { a with st := .closed } else a

theorem Assay.closing_closing (a : Assay) : a.closing.closing = a.closing := by
  rw [Assay.closing, Assay.closing]
  split <;> simp_all

/-- What an `ASSAY` does, operation by operation. -/
theorem State.assayOp_eq (s : State) (c : Inflight) :
    let ks := maskBits (bitsOf c.cmd.chain 15 0)
    (bitsOf c.cmd.chain 18 16 = 0 → s.assayOp c c.cmd = s.modSt fun st =>
      { st with assays := ks.foldl (fun v k => vecModify v k Assay.opening) st.assays })
    ∧ (bitsOf c.cmd.chain 18 16 = 1 → s.assayOp c c.cmd = s.modSt fun st =>
      { st with assays := ks.foldl (fun v k => vecModify v k Assay.closing) st.assays })
    ∧ (bitsOf c.cmd.chain 18 16 = 2 → s.assayOp c c.cmd = s.assayRead c ks (ks.map fun k => (s.assay k).slot k).flatten)
    ∧ (bitsOf c.cmd.chain 18 16 = 4 → s.assayOp c c.cmd = s.assayRead c ks (ks.map fun k => leBytes 8 (vecGet s.st.amax k 0).toNat).flatten)
    ∧ (bitsOf c.cmd.chain 18 16 = 5 → s.assayOp c c.cmd = s.modSt fun st =>
      { st with amax := ks.foldl (fun v k => vecModify v k fun _ => 0) st.amax }) := by
  refine ⟨fun h => ?_, fun h => ?_, fun h => ?_, fun h => ?_, fun h => ?_⟩ <;> rw [State.assayOp, h] <;> rfl

/-- Settles O26: each operation is a fold over the mask's numbers, or a record stored. -/
theorem assayCommandsRetire : Obligations.AssayCommandsRetire := by
  intro c rest s m op ks old hs hhead hf hop hle hne hst hp hstart hspad h1 h2 bs
  have h := retiring_assay hs hhead hf hop hst hp hstart
  have hn : m.counts = false := Cmd.counts_false (by simp [hop])
  have heff : s.retireEffect c m = s.assayOp c m := by
    rw [State.retireEffect, hop]
    exact if_neg hne
  obtain ⟨_, _, _, _, _, hclaims⟩ := id hp
  have bank (f : Stores → Stores) (he : s.assayOp c m = s.modSt f) :
      ∃ t, exec .commandRetirement s = .next t ∧ t.st = f s.st ∧
        departs (s.modSt f) t c (completes c 0 c.d0 c.d1) := by
    obtain ⟨t, ht, htst, hd⟩ := retirement_departs h hclaims (heff.trans he) (d := c) (inflight?_head _ c rest hhead) rfl
      (refused_of_fault_none hf) h1 h2 (fun _ => hne) hn
    rw [hf] at hd
    exact ⟨t, ht, htst, hd⟩
  have quiet {u t : State} (hst : t.st = u.st) (hu : u = { s with st := u.st }) {c : Inflight} {cpl : BitVec 128} (hd : departs u t c cpl) :
      let v : State := { s with st := t.st, spad := s.spad }
      storesOnly s v [] ∧ departs v t c cpl := by
    intro v
    have : v = u := by rw [hu, ← hst]
    rw [this]
    refine ⟨?_, hd⟩
    rw [hu]
    exact ⟨rfl, fun _ _ => rfl⟩
  have hcases : op = 0 ∨ op = 1 ∨ op = 2 ∨ op = 4 ∨ op = 5 := by omega
  obtain ⟨e0, e1, e2, e4, e5⟩ := s.assayOp_eq c
  rcases hcases with h0 | h0 | h0 | h0 | h0
  · obtain ⟨t, ht, htst, hd⟩ := bank _ (e0 h0)
    refine ⟨t, s.spad, ht, fun k hk => ?_, fun k _ => ?_, by rw [htst], ?_⟩
    · rw [htst, vecGet_foldl_vecModify (f := Assay.opening) (fun _ => rfl) _ hk]
      simp [h0, old, ks, m, Assay.opening]
    · simp [h0, htst]
    · simpa [bs, h0, recordWrites] using quiet htst rfl hd
  · obtain ⟨t, ht, htst, hd⟩ := bank _ (e1 h0)
    refine ⟨t, s.spad, ht, fun k hk => ?_, fun k _ => ?_, by rw [htst], ?_⟩
    · rw [htst, vecGet_foldl_vecModify Assay.closing_closing _ hk]
      simp [h0, old, ks, m, Assay.closing, ite_and]
    · simp [h0, htst]
    · simpa [bs, h0, recordWrites] using quiet htst rfl hd
  · obtain ⟨t, p, ht, htst, hd⟩ := assayRead_departs h hp hop hne hspad h1 h2 (heff.trans (e2 h0))
    refine ⟨t, p, ht, fun k _ => ?_, fun k _ => ?_, by rw [htst], ?_⟩
    · simp [h0, htst, old]
    · simp [h0, htst]
    · have hbs : bs = _ := if_pos h0
      rw [if_pos (.inl h0), htst, hbs]
      exact hd
  · obtain ⟨t, p, ht, htst, hd⟩ := assayRead_departs h hp hop hne hspad h1 h2 (heff.trans (e4 h0))
    refine ⟨t, p, ht, fun k _ => ?_, fun k _ => ?_, by rw [htst], ?_⟩
    · simp [h0, htst, old]
    · simp [h0, htst]
    · have hbs : bs = _ := (if_neg (by simp [h0])).trans (if_pos h0)
      rw [if_pos (.inr h0), htst, hbs]
      exact hd
  · obtain ⟨t, ht, htst, hd⟩ := bank _ (e5 h0)
    refine ⟨t, s.spad, ht, fun k _ => ?_, fun k hk => ?_, by rw [htst], ?_⟩
    · simp [h0, htst, old]
    · rw [htst, vecGet_foldl_vecModify (f := fun _ => 0) (fun _ => rfl) _ hk]
      simp [h0, ks, m]
    · simpa [bs, h0, recordWrites] using quiet htst rfl hd

/-! ### The commands of the unit -/

/-- The digests that begin with the context that a `TENANT` makes active, where none has begun. -/
def Digest.goesOn (x : Digest) (s : State) (new : BitVec 3) (epoch : W16) : Digest := if x.live then x else .begin s.gc new epoch

/-- What ends a breach leaves, and what it does without one. -/
theorem State.endBreach_spec (s : State) : ∃ tn led ev,
    s.endBreach = { s with pw := { s.pw with breach := none }, tn := tn, ledger := led, evRings := ev }
      ∧ tn.active = s.tn.active ∧ tn.changes = s.tn.changes ∧ (s.pw.breach = none → tn = s.tn ∧ led = s.ledger ∧ ev = s.evRings) := by
  rw [State.endBreach]
  split
  · next h => exact ⟨s.tn, s.ledger, s.evRings, by rw [← h], rfl, rfl, fun _ => ⟨rfl, rfl, rfl⟩⟩
  · next h => exact ⟨_, _, _, rfl, rfl, rfl, fun h' => by simp [h'] at h⟩

/-- What the end of a `TENANT` does. -/
theorem State.tenantSwitch_spec (s : State) (c : Inflight) : let m := c.cmd
    let new : BitVec 3 := BitVec.ofNat 3 m.chain
    let v := s.tenantSwitch c m
    v.tn.active = new ∧ v.tn.changes = satAdd s.tn.changes 1 ∧ v.pw = { s.pw with breach := none }
    ∧ v.prov = { s.prov with cur := s.prov.cur.goesOn s new s.ep.curEpoch, prev := s.prov.prev.goesOn s new s.ep.prevEpoch }
    ∧ (s.pw.breach = none → v.tn = { s.tn with active := new, changes := v.tn.changes }
      ∧ v.ledger = (s.log 0x0801 c.tag (some c.slot.tenant) ([BitVec.ofNat 8 s.tn.active.toNat, BitVec.ofNat 8 new.toNat, 0, 0]
          ++ leBytes 4 (min (s.tb.cycle - c.issued) 0xFFFFFFFF) ++ leBytes 4 c.d0.toNat)).ledger)
    ∧ v.stream = s.stream
    ∧ v = { s with tn := v.tn, pw := v.pw, prov := v.prov, ledger := v.ledger, evRings := v.evRings } := by
  obtain ⟨tn, led, ev, e, h1, h2, h3⟩ := s.endBreach_spec
  intro m new v
  have hv : v = s.tenantSwitch c m := rfl
  rw [State.tenantSwitch, e] at hv
  rw [hv]
  refine ⟨rfl, ?_, rfl, rfl, fun hb => ?_, rfl, rfl⟩
  · exact congrArg (fun x => satAdd x 1) h2
  · obtain ⟨rfl, rfl, rfl⟩ := h3 hb
    exact ⟨rfl, rfl⟩

/-- A command without an effect of its own at its retirement makes the stores that it has kept, if any. -/
theorem State.retireEffect_late (s : State) {c : Inflight} (hw : c.writes = []) (h1 : c.cmd.op ≠ .assay) (h2 : c.cmd.op ≠ .sealing)
    (h3 : c.cmd.op ≠ .stmt) (h4 : c.cmd.op ≠ .cfg) (h5 : c.cmd.op ≠ .tenant) : s.retireEffect c c.cmd = s := by
  unfold State.retireEffect
  split
  · next h => exact absurd h h1
  · next h => exact absurd h h2
  · next h => exact absurd h h3
  · next h => exact absurd h h4
  · next h => exact absurd h h5
  · simp [State.lateStores, hw]

theorem State.retireEffect_stores (s : State) {c : Inflight} (h : c.cmd.op = .sealing ∨ c.cmd.op = .stmt) :
    s.retireEffect c c.cmd = s.doWrites c.tag (recordWrites (c.cmd.get .out) none 0 c.data) := by
  rw [State.retireEffect]
  rcases h with h | h <;> rw [h]

/-- Settles O27: those that have acted leave with nothing to do, the others store what they have captured or switch the context. -/
theorem unitCommandsRetire : Obligations.UnitCommandsRetire := by
  intro c rest s m hs hhead hf hst hp hw hstart hrows hrow h1 h2
  obtain ⟨hb, hh, hconf, hbad, _, hclaims⟩ := hp
  have retiring (hop : m.op ≠ .cfg) (hfin : s.finished c = true) : Retiring s c rest :=
    ⟨hs, hhead, hf, (retireReady_of hst (fun h => absurd h hop) hb hh hrow hf).trans hfin, .inl hconf, hbad⟩
  have hfin (h : m.op ∈ [Op.mint, Op.fnsync, Op.rollset, .tenant] → c.ready = true) (h' : m.op ∉ [Op.settle, .waitgc]) :
      s.finished c = true := by
    rw [State.finished]
    split
    · next e => simp [m, e] at h'
    · next e => exact h (by simp [m, e])
    · next e => exact h (by simp [m, e])
    · next e => exact h (by simp [m, e])
    · next e => simp [m, e] at h'
    · next e => exact h (by simp [m, e])
    · simp [hstart, m] at hrows ⊢
      exact hrows
  refine ⟨fun hop => ?_, fun hop hspad => ?_, fun hop hr => ?_⟩
  · have hmem : m.op ∈ [Op.setlen, .mint, .fnsync, .rollset] ∧ (m.op ∈ [Op.mint, .fnsync, .rollset, .tenant] → c.ready = true) := by
      rcases hop with h | ⟨h, hr⟩
      · simp [h]
      · exact ⟨List.mem_cons_of_mem _ h, fun _ => hr⟩
    obtain ⟨hmem, hr⟩ := hmem
    have hother (x : Op) (hx : x ∉ [Op.setlen, .mint, .fnsync, .rollset]) : m.op ≠ x := fun h => hx (h ▸ hmem)
    have h := retiring (hother _ (by decide)) (hfin hr fun h => by
      simp only [List.mem_cons, List.not_mem_nil, or_false] at h
      exact h.elim (hother _ (by decide)) (hother _ (by decide)))
    refine departs_alone h hclaims ?_ h1 h2 (fun h => absurd h (hother _ (by decide))) (Cmd.counts_false ?_)
    · exact State.retireEffect_late s hw (hother _ (by decide)) (hother _ (by decide)) (hother _ (by decide)) (hother _ (by decide))
        (hother _ (by decide))
    · exact (by decide : [Op.setlen, .mint, .fnsync, .rollset] ⊆ _) hmem
  · have hmem : m.op ∈ [Op.sealing, .stmt] := by simpa using hop
    have hother (x : Op) (hx : x ∉ [Op.sealing, .stmt]) : m.op ≠ x := fun h => hx (h ▸ hmem)
    have h := retiring (hother _ (by decide)) (hfin (fun h => absurd hmem fun h' => ?_) fun h => ?_)
    · have he : s.retireEffect c m = { s with spad := _ } := (State.retireEffect_stores s hop).trans (State.doWrites_record hspad _ _ _)
      obtain ⟨t, ht, _, hd⟩ := retirement_departs h hclaims he (d := c) (inflight?_head _ c rest hhead) rfl (refused_of_fault_none hf) h1 h2
        (fun h => absurd h (hother _ (by decide))) (Cmd.counts_false ((by decide : [Op.sealing, .stmt] ⊆ _) hmem))
      rw [hf] at hd
      exact ⟨t, _, ht, storesOnly_wrote _ _ rfl, hd⟩
    · rcases hop with e | e <;> simp [e] at h
    · rcases hop with e | e <;> simp [e] at h
  · intro new begun
    have hop' : c.cmd.op = .tenant := hop
    have h := retiring (by simp [hop]) (hfin (fun _ => hr) (by simp [hop]))
    obtain ⟨v1, v2, v3, v4, v5, v6, v7⟩ := s.tenantSwitch_spec c
    have he : s.retireEffect c m = s.tenantSwitch c m := by rw [State.retireEffect, hop]
    have hin : (s.tenantSwitch c m).inflight? c.tag = some c := inflight?_head _ c rest (by rw [v6, hhead])
    obtain ⟨t, ht, _, hd⟩ := retirement_departs h hclaims he hin rfl (refused_of_fault_none hf) h1 h2 (by simp [hop'])
      (Cmd.counts_false (by simp [hop']))
    rw [hf] at hd
    exact ⟨t, _, ht, hd, v1, v2, v3, v4, v5, v7⟩

end Sys2Proof.Machine
end

section
/-! The retirement of a `CFG`. -/
namespace Sys2Proof.Machine
open Sys2Proof Sys2Proof.Claims

/-! ### What accesses leave of the commands in flight -/

/-- From `s` to `t` commands have at most come behind those in flight. -/
def Behind (s t : State) : Prop := ∃ l, t.stream.inflight = s.stream.inflight ++ l

namespace Behind
variable {s t u : State}

theorem of_stream (h : t.stream.inflight = s.stream.inflight) : Behind s t := ⟨[], by rw [h, List.append_nil]⟩

theorem refl (s : State) : Behind s s := of_stream rfl

theorem trans (h : Behind s t) (h' : Behind t u) : Behind s u := by
  obtain ⟨l, h⟩ := h
  obtain ⟨l', h'⟩ := h'
  exact ⟨l ++ l', by rw [h', h, List.append_assoc]⟩

theorem ite {p : Prop} [Decidable p] {a b : State} (ha : Behind s a) (hb : Behind s b) : Behind s (if p then a else b) := by
  split
  · exact ha
  · exact hb

theorem foldl {α : Type} {f : State → α → State} (h : ∀ u x, Behind u (f u x)) (xs : List α) (s : State) : Behind s (xs.foldl f s) := by
  induction xs generalizing s with
  | nil => exact refl s
  | cons x xs ih => exact (h s x).trans (ih _)

theorem push (s : State) (c : Inflight) : Behind s (s.push c) := by
  show Behind s { s with stream := _ }
  refine ⟨if s.stream.inflight.length < 32 then [c] else [], ?_⟩
  dsimp only
  split
  · rfl
  · exact (List.append_nil _).symm

theorem refuse (s : State) (x : Slot) (code : W16) (detail : List Byte) : Behind s (s.refuse x code detail) := by
  have h : Behind s (if code = cEPOLD then s.countEpold else s) := ite (of_stream rfl) (refl s)
  exact h.trans ((of_stream rfl).trans (push _ _))

theorem disarm (s : State) : Behind s s.disarm := by
  rw [State.disarm]
  dsimp only
  split
  · exact of_stream rfl
  · split
    · exact ite (of_stream rfl) ((of_stream rfl).trans (refuse _ _ _ _))
    · exact of_stream rfl

theorem endBreach (s : State) : Behind s s.endBreach := by
  obtain ⟨_, _, _, e, _⟩ := s.endBreach_spec
  rw [e]
  exact of_stream rfl

theorem rollSetsDue (s : State) : Behind s s.rollSetsDue := by
  refine foldl (fun u w => ?_) _ s
  split
  · exact refl u
  · exact of_stream rfl

theorem odApply (s : State) (path : Path) (index sub v : Nat) : Behind s (s.odApply path index sub v) := by
  unfold State.odApply
  refine ite (of_stream rfl) (ite ?_ (ite (of_stream rfl) (ite (of_stream rfl) (ite ?_ (ite (of_stream rfl) (ite (of_stream rfl)
    (ite (of_stream rfl) (ite ?_ (ite (of_stream rfl) (ite (ite (of_stream rfl) (of_stream rfl)) (ite (ite (of_stream rfl) (of_stream rfl))
      (refl s))))))))))))
  · split
    · exact of_stream rfl
    · exact of_stream rfl
    · exact disarm s
  · exact (of_stream rfl).trans (rollSetsDue _)
  · exact ite ((of_stream rfl).trans (endBreach _)) (of_stream rfl)

theorem odWrite (s : State) (path : Path) (index sub : Nat) (v : List Byte) : Behind s (s.odWrite path index sub v).1 := by
  rw [State.odWrite]
  split
  · exact refl s
  · dsimp only
    split
    · exact odApply s _ _ _ _
    · split
      · exact of_stream rfl
      · split
        · exact of_stream rfl
        · exact refl s

end Behind

/-- A read changes at most the buffer of Statements. -/
theorem State.odRead_frame (s : State) (path : Path) (strict : Bool) (index sub : Nat) :
    ∃ m, (s.odRead path strict index sub).1 = s.modMg fun _ => m := by
  rw [State.odRead]
  split
  · exact ⟨_, rfl⟩
  · dsimp only
    split
    · exact ⟨_, rfl⟩
    · have h : ∃ m, (if index = 0x9000 ∧ sub = 1 then s.capture path else s) = s.modMg fun _ => m := by
        split
        · exact ⟨_, rfl⟩
        · exact ⟨_, rfl⟩
      split <;> exact h

/-- With no failing word, no read of a command fails. -/
theorem State.readOrFail_clean {s : State} (h : s.spad.synd = []) (c : Inflight) (ws : List Nat) : s.readOrFail c ws = (s, true) := by
  rw [State.readOrFail, checkWords_clean _ _ _ _ h]

/-! ### `CFG` -/

/-- A `CFG` with the values of its completion. -/
def State.cfgDone (s : State) (tag : W16) (len : Nat) : State :=
  (s.countAccess 0).modInflight tag fun c => { c with d0 := 0, d1 := BitVec.ofNat 32 len }

theorem State.cfgOp_write {s : State} {c : Inflight} (h : s.spad.synd = []) (hw : c.cmd.chain.testBit 24 = true) :
    let n := c.cmd.chain
    let len := bitsOf n 44 32
    let bytes := if n.testBit 25 then padTo len (leBytes 8 (bitsOf n 127 64)) else s.spad.readRow (c.cmd.get .data) none 0 len
    let r := s.odWrite .tenant (bitsOf n 15 0) (bitsOf n 23 16) bytes
    s.cfgOp c c.cmd = if r.2 = 0 then r.1.cfgDone c.tag len else (r.1.countAccess r.2).refuseCfg c r.2 := by
  intro n len bytes r
  rw [State.cfgOp]
  dsimp only
  rw [if_pos hw, State.readOrFail_clean h]
  rfl

theorem State.cfgOp_read {s : State} {c : Inflight} (hw : c.cmd.chain.testBit 24 = false) :
    let n := c.cmd.chain
    let len := bitsOf n 44 32
    let r := s.odRead .tenant c.modes.strict (bitsOf n 15 0) (bitsOf n 23 16)
    let e := cfgReadAbort (bitsOf n 15 0) (bitsOf n 23 16) len r.2.1 r.2.2.length
    s.cfgOp c c.cmd = if e = 0 then (r.1.doWrites c.tag (recordWrites (c.cmd.get .data) none 0 (r.2.2.take len))).cfgDone c.tag len
      else (r.1.countAccess e).refuseCfg c e := by
  intro n len r e
  rw [State.cfgOp]
  dsimp only
  rw [if_neg (by simp [hw])]
  rfl

section
variable {s : State} {c : Inflight} {rest : List Inflight}

/-- A `CFG` at its place in the stream, with no other access waiting. -/
theorem retiring_cfg (hs : started s) (hq : s.mg.queue = []) (ha : s.mg.asked = []) (hhead : s.stream.inflight = c :: rest)
    (hf : c.fault = none) (hop : c.cmd.op = .cfg) (hst : s.stopped c.tag = false) (hp : Claims.plain s c) (hstart : c.started = c.total) :
    Retiring s c rest := by
  obtain ⟨hb, hh, hconf, hbad, _, _⟩ := hp
  have hrows : c.cmd.rowSteps c.regs = 0 := by simp [Cmd.rowSteps, hop, Op.rows]
  have hrow : s.rowReady c = false := by simp [State.rowReady, hrows]
  refine ⟨hs, hhead, hf, ?_, .inl hconf, hbad⟩
  rw [retireReady_of hst (fun _ => by simp [State.accessWaits, hq, ha]) hb hh hrow hf, State.finished, hop]
  simp [hstart, hrows]

/-- The values of an accepted `CFG`. -/
theorem cfgDone_departs (h : Retiring s c rest) (hp : Claims.plain s c) (hop : c.cmd.op = .cfg) (h1 : c.cmd.rc.aen = false)
    (h2 : c.cmd.rc.amen = false) {u : State} {len : Nat} {l : List Inflight} (hu : u.stream.inflight = c :: l)
    (he : s.cfgOp c c.cmd = u.cfgDone c.tag len) :
    ∃ t, exec .commandRetirement s = .next t ∧ departs (u.countAccess 0) t c (completes c 0 0 (BitVec.ofNat 32 len)) s := by
  have heff : s.retireEffect c c.cmd = s.cfgOp c c.cmd := by rw [State.retireEffect, hop]
  obtain ⟨t, ht, _, hd⟩ := retirement_departs_values (d := c) (u := u.countAccess 0) h hp.2.2.2.2.2 0 (BitVec.ofNat 32 len) (l := l) hu
    (heff.trans he) (fun _ => rfl) rfl rfl rfl (refused_of_fault_none h.fault) h1 h2 (by simp [hop]) (Cmd.counts_false (by simp [hop]))
  rw [h.fault] at hd
  exact ⟨t, ht, hd⟩

/-- A refused `CFG` leaves with `ODABT`. -/
theorem refuseCfg_departs (h : Retiring s c rest) (hp : Claims.plain s c) (hop : c.cmd.op = .cfg) (hr : c.ready = false)
    (h1 : c.cmd.rc.aen = false) (h2 : c.cmd.rc.amen = false) {u : State} {e : W16} {l : List Inflight}
    (hu : u.stream.inflight = c :: l) (he : s.cfgOp c c.cmd = (u.countAccess e).refuseCfg c e) :
    ∃ t, exec .commandRetirement s = .next t ∧
      departs ((u.countAccess e).log 0x0701 c.tag (some c.slot.tenant) ([2, 0xFF, 0, 0] ++ leBytes 2 e.toNat)) t
        { c with fault := some 0x0701 } (completes c 0x0701 (e.setWidth 32) 0) s := by
  have heff : s.retireEffect c c.cmd = s.cfgOp c c.cmd := by rw [State.retireEffect, hop]
  obtain ⟨t, ht, _, hd⟩ := retirement_departs_values (d := { c with fault := some cODABT })
    (u := (u.countAccess e).log cODABT c.tag (some c.slot.tenant) ([2, 0xFF, 0, 0] ++ leBytes 2 e.toNat)) h hp.2.2.2.2.2 (e.setWidth 32) 0
    (l := l) hu (heff.trans he) (fun _ => rfl) rfl rfl rfl (refused_of_not_ready hr) h1 h2 (by simp [hop]) (Cmd.counts_false (by simp [hop]))
  exact ⟨t, ht, hd⟩

end

/-- Settles O28: the command is the oldest still after its access, which can only put commands behind it. -/
theorem cfgRetires : Obligations.CfgRetires := by
  intro c rest s m index sub len val hs hq ha hhead hf hr hop hst hp hstart hspad hclaims h1 h2
  have h := retiring_cfg hs hq ha hhead hf hop hst hp hstart
  refine ⟨fun hw => ?_, fun hw => ?_⟩
  · intro bytes r
    obtain ⟨l, hl⟩ := Behind.odWrite s .tenant index sub bytes
    rw [hhead] at hl
    have he := State.cfgOp_write hspad hw
    by_cases h0 : r.2 = 0
    · obtain ⟨t, ht, hd⟩ := cfgDone_departs h hp hop h1 h2 hl (he.trans (if_pos h0))
      exact ⟨t, ht, fun _ => hd, fun h => absurd h0 h⟩
    · obtain ⟨t, ht, hd⟩ := refuseCfg_departs h hp hop hr h1 h2 hl (he.trans (if_neg h0))
      exact ⟨t, ht, fun h => absurd h h0, fun _ => hd⟩
  · intro r e
    obtain ⟨g, hg⟩ := s.odRead_frame .tenant c.modes.strict index sub
    have hrs : r.1 = s.modMg fun _ => g := hg
    have hl : r.1.stream.inflight = c :: rest := by rw [hrs]; exact hhead
    have he := State.cfgOp_read (s := s) hw
    by_cases h0 : e = 0
    · have hwr := State.doWrites_record (s := r.1) (by rw [hrs]; exact hspad) c.tag (m.get .data) (r.2.2.take len)
      have hsp : r.1.spad = s.spad := by rw [hrs]; rfl
      generalize hpd : r.1.spad.wrote _ = p at hwr
      have he' : s.cfgOp c m = ({ r.1 with spad := p } : State).cfgDone c.tag len := by
        rw [← hwr]
        exact he.trans (if_pos h0)
      obtain ⟨t, ht, hd⟩ := cfgDone_departs (u := { r.1 with spad := p }) h hp hop h1 h2 hl he'
      refine ⟨t, p, ht, fun _ => ⟨storesOnly_wrote _ _ ?_, hd⟩, fun h => absurd h0 h⟩
      show p = _
      rw [← hpd, hsp, hrs]
      rfl
    · obtain ⟨t, ht, hd⟩ := refuseCfg_departs h hp hop hr h1 h2 hl (he.trans (if_neg h0))
      exact ⟨t, s.spad, ht, fun h => absurd h h0, fun _ => hd⟩

end Sys2Proof.Machine
end

section
/-! Issue: a slot that meets every check takes its place. -/
namespace Sys2Proof.Machine
open Sys2Proof Sys2Proof.Claims

/-! ### Claims -/

/-- The claims of a command hang on the rolls and on the claims that stand. -/
theorem State.claimAll_congr (tag : W16) (xs : List (Role × Desc × Bool)) : ∀ {s u : State}, s.rolls = u.rolls →
    s.stream.claims = u.stream.claims →
    (s.claimAll tag xs).rolls = (u.claimAll tag xs).rolls ∧ (s.claimAll tag xs).stream.claims = (u.claimAll tag xs).stream.claims := by
  induction xs with
  | nil => exact fun h1 h2 => ⟨h1, h2⟩
  | cons x xs ih =>
    intro s u h1 h2
    have hr (i : Nat) : s.roll i = u.roll i := by rw [State.roll, h1, State.roll]
    rw [State.claimAll, State.claimAll]
    refine ih ?_ ?_
    · simp only [State.claim, State.modStream_rolls, State.modRoll, h1, hr]
    · simp only [State.claim, State.modStream, State.modRoll, h2, hr]

/-! ### A command that takes its place -/

/-- In `u` the command `m` of slot `x` has taken its place as `d`, and has done nothing yet in the cycle of its issue. -/
structure Issued (s u : State) (x : Slot) (m : Cmd) (d : Inflight) (a : Nat) (rest : List Waiting) : Prop where
  placed : placed s u x m d a rest
  fault : d.fault = none
  data : d.data = []
  d0 : d.d0 = 0
  d1 : d.d1 = 0
  frame : u = { s with stream := u.stream, escrow := u.escrow, rolls := u.rolls }

/-- The slot of a command that has just issued, its modes and whether it may retire. -/
theorem justIssued_fields {s : State} {x : Slot} {m : Cmd} {d : Inflight} (h : justIssued s x m d) :
    d.slot = x ∧ d.modes = s.modesOf x.epoch ∧ d.ready = false ∧ d.regs = s.regs := by
  rw [justIssued] at h
  rw [h]
  exact ⟨rfl, rfl, rfl, rfl⟩

/-- The state as issue leaves it before the command itself stands in flight: its boxes entered, its slots claimed, its wait counted. -/
def State.entering (s : State) (x : Slot) (m : Cmd) (a : Nat) : State :=
  ((s.modEscrow fun e => { e with waited := satAdd e.waited (s.tb.cycle - a) }).enter x.tag 0 (m.boxes s.regs)).claimAll x.tag m.rollOps

theorem State.entering_eq (s : State) (x : Slot) (m : Cmd) (a : Nat) : s.entering x m a = { s with
    rolls := (s.claimAll x.tag m.rollOps).rolls, stream := { s.stream with claims := (s.claimAll x.tag m.rollOps).stream.claims }
    escrow := entered s x.tag a ((m.boxes s.regs).map (entryOf x.tag)) } := by
  let v := (s.modEscrow fun e => { e with waited := satAdd e.waited (s.tb.cycle - a) }).enter x.tag 0 (m.boxes s.regs)
  obtain ⟨r, cl, e, -⟩ := claimAll_frame x.tag m.rollOps v
  obtain ⟨hrolls, hclaims⟩ := State.claimAll_congr x.tag m.rollOps (s := v) (u := s) rfl rfl
  rw [← hrolls, ← hclaims, e]
  exact e

/-- The command that issue puts in flight. -/
theorem State.issue_push (s : State) (x : Slot) (m : Cmd) (a : Nat) : ∃ d, s.issue x m a = ((s.entering x m a).push d).onIssue d m
    ∧ justIssued s x m d ∧ d.fault = none ∧ d.data = [] ∧ d.d0 = 0 ∧ d.d1 = 0 := by
  unfold State.issue
  dsimp only
  refine ⟨_, rfl, ?_⟩
  by_cases h : m.op = .settle
  · simp only [justIssued, if_pos h]
    exact ⟨trivial, rfl, rfl, rfl, rfl⟩
  · simp only [justIssued, if_neg h]
    exact ⟨rfl, rfl, rfl, rfl, rfl⟩

/-- Issue puts a command in its place; then its own effect of that cycle follows. -/
theorem State.issue_issued (s : State) (x : Slot) (m : Cmd) (a : Nat) (w : s.stream.inflight.length < 32) :
    ∃ u d, s.issue x m a = u.onIssue d m ∧ Issued s u x m d a s.stream.waiting := by
  obtain ⟨d, e, hj, hfault, hdata, hd0, hd1⟩ := s.issue_push x m a
  have he := s.entering_eq x m a
  have hroom : (s.entering x m a).stream.inflight.length < 32 := by
    rw [he]
    exact w
  have hu := push_room _ d hroom
  refine ⟨_, d, e, ⟨hj, ?_, ?_, ?_⟩, hfault, hdata, hd0, hd1, ?_⟩ <;> rw [hu, he]

/-- A slot may issue only while there is room for it. -/
theorem room_of_issue {s : State} {x : Slot} {m : Cmd} (h : s.decision x = .issue m) : s.stream.inflight.length < 32 := by
  by_contra hn
  obtain ⟨w, hw⟩ := State.decision_full (Nat.not_lt.mp hn) x
  rw [hw] at h
  cases h

/-- A slot that issues decodes to its command. -/
theorem decode_of_issue {s : State} {x : Slot} {m : Cmd} (h : s.decision x = .issue m) : x.decode (s.modesOf x.epoch) = some m := by
  rw [decision_issue, State.verdict] at h
  split at h
  · cases h
  split at h
  · cases h
  split at h
  · cases h
  split at h
  · cases h
  split at h
  · cases h
  · cases h
  split at h
  · cases h
  next hd =>
    split at h
    · cases h
    split at h
    · cases h
    · obtain rfl := Decision.issue.inj h
      exact hd

/-- A command that has taken its place in a state that differs in digests, power or what waits has taken it here. -/
theorem issued_placed {s v u : State} {x : Slot} {m : Cmd} {d : Inflight} {a : Nat} {rest : List Waiting} (h : Issued v u x m d a rest)
    (hep : v.ep = s.ep) (hregs : v.regs = s.regs) (htb : v.tb = s.tb) (hesc : v.escrow = s.escrow) (hrolls : v.rolls = s.rolls)
    (hstream : v.stream = { s.stream with waiting := v.stream.waiting }) : placed s u x m d a rest := by
  obtain ⟨h1, h2, h3, h4⟩ := h.placed
  obtain ⟨hr, hc⟩ := State.claimAll_congr x.tag m.rollOps hrolls (show v.stream.claims = s.stream.claims by rw [hstream])
  refine ⟨?_, ?_, ?_, ?_⟩
  · rw [justIssued, State.modesOf, hep, hregs, htb, hesc] at h1
    exact h1
  · rw [h2, hc, hstream]
  · rw [h3, hregs, entered, htb, hesc]
    rfl
  · rw [h4, hr]

/-- An attempt that issues. -/
theorem State.attempt_issued {s : State} {x : Slot} {m : Cmd} (h : s.decision x = .issue m) (a : Nat) (y : Option (Nat × Nat))
    (rest : List Waiting) : ∃ u d, s.attempt x a y rest = (u.onIssue d m).cycleLog u ∧ Issued s u x m d a rest := by
  obtain ⟨u, d, e, hi⟩ := (s.modStream fun st => { st with waiting := rest }).issue_issued x m a (room_of_issue (s := s) h)
  have hframe := hi.frame
  refine ⟨u, d, ?_, issued_placed hi rfl rfl rfl rfl rfl rfl, hi.fault, hi.data, hi.d0, hi.d1, hframe⟩
  rw [State.attempt_issue h, e]
  exact State.cycleLog_congr _ (by rw [hframe]; rfl)

/-- What a slot that is taken finds at the head of the stream. -/
theorem State.takeSlot_receive {s : State} (hs : atHead s) (x : Slot) :
    s.takeSlot x = (s.receive x).attempt x s.tb.cycle none [] := by
  obtain ⟨h1, h2, h3⟩ := hs
  obtain ⟨c, p, e⟩ := receive_digests s x
  have hr : s.cmdReady = true := by simp [State.cmdReady, State.running, State.fclkRuns, h1, h2, State.waitingSlot, h3]
  rw [State.takeSlot, hr, e]
  simp [h3]

theorem State.receive_decision (s : State) (x : Slot) : (s.receive x).decision x = s.decision x := by
  obtain ⟨c, p, e⟩ := receive_digests s x
  rw [e, decision_digests]

/-- A slot that meets every check issues in the cycle in which it comes. -/
theorem takeSlot_issued {s : State} {x : Slot} {m : Cmd} (hs : atHead s) (h : s.decision x = .issue m) :
    ∃ u d, s.takeSlot x = (u.onIssue d m).cycleLog u ∧ Issued (s.receive x) u x m d s.tb.cycle [] ∧ placed s u x m d := by
  obtain ⟨u, d, e, hi⟩ := State.attempt_issued ((s.receive_decision x).trans h) s.tb.cycle none []
  refine ⟨u, d, (State.takeSlot_receive hs x).trans e, hi, ?_⟩
  obtain ⟨c, p, hr⟩ := receive_digests s x
  exact issued_placed hi (by rw [hr]) (by rw [hr]) (by rw [hr]) (by rw [hr]) (by rw [hr]) (by rw [hr])

end Sys2Proof.Machine
end

section
/-! What becomes of a slot at issue: it issues, waits or is refused. -/
namespace Sys2Proof.Machine
open Sys2Proof Sys2Proof.Claims

/-! ### Slots that issue -/

/-- A command that has just issued is the one that its slot decodes to. -/
theorem Issued.cmd {s u : State} {x : Slot} {m : Cmd} {d : Inflight} {a : Nat} {rest : List Waiting} (h : Issued s u x m d a rest)
    (hd : s.decision x = .issue m) : d.tag = x.tag ∧ d.cmd = m ∧ u.inflight? x.tag = some d := by
  obtain ⟨hj, hstream, -, -⟩ := h.placed
  obtain ⟨hslot, hmodes, -, -⟩ := justIssued_fields hj
  have htag : d.tag = x.tag := by rw [Inflight.tag, hslot]
  refine ⟨htag, ?_, ?_⟩
  · rw [Inflight.cmd, hslot, hmodes, decode_of_issue hd]
    rfl
  · have hnew : s.stream.inflight.find? (fun c => c.tag == x.tag) = none := issue_tag_new s x m hd
    rw [State.inflight?, hstream]
    show (s.stream.inflight ++ [d]).find? _ = _
    rw [List.find?_append, hnew]
    simp [htag]

/-- A command takes up nothing where no flit of its own is buffered. -/
theorem State.takeBuffered_none {s : State} {tag : W16} {c : Inflight} (hin : s.inflight? tag = some c) : ∀ {bs : List BufFlit},
    (∀ b ∈ bs, b.hasKey c.cmd.scope c.slot.tenant c.cmd.sid = false) → s.takeBuffered tag bs = s := by
  intro bs
  induction bs with
  | nil => exact fun _ => rfl
  | cons b bs ih =>
    intro h
    rw [State.takeBuffered, hin]
    dsimp only
    split
    · rfl
    · rw [h b List.mem_cons_self]
      exact ih fun b' hb => h b' (List.mem_cons_of_mem _ hb)

/-- What a command does in the cycle of its issue, where it is one that acts later. -/
theorem State.onIssue_quiet (u : State) (d : Inflight) {m : Cmd} (h : m.op ∉ actsAtIssue) :
    u.onIssue d m = if m.op = .settle then u.takeBuffered d.tag u.setBuf else u := by
  unfold State.onIssue
  split
  · next e => simp [e, actsAtIssue] at h
  · next e => simp [e, actsAtIssue] at h
  · next e => simp [e, actsAtIssue] at h
  · next e => simp [e, actsAtIssue] at h
  · next e => simp [e, actsAtIssue] at h
  · next e => rw [if_pos e]
  · next e => rw [if_neg e]

/-- The effect of an issue that is quiet. -/
theorem Issued.quiet {s u : State} {x : Slot} {m : Cmd} {d : Inflight} {a : Nat} {rest : List Waiting} (h : Issued s u x m d a rest)
    (hd : s.decision x = .issue m) :
    (m.op ∉ actsAtIssue → (m.op = .settle → ∀ b ∈ u.setBuf, b.hasKey m.scope x.tenant m.sid = false) → u.onIssue d m = u)
    ∧ (m.op = .settle → u.onIssue d m = u.takeBuffered x.tag u.setBuf) := by
  obtain ⟨htag, hcmd, hin⟩ := h.cmd hd
  obtain ⟨hslot, -, -, -⟩ := justIssued_fields h.placed.1
  refine ⟨fun hop hbuf => ?_, fun hop => ?_⟩
  · rw [State.onIssue_quiet u d hop]
    split
    · next hset =>
      rw [htag]
      refine State.takeBuffered_none hin ?_
      rw [hcmd, hslot]
      exact hbuf hset
    · rfl
  · rw [State.onIssue_quiet u d (by simp [hop, actsAtIssue]), if_pos hop, htag]

/-- Gated lanes that a slot has waited for are awake. -/
theorem State.wakeGated_eq (s : State) (x : Slot) : s.wakeGated x =
    { s with pw := { s.pw with state := if s.pw.state = .gated ∧ s.waitCode x = 11 then .run else s.pw.state } } := by
  rw [State.wakeGated]
  by_cases h : s.pw.state = .gated ∧ s.waitCode x = 11
  · rw [if_pos h, if_pos (by simpa using h)]
    rfl
  · rw [if_neg h, if_neg (by simpa using h)]

/-- Settles O9: the digest and the wake of the lanes leave everything that issue looks at. -/
theorem slotIssues : Obligations.SlotIssues := by
  refine ⟨fun c x m s hrow hs hd => ?_, fun x a y rest m s hs => ?_⟩
  · obtain ⟨u, d, e, hi, hp⟩ := takeSlot_issued hs hd
    obtain ⟨c1, c2, hr⟩ := receive_digests s x
    have hframe := hi.frame
    refine ⟨u, d, (exec_slotRow hrow s).trans (congrArg _ e), hp, hi.fault, hi.quiet ((s.receive_decision x).trans hd), ?_, ?_, ?_⟩
    · rw [hframe, hr]
    · rw [hframe, hr]
    · have hs' : s.receive x = { s with prov := (s.receive x).prov } := by rw [hr]
      exact hframe.trans (congrArg (fun v : State => { v with stream := u.stream, escrow := u.escrow, rolls := u.rolls }) hs')
  · intro v hwait hd
    obtain ⟨u, d, e, hi⟩ := State.attempt_issued hd a y rest
    have h : s.issueAfterWait = v.attempt x a y rest := by
      rw [State.issueAfterWait, running_of s hs.1 hs.2, hwait]
      exact congrArg (fun w : State => w.attempt x a y rest) (s.wakeGated_eq x)
    exact ⟨u, d, congrArg Host.Outcome.next (h.trans e), issued_placed hi rfl rfl rfl rfl rfl rfl, hi.fault, hi.quiet hd, hi.frame⟩

/-! ### Slots that wait -/

/-- What a slot that waits may ask for. -/
theorem State.wake_eq (s : State) (x : Slot) : s.wake x = { s with pw := { s.pw with
    greq := s.pw.greq || (decide (s.pw.state = .sleep) && (x.decode (s.modesOf x.epoch)).any Cmd.needsLanes) } } := by
  unfold State.wake
  cases hd : x.decode (s.modesOf x.epoch) with
  | none => simp
  | some m =>
    cases hn : m.needsLanes with
    | false => simp [hn]
    | true =>
      rw [Option.any_some, hn]
      dsimp only
      rw [hn]
      split
      · next hp => simp at hp
      · split
        · next hp => simp [hp, State.modPw]
        · next hp => simp [eq_false hp]

theorem State.attempt_hold {s : State} {x : Slot} {w : Hold} (h : s.decision x = .hold w) (a : Nat) (y : Option (Nat × Nat))
    (rest : List Waiting) : s.attempt x a y rest = (s.modStream fun st => { st with waiting := .unit x a (s.waitStart w y) :: rest }).wake x := by
  simp only [State.attempt, h]

theorem State.attempt_fault {s : State} {x : Slot} {k : W16} {detail : List Byte} (h : s.decision x = .fault k detail) (a : Nat)
    (y : Option (Nat × Nat)) (rest : List Waiting) : s.attempt x a y rest =
      ((s.modStream fun st => { st with waiting := rest }).modEscrow fun e => { e with waited := satAdd e.waited (s.tb.cycle - a) }).refuse
        x k detail := by
  simp only [State.attempt, h]

/-- Settles O11: a hold puts the slot at the end of what waits, and the wake of the lanes is all else that happens. -/
theorem slotWaits : Obligations.SlotWaits := by
  unfold Obligations.SlotWaits
  intro asks
  have asked (v : State) (x : Slot) : asks v (v.wake x) x := by
    rw [v.wake_eq x]
    refine ⟨rfl, fun h => ?_, fun h => ?_⟩
    · simp [h]
    · simp [h]
  refine ⟨fun c x h s hrow hs hd => ?_, fun c x s hrow hs hne hnone => ?_⟩
  · obtain ⟨c1, c2, hr⟩ := receive_digests s x
    have e := (State.takeSlot_receive hs x).trans (State.attempt_hold ((s.receive_decision x).trans hd) _ _ _)
    rw [hr] at e
    generalize hv : (s.withDigests c1 c2).modStream _ = v at e
    have heq := v.wake_eq x
    refine ⟨_, _, (exec_slotRow hrow s).trans (congrArg _ e), ?_, rfl, ?_, ?_, ?_, ?_⟩
    · rw [heq, ← hv]
      rfl
    · have := asked v x
      rw [← hv] at this ⊢
      exact this
    · rw [heq, ← hv]
      rfl
    · rw [heq, ← hv]
      rfl
    · rw [heq, ← hv]
      rfl
  · obtain ⟨c1, c2, hr⟩ := receive_digests s x
    have hwait : s.waitingSlot = none := by
      rw [State.waitingSlot, List.findSome?_eq_none_iff]
      intro w hw
      cases w with
      | unit y a z => exact absurd hw (hnone y a z)
      | decl => rfl
    have hready : s.cmdReady = true := by rw [State.cmdReady, running_of s hs.1 hs.2, hwait]; rfl
    have e : s.takeSlot x = ((s.withDigests c1 c2).modStream fun st => { st with waiting := st.waiting ++ [.unit x s.tb.cycle none] }).wake x := by
      rw [State.takeSlot, hready, hr]
      simp [hne]
    have heq := State.wake_eq ((s.withDigests c1 c2).modStream fun st => { st with waiting := st.waiting ++ [.unit x s.tb.cycle none] }) x
    refine ⟨_, (exec_slotRow hrow s).trans (congrArg _ e), ?_, asked _ x, ?_⟩ <;> rw [heq] <;> rfl

/-! ### Slots that a check refuses -/

theorem State.push_eq (s : State) (d : Inflight) : s.push d = { s with stream :=
    if s.stream.inflight.length < 32 then { s.stream with inflight := s.stream.inflight ++ [d] }
    else { s.stream with refused := s.stream.refused ++ [d] } } := rfl

/-- A refused command that no stale epoch has refused changes nothing but the stream and the Ledger. -/
theorem State.refuse_eq (s : State) (x : Slot) {code : W16} (detail : List Byte) (h : code ≠ cEPOLD) : ∃ d,
    s.refuse x code detail = (s.log code x.tag (some x.tenant) detail).push d
      ∧ d.slot = x ∧ d.fault = some code ∧ d.refused = true := by
  rw [State.refuse, if_neg h]
  exact ⟨_, rfl, rfl, rfl, rfl⟩

/-- A slot that a check refuses while it stands at the head of the stream. -/
theorem takeSlot_refused {s : State} {x : Slot} {code : W16} {detail : List Byte} (hs : atHead s) (hd : s.decision x = .fault code detail) :
    ∃ (t : State) (d : Inflight), s.takeSlot x = t
      ∧ t.stream = { s.stream with inflight := s.stream.inflight ++ [d] }
      ∧ d.slot = x ∧ d.fault = some code ∧ d.refused = true ∧ d.beats = [] ∧ d.left = 0
      ∧ t.ledger = (s.log code x.tag (some x.tenant) detail).ledger
      ∧ t.prov.rcpt = s.prov.rcpt ∧ t.prov.keys = s.prov.keys
      ∧ t = { s with stream := t.stream, ledger := t.ledger, evRings := t.evRings, prov := t.prov } := by
  have hroom : s.stream.inflight.length < 32 := by
    by_contra hn
    obtain ⟨w, hw⟩ := State.decision_full (Nat.not_lt.mp hn) x
    rw [hw] at hd
    cases hd
  obtain ⟨c1, c2, hr⟩ := receive_digests s x
  have e := (State.takeSlot_receive hs x).trans (State.attempt_fault ((s.receive_decision x).trans hd) _ _ _)
  rw [hr] at e
  obtain ⟨p, d, hf, hrcpt, hkeys, hslot, hfault, hready, hbeats, hleft⟩ := refuse_frame
    (((s.withDigests c1 c2).modStream fun st => { st with waiting := [] }).modEscrow fun e => { e with waited := satAdd e.waited (s.tb.cycle - s.tb.cycle) })
    x code detail hroom
  have hesc : ({ s.escrow with waited := satAdd s.escrow.waited (s.tb.cycle - s.tb.cycle) } : Escrow) = s.escrow := by
    rw [Nat.sub_self, satAdd_zero]
  have hwait : ({ s.stream with waiting := [], inflight := s.stream.inflight ++ [d] } : Stream) = { s.stream with inflight := s.stream.inflight ++ [d] } := by
    simp only [hs.2.2]
  refine ⟨_, d, e.trans hf, hwait, hslot, hfault, ?_, hbeats, hleft, rfl, hrcpt, hkeys, ?_⟩
  · rw [Inflight.refused, hfault, hready]
    rfl
  · exact congrArg (fun y : Escrow => ({ s with
      stream := { s.stream with waiting := [], inflight := s.stream.inflight ++ [d] }, escrow := y, prov := p
      ledger := (s.log code x.tag (some x.tenant) detail).ledger, evRings := (s.log code x.tag (some x.tenant) detail).evRings } : State)) hesc

/-- A reserved opcode is refused by the first check (Table 12.3). -/
theorem decision_reserved {s : State} {x : Slot} (hop : x.op = none) (hroom : s.stream.inflight.length < 32) (hunit : s.ft.unit ≠ .offline)
    (hsw : s.switches = false ∨ s.oldEpoch x.epoch = true) (hheld : s.streamHeld = false)
    (hcfg : ∀ c ∈ s.stream.inflight, c.refused = true ∨ c.cmd.op ≠ .cfg) : s.decision x = .fault cILLCM (illcmDetail 1 0xFF 0 0xFF) := by
  have h1 : check1 s x = false := by simp [check1, hop]
  have h2 : checkSlot s x = .fault cILLCM (illcmDetail 1 0xFF 0 0xFF) := by simp [checkSlot, h1, Verdict.illcm]
  have h3 : s.cfgHeld = false := by
    rw [State.cfgHeld, List.any_eq_false]
    intro c hc
    rcases hcfg c hc with h | h <;> simp [h]
  have h4 : (s.switches && !s.oldEpoch x.epoch) = false := by
    rcases hsw with h | h <;> simp [h]
  have h5 : s.verdict x = .fault cILLCM (illcmDetail 1 0xFF 0 0xFF) := by
    rw [State.verdict, h4, if_neg (by simp), if_neg (by omega), if_neg hunit, hheld, h3, if_neg (by simp), h2]
  rw [State.decision, h5]

/-- The six bits above a row's own are the opcode (R309). -/
theorem slotWith_op (code : BitVec 6) (o : SlotOps) : (slotWith code o).op = Op.ofCode code.toNat := by
  have h : (code ++ o.head : BitVec 32).toNat = code.toNat * 2 ^ 26 + o.head.toNat := by
    rw [BitVec.toNat_append, ← Nat.shiftLeft_add_eq_or_of_lt o.head.isLt, Nat.shiftLeft_eq]
  have hdiv : (code ++ o.head : BitVec 32).toNat / 2 ^ 26 = code.toNat := by
    have hh := o.head.isLt
    omega
  exact congrArg Op.ofCode hdiv

/-- What a logged refusal leaves of a state whose stream and escrow have changed. -/
theorem State.log_push_frame (s : State) (p : Stream) (q : Escrow) (code tag : W16) (ctx : Option (BitVec 3)) (detail : List Byte)
    (d : Inflight) :
    let t := (State.log { s with stream := p, escrow := q } code tag ctx detail).push d
    t.escrow = q ∧ t.ledger = (s.log code tag ctx detail).ledger
      ∧ t = { s with stream := t.stream, escrow := t.escrow, ledger := t.ledger, evRings := t.evRings } := ⟨rfl, rfl, rfl⟩

/-- Settles O10: a refused slot takes the place that is free, and the watchdog refuses one that waits with its own counts. -/
theorem slotFaultsAtIssue : Obligations.SlotFaultsAtIssue := by
  refine ⟨fun c x code detail s hrow hs hd => ?_, fun code o s hop hs hroom hunit hsw hheld hcfg => ?_, fun s hb hp hnone => ?_,
    fun x a y rest s hs hwait hlate => ?_⟩
  · obtain ⟨t, d, e, h⟩ := takeSlot_refused hs hd
    exact ⟨t, d, (exec_slotRow hrow s).trans (congrArg _ e), h⟩
  · have hd := decision_reserved (x := slotWith code o) ((slotWith_op code o).trans hop) hroom hunit hsw hheld hcfg
    obtain ⟨t, d, e, h1, h2, h3, h4, -, -, h5, -, -, h6⟩ := takeSlot_refused hs hd
    exact ⟨t, d, (exec_slotRow (c := .reservedOpcode code o) rfl s).trans (congrArg _ e), h1, h2, h3, h4, h5, h6⟩
  · have hwait : s.waitingSlot = none := by
      rw [State.waitingSlot, List.findSome?_eq_none_iff]
      intro w hw
      cases w with
      | unit y a z => exact absurd hw (hnone y a z)
      | decl => rfl
    have hready : s.cmdReady = true := by rw [State.cmdReady, running_of s hb hp, hwait]; rfl
    have e : exec .slotDropped s = .next (s.log 0x0106 0xFFFF (some s.tn.active) (illcmDetail 1 0xFF 0 0xFF)) :=
      congrArg Host.Outcome.next (if_pos hready)
    refine ⟨e, fun t ht => ?_⟩
    obtain rfl := Host.Outcome.next.inj (e.symm.trans ht)
    rfl
  · let b := s.blockingTag (s.unitWaiter x)
    let v := ((s.modStream fun st => { st with waiting := rest }).countRefusal).modEscrow fun e =>
      { e with waited := satAdd e.waited (s.tb.cycle - a) }
    have hdetail : esctoDetail b false (s.tb.live - y.1) = leBytes 2 b.toNat ++ [0, 0] ++ leBytes 4 (min (s.tb.live - y.1) 0xFFFFFFFF) := by
      simp [esctoDetail]
    have e : s.escrowWatchdog x.tag = v.refuse x cESCTO (esctoDetail b false (s.tb.live - y.1)) := by
      rw [State.escrowWatchdog, running_of s hs.1 hs.2, hwait]
      exact if_pos (And.intro rfl hlate)
    rw [hdetail] at e
    generalize leBytes 2 b.toNat ++ [0, 0] ++ leBytes 4 (min (s.tb.live - y.1) 0xFFFFFFFF) = detail at e ⊢
    obtain ⟨d, hf, hslot, hfault, href⟩ := v.refuse_eq x detail (show cESCTO ≠ cEPOLD by decide)
    obtain ⟨hesc, hledger, hframe⟩ := s.log_push_frame { s.stream with waiting := rest } v.escrow cESCTO x.tag (some x.tenant) detail d
    refine ⟨_, d, congrArg Host.Outcome.next (e.trans (hf.trans (State.push_eq _ d))), ?_, hslot, hfault, href, hesc, hledger, hframe⟩
    show (if s.stream.inflight.length < 32 then _ else _) = _
    split <;> rfl

end Sys2Proof.Machine
end

section
/-! What commands do in the cycle of their issue. -/
namespace Sys2Proof.Machine
open Sys2Proof Sys2Proof.Claims

/-! ### Registers -/

/-- A register after a write of one (R334). -/
theorem regOf_write (r : Regs) (reg : Nat) (add : Bool) (v : W32) {k : Nat} (hk : k < 7) :
    regOf (r.write reg add v) k = if k = reg then (if add then regOf r k + v else v) else regOf r k := by
  have hcases : k < 4 ∨ k = 4 ∨ k = 5 ∨ k = 6 := by omega
  have hlen (h : k < 4) (r' : Regs) (h' : r'.len = r.len) (hne : k ≠ reg) : regOf r' k = if k = reg then (if add then regOf r k + v else v) else regOf r k := by
    rw [if_neg hne, regOf, if_pos h, h', regOf, if_pos h]
  rw [Regs.write]
  by_cases h4 : reg < 4
  · rw [if_pos h4]
    rcases hcases with h | rfl | rfl | rfl
    · simp only [regOf, if_pos h, vecGet_vecModify]
      by_cases e : reg = k
      · simp [e]
      · simp [e, Ne.symm e]
    · rw [if_neg (by omega)]
      rfl
    · rw [if_neg (by omega)]
      rfl
    · rw [if_neg (by omega)]
      rfl
  · rw [if_neg h4]
    by_cases e4 : reg = 4
    · rw [if_pos e4]
      rcases hcases with h | rfl | rfl | rfl
      · exact hlen h _ rfl (by omega)
      all_goals simp [regOf, e4]
    · rw [if_neg e4]
      by_cases e5 : reg = 5
      · rw [if_pos e5]
        rcases hcases with h | rfl | rfl | rfl
        · exact hlen h _ rfl (by omega)
        all_goals simp [regOf, e5]
      · rw [if_neg e5]
        by_cases e6 : reg = 6
        · rw [if_pos e6]
          rcases hcases with h | rfl | rfl | rfl
          · exact hlen h _ rfl (by omega)
          all_goals simp [regOf, e6]
        · rw [if_neg e6, if_neg (by omega)]

theorem regOf_setlen (r : Regs) (n : Nat) {k : Nat} (hk : k < 7) :
    let va := BitVec.ofNat 32 (bitsOf n 95 64)
    let vb := BitVec.ofNat 32 (bitsOf n 127 96)
    let one := if k = bitsOf n 3 0 then (if n.testBit 8 then regOf r k + va else va) else regOf r k
    regOf (r.setlen n) k = if k = bitsOf n 7 4 then (if n.testBit 9 then one + vb else vb) else one := by
  rw [Regs.setlen, regOf_write _ _ _ _ hk, regOf_write _ _ _ _ hk]
  rfl

/-! ### `SETLEN` and `STMT` -/

section
variable {s : State} {x : Slot} {m : Cmd}

/-- The newest command changed by its tag. -/
theorem Issued.modLast {u : State} {d : Inflight} {a : Nat} {rest : List Waiting} (h : Issued s u x m d a rest) (hd : s.decision x = .issue m)
    {f : Inflight → Inflight} : u.modInflight d.tag f = { u with stream := { u.stream with inflight := s.stream.inflight ++ [f d] } } := by
  obtain ⟨htag, -, -⟩ := h.cmd hd
  obtain ⟨-, hstream, -, -⟩ := h.placed
  have hnew := updateFirst_last s x.tag d f (issue_tag_new s x m hd) htag
  rw [← htag] at hnew
  rw [State.modInflight, State.modStream]
  congr 2
  rw [hstream]
  exact hnew

/-- A command in its place, changed in what it may have done in the cycle of its issue. -/
theorem placed_last {u t : State} {d e : Inflight} {a : Nat} {rest : List Waiting} (h : placed s u x m d a rest)
    (he : e = { d with data := e.data, d0 := e.d0, d1 := e.d1, fault := e.fault, detail := e.detail })
    (ht : t.stream = { u.stream with inflight := s.stream.inflight ++ [e] }) (hesc : t.escrow = u.escrow) (hrolls : t.rolls = u.rolls) :
    placed s t x m e a rest := by
  obtain ⟨h1, h2, h3, h4⟩ := h
  refine ⟨?_, ?_, hesc.trans h3, hrolls.trans h4⟩
  · rw [justIssued] at h1 ⊢
    rw [he, h1]
  · rw [ht, h2]

/-- A frame that holds whatever the stream is. -/
theorem stream_frame {u : State} (h : u = { s with stream := u.stream, escrow := u.escrow, rolls := u.rolls, prov := u.prov }) (z : Stream) :
    let t : State := { u with stream := z }
    t = { s with stream := t.stream, escrow := t.escrow, rolls := t.rolls, prov := t.prov } :=
  congrArg (fun w : State => { w with stream := z }) h

/-- A slot that issues in the cycle in which it comes: what its command finds in place, the digests apart. -/
theorem exec_issued {c : Instr} (hrow : slotRow c = some x) (hs : atHead s) (h : s.decision x = .issue m) :
    ∃ v u d, exec c s = .next ((u.onIssue d m).cycleLog u) ∧ Issued v u x m d s.tb.cycle [] ∧ placed s u x m d
      ∧ v.decision x = .issue m ∧ v = { s with prov := v.prov } ∧ v.prov = { s.prov with cur := v.prov.cur, prev := v.prov.prev } := by
  obtain ⟨u, d, e, hi, hp⟩ := takeSlot_issued hs h
  obtain ⟨c1, c2, hr⟩ := receive_digests s x
  refine ⟨s.receive x, u, d, (exec_slotRow hrow s).trans (congrArg _ e), hi, hp, (s.receive_decision x).trans h, ?_, ?_⟩ <;> rw [hr]

end

/-- Settles O13: both act on the state in which the command stands in its place. -/
theorem setlenAndStmtActAtIssue : Obligations.SetlenAndStmtActAtIssue := by
  refine ⟨fun o m s hs hd hop => ?_, fun o m s hs hd hop => ?_⟩
  · obtain ⟨v, u, d, e, hi, hp, hdv, hv, hprov⟩ := exec_issued (c := .setlen o) rfl hs hd
    have hu := hi.frame
    have he : u.onIssue d m = { u with regs := u.regs.setlen m.chain } := by rw [State.onIssue, hop]
    rw [he, State.cycleLog_same { u with regs := u.regs.setlen m.chain } u rfl] at e
    have hregs : u.regs = s.regs := by rw [hu, hv]
    refine ⟨_, d, e, hp, hi.fault, hi.data, fun k hk => ?_, ?_, ?_, ?_⟩
    · rw [← hregs]
      exact regOf_setlen u.regs m.chain hk
    · rw [hu, hprov]
    · rw [hu, hprov]
    · rw [hu, hv]
  · obtain ⟨v, u, d, e, hi, hp, hdv, hv, hprov⟩ := exec_issued (c := .stmt o) rfl hs hd
    have hu := hi.frame
    let f (c : Inflight) : Inflight := { c with data := u.statement none, d0 := if u.stall != 0 || u.pw.state == .halt then 1 else 0 }
    have he : u.onIssue d m = u.modInflight d.tag f := by rw [State.onIssue, hop]
    rw [he, State.cycleLog_same (u.modInflight d.tag f) u rfl, hi.modLast hdv] at e
    have hv' : v.stream = s.stream := by rw [hv]
    have hlive : (u.stall != 0 || u.pw.state == .halt) = (u.stall != 0) := by
      have : u.pw.state = s.pw.state := by rw [hu, hv]
      rw [this]
      simp [hs.2.1]
    refine ⟨_, f d, d, e, placed_last hp rfl (by rw [hv']) rfl rfl, hi.fault, ?_, ?_, ?_, ?_, ?_⟩
    · have hsame : ({ u with stream := { u.stream with inflight := s.stream.inflight ++ [d] } } : State) = u := by
        obtain ⟨-, hstream, -, -⟩ := hp
        have : ({ u.stream with inflight := s.stream.inflight ++ [d] } : Stream) = u.stream := by rw [hstream]
        rw [this]
      intro u'
      have hu' : u' = u := hsame
      rw [hu']
      refine ⟨rfl, ?_⟩
      show (if (u.stall != 0 || u.pw.state == .halt) = true then (1 : W32) else 0) = _
      rw [hlive]
      by_cases h0 : u.stall = 0 <;> simp [h0]
    · have h1 := hi.data
      have h2 := hi.d0
      show d = { d with data := [], d0 := 0 }
      rw [← h1, ← h2]
    · show u.prov.rcpt = _
      rw [hu, hprov]
    · show u.prov.keys = _
      rw [hu, hprov]
    · have hus : u = { s with stream := u.stream, escrow := u.escrow, rolls := u.rolls, prov := u.prov } := by rw [hu, hv]
      exact stream_frame hus _

/-! ### `SEAL` -/

theorem slice_skip {a b : List Byte} {n k m : Nat} (h : a.length = n) : slice (a ++ b) (n + k) m = slice b k m := by
  rw [slice_add, ← h, List.drop_left]

theorem slice_front {a b : List Byte} {m : Nat} (h : a.length = m) : slice (a ++ b) 0 m = a := by
  subst h
  simp [slice]

/-- Two parts behind heads of known lengths: those at which a receipt record carries GC_SEAL and RSEQ (Table 9.6). -/
theorem slices_behind (a1 a2 a3 a4 a5 a6 g c q b : List Byte) (h1 : a1.length = 8) (h2 : a2.length = 8) (h3 : a3.length = 2)
    (h4 : a4.length = 2) (h5 : a5.length = 2) (h6 : a6.length = 2) (hg : g.length = 8) (hc : c.length = 8) (hq : q.length = 8) :
    slice (a1 ++ (a2 ++ (a3 ++ (a4 ++ (a5 ++ (a6 ++ (g ++ (c ++ (q ++ b))))))))) 24 8 = g
      ∧ slice (a1 ++ (a2 ++ (a3 ++ (a4 ++ (a5 ++ (a6 ++ (g ++ (c ++ (q ++ b))))))))) 40 8 = q := by
  have tags (k : Nat) (b : List Byte) : slice (a1 ++ (a2 ++ (a3 ++ (a4 ++ (a5 ++ (a6 ++ b)))))) (8 + (8 + (2 + (2 + (2 + (2 + k)))))) 8
      = slice b k 8 := by
    rw [slice_skip h1, slice_skip h2, slice_skip h3, slice_skip h4, slice_skip h5, slice_skip h6]
  refine ⟨(tags 0 _).trans (slice_front hg), (tags (8 + (8 + 0)) _).trans ?_⟩
  rw [slice_skip hg, slice_skip hc, slice_front hq]

theorem State.sealRecord_slices (s : State) (epoch : W16) (amask : Nat) (rseq : W64) :
    slice (s.sealRecord epoch amask rseq) 24 8 = leBytes 8 s.gc.toNat ∧ slice (s.sealRecord epoch amask rseq) 40 8 = leBytes 8 rseq.toNat := by
  unfold State.sealRecord
  simp only [List.append_assoc]
  exact slices_behind _ _ _ _ _ _ _ _ _ _ rfl (length_leBytes _ _) (length_leBytes _ _) (length_leBytes _ _) (length_leBytes _ _)
    (length_leBytes _ _) (length_leBytes _ _) (length_leBytes _ _) (length_leBytes _ _)

/-- The receipt of a seal under a range that stands open (R249). -/
def State.receiptNow (s : State) (epoch : W16) (amask : Nat) : Receipt :=
  { rseq := s.prov.rcpt.rseq + 1, tenant := s.tn.active, gcSeal := s.gc, gcStart := (s.digest epoch).gcStart
    deadline := BitVec.ofNat 64 (s.gc.toNat + 5000000), record := s.sealRecord epoch amask (s.prov.rcpt.rseq + 1), sig := [], notice := []
    nsig := [], status := .queued
    reason := (s.prov.rcpt.taint (s.digest epoch).gcStart s.gc).map fun e => (e.2.2, e.2.1), confirmed := false }

theorem ofNat_toNat_add {w : Nat} (a : BitVec w) (n : Nat) : BitVec.ofNat w (a.toNat + n) = a + BitVec.ofNat w n := by
  rw [BitVec.ofNat_add, BitVec.ofNat_toNat, BitVec.setWidth_eq]

theorem State.receiptNow_fields (s : State) (epoch : W16) (amask : Nat) : let e := s.receiptNow epoch amask
    e.rseq = s.prov.rcpt.rseq + 1 ∧ e.tenant = s.tn.active ∧ e.gcSeal = s.gc ∧ e.status = .queued ∧ e.confirmed = false
    ∧ e.deadline = s.gc + 5000000 ∧ e.sig = [] ∧ e.notice = []
    ∧ slice e.record 24 8 = leBytes 8 s.gc.toNat ∧ slice e.record 40 8 = leBytes 8 e.rseq.toNat := by
  have hdl : BitVec.ofNat 64 (s.gc.toNat + 5000000) = s.gc + 5000000 := ofNat_toNat_add s.gc 5000000
  exact ⟨rfl, rfl, rfl, rfl, rfl, hdl, rfl, rfl, State.sealRecord_slices s epoch amask _⟩

/-- A receipt stored and queued for signing. -/
def State.queued (s : State) (e : Receipt) : State :=
  (s.modRcpt fun r => { r with entries := r.entries ++ [e], signQ := r.signQ ++ [e.rseq], rseq := e.rseq }).modProv fun p =>
    { p with epold := false, epoldCount := 0 }

theorem State.sealNow_eq (s : State) (epoch : W16) (amask : Nat) (rstd : Bool) : let u := s.openRange epoch
    let e := u.receiptNow epoch amask
    s.sealNow epoch amask rstd = (if rstd then (u.queued e).setDigest epoch (.begin u.gc u.tn.active epoch) else u.queued e, e.record, e.rseq) :=
  rfl

theorem State.setDigest_eq (s : State) (epoch : W16) (d : Digest) : ∃ cur prev, s.setDigest epoch d = s.withDigests cur prev := by
  rw [State.setDigest]
  by_cases h : epoch == s.ep.curEpoch
  · exact ⟨d, s.prov.prev, by rw [State.modProv, if_pos h]⟩
  · exact ⟨s.prov.cur, d, by rw [State.modProv, if_neg h]⟩

/-- What a seal captures, and what it leaves. -/
theorem State.sealNow_spec (s : State) (epoch : W16) (amask : Nat) (rstd : Bool) : ∃ e cur prev,
    s.sealNow epoch amask rstd = ((s.queued e).withDigests cur prev, e.record, e.rseq)
    ∧ e.rseq = s.prov.rcpt.rseq + 1 ∧ e.tenant = s.tn.active ∧ e.gcSeal = s.gc ∧ e.status = .queued ∧ e.confirmed = false
    ∧ e.deadline = s.gc + 5000000 ∧ e.sig = [] ∧ e.notice = []
    ∧ slice e.record 24 8 = leBytes 8 s.gc.toNat ∧ slice e.record 40 8 = leBytes 8 e.rseq.toNat := by
  have hopen : ∃ cur prev, s.openRange epoch = s.withDigests cur prev := by
    rw [State.openRange]
    split
    · exact ⟨s.prov.cur, s.prov.prev, rfl⟩
    · exact State.setDigest_eq _ _ _
  have he := s.sealNow_eq epoch amask rstd
  obtain ⟨cur, prev, ho⟩ := hopen
  rw [ho] at he
  dsimp only at he
  have hfields := (s.withDigests cur prev).receiptNow_fields epoch amask
  have hgc : (s.withDigests cur prev).gc = s.gc := rfl
  dsimp only at hfields
  rw [hgc] at hfields he
  generalize (s.withDigests cur prev).receiptNow epoch amask = e at he hfields
  have hend : ∃ cur' prev', (if rstd then ((s.withDigests cur prev).queued e).setDigest epoch (.begin s.gc s.tn.active epoch)
      else (s.withDigests cur prev).queued e) = (s.queued e).withDigests cur' prev' := by
    split
    · obtain ⟨c1, c2, h⟩ := ((s.withDigests cur prev).queued e).setDigest_eq epoch (.begin s.gc s.tn.active epoch)
      exact ⟨c1, c2, h⟩
    · exact ⟨cur, prev, rfl⟩
  obtain ⟨c1, c2, h⟩ := hend
  exact ⟨e, c1, c2, he.trans (congrArg (fun w : State => (w, e.record, e.rseq)) h), hfields⟩

/-- Settles O14: the receipt is captured in the state in which the command stands in its place. -/
theorem sealQueuesReceipt : Obligations.SealQueuesReceipt := by
  intro o m s hs hd hop
  obtain ⟨v, u, d, e, hi, hp, hdv, hv, hprov⟩ := exec_issued (c := .sealing o) rfl hs hd
  have hu := hi.frame
  obtain ⟨r, cur, prev, hseal, hr⟩ := u.sealNow_spec d.slot.epoch (bitsOf m.chain 15 0) (m.chain.testBit 16)
  let f (c : Inflight) : Inflight := { c with data := r.record, d0 := r.rseq.setWidth 32, d1 := (r.rseq >>> 32).setWidth 32 }
  let w := (u.queued r).withDigests cur prev
  have he : u.onIssue d m = w.modInflight d.tag f := by
    rw [State.onIssue, hop]
    dsimp only
    rw [hseal]
  have hw : w.modInflight d.tag f = { u with stream := { u.stream with inflight := s.stream.inflight ++ [f d] }, prov := w.prov } := by
    have hlast := hi.modLast hdv (f := f)
    have hvs : v.stream = s.stream := by rw [hv]
    rw [hvs] at hlast
    exact congrArg (fun x : State => { x with prov := w.prov }) hlast
  rw [he, State.cycleLog_same (w.modInflight d.tag f) u rfl, hw] at e
  have hgc : u.gc = s.gc := by rw [hu, hv]; rfl
  have hrcpt : u.prov.rcpt = s.prov.rcpt := by rw [hu, hprov]
  have hkeys : u.prov.keys = s.prov.keys := by rw [hu, hprov]
  have hact : u.tn.active = s.tn.active := by rw [hu, hv]
  rw [hgc, hrcpt, hact] at hr
  obtain ⟨h1, h2, h3, h4, h5, h6, h7, h8, h9, h10⟩ := hr
  have hus : u = { s with stream := u.stream, escrow := u.escrow, rolls := u.rolls, prov := u.prov } := by rw [hu, hv]
  refine ⟨_, f d, r, e, placed_last hp rfl rfl rfl rfl, hi.fault, ?_, h1, h2, h3, h4, h5, h6, h7, h8, rfl, rfl, rfl, h9, h10, hkeys, rfl, ?_⟩
  · show ({ u.prov.rcpt with entries := _, signQ := _, rseq := r.rseq } : Receipts) = _
    rw [hrcpt, h1]
  · exact congrArg (fun x : State => { x with stream := { u.stream with inflight := s.stream.inflight ++ [f d] }, prov := w.prov }) hus

/-! ### `TENANT` -/

/-- Settles O15: the clear follows the issue of the command in the same cycle. -/
theorem tenantClearsAtIssue : Obligations.TenantClearsAtIssue := by
  intro o m s hs hd hop
  obtain ⟨v, u, d, e, hi, ⟨hj, hstream, hescrow, -⟩, hdv, hv, hprov⟩ := exec_issued (c := .tenant o) rfl hs hd
  have hu := hi.frame
  have hus : u = { s with stream := u.stream, escrow := u.escrow, rolls := u.rolls, prov := u.prov } := by rw [hu, hv]
  have hps : u.prov = { s.prov with cur := u.prov.cur, prev := u.prov.prev } := by rw [hu, hprov]
  rw [u.onIssue_tenant d hop, State.cycleLog_same u.tenantClear u rfl] at e
  generalize hz : u.stream = z at *
  generalize hq : u.escrow = q at *
  generalize u.rolls = r at *
  generalize u.prov = p at *
  subst hus
  refine ⟨_, d, e, hj, ?_, hi.fault, (justIssued_fields hj).2.2.1, ?_, rfl, rfl, rfl, ?_, rfl, rfl, rfl, rfl⟩
  · show ({ z with claims := [] } : Stream) = _
    rw [hstream, ← hs.2.2]
  · show ({ q with sets := [] } : Escrow) = _
    rw [hescrow]
  · show ({ p with cur := Digest.closed, prev := Digest.closed } : Proving) = _
    rw [hps]

end Sys2Proof.Machine
end

section
/-! The commands' own events: `MINT`, `FNSYNC`, `ROLLSET` and `WAITGC`. -/
namespace Sys2Proof.Machine
open Sys2Proof Sys2Proof.Claims

/-! ### A command that retires with its event -/

/-- Whether the beats of a command are stopped does not hang on what the oldest command has done. -/
theorem State.stopped_congr_head {s w : State} {c d : Inflight} {rest : List Inflight} (hs : s.stream.inflight = c :: rest)
    (hw : w.stream.inflight = d :: rest) (ht : d.tag = c.tag) (hr : w.ft.recovery = s.ft.recovery) (g : W16) : w.stopped g = s.stopped g := by
  have h (t : W16) : ((w.olderThan t).any fun c => c.tag == g) = (s.olderThan t).any fun c => c.tag == g := by
    rw [State.olderThan, State.olderThan, hs, hw, List.takeWhile_cons, List.takeWhile_cons, ht]
    split
    · rw [List.any_cons, List.any_cons, ht]
    · rfl
  unfold State.stopped
  rw [hr]
  split
  · rfl
  · split
    · rfl
    · rw [h]

/-- The recipes of the commands of the unit itself take no part in assays or amax registers. -/
theorem Cmd.rc_plain {c : Inflight} (h : c.cmd.op ∈ [Op.mint, .fnsync, .rollset, .waitgc]) :
    c.cmd.rc.aen = false ∧ c.cmd.rc.amen = false := by
  rw [Inflight.cmd, Slot.decode] at h ⊢
  cases hop : c.slot.op with
  | none => exact ⟨rfl, rfl⟩
  | some o =>
    rw [hop] at h
    have ho : o ∈ [Op.mint, .fnsync, .rollset, .waitgc] := h
    have hz : Recipe.of o c.slot.cw c.slot.chain = Recipe.zero := by
      simp only [List.mem_cons, List.not_mem_nil, or_false] at ho
      rcases ho with rfl | rfl | rfl | rfl <;> rfl
    simp only [Option.getD_some, hz]
    split <;> exact ⟨rfl, rfl⟩

/-- What retires at once: the oldest command, ready, with nothing of its own left. -/
theorem commandRetirement_now {w : State} {d : Inflight} {rest : List Inflight} (hs : started w) (hhead : w.stream.inflight = d :: rest)
    (hf : d.fault = none) (hr : d.ready = true) (hop : d.cmd.op ∈ [Op.mint, .fnsync, .waitgc]) (hst : w.stopped d.tag = false)
    (hp : Claims.plain w d) (hw : d.writes = []) :
    departs w w.commandRetirement d (completes d 0 d.d0 d.d1) ∧ w.commandRetirement.st = w.st ∧ w.commandRetirement.ledger = w.ledger
      ∧ w.commandRetirement.prov.rcpt = w.prov.rcpt ∧ w.commandRetirement.prov.keys = w.prov.keys := by
  obtain ⟨hb, hh, hconf, hbad, haccpv, hclaims⟩ := hp
  have hmem : d.cmd.op ∈ [Op.mint, .fnsync, .rollset, .waitgc] := (by decide : [Op.mint, .fnsync, .waitgc] ⊆ _) hop
  have hne (x : Op) (hx : x ∉ [Op.mint, .fnsync, .waitgc]) : d.cmd.op ≠ x := fun h => hx (h ▸ hop)
  have hrows : d.cmd.rowSteps d.regs = 0 := by
    have : d.cmd.op.rows = false := by
      simp only [List.mem_cons, List.not_mem_nil, or_false] at hop
      rcases hop with h | h | h <;> rw [h] <;> rfl
    simp [Cmd.rowSteps, this, hne .fn (by decide), hne .cvt (by decide)]
  have hrow : w.rowReady d = false := by simp [State.rowReady, hrows]
  have hfin : w.finished d = true := by
    rw [State.finished]
    simp only [List.mem_cons, List.not_mem_nil, or_false] at hop
    rcases hop with h | h | h <;> rw [h] <;> exact hr
  have hret : Retiring w d rest :=
    ⟨hs, hhead, hf, (retireReady_of hst (fun h => absurd h (hne _ (by decide))) hb hh hrow hf).trans hfin, .inl hconf, hbad⟩
  have hcounts : d.cmd.counts = false := by
    simp only [List.mem_cons, List.not_mem_nil, or_false] at hop
    rcases hop with h | h | h <;> simp [Cmd.counts, Cmd.elements, h, Op.rows]
  have e : w.commandRetirement = w.leave d d.cmd := by
    rw [State.commandRetirement_plain hret hclaims]
    dsimp only
    rw [State.retireEffect_late w hw (hne _ (by decide)) (hne _ (by decide)) (hne _ (by decide)) (hne _ (by decide)) (hne _ (by decide)),
      inflight?_head w d rest hhead, Option.getD_some,
      State.combine_none w d (Cmd.rc_plain hmem).1 (Cmd.rc_plain hmem).2 (fun h => absurd h (hne _ (by decide)))]
  have href := refused_of_fault_none hf
  have hnote : accNote w d = w := if_pos haccpv
  obtain ⟨rs, cur, prev, -, hl⟩ := State.leave_eq (s := w) href
  have hledger : (w.leave d d.cmd).ledger = w.ledger := by
    rw [hl]
    show (accNote w d).ledger = _
    rw [hnote]
  have hd := State.leave_departs w w href
  rw [State.cycleLog_same _ _ hledger, hcounts, hf] at hd
  rw [e]
  exact ⟨hd, State.leave_st w href, hledger, by rw [hl]; rfl, by rw [hl]; rfl⟩

/-- A command that is not the oldest does not retire yet. -/
theorem State.retireIfOldest_of_ne {s w : State} {c : Inflight} (hin : s.inflight? c.tag = some c) (hne : s.stream.inflight.head? ≠ some c)
    {f : Inflight → Inflight} (hw : w.stream.inflight = (s.modInflight c.tag f).stream.inflight) : w.retireIfOldest c.tag = w := by
  rw [State.retireIfOldest, if_neg]
  rw [hw, State.modInflight_stream]
  rw [State.inflight?] at hin
  cases hl : s.stream.inflight with
  | nil => simp [updateFirst]
  | cons e l =>
    rw [hl] at hin hne
    have htag : e.tag ≠ c.tag := by
      intro h
      rw [List.find?_cons_of_pos (by simp [h])] at hin
      exact hne hin
    have hu : updateFirst (fun x : Inflight => (x.slot.words.headD 0).setWidth 16 == c.tag) f (e :: l) =
        e :: updateFirst (fun x : Inflight => (x.slot.words.headD 0).setWidth 16 == c.tag) f l := by
      rw [updateFirst, if_neg]
      rw [beq_iff_eq]
      exact htag
    rw [hu]
    simpa using htag

/-- The oldest command retires. -/
theorem State.retireIfOldest_head {w : State} {d : Inflight} {rest : List Inflight} (h : w.stream.inflight = d :: rest) :
    w.retireIfOldest d.tag = w.commandRetirement := by
  rw [State.retireIfOldest, if_pos]
  rw [h]
  rfl

/-! ### `MINT` with stores of its own -/

/-- A `MINT` in flight that has kept a store of a Till lane. -/
def mintWithStore : Inflight :=
  { Inflight.new { words := [0x40000000], epoch := 0, tenant := 0, priv := false } .default { len := Vector.replicate 4 0, gt := 0, gh := 0, gw := 0 }
      0 0 0 with
    writes := [.till 0 0 1] }

/-- A unit that runs with that `MINT` alone in flight. -/
def mintAlone : State :=
  let s := State.reset
  { s with boot := .ready, pw := { s.pw with state := .run }, stream := { s.stream with inflight := [mintWithStore] } }

theorem mintAlone_installs : mintAlone.curveInstall.st.till = [(0, 1)] := by
  decide +kernel

/-- Refutes O29: a `MINT` that is the oldest makes the stores that it has kept in the step of its install, and nothing in the statement keeps a
`MINT` from holding a Till store. -/
theorem not_curveSlotsChange : ¬ Obligations.CurveSlotsChange := by
  unfold Obligations.CurveSlotsChange
  rintro ⟨-, h, -⟩
  obtain ⟨t, u, hexec, -, -, hst, -⟩ := h mintWithStore mintAlone ⟨rfl, by decide⟩ (by decide +kernel) (by decide +kernel) (by decide +kernel)
  have ht : mintAlone.curveInstall = t := by injection hexec
  have htill := mintAlone_installs
  rw [ht, hst] at htill
  have hnone : mintAlone.st.till = [] := rfl
  exact absurd (hnone.symm.trans htill) (by decide)

/-! ### `ROLLSET` and `WAITGC` -/

/-- A `WAITGC` that goes, with the view in its completion values. -/
def Inflight.goes (gc : Gc) (c : Inflight) : Inflight := { c with ready := true, d0 := gc.setWidth 32, d1 := (gc >>> 32).setWidth 32 }

/-- A release, and what it logs. -/
def State.released (s : State) (c : Inflight) : State :=
  let u := s.modInflight c.tag (Inflight.goes s.gc)
  let g := c.cmd.waitTarget
  if s.pw.eff.lateWin.toNat < s.gc.toNat - g then
    (u.log cLATEL c.tag (some c.slot.tenant) (leBytes 8 g ++ leBytes 8 s.gc.toNat)).noteEpoch c.slot.epoch fun x => { x with latel := true }
  else u

theorem State.waitgcRelease_eq {s : State} {c : Inflight} (hs : started s) (ht : s.tb.state ≠ .notAligned) (ha : s.awaiting .waitgc = some c)
    (hg : c.cmd.waitTarget ≤ s.gc.toNat) (hb : s.behind c.cmd.waitTarget 6 = false) :
    s.waitgcRelease = (s.released c).retireIfOldest c.tag := by
  rw [State.waitgcRelease, ha]
  dsimp only
  rw [running_of s hs.1 hs.2, hb, if_neg (by simp [ht, hg])]
  rfl

/-- What a release changes: its command, the Ledger and a digest. -/
theorem State.released_spec (s : State) (c : Inflight) : let u := s.modInflight c.tag (Inflight.goes s.gc)
    let v := s.released c
    v.stream = u.stream
    ∧ v.ledger = (if s.pw.eff.lateWin.toNat < s.gc.toNat - bitsOf c.cmd.chain 63 0 then
        (s.log 0x0502 c.tag (some c.slot.tenant) (leBytes 8 (bitsOf c.cmd.chain 63 0) ++ leBytes 8 s.gc.toNat)).ledger else s.ledger)
    ∧ v.prov.rcpt = s.prov.rcpt ∧ v.prov.keys = s.prov.keys
    ∧ v = { s with stream := v.stream, ledger := v.ledger, evRings := v.evRings, prov := v.prov } := by
  intro u v
  by_cases h : s.pw.eff.lateWin.toNat < s.gc.toNat - bitsOf c.cmd.chain 63 0
  · obtain ⟨a, b, e⟩ := noteEpoch_digests (u.log cLATEL c.tag (some c.slot.tenant) (leBytes 8 c.cmd.waitTarget ++ leBytes 8 s.gc.toNat)) c.slot.epoch
      fun x => { x with latel := true }
    have hv : v = _ := (if_pos h).trans e
    rw [hv, if_pos h]
    exact ⟨rfl, rfl, rfl, rfl, rfl⟩
  · have hv : v = u := if_neg h
    rw [hv, if_neg h]
    exact ⟨rfl, rfl, rfl, rfl, rfl⟩

theorem awaiting_spec {s : State} {o : Op} {c : Inflight} (h : s.awaiting o = some c) : c.fault = none ∧ c.ready = false ∧ c.cmd.op = o := by
  have := List.find?_some h
  simp only [Bool.and_eq_true, Option.isNone_iff_eq_none, Bool.not_eq_true', beq_iff_eq] at this
  exact ⟨this.1.1, this.1.2, this.2⟩

/-- Settles O30: a `WAITGC` that goes is that of `commandRetirement_now` where it is the oldest. -/
theorem rollSetAndWaitgcTakeEffect : Obligations.RollSetAndWaitgcTakeEffect := by
  refine ⟨fun c s => ?_, fun c s => ?_⟩
  · intro n hs ha hin hfree
    let i := bitsOf n 7 4
    let r := (s.roll i).set (n.testBit 0) (n.testBit 1) (w32Of n 127 96) (w32Of n 95 64) (BitVec.ofNat 16 (bitsOf n 63 48))
    let f (c : Inflight) : Inflight := { c with ready := true }
    have e : s.rollSetEffect = (s.setRoll i r).modInflight c.tag f := by
      rw [State.rollSetEffect, ha]
      dsimp only
      rw [running_of s hs.1 hs.2, hfree]
      rfl
    have hin' : (s.setRoll i r).inflight? c.tag = some c := hin
    refine ⟨_, f c, congrArg Host.Outcome.next e, (State.inflight?_modInflight _ (f := f) fun _ => rfl).trans (by rw [hin']; rfl), rfl, fun k hk => ?_,
      fun x hx => ?_, rfl⟩
    · show vecGet (vecModify s.rolls i fun _ => r) k .default = _
      rw [vecGet_vecModify, if_pos hk]
      by_cases h : k = i
      · rw [if_pos h.symm, if_pos h, h]
        rfl
      · rw [if_neg (Ne.symm h), if_neg h]
        rfl
    · have : x ∈ s.stream.claims.filter fun x => x.roll != i := hx
      simpa using (List.mem_filter.mp this).2
  · intro g d logged hs ht ha hin hg hb
    have e := State.waitgcRelease_eq hs ht ha hg hb
    obtain ⟨hstream, hledger, hrcpt, hkeys, hframe⟩ := s.released_spec c
    obtain ⟨hf, -, hop⟩ := awaiting_spec ha
    refine ⟨fun hne => ?_, fun rest hhead hst hp hw => ?_⟩
    · have hk := State.retireIfOldest_of_ne (w := s.released c) (f := Inflight.goes s.gc) hin hne (by rw [hstream])
      refine ⟨_, congrArg Host.Outcome.next (e.trans hk), ?_, ⟨hledger, hrcpt, hkeys⟩, hframe⟩
      exact onlyCommand_congr (State.onlyCommand_modInflight hin (f := Inflight.goes s.gc) fun _ => rfl) rfl rfl hstream
    · have hws : (s.released c).stream = { s.stream with inflight := d :: rest } := by
        rw [hstream]
        have := State.modInflight_head hhead (Inflight.goes s.gc)
        exact congrArg (fun l : List Inflight => { s.stream with inflight := l }) this
      have hhead' : (s.released c).stream.inflight = d :: rest := by rw [hws]
      obtain ⟨h1, h2, h3, h4, h5, h6⟩ := hp
      have hstop : (s.released c).stopped d.tag = false := by
        rw [State.stopped_congr_head hhead hhead' rfl (by rw [hframe])]
        exact hst
      have hnow := commandRetirement_now (w := s.released c) (d := d) ⟨by rw [hframe]; exact hs.1, by rw [hframe]; exact hs.2⟩ hhead' hf rfl
        (by
          have : d.cmd.op = .waitgc := hop
          rw [this]
          decide) hstop ⟨h1, h2, h3, h4, h5, by rw [hws]; exact h6⟩ hw
      have hret : (s.released c).retireIfOldest c.tag = (s.released c).commandRetirement := State.retireIfOldest_head (d := d) hhead'
      refine ⟨_, s.released c, congrArg Host.Outcome.next (e.trans hret), ⟨hledger, hrcpt, hkeys⟩, hnow.1, ?_⟩
      rw [hws] at hframe
      exact hframe

end Sys2Proof.Machine
end

section
/-! The clear of the scratchpad, and presentations of the matrix engine. -/
namespace Sys2Proof.Machine
open Sys2Proof Sys2Proof.Claims

/-! ### The clear (R281) -/

/-- A store with one value written at some addresses. -/
theorem sparseGet_foldl_set {β : Type} [DecidableEq β] {d b : β} (ws : List Nat) {m : List (Nat × β)} (hm : sparseFrom d 0 m = true) (x : Nat) :
    sparseGet d (ws.foldl (fun m w => sparseSet d m w b) m) x = if x ∈ ws then b else sparseGet d m x := by
  induction ws generalizing m with
  | nil => rfl
  | cons w ws ih =>
    rw [List.foldl_cons, ih (sparseFrom_set w b (Nat.zero_le w) hm), sparseGet_set hm]
    by_cases h1 : x ∈ ws <;> by_cases h2 : x = w <;> simp [h1, h2]

/-- The eight words of each of some lines. -/
def lineWords (ls : List Nat) : List Nat := (ls.map fun l => (upTo 8).map fun i => 8 * l + i).flatten

theorem mem_lineWords {ls : List Nat} {w : Nat} : w ∈ lineWords ls ↔ w / 8 ∈ ls := by
  simp only [lineWords, List.mem_flatten, List.mem_map, upTo]
  constructor
  · rintro ⟨_, ⟨l, hl, rfl⟩, hw⟩
    obtain ⟨i, hi, rfl⟩ := List.mem_map.mp hw
    rw [List.mem_range] at hi
    rwa [show (8 * l + i) / 8 = l by omega]
  · exact fun h => ⟨_, ⟨w / 8, h, rfl⟩, List.mem_map.mpr ⟨w % 8, List.mem_range.mpr (by omega), by omega⟩⟩

/-- The entries of a clear change the Ledger and the digests alone. -/
theorem State.logClear_frame (ls : List Nat) : ∀ s : State, ∃ led ev cur prev,
    s.logClear ls = { s with ledger := led, evRings := ev, prov := { s.prov with cur := cur, prev := prev } } := by
  induction ls with
  | nil => exact fun s => ⟨s.ledger, s.evRings, s.prov.cur, s.prov.prev, rfl⟩
  | cons l ls ih =>
    intro s
    obtain ⟨led, ev, cur, prev, e⟩ := ih (s.logEccue noTag (some s.tn.active) (eccDetail (64 * l) 0 0xFF 4 8))
    exact ⟨led, ev, cur, prev, e⟩

/-- The stores of the lanes without Till and row states. -/
def Stores.cleared (st : Stores) : Stores := { st with till := [], tillSynd := [], tillBad := [], rowTab := [], rowSynd := [], rowBad := [] }

/-- The lines that a clear leaves as poison. -/
def State.poisonLines (s : State) (failed : List Nat) : List Nat := (failed.filter fun l => decide (l < 64 * s.bankRows)).dedup

/-- The state that a clear leaves, but for the command or reset that has asked for it. -/
def State.cleared (s : State) (failed : List Nat) : State :=
  let bad := s.poisonLines failed
  let s := ((s.noteLongest.clearScratchpad bad).dropSteals).modSpad fun p => { p with clearing := none }
  let s := s.modSt Stores.cleared
  (s.modHealth fun h => { h with poisoned := satAdd h.poisoned (8 * bad.length) }).logClear bad

def State.withHealth (s : State) (h : SpadHealth) : State := { s with spad := { s.spad with health := h } }

theorem State.noteLongest_frame (s : State) : ∃ h, s.noteLongest = s.withHealth h := ⟨_, rfl⟩

theorem State.clearScratchpad_frame (s : State) (bad : List Nat) : ∃ visits, s.clearScratchpad bad = { s with spad := { s.spad with
    mem := [], synd := (lineWords bad).foldl (fun m w => sparseSet 0 m w 0xFF) [], wb := [], ptr := Vector.replicate 64 0
    visits := visits } } := ⟨_, rfl⟩

/-- Steals that fell due in a clear are dropped: the next one comes later. -/
theorem State.dropSteals_frame (s : State) : ∃ x, s.dropSteals = (s.modSpad fun p => { p with nextSteal := x })
    ∧ (s.gc.toNat < s.spad.nextSteal.toNat → x = s.spad.nextSteal) := by
  rw [State.dropSteals]
  by_cases h : s.gc.toNat < s.spad.nextSteal.toNat
  · rw [if_pos h]
    exact ⟨_, rfl, fun _ => rfl⟩
  · rw [if_neg h]
    exact ⟨_, rfl, fun h' => absurd h' h⟩

/-- The store of the scratchpad that a clear leaves. -/
def Spad.cleared (p : Spad) (bad : List Nat) (visits : List (Nat × Nat)) (next : Gc) (h : SpadHealth) : Spad :=
  { p with
    mem := [], synd := (lineWords bad).foldl (fun m w => sparseSet 0 m w 0xFF) [], wb := [], ptr := Vector.replicate 64 0, visits := visits
    nextSteal := next, clearing := none, health := h }

/-- The end of a clear, on a store that is clear already. -/
theorem State.clearEnd_eq (s : State) (p : Spad) (x : Gc) (f : Stores → Stores) (g : SpadHealth → SpadHealth) :
    ((((State.modSpad { s with spad := p } fun p => { p with nextSteal := x }).modSpad fun p => { p with clearing := none }).modSt f).modHealth g)
      = { s with spad := { p with nextSteal := x, clearing := none, health := g p.health }, st := f s.st } := rfl

theorem State.cleared_eq (s : State) (failed : List Nat) : ∃ visits x h led ev cur prev, s.cleared failed = { s with
    spad := s.spad.cleared (s.poisonLines failed) visits x h, st := s.st.cleared
    ledger := led, evRings := ev, prov := { s.prov with cur := cur, prev := prev } }
    ∧ (s.gc.toNat < s.spad.nextSteal.toNat → x = s.spad.nextSteal) := by
  obtain ⟨h, hl⟩ := s.noteLongest_frame
  obtain ⟨visits, hc⟩ := (State.withHealth s h).clearScratchpad_frame (s.poisonLines failed)
  obtain ⟨x, hx, hkeep⟩ := ((State.withHealth s h).clearScratchpad (s.poisonLines failed)).dropSteals_frame
  rw [State.cleared]
  dsimp only
  rw [hl, hx, hc]
  rw [State.clearEnd_eq]
  obtain ⟨led, ev, cur, prev, e⟩ := State.logClear_frame (s.poisonLines failed) (State.mk ..)
  rw [hc] at hkeep
  exact ⟨visits, x, _, led, ev, cur, prev, e, hkeep⟩

theorem State.cleared_spec (s : State) (failed : List Nat) : let v := s.cleared failed
    v.spad.mem = [] ∧ v.spad.clearing = none ∧ v.spad.wb = []
    ∧ (∀ w, v.spad.syndrome w = if w / 8 ∈ failed ∧ w / 8 < 64 * s.bankRows then 0xFF else 0)
    ∧ (s.gc.toNat < s.spad.nextSteal.toNat → v.spad.nextSteal = s.spad.nextSteal)
    ∧ v.st = s.st.cleared ∧ v.prov.rcpt = s.prov.rcpt ∧ v.prov.keys = s.prov.keys
    ∧ v = { s with spad := v.spad, st := v.st, ledger := v.ledger, evRings := v.evRings, prov := v.prov } := by
  obtain ⟨visits, x, h, led, ev, cur, prev, e, hkeep⟩ := s.cleared_eq failed
  rw [e]
  refine ⟨rfl, rfl, rfl, fun w => ?_, hkeep, rfl, rfl, rfl, rfl⟩
  show sparseGet 0 ((lineWords (s.poisonLines failed)).foldl (fun m w => sparseSet 0 m w 0xFF) []) w = _
  rw [sparseGet_foldl_set _ rfl]
  refine if_congr ?_ rfl rfl
  rw [mem_lineWords, State.poisonLines, List.mem_dedup, List.mem_filter, decide_eq_true_iff]

/-- A `TENANT` whose clear is done, with the number of poisoned lines. -/
def Inflight.readied (n : Nat) (c : Inflight) : Inflight := { c with ready := true, d0 := BitVec.ofNat 32 n }

/-- The `TENANT` that waits for its clear may retire. -/
def State.readyTenant (s : State) (c : Option Inflight) (n : Nat) : State :=
  match c with
  | none => s
  | some c => s.modInflight c.tag (Inflight.readied n)

/-- A frame that holds whatever has asked for the clear. -/
theorem clear_frame {s v : State} (h : v = { s with spad := v.spad, st := v.st, ledger := v.ledger, evRings := v.evRings, prov := v.prov })
    (z : Stream) (b : Boot) : let t : State := { v with stream := z, boot := b }
    t = { s with boot := t.boot, spad := t.spad, st := t.st, stream := t.stream, ledger := t.ledger, evRings := t.evRings, prov := t.prov } :=
  congrArg (fun v : State => { v with stream := z, boot := b }) h

/-- Settles O31: the clear itself is one operation, and what has asked for it goes on. -/
theorem scratchpadIsCleared : Obligations.ScratchpadIsCleared := by
  intro failed who s hp hc hwarm
  obtain ⟨h1, h2, h3, h4, h5, h6, h7, h8, h9⟩ := s.cleared_spec failed
  have hcond : ¬ (!s.fclkRuns || (who == .warm && s.boot != .warmClear)) = true := by
    have hf : s.fclkRuns = true := by simp [State.fclkRuns, hp]
    cases who with
    | warm => simp [hf, hwarm rfl]
    | tenant => simp [hf]
  have hread (a : Nat) : Memory.read (s.cleared failed).spad.mem a = 0 := by rw [h1]; rfl
  cases who with
  | warm =>
    have hboot : (s.cleared failed).boot = .warmClear := by rw [h9]; exact hwarm rfl
    have e : s.scratchpadClearDone failed = { s.cleared failed with boot := .warmRom } := by
      rw [State.scratchpadClearDone, hc]
      refine (if_neg hcond).trans ?_
      exact congrArg (fun b => { s.cleared failed with boot := b }) (if_pos hboot)
    refine ⟨_, congrArg Host.Outcome.next e, hread, h2, h3, h4, h5, h6, rfl, fun c h => by simp at h, h7, h8, ?_⟩
    exact clear_frame h9 (s.cleared failed).stream .warmRom
  | tenant =>
    have e : s.scratchpadClearDone failed = (s.cleared failed).readyTenant (s.awaiting .tenant) (s.poisonLines failed).length := by
      rw [State.scratchpadClearDone, hc]
      refine (if_neg hcond).trans ?_
      have ha : (s.cleared failed).awaiting .tenant = s.awaiting .tenant := by rw [State.awaiting, h9, State.awaiting]
      rw [← ha]
      rfl
    have hstream : (s.cleared failed).stream = s.stream := by rw [h9]
    cases ha : s.awaiting .tenant with
    | none =>
      rw [ha] at e
      exact ⟨_, congrArg Host.Outcome.next e, hread, h2, h3, h4, h5, h6, by rw [h9]; rfl, fun c _ h => by simp at h, h7, h8,
        clear_frame h9 (s.cleared failed).stream (s.cleared failed).boot⟩
    | some c =>
      rw [ha] at e
      have hboot : (s.cleared failed).boot = s.boot := by rw [h9]
      refine ⟨_, congrArg Host.Outcome.next e, hread, h2, h3, h4, h5, h6, hboot, fun c' _ h hin => ?_, h7, h8, clear_frame h9 _ _⟩
      obtain rfl : c = c' := Option.some.inj h
      have hin' : (s.cleared failed).inflight? c.tag = some c := (State.inflight?_congr hstream _).trans hin
      exact ⟨_, onlyCommand_congr (State.onlyCommand_modInflight hin' (f := Inflight.readied (s.poisonLines failed).length) fun _ => rfl) hstream.symm rfl rfl, rfl⟩

/-! ### Presentations (R90 to R92) -/

/-- Whether a presentation has a valid bit outside the elements of its beat. -/
def outsideBeat (ps : List (Option W32)) (segs : List Seg) : Bool :=
  ps.zipIdx.any fun p => p.1.isSome && !(segs.any fun sg => decide (sg.pos ≤ p.2) && decide (p.2 < sg.pos + sg.len))

theorem outsideBeat_iff {ps : List (Option W32)} {segs : List Seg} :
    outsideBeat ps segs = true ↔ ∃ i w, ps[i]? = some (some w) ∧ ∀ g ∈ segs, ¬(g.pos ≤ i ∧ i < g.pos + g.len) := by
  rw [outsideBeat, List.any_eq_true]
  constructor
  · rintro ⟨⟨p, i⟩, hmem, hp⟩
    obtain ⟨w, rfl⟩ : ∃ w, p = some w := by
      cases p with
      | none => simp at hp
      | some w => exact ⟨w, rfl⟩
    refine ⟨i, w, List.mem_zipIdx_iff_getElem?.mp hmem, fun g hg hin => ?_⟩
    simp only [Option.isSome_some, Bool.true_and, Bool.not_eq_true', List.any_eq_false] at hp
    exact hp g hg (by simp [hin.1, hin.2])
  · rintro ⟨i, w, hi, hout⟩
    refine ⟨(some w, i), List.mem_zipIdx_iff_getElem?.mpr hi, ?_⟩
    simp only [Option.isSome_some, Bool.true_and, Bool.not_eq_true', List.any_eq_false]
    intro g hg h
    simp only [Bool.and_eq_true, decide_eq_true_eq] at h
    exact hout g hg h

/-- A presentation for a command that waits for one, while none is held. -/
theorem State.accPresentation_eq {s : State} {c : Inflight} {b : Nat} (beat : List (Option W32)) (hs : started s) (hacc : s.stream.acc = none)
    (hp : s.presented = some (c, b)) (hst : s.stopped c.tag = false) :
    let ps := beat.take 256
    let u := s.modStream fun st => { st with acc := some ps }
    s.accPresentation beat = if ps.all fun p => p.isNone then s.bump 20 1
      else if outsideBeat ps ((c.cmd.geo c.regs).segs b) then u.modInflight c.tag fun c => { c with accpv := satAdd c.accpv 1 } else u := by
  rw [State.accPresentation, hp]
  dsimp only
  rw [running_of s hs.1 hs.2, hacc, hst]
  rfl

/-- Settles O32: the three cases are the branches of the step. -/
theorem accPresentationIsTaken : Obligations.AccPresentationIsTaken := by
  intro beat c b s hs hacc hp hst ps segs outside
  have e := State.accPresentation_eq beat hs hacc hp hst
  have hall : (ps.all fun p => p.isNone) = true ↔ ∀ p ∈ ps, p = none := by simp
  have hout : outsideBeat ps segs = true ↔ outside := outsideBeat_iff
  refine ⟨fun h => ?_, fun hsome hnot => ?_, fun ho hin => ?_⟩
  · exact congrArg Host.Outcome.next (e.trans (if_pos (hall.mpr h)))
  · have h1 : ¬ (ps.all fun p => p.isNone) = true := fun h => by
      obtain ⟨p, hp, hne⟩ := hsome
      exact hne (hall.mp h p hp)
    exact congrArg Host.Outcome.next (e.trans ((if_neg h1).trans (if_neg fun h => hnot (hout.mp h))))
  · have h1 : ¬ (ps.all fun p => p.isNone) = true := fun h => by
      obtain ⟨i, w, hi, -⟩ := ho
      exact absurd (hall.mp h _ (List.mem_of_getElem? hi)) (by simp)
    refine ⟨_, congrArg Host.Outcome.next (e.trans ((if_neg h1).trans (if_pos (hout.mpr ho)))), ?_, rfl⟩
    exact State.onlyCommand_modInflight (s := { s with stream := { s.stream with acc := some ps } }) hin
      (f := fun c => { c with accpv := satAdd c.accpv 1 }) fun _ => rfl

end Sys2Proof.Machine
end

section
/-! Declarations, grants and retirement reports of other engines. -/
namespace Sys2Proof.Machine
open Sys2Proof Sys2Proof.Claims

/-! ### Declarations (R293, R295, R424) -/

theorem findIdx'_none {α : Type} (p : α → Bool) (xs : List α) : findIdx' p xs = none ↔ ∀ x ∈ xs, p x = false := by
  induction xs with
  | nil => simp [findIdx']
  | cons x xs ih => cases hx : p x <;> simp [findIdx', hx, ih]

/-- Claims taken one by one hang on the rolls and on the claims that stand, and change nothing else. -/
theorem State.claimEach_spec (tag : W16) (ks : List ClaimOp) : ∀ {s u : State}, s.rolls = u.rolls → s.stream.claims = u.stream.claims →
    s.claimEach tag ks = ({ s with
        rolls := (u.claimEach tag ks).1.rolls
        stream := { s.stream with claims := (u.claimEach tag ks).1.stream.claims } }, (u.claimEach tag ks).2) := by
  induction ks with
  | nil =>
    intro s u h1 h2
    rw [State.claimEach, State.claimEach, ← h1, ← h2]
  | cons k ks ih =>
    intro s u h1 h2
    have hr (i : Nat) : s.roll i = u.roll i := by rw [State.roll, h1, State.roll]
    have h1' : (s.claim tag k.roll.toNat k.produce k.n.toNat).rolls = (u.claim tag k.roll.toNat k.produce k.n.toNat).rolls := by
      simp only [State.claim, State.modStream_rolls, State.modRoll, h1]
    have h2' : (s.claim tag k.roll.toNat k.produce k.n.toNat).stream.claims = (u.claim tag k.roll.toNat k.produce k.n.toNat).stream.claims := by
      simp only [State.claim, State.modStream, State.modRoll, h2, hr]
    rw [State.claimEach, ih h1' h2', State.claimEach, hr]
    rfl

theorem State.claimEach_length (tag : W16) (ks : List ClaimOp) : ∀ s : State,
    (s.claimEach tag ks).2.length = ks.length ∧ (s.claimEach tag ks).1.stream.claims.length = s.stream.claims.length + ks.length := by
  induction ks with
  | nil => exact fun s => ⟨rfl, rfl⟩
  | cons k ks ih =>
    intro s
    obtain ⟨h1, h2⟩ := ih (s.claim tag k.roll.toNat k.produce k.n.toNat)
    refine ⟨congrArg (· + 1) h1, h2.trans ?_⟩
    show (s.stream.claims ++ [_]).length + ks.length = _
    rw [List.length_append, List.length_cons, List.length_cons, List.length_nil]
    omega

/-- The entries of a declaration's boxes. -/
def declEntries (tag : W16) (engine : BitVec 3) (boxes : List BoxOp) : List Entry :=
  boxes.map fun b => { tag := tag, engine := engine, write := b.write, lo := b.lo.toNat, hi := b.hi.toNat }

section
variable {s : State} {tag : W16} {engine : BitVec 3} {boxes : List BoxOp} {claims : List ClaimOp}

/-- A declaration that nothing holds and that meets every rule is granted. -/
theorem State.grantDecl_grant (a : Nat) (hb : s.rollBox boxes = none) (hc : s.badClaim claims = none) :
    s.grantDecl tag engine boxes claims a = { s with
      rolls := (s.claimEach tag claims).1.rolls, stream := { s.stream with claims := (s.claimEach tag claims).1.stream.claims }
      escrow := { entered s tag a (declEntries tag engine boxes) with engines := s.escrow.engines ++ [{ tag := tag, engine := engine }] }
      out := { s.out with esc := s.out.esc ++ [(tag, false, .grant, (s.claimEach tag claims).2)] } } := by
  let v := s.modEscrow fun e => { e with waited := satAdd e.waited (s.tb.cycle - a) }
  let w := (v.enter tag engine (boxesOf boxes)).modEscrow fun e => { e with engines := e.engines ++ [{ tag := tag, engine := engine }] }
  have hb' : v.rollBox boxes = none := hb
  have hc' : v.badClaim claims = none := hc
  have hw : s.grantDecl tag engine boxes claims a = (w.claimEach tag claims).1.answer tag false .grant (w.claimEach tag claims).2 := by
    rw [State.grantDecl]
    dsimp only
    rw [show (s.modEscrow fun e => { e with waited := satAdd e.waited (s.tb.cycle - a) }).rollBox boxes = none from hb,
      show (s.modEscrow fun e => { e with waited := satAdd e.waited (s.tb.cycle - a) }).badClaim claims = none from hc]
    rfl
  have hent : w.escrow = { entered s tag a (declEntries tag engine boxes) with engines := s.escrow.engines ++ [{ tag := tag, engine := engine }] } := by
    have hmap : ((boxesOf boxes).map fun b => ({ tag := tag, engine := engine, write := b.write, lo := b.lo, hi := b.hi } : Entry))
        = declEntries tag engine boxes := List.map_map
    rw [← hmap]
    rfl
  rw [hw, State.claimEach_spec tag claims (s := w) (u := s) rfl rfl, ← hent]
  rfl

/-- One that meets a roll in use, or claims one that is not, is refused. -/
theorem State.grantDecl_refuse (a : Nat) (h : s.rollBox boxes ≠ none ∨ s.badClaim claims ≠ none) : ∃ case addr,
    s.grantDecl tag engine boxes claims a =
      (s.modEscrow fun e => { e with waited := satAdd e.waited (s.tb.cycle - a) }).refuseEscpv tag false engine.toNat case addr := by
  rw [State.grantDecl]
  dsimp only
  cases hb : (s.modEscrow fun e => { e with waited := satAdd e.waited (s.tb.cycle - a) }).rollBox boxes with
  | some b => exact ⟨_, _, rfl⟩
  | none =>
    have hc : (s.badClaim claims).isSome = true := by
      rw [Option.isSome_iff_ne_none]
      exact h.resolve_left fun h => h hb
    exact ⟨5, 0, if_pos hc⟩

/-- The wait of a declaration that is granted in the cycle in which it comes is none. -/
theorem State.waited_now (s : State) : (s.modEscrow fun e => { e with waited := satAdd e.waited (s.tb.cycle - s.tb.cycle) }) = s := by
  rw [Nat.sub_self]
  exact congrArg (fun x => { s with escrow := { s.escrow with waited := x } }) (satAdd_zero s.escrow.waited)

/-- A declaration that the first checks let pass (Table 11.2). -/
structure Declarable (s : State) (tag : W16) (engine : BitVec 3) (boxes : List BoxOp) : Prop where
  sound : ¬ (10 < boxes.length ∨ (∃ b ∈ boxes, b.hi.toNat < b.lo.toNat) ∨ engine = 0 ∨ 4 < engine.toNat ∨ s.tagTaken tag = true)
  within : ∀ b ∈ boxes, 64 * b.hi.toNat < s.spadBytes

theorem rollBox_none : s.rollBox boxes = none ↔ ∀ b ∈ boxes, s.meetsRoll none (64 * b.lo.toNat) (64 * b.hi.toNat + 63) = false := by
  rw [State.rollBox, List.find?_eq_none]
  exact forall₂_congr fun b _ => by rw [Bool.not_eq_true]

/-- A declaration that breaks no rule and meets no roll, as issue finds it. -/
def State.declared? (s : State) (tag : W16) (engine : BitVec 3) (boxes : List BoxOp) (claims : List ClaimOp) (h : Option Hold) : State :=
  match h with
  | none => s.grantDecl tag engine boxes claims s.tb.cycle
  | some h =>
    (s.modStream fun st => { st with
      waiting := st.waiting ++ [.decl tag engine boxes claims s.tb.cycle (if s.stream.waiting.isEmpty then s.waitStart h none else none)] }).answer
      tag false .wait []

/-- The hold of a declaration: what waits before it, or its own. -/
def State.declWaits (s : State) (boxes : List BoxOp) (claims : List ClaimOp) : Option Hold :=
  if s.stream.waiting.isEmpty then s.declHeld boxes claims else some .uncounted

theorem declWaits_none : s.declWaits boxes claims = none ↔ s.stream.waiting = [] ∧ s.declHeld boxes claims = none := by
  rw [State.declWaits]
  by_cases h : s.stream.waiting = [] <;> simp [h]

/-- A declaration with a fault of its own. -/
theorem State.escrowDeclaration_bad (hs : started s) (hu : s.ft.unit ≠ .offline)
    (hbad : 10 < boxes.length ∨ (∃ b ∈ boxes, b.hi.toNat < b.lo.toNat) ∨ engine = 0 ∨ 4 < engine.toNat ∨ s.tagTaken tag = true) :
    ∃ addr, s.escrowDeclaration tag engine boxes claims = s.refuseEscpv tag false engine.toNat 1 addr := by
  unfold State.escrowDeclaration
  dsimp only
  rw [State.escReady, running_of s hs.1 hs.2, if_neg (by simp), if_neg hu, if_pos (by simpa using hbad)]
  exact ⟨_, rfl⟩

/-- One beyond the scratchpad. -/
theorem State.escrowDeclaration_range (hs : started s) (hu : s.ft.unit ≠ .offline)
    (hsound : ¬ (10 < boxes.length ∨ (∃ b ∈ boxes, b.hi.toNat < b.lo.toNat) ∨ engine = 0 ∨ 4 < engine.toNat ∨ s.tagTaken tag = true))
    (hout : ¬ ∀ b ∈ boxes, 64 * b.hi.toNat < s.spadBytes) :
    ∃ detail, s.escrowDeclaration tag engine boxes claims = (s.log cRANGE tag (some s.tn.active) detail).answer tag false .refuse [] := by
  unfold State.escrowDeclaration
  dsimp only
  rw [State.escReady, running_of s hs.1 hs.2, if_neg (by simp), if_neg hu, if_neg (by simpa using hsound)]
  cases hi : findIdx' (fun b : BoxOp => decide (s.spadBytes ≤ 64 * b.hi.toNat)) boxes with
  | none => exact absurd (by simpa using (findIdx'_none _ _).mp hi) hout
  | some i => exact ⟨_, rfl⟩

/-- One that the first checks let pass. -/
theorem State.escrowDeclaration_declarable (hs : started s) (hu : s.ft.unit ≠ .offline) (h : Declarable s tag engine boxes) :
    (s.rollBox boxes ≠ none → ∃ addr, s.escrowDeclaration tag engine boxes claims = s.refuseEscpv tag false engine.toNat 3 addr)
    ∧ (s.rollBox boxes = none → s.escrowDeclaration tag engine boxes claims = s.declared? tag engine boxes claims (s.declWaits boxes claims)) := by
  have hidx : findIdx' (fun b : BoxOp => decide (s.spadBytes ≤ 64 * b.hi.toNat)) boxes = none := by
    rw [findIdx'_none]
    intro b hb
    simpa using h.within b hb
  unfold State.escrowDeclaration
  dsimp only
  rw [State.escReady, running_of s hs.1 hs.2, if_neg (by simp), if_neg hu, if_neg (by simpa using h.sound), hidx]
  dsimp only
  cases hb : s.rollBox boxes with
  | some b => exact ⟨fun _ => ⟨_, rfl⟩, fun h => by cases h⟩
  | none => exact ⟨fun h => absurd rfl h, fun _ => rfl⟩

end

/-! ### Answers -/

/-- From `s` to `t` an answer of refusal has been given, and one entry logged. -/
structure Refused (s t : State) (tag code : W16) : Prop where
  out : t.out = { s.out with esc := s.out.esc ++ [(tag, false, .refuse, [])] }
  ledger : ∃ detail, t.ledger = (s.log code tag (some s.tn.active) detail).ledger
  frame : t = { s with ledger := t.ledger, evRings := t.evRings, out := t.out }

theorem refused_log (s : State) (code tag : W16) (detail : List Byte) :
    Refused s ((s.log code tag (some s.tn.active) detail).answer tag false .refuse []) tag code := ⟨rfl, ⟨detail, rfl⟩, rfl⟩

theorem refused_escpv (s : State) (tag : W16) (engine case addr : Nat) :
    Refused s (s.refuseEscpv tag false engine case addr) tag 0x0202 := refused_log s 0x0202 tag _

section
variable {s : State} {tag : W16} {engine : BitVec 3} {boxes : List BoxOp} {claims : List ClaimOp}

/-- A declaration that meets every rule but whose claims a roll cannot take. -/
theorem escrowDeclaration_badClaim (hs : started s) (hu : s.ft.unit ≠ .offline) (h : Declarable s tag engine boxes)
    (ho : s.stream.waiting = [] ∧ s.declHeld boxes claims = none) (hb : s.rollBox boxes = none) (hc : s.badClaim claims ≠ none) :
    Refused s (s.escrowDeclaration tag engine boxes claims) tag 0x0202 := by
  rw [(State.escrowDeclaration_declarable hs hu h).2 hb, declWaits_none.mpr ho]
  obtain ⟨case, addr, e⟩ := State.grantDecl_refuse (tag := tag) (engine := engine) s.tb.cycle (.inr hc : s.rollBox boxes ≠ none ∨ _)
  rw [State.declared?, e, State.waited_now]
  exact refused_escpv s tag _ case addr

/-- The refusals of `ESCPV` (Table 11.2). -/
theorem escrowDeclaration_escpv (hs : started s) (hu : s.ft.unit ≠ .offline)
    (h : (10 < boxes.length ∨ (∃ b ∈ boxes, b.hi.toNat < b.lo.toNat) ∨ engine = 0 ∨ 4 < engine.toNat ∨ s.tagTaken tag = true)
      ∨ ((∀ b ∈ boxes, 64 * b.hi.toNat < s.spadBytes) ∧ s.rollBox boxes ≠ none)
      ∨ ((∀ b ∈ boxes, 64 * b.hi.toNat < s.spadBytes) ∧ (s.stream.waiting = [] ∧ s.declHeld boxes claims = none)
        ∧ s.badClaim claims ≠ none)) : Refused s (s.escrowDeclaration tag engine boxes claims) tag 0x0202 := by
  by_cases hbad : 10 < boxes.length ∨ (∃ b ∈ boxes, b.hi.toNat < b.lo.toNat) ∨ engine = 0 ∨ 4 < engine.toNat ∨ s.tagTaken tag = true
  · obtain ⟨addr, e⟩ := State.escrowDeclaration_bad (claims := claims) hs hu hbad
    exact e ▸ refused_escpv s tag _ 1 addr
  by_cases hb : s.rollBox boxes = none
  · obtain h | ⟨_, h⟩ | ⟨hw, ho, hc⟩ := h
    · exact absurd h hbad
    · exact absurd hb h
    · exact escrowDeclaration_badClaim hs hu ⟨hbad, hw⟩ ho hb hc
  · obtain h | ⟨hw, _⟩ | ⟨hw, _⟩ := h
    · exact absurd h hbad
    all_goals
      obtain ⟨addr, e⟩ := (State.escrowDeclaration_declarable (claims := claims) hs hu ⟨hbad, hw⟩).1 hb
      exact e ▸ refused_escpv s tag _ 3 addr

end

/-- Settles O33: the checks come in the order of Table 11.2, `RANGE` between them, and a declaration that passes them is granted or waits. -/
theorem declarationsAreAnswered : Obligations.DeclarationsAreAnswered := by
  unfold Obligations.DeclarationsAreAnswered
  intro tag engine boxes claims s hs hu
  dsimp only
  rw [← rollBox_none]
  refine ⟨fun h => ?_, fun hb hw => ?_, fun hb hw ha ho hc => ?_, fun hb hw ha ho => ?_⟩
  · have r := escrowDeclaration_escpv hs hu h
    exact ⟨_, rfl, r.out, r.ledger, r.frame⟩
  · obtain ⟨detail, e⟩ := State.escrowDeclaration_range (claims := claims) hs hu hb hw
    have r := refused_log s 0x0104 tag detail
    exact ⟨_, congrArg Host.Outcome.next e, r.out, r.ledger, r.frame⟩
  · obtain ⟨h1, h2⟩ := State.claimEach_length tag claims s
    have e := (State.escrowDeclaration_declarable (claims := claims) hs hu ⟨hb, hw⟩).2 ha
    rw [declWaits_none.mpr ho, State.declared?, State.grantDecl_grant _ ha hc] at e
    exact ⟨_, congrArg Host.Outcome.next e, rfl, rfl, h1, h2, rfl, rfl, rfl⟩
  · have e := (State.escrowDeclaration_declarable (claims := claims) hs hu ⟨hb, hw⟩).2 ha
    obtain ⟨h, hd⟩ := Option.ne_none_iff_exists'.mp (mt declWaits_none.mp ho)
    rw [hd, State.declared?] at e
    exact ⟨_, _, congrArg Host.Outcome.next e, rfl, rfl, rfl⟩

/-! ### Grants and retirement reports -/

/-- GRANT of a declaration at the head of the stream that nothing holds. -/
theorem State.grant_decl {s : State} {tag : W16} {engine : BitVec 3} {boxes : List BoxOp} {claims : List ClaimOp} {a : Nat}
    {y : Option (Nat × Nat)} {rest : List Waiting} (hs : started s) (hu : s.ft.unit ≠ .offline)
    (hw : s.stream.waiting = .decl tag engine boxes claims a y :: rest) (hh : s.declHeld boxes claims = none) :
    s.grant tag = (s.modStream fun st => { st with waiting := rest }).grantDecl tag engine boxes claims a := by
  unfold State.grant
  rw [running_of s hs.1 hs.2, if_neg (by simp), hw]
  dsimp only
  rw [if_pos rfl, if_neg hu, hh]

/-- GRANT of a waiting acquire, where no declaration waits. -/
theorem State.grant_acquire {s : State} {tag : W16} (hs : started s) (hw : s.stream.waiting = []) : s.grant tag = s.grantAcquire tag := by
  unfold State.grant
  rw [running_of s hs.1 hs.2, if_neg (by simp), hw]

theorem not_faulted {r : Roll} (h : r.st = .active) : r.faulted = false := by
  rw [Roll.faulted, h]
  rfl

/-- The claims once one of them has taken its next slot. -/
def State.claimsTook (s : State) (x : Claim) : List Claim :=
  updateFirst (fun d => d == x) (fun d => { d with acquired := d.acquired + 1, since := none }) s.stream.claims

/-- A claim takes its next slot, where that is free or published and no drop makes room for it (R301). -/
theorem State.acquire_open {s : State} {x : Claim} (ha : (s.roll x.roll).st = .active)
    (hx : x.produce = false ∨ (s.roll x.roll).overwrite = false)
    (ho : if x.produce then (x.seq x.acquired - (s.roll x.roll).tseq).toInt < (s.roll x.roll).nslot.toNat
      else 0 < ((s.roll x.roll).hseq - x.seq x.acquired).toInt) :
    s.acquire x = some (s.modStream fun st => { st with claims := s.claimsTook x }) := by
  unfold State.acquire
  dsimp only
  rw [not_faulted ha, if_neg Bool.false_ne_true]
  cases hp : x.produce with
  | false =>
    rw [hp, if_neg Bool.false_ne_true] at ho
    rw [if_pos Bool.not_false, Roll.published, seqBefore, if_pos (decide_eq_true ho)]
    rfl
  | true =>
    rw [hp, if_pos rfl] at ho
    rw [if_neg (by simp), hx.resolve_left (by simp [hp]), if_pos Bool.not_false, Roll.free, if_pos (decide_eq_true ho)]
    rfl

/-- A report for a command of an engine that holds entries or claims. -/
theorem State.retirementReport_known {s : State} {tag : W16} (hs : started s) (h : ∃ e ∈ s.escrow.engines, e.tag = tag) :
    s.retirementReport tag = (s.dropClaims tag).modEscrow fun e => { e with
      engines := e.engines.filter fun x => x.tag != tag, entries := e.entries.filter fun x => x.tag != tag
      order := e.order.filter fun t => t != tag } := by
  rw [State.retirementReport, running_of s hs.1 hs.2, if_neg (by simp), if_pos (by simpa using h)]

/-- One for a tag that holds none. -/
theorem State.retirementReport_unknown {s : State} {tag : W16} (hs : started s) (h : ∀ e ∈ s.escrow.engines, e.tag ≠ tag) :
    s.retirementReport tag = s.escpv tag 0 4 0 := by
  rw [State.retirementReport, running_of s hs.1 hs.2, if_neg (by simp), if_neg (by simpa using h)]

/-- Settles O34: a grant does what issue does to a declaration, and a report drops what the command of an engine holds. -/
theorem grantsAndReports : Obligations.GrantsAndReports := by
  unfold Obligations.GrantsAndReports
  refine ⟨fun tag engine boxes claims a y rest s hs hu hw hh => ?_, fun tag x s hs hw hx => ?_, fun tag s hs h => ?_, fun tag s hs h => ?_⟩
  · have e := State.grant_decl hs hu hw hh
    let v := s.modStream fun st => { st with waiting := rest }
    refine ⟨fun hb hc => ?_, fun h => ?_⟩
    · have e2 := State.grantDecl_grant (s := v) (tag := tag) (engine := engine) a hb hc
      rw [State.claimEach_spec tag claims (s := v) (u := s) rfl rfl] at e2
      exact ⟨_, congrArg Host.Outcome.next (e.trans e2), rfl, rfl, rfl, rfl, rfl⟩
    · obtain ⟨case, addr, e2⟩ := State.grantDecl_refuse (s := v) (tag := tag) (engine := engine) a h
      exact ⟨_, _, congrArg Host.Outcome.next (e.trans e2), rfl, rfl, rfl, rfl, rfl⟩
  · intro r seq ha ho hopen
    have e : s.grant tag = (s.modStream fun st => { st with claims := s.claimsTook x }).answer tag true .grant [] := by
      rw [State.grant_acquire hs hw, State.grantAcquire, hx]
      dsimp only
      rw [State.acquire_open ha ho hopen]
    exact ⟨_, congrArg Host.Outcome.next e, rfl, rfl, rfl⟩
  · obtain ⟨rs, hd⟩ := s.dropClaims_frame tag
    have e := State.retirementReport_known hs h
    rw [hd] at e
    refine ⟨_, congrArg Host.Outcome.next e, rfl, rfl, fun x hx => ?_, fun hc => ?_, rfl⟩
    · by_cases hn : x.tag = 0xFFFF
      · exact .inr hn
      · exact .inl (State.mem_claimsWithout hx hn)
    · rw [State.dropClaims_none hc] at hd
      exact ⟨(congrArg (fun u : State => u.stream.claims) hd).symm, (congrArg State.rolls hd).symm⟩
  · exact ⟨_, _, congrArg Host.Outcome.next (State.retirementReport_unknown hs h), rfl⟩

end Sys2Proof.Machine
end

section
/-! The slots of rolls as other engines take, publish and release them, and the roll watchdog. -/
namespace Sys2Proof.Machine
open Sys2Proof Sys2Proof.Claims

/-! ### Rolls and the slots of a number (R297, R305) -/

section
variable {s : State}

theorem State.roll_modRoll {i : Nat} (hi : i < 16) (f : Roll → Roll) (j : Nat) :
    (s.modRoll i f).roll j = if j = i then f (s.roll i) else s.roll j := by
  simp only [State.roll, State.modRoll, vecGet_vecModify]
  by_cases h : j = i
  · rw [if_pos h.symm, if_pos h, h, if_pos hi]
  · rw [if_neg (Ne.symm h), if_neg h]

theorem State.roll_modRoll_same {i : Nat} (hi : i < 16) (f : Roll → Roll) : (s.modRoll i f).roll i = f (s.roll i) := by
  rw [State.roll_modRoll hi, if_pos rfl]

/-- A number for which another place is noted, or none, has that place. -/
theorem place_noted (r : Roll) (seq : W32) (p : Nat) (xs : List (W32 × Nat)) (hx : ∀ x ∈ xs, x.1 ≠ seq) :
    ({ r with moved := xs ++ if seq.toNat % r.nslot.toNat = p then [] else [(seq, p)] } : Roll).place seq = p := by
  have hn : xs.find? (fun x => x.1 == seq) = none := by
    rw [List.find?_eq_none]
    intro x h
    simpa using hx x h
  rw [Roll.place, List.find?_append, hn, Option.none_or]
  by_cases h : seq.toNat % r.nslot.toNat = p
  · rw [if_pos h]
    exact h
  · rw [if_neg h, List.find?_cons_of_pos (by simp)]

/-- A slot noted at a place: the roll's other fields stay, and the number has that place. -/
theorem State.roll_moveSlot {i : Nat} (hi : i < 16) (seq : W32) (p : Nat) :
    (s.moveSlot i seq p).roll i = { s.roll i with moved := ((s.moveSlot i seq p).roll i).moved }
    ∧ ((s.moveSlot i seq p).roll i).place seq = p ∧ ∀ j, j ≠ i → (s.moveSlot i seq p).roll j = s.roll j := by
  have h := State.roll_modRoll (s := s) hi fun r =>
    { r with moved := (r.moved.filter fun x => x.1 != seq && (!seqBefore (x.1 + BitVec.ofNat 32 (2 * r.nslot.toNat)) seq
          || s.stream.claims.any fun c => c.wants i x.1))
        ++ (if seq.toNat % r.nslot.toNat = p then [] else [(seq, p)]) }
  refine ⟨?_, ?_, fun j hj => (h j).trans (if_neg hj)⟩
  · rw [State.moveSlot, h, if_pos rfl]
  · rw [State.moveSlot, h, if_pos rfl]
    exact place_noted _ _ _ _ fun x hx => by
      obtain ⟨_, hx⟩ := List.mem_filter.mp hx
      simp only [Bool.and_eq_true, bne_iff_ne] at hx
      exact hx.1

/-- The slot that a drop takes is published, and no consumer holds its place. -/
theorem oldestUnheld_some {r : Roll} {held : List Nat} {n : W32} : ∀ {k : Nat} {t : W32}, r.oldestUnheld held k t = some n →
    r.published n = true ∧ r.place n ∉ held := by
  intro k
  induction k with
  | zero =>
    intro t h
    cases h
  | succ k ih =>
    intro t h
    rw [Roll.oldestUnheld] at h
    by_cases hb : seqBefore t r.hseq = true
    · rw [hb, if_neg (by simp)] at h
      by_cases hc : held.contains (r.place t) = true
      · rw [if_pos hc] at h
        exact ih h
      · rw [if_neg hc] at h
        obtain rfl := Option.some.inj h
        exact ⟨hb, by simpa using hc⟩
    · rw [Bool.eq_false_of_not_eq_true hb, if_pos Bool.not_false] at h
      cases h

/-- A roll after the drop of its slot `n` (R305). -/
def Roll.dropAt (r : Roll) (n : W32) : Roll :=
  { r with
    tseq := n + 1, rtail := if 0 < ((n + 1) - r.rtail).toInt then n + 1 else r.rtail, dropped := satAdd r.dropped 1 }

theorem State.dropSlot_some {i : Nat} (hi : i < 16) {n : W32}
    (h : (s.roll i).oldestUnheld ((s.roll i).heldSlots s.stream.claims i) ((s.roll i).nslot.toNat + 1) (s.roll i).tseq = some n) :
    ∃ led ev rs, s.dropSlot i = some { s with rolls := rs, ledger := led, evRings := ev }
      ∧ ∀ j, vecGet rs j .default = if j = i then (s.roll i).dropAt n else s.roll j := by
  have hdrop : s.dropSlot i = some ((s.modRoll i fun r => r.dropAt n).logLimited (.roll i) cROLLD noTag (some s.tn.active)
      fun n => [BitVec.ofNat 8 i, 0, 0, 0] ++ leBytes 4 n.toNat) := by
    unfold State.dropSlot
    dsimp only
    rw [h]
    simp only [seqBefore, decide_eq_true_eq]
    rfl
  have hlog (u : State) (src : LimitSource) (f : W32 → List Byte) : ∃ led ev, u.logLimited src cROLLD noTag (some s.tn.active) f
      = { u with ledger := led, evRings := ev } := by
    rw [State.logLimited]
    split
    · exact ⟨_, _, rfl⟩
    · exact ⟨_, u.evRings, rfl⟩
  obtain ⟨led, ev, hl⟩ := hlog (s.modRoll i fun r => r.dropAt n) (.roll i) fun n => [BitVec.ofNat 8 i, 0, 0, 0] ++ leBytes 4 n.toNat
  refine ⟨led, ev, (s.modRoll i fun r => r.dropAt n).rolls, hdrop.trans (congrArg some hl), fun j => ?_⟩
  exact State.roll_modRoll hi (fun r => r.dropAt n) j

end

/-! ### A claim takes its next slot (R301, R305) -/

section
variable {s : State} {x : Claim}

/-- Whether the next slot of a claim is free, or published. -/
def State.openSlot (s : State) (x : Claim) : Prop :=
  if x.produce then (x.seq x.acquired - (s.roll x.roll).tseq).toInt < (s.roll x.roll).nslot.toNat
  else 0 < ((s.roll x.roll).hseq - x.seq x.acquired).toInt

/-- A producer in overwrite mode finds a free slot. -/
theorem State.acquire_settle {p : Nat} (ha : (s.roll x.roll).st = .active) (hp : x.produce = true) (ho : (s.roll x.roll).overwrite = true)
    (hopen : s.openSlot x) (h : (s.roll x.roll).settle s.stream.claims x.roll (x.seq x.acquired) = some p) :
    s.acquire x = some ((s.moveSlot x.roll (x.seq x.acquired) p).modStream fun st => { st with claims := s.claimsTook x }) := by
  rw [State.openSlot, hp, if_pos rfl] at hopen
  unfold State.acquire
  dsimp only
  rw [not_faulted ha, hp, ho, if_neg Bool.false_ne_true, if_neg (by simp), if_neg (by simp), Roll.free, if_pos (decide_eq_true hopen), h]
  rfl

/-- A producer in overwrite mode that finds none makes room by a drop. -/
theorem State.acquire_drop {t : State} {p : Nat} (ha : (s.roll x.roll).st = .active) (hp : x.produce = true)
    (ho : (s.roll x.roll).overwrite = true) (hshut : ¬ s.openSlot x) (ht : s.dropSlot x.roll = some t)
    (h : (t.roll x.roll).settle t.stream.claims x.roll (x.seq x.acquired) = some p) :
    s.acquire x = some ((t.moveSlot x.roll (x.seq x.acquired) p).modStream fun st => { st with claims := t.claimsTook x }) := by
  rw [State.openSlot, hp, if_pos rfl] at hshut
  unfold State.acquire
  dsimp only
  rw [not_faulted ha, hp, ho, if_neg Bool.false_ne_true, if_neg (by simp), if_neg (by simp), Roll.free, if_neg (by simpa using hshut), ht]
  dsimp only [Option.bind_some]
  rw [h]
  rfl

/-- Any other claim waits for its next slot. -/
theorem State.acquire_shut (ha : (s.roll x.roll).st = .active) (hx : x.produce = false ∨ (s.roll x.roll).overwrite = false)
    (hshut : ¬ s.openSlot x) : s.acquire x = none := by
  unfold State.acquire
  dsimp only
  rw [not_faulted ha, if_neg Bool.false_ne_true]
  rw [State.openSlot] at hshut
  cases hp : x.produce with
  | false =>
    rw [hp, if_neg Bool.false_ne_true] at hshut
    rw [if_pos Bool.not_false, Roll.published, seqBefore, if_neg (by simpa using hshut)]
  | true =>
    rw [hp, if_pos rfl] at hshut
    rw [if_neg (by simp), hx.resolve_left (by simp [hp]), if_pos Bool.not_false, Roll.free, if_neg (by simpa using hshut)]

end

/-! ### Reports -/

section
variable {s : State} {tag : W16} {roll : BitVec 4} {seq : W32} {x : Claim}

/-- The claims that fit an acquire. -/
def asks (seq : W32) (x : Claim) : Bool := decide (x.acquired < x.n) && x.since.isNone && seq == x.seq x.acquired

/-- A claim that a report finds is on the roll, and fits. -/
theorem engineClaim_some {fits : Claim → Bool} (h : s.engineClaim tag roll fits = some x) : x.roll = roll.toNat ∧ fits x = true := by
  rw [State.engineClaim] at h
  split at h
  · cases h
  · have h := List.find?_some h
    simp only [Bool.and_eq_true, beq_iff_eq] at h
    exact ⟨h.1.2, h.2⟩

section
variable (hs : started s) (he : (s.roll roll.toNat).enable = true) (ha : (s.roll roll.toNat).st = .active)
  (hx : s.engineClaim tag roll (asks seq) = some x)
include hs he ha hx

/-- The answer of an acquire: granted, or the claim waits from now on. -/
theorem State.rollAcquire_granted {t : State} (h : s.acquire x = some t) : s.rollAcquire tag roll seq = t.answer tag true .grant [] := by
  have hx' : (s.engineClaim tag roll fun x => decide (x.acquired < x.n) && x.since.isNone && seq == x.seq x.acquired) = some x := hx
  unfold State.rollAcquire
  dsimp only
  rw [State.escReady, running_of s hs.1 hs.2, if_neg (by simp), hx']
  dsimp only
  rw [he, not_faulted ha, if_neg (by simp), h]

theorem State.rollAcquire_waits (h : s.acquire x = none) :
    s.rollAcquire tag roll seq = s.modClaim x fun x => { x with since := some s.tb.cycle } := by
  have hx' : (s.engineClaim tag roll fun x => decide (x.acquired < x.n) && x.since.isNone && seq == x.seq x.acquired) = some x := hx
  unfold State.rollAcquire
  dsimp only
  rw [State.escReady, running_of s hs.1 hs.2, if_neg (by simp), hx']
  dsimp only
  rw [he, not_faulted ha, if_neg (by simp), h]

end

theorem State.rollAcquire_refused (hs : started s) (hx : s.engineClaim tag roll (asks seq) = none) :
    s.rollAcquire tag roll seq = s.refuseEscpv tag true (s.engineOf tag) 5 0 := by
  unfold State.rollAcquire
  dsimp only
  rw [State.escReady, running_of s hs.1 hs.2, if_neg (by simp), show s.engineClaim tag roll
    (fun x => decide (x.acquired < x.n) && x.since.isNone && seq == x.seq x.acquired) = none from hx]

/-- The claims after the first `k` slots of a producing one are complete. -/
def State.claimsDone (s : State) (x : Claim) (k : Nat) : List Claim :=
  updateFirst (fun d => d == x) (fun d => { d with done := max d.done k }) s.stream.claims

/-- The oldest slot that a producer holds is complete: HSEQ moves past every slot that is complete in order. -/
theorem State.complete_next (ha : (s.roll x.roll).st = .active) :
    let cs := s.claimsDone x (x.done + 1)
    ∃ cs', s.complete x (x.done + 1) = ({ s with stream := { s.stream with claims := cs' } } : State).modRoll x.roll fun r =>
      { r with hseq := advanceHead cs x.roll (cs.foldl (fun a c => a + c.n) 0 + 1) r.hseq } := by
  intro cs
  have hf : ((s.modClaim x fun c => { c with done := max c.done (x.done + 1) }).roll x.roll).faulted = false := not_faulted ha
  rw [State.complete, if_neg (by omega), State.publish, hf, if_neg Bool.false_ne_true]
  exact ⟨((s.modClaim x fun c => { c with done := max c.done (x.done + 1) }).publish x.roll).stream.claims, by
    rw [State.publish, hf, if_neg Bool.false_ne_true]
    rfl⟩

theorem State.rollPublish_eq (hs : started s)
    (hx : (s.engineClaim tag roll fun x => x.produce && decide (x.done < x.acquired) && seq == x.seq x.done) = some x) :
    s.rollPublish tag roll seq = (s.complete x (x.done + 1)).answer tag true .grant [] := by
  unfold State.rollPublish
  dsimp only
  rw [State.escReady, running_of s hs.1 hs.2, if_neg (by simp), hx]

/-- The claims after the oldest slot that a consumer holds is released. -/
def State.claimsFreed (s : State) (x : Claim) : List Claim :=
  updateFirst (fun d => d == x) (fun d => { d with acquired := max d.acquired (d.done + 1), done := d.done + 1 }) s.stream.claims

theorem State.rollRelease_eq (hs : started s)
    (hx : (s.engineClaim tag roll fun x => !x.produce && decide (x.done < x.n) && seq == x.seq x.done
      && (decide (x.done < x.acquired) || (s.roll roll.toNat).published seq)) = some x) :
    s.rollRelease tag roll seq =
      (({ s with stream := { s.stream with claims := s.claimsFreed x } } : State).settleTail x.roll).answer tag true .grant [] := by
  unfold State.rollRelease
  dsimp only
  rw [State.escReady, running_of s hs.1 hs.2, if_neg (by simp), hx]
  rfl

/-- TSEQ of a roll that is not faulted moves up to the first slot that a consumer has still to release. -/
theorem State.roll_settleTail {i : Nat} (hi : i < 16) (ha : (s.roll i).st = .active) (j : Nat) :
    let next := consumerFloor s.stream.claims i (s.roll i).rtail
    (s.settleTail i).roll j = if j = i then
      { s.roll i with tseq := if 0 < (next - (s.roll i).tseq).toInt then next else (s.roll i).tseq } else s.roll j := by
  intro next
  rw [State.settleTail, State.roll_modRoll hi]
  dsimp only
  rw [not_faulted ha, if_neg Bool.false_ne_true]
  simp only [seqBefore, decide_eq_true_eq]
  rfl

end

/-! ### The roll watchdog (R303) -/

section
variable {s : State} {tag : W16} {x : Claim} {y : Nat}

/-- Whether a claim has waited for one slot beyond the count. -/
def State.lateClaim (s : State) (tag : W16) (x : Claim) : Bool :=
  x.tag == tag && !((s.inflight? tag).any fun c => c.fault.isSome)
    && (match x.since with | some y => decide (s.escrow.rollWatchdog.toNat ≤ s.tb.cycle - y) | none => false)

/-- The roll of the claim that has waited too long is faulted, and the claim waits no more. -/
def State.overdue (s : State) (tag : W16) (x : Claim) : State :=
  (s.modRoll x.roll fun r =>
    { r with st := if r.faulted then r.st else if x.produce then .faultedO else .faultedU, lastTag := tag }).modClaim x fun x =>
      { x with since := none }

/-- What the watchdog does with the claim that it finds. -/
def State.watched (s : State) (tag : W16) : Option Claim → State
  | none => s
  | some x =>
    if !s.running then s
    else
      let code := if x.produce then cROLLO else cROLLU
      let detail := [BitVec.ofNat 8 x.roll, 0, 0, 0] ++ leBytes 4 (x.seq x.acquired).toNat
      match s.inflight? tag with
      | some c => (s.overdue tag x).failAfter c code detail
      | none => ((s.overdue tag x).log code tag (some s.tn.active) detail).answer tag true .timeout []

theorem State.rollWatchdog_eq (s : State) (tag : W16) : s.rollWatchdog tag = s.watched tag (s.stream.claims.find? (s.lateClaim tag)) := rfl

theorem State.rollWatchdog_none (h : ∀ x, s.lateClaim tag x = false) : s.rollWatchdog tag = s := by
  have hn : s.stream.claims.find? (s.lateClaim tag) = none := by
    rw [List.find?_eq_none]
    intro x _
    simp [h x]
  rw [State.rollWatchdog_eq, hn, State.watched]

/-- A late claim of a command of the unit fails it. -/
theorem State.rollWatchdog_command {c : Inflight} (hs : started s) (hx : s.stream.claims.find? (s.lateClaim tag) = some x)
    (hc : s.inflight? tag = some c) :
    ∃ detail, s.rollWatchdog tag = (s.overdue tag x).failAfter c (if x.produce then cROLLO else cROLLU) detail := by
  refine ⟨[BitVec.ofNat 8 x.roll, 0, 0, 0] ++ leBytes 4 (x.seq x.acquired).toNat, ?_⟩
  rw [State.rollWatchdog_eq, hx, State.watched, running_of s hs.1 hs.2, if_neg (by simp), hc]

/-- One of another engine is answered. -/
theorem State.rollWatchdog_engine (hs : started s) (hx : s.stream.claims.find? (s.lateClaim tag) = some x)
    (hc : s.inflight? tag = none) : ∃ detail, s.rollWatchdog tag =
      ((s.overdue tag x).log (if x.produce then cROLLO else cROLLU) tag (some s.tn.active) detail).answer tag true .timeout [] := by
  refine ⟨[BitVec.ofNat 8 x.roll, 0, 0, 0] ++ leBytes 4 (x.seq x.acquired).toNat, ?_⟩
  rw [State.rollWatchdog_eq, hx, State.watched, running_of s hs.1 hs.2, if_neg (by simp), hc]

/-- The one claim of a tag that waits is the one that is late. -/
theorem State.find_lateClaim (hx : x ∈ s.stream.claims) (ht : x.tag = tag) (hy : x.since = some y)
    (hlate : s.escrow.rollWatchdog.toNat ≤ s.tb.cycle - y) (hz : ∀ z ∈ s.stream.claims, z.tag = tag → z = x ∨ z.since = none)
    (hf : ∀ c, s.inflight? tag = some c → c.fault = none) : s.stream.claims.find? (s.lateClaim tag) = some x := by
  have hany : ((s.inflight? tag).any fun c => c.fault.isSome) = false := by
    cases hc : s.inflight? tag with
    | none => rfl
    | some c => simp [hf c hc]
  have hlx : s.lateClaim tag x = true := by
    simp [State.lateClaim, ht, hany, hy, hlate]
  obtain ⟨z, hfind⟩ := Option.isSome_iff_exists.mp (List.find?_isSome.mpr ⟨x, hx, hlx⟩)
  have hlz := List.find?_some hfind
  have hzt : z.tag = tag ∧ z.since ≠ none := by
    rw [State.lateClaim] at hlz
    simp only [Bool.and_eq_true, beq_iff_eq] at hlz
    exact ⟨hlz.1.1, fun h => by simp [h] at hlz⟩
  obtain rfl | h := hz z (List.mem_of_find?_eq_some hfind) hzt.1
  · exact hfind
  · exact absurd h hzt.2

/-- A faulted roll keeps its code. -/
theorem faulted_iff (r : Roll) : r.faulted = true ↔ r.st = .faultedU ∨ r.st = .faultedO := by
  rw [Roll.faulted, Bool.or_eq_true, beq_iff_eq, beq_iff_eq]

theorem State.roll_overdue (hi : x.roll < 16) (i : Nat) : (s.overdue tag x).roll i = if i = x.roll then
    { s.roll i with
      st := if (s.roll i).st = .faultedU ∨ (s.roll i).st = .faultedO then (s.roll i).st
        else if x.produce then .faultedO else .faultedU
      lastTag := tag }
    else s.roll i := by
  show State.roll (s.modRoll x.roll _) i = _
  rw [State.roll_modRoll hi]
  by_cases h : i = x.roll
  · rw [if_pos h, if_pos h, ← h]
    simp only [faulted_iff]
  · rw [if_neg h, if_neg h]

/-- A command that fails after issue carries the code, and its entry is logged; no roll and no output changes. -/
theorem State.failAfter_spec {u : State} {c : Inflight} (hc : u.inflight? c.tag = some c) (code : W16) (detail : List Byte) :
    ∃ st, u.failAfter c code detail = ({ u with stream := st } : State).log code c.tag (some c.slot.tenant) detail
      ∧ (u.failAfter c code detail).inflight? c.tag = some { c with fault := some code, detail := detail } := by
  have hd : ∃ st, u.dropAcc c.tag = { u with stream := st } ∧ st.inflight = u.stream.inflight := by
    rw [State.dropAcc]
    split
    · exact ⟨_, rfl, rfl⟩
    · exact ⟨u.stream, rfl, rfl⟩
  obtain ⟨st, hd, hin⟩ := hd
  have hc' : (u.dropAcc c.tag).inflight? c.tag = some c := by
    rw [hd, ← hc]
    exact congrArg (List.find? fun d : Inflight => d.tag == c.tag) hin
  have h := State.inflight?_modInflight (u.dropAcc c.tag) (f := fun c => { c with fault := some code, detail := detail }) (tag := c.tag)
    fun _ => rfl
  rw [hc'] at h
  refine ⟨((u.dropAcc c.tag).modInflight c.tag fun c => { c with fault := some code, detail := detail }).stream, ?_, ?_⟩
  · rw [State.failAfter, hd]
    rfl
  · exact h

end

/-! ### The statement -/

theorem roll_lt (i : BitVec 4) : i.toNat < 16 := i.isLt

/-- Settles O35: a report changes the claim that it fits and the roll of that claim, and the watchdog faults the roll of the late one. -/
theorem rollReportsMoveSlots : Obligations.RollReportsMoveSlots := by
  unfold Obligations.RollReportsMoveSlots
  refine ⟨fun tag roll seq s hs => ?_, fun tag c s hc hf => ?_, fun tag x y s hs hx ht hy hi hlate hz hf => ?_⟩
  · intro i r asks' fills frees grants changed he ha
    refine ⟨fun x hx => ?_, fun x hx => ?_, fun x hx => ?_, fun hx => ?_⟩
    · obtain ⟨hxi, hfit⟩ := engineClaim_some hx
      have hseq : seq = x.seq x.acquired := by
        simp only [asks', Bool.and_eq_true, beq_iff_eq] at hfit
        exact hfit.2
      have hr : s.roll x.roll = r := congrArg s.roll hxi
      have hax : (s.roll x.roll).st = .active := hr ▸ ha
      intro open_ took
      have hopen : open_ ↔ s.openSlot x := by
        rw [State.openSlot, hr, ← hseq]
      have hov : (x.produce = false ∨ r.overwrite = false) → (x.produce = false ∨ (s.roll x.roll).overwrite = false) := fun h => hr ▸ h
      refine ⟨fun ho hw => ?_, fun ho hp hw hsome => ?_, ?_, fun hno hw => ?_⟩
      · have e := State.rollAcquire_granted hs he ha hx (State.acquire_open hax (hov hw) (hopen.mp ho))
        exact ⟨_, congrArg Host.Outcome.next e, rfl, rfl, rfl⟩
      · obtain ⟨p, hp'⟩ := Option.isSome_iff_exists.mp hsome
        have e := State.rollAcquire_granted hs he ha hx
          (State.acquire_settle (p := p) hax hp (hr ▸ hw) (hopen.mp ho) (by rw [hr, hxi, ← hseq]; exact hp'))
        rw [← hseq, hxi] at e
        obtain ⟨h1, h2, _⟩ := State.roll_moveSlot (s := s) (roll_lt roll) seq p
        exact ⟨_, congrArg Host.Outcome.next e, rfl, rfl, h1, (congrArg some h2).trans hp'.symm, rfl⟩
      · intro n p hno hp hw hn q hq
        obtain ⟨hpub, hheld⟩ := oldestUnheld_some hn
        refine ⟨hpub, hheld, ?_⟩
        obtain ⟨led, ev, rs, hd, hrs⟩ := State.dropSlot_some (s := s) (roll_lt roll) hn
        have hq' : (State.roll { s with rolls := rs, ledger := led, evRings := ev } x.roll).settle s.stream.claims x.roll
            (x.seq x.acquired) = some p := by
          rw [hxi, ← hseq, ← hq]
          exact congrArg (fun w : Roll => w.settle s.stream.claims i seq) ((hrs i).trans (if_pos rfl))
        have e := State.rollAcquire_granted hs he ha hx (State.acquire_drop hax hp (hr ▸ hw) (mt hopen.mpr hno) (hxi ▸ hd) hq')
        rw [← hseq, hxi] at e
        obtain ⟨h1, h2, h3⟩ := State.roll_moveSlot (s := { s with rolls := rs, ledger := led, evRings := ev }) (roll_lt roll) seq p
        have hq2 : State.roll { s with rolls := rs, ledger := led, evRings := ev } roll.toNat = q := (hrs i).trans (if_pos rfl)
        rw [hq2] at h1
        exact ⟨_, congrArg Host.Outcome.next e, rfl, rfl, h1, h2, fun j hj => (h3 j hj).trans ((hrs j).trans (if_neg hj)), rfl⟩
      · have e := State.rollAcquire_waits hs he ha hx (State.acquire_shut hax (hov hw) (mt hopen.mpr hno))
        exact ⟨_, congrArg Host.Outcome.next e, rfl⟩
    · obtain ⟨hxi, _⟩ := engineClaim_some hx
      have hr : s.roll x.roll = r := congrArg s.roll hxi
      intro cs
      obtain ⟨cs', hc⟩ := State.complete_next (s := s) (x := x) (hr ▸ ha)
      have e := State.rollPublish_eq hs hx
      rw [hc, hxi] at e
      have h := State.roll_modRoll (s := { s with stream := { s.stream with claims := cs' } }) (roll_lt roll) fun r =>
        { r with hseq := advanceHead cs roll.toNat (cs.foldl (fun a c => a + c.n) 0 + 1) r.hseq }
      exact ⟨_, congrArg Host.Outcome.next e, rfl, fun j hj => (h j).trans (if_neg hj), (h i).trans (if_pos rfl), rfl⟩
    · obtain ⟨hxi, _⟩ := engineClaim_some hx
      have hr : s.roll x.roll = r := congrArg s.roll hxi
      intro cs next
      have e := State.rollRelease_eq hs hx
      rw [hxi] at e
      have h := State.roll_settleTail (s := { s with stream := { s.stream with claims := cs } }) (roll_lt roll) ha
      exact ⟨_, congrArg Host.Outcome.next e, rfl, rfl, fun j hj => (h j).trans (if_neg hj), (h i).trans (if_pos rfl), rfl⟩
    · exact ⟨_, congrArg Host.Outcome.next (State.rollAcquire_refused hs hx), rfl, rfl⟩
  · refine congrArg Host.Outcome.next (State.rollWatchdog_none fun x => ?_)
    simp [State.lateClaim, hc, Option.isSome_iff_ne_none.mpr hf]
  · intro code
    have hfind := State.find_lateClaim hx ht hy hlate hz hf
    have hroll := State.roll_overdue (s := s) (tag := tag) hi
    cases hc : s.inflight? tag with
    | none =>
      obtain ⟨detail, e⟩ := State.rollWatchdog_engine hs hfind hc
      refine ⟨_, congrArg Host.Outcome.next e, fun i _ => hroll i, fun c h => (by cases h), fun _ => ⟨rfl, rfl, detail, rfl⟩, rfl⟩
    | some c =>
      have hct := State.tag_of_inflight? hc
      obtain ⟨detail, e⟩ := State.rollWatchdog_command hs hfind hc
      have hov : (s.overdue tag x).inflight? c.tag = some c := by
        rw [hct, ← hc]
        rfl
      obtain ⟨st, hst, hd⟩ := State.failAfter_spec hov (if x.produce then cROLLO else cROLLU) detail
      rw [hct] at hd
      refine ⟨_, congrArg Host.Outcome.next e, fun i _ => ?_, fun c' h => ?_, fun h => (by cases h), ?_⟩
      · rw [hst]
        exact hroll i
      · obtain rfl := Option.some.inj h
        refine ⟨_, hd, rfl, ?_, detail, ?_⟩
        · rw [hst]
          rfl
        · rw [hst, hct]
          rfl
      · rw [hst]
        rfl

end Sys2Proof.Machine
end

section
/-! The common side of the scratchpad: wide and narrow accesses, scrub visits and correction write-backs. -/
namespace Sys2Proof.Machine
open Sys2Proof Sys2Proof.Claims

/-! ### Whole bytes merged into memory -/

theorem Memory.readN_eq_map (m : List Host.Cell) (n : Nat) : ∀ a, Memory.readN m a n = (upTo n).map fun i => Memory.read m (a + i) := by
  induction n with
  | zero => exact fun a => rfl
  | succ n ih =>
    intro a
    rw [Memory.readN, ih, upTo, upTo, List.range_succ_eq_map, List.map_cons, List.map_map, Nat.add_zero]
    congr 1
    refine List.map_congr_left fun i _ => congrArg (Memory.read m) ?_
    show a + 1 + i = a + (i + 1)
    omega

/-- Whole bytes whose values hang on their addresses stand there once merged, and every other byte as before. -/
theorem Memory.read_mergeBytes_whole {v : Nat → Byte} {ws : List (Nat × Byte × Byte)} (hv : ∀ w ∈ ws, w.2 = (0xFF, v w.1)) :
    ∀ {m : List Host.Cell}, Memory.wf m = true → ∀ x,
      Memory.read (mergeBytes m ws) x = if x ∈ ws.map (·.1) then v x else Memory.read m x := by
  induction ws with
  | nil =>
    intro m _ x
    rw [List.map_nil, if_neg List.not_mem_nil, mergeBytes]
  | cons w ws ih =>
    intro m hm x
    obtain ⟨a, mask, b⟩ := w
    obtain ⟨hmask, hval⟩ := Prod.mk.inj (hv _ List.mem_cons_self)
    have hb (o : Byte) : (o &&& ~~~mask) ||| (b &&& mask) = v a := by
      rw [show mask = BitVec.allOnes 8 from hmask, BitVec.not_allOnes, BitVec.and_zero, BitVec.zero_or, BitVec.and_allOnes]
      exact hval
    rw [mergeBytes, ih (fun w hw => hv w (List.mem_cons_of_mem _ hw)) (Memory.wf_write _ _ hm), Memory.read_write hm, hb, List.map_cons]
    by_cases hx : x = a
    · rw [hx, if_pos rfl, ite_self, if_pos List.mem_cons_self]
    · rw [if_neg hx]
      exact if_congr (by simp [hx]) rfl rfl

theorem mem_wholeBytes (bs : List Byte) : ∀ a x, x ∈ (wholeBytes a bs).map (·.1) ↔ a ≤ x ∧ x < a + bs.length := by
  induction bs with
  | nil =>
    intro a x
    simp only [wholeBytes, List.map_nil, List.not_mem_nil, List.length_nil, false_iff]
    omega
  | cons b bs ih =>
    intro a x
    rw [wholeBytes, List.map_cons, List.mem_cons, ih, List.length_cons]
    omega

theorem wholeBytes_value (bs : List Byte) : ∀ a, ∀ w ∈ wholeBytes a bs, w.2 = (0xFF, bs.getD (w.1 - a) 0) := by
  induction bs with
  | nil => exact fun a w h => absurd h List.not_mem_nil
  | cons b bs ih =>
    intro a w h
    rw [wholeBytes] at h
    obtain rfl | h := List.mem_cons.mp h
    · simp
    · have hle : a + 1 ≤ w.1 := ((mem_wholeBytes bs (a + 1) w.1).mp (List.mem_map_of_mem h)).1
      rw [ih _ w h, show w.1 - a = (w.1 - (a + 1)) + 1 by omega, List.getD_cons_succ]

theorem length_padTo (n : Nat) (bs : List Byte) : (padTo n bs).length = n := by
  rw [padTo, List.length_append, List.length_take, List.length_replicate]
  omega

theorem enabledBytes_value (a : Nat) (be : Byte) (data : W64) :
    ∀ w ∈ enabledBytes a be data, w.2 = (0xFF, (data >>> (8 * (w.1 - a))).setWidth 8) := by
  intro w h
  obtain ⟨i, _, rfl⟩ := List.mem_map.mp h
  rw [Nat.add_sub_cancel_left]

theorem mem_enabledBytes (a : Nat) (be : Byte) (data : W64) (x : Nat) :
    x ∈ (enabledBytes a be data).map (·.1) ↔ a ≤ x ∧ x < a + 8 ∧ be.getLsbD (x - a) = true := by
  simp only [enabledBytes, List.map_map, List.mem_map, List.mem_filter, upTo, List.mem_range, Function.comp]
  constructor
  · rintro ⟨i, ⟨hi, hb⟩, rfl⟩
    rw [Nat.add_sub_cancel_left]
    exact ⟨Nat.le_add_right _ _, by omega, hb⟩
  · rintro ⟨h1, h2, hb⟩
    exact ⟨x - a, ⟨by omega, hb⟩, by omega⟩

/-! ### Ports (R264, R265) -/

section
variable {s : State} {tag : W16}

/-- Writes to words for which no write-back waits leave the queue of corrections as it is. -/
theorem Spad.wrote_of_apart {p : Spad} {ms : List (Nat × Byte × Byte)} (h : ∀ e ∈ p.wb, ∀ w ∈ ms, w.1 / 8 ≠ e.1) :
    p.wrote ms = { p with mem := mergeBytes p.mem ms } := by
  have hwb : p.cancelWb (touchedWords ms) = p := by
    rw [Spad.cancelWb, List.filter_eq_self.mpr]
    intro e he
    simpa [touchedWords, List.mem_dedup] using fun a b c hm => h e he _ hm
  rw [Spad.wrote]
  split
  · rfl
  · rw [hwb]

/-- While no steal and no write-back goes ahead in the banks of some words, no write-back waits for one of them. -/
theorem wb_apart_of_bankTaken {w n : Nat} (h : s.bankTaken w n = false) {ms : List (Nat × Byte × Byte)}
    (hm : ∀ x ∈ ms, w ≤ x.1 / 8 ∧ x.1 / 8 < w + n) : ∀ e ∈ s.spad.wb, ∀ x ∈ ms, x.1 / 8 ≠ e.1 := by
  intro e he x hx heq
  have hk : (s.spad.wb.any fun e => (upTo n).any fun i => bankOfWord e.1 == bankOfWord (w + i)) = true := by
    rw [List.any_eq_true]
    obtain ⟨h1, h2⟩ := hm x hx
    refine ⟨e, he, List.any_eq_true.mpr ⟨e.1 - w, List.mem_range.mpr (by omega), ?_⟩⟩
    rw [show w + (e.1 - w) = e.1 by omega, beq_iff_eq]
  rw [State.bankTaken, hk, Bool.or_true] at h
  cases h

/-- A read of words that are clean gives the bytes that stand there. -/
theorem State.portRead_clean (s : State) (h : s.spad.synd = []) (port a n : Nat) :
    s.portRead port tag a n = (s, some ((upTo n).map fun i => Memory.read s.spad.mem (a + i))) := by
  rw [State.portRead, checkWords_clean _ _ _ _ h]
  dsimp only
  rw [Spad.readBytes, h, List.isEmpty_nil, if_pos rfl, Memory.readN_eq_map]

theorem portReady_of (hs : started s) (hc : s.spad.clearing = none) : s.portReady = true := by
  rw [State.portReady, running_of s hs.1 hs.2, hc]
  rfl

/-- A wide access notes the cycle and the line in which its banks are served. -/
def State.wideAt (s : State) (line : Nat) : State := { s with spad := { s.spad with wAt := some (s.tb.cycle, line) } }

section
variable {write : Bool} {line : Nat} {data : List Byte}

theorem State.wAccess_held (h : s.guardedIn line = true ∨ s.bankTaken (8 * line) 64 = true) : s.wAccess write line tag data = s := by
  unfold State.wAccess
  dsimp only
  rw [if_pos (by rcases h with h | h <;> simp [h])]

/-- What a wide access does that is served. -/
def State.wideServed (s : State) (write : Bool) (line : Nat) (tag : W16) (data : List Byte) : State :=
  if s.spadBytes < 64 * line + 512 then (s.portRange 1 tag (64 * line)).spwAnswer 1 (zeros 512)
  else if !s.declared write line tag then (s.escpv tag (s.engineOf tag) 0 (64 * line)).spwAnswer 1 (zeros 512)
  else if write then (s.writeBytes 1 tag (some s.tn.active) (wholeBytes (64 * line) (padTo 512 data))).spwAnswer 0 (zeros 512)
  else
    let r := s.portRead 1 tag (64 * line) 512
    match r.2 with
    | some bs => r.1.spwAnswer 0 bs
    | none => r.1.spwAnswer 2 (zeros 512)

/-- A wide access whose banks nobody takes first is served. -/
theorem State.wAccess_served (hs : started s) (hc : s.spad.clearing = none)
    (h : ¬ (s.guardedIn line = true ∨ s.bankTaken (8 * line) 64 = true)) :
    s.wAccess write line tag data = (s.wideAt line).wideServed write line tag data := by
  obtain ⟨hg, hb⟩ := not_or.mp h
  unfold State.wAccess
  dsimp only
  rw [portReady_of hs hc, Bool.eq_false_of_not_eq_true hg, Bool.eq_false_of_not_eq_true hb, if_neg (by simp)]
  rfl

/-- One beyond the scratchpad, or outside its boxes, is logged and answered with zeros. -/
theorem State.wideServed_refused (h : s.spadBytes < 64 * line + 512 ∨ s.declared write line tag = false) : ∃ detail,
    s.wideServed write line tag data =
      (s.log (if s.spadBytes < 64 * line + 512 then 0x0104 else 0x0202) tag (some s.tn.active) detail).spwAnswer 1 (zeros 512) := by
  rw [State.wideServed]
  by_cases hr : s.spadBytes < 64 * line + 512
  · rw [if_pos hr, if_pos hr]
    exact ⟨_, rfl⟩
  · rw [if_neg hr, if_neg hr, h.resolve_left hr, if_pos Bool.not_false]
    exact ⟨_, rfl⟩

/-- A write within its boxes, and a read of clean words. -/
theorem State.wideServed_write (h : ¬ s.spadBytes < 64 * line + 512) (hd : s.declared true line tag = true) (hsyn : s.spad.synd = []) :
    s.wideServed true line tag data =
      ({ s with spad := s.spad.wrote (wholeBytes (64 * line) (padTo 512 data)) } : State).spwAnswer 0 (zeros 512) := by
  rw [State.wideServed, if_neg h, hd, if_neg (by simp), if_pos rfl, State.writeBytes_clean tag hsyn]

theorem State.wideServed_read (h : ¬ s.spadBytes < 64 * line + 512) (hd : s.declared false line tag = true) (hsyn : s.spad.synd = []) :
    s.wideServed false line tag data = s.spwAnswer 0 ((upTo 512).map fun i => Memory.read s.spad.mem (64 * line + i)) := by
  rw [State.wideServed, if_neg h, hd, if_neg (by simp), if_neg Bool.false_ne_true, State.portRead_clean s hsyn]

/-- What a narrow access does that is served. -/
def State.narrowServed (s : State) (write : Bool) (a : Nat) (be : Byte) (data : W64) : State :=
  if s.spadBytes < a + 8 then (s.portRange 2 noTag a).spnAnswer 1 0
  else if write then (s.writeBytes 2 noTag (some s.tn.active) (enabledBytes a be data)).spnAnswer 0 0
  else
    let r := s.portRead 2 noTag a 8
    match r.2 with
    | some bs => r.1.spnAnswer 0 (BitVec.ofNat 64 (leNat bs))
    | none => r.1.spnAnswer 2 0

section
variable {word : BitVec 24} {be : Byte} {value : W64}

theorem State.nAccess_served (hs : started s) (hc : s.spad.clearing = none)
    (h : ¬ (s.bankTaken word.toNat 1 = true ∨ s.wServed (bankOfWord word.toNat) = true)) :
    s.nAccess write word be value = ({ s with spad := { s.spad with nWait := none } } : State).narrowServed write (8 * word.toNat) be value := by
  obtain ⟨hb, hw⟩ := not_or.mp h
  unfold State.nAccess
  dsimp only
  rw [portReady_of hs hc, Bool.eq_false_of_not_eq_true hb, Bool.eq_false_of_not_eq_true hw, if_neg (by simp)]
  rfl

/-- A narrow access that others go before, or that meets a clear, waits. -/
theorem State.nAccess_waits (hs : started s)
    (h : (s.bankTaken word.toNat 1 = true ∨ s.wServed (bankOfWord word.toNat) = true) ∨ s.spad.clearing ≠ none) :
    s.nAccess write word be value = { s with spad := { s.spad with
      nWait := if s.spad.nWait = none then some { word := word, since := s.tb.cycle, guarded := false } else s.spad.nWait } } := by
  have hheld : (!s.portReady || s.bankTaken word.toNat 1 || s.wServed (bankOfWord word.toNat)) = true := by
    obtain (hb | hw) | hc := h
    · simp [hb]
    · simp [hw]
    · simp [State.portReady, Option.isSome_iff_ne_none.mpr hc]
  unfold State.nAccess
  dsimp only
  rw [if_pos hheld, running_of s hs.1 hs.2, Bool.true_and]
  cases hn : s.spad.nWait with
  | none => rw [Option.isNone_none, if_pos rfl, if_pos rfl]; rfl
  | some w =>
    rw [Option.isNone_some, if_neg Bool.false_ne_true, if_neg (by simp), ← hn]

theorem State.narrowServed_range {a : Nat} (h : s.spadBytes < a + 8) :
    ∃ detail, s.narrowServed write a be value = (s.log 0x0104 0xFFFF (some s.tn.active) detail).spnAnswer 1 0 := by
  rw [State.narrowServed, if_pos h]
  exact ⟨_, rfl⟩

theorem State.narrowServed_write {a : Nat} (h : ¬ s.spadBytes < a + 8) (hsyn : s.spad.synd = []) :
    s.narrowServed true a be value = ({ s with spad := s.spad.wrote (enabledBytes a be value) } : State).spnAnswer 0 0 := by
  rw [State.narrowServed, if_neg h, if_pos rfl, State.writeBytes_clean noTag hsyn]

theorem State.narrowServed_read {a : Nat} (h : ¬ s.spadBytes < a + 8) (hsyn : s.spad.synd = []) : s.narrowServed false a be value =
    s.spnAnswer 0 (BitVec.ofNat 64 (leNat ((upTo 8).map fun i => Memory.read s.spad.mem (a + i)))) := by
  rw [State.narrowServed, if_neg h, if_neg Bool.false_ne_true, State.portRead_clean s hsyn]

end

end

end

/-! ### Accesses -/

theorem wide_words (line : Nat) (bs : List Byte) (hl : bs.length = 512) :
    ∀ w ∈ wholeBytes (64 * line) bs, 8 * line ≤ w.1 / 8 ∧ w.1 / 8 < 8 * line + 64 := by
  intro w hw
  have h := (mem_wholeBytes bs (64 * line) w.1).mp (List.mem_map_of_mem hw)
  omega

theorem narrow_words (word : Nat) (be : Byte) (data : W64) :
    ∀ w ∈ enabledBytes (8 * word) be data, word ≤ w.1 / 8 ∧ w.1 / 8 < word + 1 := by
  intro w hw
  have h := (mem_enabledBytes (8 * word) be data w.1).mp (List.mem_map_of_mem hw)
  omega

/-- Settles O36: an access that nobody goes before is served at once, and words for which no write-back waits are read and written as they
stand. -/
theorem scratchpadAccesses : Obligations.ScratchpadAccesses := by
  unfold Obligations.ScratchpadAccesses
  refine ⟨fun write line tag data s hs hc hsyn hwf => ?_, fun write word be data s hs => ?_, fun w s hs hw hlate => ?_⟩
  · intro a z at_ answers held
    have hexec (t : State) (e : s.wAccess write line.toNat tag data = t) (hl : t.cycleLog s = t) :
        exec (.wAccess write line tag data) s = .next t := congrArg Host.Outcome.next ((congrArg (State.cycleLog · s) e).trans hl)
    refine ⟨fun h => hexec s (State.wAccess_held h) (State.cycleLog_same _ _ rfl), fun h hin hd => ?_, fun h hout => ?_⟩
    · have e := State.wAccess_served (write := write) (tag := tag) (data := data) hs hc h
      have hin' : ¬ (s.wideAt line.toNat).spadBytes < 64 * line.toNat + 512 := Nat.not_lt.mpr hin
      cases write with
      | false =>
        refine ⟨_, hexec _ (e.trans (State.wideServed_read hin' hd hsyn)) (State.cycleLog_same _ _ rfl), rfl, fun x => ?_, rfl⟩
        rw [if_neg (by simp)]
        rfl
      | true =>
        have hw := State.wideServed_write (data := data) hin' hd hsyn
        rw [Spad.wrote_of_apart (wb_apart_of_bankTaken (s := s.wideAt line.toNat) (Bool.eq_false_of_not_eq_true (not_or.mp h).2)
          (wide_words line.toNat _ (length_padTo 512 data)))] at hw
        refine ⟨_, hexec _ (e.trans hw) (State.cycleLog_same _ _ rfl), rfl, fun x => ?_, rfl⟩
        refine (Memory.read_mergeBytes_whole (v := fun x => (padTo 512 data).getD (x - a) 0) (wholeBytes_value (padTo 512 data) a) hwf x).trans ?_
        exact if_congr (by rw [mem_wholeBytes, length_padTo]; simp [a]) rfl rfl
    · have e := State.wAccess_served (write := write) (tag := tag) (data := data) hs hc h
      obtain ⟨detail, hr⟩ := State.wideServed_refused (s := s.wideAt line.toNat) (data := data) hout
      exact ⟨_, hexec _ (e.trans hr) (State.cycleLog_log _ _ _ _ _ _ rfl), rfl, ⟨detail, rfl⟩, rfl⟩
  · intro held a
    refine ⟨fun h hc hsyn hwf hin => ?_, fun h hc hout => ?_, fun h => congrArg Host.Outcome.next (State.nAccess_waits hs h)⟩
    · have e := State.nAccess_served (write := write) (be := be) (value := data) hs hc h
      cases write with
      | false =>
        refine ⟨_, congrArg Host.Outcome.next (e.trans (State.narrowServed_read (Nat.not_lt.mpr hin) hsyn)), rfl, fun x => ?_, rfl⟩
        rw [if_neg (by simp)]
        rfl
      | true =>
        have hw := State.narrowServed_write (s := { s with spad := { s.spad with nWait := none } }) (be := be) (value := data)
          (Nat.not_lt.mpr hin) hsyn
        rw [Spad.wrote_of_apart (wb_apart_of_bankTaken (s := { s with spad := { s.spad with nWait := none } }) (Bool.eq_false_of_not_eq_true (not_or.mp h).1)
          (narrow_words word.toNat be data))] at hw
        refine ⟨_, congrArg Host.Outcome.next (e.trans hw), rfl, fun x => ?_, rfl⟩
        refine (Memory.read_mergeBytes_whole (v := fun x => (data >>> (8 * (x - a))).setWidth 8) (enabledBytes_value a be data) hwf x).trans ?_
        exact if_congr (by rw [mem_enabledBytes]; simp [a]) rfl rfl
    · have e := State.nAccess_served (write := write) (be := be) (value := data) hs hc h
      obtain ⟨detail, hr⟩ := State.narrowServed_range (s := { s with spad := { s.spad with nWait := none } }) (write := write) (be := be)
        (value := data) hout
      exact ⟨_, detail, congrArg Host.Outcome.next (e.trans hr), rfl, rfl, rfl⟩
  · refine congrArg Host.Outcome.next ?_
    unfold State.guardedNRequest
    rw [hw]
    exact if_pos ⟨running_of s hs.1 hs.2, hlate⟩

/-! ### Scrubbing (R277 to R280) -/

section
variable {s : State}

theorem classify_zero : classify 0 = .clean := rfl

theorem scrubWords_clean (h : s.spad.synd = []) (ws : List Nat) : s.scrubWords ws = s := by
  induction ws with
  | nil => rfl
  | cons w ws ih =>
    have hw : s.scrubWord w = s := by
      unfold State.scrubWord
      dsimp only
      rw [Spad.syndrome, h, sparseGet, classify_zero]
    rw [State.scrubWords, hw, ih]

theorem bankRows_of_fixed {u : State} (h : u.fixed = s.fixed) : u.bankRows = s.bankRows := by
  rw [State.bankRows, State.spadBytes, h, State.bankRows, State.spadBytes]

/-- The line that a bank's pointer names next. -/
def State.nextRow (s : State) (bank : Nat) : Nat :=
  if s.bankRows ≤ vecGet s.spad.ptr bank 0 + 1 then 0 else vecGet s.spad.ptr bank 0 + 1

/-- From `s` to `t` some banks have been visited: their pointers have moved on by one line. -/
structure Visited (s t : State) (banks : List Nat) : Prop where
  ptr : ∀ b, b < 64 → vecGet t.spad.ptr b 0 = if b ∈ banks then s.nextRow b else vecGet s.spad.ptr b 0
  mem : t.spad.mem = s.spad.mem
  synd : t.spad.synd = s.spad.synd
  steals : t.spad.health.steals = s.spad.health.steals
  nextSteal : t.spad.nextSteal = s.spad.nextSteal
  frame : t = { s with spad := t.spad }

theorem visited_of {t : State} {bank : Nat} (hp : t.spad.ptr = vecModify s.spad.ptr bank fun _ => s.nextRow bank)
    (hm : t.spad.mem = s.spad.mem) (hy : t.spad.synd = s.spad.synd) (hst : t.spad.health.steals = s.spad.health.steals)
    (hn : t.spad.nextSteal = s.spad.nextSteal) (hf : t = { s with spad := t.spad }) : Visited s t [bank] := by
  refine ⟨fun b hb => ?_, hm, hy, hst, hn, hf⟩
  rw [hp, vecGet_vecModify]
  by_cases h : b = bank
  · rw [if_pos h.symm, if_pos hb, if_pos (List.mem_singleton.mpr h), h]
  · rw [if_neg (Ne.symm h), if_neg (mt List.mem_singleton.mp h)]

/-- A visit, with the row that the pointer names next, the longest interval and the wrapped pointers as they come out. -/
def State.visitWith (s : State) (bank row : Nat) (longest : W32) (wrapped : W64) : State :=
  let s := s.modHealth fun h => { h with longest := longest }
  let s := s.modSpad fun p =>
    { p with visits := sparseSet 0 p.visits (vecGet s.spad.ptr bank 0 * 64 + bank) s.tb.runNs, ptr := vecModify p.ptr bank fun _ => row
             wrapped := if wrapped == BitVec.allOnes 64 then 0 else wrapped }
  if wrapped == BitVec.allOnes 64 then
    s.modHealth fun h => { h with passes := satAdd h.passes 1, passGc := s.gc }
  else s

theorem visitWith_visited (bank : Nat) (longest : W32) (wrapped : W64) :
    Visited s (s.visitWith bank (s.nextRow bank) longest wrapped) [bank] := by
  rw [State.visitWith]
  split
  · exact visited_of rfl rfl rfl rfl rfl rfl
  · exact visited_of rfl rfl rfl rfl rfl rfl

/-- A visit with the numbers that hang on the size of the scratchpad given. -/
def State.visitAt (s : State) (bank rows lines : Nat) : State :=
  let row := vecGet s.spad.ptr bank 0
  let gap := s.tb.runNs - s.spad.lastVisit lines (row * 64 + bank)
  let wraps := decide (rows ≤ row + 1)
  s.visitWith bank (if wraps then 0 else row + 1) (if s.spad.health.longest.toNat < gap then satAdd (0 : W32) gap else s.spad.health.longest)
    (if wraps then s.spad.wrapped ||| (1 <<< bank) else s.spad.wrapped)

theorem advanceScrub_eq (bank : Nat) : s.advanceScrub bank = s.visitAt bank s.bankRows (s.bankRows * 64) := by
  have hrows (f : SpadHealth → SpadHealth) : (s.modHealth f).bankRows = s.bankRows := bankRows_of_fixed rfl
  unfold State.advanceScrub
  dsimp only
  rw [hrows]
  generalize s.bankRows * 64 = lines
  generalize s.bankRows = rows
  rfl

/-- One visit. -/
theorem advanceScrub_visited (bank : Nat) : Visited s (s.advanceScrub bank) [bank] := by
  have hrow : (if decide (s.bankRows ≤ vecGet s.spad.ptr bank 0 + 1) = true then 0 else vecGet s.spad.ptr bank 0 + 1) = s.nextRow bank :=
    if_congr decide_eq_true_iff rfl rfl
  rw [advanceScrub_eq, State.visitAt, hrow]
  exact visitWith_visited bank _ _

theorem spad_frame {u : State} (h : u = { s with spad := u.spad }) (p : Spad) : ({ u with spad := p } : State) = { s with spad := p } :=
  congrArg (fun w : State => { w with spad := p }) h

/-- Visits in several banks, one each. -/
theorem advanceScrubs_visited {banks : List Nat} (hn : banks.Nodup) : Visited s (s.advanceScrubs banks) banks := by
  induction banks generalizing s with
  | nil => exact ⟨fun b _ => (if_neg List.not_mem_nil).symm, rfl, rfl, rfl, rfl, rfl⟩
  | cons c cs ih =>
    obtain ⟨hc, hn⟩ := List.nodup_cons.mp hn
    have h1 := advanceScrub_visited (s := s) c
    have h2 := ih (s := s.advanceScrub c) hn
    refine ⟨fun b hb => ?_, h2.mem.trans h1.mem, h2.synd.trans h1.synd, h2.steals.trans h1.steals, h2.nextSteal.trans h1.nextSteal,
      h2.frame.trans (spad_frame h1.frame _)⟩
    have hrows : (s.advanceScrub c).bankRows = s.bankRows := bankRows_of_fixed (by rw [h1.frame])
    have hp := h1.ptr b hb
    rw [State.advanceScrubs, h2.ptr b hb]
    by_cases h : b ∈ cs
    · rw [if_neg (mt List.mem_singleton.mp fun e : b = c => hc (e ▸ h))] at hp
      rw [if_pos h, if_pos (List.mem_cons_of_mem _ h), State.nextRow, hp, hrows]
      rfl
    · rw [if_neg h, hp]
      exact if_congr (by simp [h]) rfl rfl

theorem scrubBanks_visited (h : s.spad.synd = []) {banks : List Nat} (hn : banks.Nodup) : Visited s (s.scrubBanks banks) banks := by
  rw [State.scrubBanks, scrubWords_clean h]
  exact advanceScrubs_visited hn

theorem State.idleScrub_eq {bank : Nat} (hs : started s) (hc : s.spad.clearing = none) (hwb : s.spad.wb = []) (hn : s.spad.nWait = none)
    (hw : s.wServed bank = false) (hd : s.stealDue = false) : s.idleScrub bank = s.scrubBanks [bank] := by
  unfold State.idleScrub
  dsimp only
  rw [portReady_of hs hc, hwb, hn, hw, hd, if_neg (by simp)]

/-- The next steal is due at a time. -/
def State.stealAt (s : State) (g : Gc) : State := s.modSpad fun p => { p with nextSteal := g }

/-- A steal is taken in every bank, unless FCLK stands or a clear runs. -/
def State.stealNow (s : State) : State :=
  if !s.fclkRuns || s.spad.clearing.isSome then s
  else (s.modHealth fun h => { h with steals := satAdd h.steals 1 }).scrubBanks (upTo 64)

/-- A steal that is taken moves every bank's pointer, and is counted. -/
theorem stealNow_visited (hp : s.pw.state ≠ .halt) (hc : s.spad.clearing = none) (hsyn : s.spad.synd = []) (g : Gc) :
    Visited ((s.stealAt g).modHealth fun h => { h with steals := satAdd h.steals 1 }) (s.stealAt g).stealNow (upTo 64) := by
  have hf : (s.stealAt g).fclkRuns = true := bne_iff_ne.mpr hp
  have hc' : (s.stealAt g).spad.clearing = none := hc
  rw [State.stealNow, hf, hc', if_neg (by simp)]
  exact scrubBanks_visited (s := (s.stealAt g).modHealth fun h => { h with steals := satAdd h.steals 1 }) hsyn List.nodup_range

theorem nextRow_stealAt (g : Gc) (b : Nat) :
    ((s.stealAt g).modHealth fun h => { h with steals := satAdd h.steals 1 }).nextRow b = s.nextRow b := by
  have h : ((s.stealAt g).modHealth fun h => { h with steals := satAdd h.steals 1 }).bankRows = s.bankRows := bankRows_of_fixed rfl
  rw [State.nextRow, h, State.nextRow]
  rfl

/-- The time of the next steal moves on by P. -/
def State.stealNext (s : State) : State := s.modSpad fun p => { p with nextSteal := p.nextSteal + BitVec.ofNat 64 s.stealPeriod }

theorem State.stealNext_eq : s.stealNext = s.stealAt (s.spad.nextSteal + BitVec.ofNat 64 s.stealPeriod) := by
  simp only [State.stealNext, State.stealAt, State.modSpad]

theorem State.forcedScrubSteal_eq_ite : s.forcedScrubSteal =
    if s.boot ≠ .ready ∨ s.tb.state = .notAligned ∨ s.gc.toNat < s.spad.nextSteal.toNat ∨ s.behind s.spad.nextSteal.toNat 3 then s
    else s.stealNext.stealNow := rfl

/-- A steal that is due. -/
theorem State.forcedScrubSteal_eq (hs : started s) (ha : s.tb.state ≠ .notAligned) (hdue : s.spad.nextSteal.toNat ≤ s.gc.toNat)
    (hb : s.behind s.spad.nextSteal.toNat 3 = false) :
    s.forcedScrubSteal = (s.stealAt (s.spad.nextSteal + BitVec.ofNat 64 s.stealPeriod)).stealNow := by
  rw [State.forcedScrubSteal_eq_ite, if_neg (by simp [hs.1, ha, hb, Nat.not_lt.mpr hdue]), State.stealNext_eq]

/-- What a step of a steal leaves. The time of the next is a variable here: the kernel would compute with its sum. -/
theorem exec_forcedScrubSteal {g : Gc} (e : s.forcedScrubSteal = (s.stealAt g).stealNow) (hp : s.pw.state ≠ .halt)
    (hc : s.spad.clearing = none) (hsyn : s.spad.synd = []) :
    ∃ t, exec .forcedScrubSteal s = .next t ∧ t.spad.health.steals = satAdd s.spad.health.steals 1 ∧ t.spad.nextSteal = g
      ∧ (∀ b, b < 64 → vecGet t.spad.ptr b 0 = s.nextRow b) ∧ t.spad.mem = s.spad.mem ∧ t.spad.synd = [] ∧ t = { s with spad := t.spad } := by
  have h := stealNow_visited hp hc hsyn g
  have hl : (s.stealAt g).stealNow.ledger = s.ledger := by
    rw [h.frame]
    rfl
  exact ⟨_, congrArg Host.Outcome.next ((congrArg (State.cycleLog · s) e).trans (State.cycleLog_same _ _ hl)), h.steals, h.nextSteal,
    fun b hb => (h.ptr b hb).trans ((if_pos (List.mem_range.mpr hb)).trans (nextRow_stealAt g b)), h.mem, h.synd.trans hsyn, h.frame⟩

/-- A write-back whose word still shows what was seen. -/
theorem State.correctionWriteback_eq {w : Nat} {seen : Byte} {rest : List (Nat × Byte)} (hs : started s) (hc : s.spad.clearing = none)
    (hwb : s.spad.wb = (w, seen) :: rest) (hsyn : s.spad.syndrome w = seen) (hz : seen ≠ 0) (hcor : (classify seen).correctable = true)
    (hd : s.stealDue = false) : s.correctionWriteback = { s with spad := ({ s.spad with wb := rest } : Spad).fixWord w } := by
  unfold State.correctionWriteback
  rw [hwb]
  dsimp only
  rw [portReady_of hs hc, hd, if_neg (by simp), show (s.modSpad fun p => { p with wb := rest }).spad.syndrome w = seen from hsyn,
    if_neg hz, if_pos ⟨rfl, hcor⟩]
  rfl

/-- A word's flipped data bit corrected. -/
theorem Spad.fixWord_dataBit {p : Spad} {w j : Nat} (h : classify (p.syndrome w) = .dataBit j) : p.fixWord w = { p with
    mem := Memory.write p.mem (8 * w + j / 8) (Memory.read p.mem (8 * w + j / 8) ^^^ (1 <<< (j % 8))), synd := sparseSet 0 p.synd w 0 } := by
  unfold Spad.fixWord
  rw [h]

end

/-- Settles O37: a visit moves its bank's pointer alone where words read clean, and a write-back flips back the one bit that its syndrome
names. -/
theorem scrubVisitsAndCorrections : Obligations.ScrubVisitsAndCorrections := by
  unfold Obligations.ScrubVisitsAndCorrections
  refine ⟨fun bank s hd => ⟨?_, ?_⟩, fun bank s hs hc hwb hn hsyn hw hd => ?_, fun s hs ha hc hdue hb hsyn => ?_,
    fun w seen rest j s hs hc hwb hsyn hj hsp hwf hd => ?_⟩
  · have e : s.idleScrub bank.toNat = s := by
      unfold State.idleScrub
      dsimp only
      rw [hd, if_pos (by simp)]
    exact congrArg Host.Outcome.next ((congrArg (State.cycleLog · s) e).trans (State.cycleLog_same s s rfl))
  · refine congrArg Host.Outcome.next ?_
    unfold State.correctionWriteback
    split
    · rfl
    · rw [hd, Bool.or_true, if_pos rfl]
  · have h := scrubBanks_visited hsyn (List.nodup_singleton bank.toNat)
    refine ⟨_, congrArg Host.Outcome.next ((congrArg (State.cycleLog · s) (State.idleScrub_eq hs hc hwb hn hw hd)).trans
      (State.cycleLog_same _ _ ?_)), fun b hb => ?_, h.mem, h.synd.trans hsyn, h.frame⟩
    · rw [h.frame]
    · rw [h.ptr b hb, State.nextRow]
      by_cases hbk : b = bank.toNat
      · rw [if_pos (List.mem_singleton.mpr hbk), if_pos hbk, hbk]
      · rw [if_neg (mt List.mem_singleton.mp hbk), if_neg hbk]
  · exact exec_forcedScrubSteal (State.forcedScrubSteal_eq hs ha hdue hb) hs.2 hc hsyn
  · have hz : seen ≠ 0 := fun e => by rw [e, classify_zero] at hj; cases hj
    have e := State.correctionWriteback_eq hs hc hwb hsyn hz (by rw [hj]; rfl) hd
    have hj' : classify (({ s.spad with wb := rest } : Spad).syndrome w) = .dataBit j := (congrArg classify hsyn).trans hj
    rw [Spad.fixWord_dataBit hj'] at e
    refine ⟨_, congrArg Host.Outcome.next e, rfl, fun x => ?_, fun v => sparseGet_set hsp w 0 v, rfl⟩
    refine (Memory.read_write hwf _ _ x).trans ?_
    by_cases hx : x = 8 * w + j / 8
    · rw [if_pos hx, if_pos hx, hx]
    · rw [if_neg hx, if_neg hx]

end Sys2Proof.Machine
end

section
/-! Accepted writes of dictionary items, Statement reads and event rings. -/
namespace Sys2Proof.Machine
open Sys2Proof Sys2Proof.Claims

/-! ### Statement reads (R359) -/

section
variable {s : State}

theorem odReady_of (h : s.boot = .ready) : s.odReady = true := beq_iff_eq.mpr h

theorem held_of_ready (h : s.boot = .ready) : s.held = false := by
  rw [State.held, h]
  rfl

/-- Every path may read the Statement. -/
theorem readChecks_statement (path : Path) : readChecks path 0x9000 1 = 0 := by
  cases path <;> rfl

theorem State.odRead_statement (path : Path) (strict : Bool) (h : s.boot = .ready) :
    s.odRead path strict 0x9000 1 = (s.capture path, 0, (s.capture path).mg.stmts.get path |>.1) := by
  rw [State.odRead, odReady_of h, readChecks_statement]
  rfl

/-! ### Event rings (R410, R411) -/

/-- A ring changed, and no other. -/
theorem State.modRing_spec {n : Nat} (hn : n < 64) (f : EvRing → EvRing) :
    vecGet (s.modRing n f).evRings n .default = f (vecGet s.evRings n .default)
    ∧ ∀ k, k ≠ n → vecGet (s.modRing n f).evRings k .default = vecGet s.evRings k .default := by
  refine ⟨?_, fun k hk => ?_⟩
  · rw [State.modRing, vecGet_vecModify, if_pos rfl, if_pos hn]
  · rw [State.modRing, vecGet_vecModify, if_neg (Ne.symm hk)]

/-- The copy that goes next, while no write of its ring and fewer than 16 in all stand open. -/
theorem State.eventPost_eq {n : Nat} {e : LEntry} {r : EvRing} (hr : vecGet s.evRings n .default = r) (h : s.nextCopy = some (n, e))
    (hl : s.evOut.length < 16) (ho : ∀ w ∈ s.evOut, w.1 ≠ n) :
    s.eventPost = if r.full && !r.policy then s.modRing n fun r => { r with next := e.seq + 1, dropped := satAdd r.dropped 1 }
      else { s.modRing n (fun r => { r with next := e.seq + 1 }) with
        evOut := s.evOut ++ [(n, r.base + BitVec.ofNat 64 (32 * (r.wr.toNat % r.size.toNat)), e.bytes)]
        out := { s.out with ev := s.out.ev ++ [(n, r.base + BitVec.ofNat 64 (32 * (r.wr.toNat % r.size.toNat)), e.bytes)] } } := by
  subst hr
  have hopen : ¬ (16 ≤ s.evOut.length ∨ (s.evOut.any fun w => w.1 == n) = true) := by
    rw [not_or]
    exact ⟨by omega, by simpa using fun b c h => ho (n, b, c) h rfl⟩
  unfold State.eventPost
  rw [h]
  dsimp only
  rw [if_neg hopen]
  rfl

theorem full_iff (r : EvRing) : (r.full && !r.policy) = true ↔ r.wr - r.rd = r.size ∧ r.policy = false := by
  simp [EvRing.full]

/-- The oldest open write is done. -/
theorem State.eventWriteDone_eq {w : Nat × W64 × List Byte} {rest : List (Nat × W64 × List Byte)} (failed : Bool) (h : s.evOut = w :: rest) :
    s.eventWriteDone failed = ({ s with evOut := rest } : State).modRing w.1 fun r =>
      if failed then { r with dropped := satAdd r.dropped 1 } else { r with wr := r.wr + 1 } := by
  unfold State.eventWriteDone
  rw [h]

end

/-- Settles O57: the read captures the path's Statement alone, and a ring takes one copy or drops it. -/
theorem statementsAndEventRings : Obligations.StatementsAndEventRings := by
  unfold Obligations.StatementsAndEventRings
  refine ⟨fun path s hb => ?_, fun n e s hc hn hl ho => ?_, fun failed w rest s h hn => ?_⟩
  · have e : s.statementRead path = ((s.capture path).countAccess 0).modOut fun o => { o with od := o.od ++ [(path, 0)] } := by
      rw [State.statementRead, held_of_ready hb, if_neg Bool.false_ne_true, State.odRead_statement path _ hb]
    exact ⟨_, congrArg Host.Outcome.next e, rfl, rfl⟩
  · intro r
    have hp := State.eventPost_eq (r := r) rfl hc hl ho
    by_cases hf : r.wr - r.rd = r.size ∧ r.policy = false
    · have hs := State.modRing_spec (s := s) hn fun r => { r with next := e.seq + 1, dropped := satAdd r.dropped 1 }
      rw [if_pos ((full_iff _).mpr hf)] at hp
      refine ⟨_, congrArg Host.Outcome.next hp, hs.2, ?_⟩
      rw [if_pos hf]
      exact ⟨hs.1, rfl⟩
    · have hs := State.modRing_spec (s := s) hn fun r => { r with next := e.seq + 1 }
      rw [if_neg (mt (full_iff _).mp hf)] at hp
      refine ⟨_, congrArg Host.Outcome.next hp, hs.2, ?_⟩
      rw [if_neg hf]
      exact ⟨hs.1, rfl⟩
  · intro r
    have hs := State.modRing_spec (s := { s with evOut := rest }) hn fun r =>
      if failed then { r with dropped := satAdd r.dropped 1 } else { r with wr := r.wr + 1 }
    exact ⟨_, congrArg Host.Outcome.next (State.eventWriteDone_eq failed h), hs.1, hs.2, rfl⟩

/-! ### Accepted writes (R345) -/

section
variable {s : State} {index sub : Nat} {value : List Byte} {i : ItemInfo}

/-- A state whose access is counted and answered. -/
def State.odAnswered (u : State) : State :=
  { u with mg := { u.mg with served := satAdd u.mg.served 1 }, out := { u.out with od := u.out.od ++ [(.operator, 0)] } }

/-- An item by its index and subindex. -/
def odItem (index sub : Nat) : Option ItemInfo := (odRecord index).bind fun f => f sub

/-- A write of the operator that meets checks 1 to 8 is refused only by what check 9 finds. -/
theorem State.writeChecks_operator (hi : odItem index sub = some i) (ha : i.acc = .rw ∨ i.acc = .wo) (hw : i.wr % 2 = 1)
    (hs : i.size = some value.length) (hr : s.inRange index sub (leNat value) = true) :
    s.writeChecks .operator index sub value = s.writableNow .operator index sub (leNat value) := by
  obtain ⟨f, hf, hfs⟩ := Option.bind_eq_some_iff.mp hi
  have h4 : ¬ (i.acc = .const ∨ i.acc = .ro) := by rcases ha with h | h <;> simp [h]
  have h5 : ¬ i.acc = .rwe := by rcases ha with h | h <;> simp [h]
  unfold State.writeChecks
  rw [hf]
  dsimp only
  rw [hfs]
  dsimp only
  rw [if_neg h4, if_neg h5, if_neg (by simp [pathBit, hw]), if_neg (by simp), if_neg (by simp [hs]), hr, if_neg (by simp)]

/-- A write of the operator that no check refuses takes its whole effect, and is counted and answered. -/
theorem State.odWriteRow_accepted {u : State} (hb : s.boot = .ready) (hi : odItem index sub = some i) (ha : i.acc = .rw ∨ i.acc = .wo)
    (hw : i.wr % 2 = 1) (hs : i.size = some value.length) (hr : s.inRange index sub (leNat value) = true)
    (hn : s.writableNow .operator index sub (leNat value) = 0) (he : s.odApply .operator index sub (leNat value) = u) :
    s.odWriteRow .operator index sub value = u.odAnswered := by
  have hc : s.writeChecks .operator index sub value = 0 := (State.writeChecks_operator hi ha hw hs hr).trans hn
  rw [State.odWriteRow, held_of_ready hb, if_neg Bool.false_ne_true, State.odWrite, odReady_of hb, hc, he]
  rfl

end

section
variable {s : State}

/-- Outside thermal halt check 9 looks at the item alone. -/
theorem running_writable (hp : s.pw.state ≠ .halt) (index sub : Nat) : ¬ (s.pw.state = .halt ∧ (!haltWrites index sub) = true) :=
  fun h => hp h.1

theorem due_false (h : s.ep.armed = true → s.gc.toNat < s.ep.switchGc.toNat) : s.due = false := by
  rw [State.due]
  by_cases ha : s.ep.armed = true
  · simp [ha, h ha]
  · simp [ha]

/-- With no slot waiting a withdrawn schedule faults none. -/
theorem State.disarm_quiet (h : ∀ x a y, Waiting.unit x a y ∉ s.stream.waiting) :
    s.disarm = { s with ep := { s.ep with armed := false } } := by
  have hw : State.waitingSlot { s with ep := { s.ep with armed := false } } = none := by
    rw [State.waitingSlot, List.findSome?_eq_none_iff]
    intro w hw
    cases w with
    | unit x a y => exact absurd hw (h x a y)
    | decl => rfl
  unfold State.disarm
  dsimp only
  rw [hw]

/-- The write of a roll record's field while no other waits: it takes effect at once, or waits for the entries that its box meets. -/
theorem State.writeRoll_alone {i sub v : Nat} (h : s.escrow.sets = []) :
    let r := (s.roll i).withField sub v
    s.writeRoll i sub v = if s.escrow.entries.any fun e => r.boxes.any fun b => b.hazard e.box then
        { s with escrow := { s.escrow with sets := [(i, r, s.escrow.entries.map fun e => e.tag)] } }
      else s.setRoll i r := by
  intro r
  have hheld : (s.escrow.entries.any fun e => (s.escrow.entries.map fun e => e.tag).contains e.tag && r.boxes.any fun b => b.hazard e.box)
      = s.escrow.entries.any fun e => r.boxes.any fun b => b.hazard e.box := by
    rw [Bool.eq_iff_iff, List.any_eq_true, List.any_eq_true]
    refine exists_congr fun e => and_congr_right fun he => ?_
    rw [List.contains_iff_mem.mpr (List.mem_map_of_mem he), Bool.true_and]
  have he : s.writeRoll i sub v = if s.escrow.entries.any fun e => (s.escrow.entries.map fun e => e.tag).contains e.tag && r.boxes.any fun b => b.hazard e.box
      then { s with escrow := { s.escrow with sets := [(i, r, s.escrow.entries.map fun e => e.tag)] } }
      else { s.setRoll i r with escrow := { s.escrow with sets := [(i, r, s.escrow.entries.map fun e => e.tag)].filter fun x => x.1 != i } } := by
    rw [State.writeRoll, State.rollSetsDue]
    simp only [State.modEscrow, h, List.nil_append, List.foldl_cons, List.foldl_nil]
    rfl
  have hnone : ([(i, r, s.escrow.entries.map fun e => e.tag)].filter fun x => x.1 != i) = [] := by simp
  rw [he, hheld, hnone, ← h]
  rfl

theorem State.rollShown_now (h : s.escrow.sets = []) (i : Nat) : s.rollShown i = s.roll i := by
  rw [State.rollShown, h]
  rfl

end

section
variable {s : State} (i : BitVec 4) (sub v : Nat)

theorem inRange_roll : s.inRange (0x5000 + i.toNat) sub v = s.rollFieldOk i.toNat sub v := by
  have hi := i.isLt
  unfold State.inRange
  rw [if_neg (by omega), if_neg (by omega), if_neg (by omega), if_neg (by omega), if_pos (by omega), Nat.add_sub_cancel_left]

theorem writableNow_roll (hp : s.pw.state ≠ .halt) :
    s.writableNow .operator (0x5000 + i.toNat) sub v = if s.rollBusy i.toNat then 0xA006 else 0 := by
  have hi := i.isLt
  unfold State.writableNow
  rw [if_neg (running_writable hp _ _), if_neg (by omega), if_neg (by omega), if_neg (by omega), if_pos (by omega), Nat.add_sub_cancel_left]

theorem odApply_roll : s.odApply .operator (0x5000 + i.toNat) sub v = s.writeRoll i.toNat sub v := by
  have hi := i.isLt
  unfold State.odApply
  rw [if_neg (by omega), if_neg (by omega), if_neg (by omega), if_neg (by omega), if_pos (by omega), Nat.add_sub_cancel_left]

/-- The base of a disabled roll may be any line. -/
theorem rollFieldOk_base (hen : (s.roll i.toNat).enable = false) (hsets : s.escrow.sets = []) (hv : v % 64 = 0) :
    s.rollFieldOk i.toNat 2 v = true := by
  have hr : ((s.roll i.toNat).withField 2 v).enable = false := hen
  rw [State.rollFieldOk, State.rollShown_now hsets, hr]
  simp [hv]

end

theorem odItem_rollBase (i : BitVec 4) : odItem (0x5000 + i.toNat) 2 = some { acc := .rw, size := some 4, rd := 7, wr := 3 } := by
  revert i
  decide

section
variable {s : State} (hb : s.boot = .ready) (hp : s.pw.state ≠ .halt)
include hb hp

theorem odWriteRow_lockMask {v : W32} (hv : v.toNat < 128) :
    s.odWriteRow .operator 0x3100 1 (leBytes 4 v.toNat) = State.odAnswered { s with mg := { s.mg with lockMask := v } } := by
  have hl : leNat (leBytes 4 v.toNat) = v.toNat := leNat_leBytes_of_lt v.isLt
  refine State.odWriteRow_accepted hb (i := { acc := .rw, size := some 4, rd := 3, wr := 1 }) rfl (.inl rfl) rfl
    (congrArg some (length_leBytes _ _).symm) ?_ (if_neg (running_writable hp _ _)) ?_
  · rw [hl]
    exact decide_eq_true hv
  · rw [hl]
    show ({ s with mg := { s.mg with lockMask := BitVec.ofNat 32 v.toNat } } : State) = _
    rw [BitVec.ofNat_toNat, BitVec.setWidth_eq]

theorem odWriteRow_switchGc {v : W64} (hdue : s.ep.armed = true → s.gc.toNat < s.ep.switchGc.toNat) (hcur : s.ep.pendEpoch ≠ s.ep.curEpoch)
    (hprev : s.ep.pendEpoch ≠ s.ep.prevEpoch) (hgc : s.gc.toNat < v.toNat) :
    s.odWriteRow .operator 0x3010 2 (leBytes 8 v.toNat) = State.odAnswered { s with ep := { s.ep with switchGc := v, armed := true } } := by
  have hl : leNat (leBytes 8 v.toNat) = v.toNat := leNat_leBytes_of_lt v.isLt
  have hsch : s.schedule ≠ 2 := by
    rw [State.schedule, due_false hdue, if_neg Bool.false_ne_true]
    split <;> decide
  refine State.odWriteRow_accepted hb (i := { acc := .rw, size := some 8, rd := 7, wr := 3 }) rfl (.inl rfl) rfl
    (congrArg some (length_leBytes _ _).symm) rfl ?_ ?_
  · refine (if_neg (running_writable hp _ _)).trans ?_
    show (if s.schedule = 2 ∨ s.ep.pendEpoch = s.ep.curEpoch ∨ s.ep.pendEpoch = s.ep.prevEpoch then (0xA006 : W16)
      else if leNat (leBytes 8 v.toNat) ≤ s.gc.toNat then 0xA00F else 0) = 0
    rw [if_neg (by simp [hsch, hcur, hprev]), hl, if_neg (by omega)]
  · rw [hl]
    show ({ s with ep := { s.ep with switchGc := BitVec.ofNat 64 v.toNat, armed := true } } : State) = _
    rw [BitVec.ofNat_toNat, BitVec.setWidth_eq]

theorem odWriteRow_disarm (ha : s.ep.armed = true) (hgc : s.gc.toNat < s.ep.switchGc.toNat)
    (hw : ∀ x a y, Waiting.unit x a y ∉ s.stream.waiting) :
    s.odWriteRow .operator 0x3010 6 [1] = State.odAnswered { s with ep := { s.ep with armed := false } } := by
  have hsch : s.schedule = 1 := by
    rw [State.schedule, due_false fun _ => hgc, if_neg Bool.false_ne_true, ha, if_pos rfl]
  exact State.odWriteRow_accepted hb (i := { acc := .wo, size := some 1, rd := 7, wr := 3 }) rfl (.inr rfl) rfl rfl rfl
    ((if_neg (running_writable hp _ _)).trans (if_pos hsch)) (State.disarm_quiet hw)

theorem odWriteRow_rotate (hrot : s.prov.keys.rot = .idle) (hkey : s.fixed.otp.keys ≠ []) (hgen : s.prov.keys.keygen ≠ 15) :
    s.odWriteRow .operator 0x1103 1 [1]
      = State.odAnswered { s with prov := { s.prov with keys := { s.prov.keys with rot := .generating } } } :=
  have hnow : s.prov.keys.rot = .idle ∧ (!s.fixed.otp.keys.isEmpty) = true := ⟨hrot, by simpa using hkey⟩
  State.odWriteRow_accepted hb (i := { acc := .wo, size := some 1, rd := 7, wr := 1 }) rfl (.inr rfl) rfl rfl (bne_iff_ne.mpr hgen)
    ((if_neg (running_writable hp _ _)).trans (if_pos hnow)) rfl

theorem odWriteRow_release {e : Receipt} (he : s.prov.rcpt.entry? e.rseq = some e) (hn : e.status = .noticed) :
    s.odWriteRow .operator 0x8200 2 (leBytes 8 e.rseq.toNat) = State.odAnswered
      { s with prov := { s.prov with rcpt := { s.prov.rcpt with entries := s.prov.rcpt.entries.filter fun x => x.rseq != e.rseq } } } := by
  have hv : BitVec.ofNat 64 (leNat (leBytes 8 e.rseq.toNat)) = e.rseq := by
    rw [leNat_leBytes_of_lt e.rseq.isLt, BitVec.ofNat_toNat, BitVec.setWidth_eq]
  refine State.odWriteRow_accepted hb (i := { acc := .wo, size := some 8, rd := 7, wr := 3 }) rfl (.inr rfl) rfl
    (congrArg some (length_leBytes _ _).symm) ?_ ((if_neg (running_writable hp _ _)).trans ?_) ?_
  · show (s.prov.rcpt.entry? (BitVec.ofNat 64 (leNat (leBytes 8 e.rseq.toNat)))).isSome = true
    rw [hv, he]
    rfl
  · simp only [hv, he]
    exact if_pos hn
  · show (s.modRcpt fun r => { r with entries := r.entries.filter fun x => x.rseq != BitVec.ofNat 64 (leNat (leBytes 8 e.rseq.toNat)) }) = _
    rw [hv]
    rfl

theorem odWriteRow_rollBase {i : BitVec 4} {v : W32} (hen : (s.roll i.toNat).enable = false) (hbusy : s.rollBusy i.toNat = false)
    (hsets : s.escrow.sets = []) (hv : v.toNat % 64 = 0) :
    s.odWriteRow .operator (0x5000 + i.toNat) 2 (leBytes 4 v.toNat) = (s.writeRoll i.toNat 2 v.toNat).odAnswered := by
  have hl : leNat (leBytes 4 v.toNat) = v.toNat := leNat_leBytes_of_lt v.isLt
  refine State.odWriteRow_accepted hb (odItem_rollBase i) (.inl rfl) rfl (congrArg some (length_leBytes _ _).symm) ?_ ?_ ?_
  · rw [hl, inRange_roll, rollFieldOk_base i _ hen hsets hv]
  · rw [writableNow_roll i _ _ hp, hbusy, if_neg Bool.false_ne_true]
  · rw [hl, odApply_roll]

theorem odWriteRow_clear : s.odWriteRow .operator 0x7010 0x17 [1] = State.odAnswered { s with act := Vector.replicate 22 0 } :=
  State.odWriteRow_accepted hb (i := { acc := .wo, size := some 1, rd := 3, wr := 3 }) rfl (.inr rfl) rfl rfl rfl
    (if_neg (running_writable hp _ _)) rfl

theorem odWriteRow_ringEnable :
    s.odWriteRow .operator 0x8100 2 [1]
      = State.odAnswered (s.modRing s.mg.selRing.operator.toNat fun r => r.write s.ledger.tail 2 1) :=
  State.odWriteRow_accepted hb (i := { acc := .rw, size := some 1, rd := 3, wr := 3 }) rfl (.inl rfl) rfl rfl rfl
    (if_neg (running_writable hp _ _)) rfl

end

/-- Settles O56: each write meets the nine checks of Table 13.5, and its item's own effect is the whole of what it does. -/
theorem dictionaryWritesApply : Obligations.DictionaryWritesApply := by
  unfold Obligations.DictionaryWritesApply
  intro s hb hp done
  refine ⟨fun v hv => ?_, fun v hdue hcur hprev hgc => ?_, fun ha hgc hw => ?_, fun hrot hkey hgen => ?_, fun e he hn => ?_,
    fun i v => ?_, ?_, fun hr => ?_⟩
  · exact ⟨_, congrArg Host.Outcome.next (odWriteRow_lockMask hb hp hv), rfl⟩
  · exact ⟨_, congrArg Host.Outcome.next (odWriteRow_switchGc hb hp hdue hcur hprev hgc), rfl⟩
  · exact ⟨_, congrArg Host.Outcome.next (odWriteRow_disarm hb hp ha hgc hw), rfl⟩
  · exact ⟨_, congrArg Host.Outcome.next (odWriteRow_rotate hb hp hrot hkey hgen), rfl⟩
  · exact ⟨_, congrArg Host.Outcome.next (odWriteRow_release hb hp he hn), rfl⟩
  · intro r new held hen hbusy hsets hv
    have hnew : (s.roll i.toNat).withField 2 v.toNat = new := by
      show r.set r.enable r.overwrite (BitVec.ofNat 32 v.toNat) r.slotb r.nslot = new
      rw [BitVec.ofNat_toNat, BitVec.setWidth_eq]
    have e := odWriteRow_rollBase hb hp hen hbusy hsets hv
    rw [State.writeRoll_alone hsets, hnew] at e
    refine ⟨_, congrArg Host.Outcome.next e, fun hh => ?_, fun hh => ?_⟩
    · rw [if_neg (show ¬ held = true by simp [hh])]
      have hroll := State.roll_modRoll (s := s) i.isLt fun _ => new
      exact ⟨(hroll i.toNat).trans (if_pos rfl), fun k hk => (hroll k).trans (if_neg hk), rfl⟩
    · rw [if_pos (show held = true from hh)]
      rfl
  · exact ⟨_, congrArg Host.Outcome.next (odWriteRow_clear hb hp), fun k hk => by simp [State.odAnswered, vecGet, hk], rfl⟩
  · intro r hen
    obtain ⟨h1, h2⟩ := State.modRing_spec (s := s) hr fun r => r.write s.ledger.tail 2 1
    refine ⟨_, congrArg Host.Outcome.next (odWriteRow_ringEnable hb hp), h1.trans ?_, h2, rfl⟩
    show r.write s.ledger.tail 2 1 = _
    rw [EvRing.write, hen]
    rfl

end Sys2Proof.Machine
end

section
/-! The stream and the Statement do not look at the management state: what an access writes there changes no decision at issue, no limiter code
and no byte of a Statement. -/
namespace Sys2Proof.Machine
open Sys2Proof Sys2Proof.Claims

/-- A state with another management state. -/
def State.withMg (s : State) (m : Mgmt) : State := { s with mg := m }

section
variable (s : State) (m : Mgmt)

/-! ### Checks at issue -/

theorem headAfter_withMg (line : Nat) (cs : List Inflight) : headAfter (s.withMg m) line cs = headAfter s line cs := by
  induction cs with
  | nil => rfl
  | cons c cs ih =>
    rw [headAfter, ih]
    rfl

theorem State.headLeft_withMg (strict : Bool) (slot : Nat) : (s.withMg m).headLeft strict slot = s.headLeft strict slot :=
  headAfter_withMg s m _ _

theorem assayAfter_withMg (a : Nat) (cs : List Inflight) : assayAfter (s.withMg m) a cs = assayAfter s a cs := by
  induction cs with
  | nil => rfl
  | cons c cs ih =>
    rw [assayAfter, ih]
    rfl

theorem State.assayLeft_withMg (a : Nat) : (s.withMg m).assayLeft a = s.assayLeft a := assayAfter_withMg s m _ _

theorem curveAfter_withMg (k : Nat) (cs : List Inflight) : curveAfter (s.withMg m) k cs = curveAfter s k cs := by
  induction cs with
  | nil => rfl
  | cons c cs ih =>
    rw [curveAfter, ih]
    rfl

theorem slotsVerdict_withMg (c : Cmd) (strict : Bool) (n : Nat) : ∀ r, slotsVerdict (s.withMg m) c strict r n = slotsVerdict s c strict r n := by
  induction n with
  | zero => exact fun r => rfl
  | succ n ih =>
    intro r
    rw [slotsVerdict, State.headLeft_withMg, slotsVerdict, ih]

theorem check5_withMg (c : Cmd) (ms : ModeSet) : check5 (s.withMg m) c ms = check5 s c ms := by
  unfold check5
  simp only [State.assayLeft_withMg, slotsVerdict_withMg]
  rfl

theorem check9_withMg (c : Cmd) : check9 (s.withMg m) c = check9 s c := by
  unfold check9
  have h := fun k => curveAfter_withMg s m k s.stream.inflight.reverse
  rw [show (s.withMg m).stream = s.stream from rfl]
  simp only [h]
  rfl

theorem checkCmd_withMg (c : Cmd) (ms : ModeSet) : checkCmd (s.withMg m) c ms = checkCmd s c ms := by
  unfold checkCmd
  rw [check5_withMg, check9_withMg]
  rfl

theorem checkSlot_withMg (x : Slot) : checkSlot (s.withMg m) x = checkSlot s x := by
  unfold checkSlot
  simp only [checkCmd_withMg]
  rfl

theorem State.decision_withMg (x : Slot) : (s.withMg m).decision x = s.decision x := by
  have hv : (s.withMg m).verdict x = s.verdict x := by
    unfold State.verdict
    rw [checkSlot_withMg]
    rfl
  unfold State.decision
  rw [hv]
  rfl

/-! ### The limiter code -/

theorem State.logLimited_withMg (src : LimitSource) (code tag : W16) (ctx : Option (BitVec 3)) (f : W32 → List Byte) :
    (s.withMg m).logLimited src code tag ctx f = (s.logLimited src code tag ctx f).withMg m := by
  rw [State.logLimited, State.logLimited]
  show (if (s.ledger.limit src s.gc).1 then _ else _) = _
  split <;> rfl

theorem State.dropSlot_withMg (i : Nat) : (s.withMg m).dropSlot i = (s.dropSlot i).map fun t => t.withMg m := by
  unfold State.dropSlot
  dsimp only
  rw [show (s.withMg m).roll i = s.roll i from rfl, show (s.withMg m).stream = s.stream from rfl]
  cases (s.roll i).oldestUnheld ((s.roll i).heldSlots s.stream.claims i) ((s.roll i).nslot.toNat + 1) (s.roll i).tseq with
  | none => rfl
  | some t => exact congrArg some (State.logLimited_withMg (s.modRoll i fun r =>
      { r with tseq := t + 1, rtail := if seqBefore r.rtail (t + 1) then t + 1 else r.rtail, dropped := satAdd r.dropped 1 }) m _ _ _ _ _)

/-- The claim takes its slot in a state. -/
def State.took (s : State) (c : Claim) : State := s.modClaim c fun c => { c with acquired := c.acquired + 1, since := none }

/-- A producer in overwrite mode takes a slot that is free, or makes room. -/
def State.overtake (s : State) (c : Claim) : Option Nat → Option State
  | some p => some ((s.moveSlot c.roll (c.seq c.acquired) p).took c)
  | none => (s.dropSlot c.roll).bind fun t =>
      ((t.roll c.roll).settle t.stream.claims c.roll (c.seq c.acquired)).map fun p => (t.moveSlot c.roll (c.seq c.acquired) p).took c

theorem State.acquire_eq (c : Claim) : s.acquire c =
    if (s.roll c.roll).faulted then none
    else if !c.produce then (if (s.roll c.roll).published (c.seq c.acquired) then some (s.took c) else none)
    else if !(s.roll c.roll).overwrite then (if (s.roll c.roll).free (c.seq c.acquired) then some (s.took c) else none)
    else s.overtake c (if (s.roll c.roll).free (c.seq c.acquired) then
      (s.roll c.roll).settle s.stream.claims c.roll (c.seq c.acquired) else none) := rfl

theorem State.overtake_withMg (c : Claim) (o : Option Nat) : (s.withMg m).overtake c o = (s.overtake c o).map fun t => t.withMg m := by
  cases o with
  | some p => rfl
  | none =>
    rw [State.overtake, State.overtake, State.dropSlot_withMg]
    cases s.dropSlot c.roll with
    | none => rfl
    | some t =>
      show ((t.roll c.roll).settle t.stream.claims c.roll (c.seq c.acquired)).map _ = Option.map _ (Option.map _ _)
      rw [Option.map_map]
      rfl

/-- A claim takes its next slot whatever the management state. -/
theorem State.acquire_withMg (c : Claim) : (s.withMg m).acquire c = (s.acquire c).map fun t => t.withMg m := by
  rw [State.acquire_eq, State.acquire_eq, State.overtake_withMg]
  simp only [apply_ite (Option.map fun t : State => t.withMg m), Option.map_none, Option.map_some]
  rfl

theorem State.acquireUpTo_withMg (n f : Nat) : ∀ (s : State) (c : Claim),
    (s.withMg m).acquireUpTo c n f = ((s.acquireUpTo c n f).1.withMg m, (s.acquireUpTo c n f).2) := by
  induction f with
  | zero => exact fun s c => rfl
  | succ f ih =>
    intro s c
    rw [State.acquireUpTo, State.acquireUpTo, State.acquire_withMg]
    by_cases hn : n ≤ c.acquired
    · rw [if_pos hn, if_pos hn]
    · rw [if_neg hn, if_neg hn]
      cases s.acquire c with
      | some t => exact ih t _
      | none =>
        dsimp only [Option.map_none]
        split <;> rfl

theorem State.acquireAll_withMg (xs : List (Claim × Nat)) : ∀ s : State,
    (s.withMg m).acquireAll xs = ((s.acquireAll xs).1.withMg m, (s.acquireAll xs).2) := by
  induction xs with
  | nil => exact fun s => rfl
  | cons x xs ih =>
    intro s
    rw [State.acquireAll, State.acquireAll, State.acquireUpTo_withMg]
    dsimp only
    split
    · exact ih _
    · rfl

theorem State.flightCode_withMg (c : Inflight) : (s.withMg m).flightCode c = s.flightCode c := by
  unfold State.flightCode
  have h := fun xs => congrArg Prod.snd (State.acquireAll_withMg m xs s)
  simp only [h]
  rfl

theorem State.waitCode_withMg (x : Slot) : (s.withMg m).waitCode x = s.waitCode x := by
  unfold State.waitCode
  rw [State.decision_withMg]
  rfl

theorem State.limiter_withMg : (s.withMg m).limiter = s.limiter := by
  unfold State.limiter
  simp only [State.flightCode_withMg, State.waitCode_withMg]
  rfl

/-! ### The Statement and the values of items -/

theorem State.statement_withMg (o : Option (BitVec 3)) : (s.withMg m).statement o = s.statement o := by
  have hb : (s.withMg m).statementBody o = s.statementBody o := by
    unfold State.statementBody
    rw [State.limiter_withMg]
    rfl
  rw [State.statement, hb]
  rfl

end

/-- A state in whose cycle an access has been served. -/
def State.nowTaken (s : State) : State := s.withMg { s.mg with taken := true }

theorem State.odValue_nowTaken (s : State) (path : Path) (strict : Bool) (index sub : Nat) :
    s.nowTaken.odValue path strict index sub = s.odValue path strict index sub := rfl

theorem State.capture_nowTaken (s : State) (path : Path) : s.nowTaken.capture path = (s.capture path).nowTaken := by
  rw [State.capture, State.nowTaken, State.statement_withMg]
  rfl

/-- The answer to a read that passes its checks. -/
def State.valued (s : State) : Except W16 (List Byte) → State × W16 × List Byte
  | .error k => (s, k, [])
  | .ok v => (s, 0, v)

theorem State.odRead_eq (s : State) (path : Path) (strict : Bool) (index sub : Nat) : s.odRead path strict index sub =
    if !s.odReady then (s, 0xA006, [])
    else if readChecks path index sub ≠ 0 then (s, readChecks path index sub, [])
    else if index = 0x9000 ∧ sub = 1 then (s.capture path).valued ((s.capture path).odValue path strict index sub)
    else s.valued (s.odValue path strict index sub) := by
  have h : s.odRead path strict index sub =
      if !s.odReady then (s, 0xA006, [])
      else if readChecks path index sub ≠ 0 then (s, readChecks path index sub, [])
      else State.valued (if index = 0x9000 ∧ sub = 1 then s.capture path else s)
        ((if index = 0x9000 ∧ sub = 1 then s.capture path else s).odValue path strict index sub) := rfl
  rw [h]
  by_cases hc : index = 0x9000 ∧ sub = 1
  · rw [if_pos hc, if_pos hc]
  · rw [if_neg hc, if_neg hc]

theorem State.valued_nowTaken (s : State) (e : Except W16 (List Byte)) : s.nowTaken.valued e = ((s.valued e).1.nowTaken, (s.valued e).2) := by
  cases e <;> rfl

/-- A read gives the same whether or not an access of its cycle has been served. -/
theorem State.odRead_nowTaken (s : State) (path : Path) (strict : Bool) (index sub : Nat) :
    s.nowTaken.odRead path strict index sub =
      ((s.odRead path strict index sub).1.nowTaken, (s.odRead path strict index sub).2) := by
  rw [State.odRead_eq, State.odRead_eq, State.capture_nowTaken, State.odValue_nowTaken, State.odValue_nowTaken, State.valued_nowTaken,
    State.valued_nowTaken]
  show (if !s.odReady then _ else _) = _
  split
  · rfl
  split
  · rfl
  split
  · rfl
  · rfl

end Sys2Proof.Machine
end

section
/-! Management requests: what serving one leaves of the carriers, and the cycle in which a waiting one is served. -/
namespace Sys2Proof.Machine
open Sys2Proof Sys2Proof.Claims

/-- What no step of a fold changes, the fold leaves. -/
theorem foldl_unchanged {α β : Type} (g : State → β) {f : State → α → State} (h : ∀ u x, g (f u x) = g u) (xs : List α) (s : State) :
    g (xs.foldl f s) = g s := by
  induction xs generalizing s with
  | nil => rfl
  | cons x xs ih => exact (ih _).trans (h s x)

/-! ### The carriers -/

/-- The queue of the management port, the driver window, and the answers given. -/
structure Carrier where
  queue   : List (Byte × List Byte)
  asked   : List (List Byte)
  taken   : Bool
  req     : List Byte
  resp    : List Byte
  busy    : Bool
  ready   : Bool
  answers : List (Option Byte × List Byte)

def State.carrier (s : State) : Carrier :=
  { queue := s.mg.queue, asked := s.mg.asked, taken := s.mg.taken, req := s.mg.req, resp := s.mg.resp, busy := s.mg.busy
    ready := s.mg.ready, answers := s.out.mg }

/-- From `s` to `t` the carriers are as they were. -/
def Carried (s t : State) : Prop := t.carrier = s.carrier

namespace Carried
variable {s t u : State}

theorem refl (s : State) : Carried s s := rfl

theorem trans (h : Carried s t) (h' : Carried t u) : Carried s u := Eq.trans h' h

theorem ite {p : Prop} [Decidable p] {a b : State} (ha : Carried s a) (hb : Carried s b) : Carried s (if p then a else b) := by
  split
  · exact ha
  · exact hb

theorem refuse (s : State) (x : Slot) (code : W16) (detail : List Byte) : Carried s (s.refuse x code detail) := by
  have h : Carried s (if code = cEPOLD then s.countEpold else s) := ite rfl rfl
  exact h.trans rfl

theorem disarm (s : State) : Carried s s.disarm := by
  rw [State.disarm]
  dsimp only
  split
  · rfl
  · split
    · exact ite rfl (Eq.trans (refuse _ _ _ _) rfl)
    · rfl

theorem endBreach (s : State) : Carried s s.endBreach := by
  obtain ⟨_, _, _, e, _⟩ := s.endBreach_spec
  rw [e]
  rfl

theorem rollSetsDue (s : State) : Carried s s.rollSetsDue := by
  refine foldl_unchanged State.carrier (fun u w => ?_) _ s
  split
  · rfl
  · rfl

theorem odApply (s : State) (path : Path) (index sub v : Nat) : Carried s (s.odApply path index sub v) := by
  unfold State.odApply
  refine ite rfl (ite ?_ (ite rfl (ite rfl (ite ?_ (ite rfl (ite rfl (ite rfl (ite ?_ (ite rfl (ite (ite rfl rfl) (ite (ite rfl rfl)
    rfl)))))))))))
  · split
    · rfl
    · rfl
    · exact disarm s
  · exact Eq.trans (rollSetsDue _) rfl
  · exact ite (Eq.trans (endBreach _) rfl) rfl

theorem odWrite (s : State) (path : Path) (index sub : Nat) (v : List Byte) : Carried s (s.odWrite path index sub v).1 := by
  rw [State.odWrite]
  split
  · rfl
  · dsimp only
    split
    · exact odApply s _ _ _ _
    · split
      · rfl
      · split
        · rfl
        · rfl

theorem odRead (s : State) (path : Path) (strict : Bool) (index sub : Nat) : Carried s (s.odRead path strict index sub).1 := by
  have hv (u : State) (e : Except W16 (List Byte)) : (u.valued e).1 = u := by cases e <;> rfl
  rw [State.odRead_eq]
  split
  · rfl
  split
  · rfl
  split
  · rw [hv]
    rfl
  · rw [hv]
    rfl

theorem violation (s : State) (eid : Option Byte) (tid code : W16) : Carried s (s.violation eid tid code) := by
  unfold State.violation
  exact ite rfl rfl

theorem applyWrite (s : State) (eid : Option Byte) (q : Request) (bytes : List Byte) (total : Nat) (one : Bool) :
    Carried s (s.applyWrite eid q bytes total one).1 := odWrite s _ _ _ _

theorem serveRead (s : State) (eid : Option Byte) (q : Request) : Carried s (s.serveRead eid q).1 := by
  unfold State.serveRead
  dsimp only
  split
  · split
    · exact Eq.trans rfl (odRead s _ _ _ _)
    · exact Eq.trans rfl (odRead s _ _ _ _)
  · split
    · rfl
    · next t _ =>
      generalize (if q.index = 0x9000 ∧ q.sub = 1 then (s.mg.stmts.get (partnerPath eid)).1 else t.bytes) = v
      split
      · rfl
      · rfl

theorem serveWrite (s : State) (eid : Option Byte) (q : Request) : Carried s (s.serveWrite eid q).1 := by
  unfold State.serveWrite
  dsimp only
  split
  · split
    · exact Eq.trans (applyWrite _ _ _ _ _ _) rfl
    · rfl
  · split
    · rfl
    · split
      · exact Eq.trans (applyWrite _ _ _ _ _ _) rfl
      · rfl

end Carried

/-! ### Responses (Table 13.6) -/

section
variable (q : Request)

theorem Request.length_respond (last : Bool) (total status : Nat) (bytes : List Byte) : (q.respond last total status bytes).length = 72 := by
  simp [Request.respond, length_leBytes, length_padTo]

theorem Request.length_segment (value : List Byte) : (q.segment value).length = 72 := q.length_respond _ _ _ _

theorem Request.length_abort (code : W16) : (q.abort code).length = 72 := q.length_respond _ _ _ _

theorem Request.length_done : q.done.length = 72 := q.length_respond _ _ _ _

end

/-- What a request that is neither refused nor malformed leads to. -/
def State.served (s : State) (eid : Option Byte) (q : Request) : State × W16 × List Byte :=
  if q.op = 1 then s.serveRead eid q
  else if q.op = 2 then s.serveWrite eid q
  else (s.modPartner eid fun p => p.close q.tid, 0, q.done)

/-- A request counted, and its violation noted. -/
def State.accounted (s : State) (eid : Option Byte) (q : Request) (code : W16) : State :=
  if code = 0xA00A ∨ code = 0xA00B then (s.countAccess code).violation eid q.tid code else s.countAccess code

theorem State.serve_eq (s : State) (eid : Option Byte) (frame : List Byte) : s.serve eid frame =
    let q := Request.ofBytes (padTo 72 frame)
    if !s.odReady then (s.countAccess 0xA006, q.abort 0xA006)
    else if (s.partner eid).limited then
      (s.modMg fun m => { m with aborts := satAdd m.aborts 1, limited := satAdd m.limited 1 }, q.abort 0xA00C)
    else if q.malformed frame.length then ((s.countAccess 0xA009).violation eid q.tid 0xA009, q.abort 0xA009)
    else ((s.served eid q).1.accounted eid q (s.served eid q).2.1, (s.served eid q).2.2) := rfl

theorem Carried.served (s : State) (eid : Option Byte) (q : Request) : Carried s (s.served eid q).1 := by
  rw [State.served]
  split
  · exact Carried.serveRead s eid q
  · split
    · exact Carried.serveWrite s eid q
    · rfl

theorem Carried.accounted (s : State) (eid : Option Byte) (q : Request) (code : W16) : Carried s (s.accounted eid q code) :=
  ite (Eq.trans (violation _ _ _ _) rfl) rfl

/-- Serving a request leaves the carriers as they are. -/
theorem Carried.serve (s : State) (eid : Option Byte) (frame : List Byte) : Carried s (s.serve eid frame).1 := by
  rw [State.serve_eq]
  dsimp only
  split
  · rfl
  split
  · rfl
  split
  · exact Eq.trans (violation _ _ _ _) rfl
  · exact (Carried.served s eid _).trans (accounted _ _ _ _)

theorem length_serveRead (s : State) (eid : Option Byte) (q : Request) : (s.serveRead eid q).2.2.length = 72 := by
  unfold State.serveRead
  dsimp only
  split
  · split
    · exact q.length_abort _
    · exact q.length_segment _
  · split
    · exact q.length_abort _
    · next t _ =>
      generalize (if q.index = 0x9000 ∧ q.sub = 1 then (s.mg.stmts.get (partnerPath eid)).1 else t.bytes) = v
      split
      · exact q.length_abort _
      · exact q.length_segment _

theorem length_applyWrite (s : State) (eid : Option Byte) (q : Request) (bytes : List Byte) (total : Nat) (one : Bool) :
    (s.applyWrite eid q bytes total one).2.2.length = 72 := by
  unfold State.applyWrite
  generalize (if bytes.length = total ∧ one then bytes else List.replicate 9 0) = v
  dsimp only
  split
  · exact q.length_done
  · exact q.length_abort _

theorem length_serveWrite (s : State) (eid : Option Byte) (q : Request) : (s.serveWrite eid q).2.2.length = 72 := by
  unfold State.serveWrite
  dsimp only
  split
  · split
    · exact length_applyWrite _ _ _ _ _ _
    · exact q.length_done
  · split
    · exact q.length_abort _
    · split
      · exact length_applyWrite _ _ _ _ _ _
      · exact q.length_done

/-- Every response is a frame of 72 bytes. -/
theorem length_serve (s : State) (eid : Option Byte) (frame : List Byte) : (s.serve eid frame).2.length = 72 := by
  rw [State.serve_eq]
  dsimp only
  split
  · exact Request.length_abort _ _
  split
  · exact Request.length_abort _ _
  split
  · exact Request.length_abort _ _
  · show (s.served eid _).2.2.length = 72
    rw [State.served]
    split
    · exact length_serveRead _ _ _
    · split
      · exact length_serveWrite _ _ _
      · exact Request.length_done _

/-! ### The cycle that serves a request -/

section
variable (s : State)

/-- The unit in a TCLK cycle before the access that it serves. -/
def State.beforeRequest (s : State) : State := s.ticked.ringCycle.rollSetsDue

theorem State.tick_eq : s.tick = s.beforeRequest.nextRequest := by
  unfold State.tick
  dsimp only
  rw [s.countCycles_frame]
  by_cases hr : s.pw.state = .run
  · simp [State.modTb, State.ticked, hr, State.beforeRequest]
  · have hf : (s.pw.state == .run) = false := by simpa using hr
    simp [State.modTb, State.modFt, State.ticked, hr, hf, State.beforeRequest]

theorem State.portCycle_answers (c : Scope) : (s.portCycle c).out.mg = s.out.mg := by
  by_cases hb : s.boot = .otpLoad
  · rw [State.portCycle_otp s c hb]
  · by_cases h : s.pw.state = .halt
    · rw [State.portCycle_halt s c hb h]
    · rw [State.portCycle_runs s c hb h]
      cases c <;> rfl

theorem State.ringCycle_answers : s.ringCycle.out.mg = s.out.mg := by
  rw [State.ringCycle, State.portCycle_answers, State.portCycle_answers]

theorem State.rollSetsDue_mg : (s.rollSetsDue.mg, s.rollSetsDue.out, s.rollSetsDue.boot) = (s.mg, s.out, s.boot) := by
  refine foldl_unchanged (fun u => (u.mg, u.out, u.boot)) (fun u w => ?_) _ s
  split
  · rfl
  · rfl

/-- Before its access a cycle changes nothing of management. -/
theorem State.beforeRequest_mg : s.beforeRequest.mg = s.mg ∧ s.beforeRequest.out.mg = s.out.mg ∧ s.beforeRequest.boot = s.boot := by
  obtain ⟨h1, h2, h3⟩ : _ ∧ _ ∧ _ := by simpa only [Prod.mk.injEq] using s.ticked.ringCycle.rollSetsDue_mg
  have hf := s.ticked.ringCycle_frame
  refine ⟨h1.trans ?_, (congrArg Outputs.mg h2).trans (s.ticked.ringCycle_answers.trans rfl), h3.trans ?_⟩
  · rw [hf]
    rfl
  · rw [hf]
    rfl

end

end Sys2Proof.Machine
end

section
/-! The driver window, the management timers, and the requests of the management port. -/
namespace Sys2Proof.Machine
open Sys2Proof Sys2Proof.Claims

section
variable {s : State}

theorem held_of_ne (h : s.boot ≠ .otpLoad) : s.held = false := beq_eq_false_iff_ne.mpr h

theorem held_of_otp (h : s.boot = .otpLoad) : s.held = true := beq_iff_eq.mpr h

/-! ### A waiting request is served -/

/-- The cycle in which the operator's next request is served. -/
theorem State.step_queue {q : Byte × List Byte} {qs : List (Byte × List Byte)} (hp : s.pending = []) (h : s.mg.queue = q :: qs) :
    step s = .next ((s.beforeRequest.modMg fun m => { m with queue := qs, taken := true }).answerFrame q.1 q.2) := by
  have hq : s.beforeRequest.mg.queue = q :: qs := by rw [s.beforeRequest_mg.1, h]
  have hn : s.beforeRequest.nextRequest = (s.beforeRequest.modMg fun m => { m with queue := qs, taken := true }).answerFrame q.1 q.2 := by
    unfold State.nextRequest
    rw [hq]
  rw [step, hp]
  exact congrArg Host.Outcome.next (s.tick_eq.trans hn)

/-- The cycle in which the driver's next frame is served. -/
theorem State.step_asked {f : List Byte} {fs : List (List Byte)} (hp : s.pending = []) (hq : s.mg.queue = []) (ha : s.mg.asked = f :: fs) :
    step s = .next ((s.beforeRequest.modMg fun m => { m with asked := fs, taken := true }).answerDriver f) := by
  have hq' : s.beforeRequest.mg.queue = [] := by rw [s.beforeRequest_mg.1, hq]
  have ha' : s.beforeRequest.mg.asked = f :: fs := by rw [s.beforeRequest_mg.1, ha]
  have hn : s.beforeRequest.nextRequest = (s.beforeRequest.modMg fun m => { m with asked := fs, taken := true }).answerDriver f := by
    unfold State.nextRequest
    rw [hq', ha']
  rw [step, hp]
  exact congrArg Host.Outcome.next (s.tick_eq.trans hn)

/-- A frame of the driver answered: its response stands in RESP and on the record, and the rest of the window is as it was. -/
theorem answerDriver_spec (s : State) (f : List Byte) :
    let t := s.answerDriver f
    t.mg = { (s.serve none f).1.mg with ready := true, resp := (s.serve none f).2 } ∧ t.mg.asked = s.mg.asked ∧ t.mg.taken = s.mg.taken
      ∧ t.mg.busy = s.mg.busy ∧ t.mg.req = s.mg.req ∧ t.out.mg = s.out.mg ++ [(none, t.mg.resp)] := by
  have h : (s.serve none f).1.carrier = s.carrier := Carried.serve s none f
  exact ⟨rfl, congrArg Carrier.asked h, congrArg Carrier.taken h, congrArg Carrier.busy h, congrArg Carrier.req h,
    congrArg (· ++ [(none, (s.serve none f).2)]) (congrArg Carrier.answers h)⟩

/-- A request of the management port answered. -/
theorem answerFrame_spec (s : State) (eid : Byte) (f : List Byte) :
    let t := s.answerFrame eid f
    t.mg.queue = s.mg.queue ∧ t.mg.taken = s.mg.taken ∧ t.out.mg = s.out.mg ++ [(some eid, (s.serve (some eid) f).2)] := by
  have h : (s.serve (some eid) f).1.carrier = s.carrier := Carried.serve s (some eid) f
  exact ⟨congrArg Carrier.queue h, congrArg Carrier.taken h,
    congrArg (· ++ [(some eid, (s.serve (some eid) f).2)]) (congrArg Carrier.answers h)⟩

/-! ### The driver window (R354) -/

theorem doorbell_idle (hb : s.boot ≠ .otpLoad) (h : s.mg.busy = false) :
    s.doorbell 1 = { s with mg := { s.mg with busy := true, asked := s.mg.asked ++ [s.mg.req] } } := by
  rw [State.doorbell, held_of_ne hb, h, if_neg Bool.false_ne_true, if_neg Bool.false_ne_true, if_neg (by simp)]
  rfl

theorem release_one (hb : s.boot ≠ .otpLoad) : s.release 1 = { s with mg := { s.mg with busy := false, ready := false } } := by
  rw [State.release, held_of_ne hb, if_pos ⟨rfl, rfl⟩]
  rfl

/-- A word of REQ written. -/
theorem driverWindowWrite_idle {offset : BitVec 10} (value : W32) (hb : s.boot ≠ .otpLoad) (ho : offset.toNat < 18)
    (h : s.mg.busy = false) : s.driverWindowWrite offset value = { s with mg := { s.mg with
      req := s.mg.req.take (4 * offset.toNat) ++ leBytes 4 value.toNat ++ s.mg.req.drop (4 * offset.toNat + 4) } } := by
  have hi : ¬ 0x48 ≤ 4 * offset.toNat := by omega
  unfold State.driverWindowWrite
  dsimp only
  rw [held_of_ne hb, Bool.false_or, if_neg (by simpa using hi), if_neg (by simp [h])]
  rfl

theorem driverWindowWrite_busy {offset : BitVec 10} (value : W32) (hb : s.boot ≠ .otpLoad) (ho : offset.toNat < 18)
    (h : s.mg.busy = true) : s.driverWindowWrite offset value = s.discardWrite := by
  have hi : ¬ 0x48 ≤ 4 * offset.toNat := by omega
  unfold State.driverWindowWrite
  dsimp only
  rw [held_of_ne hb, h, Bool.false_or, if_neg (by simpa using hi), if_pos rfl]

theorem getD_leBytes (n : Nat) : ∀ v i, i < n → (leBytes n v).getD i 0 = BitVec.ofNat 8 (v / 256 ^ i) := by
  induction n with
  | zero => exact fun v i h => absurd h (Nat.not_lt_zero i)
  | succ n ih =>
    intro v i h
    cases i with
    | zero => simp [leBytes]
    | succ i =>
      rw [leBytes, List.getD_cons_succ, ih _ _ (by omega), Nat.div_div_eq_div_mul, ← pow_succ']

/-- Byte `k` of a word. -/
theorem byte_of_word {n : Nat} (v : BitVec n) (k : Nat) : BitVec.ofNat 8 (v.toNat / 256 ^ k) = (v >>> (8 * k)).setWidth 8 := by
  apply BitVec.eq_of_toNat_eq
  rw [BitVec.toNat_ofNat, BitVec.toNat_setWidth, BitVec.toNat_ushiftRight, Nat.shiftRight_eq_div_pow, show (256 : Nat) = 2 ^ 8 from rfl, pow_mul]

/-- A word written over four bytes of a list. -/
theorem getD_word_written (bs : List Byte) (a : Nat) (v : W32) (ha : a + 4 ≤ bs.length) (i : Nat) :
    (bs.take a ++ leBytes 4 v.toNat ++ bs.drop (a + 4)).getD i 0 =
      if a ≤ i ∧ i < a + 4 then (v >>> (8 * (i - a))).setWidth 8 else bs.getD i 0 := by
  have hta : (bs.take a).length = a := by rw [List.length_take]; omega
  have htw : (bs.take a ++ leBytes 4 v.toNat).length = a + 4 := by rw [List.length_append, hta, length_leBytes]
  by_cases h4 : i < a + 4
  · rw [List.getD_append _ _ _ _ (by omega)]
    by_cases h0 : i < a
    · rw [List.getD_append _ _ _ _ (by omega), if_neg (by omega)]
      simp only [List.getD_eq_getElem?_getD, List.getElem?_take_of_lt h0]
    · rw [List.getD_append_right _ _ _ _ (by omega), hta, getD_leBytes 4 _ _ (by omega), byte_of_word, if_pos (by omega)]
  · rw [List.getD_append_right _ _ _ _ (by omega), htw, if_neg (by omega)]
    simp only [List.getD_eq_getElem?_getD, List.getElem?_drop]
    rw [show a + 4 + (i - (a + 4)) = i by omega]

/-- A violation leaves management but for its counts and its partner. -/
theorem violation_frame (s : State) (eid : Option Byte) (tid code : W16) : ∃ ps led ev, s.violation eid tid code = { s with
    mg := { s.mg with partners := ps, violations := satAdd s.mg.violations 1 }, ledger := led, evRings := ev } := by
  unfold State.violation
  dsimp only
  split
  · exact ⟨_, _, _, rfl⟩
  · exact ⟨_, _, _, rfl⟩

theorem driverWindowRead_eq (s : State) (offset : BitVec 10) : s.driverWindowRead offset =
    if s.boot = .otpLoad then 0
    else if offset.toNat = 0x13 then BitVec.ofNat 32 (s.mg.busy.toNat + 2 * s.mg.ready.toNat)
    else if 0x20 ≤ offset.toNat ∧ offset.toNat < 0x32 then BitVec.ofNat 32 (leAt s.mg.resp (4 * (offset.toNat - 0x20)) 4) else 0 := by
  unfold State.driverWindowRead
  dsimp only
  refine if_congr (by simp [State.held]) rfl (if_congr (by omega) rfl ?_)
  by_cases h : 0x20 ≤ offset.toNat ∧ offset.toNat < 0x32
  · rw [if_pos (by omega), if_pos h, show 4 * offset.toNat - 0x80 = 4 * (offset.toNat - 0x20) by omega]
  · rw [if_neg (by omega), if_neg h]

/-! ### Timers (R352, R356) -/

theorem transactionTimeout_spec (s : State) :
    (∀ p ∈ s.transactionTimeout.mg.partners, ∀ x ∈ p.open_, x.overdue s.gc = false)
    ∧ s.transactionTimeout = { s with mg := { s.mg with
        partners := s.transactionTimeout.mg.partners, timeouts := s.transactionTimeout.mg.timeouts } } := by
  refine ⟨fun p hp x hx => ?_, rfl⟩
  obtain ⟨p', _, rfl⟩ := List.mem_map.mp hp
  obtain ⟨_, h⟩ := List.mem_filter.mp hx
  simpa using h

theorem rateWindow_new (h : s.mg.window < s.gc.toNat / 1000000000) : s.rateWindow = { s with mg := { s.mg with
    window := s.gc.toNat / 1000000000, partners := s.mg.partners.map fun p => { p with violations := 0, limited := false } } } := by
  unfold State.rateWindow
  generalize s.gc.toNat / 1000000000 = w at h ⊢
  exact if_neg (Nat.not_le.mpr h)

end

/-! ### A unit held in reset (R434) -/

theorem exec_held {s : State} (h : s.boot = .otpLoad) {c : Instr}
    (hc : (∃ eid frame, c = .frameRead eid frame ∨ c = .frameWrite eid frame ∨ c = .frameCancel eid frame)
      ∨ (∃ v o, c = .doorbell v ∨ c = .release v ∨ c = .driverWindowWrite o v) ∨ (∃ path, c = .statementRead path)) :
    exec c s = .next s := by
  have hh := held_of_otp h
  have hf (eid : Byte) (frame : List Byte) : s.frame eid frame = s := by rw [State.frame, hh, if_pos rfl]
  obtain ⟨eid, frame, rfl | rfl | rfl⟩ | ⟨v, o, rfl | rfl | rfl⟩ | ⟨path, rfl⟩ := hc
  · exact congrArg Host.Outcome.next (hf eid frame)
  · exact congrArg Host.Outcome.next (hf eid frame)
  · exact congrArg Host.Outcome.next (hf eid frame)
  · refine congrArg Host.Outcome.next ?_
    rw [State.doorbell, hh, if_pos rfl]
  · refine congrArg Host.Outcome.next ?_
    rw [State.release, hh, if_neg (by simp)]
  · refine congrArg Host.Outcome.next ?_
    unfold State.driverWindowWrite
    dsimp only
    rw [hh, Bool.true_or, if_pos rfl]
  · refine congrArg Host.Outcome.next ?_
    rw [State.statementRead, hh, if_pos rfl]

/-- Settles O55: the window's writes change the window alone, and a frame that waits is served at the end of a cycle in which the operator's
queue is empty. -/
theorem driverWindowAndTimers : Obligations.DriverWindowAndTimers := by
  unfold Obligations.DriverWindowAndTimers
  refine ⟨fun s hb h => congrArg Host.Outcome.next (doorbell_idle hb h), fun f fs s hp hq ha => ?_,
    fun s hb => congrArg Host.Outcome.next (release_one hb), fun c s h hc => exec_held h hc, fun offset value s hb ho hl => ⟨fun h => ?_, fun h => ?_⟩,
    fun offset s => driverWindowRead_eq s offset, fun s => ?_, fun s h => congrArg Host.Outcome.next (rateWindow_new h)⟩
  · obtain ⟨hm, hout, _⟩ := s.beforeRequest_mg
    have hbusy : s.beforeRequest.mg.busy = s.mg.busy := congrArg Mgmt.busy hm
    have hreq : s.beforeRequest.mg.req = s.mg.req := congrArg Mgmt.req hm
    obtain ⟨h1, h2, h3, h4, h5, h6⟩ := answerDriver_spec (s.beforeRequest.modMg fun m => { m with asked := fs, taken := true }) f
    exact ⟨_, State.step_asked hp hq ha, h2, h3, congrArg Mgmt.ready h1, h4.trans hbusy,
      (congrArg (fun m : Mgmt => m.resp.length) h1).trans (length_serve _ _ _), h6.trans (congrArg (· ++ _) hout), h5.trans hreq⟩
  · refine ⟨_, congrArg Host.Outcome.next (driverWindowWrite_idle value hb ho h), fun i _ => ?_, rfl⟩
    exact getD_word_written s.mg.req (4 * offset.toNat) value (by omega) i
  · obtain ⟨ps, led, ev, e⟩ := violation_frame (s.modMg fun m => { m with discards := satAdd m.discards 1 }) none 0 0
    exact ⟨_, congrArg Host.Outcome.next ((driverWindowWrite_busy value hb ho h).trans e), rfl, rfl, rfl, h, rfl⟩
  · obtain ⟨h1, h2⟩ := transactionTimeout_spec s
    refine ⟨_, rfl, fun p hp x hx => ?_, h2⟩
    have h := h1 p hp x hx
    rw [Transaction.overdue, decide_eq_false_iff_not, Nat.not_le] at h
    exact h

end Sys2Proof.Machine
end

section
/-! Requests of both carriers: those that are turned away, and those that are served. -/
namespace Sys2Proof.Machine
open Sys2Proof Sys2Proof.Claims

/-! ### Partners -/

section
variable {s : State} {eid : Option Byte}

theorem partner_eid : (s.partner eid).eid = eid := by
  rw [State.partner]
  cases h : s.mg.partners.find? fun p => p.eid == eid with
  | none => rfl
  | some p => exact beq_iff_eq.mp (List.find?_some (p := fun p : Partner => p.eid == eid) h)

/-- A partner changed, and no other. -/
theorem modPartner_spec {f : Partner → Partner} (hf : ∀ p, (f p).eid = p.eid) :
    (∃ ps, s.modPartner eid f = { s with mg := { s.mg with partners := ps } } ∧ ∀ p ∈ ps, p.eid ≠ eid → p ∈ s.mg.partners)
    ∧ (s.modPartner eid f).partner eid = f (s.partner eid) := by
  have he : (f (s.partner eid)).eid = eid := (hf _).trans partner_eid
  refine ⟨⟨_, rfl, fun p hp hne => ?_⟩, ?_⟩
  · by_cases hany : (s.mg.partners.any fun x => x.eid == eid) = true
    · rw [if_pos hany] at hp
      obtain ⟨x, hx, rfl⟩ := List.mem_map.mp hp
      by_cases hxe : (x.eid == eid) = true
      · rw [if_pos hxe] at hne
        exact absurd he hne
      · rwa [if_neg hxe]
    · rw [if_neg hany] at hp
      obtain hp | hp := List.mem_append.mp hp
      · exact hp
      · rw [List.mem_singleton.mp hp] at hne
        exact absurd he hne
  · show (List.find? (fun x => x.eid == eid) (if s.mg.partners.any fun x => x.eid == eid then
      s.mg.partners.map fun x => if x.eid == eid then f (s.partner eid) else x else s.mg.partners ++ [f (s.partner eid)])).getD _ = _
    have hfe : ((f (s.partner eid)).eid == eid) = true := beq_iff_eq.mpr he
    by_cases hany : (s.mg.partners.any fun x => x.eid == eid) = true
    · rw [if_pos hany]
      have hfind (ps : List Partner) (h : (ps.any fun x => x.eid == eid) = true) :
          (ps.map fun x => if x.eid == eid then f (s.partner eid) else x).find? (fun x => x.eid == eid) = some (f (s.partner eid)) := by
        induction ps with
        | nil => cases h
        | cons x xs ih =>
          by_cases hx : (x.eid == eid) = true
          · rw [List.map_cons, if_pos hx, List.find?_cons, hfe]
          · rw [List.map_cons, if_neg hx, List.find?_cons, Bool.eq_false_of_not_eq_true hx]
            exact ih (by simpa [hx] using h)
      rw [hfind _ hany]
      rfl
    · rw [if_neg hany, List.find?_append, List.find?_eq_none.mpr (by simpa using hany), Option.none_or, List.find?_cons, hfe]
      rfl

end

/-! ### A frame of the management port (R353) -/

section
variable {s : State} {eid : Byte} {frame : List Byte}

theorem exec_frame {c : Instr} (h : c = .frameRead eid frame ∨ c = .frameWrite eid frame ∨ c = .frameCancel eid frame) :
    exec c s = .next (s.frame eid frame) := by
  obtain rfl | rfl | rfl := h <;> rfl

/-- The first request of a cycle is served. -/
theorem State.frame_now (hb : s.boot = .ready) (ht : s.mg.taken = false) (hq : s.mg.queue = []) :
    s.frame eid frame = s.nowTaken.answerFrame eid frame := by
  rw [State.frame, held_of_ready hb, if_neg Bool.false_ne_true, ht, hq, if_pos (by simp)]
  rfl

section
variable (hb : s.boot ≠ .otpLoad) (h : s.mg.taken = true ∨ s.mg.queue ≠ [])
include hb h

theorem frame_not_now : s.frame eid frame = if s.mg.queue.length < 8 then s.modMg fun m => { m with queue := m.queue ++ [(eid, frame)] }
    else s.queueFullAnswer eid frame := by
  have hn : ¬ (!s.mg.taken && s.mg.queue.isEmpty) = true := by
    rcases h with h | h <;> simp [h]
  rw [State.frame, held_of_ne hb, if_neg Bool.false_ne_true, if_neg hn]

end

/-! ### Requests that are turned away (R347, R349, R356) -/

variable {p : Option Byte}

theorem State.serve_limited (hb : s.boot = .ready) (hl : (s.partner p).limited = true) : s.serve p frame =
    (s.modMg fun m => { m with aborts := satAdd m.aborts 1, limited := satAdd m.limited 1 }, (Request.ofBytes (padTo 72 frame)).abort 0xA00C) := by
  rw [State.serve_eq]
  dsimp only
  rw [odReady_of hb, if_neg (by simp), if_pos hl]

theorem State.serve_malformed (hb : s.boot = .ready) (hl : (s.partner p).limited = false)
    (hm : (Request.ofBytes (padTo 72 frame)).malformed frame.length = true) : ∃ ps led ev, s.serve p frame = ({ s with
      mg := { s.mg with
        partners := ps, served := satAdd s.mg.served 1, aborts := satAdd s.mg.aborts 1, violations := satAdd s.mg.violations 1 }
      ledger := led, evRings := ev }, (Request.ofBytes (padTo 72 frame)).abort 0xA009) := by
  obtain ⟨ps, led, ev, hv⟩ := violation_frame (s.countAccess 0xA009) p (Request.ofBytes (padTo 72 frame)).tid 0xA009
  refine ⟨ps, led, ev, ?_⟩
  rw [State.serve_eq]
  dsimp only
  rw [odReady_of hb, if_neg (by simp), hl, if_neg Bool.false_ne_true, if_pos hm, hv]
  rfl

theorem State.serve_wellFormed (hb : s.boot = .ready) (hl : (s.partner p).limited = false) {q : Request} (hq : Request.ofBytes frame = q)
    (hm : q.malformed frame.length = false) :
    s.serve p frame = ((s.served p q).1.accounted p q (s.served p q).2.1, (s.served p q).2.2) := by
  subst hq
  have h72 : frame.length = 72 := by
    by_contra h
    rw [Request.malformed, bne_iff_ne.mpr h] at hm
    simp at hm
  have hpad : padTo 72 frame = frame := by
    rw [padTo, List.take_of_length_le (by omega), h72]
    exact List.append_nil _
  rw [State.serve_eq, hpad]
  dsimp only
  rw [odReady_of hb, if_neg (by simp), hl, if_neg Bool.false_ne_true, hm, if_neg Bool.false_ne_true]

end

/-! ### The fields of a frame (Table 13.6) -/

theorem leAt_one {bs : List Byte} {i : Nat} (h : i < bs.length) : leAt bs i 1 = (bs.getD i 0).toNat := by
  rw [leAt, slice, List.drop_eq_getElem_cons h, List.take_succ_cons, List.take_zero, leNat, leNat, List.getD_eq_getElem _ _ h, Nat.mul_zero,
    Nat.add_zero]

theorem leAt_two {bs : List Byte} {i : Nat} (h : i + 1 < bs.length) : leAt bs i 2 = (bs.getD i 0).toNat + 256 * (bs.getD (i + 1) 0).toNat := by
  have hi : i < bs.length := Nat.lt_of_succ_lt h
  rw [leAt, slice, List.drop_eq_getElem_cons hi, List.drop_eq_getElem_cons h, List.take_succ_cons, List.take_succ_cons, List.take_zero,
    leNat, leNat, leNat, List.getD_eq_getElem _ _ h, List.getD_eq_getElem _ _ hi, Nat.mul_zero, Nat.add_zero]

theorem getD_padTo {n i : Nat} (bs : List Byte) (h : i < n) : (padTo n bs).getD i 0 = bs.getD i 0 := by
  rw [padTo]
  by_cases hi : i < bs.length
  · rw [List.getD_append _ _ _ _ (by rw [List.length_take]; omega)]
    simp only [List.getD_eq_getElem?_getD, List.getElem?_take_of_lt h]
  · rw [List.getD_append_right _ _ _ _ (by rw [List.length_take]; omega)]
    rw [List.getD_replicate 0 (by rw [List.length_take]; omega), List.getD_eq_default _ _ (Nat.not_lt.mp hi)]

/-- A response as its bytes. -/
theorem respond_eq (q : Request) (last : Bool) (total status : Nat) (bytes : List Byte) : q.respond last total status bytes =
    [BitVec.ofNat 8 q.version, BitVec.ofNat 8 q.op, BitVec.ofNat 8 q.tid.toNat, BitVec.ofNat 8 (q.tid.toNat / 256),
      BitVec.ofNat 8 q.index.toNat, BitVec.ofNat 8 (q.index.toNat / 256), q.sub, BitVec.ofNat 8 (128 + 64 * last.toNat)]
    ++ leBytes 4 total ++ [BitVec.ofNat 8 q.seg, BitVec.ofNat 8 (q.seg / 256), BitVec.ofNat 8 bytes.length, BitVec.ofNat 8 status]
    ++ padTo 56 bytes := by
  simp [Request.respond, leBytes]

/-- What a malformed frame looks like (R349). -/
def badFrame (frame : List Byte) : Prop :=
  let b (i : Nat) : Nat := (frame.getD i 0).toNat
  frame.length ≠ 72 ∨ b 0 ≠ 1 ∨ (b 1 ≠ 1 ∧ b 1 ≠ 2 ∧ b 1 ≠ 3) ∨ 128 ≤ b 7 ∨ b 7 % 64 ≠ 0 ∨ b 15 ≠ 0 ∨ 56 < b 14

section
variable (frame : List Byte)

theorem leAt_padTo_one {i : Nat} (h : i < 72) : leAt (padTo 72 frame) i 1 = (frame.getD i 0).toNat := by
  rw [leAt_one (by rw [length_padTo]; exact h), getD_padTo _ h]

theorem leAt_padTo_two {i : Nat} (h : i + 1 < 72) :
    leAt (padTo 72 frame) i 2 = (frame.getD i 0).toNat + 256 * (frame.getD (i + 1) 0).toNat := by
  rw [leAt_two (by rw [length_padTo]; exact h), getD_padTo _ h, getD_padTo _ (Nat.lt_of_succ_lt h)]

theorem malformed_iff : (Request.ofBytes (padTo 72 frame)).malformed frame.length = true ↔ badFrame frame := by
  have h (i : Nat) (hi : i < 72) := leAt_padTo_one frame hi
  simp only [Request.malformed, Request.ofBytes, h 0 (by decide), h 1 (by decide), h 7 (by decide), h 14 (by decide), h 15 (by decide), badFrame]
  generalize (frame.getD 0 0).toNat = v0
  generalize (frame.getD 1 0).toNat = v1
  simp only [Bool.or_eq_true, bne_iff_ne, ne_eq, Bool.not_eq_true', Bool.or_eq_false_iff, beq_eq_false_iff_ne, decide_eq_true_eq, or_assoc,
    and_assoc]

theorem byte_low (a b : Byte) : BitVec.ofNat 8 (a.toNat + 256 * b.toNat) = a := by
  apply BitVec.eq_of_toNat_eq
  have := a.isLt
  rw [BitVec.toNat_ofNat]
  omega

theorem byte_high (a b : Byte) : BitVec.ofNat 8 ((a.toNat + 256 * b.toNat) / 256) = b := by
  apply BitVec.eq_of_toNat_eq
  have := a.isLt
  have := b.isLt
  rw [BitVec.toNat_ofNat]
  omega

theorem word_of_bytes (a b : Byte) : (BitVec.ofNat 16 (a.toNat + 256 * b.toNat)).toNat = a.toNat + 256 * b.toNat := by
  have := a.isLt
  have := b.isLt
  rw [BitVec.toNat_ofNat]
  omega

/-- The abort of a malformed request echoes its fields as they arrived. -/
theorem abort_echoes : let resp := (Request.ofBytes (padTo 72 frame)).abort 0xA009
    (∀ i : Nat, i < 7 → resp.getD i 0 = frame.getD i 0) ∧ resp.getD 7 0 = 0x80 ∧ resp.getD 12 0 = frame.getD 12 0
      ∧ resp.getD 13 0 = frame.getD 13 0 ∧ resp.getD 14 0 = 2 ∧ resp.getD 15 0 = 1 ∧ resp.getD 16 0 = 0x09 ∧ resp.getD 17 0 = 0xA0 := by
  have h (i : Nat) (hi : i < 72) := leAt_padTo_one frame hi
  have h2 (i : Nat) (hi : i + 1 < 72) := leAt_padTo_two frame hi
  have hone (b : Byte) : BitVec.ofNat 8 b.toNat = b := by rw [BitVec.ofNat_toNat, BitVec.setWidth_eq]
  intro resp
  have hr : resp = (Request.ofBytes (padTo 72 frame)).abort 0xA009 := rfl
  rw [Request.abort, respond_eq] at hr
  simp only [Request.ofBytes, h 0 (by decide), h 1 (by decide), h 6 (by decide), h2 2 (by decide), h2 4 (by decide), h2 12 (by decide),
    word_of_bytes, byte_low, byte_high, hone] at hr
  rw [hr]
  refine ⟨fun i hi => ?_, rfl, rfl, rfl, rfl, rfl, rfl, rfl⟩
  interval_cases i <;> rfl

end

/-- What the abort of a malformed request is. -/
def AbortOf (frame resp : List Byte) : Prop := resp.length = 72 ∧ (∀ i : Nat, i < 7 → resp.getD i 0 = frame.getD i 0)
  ∧ resp.getD 7 0 = 0x80 ∧ resp.getD 12 0 = frame.getD 12 0 ∧ resp.getD 13 0 = frame.getD 13 0
  ∧ resp.getD 14 0 = 2 ∧ resp.getD 15 0 = 1 ∧ resp.getD 16 0 = 0x09 ∧ resp.getD 17 0 = 0xA0

theorem abortOf (frame : List Byte) : AbortOf frame ((Request.ofBytes (padTo 72 frame)).abort 0xA009) :=
  ⟨Request.length_abort _ _, abort_echoes frame⟩

section
variable {s : State} {p : Option Byte} {frame : List Byte}

/-- A malformed request is counted and aborted. -/
theorem serve_badFrame (hb : s.boot = .ready) (hl : (s.partner p).limited = false) (hm : badFrame frame) :
    ∃ ps led ev resp, s.serve p frame = ({ s with
      mg := { s.mg with
        partners := ps, served := satAdd s.mg.served 1, aborts := satAdd s.mg.aborts 1, violations := satAdd s.mg.violations 1 }
      ledger := led, evRings := ev }, resp) ∧ AbortOf frame resp := by
  obtain ⟨ps, led, ev, e⟩ := State.serve_malformed hb hl ((malformed_iff frame).mpr hm)
  exact ⟨ps, led, ev, _, e, abortOf frame⟩

/-- In the cycle that serves it, a partner stands as before. -/
theorem partner_beforeRequest (s : State) (f : Mgmt → Mgmt) (hf : ∀ m, (f m).partners = m.partners) :
    (s.beforeRequest.modMg f).partner p = s.partner p := by
  have h : (s.beforeRequest.modMg f).mg.partners = s.mg.partners := (hf _).trans (congrArg Mgmt.partners s.beforeRequest_mg.1)
  rw [State.partner, h, State.partner]

end

/-- Settles O53: a malformed frame is aborted before it is looked at further, and a limited partner before that. -/
theorem malformedRequestsAreAborted : Obligations.MalformedRequestsAreAborted := by
  unfold Obligations.MalformedRequestsAreAborted
  intro malformed aborted counted
  refine ⟨fun c eid frame s hc hb hl ht hq hm => ?_, fun frame fs s hp hb hq ha hl hm => ?_, fun eid frame qs s hp hb hq hl hm => ?_,
    fun c eid frame s hc hb hl ht hq => ?_, fun frame fs s hp hb hq ha hl => ?_⟩
  · obtain ⟨ps, led, ev, resp, e, hr⟩ := serve_badFrame (s := s.nowTaken) hb hl hm
    have h : s.nowTaken.answerFrame eid frame = _ := congrArg (fun r : State × List Byte =>
      r.1.modOut fun o => { o with mg := o.mg ++ [(some eid, r.2)] }) e
    exact ⟨_, resp, (exec_frame hc).trans (congrArg Host.Outcome.next ((State.frame_now hb ht hq).trans h)), rfl, hr, ⟨rfl, rfl⟩, rfl⟩
  · obtain ⟨hmg, hout, hboot⟩ := s.beforeRequest_mg
    obtain ⟨ps, led, ev, resp, e, hr⟩ := serve_badFrame (s := s.beforeRequest.modMg fun m => { m with asked := fs, taken := true })
      (hboot.trans hb) ((congrArg Partner.limited (partner_beforeRequest s _ fun _ => rfl)).trans hl) hm
    have h : State.answerDriver (s.beforeRequest.modMg fun m => { m with asked := fs, taken := true }) frame = _ :=
      congrArg (fun r : State × List Byte =>
        (r.1.modMg fun m => { m with resp := r.2, ready := true }).modOut fun o => { o with mg := o.mg ++ [(none, r.2)] }) e
    refine ⟨_, (State.step_asked hp hq ha).trans (congrArg Host.Outcome.next h), congrArg (· ++ [(none, resp)]) hout, hr, ?_⟩
    rw [← hmg]
    rfl
  · obtain ⟨hmg, hout, hboot⟩ := s.beforeRequest_mg
    obtain ⟨ps, led, ev, resp, e, hr⟩ := serve_badFrame (s := s.beforeRequest.modMg fun m => { m with queue := qs, taken := true })
      (hboot.trans hb) ((congrArg Partner.limited (partner_beforeRequest s _ fun _ => rfl)).trans hl) hm
    have h : State.answerFrame (s.beforeRequest.modMg fun m => { m with queue := qs, taken := true }) eid frame = _ :=
      congrArg (fun r : State × List Byte => r.1.modOut fun o => { o with mg := o.mg ++ [(some eid, r.2)] }) e
    refine ⟨_, resp, (State.step_queue hp hq).trans (congrArg Host.Outcome.next h), congrArg (· ++ [(some eid, resp)]) hout, hr, rfl, rfl, ?_⟩
    rw [← hmg]
    exact ⟨rfl, rfl, rfl⟩
  · have e := State.serve_limited (s := s.nowTaken) (frame := frame) hb hl
    have h : s.nowTaken.answerFrame eid frame = _ := congrArg (fun r : State × List Byte =>
      r.1.modOut fun o => { o with mg := o.mg ++ [(some eid, r.2)] }) e
    exact (exec_frame hc).trans (congrArg Host.Outcome.next ((State.frame_now hb ht hq).trans h))
  · obtain ⟨hmg, hout, hboot⟩ := s.beforeRequest_mg
    have e := State.serve_limited (s := s.beforeRequest.modMg fun m => { m with asked := fs, taken := true }) (frame := frame)
      (hboot.trans hb) ((congrArg Partner.limited (partner_beforeRequest s _ fun _ => rfl)).trans hl)
    have h : State.answerDriver (s.beforeRequest.modMg fun m => { m with asked := fs, taken := true }) frame = _ :=
      congrArg (fun r : State × List Byte =>
        (r.1.modMg fun m => { m with resp := r.2, ready := true }).modOut fun o => { o with mg := o.mg ++ [(none, r.2)] }) e
    refine ⟨_, (State.step_asked hp hq ha).trans (congrArg Host.Outcome.next h), congrArg (· ++ [(none, _)]) hout, ?_⟩
    rw [← hmg]
    rfl

/-! ### Requests that are served (R350 to R352) -/

/-- The codes that no access of the dictionary gives. -/
def astray (k : W16) : Prop := k = 0xA00A ∨ k = 0xA00B

theorem not_astray {k : W16} (h : k = 0 ∨ k = 0xA001 ∨ k = 0xA002 ∨ k = 0xA003 ∨ k = 0xA004 ∨ k = 0xA005 ∨ k = 0xA006 ∨ k = 0xA007
    ∨ k = 0xA008 ∨ k = 0xA00D ∨ k = 0xA00E ∨ k = 0xA00F) : ¬ astray k := by
  unfold astray
  rcases h with h | h | h | h | h | h | h | h | h | h | h | h <;> subst h <;> decide

theorem readChecks_known (path : Path) (index sub : Nat) : ¬ astray (readChecks path index sub) := by
  unfold readChecks
  split
  · exact not_astray (by simp)
  · split
    · exact not_astray (by simp)
    · split
      · exact not_astray (by simp)
      · split
        · exact not_astray (by simp)
        · exact not_astray (by simp)

/-- A value that is given, or refused with a code that the dictionary knows. -/
def Known (e : Except W16 (List Byte)) : Prop := ∀ k, e = .error k → ¬ astray k

namespace Known

theorem ok (v : List Byte) : Known (.ok v) := fun _ h => by cases h

theorem error {k : W16} (h : ¬ astray k) : Known (.error k) := fun _ e => Except.error.inj e ▸ h

theorem ite {p : Prop} [Decidable p] {a b : Except W16 (List Byte)} (ha : Known a) (hb : Known b) : Known (if p then a else b) := by
  split
  · exact ha
  · exact hb

theorem odLedger (s : State) (path : Path) (sub : Nat) : Known (s.odLedger path sub) := by
  unfold State.odLedger
  split
  · exact ok _
  · exact ok _
  · exact ok _
  · split
    · exact ok _
    · exact error (not_astray (by simp))

theorem odReceipts (s : State) (path : Path) (sub : Nat) : Known (s.odReceipts path sub) := by
  unfold State.odReceipts
  split
  · exact ok _
  · exact ok _
  · exact ok _
  · exact ok _
  · unfold State.odReceipt
    split
    · exact error (not_astray (by simp))
    · exact ite (error (not_astray (by simp))) (ok _)
  · exact ok _

theorem odValue (s : State) (path : Path) (strict : Bool) (index sub : Nat) : Known (s.odValue path strict index sub) := by
  unfold State.odValue
  refine ite (ok _) (ite (ok _) (ite (ok _) (ite (ok _) (ite (ok _) (ite (ok _) (ite (ok _) (ite (ok _) (ite (ok _) (ite (ok _) (ite (ok _)
    (ite (ok _) (ite (ok _) (ite (ok _) (ite (ok _) (ite (ok _) (ite (ok _) (ite (ok _) (ite (ok _) (ite (ok _) (ite (ok _) (ite (ok _)
    (ite (odLedger s _ _) (ite (ok _) (ite (odReceipts s _ _) (ite (ok _) (ok _))))))))))))))))))))))))))

end Known

theorem odRead_known (s : State) (path : Path) (strict : Bool) (index sub : Nat) : ¬ astray (s.odRead path strict index sub).2.1 := by
  have hv (u : State) {e : Except W16 (List Byte)} (h : Known e) : ¬ astray (u.valued e).2.1 := by
    cases e with
    | error k => exact h k rfl
    | ok v => exact not_astray (by simp [State.valued])
  rw [State.odRead_eq]
  split
  · exact not_astray (by simp)
  split
  · exact readChecks_known _ _ _
  split
  · exact hv _ (Known.odValue _ _ _ _ _)
  · exact hv _ (Known.odValue _ _ _ _ _)

theorem not_astray_ite {p : Prop} [Decidable p] {a b : W16} (ha : ¬ astray a) (hb : ¬ astray b) : ¬ astray (if p then a else b) := by
  split
  · exact ha
  · exact hb

theorem zero_known : ¬ astray 0 := not_astray (by simp)
theorem hwst_known : ¬ astray 0xA006 := not_astray (by simp)
theorem range_known : ¬ astray 0xA007 := not_astray (by simp)

theorem writableNow_known (s : State) (path : Path) (index sub v : Nat) : ¬ astray (s.writableNow path index sub v) := by
  have h06 : ∀ (p : Prop) [Decidable p], ¬ astray (if p then 0xA006 else 0) := fun p _ => not_astray_ite hwst_known zero_known
  have h60 : ∀ (p : Prop) [Decidable p], ¬ astray (if p then 0 else 0xA006) := fun p _ => not_astray_ite zero_known hwst_known
  unfold State.writableNow
  refine not_astray_ite hwst_known (not_astray_ite (h60 _) (not_astray_ite ?_ (not_astray_ite (h06 _) (not_astray_ite (h06 _)
    (not_astray_ite (h06 _) (not_astray_ite (not_astray_ite (h06 _) zero_known) (not_astray_ite ?_ zero_known)))))))
  · split
    · exact h06 _
    · exact h60 _
    · exact not_astray_ite hwst_known (not_astray_ite (not_astray (by simp)) zero_known)
  · split
    · exact h60 _
    · exact range_known

theorem writeChecks_known (s : State) (path : Path) (index sub : Nat) (value : List Byte) : ¬ astray (s.writeChecks path index sub value) := by
  unfold State.writeChecks
  split
  · exact not_astray (by simp)
  · split
    · exact not_astray (by simp)
    · exact not_astray_ite (not_astray (by simp)) (not_astray_ite (not_astray (by simp)) (not_astray_ite (not_astray (by simp))
        (not_astray_ite (not_astray (by simp)) (not_astray_ite (not_astray (by simp)) (not_astray_ite (not_astray (by simp))
          (writableNow_known _ _ _ _ _))))))

/-- A write gives a code that the dictionary knows, and one refused for another reason than a lock or a late switch GC leaves the unit as it
was. -/
theorem odWrite_known (s : State) (path : Path) (index sub : Nat) (value : List Byte) :
    ¬ astray (s.odWrite path index sub value).2
    ∧ ((s.odWrite path index sub value).2 ≠ 0 → (s.odWrite path index sub value).2 ≠ 0xA00D → (s.odWrite path index sub value).2 ≠ 0xA00F →
      (s.odWrite path index sub value).1 = s) := by
  have hc := writeChecks_known s path index sub value
  rw [State.odWrite]
  split
  · exact ⟨hwst_known, fun _ _ _ => rfl⟩
  dsimp only
  split
  · exact ⟨zero_known, fun h => absurd rfl h⟩
  split
  · next h => exact ⟨hc, fun _ hd => absurd h hd⟩
  split
  · next h => exact ⟨hc, fun _ _ hf => absurd h hf⟩
  · exact ⟨hc, fun _ _ _ => rfl⟩

theorem accounted_known {s : State} {p : Option Byte} {q : Request} {k : W16} (h : ¬ astray k) : s.accounted p q k = s.countAccess k :=
  if_neg h

section
variable {s : State} {q : Request} {p : Option Byte}

theorem close_eid (tid : W16) (x : Partner) : (x.close tid).eid = x.eid := rfl

theorem open_eid (t : Transaction) (x : Partner) : (x.open' t).eid = x.eid := rfl

/-- A SEG 0 READ: the answer is the first 56 bytes of the value, or the abort. -/
theorem serveRead_first (hs : q.seg = 0) : let r := s.odRead (partnerPath p) s.ep.cur.strict q.index.toNat q.sub.toNat
    (∃ m, (s.serveRead p q).1 = s.modMg fun _ => m) ∧ (s.serveRead p q).2 =
      (r.2.1, if r.2.1 = 0 then q.respond (decide (r.2.2.length ≤ 56)) r.2.2.length 0 (r.2.2.take 56) else q.abort r.2.1) := by
  intro r
  obtain ⟨m, hm⟩ := s.odRead_frame (partnerPath p) s.ep.cur.strict q.index.toNat q.sub.toNat
  have hseg : q.segment r.2.2 = q.respond (decide (r.2.2.length ≤ 56)) r.2.2.length 0 (r.2.2.take 56) := by
    rw [Request.segment, hs]
    rfl
  unfold State.serveRead
  dsimp only
  rw [if_pos hs]
  by_cases h0 : r.2.1 = 0
  · rw [if_neg (not_not.mpr h0), if_pos h0, h0, ← hseg, hm]
    exact ⟨⟨_, rfl⟩, rfl⟩
  · rw [if_pos h0, if_neg h0, hm]
    exact ⟨⟨_, rfl⟩, rfl⟩

/-- A WRITE of one segment. -/
theorem serveWrite_one (hs : q.seg = 0) (hl : q.last = true) (ht : (q.payload.take q.len).length = q.total) : ∃ ps,
    (∀ x ∈ ps, x.eid ≠ p → x ∈ s.mg.partners) ∧
    (let r := ({ s with mg := { s.mg with partners := ps } } : State).odWrite (partnerPath p) q.index.toNat q.sub.toNat (q.payload.take q.len)
     s.serveWrite p q = (r.1, r.2, if r.2 = 0 then q.done else q.abort r.2)) := by
  let t : Transaction := { tid := q.tid, write := true, index := q.index, sub := q.sub, bytes := q.payload.take q.len, total := q.total, last := 0, gc := s.gc }
  obtain ⟨⟨ps, e1, h1⟩, _⟩ := modPartner_spec (s := s) (eid := p) (open_eid t)
  obtain ⟨⟨ps', e2, h2⟩, _⟩ := modPartner_spec (s := s.modPartner p fun x => x.open' t) (eid := p) (close_eid q.tid)
  refine ⟨ps', fun x hx hne => h1 x ?_ hne, ?_⟩
  · have h := h2 x hx hne
    rw [e1] at h
    exact h
  · have e : (s.modPartner p fun x => x.open' t).modPartner p (fun x => x.close q.tid) = { s with mg := { s.mg with partners := ps' } } := by
      rw [e2, e1]
    have h : s.serveWrite p q = ((s.modPartner p fun x => x.open' t).modPartner p fun x => x.close q.tid).applyWrite p q
        (q.payload.take q.len) q.total true := by
      unfold State.serveWrite
      dsimp only
      rw [if_pos hs, if_pos hl]
    rw [h, e, State.applyWrite, if_pos ⟨ht, rfl⟩]

end

section
variable {s : State} {eid : Byte} {frame : List Byte}

/-- A well-formed request that comes first in its cycle is served and answered at once. -/
theorem State.frame_served (hb : s.boot = .ready) (hl : (s.partner (some eid)).limited = false) (ht : s.mg.taken = false)
    (hq : s.mg.queue = []) {q : Request} (hq' : Request.ofBytes frame = q) (hm : q.malformed frame.length = false)
    (hk : ¬ astray (s.nowTaken.served (some eid) q).2.1) :
    s.frame eid frame = ((s.nowTaken.served (some eid) q).1.countAccess (s.nowTaken.served (some eid) q).2.1).modOut fun o =>
      { o with mg := o.mg ++ [(some eid, (s.nowTaken.served (some eid) q).2.2)] } := by
  have e := State.serve_wellFormed (s := s.nowTaken) (p := some eid) hb hl hq' hm
  rw [accounted_known hk] at e
  rw [State.frame_now hb ht hq, State.answerFrame, e]

end

/-- Settles O54: the first request of a cycle is served at once, others wait or are turned away, and what waits is served in its turn. -/
theorem framesAreServed : Obligations.FramesAreServed := by
  unfold Obligations.FramesAreServed
  refine ⟨fun eid frame s hb hl ht hq => ?_, fun c eid frame s hc hb h => ⟨fun hlen => ?_, fun hlen => ?_⟩, fun q qs s hp hq => ?_⟩
  · intro q hm answers
    refine ⟨fun hop hseg => ?_, fun hop hseg hlast htot => ?_, fun hop => ?_⟩
    · intro r
      have hserved : s.nowTaken.served (some eid) q = s.nowTaken.serveRead (some eid) q := if_pos hop
      obtain ⟨⟨m, e1⟩, e2⟩ := serveRead_first (s := s.nowTaken) (p := some eid) hseg
      have hr : (s.nowTaken.odRead .operator s.ep.cur.strict q.index.toNat q.sub.toNat).2 = r.2 :=
        (congrArg Prod.snd (s.odRead_nowTaken .operator s.ep.cur.strict q.index.toNat q.sub.toNat)).trans rfl
      rw [show (s.nowTaken.odRead (partnerPath (some eid)) s.nowTaken.ep.cur.strict q.index.toNat q.sub.toNat).2 = r.2 from hr] at e2
      have hk : ¬ astray (s.nowTaken.served (some eid) q).2.1 := by
        rw [hserved, e2]
        exact odRead_known _ _ _ _ _
      have e := State.frame_served hb hl ht hq rfl hm hk
      rw [hserved, e1, e2] at e
      exact ⟨_, congrArg Host.Outcome.next e, rfl, rfl⟩
    · have hserved : s.nowTaken.served (some eid) q = s.nowTaken.serveWrite (some eid) q := (if_neg (by omega)).trans (if_pos hop)
      obtain ⟨ps, h1, e1⟩ := serveWrite_one (s := s.nowTaken) (p := some eid) hseg hlast htot
      refine ⟨ps, h1, ?_⟩
      intro u r
      have e1' : s.nowTaken.serveWrite (some eid) q = (r.1, r.2, if r.2 = 0 then q.done else q.abort r.2) := e1
      obtain ⟨hk, hsame⟩ := odWrite_known u .operator q.index.toNat q.sub.toNat (q.payload.take q.len)
      have hk' : ¬ astray (s.nowTaken.served (some eid) q).2.1 := by
        rw [hserved, e1']
        exact hk
      have e := State.frame_served hb hl ht hq rfl hm hk'
      rw [hserved, e1'] at e
      exact ⟨_, congrArg Host.Outcome.next e, rfl, rfl, rfl, rfl, hsame⟩
    · have hserved : s.nowTaken.served (some eid) q = (s.nowTaken.modPartner (some eid) fun p => p.close q.tid, 0, q.done) :=
        (if_neg (by omega)).trans (if_neg (by omega))
      have hk : ¬ astray (s.nowTaken.served (some eid) q).2.1 := by
        rw [hserved]
        exact zero_known
      have e := State.frame_served hb hl ht hq rfl hm hk
      rw [hserved] at e
      have hpartner := (modPartner_spec (s := s.nowTaken) (eid := some eid) (close_eid q.tid)).2
      refine ⟨_, congrArg Host.Outcome.next e, rfl, fun x hx => ?_, rfl⟩
      have hx' : x ∈ ((s.nowTaken.modPartner (some eid) fun p => p.close q.tid).partner (some eid)).open_ := hx
      rw [hpartner] at hx'
      simpa using (List.mem_filter.mp hx').2
  · rw [exec_frame hc, frame_not_now hb h, if_pos hlen]
    rfl
  · rw [exec_frame hc, frame_not_now hb h, if_neg (Nat.not_lt.mpr hlen)]
    rfl
  · obtain ⟨_, hout, _⟩ := s.beforeRequest_mg
    obtain ⟨h1, h2, h3⟩ := answerFrame_spec (s.beforeRequest.modMg fun m => { m with queue := qs, taken := true }) q.1 q.2
    exact ⟨_, _, State.step_queue hp hq, h1, h2, length_serve _ _ _, h3.trans (congrArg (· ++ _) hout)⟩

end Sys2Proof.Machine
end

section
/-! Ranking, extremes and amax registers (Table 1.9, R34, R35, R64, R65). -/
namespace Sys2Proof.Machine
open Sys2Proof Sys2Proof.Claims

theorem isNeg_iff (q : Rat) : Rat.isNeg q = true ↔ q < 0 := by
  rw [Rat.isNeg, decide_eq_true_iff, Rat.num_neg]

theorem isNeg_eq_decide (q : Rat) : Rat.isNeg q = decide (q < 0) := by
  rw [Bool.eq_iff_iff, isNeg_iff, decide_eq_true_iff]

/-! ### The ranking -/

/-- The key of the ranking: class first, then the numbers in falling order. -/
def rankKey (a : Val) : Nat ×ₗ Ratᵒᵈ := toLex ((rankClass a).1, OrderDual.toDual (rankClass a).2)

/-- The ranking is the order of the keys. -/
theorem ranksAbove_iff (a b : Val) : ranksAbove a b = true ↔ rankKey a < rankKey b := by
  rw [rankKey, rankKey, Prod.Lex.toLex_lt_toLex]
  simp [ranksAbove]

theorem ranksAbove_eq_false (a b : Val) : ranksAbove a b = false ↔ rankKey b ≤ rankKey a := by
  rw [← not_lt, ← ranksAbove_iff, Bool.not_eq_true]

theorem rankClass_fin (q : Rat) : rankClass (.fin q) = if q < 0 then (6, q) else (3, q) := by
  simp only [rankClass, isNeg_eq_decide, decide_eq_true_eq]

/-- The value of a class and the number within it. -/
def rankedValue : Nat × Rat → Val
  | (1, _) => .nan
  | (2, _) => .inf false
  | (4, _) => .zero false
  | (5, _) => .zero true
  | (7, _) => .inf true
  | (_, q) => .fin q

theorem rankedValue_rankClass (a : Val) : rankedValue (rankClass a) = a := by
  rcases a with _ | (_ | _) | (_ | _) | q
  case fin =>
    rw [rankClass_fin]
    split_ifs <;> rfl
  all_goals rfl

theorem rankKey_injective : Function.Injective rankKey := by
  intro a b h
  have hc : rankClass a = rankClass b := Prod.ext (congrArg (fun k => (ofLex k).1) h) (congrArg (fun k => (ofLex k).2) h)
  rw [← rankedValue_rankClass a, hc, rankedValue_rankClass]

theorem ranksAbove_fin (p q : Rat) : ranksAbove (.fin p) (.fin q) = true ↔ q < p := by
  simp only [ranksAbove, rankClass_fin]
  split_ifs with hp hq hq <;> simp <;> linarith

/-- The classes of Table 1.9, from the highest. -/
theorem ranksAbove_table {p q : Rat} (hq : 0 < q) (hp : p < 0) :
    ranksAbove .nan (.inf false) ∧ ranksAbove (.inf false) (.fin q) ∧ ranksAbove (.fin q) (.zero false) ∧ ranksAbove (.zero false) (.zero true)
      ∧ ranksAbove (.zero true) (.fin p) ∧ ranksAbove (.fin p) (.inf true) := by
  simp [ranksAbove, rankClass, isNeg_eq_decide, hp, hq.le.not_gt]

/-! ### Maximum and minimum -/

/-- A value that is less by number ranks below. -/
theorem ranksAbove_of_vlt {a b : Val} (ha : a ≠ .fin 0) (hb : b ≠ .fin 0) (h : vlt a b = true) : ranksAbove b a = true := by
  rcases a with _ | (_ | _) | (_ | _) | p <;> rcases b with _ | (_ | _) | (_ | _) | q <;>
    simp_all [vlt, Val.toRat, ranksAbove, rankClass, isNeg_eq_decide] <;> grind

/-- Proper values of which neither is less by number are one value, or the two zeros. -/
theorem eq_or_zeros_of_not_vlt {a b : Val} (hna : a ≠ .nan) (hnb : b ≠ .nan) (ha : a ≠ .fin 0) (hb : b ≠ .fin 0)
    (h : vlt a b = false) (h' : vlt b a = false) : a = b ∨ ∃ n, a = .zero n ∧ b = .zero (!n) := by
  rcases a with _ | (_ | _) | (_ | _) | p <;> rcases b with _ | (_ | _) | (_ | _) | q <;> simp_all [vlt, Val.toRat] <;> grind

/-- Maximum and minimum are the higher and the lower of two proper values in the ranking. -/
theorem vmax_vmin_eq {a b : Val} (hna : a ≠ .nan) (hnb : b ≠ .nan) (ha : a ≠ .fin 0) (hb : b ≠ .fin 0) :
    vmax a b = (if ranksAbove b a then b else a) ∧ vmin a b = if ranksAbove b a then a else b := by
  have hn : (a == .nan || b == .nan) = false := by simp [hna, hnb]
  rw [vmax, vmin, hn]
  by_cases h : vlt a b = true
  · simp [h, ranksAbove_of_vlt ha hb h]
  · by_cases h' : vlt b a = true
    · have hr : ranksAbove b a = false := (ranksAbove_eq_false _ _).mpr ((ranksAbove_iff _ _).mp (ranksAbove_of_vlt hb ha h')).le
      simp [h, h', hr]
    · obtain rfl | ⟨n, rfl, rfl⟩ := eq_or_zeros_of_not_vlt hna hnb ha hb (Bool.eq_false_of_not_eq_true h) (Bool.eq_false_of_not_eq_true h')
      · simp
      · cases n <;> decide

theorem vmax_vmin_nan (a : Val) : vmax a .nan = .nan ∧ vmax .nan a = .nan ∧ vmin a .nan = .nan ∧ vmin .nan a = .nan := by
  simp [vmax, vmin]

theorem vmax_vmin_comm {a b : Val} (ha : a ≠ .fin 0) (hb : b ≠ .fin 0) : vmax a b = vmax b a ∧ vmin a b = vmin b a := by
  by_cases hna : a = .nan
  · simp [hna, vmax_vmin_nan]
  by_cases hnb : b = .nan
  · simp [hnb, vmax_vmin_nan]
  obtain ⟨hx, hi⟩ := vmax_vmin_eq hna hnb ha hb
  obtain ⟨hx', hi'⟩ := vmax_vmin_eq hnb hna hb ha
  rw [hx, hi, hx', hi']
  rcases lt_trichotomy (rankKey a) (rankKey b) with h | h | h
  · simp [(ranksAbove_iff _ _).mpr h, (ranksAbove_eq_false _ _).mpr h.le]
  · simp [rankKey_injective h]
  · simp [(ranksAbove_iff _ _).mpr h, (ranksAbove_eq_false _ _).mpr h.le]

/-- The maximum is one of its operands and neither ranks above it; the minimum likewise. -/
theorem vmax_vmin_extreme {a b : Val} (hna : a ≠ .nan) (hnb : b ≠ .nan) (ha : a ≠ .fin 0) (hb : b ≠ .fin 0) :
    (vmax a b = a ∨ vmax a b = b) ∧ ranksAbove a (vmax a b) = false ∧ ranksAbove b (vmax a b) = false
      ∧ (vmin a b = a ∨ vmin a b = b) ∧ ranksAbove (vmin a b) a = false ∧ ranksAbove (vmin a b) b = false := by
  obtain ⟨hx, hi⟩ := vmax_vmin_eq hna hnb ha hb
  rw [hx, hi]
  simp only [ranksAbove_eq_false]
  by_cases h : ranksAbove b a = true
  · simp [h, ((ranksAbove_iff _ _).mp h).le]
  · simp [h, (ranksAbove_eq_false _ _).mp (Bool.eq_false_of_not_eq_true h)]

/-! ### Amax registers -/

/-- The larger of two magnitudes. -/
def maxMagnitude (a b : W32) : W32 := if a.toNat < b.toNat then b else a

theorem toNat_maxMagnitude (a b : W32) : (maxMagnitude a b).toNat = max a.toNat b.toNat := by
  rw [maxMagnitude]
  split_ifs with h <;> omega

/-- The lower half of a combined register. -/
theorem amaxJoin_low (a b : W64) : (amaxJoin a b).setWidth 32 = maxMagnitude (a.setWidth 32) (b.setWidth 32) := by
  rw [amaxJoin, Emit.append.amaxJoin, ← maxMagnitude]
  ext i hi
  simp

/-- Its upper half, the sticky bits. -/
theorem amaxJoin_high (a b : W64) : amaxJoin a b >>> 32 = (a >>> 32) ||| (b >>> 32) := by
  rw [amaxJoin, Emit.append.amaxJoin, ← maxMagnitude]
  ext i hi
  simp
  grind

theorem halves_ext {a b : W64} (hl : a.setWidth 32 = b.setWidth 32) (hh : a >>> 32 = b >>> 32) : a = b := by
  refine BitVec.eq_of_getLsbD_eq fun i hi => ?_
  by_cases h : i < 32
  · simpa [h] using congrArg (fun w : W32 => w.getLsbD i) hl
  · have := congrArg (fun w : W64 => w.getLsbD (i - 32)) hh
    simpa [Nat.add_sub_cancel' (Nat.not_lt.mp h)] using this

theorem amaxJoin_semilattice (a b c : W64) :
    amaxJoin a b = amaxJoin b a ∧ amaxJoin (amaxJoin a b) c = amaxJoin a (amaxJoin b c) ∧ amaxJoin a a = a := by
  refine ⟨halves_ext ?_ ?_, halves_ext ?_ ?_, halves_ext ?_ ?_⟩ <;> simp only [amaxJoin_low, amaxJoin_high]
  · exact BitVec.eq_of_toNat_eq (by simp only [toNat_maxMagnitude, max_comm])
  · exact BitVec.or_comm _ _
  · exact BitVec.eq_of_toNat_eq (by simp only [toNat_maxMagnitude, max_assoc])
  · exact BitVec.or_assoc _ _ _
  · exact BitVec.eq_of_toNat_eq (by simp only [toNat_maxMagnitude, max_self])
  · exact BitVec.or_self

/-- Settles O23: the ranking is the lexicographic order of class and falling number, maximum and minimum are the higher and the lower in
it, and the halves of an amax register combine by maximum and by union. -/
theorem rankingAndExtremes : Obligations.RankingAndExtremes := by
  unfold Obligations.RankingAndExtremes
  intro proper
  refine ⟨fun a b c h h' => ?_, fun a b h => ?_, fun a b _ _ h => ?_, fun p q hq hp => ranksAbove_table hq hp, ranksAbove_fin,
    fun a b ha hb => vmax_vmin_comm ha hb, fun a b ha hb hna hnb => ?_, vmax_vmin_nan, amaxJoin_semilattice⟩
  · exact (ranksAbove_iff _ _).mpr (((ranksAbove_iff _ _).mp h).trans ((ranksAbove_iff _ _).mp h'))
  · exact (ranksAbove_eq_false _ _).mpr ((ranksAbove_iff _ _).mp h).le
  · simpa only [ranksAbove_iff] using lt_or_gt_of_ne (rankKey_injective.ne h)
  · exact vmax_vmin_extreme hna hnb ha hb

end Sys2Proof.Machine
end

section
/-! Powers of two, floor(log2) and one rounding to a grid (R46). -/
namespace Sys2Proof.Machine
open Sys2Proof Sys2Proof.Claims

/-! ### Powers of two -/

theorem pow2_eq (e : Int) : pow2 e = (2 : Rat) ^ e := by
  rw [pow2]
  split_ifs with h
  · obtain ⟨n, rfl⟩ := Int.eq_ofNat_of_zero_le h
    simp
  · obtain ⟨n, hn⟩ := Int.eq_ofNat_of_zero_le (show 0 ≤ -e by omega)
    obtain rfl : e = -(n : Int) := by omega
    simp [Rat.mkRat_eq_div]

theorem pow2_pos (e : Int) : 0 < pow2 e := by
  rw [pow2_eq]
  positivity

theorem pow2_add (a b : Int) : pow2 (a + b) = pow2 a * pow2 b := by
  simp only [pow2_eq, zpow_add₀ (two_ne_zero' Rat)]

theorem pow2_natCast (n : Nat) : pow2 n = ((2 ^ n : Nat) : Rat) := by
  rw [pow2_eq, zpow_natCast, Nat.cast_pow, Nat.cast_ofNat]

theorem pow2_le {a b : Int} : pow2 a ≤ pow2 b ↔ a ≤ b := by
  rw [pow2_eq, pow2_eq, zpow_le_zpow_iff_right₀ one_lt_two]

theorem pow2_lt {a b : Int} : pow2 a < pow2 b ↔ a < b := by
  rw [pow2_eq, pow2_eq, zpow_lt_zpow_iff_right₀ one_lt_two]

/-- A quotient against a power of two, as the model compares them: by shifting the part that makes both natural. -/
theorem shifted_quot (num den : Nat) (k : Int) :
    ((if 0 ≤ k then num else num * 2 ^ (-k).toNat : Nat) : Rat) / (if 0 ≤ k then den * 2 ^ k.toNat else den : Nat)
      = (num : Rat) / den / pow2 k := by
  split_ifs with h
  · obtain ⟨n, rfl⟩ := Int.eq_ofNat_of_zero_le h
    rw [Int.toNat_natCast, pow2_natCast]
    push_cast
    rw [div_div]
  · obtain ⟨n, hn⟩ := Int.eq_ofNat_of_zero_le (show 0 ≤ -k by omega)
    have hk : pow2 k * ((2 ^ n : Nat) : Rat) = 1 := by
      rw [← pow2_natCast, ← pow2_add, show k + n = 0 by omega, pow2_eq, zpow_zero]
    rw [hn, Int.toNat_natCast, Nat.cast_mul, eq_inv_of_mul_eq_one_right hk]
    ring

theorem shifted_den_pos {den : Nat} (hd : 0 < den) (k : Int) : 0 < if 0 ≤ k then den * 2 ^ k.toNat else den := by
  split_ifs <;> positivity

/-! ### floor(log2) -/

/-- `floorLog2` names the binade of a quotient. -/
theorem floorLog2_spec {num den : Nat} (hn : 0 < num) (hd : 0 < den) :
    pow2 (floorLog2 num den) ≤ (num : Rat) / den ∧ (num : Rat) / den < pow2 (floorLog2 num den + 1) := by
  have hd' : (0 : Rat) < den := Nat.cast_pos.mpr hd
  have hnl : ((2 ^ num.log2 : Nat) : Rat) ≤ num := Nat.cast_le.mpr (Nat.log2_self_le hn.ne')
  have hnu : (num : Rat) < ((2 ^ (num.log2 + 1) : Nat) : Rat) := Nat.cast_lt.mpr Nat.lt_log2_self
  have hdl : ((2 ^ den.log2 : Nat) : Rat) ≤ den := Nat.cast_le.mpr (Nat.log2_self_le hd.ne')
  have hdu : (den : Rat) < ((2 ^ (den.log2 + 1) : Nat) : Rat) := Nat.cast_lt.mpr Nat.lt_log2_self
  rw [← pow2_natCast] at hnl hnu hdl hdu
  have key := shifted_quot num den ((num.log2 : Int) - den.log2)
  have hpos := shifted_den_pos hd ((num.log2 : Int) - den.log2)
  rw [floorLog2]
  generalize (if 0 ≤ (num.log2 : Int) - den.log2 then num else num * 2 ^ (-((num.log2 : Int) - den.log2)).toNat) = a at key
  generalize (if 0 ≤ (num.log2 : Int) - den.log2 then den * 2 ^ ((num.log2 : Int) - den.log2).toNat else den) = b at key hpos
  have hb : (0 : Rat) < b := Nat.cast_pos.mpr hpos
  have hp := pow2_pos ((num.log2 : Int) - den.log2)
  have hiff : b ≤ a ↔ pow2 ((num.log2 : Int) - den.log2) ≤ (num : Rat) / den := by
    rw [← Nat.cast_le (α := Rat), ← one_le_div hb, key, one_le_div hp]
  by_cases h : b ≤ a
  · rw [if_pos h]
    refine ⟨hiff.mp h, (div_lt_iff₀ hd').mpr (hnu.trans_le ?_)⟩
    calc pow2 ((num.log2 + 1 : Nat) : Int) = pow2 ((num.log2 : Int) - den.log2 + 1) * pow2 den.log2 := by rw [← pow2_add]; congr 1; omega
      _ ≤ _ := mul_le_mul_of_nonneg_left hdl (pow2_pos _).le
  · rw [if_neg h, Int.sub_add_cancel]
    refine ⟨(le_div_iff₀ hd').mpr (le_trans ?_ hnl), lt_of_not_ge fun hc => h (hiff.mpr hc)⟩
    calc pow2 ((num.log2 : Int) - den.log2 - 1) * den ≤ pow2 ((num.log2 : Int) - den.log2 - 1) * pow2 ((den.log2 + 1 : Nat) : Int) :=
          mul_le_mul_of_nonneg_left hdu.le (pow2_pos _).le
      _ = _ := by rw [← pow2_add]; congr 1; omega

/-! ### One rounding -/

/-- What may become of a number strictly between `n` and `n + 1` that is rounded to `n`. -/
def goesDown (rm : Rnd) (neg : Bool) (n : Nat) (x : Rat) : Prop :=
  (rm = .rne → x ≤ n + 1 / 2 ∧ (x = n + 1 / 2 → n % 2 = 0)) ∧ (rm = .rup → neg = true) ∧ (rm = .rdn → neg = false)

/-- What may become of a number strictly between `n` and `n + 1` that is rounded to `n + 1`. -/
def goesUp (rm : Rnd) (neg : Bool) (n : Nat) (x : Rat) : Prop :=
  (rm = .rne → n + 1 / 2 ≤ x ∧ (x = n + 1 / 2 → (n + 1) % 2 = 0)) ∧ rm ≠ .rtz ∧ (rm = .rup → neg = false) ∧ (rm = .rdn → neg = true)

/-- `r` is the whole number that `x` is rounded to, with the flag that it differs. -/
def RoundsTo (rm : Rnd) (neg : Bool) (x : Rat) (r : Nat × Bool) : Prop :=
  (r.2 = false ∧ (r.1 : Rat) = x)
    ∨ r.2 = true ∧ ∃ n : Nat, (n : Rat) < x ∧ x < n + 1 ∧ (r.1 = n ∧ goesDown rm neg n x ∨ r.1 = n + 1 ∧ goesUp rm neg n x)

/-- A quotient of naturals by its floor and its remainder. -/
theorem quot_eq {a b : Nat} (hb : 0 < b) : (a : Rat) / b = (a / b : Nat) + ((a % b : Nat) : Rat) / b := by
  have hb' : (b : Rat) ≠ 0 := Nat.cast_ne_zero.mpr hb.ne'
  rw [div_eq_iff hb', add_mul, div_mul_cancel₀ _ hb', ← Nat.cast_mul, ← Nat.cast_add, Nat.div_add_mod' a b]

theorem ite_goes {rm : Rnd} {neg : Bool} {n : Nat} {x : Rat} {up : Bool} (hdown : up = false → goesDown rm neg n x)
    (hup : up = true → goesUp rm neg n x) :
    (if up then n + 1 else n) = n ∧ goesDown rm neg n x ∨ (if up then n + 1 else n) = n + 1 ∧ goesUp rm neg n x := by
  cases up
  · exact .inl ⟨rfl, hdown rfl⟩
  · exact .inr ⟨rfl, hup rfl⟩

/-- The procedure of R46 rounds. -/
theorem roundAt_spec {num den : Nat} (hd : 0 < den) (neg : Bool) (rm : Rnd) (u : Nat) (qe : Int) :
    RoundsTo rm neg ((num : Rat) / den / pow2 qe) (roundAt num den neg rm u qe) := by
  rw [← shifted_quot]
  unfold roundAt
  have hb := shifted_den_pos hd qe
  dsimp only
  generalize (if 0 ≤ qe then num else num * 2 ^ (-qe).toNat) = a
  generalize (if 0 ≤ qe then den * 2 ^ qe.toNat else den) = b at hb ⊢
  have hq := quot_eq (a := a) hb
  have hr := Nat.mod_lt a hb
  generalize (a : Rat) / b = x at hq ⊢
  generalize a / b = n at hq ⊢
  generalize a % b = r at hq hr ⊢
  have hb' : (0 : Rat) < b := Nat.cast_pos.mpr hb
  by_cases h0 : r = 0
  · subst h0
    exact .inl ⟨rfl, by simpa using hq.symm⟩
  rw [if_neg h0]
  have hpos : (0 : Rat) < r / b := div_pos (Nat.cast_pos.mpr (Nat.pos_of_ne_zero h0)) hb'
  have hlt : (r : Rat) / b < 1 := (div_lt_one hb').mpr (Nat.cast_lt.mpr hr)
  have hhalf_lt : b < 2 * r ↔ (1 : Rat) / 2 < r / b := by
    rw [div_lt_div_iff₀ two_pos hb', ← Nat.cast_lt (α := Rat)]
    push_cast
    constructor <;> intro h <;> linarith
  have hhalf_eq : 2 * r = b ↔ (r : Rat) / b = 1 / 2 := by
    rw [div_eq_div_iff hb'.ne' two_ne_zero, ← Nat.cast_inj (R := Rat)]
    push_cast
    constructor <;> intro h <;> linarith
  have hgt : x > n + 1 / 2 ↔ b < 2 * r := by rw [hhalf_lt, hq]; constructor <;> intro h <;> linarith
  have heq : x = n + 1 / 2 ↔ 2 * r = b := by rw [hhalf_eq, hq]; constructor <;> intro h <;> linarith
  refine .inr ⟨rfl, n, by linarith, by linarith, ite_goes (fun h => ?_) fun h => ?_⟩
  · cases rm
    case rne =>
      simp only [Bool.or_eq_false_iff, decide_eq_false_iff_not, ← hgt] at h
      refine ⟨fun _ => ⟨not_lt.mp h.1, fun hx => ?_⟩, nofun, nofun⟩
      have := heq.mp hx
      simp [this] at h
      omega
    all_goals simp_all [goesDown]
  · cases rm
    case rne =>
      simp only [Bool.or_eq_true, decide_eq_true_iff, Bool.and_eq_true, beq_iff_eq, ← hgt, ← heq] at h
      refine ⟨fun _ => ⟨h.elim le_of_lt fun h => h.1.ge, fun hx => ?_⟩, nofun, nofun, nofun⟩
      have := h.resolve_left hx.not_gt
      omega
    all_goals simp_all [goesUp]

end Sys2Proof.Machine
end

section
/-! Conversion into integers (R55). -/
namespace Sys2Proof.Machine
open Sys2Proof Sys2Proof.Claims

/-! ### What a rounding gives -/

theorem natAbs_div_den (q : Rat) : (q.num.natAbs : Rat) / q.den = |q| := by
  conv_rhs => rw [← Rat.num_div_den q, abs_div, Nat.abs_cast]
  rw [Nat.cast_natAbs, Int.cast_abs]

/-- A number by its sign and its magnitude. -/
theorem signed_abs (q : Rat) : (if Rat.isNeg q then -|q| else |q|) = q := by
  by_cases h : q < 0
  · rw [if_pos ((isNeg_iff q).mpr h), abs_of_neg h, neg_neg]
  · rw [if_neg (mt (isNeg_iff q).mp h), abs_of_nonneg (not_lt.mp h)]

section
variable {rm : Rnd} {neg : Bool} {x : Rat} {r : Nat × Bool}

/-- The flag of a rounding says whether the number has changed. -/
theorem RoundsTo.flag (h : RoundsTo rm neg x r) : r.2 = decide ((r.1 : Rat) ≠ x) := by
  rcases h with ⟨hf, hx⟩ | ⟨hf, n, hlt, hgt, ⟨hr, -⟩ | ⟨hr, -⟩⟩
  · simp [hf, hx]
  · rw [hf, hr, eq_comm, decide_eq_true_iff]
    exact hlt.ne
  · rw [hf, hr, eq_comm, decide_eq_true_iff, Nat.cast_succ]
    exact hgt.ne'

/-- Rounding to nearest is off by half a step at most. -/
theorem RoundsTo.near (h : RoundsTo .rne neg x r) : |x - r.1| ≤ 1 / 2 := by
  rcases h with ⟨-, hx⟩ | ⟨-, n, hlt, hgt, ⟨hr, hd, -⟩ | ⟨hr, hu, -⟩⟩
  · norm_num [hx]
  · have := (hd rfl).1
    rw [hr, abs_le]
    constructor <;> linarith
  · have := (hu rfl).1
    rw [hr, Nat.cast_succ, abs_le]
    constructor <;> linarith

/-- When rounding to nearest stays within a bound: below the bound's half step, or at it where the bound is even. -/
theorem RoundsTo.le_iff (h : RoundsTo .rne neg x r) (b : Nat) :
    r.1 ≤ b ↔ x < b + 1 / 2 ∨ x = b + 1 / 2 ∧ b % 2 = 0 := by
  have hcast : ∀ {m k : Nat}, (m : Rat) < k + 1 → m ≤ k := fun h => Nat.lt_succ_iff.mp (by exact_mod_cast h)
  rcases h with ⟨-, hx⟩ | ⟨-, n, hlt, hgt, ⟨hr, hd, -⟩ | ⟨hr, hu, -⟩⟩
  · rw [← hx]
    constructor
    · intro h
      have : (r.1 : Rat) ≤ b := Nat.cast_le.mpr h
      exact .inl (by linarith)
    · rintro (h | ⟨h, -⟩) <;> exact hcast (by linarith)
  · obtain ⟨hle, heven⟩ := hd rfl
    rw [hr]
    constructor
    · intro h
      rcases h.lt_or_eq with h | rfl
      · have : ((n + 1 : Nat) : Rat) ≤ b := Nat.cast_le.mpr h
        push_cast at this
        exact .inl (by linarith)
      · exact hle.lt_or_eq.imp_right fun hx => ⟨hx, heven hx⟩
    · rintro (h | ⟨h, -⟩) <;> exact hcast (by linarith)
  · obtain ⟨hge, heven⟩ := hu rfl
    rw [hr]
    constructor
    · intro h
      have : ((n + 1 : Nat) : Rat) ≤ b := Nat.cast_le.mpr h
      push_cast at this
      exact .inl (by linarith)
    · rintro (h | ⟨h, hb⟩)
      · exact hcast (by push_cast; linarith)
      · by_contra hc
        have hbn : b ≤ n := by omega
        have : (b : Rat) ≤ n := Nat.cast_le.mpr hbn
        have hnb : n ≤ b := hcast (by linarith)
        obtain rfl : n = b := le_antisymm hnb hbn
        have := heven h
        omega

end

/-- What R55 rounds a number to: its magnitude, with the sign put back. -/
theorem roundAt_fin (q : Rat) (rm : Rnd) (u : Nat) (qe : Int) :
    RoundsTo rm (Rat.isNeg q) (|q| / pow2 qe) (roundAt q.num.natAbs q.den (Rat.isNeg q) rm u qe) := by
  rw [← natAbs_div_den]
  exact roundAt_spec q.den_pos _ _ _ _

/-! ### Integer codes -/

section
variable {f : Fmt}

/-- The ends of an integer format: −L, even, and H, odd, with one code for each number between them. -/
theorem range_eq (hf : f.isInt = true) :
    ∃ L H : Nat, f.range = (-(L : Int), (H : Int)) ∧ L % 2 = 0 ∧ H % 2 = 1 ∧ L + H + 1 = 2 ^ f.bits ∧ (f = .u8 ∧ L = 0 ∨ f ≠ .u8 ∧ L = 2 ^ (f.bits - 1)) := by
  cases f
  case s8 => exact ⟨128, 127, by decide⟩
  case u8 => exact ⟨0, 255, by decide⟩
  case s4 => exact ⟨8, 7, by decide⟩
  case s32 => exact ⟨2147483648, 2147483647, by decide⟩
  all_goals nomatch hf

theorem testBit_top {c n : Nat} (h : c < 2 ^ (n + 1)) : c.testBit n = decide (2 ^ n ≤ c) := by
  rw [Nat.testBit_eq_decide_div_mod_eq, Bool.eq_iff_iff, decide_eq_true_iff, decide_eq_true_iff]
  have hlt : c / 2 ^ n < 2 := (Nat.div_lt_iff_lt_mul (by positivity)).mpr (by rwa [pow_succ, mul_comm] at h)
  have hle : 1 ≤ c / 2 ^ n ↔ 2 ^ n ≤ c := by rw [Nat.le_div_iff_mul_le (by positivity), one_mul]
  rw [← hle]
  generalize c / 2 ^ n = d at hlt
  omega

theorem intVal_eq {c L H : Nat} (hc : c < 2 ^ f.bits) (hsum : L + H + 1 = 2 ^ f.bits) (hL : f = .u8 ∧ L = 0 ∨ f ≠ .u8 ∧ L = 2 ^ (f.bits - 1)) :
    intVal f c = if c ≤ H then (c : Int) else c - (2 ^ f.bits : Nat) := by
  have hb : f.bits - 1 + 1 = f.bits := by cases f <;> rfl
  rcases hL with ⟨rfl, rfl⟩ | ⟨hf, rfl⟩
  · rw [intVal, if_neg (by simp), if_pos (by omega)]
  · have h2 : 2 ^ f.bits = 2 ^ (f.bits - 1) + 2 ^ (f.bits - 1) := by rw [← two_mul, ← pow_succ', hb]
    have htop : f ≠ .u8 ∧ c.testBit (f.bits - 1) ↔ ¬ c ≤ H := by
      rw [testBit_top (by rwa [hb]), decide_eq_true_iff, not_le]
      exact ⟨fun h => by omega, fun h => ⟨hf, by omega⟩⟩
    rw [intVal, if_congr htop rfl rfl, ite_not, Nat.cast_pow, Nat.cast_ofNat]

theorem intCode_lt (i : Int) : intCode f i < 2 ^ f.bits := by
  have hp : (0 : Int) < 2 ^ f.bits := by positivity
  have := Int.emod_lt_of_pos i hp
  have := Int.emod_nonneg i hp.ne'
  rw [intCode, ← Nat.cast_lt (α := Int), Int.toNat_of_nonneg (by assumption)]
  push_cast
  assumption

/-- Numbers in range and codes are one to one. -/
theorem intVal_intCode (hf : f.isInt = true) {i : Int} (hlo : f.range.1 ≤ i) (hhi : i ≤ f.range.2) : intVal f (intCode f i) = i := by
  obtain ⟨L, H, hr, -, -, hsum, hL⟩ := range_eq hf
  rw [hr] at hlo hhi
  dsimp only at hlo hhi
  rw [intVal_eq (intCode_lt i) hsum hL, intCode, ← hsum]
  have hc : (2 : Int) ^ f.bits = L + H + 1 := by exact_mod_cast hsum.symm
  rw [hc]
  rcases le_or_gt 0 i with h | h
  · rw [Int.emod_eq_of_lt h (by omega), if_pos (by omega)]
    omega
  · rw [← Int.add_emod_right, Int.emod_eq_of_lt (by omega) (by omega), if_neg (by omega)]
    omega

theorem intCode_intVal (hf : f.isInt = true) {c : Nat} (hc : c < 2 ^ f.bits) :
    intCode f (intVal f c) = c ∧ f.range.1 ≤ intVal f c ∧ intVal f c ≤ f.range.2 := by
  obtain ⟨L, H, hr, -, -, hsum, hL⟩ := range_eq hf
  have hcast : (2 : Int) ^ f.bits = L + H + 1 := by exact_mod_cast hsum.symm
  rw [hr, intVal_eq hc hsum hL, intCode, hcast, ← hsum]
  rw [← hsum] at hc
  dsimp only
  split_ifs with h
  · rw [Int.emod_eq_of_lt (by omega) (by omega)]
    omega
  · rw [show (c : Int) - ((L + H + 1 : Nat) : Int) = c - (L + H + 1 : Int) by push_cast; rfl, Int.sub_emod_right,
      Int.emod_eq_of_lt (by omega) (by omega)]
    omega

/-! ### The conversion -/

theorem convert_of_isInt (hf : f.isInt = true) (nonsat : Bool) (rm : Rnd) (u : Nat) (v : Val) : convert f nonsat rm u v = convInt f rm u v := by
  cases f
  case s8 | u8 | s4 | s32 => rfl
  all_goals nomatch hf

/-- The whole number that a number is rounded to, with its sign. -/
def signed (neg : Bool) (n : Nat) : Int := if neg then -(n : Int) else n

theorem convInt_fin {rm : Rnd} {u : Nat} {q : Rat} {r : Nat × Bool} (h : roundAt q.num.natAbs q.den (Rat.isNeg q) rm u 0 = r) :
    convInt f rm u (.fin q) =
      if signed (Rat.isNeg q) r.1 < f.range.1 ∨ f.range.2 < signed (Rat.isNeg q) r.1 then
        { code := intCode f (if Rat.isNeg q then f.range.1 else f.range.2), fl := { iv := true }, vanish := false, sat := true }
      else { code := intCode f (signed (Rat.isNeg q) r.1), fl := { nx := r.2 }, vanish := false, sat := false } := by
  subst h
  rfl

end

theorem cast_signed (neg : Bool) (n : Nat) : (signed neg n : Rat) = if neg then -(n : Rat) else n := by
  cases neg <;> simp [signed]

/-- What is rounded to nearest and its whole number, both with their signs. -/
theorem near_signed {q : Rat} {r : Nat × Bool} (h : RoundsTo .rne (Rat.isNeg q) |q| r) :
    |q - signed (Rat.isNeg q) r.1| ≤ 1 / 2 ∧ r.2 = decide ((signed (Rat.isNeg q) r.1 : Rat) ≠ q) := by
  have hs := signed_abs q
  have hn := h.near
  rw [h.flag, cast_signed]
  generalize Rat.isNeg q = neg at hs
  generalize |q| = x at hs hn
  subst hs
  cases neg
  · exact ⟨hn, rfl⟩
  · refine ⟨?_, by simp only [if_true, ne_eq, neg_inj]⟩
    rw [if_pos rfl, if_pos rfl, neg_sub_neg, abs_sub_comm]
    exact hn

theorem convInt_rne {f : Fmt} (hf : f.isInt = true) (u : Nat) :
    (∀ q : Rat, (f.range.1 : Rat) - 1 / 2 ≤ q → q < f.range.2 + 1 / 2 →
      ∃ c : Nat, convInt f .rne u (.fin q) = { code := c, fl := { nx := decide ((intVal f c : Rat) ≠ q) }, vanish := false, sat := false }
        ∧ c < 2 ^ f.bits ∧ |q - intVal f c| ≤ 1 / 2)
    ∧ (∀ q : Rat, q < f.range.1 - 1 / 2 → convInt f .rne u (.fin q) = { code := intCode f f.range.1, fl := { iv := true }, vanish := false, sat := true })
    ∧ ∀ q : Rat, (f.range.2 : Rat) + 1 / 2 ≤ q → convInt f .rne u (.fin q) = { code := intCode f f.range.2, fl := { iv := true }, vanish := false, sat := true } := by
  obtain ⟨L, H, hr, hL, hH, -⟩ := range_eq hf
  have key (q : Rat) : ∃ r, roundAt q.num.natAbs q.den (Rat.isNeg q) .rne u 0 = r ∧ RoundsTo .rne (Rat.isNeg q) |q| r := by
    have h := roundAt_fin q .rne u 0
    rw [pow2_eq, zpow_zero, div_one] at h
    exact ⟨_, rfl, h⟩
  have hlo : (f.range.1 : Rat) = -(L : Rat) := by rw [hr]; simp
  have hhi : (f.range.2 : Rat) = (H : Rat) := by rw [hr]; simp
  rw [hlo, hhi]
  refine ⟨fun q hql hqh => ?_, fun q hq => ?_, fun q hq => ?_⟩
  · obtain ⟨r, hr', hto⟩ := key q
    have hin : f.range.1 ≤ signed (Rat.isNeg q) r.1 ∧ signed (Rat.isNeg q) r.1 ≤ f.range.2 := by
      rw [hr]
      by_cases hneg : q < 0
      · rw [(isNeg_iff q).mpr hneg, signed, if_pos rfl]
        have : r.1 ≤ L := (hto.le_iff L).mpr (by
          rw [abs_of_neg hneg]
          exact (lt_or_eq_of_le (show -q ≤ L + 1 / 2 by linarith)).imp_right fun h => ⟨h, hL⟩)
        dsimp only
        omega
      · rw [Bool.eq_false_of_not_eq_true (mt (isNeg_iff q).mp hneg), signed, if_neg Bool.false_ne_true]
        have : r.1 ≤ H := (hto.le_iff H).mpr (by
          rw [abs_of_nonneg (not_lt.mp hneg)]
          exact .inl hqh)
        dsimp only
        omega
    obtain ⟨hnear, hflag⟩ := near_signed hto
    refine ⟨intCode f (signed (Rat.isNeg q) r.1), ?_, intCode_lt _, ?_⟩
    · rw [convInt_fin hr', if_neg (by omega), intVal_intCode hf hin.1 hin.2, ← hflag]
    · rwa [intVal_intCode hf hin.1 hin.2]
  · obtain ⟨r, hr', hto⟩ := key q
    have hneg : q < 0 := hq.trans_le (by have : (0 : Rat) ≤ L := Nat.cast_nonneg L; linarith)
    have hgt : ¬ r.1 ≤ L := by
      rw [hto.le_iff, abs_of_neg hneg]
      rintro (h | ⟨h, -⟩) <;> linarith
    rw [convInt_fin hr', (isNeg_iff q).mpr hneg, if_pos]
    · rfl
    · rw [hr, signed, if_pos rfl]
      dsimp only
      omega
  · obtain ⟨r, hr', hto⟩ := key q
    have hpos : ¬ q < 0 := by have : (0 : Rat) ≤ H := Nat.cast_nonneg H; linarith
    have hgt : ¬ r.1 ≤ H := by
      rw [hto.le_iff, abs_of_nonneg (not_lt.mp hpos)]
      rintro (h | ⟨-, h⟩)
      · linarith
      · omega
    rw [convInt_fin hr', Bool.eq_false_of_not_eq_true (mt (isNeg_iff q).mp hpos), if_pos]
    · rfl
    · rw [hr, signed, if_neg Bool.false_ne_true]
      dsimp only
      omega

/-- Settles O22: rounding to nearest stays within an end below its half step, or at it where the end is even, as −L is and H is not. -/
theorem integerConversionSaturates : Obligations.IntegerConversionSaturates := by
  unfold Obligations.IntegerConversionSaturates
  intro f nonsat u hf lo hi saturated
  simp only [convert_of_isInt hf]
  obtain ⟨hin, hbelow, habove⟩ := convInt_rne hf u
  refine ⟨fun q _ hl hh => ?_, hbelow, habove, fun n => rfl, rfl, fun n => rfl⟩
  obtain ⟨c, hc, hlt, hnear⟩ := hin q hl hh
  rw [hc]
  exact ⟨hlt, hnear, rfl⟩

end Sys2Proof.Machine
end

section
/-! The codes of the formats with a rounding procedure, and the magnitudes they stand for (Tables 1.2 to 1.4, R13, R46). -/
namespace Sys2Proof.Machine
open Sys2Proof Sys2Proof.Claims

/-! ### Magnitudes -/

/-- The significand of a code without its sign. -/
def codeSig (f : Fmt) (c : Nat) : Nat := if c / 2 ^ f.fbits = 0 then c % 2 ^ f.fbits else 2 ^ f.fbits + c % 2 ^ f.fbits

/-- The exponent of one unit in its last place. -/
def codeExp (f : Fmt) (c : Nat) : Int := (max (c / 2 ^ f.fbits) 1 : Nat) - (f.bias : Int) - (f.fbits : Int)

/-- The magnitude of a code without its sign. -/
def codeMag (f : Fmt) (c : Nat) : Rat := if f = .y8s then pow2 ((c : Int) - 127) else codeSig f c * pow2 (codeExp f c)

/-- The code of n * 2^qe. -/
def magCode (f : Fmt) (n : Nat) (qe : Int) : Nat := if f = .y8s then (qe + 127).toNat + (n - 1) else packMag f n qe

/-- What the numbers on the grid of a magnitude have: the smallest exponent or a full significand. -/
def OnGrid (f : Fmt) (n : Nat) (qe : Int) : Prop := f.emin ≤ qe + f.fbits ∧ n ≤ 2 ^ (f.fbits + 1) ∧ (n < 2 ^ f.fbits → f ≠ .y8s ∧ qe + f.fbits = f.emin)

section
variable {f : Fmt}

theorem emin_eq (hy : f ≠ .y8s) : f.emin = 1 - (f.bias : Int) := by
  cases f
  case y8s => exact absurd rfl hy
  all_goals rfl

theorem codeMag_packMag (hy : f ≠ .y8s) {n : Nat} {qe : Int} (h : OnGrid f n qe) : codeMag f (packMag f n qe) = n * pow2 qe := by
  obtain ⟨hK, hn, hsmall⟩ := h
  obtain ⟨K, hK'⟩ := Int.eq_ofNat_of_zero_le (Int.sub_nonneg_of_le hK)
  rw [codeMag, if_neg hy, packMag, hK', Int.toNat_natCast, codeSig, codeExp]
  rw [emin_eq hy] at hK' hsmall
  rw [pow_succ] at hn
  have hP : 0 < 2 ^ f.fbits := by positivity
  generalize hPe : 2 ^ f.fbits = P at *
  rcases lt_or_ge n P with h1 | h1
  · obtain rfl : K = 0 := by have := (hsmall h1).2; omega
    rw [zero_mul, zero_add, Nat.div_eq_of_lt h1, Nat.mod_eq_of_lt h1, if_pos rfl]
    congr 2
    have := (hsmall h1).2
    push_cast
    omega
  rcases hn.lt_or_eq with h2 | rfl
  · have hc : K * P + n = (n - P) + P * (K + 1) := by rw [mul_add, mul_comm P K]; omega
    rw [hc, Nat.add_mul_div_left _ _ hP, Nat.add_mul_mod_self_left, Nat.div_eq_of_lt (by omega), Nat.mod_eq_of_lt (by omega),
      if_neg (by omega)]
    congr 2
    · omega
    · push_cast
      omega
  · have hc : K * P + P * 2 = P * (K + 2) := by ring
    rw [hc, Nat.mul_div_cancel_left _ hP, Nat.mul_mod_right, if_neg (by omega), add_zero]
    have hexp : ((max (K + 2) 1 : Nat) : Int) - f.bias - f.fbits = qe + 1 := by push_cast; omega
    rw [hexp, pow2_add, pow2_eq 1, zpow_one]
    push_cast
    ring

theorem codeMag_magCode {n : Nat} {qe : Int} (h : OnGrid f n qe) : codeMag f (magCode f n qe) = n * pow2 qe := by
  by_cases hy : f = .y8s
  · subst hy
    obtain ⟨hK, hn, hsmall⟩ := h
    rw [codeMag, if_pos rfl, magCode, if_pos rfl]
    have hK' : -127 ≤ qe := by simpa [Fmt.emin, Fmt.fbits] using hK
    have hn' : n = 1 ∨ n = 2 := by
      have h0 : ¬ n < 1 := fun h => (hsmall h).1 rfl
      have h2 : n ≤ 2 := hn
      omega
    rcases hn' with rfl | rfl
    · rw [Nat.cast_one, one_mul]
      congr 1
      omega
    · have hexp : (((qe + 127).toNat + (2 - 1) : Nat) : Int) - 127 = 1 + qe := by omega
      rw [hexp, pow2_add, pow2_eq 1, zpow_one, Nat.cast_ofNat]
  · rw [magCode, if_neg hy, codeMag_packMag hy h]

theorem magCode_succ {n : Nat} {qe : Int} (h : OnGrid f n qe) : magCode f (n + 1) qe = magCode f n qe + 1 := by
  rw [magCode, magCode]
  split_ifs with hy
  · have hn : ¬ n < 1 := fun hn => (h.2.2 (by subst hy; exact hn)).1 hy
    omega
  · rfl

/-- Every code stands on a grid. -/
theorem exists_magCode (f : Fmt) (c : Nat) : ∃ n qe, OnGrid f n qe ∧ n < 2 ^ (f.fbits + 1) ∧ magCode f n qe = c := by
  by_cases hy : f = .y8s
  · subst hy
    refine ⟨1, (c : Int) - 127, ⟨?_, by decide, fun h => absurd h (by decide)⟩, by decide, ?_⟩
    · show -127 ≤ (c : Int) - 127 + 0
      omega
    · rw [magCode, if_pos rfl]
      omega
  have hP : 0 < 2 ^ f.fbits := by positivity
  have hm := Nat.mod_lt c hP
  have hdiv := Nat.div_add_mod' c (2 ^ f.fbits)
  refine ⟨codeSig f c, codeExp f c, ?_, ?_, ?_⟩
  · rw [OnGrid, codeExp, codeSig, emin_eq hy, pow_succ]
    refine ⟨by push_cast; omega, by split_ifs <;> omega, ?_⟩
    split_ifs with h0
    · rw [h0]
      exact fun _ => ⟨hy, by push_cast; omega⟩
    · omega
  · rw [codeSig, pow_succ]
    split_ifs <;> omega
  · rw [magCode, if_neg hy, packMag, codeSig, codeExp, emin_eq hy]
    split_ifs with h0
    · rw [h0] at hdiv ⊢
      rw [show (((max 0 1 : Nat) : Int) - f.bias - f.fbits + f.fbits - (1 - f.bias)).toNat = 0 by push_cast; omega]
      omega
    · obtain ⟨e, he⟩ := Nat.exists_eq_succ_of_ne_zero h0
      rw [he] at hdiv ⊢
      rw [show (((max e.succ 1 : Nat) : Int) - f.bias - f.fbits + f.fbits - (1 - f.bias)).toNat = e by push_cast; omega]
      rw [Nat.succ_mul] at hdiv
      omega

theorem codeMag_nonneg (f : Fmt) (c : Nat) : 0 ≤ codeMag f c := by
  rw [codeMag]
  split_ifs
  · exact (pow2_pos _).le
  · exact mul_nonneg (Nat.cast_nonneg _) (pow2_pos _).le

/-- The grid goes on: one code more is one unit more. -/
theorem OnGrid.succ {n : Nat} {qe : Int} (h : OnGrid f n qe) (hn : n < 2 ^ (f.fbits + 1)) : OnGrid f (n + 1) qe :=
  ⟨h.1, hn, fun hlt => h.2.2 (Nat.lt_of_succ_lt hlt)⟩

/-- Greater codes have greater magnitudes. -/
theorem codeMag_strictMono (f : Fmt) : StrictMono (codeMag f) := by
  refine strictMono_nat_of_lt_succ fun c => ?_
  obtain ⟨n, qe, h, hn, rfl⟩ := exists_magCode f c
  rw [← magCode_succ h, codeMag_magCode h, codeMag_magCode (h.succ hn)]
  exact mul_lt_mul_of_pos_right (Nat.cast_lt.mpr (Nat.lt_succ_self n)) (pow2_pos qe)

/-! ### The greatest magnitude -/

theorem codeMag_maxCode (hf : f.isInt = false) : codeMag f f.maxCode = f.maxQ := by
  cases f
  case s8 | u8 | s4 | s32 => nomatch hf
  all_goals
    simp [codeMag, codeSig, codeExp, Fmt.maxCode, Fmt.maxQ, Fmt.fbits, Fmt.bias, pow2_eq]
  all_goals norm_num

theorem maxQ_lt_thetaQ (hf : f.isInt = false) : f.maxQ < f.thetaQ := by
  cases f
  case s8 | u8 | s4 | s32 => nomatch hf
  all_goals
    simp [Fmt.maxQ, Fmt.thetaQ, Fmt.theta, pow2_eq]
  all_goals norm_num

end

end Sys2Proof.Machine
end

section
/-! Rounding to codes (R46, R47): the code below a magnitude, the code above it, and which of them is taken. -/
namespace Sys2Proof.Machine
open Sys2Proof Sys2Proof.Claims

/-- `c` is the code that a magnitude `m` is rounded to, with the flag that it differs: the code of `m`, or one of two codes in a row that
`m` lies between. -/
def CodeRounds (f : Fmt) (rm : Rnd) (neg : Bool) (m : Rat) (c : Nat) (inexact : Bool) : Prop :=
  (inexact = false ∧ codeMag f c = m)
    ∨ inexact = true ∧ ∃ c0, codeMag f c0 < m ∧ m < codeMag f (c0 + 1)
      ∧ (c = c0 ∧ (rm = .rne → m - codeMag f c0 ≤ codeMag f (c0 + 1) - m
            ∧ (m - codeMag f c0 = codeMag f (c0 + 1) - m → f ≠ .y8s → c0 % 2 = 0)) ∧ (rm = .rup → neg = true) ∧ (rm = .rdn → neg = false)
        ∨ c = c0 + 1 ∧ (rm = .rne → codeMag f (c0 + 1) - m ≤ m - codeMag f c0
            ∧ (m - codeMag f c0 = codeMag f (c0 + 1) - m → f ≠ .y8s → (c0 + 1) % 2 = 0)) ∧ rm ≠ .rtz ∧ (rm = .rup → neg = false) ∧ (rm = .rdn → neg = true))

section
variable {f : Fmt}

theorem fbits_pos (hf : f.isInt = false) (hy : f ≠ .y8s) : 0 < f.fbits := by
  cases f
  case y8s => exact absurd rfl hy
  case s8 | u8 | s4 | s32 => nomatch hf
  all_goals decide

/-- A code is even with its significand. -/
theorem magCode_mod_two (hf : f.isInt = false) (hy : f ≠ .y8s) (n : Nat) (qe : Int) : magCode f n qe % 2 = n % 2 := by
  obtain ⟨b, hb⟩ := Nat.exists_eq_succ_of_ne_zero (fbits_pos hf hy).ne'
  rw [magCode, if_neg hy, packMag, hb, pow_succ, ← mul_assoc]
  omega

/-- The grid on which R46 puts a magnitude: the floor stands on it, short of the next binade. -/
theorem floor_onGrid (hf : f.isInt = false) {num den n : Nat} (hn0 : 0 < num) (hd : 0 < den) (hy : f = .y8s → pow2 (-127) ≤ (num : Rat) / den)
    (hle : (n : Rat) * pow2 (gridExp f num den) ≤ (num : Rat) / den) (hlt : (num : Rat) / den < (n + 1) * pow2 (gridExp f num den)) :
    OnGrid f n (gridExp f num den) ∧ n < 2 ^ (f.fbits + 1) := by
  obtain ⟨hlo, hhi⟩ := floorLog2_spec hn0 hd
  have hqe : gridExp f num den + f.fbits = max (floorLog2 num den) f.emin := by
    rw [gridExp, hf, if_neg Bool.false_ne_true, Int.sub_add_cancel]
  have hp := pow2_pos (gridExp f num den)
  have hupper : n < 2 ^ (f.fbits + 1) := by
    rw [← Nat.cast_lt (α := Rat), ← pow2_natCast, ← mul_lt_mul_iff_of_pos_right hp, ← pow2_add]
    refine (hle.trans_lt hhi).trans_le (pow2_le.mpr ?_)
    push_cast
    omega
  refine ⟨⟨by omega, hupper.le, fun hsmall => ?_⟩, hupper⟩
  have hm : (num : Rat) / den < pow2 (gridExp f num den + f.fbits) := by
    refine hlt.trans_le ?_
    rw [add_comm (gridExp f num den), pow2_add, pow2_natCast]
    exact mul_le_mul_of_nonneg_right (by exact_mod_cast hsmall) hp.le
  have hbelow : floorLog2 num den < f.emin := by
    by_contra hc
    rw [hqe, max_eq_left (not_lt.mp hc)] at hm
    exact hm.not_ge hlo
  refine ⟨fun h => ?_, by omega⟩
  subst h
  have := pow2_lt.mp ((hy rfl).trans_lt hhi)
  have : (Fmt.y8s).emin = -127 := rfl
  omega

/-- The rounding of R46 in the terms of codes. -/
theorem codeRounds (hf : f.isInt = false) {rm : Rnd} {u : Nat} {q : Rat} (hq : q ≠ 0) (hy : f = .y8s → pow2 (-127) ≤ |q|) :
    let qe := gridExp f q.num.natAbs q.den
    let r := roundAt q.num.natAbs q.den (Rat.isNeg q) rm u qe
    CodeRounds f rm (Rat.isNeg q) |q| (magCode f r.1 qe) r.2 ∧ OnGrid f r.1 qe := by
  intro qe r
  have hp := pow2_pos qe
  have hnum : 0 < q.num.natAbs := Int.natAbs_pos.mpr (Rat.num_ne_zero.mpr hq)
  have hround : RoundsTo rm (Rat.isNeg q) (|q| / pow2 qe) r := roundAt_fin q rm u qe
  have hgrid {n : Nat} (hle : (n : Rat) ≤ |q| / pow2 qe) (hlt : |q| / pow2 qe < n + 1) : OnGrid f n qe ∧ n < 2 ^ (f.fbits + 1) := by
    rw [← natAbs_div_den] at hle hlt hy
    exact floor_onGrid hf hnum q.den_pos hy ((le_div_iff₀ hp).mp hle) ((div_lt_iff₀ hp).mp hlt)
  have hmul : |q| = |q| / pow2 qe * pow2 qe := (div_mul_cancel₀ _ hp.ne').symm
  generalize |q| / pow2 qe = x at *
  rw [hmul]
  rcases hround with ⟨hr2, hx⟩ | ⟨hr2, n, hlt, hgt, hcase⟩
  · have h := (hgrid hx.le (by rw [hx]; linarith)).1
    exact ⟨.inl ⟨hr2, by rw [codeMag_magCode h, hx]⟩, h⟩
  · obtain ⟨h, hn⟩ := hgrid hlt.le hgt
    have h0 := codeMag_magCode h
    have h1 := codeMag_magCode (h.succ hn)
    have hs := magCode_succ h
    rw [hs, Nat.cast_succ] at h1
    have hhalf : x * pow2 qe - n * pow2 qe ≤ (n + 1) * pow2 qe - x * pow2 qe ↔ x ≤ n + 1 / 2 := by
      rw [← sub_mul, ← sub_mul, mul_le_mul_iff_of_pos_right hp]
      constructor <;> intro h <;> linarith
    have hhalf' : (n + 1) * pow2 qe - x * pow2 qe ≤ x * pow2 qe - n * pow2 qe ↔ n + 1 / 2 ≤ x := by
      rw [← sub_mul, ← sub_mul, mul_le_mul_iff_of_pos_right hp]
      constructor <;> intro h <;> linarith
    have htie : x * pow2 qe - n * pow2 qe = (n + 1) * pow2 qe - x * pow2 qe ↔ x = n + 1 / 2 := by
      rw [← sub_mul, ← sub_mul, mul_left_inj' hp.ne']
      constructor <;> intro h <;> linarith
    have hpar (hy : f ≠ .y8s) : magCode f n qe % 2 = n % 2 := magCode_mod_two hf hy n qe
    rcases hcase with ⟨hr, hdown, hrest⟩ | ⟨hr, hup, hrest⟩
    · rw [hr]
      refine ⟨.inr ⟨hr2, magCode f n qe, ?_, ?_, .inl ⟨rfl, fun hrm => ?_, hrest⟩⟩, h⟩
      · rw [h0]
        exact mul_lt_mul_of_pos_right hlt hp
      · rw [h1]
        exact mul_lt_mul_of_pos_right hgt hp
      · rw [h0, h1, hhalf, htie]
        exact ⟨(hdown hrm).1, fun hx hy => (hpar hy).trans ((hdown hrm).2 hx)⟩
    · rw [hr, hs]
      refine ⟨.inr ⟨hr2, magCode f n qe, ?_, ?_, .inr ⟨rfl, fun hrm => ?_, hrest⟩⟩, h.succ hn⟩
      · rw [h0]
        exact mul_lt_mul_of_pos_right hlt hp
      · rw [h1]
        exact mul_lt_mul_of_pos_right hgt hp
      · rw [h0, h1, hhalf', htie]
        refine ⟨(hup hrm).1, fun hx hy => ?_⟩
        have := (hup hrm).2 hx
        have := hpar hy
        omega

/-! ### What follows of a rounding to codes -/

section
variable {rm : Rnd} {neg : Bool} {m : Rat} {c : Nat} {inexact : Bool}

theorem CodeRounds.flag (h : CodeRounds f rm neg m c inexact) : inexact = true ↔ codeMag f c ≠ m := by
  rcases h with ⟨rfl, hx⟩ | ⟨rfl, c0, hlt, hgt, ⟨rfl, -⟩ | ⟨rfl, -⟩⟩
  · simp [hx]
  · simp [hlt.ne]
  · simp [hgt.ne']

/-- What does not lie between two codes in a row. -/
def OffGaps (f : Fmt) (t : Rat) : Prop := ∀ c, t ≤ codeMag f c ∨ codeMag f (c + 1) ≤ t

theorem offGaps_codeMag (f : Fmt) (d : Nat) : OffGaps f (codeMag f d) := fun c =>
  (le_or_gt d c).imp (fun h => (codeMag_strictMono f).monotone h) fun h => (codeMag_strictMono f).monotone h

theorem offGaps_of_nonpos {t : Rat} (h : t ≤ 0) : OffGaps f t := fun c => .inl (h.trans (codeMag_nonneg f c))

/-- A magnitude that is a code's own rounds to that code. -/
theorem CodeRounds.of_codeMag {d : Nat} (h : CodeRounds f rm neg (codeMag f d) c inexact) : inexact = false ∧ c = d := by
  rcases h with ⟨hi, hx⟩ | ⟨-, c0, hlt, hgt, -⟩
  · exact ⟨hi, (codeMag_strictMono f).injective hx⟩
  · have h1 := (codeMag_strictMono f).lt_iff_lt.mp hlt
    have h2 := (codeMag_strictMono f).lt_iff_lt.mp hgt
    omega

/-- A magnitude up to a code's rounds up to that code at most. -/
theorem CodeRounds.le_of_le {d : Nat} (h : CodeRounds f rm neg m c inexact) (hm : m ≤ codeMag f d) : c ≤ d := by
  rcases h with ⟨-, hx⟩ | ⟨-, c0, hlt, -, hc⟩
  · exact (codeMag_strictMono f).le_iff_le.mp (hx.le.trans hm)
  · have := (codeMag_strictMono f).lt_iff_lt.mp (hlt.trans_le hm)
    omega

/-- Rounding to nearest: no other value is nearer, and at a tie the code is even. -/
theorem CodeRounds.nearest (h : CodeRounds f .rne neg m c inexact) {t : Rat} (ht : OffGaps f t) :
    |m - codeMag f c| ≤ |m - t| ∧ (|m - codeMag f c| = |m - t| → t ≠ codeMag f c → f ≠ .y8s → c % 2 = 0) := by
  rcases h with ⟨-, hx⟩ | ⟨-, c0, hlt, hgt, ⟨hc, hd, -⟩ | ⟨hc, hu, -⟩⟩
  · rw [hx, sub_self, abs_zero]
    exact ⟨abs_nonneg _, fun h hne => absurd (sub_eq_zero.mp (abs_eq_zero.mp h.symm)).symm hne⟩
  · obtain ⟨hle, htie⟩ := hd rfl
    rw [hc, abs_of_pos (sub_pos.mpr hlt)]
    rcases ht c0 with h | h
    · rw [abs_of_pos (by linarith)]
      exact ⟨by linarith, fun he hne => absurd (by linarith) hne⟩
    · rw [abs_of_neg (by linarith)]
      exact ⟨by linarith, fun he _ => htie (by linarith)⟩
  · obtain ⟨hle, htie⟩ := hu rfl
    rw [hc, abs_of_neg (sub_neg.mpr hgt)]
    rcases ht c0 with h | h
    · rw [abs_of_pos (by linarith)]
      exact ⟨by linarith, fun he _ => htie (by linarith)⟩
    · rw [abs_of_neg (by linarith)]
      exact ⟨by linarith, fun he hne => absurd (by linarith) hne⟩

/-- Rounding towards zero gives the greatest value that is not beyond. -/
theorem CodeRounds.below (h : CodeRounds f rm neg m c inexact) (hrm : rm = .rtz ∨ rm = .rup ∧ neg = true ∨ rm = .rdn ∧ neg = false) :
    codeMag f c ≤ m ∧ ∀ t, OffGaps f t → t ≤ m → t ≤ codeMag f c := by
  rcases h with ⟨-, hx⟩ | ⟨-, c0, hlt, hgt, ⟨hc, -⟩ | ⟨-, -, hz, hup, hdn⟩⟩
  · rw [hx]
    exact ⟨le_rfl, fun t _ h => h⟩
  · rw [hc]
    exact ⟨hlt.le, fun t ht hm => (ht c0).resolve_right fun h => by linarith⟩
  · obtain h | ⟨h, h'⟩ | ⟨h, h'⟩ := hrm
    · exact absurd h hz
    · exact absurd (h'.symm.trans (hup h)) Bool.noConfusion
    · exact absurd (h'.symm.trans (hdn h)) Bool.noConfusion

/-- Rounding away from zero gives the least value that is not short. -/
theorem CodeRounds.above (h : CodeRounds f rm neg m c inexact) (hrm : rm = .rup ∧ neg = false ∨ rm = .rdn ∧ neg = true) :
    m ≤ codeMag f c ∧ ∀ t, OffGaps f t → m ≤ t → codeMag f c ≤ t := by
  rcases h with ⟨-, hx⟩ | ⟨-, c0, hlt, hgt, ⟨-, -, hup, hdn⟩ | ⟨hc, -⟩⟩
  · rw [hx]
    exact ⟨le_rfl, fun t _ h => h⟩
  · obtain ⟨h, h'⟩ | ⟨h, h'⟩ := hrm
    · exact absurd (h'.symm.trans (hup h)) Bool.noConfusion
    · exact absurd (h'.symm.trans (hdn h)) Bool.noConfusion
  · rw [hc]
    exact ⟨hgt.le, fun t ht hm => (ht c0).resolve_left fun h => by linarith⟩

end

end

end Sys2Proof.Machine
end

section
/-! The values of codes, and their conversion (Tables 1.2 to 1.6, R46 to R56). -/
namespace Sys2Proof.Machine
open Sys2Proof Sys2Proof.Claims

/-! ### Values of codes -/

/-- A number by its sign and its magnitude. -/
def signedMag (neg : Bool) (m : Rat) : Rat := if neg then -m else m

section
variable {f : Fmt}

theorem codeVal_eq_floatVal (hf : f.isInt = false) (hy : f ≠ .y8s) (c : Nat) : codeVal f c = floatVal f c := by
  cases f
  case y8s => exact absurd rfl hy
  case s8 | u8 | s4 | s32 => nomatch hf
  all_goals rfl

/-- The sizes of the fields of a floating-point format. -/
theorem float_fields (hf : f.isInt = false) (hy : f ≠ .y8s) :
    f.bits = f.ebits + f.fbits + 1 ∧ f.maxCode < 2 ^ (f.ebits + f.fbits) ∧ 0 < f.maxCode
      ∧ (f.isIeee = true → f.maxCode + 1 = (2 ^ f.ebits - 1) * 2 ^ f.fbits) ∧ (f.isIeee = false → f.maxCode + 1 = 2 ^ (f.ebits + f.fbits)) := by
  cases f
  case y8s => exact absurd rfl hy
  case s8 | u8 | s4 | s32 => nomatch hf
  all_goals decide

theorem signBit_eq (hf : f.isInt = false) (hy : f ≠ .y8s) (neg : Bool) : signBit f neg = neg.toNat * 2 ^ (f.ebits + f.fbits) := by
  rw [signBit, (float_fields hf hy).1, Nat.add_sub_cancel]
  cases neg <;> simp

/-- A code is a sign and a code without one. -/
theorem exists_signBit (hf : f.isInt = false) (hy : f ≠ .y8s) {d : Nat} (hd : d < 2 ^ f.bits) :
    ∃ neg c, c < 2 ^ (f.ebits + f.fbits) ∧ signBit f neg + c = d := by
  rw [(float_fields hf hy).1, pow_succ] at hd
  by_cases h : d < 2 ^ (f.ebits + f.fbits)
  · exact ⟨false, d, h, by simp [signBit_eq hf hy]⟩
  · exact ⟨true, d - 2 ^ (f.ebits + f.fbits), by omega, by rw [signBit_eq hf hy, Bool.toNat_true]; omega⟩

theorem signBit_add_lt (hf : f.isInt = false) (hy : f ≠ .y8s) (neg : Bool) {c : Nat} (hc : c < 2 ^ (f.ebits + f.fbits)) :
    signBit f neg + c < 2 ^ f.bits := by
  rw [signBit_eq hf hy, (float_fields hf hy).1, pow_succ]
  cases neg <;> simp <;> omega

/-- The fields of a code with a sign. -/
theorem signBit_fields (hf : f.isInt = false) (hy : f ≠ .y8s) (neg : Bool) {c : Nat} (hc : c < 2 ^ (f.ebits + f.fbits)) :
    (signBit f neg + c).testBit (f.ebits + f.fbits) = neg ∧ ((signBit f neg + c) >>> f.fbits) % 2 ^ f.ebits = c / 2 ^ f.fbits
      ∧ (signBit f neg + c) % 2 ^ f.fbits = c % 2 ^ f.fbits := by
  have hP : 0 < 2 ^ f.fbits := by positivity
  have hsplit : signBit f neg + c = c + 2 ^ f.fbits * (2 ^ f.ebits * neg.toNat) := by
    rw [signBit_eq hf hy, pow_add]
    ring
  refine ⟨?_, ?_, ?_⟩
  · rw [Nat.testBit_eq_decide_div_mod_eq, signBit_eq hf hy, mul_comm, Nat.mul_add_div (by positivity), Nat.div_eq_of_lt hc]
    cases neg <;> rfl
  · rw [Nat.shiftRight_eq_div_pow, hsplit, Nat.add_mul_div_left _ _ hP, Nat.add_mul_mod_self_left]
    exact Nat.mod_eq_of_lt ((Nat.div_lt_iff_lt_mul hP).mpr (by rwa [pow_add] at hc))
  · rw [hsplit, Nat.add_mul_mod_self_left]

/-- The value of a floating-point code up to the greatest finite one: a zero or a number. -/
theorem floatVal_finite (hf : f.isInt = false) (hy : f ≠ .y8s) (neg : Bool) {c : Nat} (hc : c ≤ f.maxCode) :
    floatVal f (signBit f neg + c) =
      if c = 0 then (if !f.isIeee && neg then .nan else .zero neg) else .fin (signedMag neg (codeMag f c)) := by
  obtain ⟨-, hmax, -, hieee, -⟩ := float_fields hf hy
  obtain ⟨h1, h2, h3⟩ := signBit_fields hf hy neg (hc.trans_lt hmax)
  have hP : 0 < 2 ^ f.fbits := by positivity
  have hnotall : (f.isIeee && c / 2 ^ f.fbits == 2 ^ f.ebits - 1) = false := by
    rw [Bool.and_eq_false_iff, beq_eq_false_iff_ne]
    by_cases h : f.isIeee = true
    · refine .inr (ne_of_lt ((Nat.div_lt_iff_lt_mul hP).mpr ?_))
      have := hieee h
      omega
    · exact .inl (Bool.eq_false_of_not_eq_true h)
  have hzero : c / 2 ^ f.fbits = 0 ∧ c % 2 ^ f.fbits = 0 ↔ c = 0 := by
    constructor
    · rintro ⟨h, h'⟩
      have := Nat.div_add_mod' c (2 ^ f.fbits)
      rw [h, h'] at this
      omega
    · rintro rfl
      exact ⟨Nat.zero_div _, Nat.zero_mod _⟩
  rw [floatVal, h1, h2, h3, hnotall, if_neg Bool.false_ne_true]
  refine if_congr hzero rfl (congrArg Val.fin ?_)
  have hsig : (if c / 2 ^ f.fbits = 0 then ((c % 2 ^ f.fbits : Nat) : Int) else 2 ^ f.fbits + (c % 2 ^ f.fbits : Nat)) = (codeSig f c : Int) := by
    rw [codeSig]
    split_ifs <;> push_cast <;> rfl
  rw [codeMag, if_neg hy, codeExp, signedMag]
  rw [hsig]
  cases neg <;> simp

/-- The value beyond the greatest finite code: an infinity or a NaN. -/
theorem floatVal_beyond (hf : f.isInt = false) (hy : f ≠ .y8s) (neg : Bool) {c : Nat} (hmax : f.maxCode < c) (hc : c < 2 ^ (f.ebits + f.fbits)) :
    floatVal f (signBit f neg + c) = .nan ∨ f.isIeee = true ∧ floatVal f (signBit f neg + c) = .inf neg ∧ signBit f neg + c = infCode f neg := by
  obtain ⟨-, -, -, hieee, hnot⟩ := float_fields hf hy
  obtain ⟨h1, h2, h3⟩ := signBit_fields hf hy neg hc
  have hP : 0 < 2 ^ f.fbits := by positivity
  have hi : f.isIeee = true := by
    by_contra h
    have := hnot (Bool.eq_false_of_not_eq_true h)
    omega
  have hall : c / 2 ^ f.fbits = 2 ^ f.ebits - 1 := by
    have hlt : c / 2 ^ f.fbits < 2 ^ f.ebits := (Nat.div_lt_iff_lt_mul hP).mpr (by rwa [pow_add] at hc)
    have hle : 2 ^ f.ebits - 1 ≤ c / 2 ^ f.fbits := (Nat.le_div_iff_mul_le hP).mpr (by have := hieee hi; omega)
    omega
  rw [floatVal, h1, h2, h3, hall, hi, Bool.true_and, beq_self_eq_true, if_pos rfl]
  split_ifs with h
  · refine .inr ⟨rfl, rfl, ?_⟩
    have := Nat.div_add_mod' c (2 ^ f.fbits)
    rw [infCode, hi, if_pos rfl, ← this, hall, h, add_zero]
  · exact .inl rfl

/-- What a finite code stands for. -/
theorem exists_codeMag (hf : f.isInt = false) {d : Nat} (hd : d < 2 ^ f.bits) (hnan : codeVal f d ≠ .nan) (hinf : ∀ n, codeVal f d ≠ .inf n) :
    ∃ neg c, (codeVal f d).toRat = signedMag neg (codeMag f c) := by
  by_cases hy : f = .y8s
  · subst hy
    refine ⟨false, d, ?_⟩
    rw [codeVal] at hnan ⊢
    split_ifs at hnan ⊢ with h
    · exact absurd rfl hnan
    · rw [codeMag, if_pos rfl]
      rfl
  rw [codeVal_eq_floatVal hf hy] at hnan hinf ⊢
  obtain ⟨neg, c, hc, rfl⟩ := exists_signBit hf hy hd
  by_cases hmax : c ≤ f.maxCode
  · refine ⟨neg, c, ?_⟩
    rw [floatVal_finite hf hy neg hmax] at hnan ⊢
    split_ifs with h0 hz
    · rw [if_pos h0, if_pos hz] at hnan
      exact absurd rfl hnan
    · have : codeMag f 0 = 0 := by
        rw [codeMag, if_neg hy, codeSig]
        simp
      rw [h0, this]
      cases neg <;> simp [signedMag, Val.toRat]
    · rfl
  · rcases floatVal_beyond hf hy neg (not_le.mp hmax) hc with h | ⟨-, h, -⟩
    · exact absurd h hnan
    · exact absurd h (hinf neg)

end

end Sys2Proof.Machine
end

section
/-! Conversions of numbers in range, and the round trip of every code (R13, R46 to R56). -/
namespace Sys2Proof.Machine
open Sys2Proof Sys2Proof.Claims

section
variable {f : Fmt}

theorem convert_of_float (hf : f.isInt = false) (hy : f ≠ .y8s) (nonsat : Bool) (rm : Rnd) (u : Nat) (v : Val) :
    convert f nonsat rm u v = convFloat f nonsat rm u v := by
  cases f
  case y8s => exact absurd rfl hy
  case s8 | u8 | s4 | s32 => nomatch hf
  all_goals rfl

theorem rabs_eq (q : Rat) : rabs q = |q| := by
  rw [rabs, if_congr Rat.num_neg rfl rfl]
  split_ifs with h
  · exact (abs_of_neg h).symm
  · exact (abs_of_nonneg (not_lt.mp h)).symm

theorem codeMag_zero (hy : f ≠ .y8s) : codeMag f 0 = 0 := by
  rw [codeMag, if_neg hy, codeSig]
  simp

theorem codeMag_pos {c : Nat} (hc : c ≠ 0) : 0 < codeMag f c :=
  (codeMag_nonneg f 0).trans_lt (codeMag_strictMono f (Nat.pos_of_ne_zero hc))

/-- A code is zero with its significand. -/
theorem packMag_eq_zero {n : Nat} {qe : Int} (h : OnGrid f n qe) : packMag f n qe = 0 ↔ n = 0 := by
  rw [packMag]
  constructor
  · omega
  · rintro rfl
    obtain ⟨-, hqe⟩ := h.2.2 (by positivity)
    rw [hqe, Int.sub_self, Int.toNat_zero, Nat.zero_mul]

/-- What a conversion of a number in range gives, of the code without its sign and whether it differs. -/
def inRange (f : Fmt) (rm : Rnd) (u : Nat) (q : Rat) (c : Nat) (inexact : Bool) : Conv :=
  if !inexact then .exact (signBit f (Rat.isNeg q) + c)
  else if c = 0 then { code := if f.isIeee then signBit f (Rat.isNeg q) else 0, fl := { uf := true, nx := true }, vanish := true, sat := false }
  else { code := signBit f (Rat.isNeg q) + c, fl := { nx := true, uf := tiny f q.num.natAbs q.den (Rat.isNeg q) rm u }, vanish := false, sat := false }

/-- A number in range becomes a code that it rounds to. -/
theorem convFin_eq (hf : f.isInt = false) (hy : f ≠ .y8s) (nonsat : Bool) (rm : Rnd) (u : Nat) {q : Rat} (hq : q ≠ 0) (hm : |q| ≤ f.maxQ) :
    ∃ c inexact, c ≤ f.maxCode ∧ CodeRounds f rm (Rat.isNeg q) |q| c inexact ∧ convFin f nonsat rm u q = inRange f rm u q c inexact := by
  obtain ⟨hround, hgrid⟩ := codeRounds hf (rm := rm) (u := u) hq fun h => absurd h hy
  have hzero := packMag_eq_zero hgrid
  rw [magCode, if_neg hy] at hround
  have hle := hround.le_of_le (hm.trans_eq (codeMag_maxCode hf).symm)
  have htheta : ¬ f.thetaQ ≤ |q| := (hm.trans_lt (maxQ_lt_thetaQ hf)).not_ge
  refine ⟨_, _, hle, hround, ?_⟩
  rw [convFin, rabs_eq, inRange]
  simp only [hzero, decide_eq_false hle.not_gt, decide_eq_false htheta, Bool.and_false, Bool.false_eq_true, if_false, if_neg hm.not_gt]

/-- A positive number in the range of `Y8S` becomes a code that it rounds to. -/
theorem convScale_eq (nonsat : Bool) (rm : Rnd) (u : Nat) {q : Rat} (hlo : pow2 (-127) ≤ q) (hhi : q ≤ pow2 127) :
    ∃ c inexact, c ≤ 0xFE ∧ CodeRounds .y8s rm false q c inexact
      ∧ convScale nonsat rm u (.fin q) = { code := c, fl := { nx := inexact }, vanish := false, sat := false } := by
  have hpos : 0 < q := (pow2_pos _).trans_le hlo
  have habs := abs_of_pos hpos
  have hneg : Rat.isNeg q = false := Bool.eq_false_of_not_eq_true fun h => ((isNeg_iff q).mp h).not_gt hpos
  have hround := (codeRounds (f := .y8s) rfl (rm := rm) (u := u) hpos.ne' fun _ => by rwa [habs]).1
  rw [magCode, if_pos rfl, habs, hneg] at hround
  have hmax : q ≤ (Fmt.y8s).maxQ := hhi
  have htheta : ¬ (Fmt.y8s).thetaQ ≤ q := (hmax.trans_lt (maxQ_lt_thetaQ rfl)).not_ge
  refine ⟨_, _, hround.le_of_le (hmax.trans_eq (codeMag_maxCode rfl).symm), hround, ?_⟩
  rw [convScale]
  simp only [hneg, if_neg htheta, if_neg hhi.not_gt, if_neg hlo.not_gt, Bool.false_eq_true, if_false]

/-! ### The round trip -/

theorem isNeg_signedMag (neg : Bool) {m : Rat} (hm : 0 < m) : Rat.isNeg (signedMag neg m) = neg := by
  rw [isNeg_eq_decide]
  cases neg <;> simp [signedMag, hm, hm.le]

theorem abs_signedMag (neg : Bool) {m : Rat} (hm : 0 ≤ m) : |signedMag neg m| = m := by
  cases neg <;> simp [signedMag, abs_of_nonneg hm]

theorem roundTrip_float (hf : f.isInt = false) (hy : f ≠ .y8s) (nonsat : Bool) (rm : Rnd) (u : Nat) {d : Nat} (hd : d < 2 ^ f.bits)
    (hnan : codeVal f d ≠ .nan) : convert f nonsat rm u (codeVal f d) = .exact d := by
  rw [convert_of_float hf hy]
  rw [codeVal_eq_floatVal hf hy] at hnan ⊢
  obtain ⟨neg, c, hc, rfl⟩ := exists_signBit hf hy hd
  by_cases hmax : c ≤ f.maxCode
  · rw [floatVal_finite hf hy neg hmax] at hnan ⊢
    by_cases h0 : c = 0
    · subst h0
      rw [if_pos rfl] at hnan ⊢
      split_ifs at hnan ⊢ with h
      · exact absurd rfl hnan
      · rw [convFloat, add_zero]
        cases neg <;> cases hi : f.isIeee <;> simp_all [signBit]
    · rw [if_neg h0, convFloat]
      have hpos := codeMag_pos (f := f) h0
      have hne : signedMag neg (codeMag f c) ≠ 0 := by cases neg <;> simp [signedMag, hpos.ne']
      obtain ⟨c', inexact, -, hround, h⟩ := convFin_eq hf hy nonsat rm u hne (by
        rw [abs_signedMag _ hpos.le, ← codeMag_maxCode hf]
        exact (codeMag_strictMono f).monotone hmax)
      rw [abs_signedMag _ hpos.le] at hround
      obtain ⟨rfl, rfl⟩ := hround.of_codeMag
      rw [h, inRange, isNeg_signedMag _ hpos]
      rfl
  · rcases floatVal_beyond hf hy neg (not_le.mp hmax) hc with h | ⟨hi, h, hcode⟩
    · exact absurd h hnan
    · rw [h, hcode, convFloat, if_pos hi]

theorem roundTrip_scale (nonsat : Bool) (rm : Rnd) (u : Nat) {d : Nat} (hd : d < 256) (hnan : codeVal .y8s d ≠ .nan) :
    convert .y8s nonsat rm u (codeVal .y8s d) = .exact d := by
  have hv : codeVal .y8s d = if d = 0xFF then .nan else .fin (pow2 ((d : Int) - 127)) := rfl
  rw [hv] at hnan ⊢
  split_ifs at hnan ⊢ with h
  · exact absurd rfl hnan
  · obtain ⟨c, inexact, -, hround, hc⟩ := convScale_eq nonsat rm u (q := pow2 ((d : Int) - 127)) (pow2_le.mpr (by omega)) (pow2_le.mpr (by omega))
    have hm : codeMag .y8s d = pow2 ((d : Int) - 127) := by rw [codeMag, if_pos rfl]
    rw [← hm] at hround
    obtain ⟨rfl, rfl⟩ := hround.of_codeMag
    exact hc

theorem convInt_whole (rm : Rnd) (u : Nat) {i : Int} (hlo : f.range.1 ≤ i) (hhi : i ≤ f.range.2) :
    convInt f rm u (.ofRat i) = .exact (intCode f i) := by
  rw [Val.ofRat]
  split_ifs with h0
  · obtain rfl : i = 0 := by simpa using h0
    rw [convInt, intCode, Int.zero_emod, Int.toNat_zero]
  · have hround := roundAt_fin (i : Rat) rm u 0
    rw [pow2_eq, zpow_zero, div_one] at hround
    have habs : |(i : Rat)| = (i.natAbs : Rat) := by rw [Nat.cast_natAbs, Int.cast_abs]
    rw [habs] at hround
    rw [convInt_fin rfl]
    generalize roundAt _ _ _ rm u 0 = r at hround ⊢
    obtain ⟨hr2, hr1⟩ : r.2 = false ∧ r.1 = i.natAbs := by
      rcases hround with ⟨h2, h⟩ | ⟨-, n, hlt, hgt, -⟩
      · exact ⟨h2, Nat.cast_inj.mp h⟩
      · have h1 : n < i.natAbs := Nat.cast_lt.mp hlt
        have h2 : i.natAbs < n + 1 := by exact_mod_cast hgt
        omega
    have hs : signed (Rat.isNeg i) r.1 = i := by
      have hneg : Rat.isNeg i = decide (i < 0) := by rw [isNeg_eq_decide, decide_eq_decide, Int.cast_lt_zero]
      rw [hneg, hr1, signed]
      by_cases h : i < 0
      · rw [decide_eq_true h, if_pos rfl]
        omega
      · rw [decide_eq_false h, if_neg Bool.false_ne_true]
        omega
    rw [hs, if_neg (by omega), hr2]
    rfl

end

/-- Settles O20: a code's own magnitude lies in no gap between two codes, so it rounds to that code. -/
theorem formatCodesRoundTrip : Obligations.FormatCodesRoundTrip := by
  unfold Obligations.FormatCodesRoundTrip
  intro f nonsat rm u c hc hnan
  by_cases hi : f.isInt = true
  · have hv : codeVal f c = .ofRat (intVal f c) := by
      cases f
      case s8 | u8 | s4 | s32 => rfl
      all_goals nomatch hi
    obtain ⟨hcode, hlo, hhi⟩ := intCode_intVal hi hc
    rw [convert_of_isInt hi, hv, convInt_whole rm u hlo hhi, hcode]
    rfl
  · have hf := Bool.eq_false_of_not_eq_true hi
    by_cases hy : f = .y8s
    · subst hy
      exact roundTrip_scale nonsat rm u hc hnan
    · exact roundTrip_float hf hy nonsat rm u hc hnan

end Sys2Proof.Machine
end

section
/-! Correct rounding of numbers in range (R46, R47, R60). -/
namespace Sys2Proof.Machine
open Sys2Proof Sys2Proof.Claims

/-- A finite code of a format. -/
def finiteCode (f : Fmt) (d : Nat) : Prop := d < 2 ^ f.bits ∧ codeVal f d ≠ .nan ∧ ∀ n, codeVal f d ≠ .inf n

/-- What a conversion `k` of a number `q` in range is, by the code without a sign that the magnitude rounds to. -/
structure Converted (f : Fmt) (rm : Rnd) (q : Rat) (k : Conv) (c : Nat) : Prop where
  rounds : CodeRounds f rm (Rat.isNeg q) |q| c k.fl.nx
  finite : finiteCode f k.code
  value : (codeVal f k.code).toRat = signedMag (Rat.isNeg q) (codeMag f c)
  vanish : k.vanish = true ↔ codeMag f c = 0
  parity : f ≠ .y8s → k.code % 2 = c % 2
  quiet : k.sat = false ∧ k.fl.ov = false ∧ k.fl.iv = false ∧ k.fl.dz = false

section
variable {f : Fmt}

/-- The value of a finite code with a sign; the negative zero of a format without one is no code. -/
theorem finiteCode_signBit (hf : f.isInt = false) (hy : f ≠ .y8s) (neg : Bool) {c : Nat} (hc : c ≤ f.maxCode) (h0 : c = 0 → neg = true → f.isIeee = true) :
    finiteCode f (signBit f neg + c) ∧ (codeVal f (signBit f neg + c)).toRat = signedMag neg (codeMag f c) := by
  have hlt := signBit_add_lt hf hy neg (hc.trans_lt (float_fields hf hy).2.1)
  rw [finiteCode, codeVal_eq_floatVal hf hy, floatVal_finite hf hy neg hc]
  split_ifs with hz hn
  · obtain ⟨hi, hneg⟩ : f.isIeee = false ∧ neg = true := by simpa using hn
    exact absurd ((h0 hz hneg).symm.trans hi) Bool.noConfusion
  · refine ⟨⟨hlt, nofun, nofun⟩, ?_⟩
    rw [hz, codeMag_zero hy]
    cases neg <;> simp [signedMag, Val.toRat]
  · exact ⟨⟨hlt, nofun, nofun⟩, rfl⟩

theorem signBit_mod_two (hf : f.isInt = false) (hy : f ≠ .y8s) (neg : Bool) : signBit f neg % 2 = 0 := by
  obtain ⟨b, hb⟩ := Nat.exists_eq_succ_of_ne_zero (fbits_pos hf hy).ne'
  rw [signBit_eq hf hy, hb, Nat.add_succ, pow_succ, ← mul_assoc]
  exact Nat.mul_mod_left _ _

theorem codeMag_eq_zero (hy : f ≠ .y8s) {c : Nat} : codeMag f c = 0 ↔ c = 0 :=
  ⟨fun h => (codeMag_strictMono f).injective (h.trans (codeMag_zero hy).symm), fun h => by rw [h, codeMag_zero hy]⟩

theorem converted_float (hf : f.isInt = false) (hy : f ≠ .y8s) (nonsat : Bool) (rm : Rnd) (u : Nat) {q : Rat} (hq : q ≠ 0) (hm : |q| ≤ f.maxQ) :
    ∃ c, Converted f rm q (convert f nonsat rm u (.fin q)) c := by
  obtain ⟨c, inexact, hc, hround, h⟩ := convFin_eq hf hy nonsat rm u hq hm
  refine ⟨c, ?_⟩
  rw [convert_of_float hf hy, convFloat, h, inRange]
  have hpar : (signBit f (Rat.isNeg q) + c) % 2 = c % 2 := by
    have := signBit_mod_two hf hy (Rat.isNeg q)
    omega
  cases inexact
  · have hne : c ≠ 0 := fun h0 => by
      have := (hround.flag.not.mp Bool.false_ne_true)
      rw [not_not, h0, codeMag_zero hy, eq_comm, abs_eq_zero] at this
      exact hq this
    obtain ⟨hfin, hval⟩ := finiteCode_signBit hf hy (Rat.isNeg q) hc fun h => absurd h hne
    exact ⟨hround, hfin, hval, by simp [Conv.exact, codeMag_eq_zero hy, hne], fun _ => hpar, ⟨rfl, rfl, rfl, rfl⟩⟩
  · rw [if_neg (by simp)]
    by_cases h0 : c = 0
    · subst h0
      rw [if_pos rfl]
      have hcode : (if f.isIeee then signBit f (Rat.isNeg q) else 0) = signBit f (Rat.isNeg q && f.isIeee) + 0 := by
        cases f.isIeee <;> simp [signBit]
      obtain ⟨hfin, hval⟩ := finiteCode_signBit hf hy (Rat.isNeg q && f.isIeee) hc fun _ h => ((Bool.and_eq_true _ _).mp h).2
      refine ⟨hround, by rwa [hcode], ?_, by simp [codeMag_zero hy], fun _ => ?_, ⟨rfl, rfl, rfl, rfl⟩⟩
      · rw [hcode, hval, codeMag_zero hy]
        simp [signedMag]
      · rw [hcode, add_zero, signBit_mod_two hf hy]
    · rw [if_neg h0]
      obtain ⟨hfin, hval⟩ := finiteCode_signBit hf hy (Rat.isNeg q) hc fun h => absurd h h0
      exact ⟨hround, hfin, hval, by simp [codeMag_eq_zero hy, h0], fun _ => hpar, ⟨rfl, rfl, rfl, rfl⟩⟩

theorem converted_scale (nonsat : Bool) (rm : Rnd) (u : Nat) {q : Rat} (hlo : pow2 (-127) ≤ q) (hhi : q ≤ pow2 127) :
    ∃ c, Converted .y8s rm q (convert .y8s nonsat rm u (.fin q)) c := by
  have hpos : 0 < q := (pow2_pos _).trans_le hlo
  have hneg : Rat.isNeg q = false := Bool.eq_false_of_not_eq_true fun h => ((isNeg_iff q).mp h).not_gt hpos
  obtain ⟨c, inexact, hc, hround, h⟩ := convScale_eq nonsat rm u hlo hhi
  have hconv : convert .y8s nonsat rm u (.fin q) = { code := c, fl := { nx := inexact }, vanish := false, sat := false } := h
  have hval : codeVal .y8s c = .fin (codeMag .y8s c) := by
    rw [codeMag, if_pos rfl]
    exact if_neg (by omega)
  refine ⟨c, ?_⟩
  rw [hconv]
  refine ⟨by rwa [hneg, abs_of_pos hpos], ⟨?_, by rw [hval]; nofun, by rw [hval]; nofun⟩, by rw [hval, hneg]; rfl, ?_, fun h => absurd rfl h,
    ⟨rfl, rfl, rfl, rfl⟩⟩
  · show c < 256
    omega
  · rw [codeMag, if_pos rfl]
    simp [(pow2_pos _).ne']

/-! ### From magnitudes to numbers -/

theorem signedMag_injective (neg : Bool) : Function.Injective (signedMag neg) := by
  cases neg
  · exact fun _ _ h => h
  · exact neg_injective

theorem signedMag_signedMag (neg : Bool) (m : Rat) : signedMag neg (signedMag neg m) = m := by
  cases neg <;> simp [signedMag]

theorem abs_signedMag_sub (neg : Bool) (m t : Rat) : |signedMag neg m - signedMag neg t| = |m - t| := by
  cases neg
  · rfl
  · simp only [signedMag, if_true, neg_sub_neg, abs_sub_comm]

/-- Seen from the sign of `q`, every finite value is off the gaps. -/
theorem finiteCode.offGaps (hf : f.isInt = false) {d : Nat} (h : finiteCode f d) (neg : Bool) :
    OffGaps f (signedMag neg (codeVal f d).toRat) ∧ OffGaps f |(codeVal f d).toRat| := by
  obtain ⟨hd, hnan, hinf⟩ := h
  obtain ⟨neg', c, hv⟩ := exists_codeMag hf hd hnan hinf
  rw [hv, abs_signedMag _ (codeMag_nonneg f c)]
  refine ⟨?_, offGaps_codeMag f c⟩
  have hneg : OffGaps f (-codeMag f c) := offGaps_of_nonpos (neg_nonpos.mpr (codeMag_nonneg f c))
  cases neg <;> cases neg' <;> simp only [signedMag, if_true, Bool.false_eq_true, if_false, neg_neg]
  case false.false | true.true => exact offGaps_codeMag f c
  case false.true | true.false => exact hneg

section
variable {rm : Rnd} {q : Rat} {k : Conv} {c : Nat}

theorem Converted.flag (h : Converted f rm q k c) : k.fl.nx = true ↔ (codeVal f k.code).toRat ≠ q := by
  have hq : q = signedMag (Rat.isNeg q) |q| := (signed_abs q).symm
  rw [h.rounds.flag, h.value]
  conv_rhs => rhs; rw [hq]
  rw [(signedMag_injective _).ne_iff]

theorem Converted.vanish_iff (h : Converted f rm q k c) : k.vanish = true ↔ (codeVal f k.code).toRat = 0 := by
  rw [h.vanish, h.value, signedMag]
  cases Rat.isNeg q <;> simp

theorem Converted.nearest (hf : f.isInt = false) (h : Converted f .rne q k c) {d : Nat} (hd : finiteCode f d) :
    |q - (codeVal f k.code).toRat| ≤ |q - (codeVal f d).toRat|
      ∧ (f ≠ .y8s → |q - (codeVal f k.code).toRat| = |q - (codeVal f d).toRat| → (codeVal f d).toRat ≠ (codeVal f k.code).toRat → k.code % 2 = 0) := by
  have hq : signedMag (Rat.isNeg q) |q| = q := signed_abs q
  obtain ⟨hnear, htie⟩ := h.rounds.nearest (hd.offGaps hf (Rat.isNeg q)).1
  have hdist (t : Rat) : |q - t| = |(|q|) - signedMag (Rat.isNeg q) t| := by
    rw [← abs_signedMag_sub (Rat.isNeg q) |q|, signedMag_signedMag, hq]
  rw [hdist, hdist, h.value, signedMag_signedMag]
  refine ⟨hnear, fun hy he hne => (h.parity hy).trans (htie he (fun hc => hne ?_) hy)⟩
  rw [← hc, signedMag_signedMag]

theorem Converted.towardsZero (hf : f.isInt = false) (h : Converted f .rtz q k c) :
    |(codeVal f k.code).toRat| ≤ |q| ∧ 0 ≤ (codeVal f k.code).toRat * q
      ∧ ∀ d, finiteCode f d → |(codeVal f d).toRat| ≤ |q| → |(codeVal f d).toRat| ≤ |(codeVal f k.code).toRat| := by
  have hq : signedMag (Rat.isNeg q) |q| = q := signed_abs q
  have hnn := codeMag_nonneg f c
  obtain ⟨hle, hmax⟩ := h.rounds.below (.inl rfl)
  rw [h.value, abs_signedMag _ hnn]
  refine ⟨hle, ?_, fun d hd => hmax _ (hd.offGaps hf false).2⟩
  have hprod : signedMag (Rat.isNeg q) (codeMag f c) * signedMag (Rat.isNeg q) |q| = codeMag f c * |q| := by
    cases Rat.isNeg q <;> simp [signedMag]
  rw [hq] at hprod
  rw [hprod]
  exact mul_nonneg hnn (abs_nonneg q)

theorem Converted.up (hf : f.isInt = false) (h : Converted f .rup q k c) :
    q ≤ (codeVal f k.code).toRat ∧ ∀ d, finiteCode f d → q ≤ (codeVal f d).toRat → (codeVal f k.code).toRat ≤ (codeVal f d).toRat := by
  have hq : signedMag (Rat.isNeg q) |q| = q := signed_abs q
  have hround := h.rounds
  rw [h.value]
  have hoff {d : Nat} (hd : finiteCode f d) := (hd.offGaps hf (Rat.isNeg q)).1
  cases hneg : Rat.isNeg q <;> rw [hneg] at hq hround hoff
  · obtain ⟨hle, hmin⟩ := hround.above (.inl ⟨rfl, rfl⟩)
    have hq' : |q| = q := hq
    rw [hq'] at hle hmin
    exact ⟨hle, fun d hd => hmin _ (hoff hd)⟩
  · obtain ⟨hle, hmax⟩ := hround.below (.inr (.inl ⟨rfl, rfl⟩))
    have hq' : |q| = -q := neg_eq_iff_eq_neg.mp hq
    rw [hq'] at hle hmax
    exact ⟨le_neg_of_le_neg hle, fun d hd hqd => neg_le_of_neg_le (hmax _ (hoff hd) (neg_le_neg hqd))⟩

theorem Converted.down (hf : f.isInt = false) (h : Converted f .rdn q k c) :
    (codeVal f k.code).toRat ≤ q ∧ ∀ d, finiteCode f d → (codeVal f d).toRat ≤ q → (codeVal f d).toRat ≤ (codeVal f k.code).toRat := by
  have hq : signedMag (Rat.isNeg q) |q| = q := signed_abs q
  have hround := h.rounds
  rw [h.value]
  have hoff {d : Nat} (hd : finiteCode f d) := (hd.offGaps hf (Rat.isNeg q)).1
  cases hneg : Rat.isNeg q <;> rw [hneg] at hq hround hoff
  · obtain ⟨hle, hmax⟩ := hround.below (.inr (.inr ⟨rfl, rfl⟩))
    have hq' : |q| = q := hq
    rw [hq'] at hle hmax
    exact ⟨hle, fun d hd => hmax _ (hoff hd)⟩
  · obtain ⟨hle, hmin⟩ := hround.above (.inr ⟨rfl, rfl⟩)
    have hq' : |q| = -q := neg_eq_iff_eq_neg.mp hq
    rw [hq'] at hle hmin
    exact ⟨neg_le_of_neg_le hle, fun d hd hqd => le_neg_of_le_neg (hmin _ (hoff hd) (neg_le_neg hqd))⟩

end

end

/-- Settles O21: the code is one of the two in a row that the magnitude lies between, chosen as the mode says, and no value of the format
lies in that gap. -/
theorem roundingIsCorrect : Obligations.RoundingIsCorrect := by
  unfold Obligations.RoundingIsCorrect
  intro f nonsat rm u q hf hq hm hy8 k v finite value
  have hconv : ∃ c, Converted f rm q k c := by
    by_cases hy : f = .y8s
    · subst hy
      exact converted_scale nonsat rm u (hy8 rfl) ((le_abs_self q).trans hm)
    · exact converted_float hf hy nonsat rm u hq hm
  obtain ⟨c, h⟩ := hconv
  obtain ⟨hsat, hov, hiv, hdz⟩ := h.quiet
  refine ⟨h.finite, h.flag, h.vanish_iff, hsat, hov, hiv, hdz, fun hrm d hd => ?_, fun hrm hy d hd => ?_, fun hrm => ?_, fun hrm => ?_, fun hrm => ?_⟩
  · exact (Converted.nearest hf (hrm ▸ h) hd).1
  · exact (Converted.nearest hf (hrm ▸ h) hd).2 hy
  · exact Converted.towardsZero hf (hrm ▸ h)
  · exact Converted.up hf (hrm ▸ h)
  · exact Converted.down hf (hrm ▸ h)

end Sys2Proof.Machine
end

section
/-! What the writes of a beat or a row change, and what a beat's segments leave alone. -/
namespace Sys2Proof.Machine
open Sys2Proof Sys2Proof.Claims

/-! ### Slots published -/

/-- From `s` to `t` claims and rolls have changed, and nothing else. -/
def OnlyClaims (s t : State) : Prop := t = { s with stream := { s.stream with claims := t.stream.claims }, rolls := t.rolls }

namespace OnlyClaims
variable {s t u : State}

theorem refl (s : State) : OnlyClaims s s := rfl

theorem trans (h : OnlyClaims s t) (k : OnlyClaims t u) : OnlyClaims s u := by
  unfold OnlyClaims at *
  rw [k, h]

theorem publish (s : State) (i : Nat) : OnlyClaims s (s.publish i) := by
  rw [State.publish]
  split <;> rfl

theorem eq (h : OnlyClaims s t) : t = { s with stream := { s.stream with claims := t.stream.claims }, rolls := t.rolls } := h

theorem stream (h : OnlyClaims s t) : t.stream = { s.stream with claims := t.stream.claims } := congrArg State.stream h.eq

theorem frame (h : OnlyClaims s t) : t = { s with stream := t.stream, rolls := t.rolls } := by
  rw [h.stream]
  exact h

theorem inflight? (h : OnlyClaims s t) (g : W16) : t.inflight? g = s.inflight? g :=
  (congrArg (fun x : State => x.inflight? g) h.eq).trans rfl

theorem inflight (h : OnlyClaims s t) : t.stream.inflight = s.stream.inflight :=
  (congrArg (fun x : State => x.stream.inflight) h.eq).trans rfl

theorem spad (h : OnlyClaims s t) : t.spad = s.spad := (congrArg State.spad h.eq).trans rfl

theorem st (h : OnlyClaims s t) : t.st = s.st := (congrArg State.st h.eq).trans rfl

theorem complete (s : State) (c : Claim) (k : Nat) : OnlyClaims s (s.complete c k) := by
  rw [State.complete]
  split
  · exact refl s
  · exact trans (t := s.modClaim c fun c => { c with done := max c.done k }) rfl (publish _ _)

theorem foldl {α : Type} {f : State → α → State} (h : ∀ s x, OnlyClaims s (f s x)) (xs : List α) (s : State) : OnlyClaims s (xs.foldl f s) := by
  induction xs generalizing s with
  | nil => exact refl s
  | cons x xs ih => exact (h s x).trans (ih _)

theorem rollProgress (s : State) (tag : W16) : OnlyClaims s (s.rollProgress tag) := by
  unfold State.rollProgress
  split
  · exact refl s
  · exact foldl (fun _ _ => complete _ _ _) _ _

end OnlyClaims

/-- A command without claims publishes nothing. -/
theorem State.rollProgress_none {s : State} {tag : W16} (h : ∀ x ∈ s.stream.claims, x.tag ≠ tag) : s.rollProgress tag = s := by
  have hf : (s.stream.claims.filter fun x => x.tag == tag) = [] := List.filter_eq_nil_iff.mpr fun x hx => by simpa using h x hx
  unfold State.rollProgress
  split
  · rfl
  · simp only [hf, List.zip_nil_right]
    rfl

/-! ### Writes committed -/

theorem commandOnly_of_onlyCommand {s w t : State} {tag : W16} {d e : Inflight} (h : onlyCommand s w tag d) (hr : w.rolls = s.rolls)
    (k : commandOnly w t tag e) : commandOnly s t tag e := by
  obtain ⟨h1, h2, -, h4⟩ := h
  obtain ⟨k1, k2, k3, k4, k5⟩ := k
  have hc : w.stream.claims = s.stream.claims := by rw [h1]
  refine ⟨by rw [k1, h1], k2.trans h2, k3, fun g hg => (k4 g hg).trans (h4 g hg), fun hx => ?_⟩
  rw [hc, hr] at k5
  exact k5 hx

/-- Writes change claims and rolls at most beside their own places. -/
theorem commandOnly_onlyClaims {s w t : State} {tag : W16} {d : Inflight} (h : onlyCommand s w tag d) (hr : w.rolls = s.rolls)
    (k : OnlyClaims w t) (hnone : (∀ x ∈ w.stream.claims, x.tag ≠ tag) → t = w) : commandOnly s t tag d := by
  obtain ⟨-, -, hin, -⟩ := id h
  refine commandOnly_of_onlyCommand h hr ⟨?_, by rw [k.inflight], (k.inflight? tag).trans hin, fun g _ => k.inflight? g,
    fun hx => by rw [hnone hx]; exact ⟨rfl, rfl⟩⟩
  rw [k.inflight]
  exact k.stream

section
variable {w : State} {tag : W16} {e : Inflight} (ws : List Wr)

/-- A command goes on with writes that it gathers. -/
def Inflight.gathering (ws : List Wr) (c : Inflight) : Inflight := { c with gather := ws }

theorem State.commitBeat_eq (hin : w.inflight? tag = some e) (hm : e.muted = false) (hc : e.conflict = none) :
    w.commitBeat tag ws = ((w.modInflight tag (Inflight.gathering (kept e ws))).doWrites tag (written e ws)).rollProgress tag := by
  have hw (x : Wr) : (!e.withheld x) = true := by
    cases x <;> simp [Inflight.withheld, hc]
  have hall : (e.gather ++ ws).filter (fun x => !e.withheld x) = e.gather ++ ws := List.filter_eq_self.mpr fun x _ => hw x
  have hkeep : (if e.due.isEmpty then [] else (e.gather ++ ws).filter e.gathers) = kept e ws := by
    rw [kept]
    cases e.due.isEmpty <;> simp
  have hnow : (if e.due.isEmpty then e.gather ++ ws else (e.gather ++ ws).filter fun x => !e.gathers x) = written e ws := by
    rw [written]
    cases e.due.isEmpty <;> simp
  unfold State.commitBeat
  rw [hin]
  dsimp only
  rw [hm, if_neg Bool.false_ne_true, if_neg Bool.false_ne_true, hall, hkeep, hnow]
  rfl

theorem State.commitBeat_spec (hin : w.inflight? tag = some e) (hm : e.muted = false) (hc : e.conflict = none) (hspad : w.spad.synd = []) :
    let t := w.commitBeat tag ws
    commandOnly w t tag { e with gather := kept e ws } ∧ storesOnly w t (written e ws) ∧ lanesOnly w t (written e ws)
      ∧ t.st.rowTab = w.st.rowTab ∧ t = { w with stream := t.stream, st := t.st, spad := t.spad, rolls := t.rolls } := by
  intro t
  have ht : t = ((w.modInflight tag (Inflight.gathering (kept e ws))).doWrites tag (written e ws)).rollProgress tag :=
    State.commitBeat_eq ws hin hm hc
  rw [State.doWrites_clean (s := w.modInflight tag (Inflight.gathering (kept e ws))) _ _ hspad] at ht
  have hone := State.onlyCommand_modInflight hin (f := Inflight.gathering (kept e ws)) fun _ => rfl
  generalize hv : ({ w.modInflight tag (Inflight.gathering (kept e ws)) with
    spad := (w.modInflight tag (Inflight.gathering (kept e ws))).spad.wrote ((memWrites (written e ws)).filter fun x =>
      decide (x.1 < (w.modInflight tag (Inflight.gathering (kept e ws))).spadBytes))
    st := (w.modInflight tag (Inflight.gathering (kept e ws))).st.wrote (written e ws) } : State) = v at ht
  have hv' : v = { w with
      stream := (w.modInflight tag (Inflight.gathering (kept e ws))).stream
      spad := w.spad.wrote ((memWrites (written e ws)).filter fun x => decide (x.1 < w.spadBytes)), st := w.st.wrote (written e ws) } :=
    hv.symm
  have hroll := OnlyClaims.rollProgress v tag
  rw [← ht] at hroll
  have hspad' : t.spad = v.spad := hroll.spad
  have hst : t.st = v.st := hroll.st
  refine ⟨?_, storesOnly_wrote _ t (by rw [hspad', hv']), ⟨by rw [hst, hv']; rfl, fun i hi => ?_⟩, by rw [hst, hv']; rfl, ?_⟩
  · have hcmd : onlyCommand w v tag { e with gather := kept e ws } := onlyCommand_congr hone rfl rfl (by rw [hv'])
    exact commandOnly_onlyClaims hcmd (by rw [hv']) hroll fun hx => ht.trans (State.rollProgress_none hx)
  · rw [hst, hv']
    exact sparseGet_tillWrites_of_ne _ (written e ws) hi
  · rw [hst, hspad']
    refine hroll.frame.trans ?_
    rw [hv']

theorem Spad.wrote_nil (p : Spad) : p.wrote [] = p := by
  rw [Spad.wrote]
  split
  · rfl
  · simp [Spad.cancelWb, touchedWords, mergeBytes]

/-- Writes of a command that is muted are withheld. -/
theorem State.commitBeat_muted (hin : w.inflight? tag = some e) (hm : e.muted = true) (hspad : w.spad.synd = []) :
    w.commitBeat tag ws = w.modInflight tag (Inflight.gathering []) := by
  unfold State.commitBeat
  rw [hin]
  dsimp only
  rw [hm, if_pos rfl, if_pos rfl, List.filter_nil, List.filter_nil, ite_self]
  refine (State.doWrites_clean (s := w.modInflight tag (Inflight.gathering [])) tag [] hspad).trans ?_
  rw [Stores.wrote_mem _ (ws := []) (fun _ h => nomatch h), memWrites, List.filterMap_nil, List.filter_nil, Spad.wrote_nil]

end

/-! ### What segments leave alone -/

/-- From `s` to `t` lines of the row-state table and the activity counters have changed, and nothing else. -/
def OnlyRows (s t : State) : Prop :=
  t = { s with st := { s.st with rowTab := t.st.rowTab, rowSynd := t.st.rowSynd, rowBad := t.st.rowBad }, act := t.act }

namespace OnlyRows
variable {s t u : State}

theorem eq (h : OnlyRows s t) : t = { s with st := { s.st with rowTab := t.st.rowTab, rowSynd := t.st.rowSynd, rowBad := t.st.rowBad }, act := t.act } := h

theorem refl (s : State) : OnlyRows s s := rfl

theorem trans (h : OnlyRows s t) (k : OnlyRows t u) : OnlyRows s u := by
  unfold OnlyRows at *
  rw [k, h]

theorem storeRow (s : State) (line : Nat) (r : RowSt) : OnlyRows s (s.storeRow line r) := rfl

theorem bump (s : State) (i k : Nat) : OnlyRows s (s.bump i k) := rfl

end OnlyRows

/-- What a beat under work keeps: the command's name, the conflict that it met and whether it is muted, and the unit but for row states and
counters. -/
structure BeatAcc.Kept (s : State) (c : Inflight) (a : BeatAcc) : Prop where
  unit : OnlyRows s a.st
  slot : a.c.slot = c.slot
  muted : a.c.muted = c.muted
  conflict : a.c.conflict = c.conflict

namespace BeatAcc
variable {s : State} {c : Inflight} {a : BeatAcc}

theorem run_kept (h : a.Kept s c) (x : Flow) (r : Option RowSt) (o : OutRun) (pos : Nat) : (a.run x r o pos).1.Kept s c :=
  ⟨h.unit, h.slot, h.muted, h.conflict⟩

theorem runs_kept (h : a.Kept s c) (x : Flow) (r : Option RowSt) (pos : Nat) (os : List OutRun) : (a.runs x r pos os).1.Kept s c := by
  induction os generalizing a r with
  | nil => exact h
  | cons o os ih => exact ih (run_kept h x r o pos) _

theorem packRow_kept (h : a.Kept s c) (x : Flow) (row : Nat) (keeps : List Bool) : (a.packRow x row keeps).Kept s c := by
  unfold BeatAcc.packRow
  extract_lets m l ps n its d e
  exact run_kept (a := { a with c := e }) ⟨h.unit, h.slot, h.muted, h.conflict⟩ _ _ _ _

theorem keepRow_kept (h : a.Kept s c) (line : Nat) (r : RowSt) : (a.keepRow line r).Kept s c :=
  ⟨h.unit.trans (OnlyRows.storeRow _ _ _), h.slot, h.muted, h.conflict⟩

theorem segment_kept (h : a.Kept s c) (x : Flow) (b : Beat) (sg : Seg) : (a.segment x b sg).Kept s c := by
  have h1 (n k : Nat) (d : Inflight) (hd : d.slot = a.c.slot ∧ d.muted = a.c.muted ∧ d.conflict = a.c.conflict) (ws : List Wr) (back : List (Nat × W32)) :
      ({ a with st := (a.st.bump 14 n).bump 16 k, c := d, ws := ws, back := back } : BeatAcc).Kept s c :=
    ⟨(h.unit.trans (OnlyRows.bump _ _ _)).trans (OnlyRows.bump _ _ _), hd.1.trans h.slot, hd.2.1.trans h.muted, hd.2.2.trans h.conflict⟩
  unfold BeatAcc.segment
  extract_lets m es first i r o stage d e a1 t a2
  have ha1 : a1.Kept s c := h1 _ _ e ⟨rfl, rfl, rfl⟩ _ _
  have ha2 : a2.Kept s c := by
    have ht : t.1.Kept s c := runs_kept ha1 _ _ _ _
    unfold a2
    split
    case h_1 => exact keepRow_kept ht _ _
    case h_2 => exact ht
  split
  · exact packRow_kept ha2 _ _ _
  · exact ha2

theorem segments_kept (h : a.Kept s c) (x : Flow) (b : Beat) (sgs : List Seg) : (a.segments x b sgs).Kept s c := by
  induction sgs generalizing a with
  | nil => exact h
  | cons sg sgs ih => exact ih (segment_kept h x b sg)

theorem mergeBeat_kept (h : a.Kept s c) (m : Cmd) (row : Nat) : (a.mergeBeat m row).Kept s c := by
  unfold BeatAcc.mergeBeat
  dsimp only
  split
  · exact ⟨h.unit, h.slot, h.muted, h.conflict⟩
  · exact ⟨h.unit.trans (OnlyRows.bump _ _ _), h.slot, h.muted, h.conflict⟩

end BeatAcc

end Sys2Proof.Machine
end

section
/-! Beats and hard beats complete their writes (R67, R96, R109 to R112, R267, R270). -/
namespace Sys2Proof.Machine
open Sys2Proof Sys2Proof.Claims

/-! ### A command replaced -/

/-- The command with a tag replaced by another state of it. -/
theorem State.onlyCommand_replace {s : State} {tag : W16} {c d : Inflight} (h : s.inflight? tag = some c) (hd : d.tag = tag) :
    onlyCommand s (s.modInflight tag fun _ => d) tag d := by
  refine ⟨rfl, length_updateFirst _ _ _, ?_, fun g hg => ?_⟩
  · refine (find?_updateFirst_self (fun c : Inflight => c.tag == tag) (fun _ _ => beq_iff_eq.mpr hd) s.stream.inflight).trans ?_
    rw [show s.stream.inflight.find? (fun c => c.tag == tag) = some c from h]
    rfl
  · refine find?_updateFirst_of_disjoint (p := fun c : Inflight => c.tag == tag) (fun x hx => ?_) (fun x _ => ?_) s.stream.inflight
    · rw [beq_iff_eq] at hx
      simp [hx, Ne.symm hg]
    · simp [hd, Ne.symm hg]

/-! ### The beat under work -/

section
variable {s : State} {c : Inflight} {b : Beat} {rest : List Beat}

/-- The oldest beat of a command as S2 to S6 leave it. -/
def State.beatWork (s : State) (c : Inflight) (b : Beat) (rest : List Beat) : BeatAcc :=
  let a0 : BeatAcc := { st := s, c := { c with beats := rest, since := s.tb.cycle }, ws := [], back := [], hard := 0, n := 0 }
  if c.cmd.op = .merge then a0.mergeBeat c.cmd b.idx else a0.segments (s.flow c c.cmd) b ((c.cmd.geo c.regs).segs b.idx)

theorem State.beatWork_kept (s : State) (c : Inflight) (b : Beat) (rest : List Beat) : (s.beatWork c b rest).Kept s c := by
  have h0 : BeatAcc.Kept s c { st := s, c := { c with beats := rest, since := s.tb.cycle }, ws := [], back := [], hard := 0, n := 0 } :=
    ⟨OnlyRows.refl s, rfl, rfl, rfl⟩
  rw [State.beatWork]
  split
  · exact BeatAcc.mergeBeat_kept h0 _ _
  · exact BeatAcc.segments_kept h0 _ _ _

/-- From `s` to `t` the activity counters have changed, and nothing else. -/
def OnlyAct (s t : State) : Prop := t = { s with act := t.act }

theorem OnlyAct.trans {s t u : State} (h : OnlyAct s t) (k : OnlyAct t u) : OnlyAct s u := by
  unfold OnlyAct at *
  rw [k, h]

theorem OnlyAct.bump {s t : State} (h : OnlyAct s t) (i k : Nat) : OnlyAct s (t.bump i k) := h.trans rfl

theorem OnlyAct.countBeat (u : State) (m : Cmd) (n : Nat) (back : Bool) : OnlyAct u (u.countBeat m c b n back) := by
  have h : OnlyAct u u := rfl
  exact ((((h.bump _ _).bump _ _).bump _ _).bump _ _).bump _ _

/-- The unit after a beat's work, before its writes: its write-back is presented and it is counted. -/
def BeatAcc.after (a : BeatAcc) (c : Inflight) (b : Beat) : State :=
  (if a.back.isEmpty || c.muted then a.st else a.st.modOut fun o => { o with acc := o.acc ++ [a.back] }).countBeat c.cmd c b a.n (!a.back.isEmpty)

theorem BeatAcc.after_frame {a : BeatAcc} (h : a.Kept s c) : a.after c b = { s with
    st := { s.st with rowTab := a.st.st.rowTab, rowSynd := a.st.st.rowSynd, rowBad := a.st.st.rowBad }, act := (a.after c b).act
    out := if c.muted ∨ a.back = [] then s.out else { s.out with acc := s.out.acc ++ [a.back] } } := by
  have hsplit : (a.back.isEmpty || c.muted) = true ↔ c.muted ∨ a.back = [] := by
    rw [Bool.or_eq_true, List.isEmpty_iff, or_comm]
  have hact : OnlyAct (if a.back.isEmpty || c.muted then a.st else a.st.modOut fun o => { o with acc := o.acc ++ [a.back] }) (a.after c b) :=
    OnlyAct.countBeat _ _ _ _
  refine Eq.trans hact ?_
  generalize (a.after c b).act = x
  by_cases hm : (a.back.isEmpty || c.muted) = true
  · rw [if_pos hm, if_pos (hsplit.mp hm)]
    exact congrArg (fun w : State => ({ w with act := x } : State)) h.unit.eq
  · rw [if_neg hm, if_neg (mt hsplit.mpr hm)]
    exact congrArg (fun w : State => ({ w with act := x, out := { w.out with acc := w.out.acc ++ [a.back] } } : State)) h.unit.eq

/-- A beat waits for the precise pipe. -/
def BeatAcc.waits (a : BeatAcc) (b : Beat) : Inflight := { a.c with hard := a.c.hard ++ [{ idx := b.idx, writes := a.ws, groups := a.hard }] }

theorem State.writeConflict_none (h : c.conflict = none ∨ c.fault ≠ none) (n : Nat) : s.writeConflict c n = s := by
  unfold State.writeConflict
  split
  · next k hk =>
    have hf : c.fault.isNone = false := Option.isNone_eq_false_iff.mpr (Option.isSome_iff_ne_none.mpr (h.resolve_left (by simp [hk])))
    rw [hf, Bool.and_false, if_neg Bool.false_ne_true]
  · rfl

theorem State.beatWriteComplete_eq (hs : started s) (hfind : (s.stream.inflight.find? fun c => !c.beats.isEmpty) = some c)
    (hin : s.inflight? c.tag = some c) (hb : c.beats = b :: rest) (hstop : s.stopped c.tag = false) (hq : s.queueFull = false)
    (hconf : c.conflict = none ∨ c.fault ≠ none) :
    s.beatWriteComplete = if (s.beatWork c b rest).hard = 0 then
        (((s.beatWork c b rest).after c b).modInflight c.tag fun _ => (s.beatWork c b rest).c).commitBeat c.tag (s.beatWork c b rest).ws
      else ((s.beatWork c b rest).after c b).modInflight c.tag fun _ => (s.beatWork c b rest).waits b := by
  rw [State.beatWriteComplete, hfind]
  dsimp only
  rw [running_of s hs.1 hs.2, hstop, hq, if_neg (by decide)]
  unfold State.writeBeat
  rw [hb]
  dsimp only
  rw [State.writeConflict_none hconf, hin, Option.getD_some]
  rfl

end

/-! ### A step that commits writes -/

/-- `w` is `s` but for commands, row states, counters and what is presented: a step just before its writes. -/
def Poised (s w : State) : Prop :=
  w = { s with
    stream := w.stream, st := { s.st with rowTab := w.st.rowTab, rowSynd := w.st.rowSynd, rowBad := w.st.rowBad }, act := w.act, out := w.out }

section
variable {s w t : State} {tag : W16} {d : Inflight} {ws : List Wr}

namespace Poised

theorem eq (h : Poised s w) : w = { s with
    stream := w.stream, st := { s.st with rowTab := w.st.rowTab, rowSynd := w.st.rowSynd, rowBad := w.st.rowBad }, act := w.act, out := w.out } := h

theorem spad (h : Poised s w) : w.spad = s.spad := (congrArg State.spad h.eq).trans rfl

theorem rolls (h : Poised s w) : w.rolls = s.rolls := (congrArg State.rolls h.eq).trans rfl

theorem ledger (h : Poised s w) : w.ledger = s.ledger := (congrArg State.ledger h.eq).trans rfl

theorem modInflight (h : Poised s w) (tag : W16) (f : Inflight → Inflight) : Poised s (w.modInflight tag f) :=
  (congrArg (fun x : State => ({ x with stream := (w.modInflight tag f).stream } : State)) h.eq).trans rfl

theorem bytes (h : Poised s w) : w.spadBytes = s.spadBytes := (congrArg State.spadBytes h.eq).trans rfl

theorem st (h : Poised s w) : w.st = { s.st with rowTab := w.st.rowTab, rowSynd := w.st.rowSynd, rowBad := w.st.rowBad } :=
  (congrArg State.st h.eq).trans rfl

theorem storesOnly (h : Poised s w) (k : storesOnly w t ws) : storesOnly s t ws := by
  unfold Claims.storesOnly at k ⊢
  rwa [h.spad, h.bytes] at k

theorem lanesOnly (h : Poised s w) (k : lanesOnly w t ws) : lanesOnly s t ws := by
  obtain ⟨k1, k2⟩ := k
  rw [h.st] at k1 k2
  exact ⟨k1, k2⟩

theorem frame (h : Poised s w) (k : t = { w with stream := t.stream, st := t.st, spad := t.spad, rolls := t.rolls }) :
    t = { s with stream := t.stream, st := t.st, spad := t.spad, rolls := t.rolls, out := w.out, act := w.act } :=
  k.trans (congrArg (fun x : State => ({ x with stream := t.stream, st := t.st, spad := t.spad, rolls := t.rolls } : State)) h.eq)

theorem self (h : Poised s w) : w = { s with stream := w.stream, st := w.st, spad := w.spad, rolls := w.rolls, out := w.out, act := w.act } :=
  h.frame rfl

end Poised

/-- A command has gone on as `d`, and its new writes are committed. -/
theorem committed (h : Poised s w) (ho : onlyCommand s w tag d) (hm : d.muted = false) (hc : d.conflict = none) (hspad : s.spad.synd = [])
    (ws : List Wr) :
    let t := w.commitBeat tag ws
    commandOnly s t tag { d with gather := kept d ws } ∧ storesOnly s t (written d ws) ∧ lanesOnly s t (written d ws)
      ∧ t.st.rowTab = w.st.rowTab ∧ t.out = w.out ∧ t.act = w.act ∧ t.ledger = s.ledger
      ∧ t = { s with stream := t.stream, st := t.st, spad := t.spad, rolls := t.rolls, out := t.out, act := t.act } := by
  intro t
  obtain ⟨h1, h2, h3, h4, h5⟩ := State.commitBeat_spec ws ho.2.2.1 hm hc (by rwa [h.spad])
  have hf : t = { s with stream := t.stream, st := t.st, spad := t.spad, rolls := t.rolls, out := w.out, act := w.act } := h.frame h5
  have hout : t.out = w.out := (congrArg State.out hf).trans rfl
  have hact : t.act = w.act := (congrArg State.act hf).trans rfl
  exact ⟨commandOnly_of_onlyCommand ho h.rolls h1, h.storesOnly h2, h.lanesOnly h3, h4, hout, hact, (congrArg State.ledger hf).trans rfl,
    by rw [hout, hact]; exact hf⟩

theorem lanesOnly_nil (h : Poised s t) : lanesOnly s t [] := by
  have hst := h.st
  have h1 : t.st.till = s.st.till := by rw [hst]
  have h2 : t.st.tillSynd = s.st.tillSynd := by rw [hst]
  have h3 : t.st.tillBad = s.st.tillBad := by rw [hst]
  refine ⟨?_, fun i _ => by rw [h1]⟩
  rw [h1, h2, h3]
  exact hst

end

/-- A step that has worked on a beat and replaced its command. -/
theorem BeatAcc.poised {s : State} {c d : Inflight} {a : BeatAcc} (h : a.Kept s c) (hin : s.inflight? c.tag = some c) (hd : d.slot = c.slot) (b : Beat) :
    let w := (a.after c b).modInflight c.tag fun _ => d
    Poised s w ∧ onlyCommand s w c.tag d ∧ w.st.rowTab = a.st.st.rowTab
      ∧ w.out = if c.muted ∨ a.back = [] then s.out else { s.out with acc := s.out.acc ++ [a.back] } := by
  intro w
  have hafter := BeatAcc.after_frame h (b := b)
  have hstream : (a.after c b).stream = s.stream := (congrArg State.stream hafter).trans rfl
  have hst : w.st = { s.st with rowTab := a.st.st.rowTab, rowSynd := a.st.st.rowSynd, rowBad := a.st.st.rowBad } :=
    (State.modInflight_st _ _ _).trans (congrArg State.st hafter)
  have hout : w.out = if c.muted ∨ a.back = [] then s.out else { s.out with acc := s.out.acc ++ [a.back] } :=
    (State.modInflight_out _ _ _).trans (congrArg State.out hafter)
  have hone := State.onlyCommand_replace (d := d) ((State.inflight?_congr hstream _).trans hin) (by rw [Inflight.tag, hd, ← Inflight.tag])
  refine ⟨?_, onlyCommand_congr hone hstream.symm rfl rfl, by rw [hst], hout⟩
  have hw : w = { s with stream := w.stream, st := w.st, act := w.act, out := w.out } := by
    rw [hst, hout]
    exact congrArg (fun x : State => ({ x with stream := w.stream } : State)) hafter
  exact hw.trans (by rw [hst])

/-- A command whose hard beats are now `hs`. -/
def Inflight.resolved (hs : List HardBeat) (cycle : Nat) (c : Inflight) : Inflight := { c with hard := hs, since := cycle }

/-- Settles O18: a beat's work keeps everything but its command, row states and counters, and the commit of its writes changes their own
places alone. -/
theorem beatCompletesItsWrites : Obligations.BeatCompletesItsWrites := by
  unfold Obligations.BeatCompletesItsWrites
  refine ⟨fun c b rest s hs hfind hin hb hstop hq hspad => ?_, fun c h hs s hst hfind hh hin hstop => ?_⟩
  · intro a0 a frame
    have hkept : a.Kept s c := s.beatWork_kept c b rest
    have hexec (hconf : c.conflict = none ∨ c.fault ≠ none) :
        s.beatWriteComplete = if a.hard = 0 then ((a.after c b).modInflight c.tag fun _ => a.c).commitBeat c.tag a.ws
          else (a.after c b).modInflight c.tag fun _ => a.waits b := State.beatWriteComplete_eq hs hfind hin hb hstop hq hconf
    have hnext {t : State} (h : s.beatWriteComplete = t) (hl : t.ledger = s.ledger) : exec .beatWriteComplete s = .next t :=
      congrArg Host.Outcome.next ((congrArg (State.cycleLog · s) h).trans (State.cycleLog_same t s hl))
    clear_value a
    refine ⟨fun hconf hm hh => ?_, fun hconf hh => ?_, fun hm hconf hh => ?_⟩
    · obtain ⟨hp, ho, hrow, hout⟩ := BeatAcc.poised hkept hin hkept.slot b
      obtain ⟨h1, h2, h3, h4, h5, -, hled, h6⟩ := committed hp ho (hkept.muted.trans hm) (hkept.conflict.trans hconf) hspad a.ws
      exact ⟨_, hnext ((hexec (.inl hconf)).trans (if_pos hh)) hled, h1, h2, h4.trans hrow, h3, h5.trans hout, h6⟩
    · obtain ⟨hp, ho, hrow, hout⟩ := BeatAcc.poised (d := a.waits b) hkept hin hkept.slot b
      exact ⟨_, hnext ((hexec hconf).trans (if_neg hh)) hp.ledger, commandOnly_of ho hp.rolls, hp.spad, hp.rolls, hrow, lanesOnly_nil hp, hout,
        hp.self⟩
    · obtain ⟨hp, ho, hrow, hout⟩ := BeatAcc.poised hkept hin hkept.slot b
      have hp' := hp.modInflight c.tag (Inflight.gathering [])
      have hmute := State.commitBeat_muted a.ws ho.2.2.1 (hkept.muted.trans hm) (by rwa [hp.spad])
      have ho' := onlyCommand_trans ho (State.onlyCommand_modInflight ho.2.2.1 (f := Inflight.gathering []) fun _ => rfl)
      exact ⟨_, hnext (((hexec (.inr hconf)).trans (if_pos hh)).trans hmute) hp'.ledger, commandOnly_of ho' hp'.rolls, hp'.spad, hp'.rolls,
        (congrArg Stores.rowTab (State.modInflight_st _ _ _)).trans hrow, lanesOnly_nil hp', (State.modInflight_out _ _ _).trans hout, hp'.self⟩
  · intro left d
    have hexec : s.hardCaseResolution = if left = 0 then
          (s.modInflight c.tag (Inflight.resolved hs s.tb.cycle)).commitBeat c.tag h.writes
        else s.modInflight c.tag (Inflight.resolved ({ h with groups := left } :: hs) s.tb.cycle) := by
      rw [State.hardCaseResolution, hfind]
      dsimp only
      rw [running_of s hst.1 hst.2, hstop, if_neg (by decide), hh]
      rfl
    have hnext {t : State} (h : s.hardCaseResolution = t) (hl : t.ledger = s.ledger) : exec .hardCaseResolution s = .next t :=
      congrArg Host.Outcome.next ((congrArg (State.cycleLog · s) h).trans (State.cycleLog_same t s hl))
    refine ⟨fun hl => ?_, fun hl hconf hm hspad => ?_⟩
    · exact ⟨_, hnext (hexec.trans (if_neg hl)) rfl, State.onlyCommand_modInflight hin (f := Inflight.resolved _ s.tb.cycle) fun _ => rfl, rfl⟩
    · have hp : Poised s (s.modInflight c.tag (Inflight.resolved hs s.tb.cycle)) := rfl
      have ho := State.onlyCommand_modInflight hin (f := Inflight.resolved hs s.tb.cycle) fun _ => rfl
      obtain ⟨h1, h2, h3, h4, h5, h6, hled, h7⟩ := committed hp ho hm hconf hspad h.writes
      refine ⟨_, hnext (hexec.trans (if_pos hl)) hled, h1, h2, h3, h4, ?_⟩
      rw [h5, h6] at h7
      exact h7

end Sys2Proof.Machine
end

section
/-! Row results (R86, R148, R150, R270). -/
namespace Sys2Proof.Machine
open Sys2Proof Sys2Proof.Claims

/-! ### What the reads of a row leave alone -/

section
variable (s : State)

theorem State.dropAcc_spad (tag : W16) : (s.dropAcc tag).spad = s.spad := by
  rw [State.dropAcc]
  split <;> rfl

theorem State.failAfter_spad (c : Inflight) (code : W16) (detail : List Byte) : (s.failAfter c code detail).spad = s.spad :=
  s.dropAcc_spad c.tag

theorem State.codeEvent_spad (n addr : Nat) (tag : W16) (ctx : Option (BitVec 3)) (syn : Byte) (x : Syndrome) :
    (s.codeEvent n addr tag ctx syn x).spad = s.spad := by
  rw [State.codeEvent]
  split
  · exact State.logLimited_spad _ _ _ _ _ _
  · split <;> rfl

theorem State.readCodes_spad (n : Nat) (tag : W16) (ctx : Option (BitVec 3)) (places : List Nat) (es : List (Nat × Byte)) :
    (s.readCodes n tag ctx places es).spad = s.spad := by
  induction es generalizing s with
  | nil => rfl
  | cons e es ih =>
    rw [State.readCodes]
    split
    · exact (ih _).trans (State.codeEvent_spad _ _ _ _ _ _ _)
    · exact ih _

theorem State.readStructure_spad (n : Nat) (tag : W16) (ctx : Option (BitVec 3)) (places : List Nat) :
    (s.readStructure n tag ctx places).spad = s.spad := by
  rw [State.readStructure]
  split
  · rfl
  · exact State.readCodes_spad _ _ _ _ _ _

theorem State.readStores_spad (c : Inflight) (m : Cmd) (es ls : List Nat) : (s.readStores c m es ls).1.spad = s.spad :=
  ((State.readStructure_spad _ _ _ _ _).trans (State.readStructure_spad _ _ _ _ _)).trans (State.readStructure_spad _ _ _ _ _)

end

section
variable {s : State}

theorem State.readInputs_spad (h : s.spad.synd = []) (c : Inflight) (m : Cmd) (ws es ls : List Nat) : (s.readInputs c m ws es ls).1.spad = s.spad := by
  unfold State.readInputs
  rw [State.readOrFail_clean h]
  dsimp only
  rw [if_neg (by decide)]
  split
  · exact State.readStores_spad _ _ _ _ _
  · exact (State.failAfter_spad _ _ _ _).trans (State.readStores_spad _ _ _ _ _)

/-- Taking up the state of a row that no beat reaches changes no byte of the scratchpad. -/
theorem State.emptyRow_spad (h : s.spad.synd = []) (c : Inflight) (m : Cmd) (r : Nat) : (s.emptyRow c m r).spad = s.spad := by
  unfold State.emptyRow
  extract_lets g ps ws l w i pre x0 x
  have hw : w.1.spad = s.spad := State.readInputs_spad h _ _ _ _ _
  clear_value w
  split
  · rfl
  split
  · exact hw
  split
  · exact (State.failAfter_spad _ _ _ _).trans hw
  · exact hw

theorem State.emptyRow_cycle (c : Inflight) (m : Cmd) (r : Nat) : (s.emptyRow c m r).tb = s.tb := congrArg Outer.tb (State.emptyRow_outer s c m r)

theorem State.emptyRow_of_beats {c : Inflight} {m : Cmd} (h : (m.geo c.regs).c ≠ 0) (r : Nat) : s.emptyRow c m r = s := by
  unfold State.emptyRow
  exact if_pos (.inl h)

/-! ### A row finished -/

/-- A row as its command leaves it: the state, the command and the writes of its close. -/
def State.rowClosed (s : State) (e : Inflight) (m : Cmd) : RowSt × Inflight × List Wr :=
  let l := e.rowLine m e.rowsDone
  if m.rc.close then s.closeRow e m (s.loadRow l.1 l.2) e.rowsDone else (s.loadRow l.1 l.2, e, [])

/-- A command that counts row `r`, whose state is `y`. -/
def Inflight.rowFinished (c : Inflight) (r cycle : Nat) (y : RowSt) : Inflight :=
  { c with
    rowsDone := r + 1, since := cycle, flags := c.flags.or (Flags.ofMask (y.status.toNat % 32)), counts := c.counts.filter fun z => z.1 != r
    xund := c.xund || y.bit sXUND, xovr := c.xovr || y.bit sXOVR }

/-- A command with stores that wait for retirement. -/
def Inflight.keeping (c : Inflight) (late : List Wr) : Inflight := { c with writes := c.writes ++ late }

theorem Inflight.keeping_ite (c : Inflight) (p : Bool) (late : List Wr) :
    (if p then c.keeping late else c) = c.keeping (if p then late else []) := by
  cases p
  · simp [Inflight.keeping]
  · rfl

theorem State.finishRow_eq {e : Inflight} {m : Cmd} (hrows : m.op.rows = true) :
    let l := e.rowLine m e.rowsDone
    let f := s.rowClosed e m
    let y := { f.1 with epoch := e.slot.epoch }
    let st := if m.rc.st then recordWrites (m.get .rs) none e.rowsDone y.bytes else []
    let d := (f.2.1.rowFinished e.rowsDone s.tb.cycle y).keeping (if m.rc.ld then st else [])
    s.finishRow e m = (((s.bump 14 (m.closeCount e.modes.inflim (s.loadRow l.1 l.2))).storeRow l.1 y).modInflight d.tag fun _ => d).commitBeat
      d.tag (f.2.2 ++ if m.rc.ld then [] else st) := by
  intro l f y st d
  have hd : d = if m.rc.ld then (f.2.1.rowFinished e.rowsDone s.tb.cycle y).keeping st else f.2.1.rowFinished e.rowsDone s.tb.cycle y :=
    (Inflight.keeping_ite _ _ _).symm
  rw [hd]
  unfold State.finishRow
  rw [hrows, Bool.and_true]
  rfl

/-- Closing a row keeps the command's name, what it gathers and what it waits for. -/
theorem State.rowClosed_kept (e : Inflight) (m : Cmd) : let c := (s.rowClosed e m).2.1
    c.slot = e.slot ∧ c.muted = e.muted ∧ c.conflict = e.conflict ∧ c.gather = e.gather ∧ c.due = e.due := by
  intro c
  have hc : c = e ∨ ∃ r v t, c = e.addCounts r v t := by
    unfold c State.rowClosed
    dsimp only
    split
    · unfold State.closeRow
      dsimp only
      split
      · exact .inr ⟨_, _, _, rfl⟩
      · exact .inl rfl
    · exact .inl rfl
  rcases hc with h | ⟨r, v, t, h⟩ <;> rw [h] <;> exact ⟨rfl, rfl, rfl, rfl, rfl⟩

/-! ### The step -/

theorem State.rowResult_rows {c e : Inflight} (hs : started s) (hfind : (s.stream.inflight.find? fun c => s.rowReady c) = some c)
    (hrows : c.cmd.op.rows = true) (hconf : c.conflict = none) (hin : (s.emptyRow c c.cmd c.rowsDone).inflight? c.tag = some e)
    (hf : e.fault = none) : s.rowResult = (s.emptyRow c c.cmd c.rowsDone).finishRow e c.cmd := by
  unfold State.rowResult
  rw [hfind]
  dsimp only
  rw [running_of s hs.1 hs.2, if_neg (by decide), hconf, ite_self, hrows]
  dsimp only
  rw [if_neg (by decide), hin]
  dsimp only
  rw [hf, if_neg (by simp)]

theorem State.rowResult_packed {c : Inflight} (hs : started s) (hfind : (s.stream.inflight.find? fun c => s.rowReady c) = some c)
    (hrows : c.cmd.op.rows = false) (hconf : c.conflict = none) (hspad : s.spad.synd = []) :
    let a := ({ st := s, c := c, ws := [], back := [], hard := 0, n := 0 } : BeatAcc).packRow (s.flow c c.cmd) c.rowsDone
      ((upTo (c.cmd.outLen c.regs)).map fun k => s.keepBit c.cmd c.regs c.rowsDone k)
    s.rowResult = (s.modInflight c.tag fun _ => { a.c with rowsDone := c.rowsDone + 1, since := s.tb.cycle }).commitBeat c.tag a.ws := by
  intro a
  unfold State.rowResult
  rw [hfind]
  dsimp only
  rw [running_of s hs.1 hs.2, if_neg (by decide), hconf, ite_self, hrows]
  dsimp only
  rw [State.readOrFail_clean hspad]
  rfl

theorem State.rowResult_conflict {c : Inflight} {k : Conflict} (hs : started s) (hfind : (s.stream.inflight.find? fun c => s.rowReady c) = some c)
    (htotal : c.total = 0) (hconf : c.conflict = some k) : s.rowResult = s.failBank c k := by
  unfold State.rowResult
  rw [hfind]
  dsimp only
  rw [running_of s hs.1 hs.2, if_neg (by decide), if_pos htotal, hconf]

end

theorem Poised.row (u : State) (k line : Nat) (y : RowSt) : Poised u ((u.bump 14 k).storeRow line y) := rfl

theorem State.row_stream (u : State) (k line : Nat) (y : RowSt) : ((u.bump 14 k).storeRow line y).stream = u.stream := rfl

/-- The end of a step that has logged nothing of its own since `u`. -/
theorem State.cycleLog_eq_of {s t u : State} (h : t.ledger = u.ledger)
    (k : t = { u with stream := t.stream, st := t.st, spad := t.spad, rolls := t.rolls, out := t.out, act := t.act }) (hout : t.out = u.out) :
    t.cycleLog s = { u with stream := t.stream, st := t.st, spad := t.spad, rolls := t.rolls, act := t.act, ledger := (u.cycleLog s).ledger } := by
  have hl : (t.cycleLog s).ledger = (u.cycleLog s).ledger := congrArg (fun l : Ledger => l.inOrder s.ledger.tail) h
  rw [hout] at k
  rw [← hl]
  exact congrArg (fun x : State => ({ x with ledger := (t.cycleLog s).ledger } : State)) k

/-! ### A bank conflict -/

/-- A command that carries a fault. -/
def Inflight.failing (code : W16) (detail : List Byte) (c : Inflight) : Inflight := { c with fault := some code, detail := detail }

/-- A fault after issue changes its command, the presentation held for it and the Ledger. -/
theorem State.failAfter_eq (s : State) (c : Inflight) (code : W16) (detail : List Byte) : ∃ acc, s.failAfter c code detail =
    (State.modInflight { s with stream := { s.stream with acc := acc } } c.tag (Inflight.failing code detail)).log code c.tag (some c.slot.tenant) detail := by
  rw [State.failAfter, State.dropAcc]
  split
  · exact ⟨none, rfl⟩
  · exact ⟨s.stream.acc, rfl⟩

theorem State.failBank_spec {s : State} {c : Inflight} (hin : s.inflight? c.tag = some c) (k : Conflict) : let t := s.failBank c k
    t.inflight? c.tag = some { c with fault := some 0x0103, detail := k.detail, muted := true, gather := [], writes := [] }
      ∧ (∀ g, g ≠ c.tag → t.inflight? g = s.inflight? g) ∧ t.stream = { s.stream with inflight := t.stream.inflight, acc := t.stream.acc }
      ∧ t.ledger = (s.log 0x0103 c.tag (some c.slot.tenant) k.detail).ledger
      ∧ t.spad = { s.spad with health := { s.spad.health with conflicts := satAdd s.spad.health.conflicts 1 } }
      ∧ t = { s with stream := t.stream, spad := t.spad, ledger := t.ledger, evRings := t.evRings } := by
  intro t
  obtain ⟨acc, he⟩ := s.failAfter_eq c cBANKC k.detail
  generalize hu : ({ s with stream := { s.stream with acc := acc } } : State) = u at he
  have hin' : u.inflight? c.tag = some c := by rw [← hu]; exact hin
  have h1 := State.onlyCommand_modInflight hin' (f := Inflight.failing cBANKC k.detail) fun _ => rfl
  have h2 := onlyCommand_trans h1 (State.onlyCommand_modInflight h1.2.2.1 (f := Inflight.mute) fun _ => rfl)
  have ht : t = (((u.modInflight c.tag (Inflight.failing cBANKC k.detail)).log cBANKC c.tag (some c.slot.tenant) k.detail).modInflight c.tag
      Inflight.mute).modHealth fun h => { h with conflicts := satAdd h.conflicts 1 } :=
    congrArg (fun x : State => (x.modInflight c.tag Inflight.mute).modHealth fun h => { h with conflicts := satAdd h.conflicts 1 }) he
  have hstream : t.stream = ((u.modInflight c.tag (Inflight.failing cBANKC k.detail)).modInflight c.tag Inflight.mute).stream := by
    rw [ht]
    rfl
  obtain ⟨g1, -, g3, g4⟩ := h2
  subst hu
  refine ⟨(State.inflight?_congr hstream _).trans g3, fun g hg => (State.inflight?_congr hstream g).trans (g4 g hg), ?_, ?_, ?_, ?_⟩
  · rw [hstream, g1]
  · rw [ht]
    rfl
  · rw [ht]
    rfl
  · rw [ht]
    rfl

/-- Settles O19: a row is finished by storing its state, replacing its command and committing its writes, and each of the three changes its own
places alone; a conflict before the first row writes nothing. -/
theorem rowResultIsWritten : Obligations.RowResultIsWritten := by
  unfold Obligations.RowResultIsWritten
  refine ⟨?_, ?_, ?_⟩
  · intro c e s m u hs hfind hrows hspad hin hf hec hcc hmuted l x f y st ws d
    have hspad' : u.spad.synd = [] := by rwa [State.emptyRow_spad hspad]
    have hcycle : u.tb = s.tb := State.emptyRow_cycle _ _ _
    obtain ⟨hslot, hm, hconf, hgather, hdue⟩ := State.rowClosed_kept (s := u) e m
    have htag : d.tag = c.tag := (congrArg Slot.tag hslot).trans (State.tag_of_inflight? hin)
    have hfinish : u.finishRow e m =
        (((u.bump 14 (m.closeCount e.modes.inflim x)).storeRow l.1 y).modInflight c.tag fun _ => d).commitBeat c.tag ws := by
      have h := State.finishRow_eq (s := u) (e := e) hrows
      rw [hcycle] at h
      rw [← htag]
      exact h
    have hp : Poised u ((u.bump 14 (m.closeCount e.modes.inflim x)).storeRow l.1 y) := Poised.row _ _ _ _
    have hstream := State.row_stream u (m.closeCount e.modes.inflim x) l.1 y
    have ho := onlyCommand_congr (State.onlyCommand_replace ((State.inflight?_congr hstream _).trans hin) htag) hstream.symm rfl rfl
    have hp' := hp.modInflight c.tag fun _ => d
    have hcommit := committed hp' ho (hm.trans hmuted) (hconf.trans hec) hspad' ws
    rw [← hfinish, ← State.rowResult_rows hs hfind hrows hcc hin hf] at hcommit
    have hu : (m.geo c.regs).c ≠ 0 → u = s := fun hc => State.emptyRow_of_beats hc _
    have hrest : d.gather = e.gather ∧ d.due = e.due := ⟨hgather, hdue⟩
    have hexec : exec .rowResult s = .next (s.rowResult.cycleLog s) := rfl
    clear_value ws d y l x u
    generalize s.rowResult = t at hcommit hexec
    obtain ⟨h1, h2, h3, h4, h5, h6, hled, h7⟩ := hcommit
    exact ⟨_, hexec, hu, h1, hrest.1, hrest.2, h4, h2, h3, h6, State.cycleLog_eq_of hled h7 h5⟩
  · intro c s m hs hfind hin hrows hconf hmuted hspad a d
    have hexec : s.rowResult = (s.modInflight c.tag fun _ => d).commitBeat c.tag a.ws := State.rowResult_packed hs hfind hrows hconf hspad
    have h0 : BeatAcc.Kept s c { st := s, c := c, ws := [], back := [], hard := 0, n := 0 } := ⟨OnlyRows.refl s, rfl, rfl, rfl⟩
    have hk : a.Kept s c := BeatAcc.packRow_kept h0 _ _ _
    have htag : d.tag = c.tag := congrArg Slot.tag hk.slot
    have hp : Poised s (s.modInflight c.tag fun _ => d) := rfl
    have hcommit := committed hp (State.onlyCommand_replace hin htag) (hk.muted.trans hmuted) (hk.conflict.trans hconf) hspad a.ws
    rw [← hexec] at hcommit
    obtain ⟨h1, h2, h3, h4, h5, h6, hled, h7⟩ := hcommit
    rw [h5, h6] at h7
    have hnext : exec .rowResult s = .next (s.rowResult) := congrArg Host.Outcome.next (State.cycleLog_same _ s hled)
    exact ⟨_, hnext, h1, h2, h3, h4, h7⟩
  · intro c k s hs hfind hin htotal hconf
    obtain ⟨h1, h2, h3, h4, h5, h6⟩ := State.failBank_spec hin k
    exact ⟨_, congrArg Host.Outcome.next ((congrArg (State.cycleLog · s) (State.rowResult_conflict hs hfind htotal hconf)).trans
      (State.cycleLog_log _ _ _ _ _ _ h4)), h1, h2, h3, h4, h5, h6⟩

end Sys2Proof.Machine
end

section
/-! A beat starts its read stage (R67, R89, R90, R97, R301). -/
namespace Sys2Proof.Machine
open Sys2Proof Sys2Proof.Claims

/-! ### Counters -/

theorem vecModify_id {α : Type} {n : Nat} (v : Vector α n) (i : Nat) {f : α → α} (hf : ∀ a, f a = a) : vecModify v i f = v := by
  ext k hk
  simp [vecModify, hf]

theorem State.bump_zero (s : State) (i : Nat) : s.bump i 0 = s := by
  have h : vecModify s.act i (fun v => satAdd v 0) = s.act := vecModify_id _ _ satAdd_zero
  exact congrArg (fun x => ({ s with act := x } : State)) h

theorem State.bump_if (s : State) (p : Prop) [Decidable p] (i k : Nat) : (if p then s.bump i k else s) = s.bump i (if p then k else 0) := by
  split
  · rfl
  · exact (s.bump_zero i).symm

theorem State.bump_act_congr {u s : State} (h : u.act = s.act) (i k : Nat) : (u.bump i k).act = (s.bump i k).act :=
  congrArg (fun x => vecModify x i fun v => satAdd v k) h

theorem Flags.or_none (a : Flags) : a.or {} = a := by
  cases a
  simp [Flags.or]

/-! ### What a read takes of the stores -/

section
variable {s u : State}

theorem State.codeAt_congr (h : u.spad = s.spad) (d : Desc) (p : Option RollPlace) (r k : Nat) : u.codeAt d p r k = s.codeAt d p r k := by
  rw [State.codeAt, h, State.codeAt]

theorem State.wordAt_congr (h : u.spad = s.spad) (d : Desc) (r k : Nat) : u.wordAt d r k = s.wordAt d r k :=
  congrArg _ (State.codeAt_congr h _ _ _ _)

theorem State.keepBit_congr (h : u.spad = s.spad) (m : Cmd) (rg : Regs) (r k : Nat) : u.keepBit m rg r k = s.keepBit m rg r k := by
  simp only [State.keepBit, State.maskBit, h]

theorem State.latchOf_congr (h : u.spad = s.spad) (c : Inflight) (m : Cmd) : u.latchOf c m = s.latchOf c m := by
  simp only [State.latchOf, State.wordAt_congr h]

theorem State.emptyIn_congr (h : u.spad = s.spad) (c : Inflight) (m : Cmd) (r : Nat) : u.emptyIn c m r = s.emptyIn c m r := by
  simp only [State.emptyIn, State.recordBytes, State.targetOf, State.wordAt_congr h, h]

theorem State.rowIns_congr (h : u.spad = s.spad) (c : Inflight) (m : Cmd) (g : Geo) (b : Nat) : u.rowIns c m g b = s.rowIns c m g b := by
  simp only [State.rowIns, State.emptyIn_congr h, State.keepBit_congr h]

theorem State.preImages_congr (h : u.st = s.st) (c : Inflight) (m : Cmd) (rows : List Nat) : u.preImages c m rows = s.preImages c m rows := by
  simp only [State.preImages, State.rowLines, h]

/-- Reads of stores that are clean find nothing. -/
theorem State.readStores_clean (ht : s.st.tillSynd = []) (hr : s.st.rowSynd = []) (hc : s.st.curveSynd = []) (htb : s.st.tillBad = [])
    (hrb : s.st.rowBad = []) {m : Cmd} (hv : ∀ k, m.curveSlot = some k → (vecGet s.st.curves k Curve.default).st = .valid) (c : Inflight)
    (es ls : List Nat) : s.readStores c m es ls = (s, none) := by
  have hks (ks : List Nat) (h : ∀ k ∈ ks, m.curveSlot = some k) : (ks.find? fun k => (vecGet s.st.curves k .default).st != .valid) = none :=
    List.find?_eq_none.mpr fun k hk => by simp [hv k (h k hk)]
  have hes : es.find? (fun e => s.st.tillBad.contains e) = none := List.find?_eq_none.mpr fun k _ => by simp [htb]
  have hls : ls.find? (fun l => s.st.rowBad.contains l) = none := List.find?_eq_none.mpr fun k _ => by simp [hrb]
  unfold State.readStores
  extract_lets ks ctx bad found fail s1
  have hs1 : s1 = s := by
    unfold s1
    rw [State.readStructure_clean (n := 1) ht, State.readStructure_clean (n := 2) hr, State.readStructure_clean (n := 4) hc]
  have hk : (ks.find? fun k => (vecGet s.st.curves k .default).st != .valid) = none := by
    refine hks ks fun k hk => ?_
    unfold ks at hk
    split at hk
    · next j hj => rw [hj, List.mem_singleton.mp hk]
    · cases hk
  rw [hs1, hes, hls, hk]
  rfl

theorem State.readInputs_clean (h : s.spad.synd = []) (ht : s.st.tillSynd = []) (hr : s.st.rowSynd = []) (hc : s.st.curveSynd = [])
    (htb : s.st.tillBad = []) (hrb : s.st.rowBad = []) {m : Cmd}
    (hv : ∀ k, m.curveSlot = some k → (vecGet s.st.curves k Curve.default).st = .valid) (c : Inflight) (ws es ls : List Nat) :
    s.readInputs c m ws es ls = (s, true) := by
  unfold State.readInputs
  rw [State.readOrFail_clean h]
  dsimp only
  rw [if_neg (by decide), State.readStores_clean ht hr hc htb hrb hv]

end

/-! ### Elements -/

/-- An element stands where its segment puts it. -/
theorem State.element_place (s : State) (c : Inflight) (m : Cmd) (g : Geo) (ps : List (Role × RollPlace)) (acc : List (Option W32)) (b : Nat)
    (sg : Seg) (i : Nat) : let e := s.element c m g ps acc b sg i
    (e.row, e.k, e.pos) = (sg.row, sg.k + i, sg.pos + i) := by
  intro e
  unfold e State.element
  extract_lets
  split
  · rfl
  split
  · rfl
  · split <;> rfl

theorem State.beatElems_places (s : State) (c : Inflight) (m : Cmd) (g : Geo) (ps : List (Role × RollPlace)) (acc : List (Option W32)) (b : Nat) :
    (s.beatElems c m g ps acc b).map (fun e => (e.row, e.k, e.pos))
      = ((g.segs b).map fun sg => (upTo sg.len).map fun i => (sg.row, sg.k + i, sg.pos + i)).flatten := by
  rw [State.beatElems, List.map_flatten, List.map_map]
  congr 1
  refine List.map_congr_left fun sg _ => ?_
  rw [Function.comp_apply, List.map_map]
  exact List.map_congr_left fun i _ => s.element_place c m g ps acc b sg i

/-! ### The step -/

/-- A command whose beat `b` has started to read. -/
def Inflight.reading (m : Cmd) (cycle : Nat) (beat : Beat) (latch : List W32) (bcast : List Bcast) (fl : Flags) (pre : List (Nat × List Byte))
    (rows : Nat) (fresh : Bool) (c : Inflight) : Inflight :=
  { c with
    since := cycle, started := c.started + 1, left := c.left - 1, beats := c.beats ++ [beat]
    recs := if m.rc.ld then beat.ins.map fun x => (x.row, x.record) else []
    latch := latch, bcast := bcast, flags := c.flags.or fl, pre := c.pre ++ pre, opened := c.opened + rows
    accSeen := if fresh then c.accSeen + 1 else c.accSeen }

/-- The unit as the start of a beat counts it and takes the presentation. -/
def State.readCounted (s : State) (c : Inflight) (m : Cmd) (b : Nat) (fresh : Bool) : State :=
  (((((s.modStream fun st => { st with lastStart := some s.tb.cycle, acc := if fresh then none else st.acc }).bump 19 (if fresh then 1 else 0)).bump 14
    (if b = 0 ∧ m.op = .opt ∧ m.rc.alg = 0 then 5 else 0)).bump 12 1).bump 17 (piecesAt c.pieces.1 b)).modHealth fun h =>
      { h with slips := satAdd h.slips (Config.slips c.tag.toNat b s.tb.cycle) }

section
variable {s : State} {c : Inflight} {m : Cmd} {g : Geo} {b : Nat}

/-- Whether a beat takes a presentation of the matrix engine. -/
def Cmd.takesPresentation (m : Cmd) (g : Geo) (b : Nat) : Bool :=
  ((m.get .x).kind == .acc || (m.get .y).kind == .acc) && (g.pass b == 0 || !m.staged g)

/-- The rows that begin in a beat. -/
def Geo.begun (g : Geo) (b : Nat) : List Nat := ((g.segs b).filter fun sg => g.startsRow b sg).map fun sg => sg.row

/-- The words latched for a beat and the flags of forming them. -/
def State.latchAt (s : State) (c : Inflight) (m : Cmd) (b : Nat) : List W32 × Flags := if b = 0 then s.latchOf c m else (c.latch, {})

/-- The presentation that a beat takes. -/
def State.accAt (s : State) (m : Cmd) (g : Geo) (b : Nat) : List (Option W32) := if m.takesPresentation g b then s.stream.acc.getD [] else []

/-- The beat `b` of a command as it is read. -/
def State.beatAt (s : State) (c : Inflight) (m : Cmd) (g : Geo) (b : Nat) : Beat :=
  { idx := b, ins := s.rowIns c m g b
    elems := s.beatElems { c with latch := (s.latchAt c m b).1, bcast := latchJoin c.bcast (s.bcastLatch c m g b) } m g (s.places c m) (s.accAt m g b) b }

/-- A command whose beat `b` the unit has begun to read. -/
def State.readingAt (s : State) (c : Inflight) (m : Cmd) (g : Geo) (b : Nat) : Inflight → Inflight :=
  Inflight.reading m s.tb.cycle (s.beatAt c m g b) (if m.takesPresentation g b && m.staged g then validWords (s.accAt m g b) else (s.latchAt c m b).1)
    (latchJoin c.bcast (s.bcastLatch c m g b)) (s.latchAt c m b).2 (s.preImages c m (g.begun b)) (g.begun b).length (m.takesPresentation g b)

theorem State.readBeat_eq (hread : ∀ ws es ls, s.readInputs c m ws es ls = (s, true))
    (hhp : m.op = .opt → b = 0 → hpBad m.rc.alg m.rc.step (s.latchOf c m).1 = none)
    (hbad : badRecord c m ((s.rowIns c m g b).filter fun x => (g.begun b).contains x.row) = none) :
    s.readBeat c m g b = (s.readCounted c m b (m.takesPresentation g b)).modInflight c.tag (s.readingAt c m g b) := by
  have hhp' : (if m.op = .opt ∧ b = 0 then hpBad m.rc.alg m.rc.step (s.latchAt c m b).1 else none) = none := by
    split
    · next h => rw [State.latchAt, if_pos h.2, hhp h.1 h.2]
    · rfl
  unfold State.readBeat
  dsimp only
  rw [hread]
  dsimp only
  rw [if_neg (by decide)]
  rw [show (if m.op = .opt ∧ b = 0 then hpBad m.rc.alg m.rc.step (if b = 0 then s.latchOf c m else (c.latch, {})).1 else none) = none from hhp']
  dsimp only
  unfold Geo.begun at hbad
  rw [hbad]
  dsimp only
  simp only [State.bump_if]
  rfl

theorem State.beatReadStart_eq {c : Inflight} (hs : started s) (hrun : s.pw.state = .run) (hnext : s.nextBeat = some c) (hcycle : s.issueCycle = true)
    (hstop : s.stopped c.tag = false) (hconf : ∀ k, c.conflict = some k → k.read = true → c.started < k.beat)
    (hheld : s.beatHeld c c.cmd (c.cmd.geo c.regs) c.started = false)
    (hacc : c.cmd.takesPresentation (c.cmd.geo c.regs) c.started = true → s.stream.acc ≠ none)
    (hgot : (s.acquireAll (s.slotsNeeded c c.cmd (c.cmd.geo c.regs) c.started)).2 = true) :
    s.beatReadStart = (s.acquireAll (s.slotsNeeded c c.cmd (c.cmd.geo c.regs) c.started)).1.readBeat c c.cmd (c.cmd.geo c.regs) c.started := by
  have hgo : State.beatReadStart.go s c c.cmd (c.cmd.geo c.regs) c.started =
      (s.acquireAll (s.slotsNeeded c c.cmd (c.cmd.geo c.regs) c.started)).1.readBeat c c.cmd (c.cmd.geo c.regs) c.started := by
    have hwait : (c.cmd.takesPresentation (c.cmd.geo c.regs) c.started && s.stream.acc.isNone) = false := by
      rw [Bool.and_eq_false_iff, Option.isNone_eq_false_iff, Option.isSome_iff_ne_none]
      by_cases h : c.cmd.takesPresentation (c.cmd.geo c.regs) c.started = true
      · exact .inr (hacc h)
      · exact .inl (Bool.eq_false_of_not_eq_true h)
    unfold State.beatReadStart.go
    dsimp only
    rw [hheld, Bool.false_or, if_neg (by rw [Bool.not_eq_true]; exact hwait), hgot, if_pos rfl]
  rw [State.beatReadStart, hnext]
  dsimp only
  rw [running_of s hs.1 hs.2, hrun, hcycle, hstop, if_neg (by decide)]
  split
  · next k hk =>
    have : (k.read && decide (k.beat ≤ c.started)) = false := by
      rw [Bool.and_eq_false_iff, decide_eq_false_iff_not, not_le]
      by_cases h : k.read = true
      · exact .inr (hconf k hk h)
      · exact .inl (Bool.eq_false_of_not_eq_true h)
    rw [this, if_neg Bool.false_ne_true, hgo]
  · exact hgo

/-- What the start of a beat changes beside its command. -/
theorem State.readCounted_frame (s : State) (c : Inflight) (m : Cmd) (b : Nat) (fresh : Bool) : let w := s.readCounted c m b fresh
    w.stream = { s.stream with acc := if fresh then none else s.stream.acc, lastStart := some s.tb.cycle }
      ∧ w.act = ((((s.bump 19 (if fresh then 1 else 0)).bump 14 (if b = 0 ∧ m.op = .opt ∧ m.rc.alg = 0 then 5 else 0)).bump 12 1).bump 17
          (piecesAt c.pieces.1 b)).act
      ∧ w.spad = { s.spad with health := { s.spad.health with slips := w.spad.health.slips } }
      ∧ w = { s with stream := w.stream, act := w.act, spad := w.spad } := by
  unfold State.readCounted
  generalize (if fresh then 1 else 0) = n1
  generalize (if b = 0 ∧ m.op = .opt ∧ m.rc.alg = 0 then 5 else 0) = n2
  generalize piecesAt c.pieces.1 b = n3
  generalize hX : (s.modStream fun st => { st with lastStart := some s.tb.cycle, acc := if fresh then none else st.acc }) = X
  have hXact : X.act = s.act := by rw [← hX]; rfl
  have hact := State.bump_act_congr (State.bump_act_congr (State.bump_act_congr (State.bump_act_congr hXact 19 n1) 14 n2) 12 1) 17 n3
  have hY : OnlyAct X ((((X.bump 19 n1).bump 14 n2).bump 12 1).bump 17 n3) := by
    have h : OnlyAct X X := rfl
    exact (((h.bump _ _).bump _ _).bump _ _).bump _ _
  generalize (((X.bump 19 n1).bump 14 n2).bump 12 1).bump 17 n3 = Y at hact hY
  have hY' : Y = { s with
      stream := { s.stream with acc := if fresh then none else s.stream.acc, lastStart := some s.tb.cycle }, act := Y.act } := by
    rw [← hX] at hY
    exact hY
  have hstream : Y.stream = { s.stream with acc := if fresh then none else s.stream.acc, lastStart := some s.tb.cycle } :=
    (congrArg State.stream hY').trans rfl
  have hspad : Y.spad = s.spad := (congrArg State.spad hY').trans rfl
  refine ⟨hstream, hact, ?_, ?_⟩
  · rw [State.modHealth_spad, hspad]
  · rw [State.modHealth_stream, State.modHealth_act, State.modHealth_spad, hstream, hspad]
    exact congrArg (fun x : State => x.modHealth fun h => { h with slips := satAdd h.slips (Config.slips c.tag.toNat b s.tb.cycle) }) hY'

theorem State.inflight?_of_inflight {t : State} (h : t.stream.inflight = s.stream.inflight) (g : W16) : t.inflight? g = s.inflight? g := by
  rw [State.inflight?, h, State.inflight?]

/-- The flags of latching join those of the command. -/
theorem State.latchAt_flags (s : State) (c : Inflight) (m : Cmd) (b : Nat) :
    c.flags.or (s.latchAt c m b).2 = if b = 0 then c.flags.or (s.latchOf c m).2 else c.flags := by
  rw [State.latchAt]
  split
  · rfl
  · exact Flags.or_none _

/-- The command as it reads its beat, by the stores of the unit before its slots were taken. -/
theorem State.readingAt_eq {u : State} (hspad : u.spad = s.spad) (hst : u.st = s.st) (htb : u.tb = s.tb) : let d := u.readingAt c m g b c
    d = { c with
      since := s.tb.cycle, started := c.started + 1, left := c.left - 1, beats := d.beats
      recs := if m.rc.ld then (s.rowIns c m g b).map fun x => (x.row, x.record) else []
      latch := d.latch, bcast := d.bcast, flags := if b = 0 then c.flags.or (s.latchOf c m).2 else c.flags
      pre := c.pre ++ s.preImages c m (g.begun b), opened := c.opened + (g.begun b).length
      accSeen := if m.takesPresentation g b then c.accSeen + 1 else c.accSeen } := by
  intro d
  rw [← State.rowIns_congr hspad, ← State.preImages_congr hst, ← htb, ← State.latchOf_congr hspad, ← State.latchAt_flags]
  rfl

theorem State.beatAt_places (s : State) (c : Inflight) (m : Cmd) (g : Geo) (b : Nat) : (s.beatAt c m g b).elems.map (fun e => (e.row, e.k, e.pos))
    = ((g.segs b).map fun sg => (upTo sg.len).map fun i => (sg.row, sg.k + i, sg.pos + i)).flatten :=
  State.beatElems_places s _ m g _ _ b

end

/-- Settles O17: with stores that read clean the read stage raises nothing, and what it takes of the stores does not depend on the slots
that are taken before it. -/
theorem beatStartsReading : Obligations.BeatStartsReading := by
  unfold Obligations.BeatStartsReading
  intro c s m g b fresh rows ins got u hs hrun hnext hin hcycle hstop hconf hheld hacc hgot hsynd htill hrow hcurve htb hrb hv hhp hbad
  have hslots : u = { s with stream := { s.stream with claims := u.stream.claims }, rolls := u.rolls, ledger := u.ledger, evRings := u.evRings } :=
    OnlySlots.acquireAll s _
  have hexec : exec .beatReadStart s = .next ((u.readBeat c m g b).cycleLog s) := congrArg (fun x : State => Host.Outcome.next (x.cycleLog s))
    (State.beatReadStart_eq hs hrun hnext hcycle hstop hconf hheld hacc hgot)
  have hnone : (∀ x ∈ s.stream.claims, x.tag ≠ c.tag) → u = s := fun h => by
    have hf : (s.stream.claims.filter fun x => x.tag == c.tag) = [] := List.filter_eq_nil_iff.mpr fun x hx => by simpa using h x hx
    have hn : s.slotsNeeded c m g b = [] := by
      rw [State.slotsNeeded, hf]
      rfl
    unfold u got
    rw [hn]
    rfl
  clear_value u
  have hspad : u.spad = s.spad := (congrArg State.spad hslots).trans rfl
  have hst : u.st = s.st := (congrArg State.st hslots).trans rfl
  have hregs : u.regs = s.regs := (congrArg State.regs hslots).trans rfl
  have hesc : u.escrow = s.escrow := (congrArg State.escrow hslots).trans rfl
  have hout : u.out = s.out := (congrArg State.out hslots).trans rfl
  have hact : u.act = s.act := (congrArg State.act hslots).trans rfl
  have htime : u.tb = s.tb := (congrArg State.tb hslots).trans rfl
  have hstream : u.stream = { s.stream with claims := u.stream.claims } := (congrArg State.stream hslots).trans rfl
  have hread := State.readInputs_clean (s := u) (m := m) (by rwa [hspad]) (by rwa [hst]) (by rwa [hst]) (by rwa [hst]) (by rwa [hst]) (by rwa [hst])
    (by rwa [hst]) c
  have hbeat : u.readBeat c m g b = (u.readCounted c m b fresh).modInflight c.tag (u.readingAt c m g b) :=
    State.readBeat_eq hread (by rwa [State.latchOf_congr hspad]) (by rw [State.rowIns_congr hspad]; exact hbad)
  rw [hbeat] at hexec
  obtain ⟨hws, hwa, hwp, hwf⟩ := u.readCounted_frame c m b fresh
  have hd := State.readingAt_eq (c := c) (m := m) (g := g) (b := b) hspad hst htime
  have hes : ∃ es, (u.readingAt c m g b c).beats = c.beats ++ [{ idx := b, elems := es, ins := ins }]
      ∧ es.map (fun e => (e.row, e.k, e.pos)) = ((g.segs b).map fun sg => (upTo sg.len).map fun i => (sg.row, sg.k + i, sg.pos + i)).flatten :=
    ⟨(u.beatAt c m g b).elems, by rw [show ins = u.rowIns c m g b from (State.rowIns_congr hspad c m g b).symm]; rfl, u.beatAt_places c m g b⟩
  have hin' : (u.readCounted c m b fresh).inflight? c.tag = some c :=
    (State.inflight?_of_inflight (by rw [hws, hstream]) _).trans hin
  have hone := State.onlyCommand_modInflight hin' (f := u.readingAt c m g b) fun _ => rfl
  generalize u.readingAt c m g b = f at hd hes hone hexec
  generalize u.readCounted c m b fresh = v at hws hwa hwp hwf hone hexec
  obtain ⟨h1, h2, h3, h4⟩ := hone
  have hact' : (v.modInflight c.tag f).act = v.act := State.modInflight_act _ _ _
  have hspad' : (v.modInflight c.tag f).spad = v.spad := State.modInflight_spad _ _ _
  have hframe : v.modInflight c.tag f = { u with stream := (v.modInflight c.tag f).stream, act := v.act, spad := v.spad } :=
    congrArg (fun x : State => ({ x with stream := (v.modInflight c.tag f).stream } : State)) hwf
  generalize v.modInflight c.tag f = w at *
  have hled : (w.cycleLog s).ledger = (u.cycleLog s).ledger :=
    congrArg (fun l : Ledger => l.inOrder s.ledger.tail) ((congrArg State.ledger hframe).trans rfl)
  have hwstream : w.stream = { u.stream with
      inflight := w.stream.inflight, acc := if fresh then none else s.stream.acc, lastStart := some s.tb.cycle } := by
    rw [h1, hws, htime, hstream]
  have hother (x : W16) (hx : x ≠ c.tag) : w.inflight? x = s.inflight? x :=
    (h4 x hx).trans (State.inflight?_of_inflight (by rw [hws, hstream]) x)
  refine ⟨w.cycleLog s, f c, hexec, hspad, hst, hregs, hesc, hout, hstream, hnone, hwstream, by rw [State.cycleLog_stream, h2, hws, hstream], h3, hother, hd,
    hes, ?_, ?_, ?_⟩
  · rw [State.cycleLog_act, hact', hwa]
    exact State.bump_act_congr (State.bump_act_congr (State.bump_act_congr (State.bump_act_congr hact _ _) _ _) _ _) _ _
  · rw [State.cycleLog_spad, hspad', hwp, hspad]
  · rw [← hled, State.cycleLog_stream, State.cycleLog_act, State.cycleLog_spad, hact', hspad']
    exact congrArg (fun x : State => ({ x with ledger := (w.cycleLog s).ledger } : State)) hframe

end Sys2Proof.Machine
end
